-- ==== Sys2Proof/Word.lean ====
section
/-! DEFINITION. The word types of the Z4 and their plainest arithmetic (R3, R4, R9). -/

namespace Sys2Proof

/-- A byte of memory. -/
abbrev Byte := BitVec 8
/-- An instruction word (R31) or one 32-bit lane (R123). -/
abbrev W32 := BitVec 32
/-- A uniform register, a virtual address or an 8-byte memory value. -/
abbrev W64 := BitVec 64
/-- A stored error bound (R124). -/
abbrev B16 := BitVec 16

/-- Bits [hi:lo] of `x` as a natural number (R9 `bits`). -/
def bits {w : Nat} (x : BitVec w) (hi lo : Nat) : Nat := (x.toNat >>> lo) % 2 ^ (hi + 1 - lo)

/-- Bit n of `x` (R3). -/
def bit {w : Nat} (x : BitVec w) (n : Nat) : Bool := x.getLsbD n

end Sys2Proof
end

