-- ==== Sys2Proof/Syntax.lean ====
section
/-! DEFINITION. The operand forms and the ONE instruction type: a constructor for every row of the
opcode table, the 193 instruction words first and then the 87 device steps and host stimuli. -/

namespace Sys2Proof

/-- v0–v239 or x0–x7 (R7, R34). -/
inductive VReg where
  | v (n : Fin 240)
  | x (n : Fin 8)
  deriving DecidableEq, Repr

/-- A register field read as a source (R34): a register or one of the special sources 248–251. -/
inductive Src where
  | reg (r : VReg)
  | zero
  | one
  | lane
  | slice
  deriving DecidableEq, Repr

/-- A register field used as a destination (R34): a register, or 248, which discards the result. -/
inductive Dst where
  | reg (r : VReg)
  | discard
  deriving DecidableEq, Repr

/-- s0–s63 (R36). -/
abbrev UReg := Fin 64
/-- p0–p7 (R36). -/
abbrev PReg := Fin 8
/-- h0–h31. -/
abbrev TileNo := Fin 32
/-- rec0–rec223. -/
abbrev RecNo := Fin 224
/-- The first register of a vector range, v0–v239 (R185). -/
abbrev VFirst := Fin 240

/-- A record-or-tile field (R32). -/
inductive RT where
  | record (r : RecNo)
  | tile (h : TileNo)
  deriving DecidableEq, Repr

/-- The modifiers of a `CXP` prefix (R51). -/
structure Cxp where
  c : Src
  negA : Bool
  negB : Bool
  negC : Bool
  absA : Bool
  absB : Bool
  exact : Bool
  deriving DecidableEq, Repr

/-- What `SETB` takes its budget from (R149). -/
inductive SetbSrc where
  | imm (v : BitVec 16)
  | reg (n : UReg)
  deriving DecidableEq, Repr

/-- The scopes of fences and flags (R321). -/
inductive Scope where
  | grp | team | core | dev | sys
  deriving DecidableEq, Repr

/-- The storage a detected error lies in (R441). -/
inductive ErrSite where
  | sector (pa : Nat)
  | tileWord (team : Nat) (h : TileNo) (word : Nat)
  | blockLine (gid : Nat) (v : VReg)
  | accRow (core : Nat) (acc : Fin 16) (row : Nat)
  deriving DecidableEq, Repr

/-- A peer's request arriving over Falan (R287, R337). -/
inductive PeerRead where
  | read (bytes : Nat)
  | add (v : BitVec 64)
  | exchange (v : BitVec 64)
  | compareSwap (cmp new : BitVec 64)
  deriving DecidableEq, Repr

/-- One constructor per row of the opcode table. -/
inductive Instr where
  -- control and issue (R75)
  | nop
  | bra (off : BitVec 24)
  | brx (a : Src)
  | join
  | call (off : BitVec 24)
  | ret
  | regang
  | loops (d : UReg) (off : BitVec 16)
  | exit
  | yield
  | brkp (n : BitVec 16)
  | setm (m : BitVec 24)
  | setmr (a : UReg)
  | ipref (count : BitVec 4) (off : BitVec 20)
  -- vector integer, logic and address (R101)
  | iadd (d : Dst) (a b : Src)
  | isub (d : Dst) (a b : Src)
  | imul (d : Dst) (a b : Src)
  | imulh (d : Dst) (a b : Src)
  | imad (d : Dst) (a b : Src)
  | imin (d : Dst) (a b : Src)
  | imax (d : Dst) (a b : Src)
  | iabs (d : Dst) (a : Src)
  | and (d : Dst) (a b : Src)
  | or (d : Dst) (a b : Src)
  | xor (d : Dst) (a b : Src)
  | andn (d : Dst) (a b : Src)
  | shl (d : Dst) (a b : Src)
  | shr (d : Dst) (a b : Src)
  | sar (d : Dst) (a b : Src)
  | rotl (d : Dst) (a b : Src)
  | bfe (d : Dst) (a b : Src)
  | bfi (d : Dst) (a b : Src)
  | clz (d : Dst) (a : Src)
  | popc (d : Dst) (a : Src)
  | brev (d : Dst) (a : Src)
  | icmp (p : PReg) (cond : BitVec 5) (a b : Src)
  | sel (d : Dst) (a b : Src)
  | mov (d : Dst) (a : Src)
  | movi (d : Dst) (imm : BitVec 16) (pfx : Option (BitVec 24))
  | iaddi (d : Dst) (a : Src) (imm : BitVec 8) (pfx : Option (BitVec 24))
  | lea64 (d : Dst) (a b : Src)
  | iadd64 (d : Dst) (a b : Src)
  | pset (p : PReg) (f : BitVec 4) (pa pb : PReg)
  | shi (d : Dst) (a : Src) (kind : BitVec 2) (amount : BitVec 6)
  -- uniform (R101)
  | sadd (d a b : UReg)
  | ssub (d a b : UReg)
  | smul (d a b : UReg)
  | sand (d a b : UReg)
  | sor (d a b : UReg)
  | sxor (d a b : UReg)
  | sshl (d a b : UReg)
  | sshr (d a b : UReg)
  | smovi (d : UReg) (imm : BitVec 16) (pfx : Option (BitVec 24))
  | smov (d a : UReg)
  | scmp (p : PReg) (cond : BitVec 5) (a b : UReg)
  | srdsr (d : UReg) (number : BitVec 16)
  | swrsr (a : UReg) (number : BitVec 16)
  | vtos (d : UReg) (a : Src) (lane : BitVec 8)
  | stov (d : Dst) (a : UReg)
  | sminmax (d a b : UReg)
  -- floating point (R163)
  | fadd (d : Dst) (a b : Src) (m : Option Cxp)
  | fsub (d : Dst) (a b : Src) (m : Option Cxp)
  | fmul (d : Dst) (a b : Src) (m : Option Cxp)
  | fma (d : Dst) (a b : Src) (m : Option Cxp)
  | ffma (d : Dst) (a b : Src) (m : Option Cxp)
  | fmin (d : Dst) (a b : Src) (m : Option Cxp)
  | fmax (d : Dst) (a b : Src) (m : Option Cxp)
  | fcmp (p : PReg) (cond : BitVec 5) (a b : Src) (m : Option Cxp)
  | fclass (d : Dst) (a : Src) (mask : BitVec 8)
  | frnd (d : Dst) (a : Src)
  | fscale (d : Dst) (a b : Src)
  | fdot2 (d : Dst) (a b : Src) (m : Option Cxp)
  | fdot4 (d : Dst) (a b : Src) (m : Option Cxp)
  | fcpys (d : Dst) (a b : Src)
  -- bounds (R149)
  | bget (d : Dst) (a : Src)
  | bset (d : Dst) (a b : Src)
  | badd (d : Dst) (a b : Src)
  | bclr (d : Dst) (a : Src)
  | bmaxr (d : UReg) (a : Src)
  | setb (src : SetbSrc)
  | bchk (p : PReg) (a : Src)
  | brep (d : UReg) (k : BitVec 3)
  | flags (d : UReg) (clear : BitVec 9)
  -- special functions (R163)
  | rcp (d : Dst) (a : Src)
  | rsq (d : Dst) (a : Src)
  | sqrt (d : Dst) (a : Src)
  | exp2 (d : Dst) (a : Src)
  | log2 (d : Dst) (a : Src)
  | sinpi (d : Dst) (a : Src)
  | cospi (d : Dst) (a : Src)
  | tanh (d : Dst) (a : Src)
  | sigm (d : Dst) (a : Src)
  | fdivf (d : Dst) (a b : Src)
  -- conversion, quantisation and stream decode (R183)
  | cvt (d : Dst) (a : Src) (part : BitVec 3) (src : BitVec 5)
  | pack (d : Dst) (a : VFirst)
  | unpk (d : VFirst) (a : Src) (count : BitVec 3) (first : BitVec 3)
  | qblk (d : Dst) (a : VFirst) (fit b16 : Bool)
  | qapply (d : Dst) (a : VFirst) (b : Src)
  | dq (d : VFirst) (a b : Src)
  | dech (d : VFirst) (a : UReg) (t : TileNo)
  | decht (d : TileNo) (a : UReg) (t : TileNo)
  | decz (d : VFirst) (a : UReg) (t : TileNo)
  | decst (d : UReg)
  | ctab (t : TileNo) (a : UReg) (r : RecNo)
  -- cross-lane (R215)
  | shfl (d : Dst) (a b : Src)
  | shflx (d : Dst) (a : Src) (kind : BitVec 2) (rel : Bool) (n : BitVec 5)
  | bcst (d : Dst) (a : Src) (lane : BitVec 8)
  | vote (p : PReg) (comb : BitVec 2) (kind : BitVec 2) (src : PReg)
  | ballot (d : UReg) (src : PReg)
  | redl (d : Dst) (a : Src) (op : BitVec 3) (seg : Bool) (sp : PReg)
  | scanl (d : Dst) (a : Src) (op : BitVec 3) (seg excl : Bool) (sp : PReg)
  | rwalk (d : UReg) (a : Src) (b : UReg)
  | rnext (d : VFirst) (a : UReg) (b : Src)
  | segm (p : PReg) (a : Src) (tail : Bool)
  -- memory and tiles (R243)
  | ld (d : Dst) (o : Src) (rt : RT)
  | st (data : Src) (o : Src) (rt : RT)
  | ldg (d : Dst) (a : Src) (decl : Bool)
  | stg (data : Src) (a : Src)
  | sld (d : UReg) (o : Src) (r : RecNo)
  | sst (data : UReg) (o : Src) (r : RecNo)
  | pref (hub : Bool) (o : Src) (r : RecNo)
  | cctl (op : BitVec 2) (o : Src) (r : RecNo)
  | talloc (h : TileNo) (a : UReg)
  | tfree (h : TileNo)
  | tinfo (d : UReg) (h : TileNo)
  | tld (d : Dst) (o : Src) (h : TileNo)
  | tst (data : Src) (o : Src) (h : TileNo)
  | tldt (d : VFirst) (o : Src) (h : TileNo)
  | tfill (data : Src) (o : Src) (h : TileNo)
  | tldx (d : Dst) (o : Src) (h : TileNo)
  | tstx (data : Src) (o : Src) (h : TileNo)
  | recsync (r : Option RecNo)
  -- atomics and reductions (R282)
  | aadd (d : Dst) (o : Src) (rt : RT)
  | aand (d : Dst) (o : Src) (rt : RT)
  | aor (d : Dst) (o : Src) (rt : RT)
  | axor (d : Dst) (o : Src) (rt : RT)
  | amin (d : Dst) (o : Src) (rt : RT)
  | amax (d : Dst) (o : Src) (rt : RT)
  | axchg (d : Dst) (o : Src) (rt : RT)
  | acas (d : VFirst) (o : Src) (rt : RT)
  | aincw (d : Dst) (o : Src) (rt : RT)
  | aaddb (d : VFirst) (o : Src) (rt : RT)
  | afadd (d : Dst) (o : Src) (rt : RT)
  | redadd (data : Src) (o : Src) (rt : RT)
  | redfadd (data : Src) (o : Src) (rt : RT)
  | redmin (data : Src) (o : Src) (rt : RT)
  | redmax (data : Src) (o : Src) (rt : RT)
  | rflush
  -- barriers, waits and ordering (R302, R326, R342)
  | bar (p : PReg) (grid : Bool) (cnt : Option UReg) (num : Fin 16)
  | bara (grid : Bool) (cnt : Option UReg) (num : Fin 16)
  | barw (p : PReg) (grid : Bool) (num : Fin 16)
  | bart (p : PReg) (grid : Bool) (num : Fin 16)
  | wait (ld st cp mx : BitVec 6)
  | waitr (counter : BitVec 2) (a : UReg)
  | waita (d : UReg) (o : Src) (rt : RT)
  | mbatch (d : Option UReg)
  | fence (kind : BitVec 2) (scope : Scope)
  | pbar (cum : Bool)
  | stsig (data : Src) (o : Src) (rt : RT)
  -- asynchronous copies (R349)
  | cpy (a : UReg)
  | cpyo (a : UReg) (b : Src)
  | cpyg (a : UReg)
  | cpys (a : UReg)
  | cpyt (a : UReg)
  | engsv (d : UReg)
  | engrs (a : UReg)
  -- matrix (R374)
  | mma (acc : Fin 16) (hA hB : TileNo) (na nb z r : Bool) (p : BitVec 3) (pair : Bool)
  | mshape (a : UReg)
  | accz (mask : BitVec 16)
  | accrd (d : VFirst) (acc : Fin 16) (count : BitVec 4) (b : UReg)
  | accwr (d : VFirst) (acc : Fin 16) (count : BitVec 4) (b : UReg)
  | msave (t : TileNo)
  | mres (t : TileNo)
  | mscale (a : UReg)
  -- contexts and work (R404)
  | enq (d a : UReg) (q : BitVec 6)
  | ctxdead (first : VFirst) (count : BitVec 8)
  | ctxpin (first : VFirst) (count : BitVec 8) (pin : Bool)
  | unseat
  | semsig (a b : UReg)
  -- traps and system (R432)
  | trap (n : BitVec 16)
  | tret (mode : BitVec 2)
  | rdtrap (d : UReg) (k : BitVec 3)
  | rdctx (d a : UReg)
  | wrctx (a b : UReg)
  | pmc (d : UReg) (counter : BitVec 6)
  | errlog (d a b : UReg)
  -- microcoded legacy instructions; their fields are checked at micro-step 0 (R437)
  | lmma3 (d a b : BitVec 8)
  | llds (d a b : BitVec 8)
  | lsts (d a b : BitVec 8)
  | lbar (d a b : BitVec 8)
  -- hints and encodings without an instruction (R42)
  | hintFd (x : BitVec 24)
  | hintFe (x : BitVec 24)
  | illegalOpcode (x : BitVec 24)
  | reservedOpcode (op : BitVec 8) (x : BitVec 24)
  -- steps of the device's own units
  | pick (quarter : Nat)
  | icacheFill (quarter : Nat)
  | sfuResult (gid : Nat)
  | xlaneResult (gid : Nat)
  | conversionResult (gid : Nat)
  | ldStepComplete (gid : Nat)
  | stStepComplete (gid : Nat)
  | atomicLanePerform (gid : Nat)
  | heldFaultEntry (part : Nat)
  | faultReplay (gid : Nat)
  | contextCacheFill (gid : Nat)
  | decodeUnitComplete (core : Nat)
  | dechtComplete (gid : Nat)
  | copyElement (gid : Nat)
  | copyCommandEnd (gid : Nat)
  | matrixEntryStart (core : Nat)
  | matrixEntryRetire (core : Nat)
  | batchComplete (gid : Nat)
  | barrierPhaseComplete (grid : Bool) (owner : Nat) (num : Fin 16)
  | waitaWake (gid : Nat)
  | waitaPoll (gid : Nat)
  | waitaDeadline (gid : Nat)
  | stallQuantumExpiry (asid : Nat)
  | groupEndSeatFree (gid : Nat)
  | seating (core : Nat)
  | preemption (asid core : Nat)
  | contextResume (asid : Nat)
  | starvationBoost (asid : Nat)
  | l1Eviction (core line : Nat)
  | persistBufferDrain
  | hotnessSample (core : Nat)
  | kernelLaunch (asid queue : Nat)
  | semaphoreStep (asid queue : Nat)
  | xshoot (asid queue : Nat)
  | xshootWake (asid queue : Nat)
  | semaphoreWaitRecheck (asid queue : Nat)
  | teamPlacement (kernel : Nat)
  | launchComplete (kernel : Nat)
  -- stimuli of the host, the peers, the management port and the supply
  | frPost (part : Nat) (value : BitVec 64)
  | ctLoad (part : Nat) (value : BitVec 64)
  | swapOut (part : Nat)
  | swapIn (part : Nat)
  | swapComplete (part : Nat)
  | devRst (value : BitVec 64)
  | secAdv (value : BitVec 64)
  | doorbellWrite (vf : Option (Fin 64)) (asid queue : Nat) (value : BitVec 32)
  | registerWrite (offset : Nat) (value : BitVec 64)
  | hostHdmAccess (pa : Nat) (write : Bool) (data : List (BitVec 8))
  | falanWriteArrival (port : Fin 16) (pa : Nat) (data : List (BitVec 8))
  | flushMarker (port : Fin 16)
  | linkTrained (port : Fin 16) (peer : BitVec 8)
  | linkRetrain (port : Fin 16)
  | linkDown (port : Fin 16)
  | noPathKill (gid : Nat)
  | powerLoss
  | globalPersistentFlush
  | powerOnReset
  | deviceReset
  | boot (verified : Bool)
  | vfFunctionLevelReset (vf : Fin 64)
  | d3hot
  | d0
  | d3cold
  | throttleUpdate (watts : BitVec 11) (level : BitVec 3)
  | quarterClockGate (quarter : Nat)
  | coreClockGate (core : Nat)
  | hbmSelfRefresh (stack : Fin 8)
  | pldmMonitoring
  | pldmFirmwareUpdate (digest : BitVec 384) (verified : Bool)
  | spdmAttestation
  | managementPowerLimit (watts : BitVec 11)
  | managementResetRequest
  | managementReset
  | correctedError (unit : Nat) (pa : BitVec 52) (core : Option Nat)
  | uncorrectableError (site : ErrSite)
  | sldComplete (gid : Nat)
  | recsyncComplete (gid : Nat)
  | enqComplete (gid : Nat)
  | releaseComplete (gid : Nat)
  | persistBufferAcceptance
  | markerAcknowledgement (dest : Nat)
  | falanReadArrival (port : Fin 16) (pa : Nat) (req : PeerRead)
  | backInvalidation (port : Fin 3) (line : Nat)
  | linkTrainingStart (port : Fin 16)
  | starvationBoostEnd (asid : Nat)
  | leaveReset
  deriving DecidableEq, Repr

end Sys2Proof
end

