-- ==== Sys2Proof/WellFormed.lean ====
section
/-! DEFINITION. Which instructions have an encoding: the checks on fields that hold whatever the machine's
state (R33, R34, R36 and the encoding table of each chapter). -/

namespace Sys2Proof

/-- The register's number is even (R36). -/
def VReg.even : VReg → Bool
  | .v n => n.val % 2 == 0
  | .x n => n.val % 2 == 0

/-- A pair may start here: an even register, or a special source (R36). -/
def Src.even : Src → Bool
  | .reg r => r.even
  | .zero | .one | .lane | .slice => true

/-- A pair may start here (R36). -/
def Dst.even : Dst → Bool
  | .reg r => r.even
  | .discard => true

/-- An even uniform register. -/
def evenU (n : UReg) : Bool := n.val % 2 == 0

/-- The source-type code of `CVT`: a code of R38 other than 0x0A (R188). -/
def cvtSrcOk (c : BitVec 5) : Bool := decide (c.toNat ≤ 0x19 ∧ c.toNat ≠ 0x0A) && decide (c.toNat ≤ 0x09 ∨ 0x10 ≤ c.toNat)

/-- A register count of `CTXDEAD` and `CTXPIN` (R404). -/
def countOk (c : BitVec 8) : Bool := decide (1 ≤ c.toNat ∧ c.toNat ≤ 240)

/-- What `c` of a `CXP` may hold (R51): a source before `FFMA`, 248 before any other instruction. -/
def cxpOk (ffma : Bool) : Option Cxp → Bool
  | none => true
  | some m => ffma || decide (m.c = .zero)

/-- The opcodes of R40 that select no instruction. -/
def reservedOpcodes : List Nat :=
  [0x0B, 0x0C, 0x0D, 0x0E, 0x0F, 0x2E, 0x2F, 0x4E, 0x4F, 0x59, 0x5A, 0x5B,
   0x5C, 0x5D, 0x5E, 0x5F, 0x6A, 0x6B, 0x6C, 0x6D, 0x6E, 0x6F, 0x7B, 0x7C,
   0x7D, 0x7E, 0x7F, 0x8A, 0x8B, 0x8C, 0x8D, 0x8E, 0x8F, 0xA2, 0xA3, 0xA4,
   0xA5, 0xA6, 0xA7, 0xA8, 0xA9, 0xAA, 0xAB, 0xAC, 0xAD, 0xAE, 0xAF, 0xCB,
   0xCC, 0xCD, 0xCE, 0xCF, 0xD7, 0xE5, 0xE6, 0xE7, 0xEF, 0xF6, 0xF7]

/-- The instruction has an encoding. Device steps and stimuli have none. -/
def Instr.wellFormed : Instr → Bool
  | .nop => true
  | .bra _ => true
  | .brx _ => true
  | .join => true
  | .call _ => true
  | .ret => true
  | .regang => true
  | .loops _ _ => true
  | .exit => true
  | .yield => true
  | .brkp _ => true
  | .iadd _ _ _ => true
  | .isub _ _ _ => true
  | .imul _ _ _ => true
  | .imulh _ _ _ => true
  | .imad _ _ _ => true
  | .imin _ _ _ => true
  | .imax _ _ _ => true
  | .iabs _ _ => true
  | .and _ _ _ => true
  | .or _ _ _ => true
  | .xor _ _ _ => true
  | .andn _ _ _ => true
  | .shl _ _ _ => true
  | .shr _ _ _ => true
  | .sar _ _ _ => true
  | .rotl _ _ _ => true
  | .bfe _ _ _ => true
  | .bfi _ _ _ => true
  | .clz _ _ => true
  | .popc _ _ => true
  | .brev _ _ => true
  | .icmp _ _ _ _ => true
  | .sel _ _ _ => true
  | .mov _ _ => true
  | .movi _ _ _ => true
  | .iaddi _ _ _ _ => true
  | .lea64 d a _ => d.even && a.even
  | .iadd64 d a b => d.even && a.even && b.even
  | .pset _ _ _ _ => true
  | .shi _ _ _ _ => true
  | .sadd _ _ _ => true
  | .ssub _ _ _ => true
  | .smul _ _ _ => true
  | .sand _ _ _ => true
  | .sor _ _ _ => true
  | .sxor _ _ _ => true
  | .sshl _ _ _ => true
  | .sshr _ _ _ => true
  | .smovi _ _ _ => true
  | .smov _ _ => true
  | .scmp _ _ _ _ => true
  | .srdsr _ _ => true
  | .swrsr _ _ => true
  | .vtos _ _ _ => true
  | .stov _ _ => true
  | .sminmax d _ _ => evenU d
  | .fadd _ _ _ m => cxpOk false m
  | .fsub _ _ _ m => cxpOk false m
  | .fmul _ _ _ m => cxpOk false m
  | .fma _ _ _ m => cxpOk false m
  | .ffma _ _ _ m => cxpOk true m
  | .fmin _ _ _ m => cxpOk false m
  | .fmax _ _ _ m => cxpOk false m
  | .fcmp _ _ _ _ m => cxpOk false m
  | .fclass _ _ _ => true
  | .frnd _ _ => true
  | .fscale _ _ _ => true
  | .fdot2 _ _ _ m => cxpOk false m
  | .fdot4 _ _ _ m => cxpOk false m
  | .fcpys _ _ _ => true
  | .bget _ _ => true
  | .bset _ _ _ => true
  | .badd _ _ _ => true
  | .bclr _ _ => true
  | .bmaxr _ _ => true
  | .setb _ => true
  | .bchk _ _ => true
  | .brep _ _ => true
  | .flags _ _ => true
  | .rcp _ _ => true
  | .rsq _ _ => true
  | .sqrt _ _ => true
  | .exp2 _ _ => true
  | .log2 _ _ => true
  | .sinpi _ _ => true
  | .cospi _ _ => true
  | .tanh _ _ => true
  | .sigm _ _ => true
  | .fdivf _ _ _ => true
  | .cvt _ _ _ src => cvtSrcOk src
  | .pack _ _ => true
  | .unpk _ _ _ _ => true
  | .qblk _ _ _ _ => true
  | .qapply _ _ _ => true
  | .dq _ _ _ => true
  | .dech _ a _ => evenU a
  | .decht _ a _ => evenU a
  | .decz _ a _ => evenU a
  | .decst _ => true
  | .ctab _ _ _ => true
  | .shfl _ _ _ => true
  | .shflx _ _ _ _ _ => true
  | .bcst _ _ _ => true
  | .vote _ _ kind _ => decide (kind.toNat < 3)
  | .ballot _ _ => true
  | .redl _ _ op _ _ => decide (op.toNat < 6)
  | .scanl _ _ op _ _ _ => decide (op.toNat < 6)
  | .rwalk d _ _ => evenU d
  | .rnext _ a _ => evenU a
  | .segm _ _ _ => true
  | .ld _ _ _ => true
  | .st _ _ _ => true
  | .ldg _ a _ => a.even
  | .stg _ a => a.even
  | .sld _ _ _ => true
  | .sst _ _ _ => true
  | .pref _ _ _ => true
  | .cctl _ _ _ => true
  | .talloc _ _ => true
  | .tfree _ => true
  | .tinfo _ _ => true
  | .tld _ _ _ => true
  | .tst _ _ _ => true
  | .tldt _ _ _ => true
  | .tfill _ _ _ => true
  | .tldx _ _ _ => true
  | .tstx _ _ _ => true
  | .recsync _ => true
  | .aadd _ _ _ => true
  | .aand _ _ _ => true
  | .aor _ _ _ => true
  | .axor _ _ _ => true
  | .amin _ _ _ => true
  | .amax _ _ _ => true
  | .axchg _ _ _ => true
  | .acas _ _ _ => true
  | .aincw _ _ _ => true
  | .aaddb _ _ _ => true
  | .afadd _ _ _ => true
  | .redadd _ _ _ => true
  | .redfadd _ _ _ => true
  | .redmin _ _ _ => true
  | .redmax _ _ _ => true
  | .rflush => true
  | .bar _ _ _ _ => true
  | .bara _ _ _ => true
  | .barw _ _ _ => true
  | .bart _ _ _ => true
  | .wait _ _ _ _ => true
  | .waitr _ _ => true
  | .waita d _ _ => evenU d
  | .mbatch _ => true
  | .fence _ _ => true
  | .pbar _ => true
  | .stsig _ _ _ => true
  | .cpy a => decide (a.val ≤ 61)
  | .cpyo a _ => decide (a.val ≤ 61)
  | .cpyg a => decide (a.val ≤ 61)
  | .cpys a => decide (a.val ≤ 61)
  | .cpyt a => decide (a.val ≤ 61)
  | .engsv d => decide (d.val ≤ 60)
  | .engrs a => decide (a.val ≤ 60)
  | .mma _ _ _ _ _ _ _ p _ => decide (p.toNat < 5)
  | .mshape a => decide (a.val ≤ 61)
  | .accz _ => true
  | .accrd _ _ _ _ => true
  | .accwr _ _ _ _ => true
  | .msave _ => true
  | .mres _ => true
  | .mscale a => decide (a.val ≤ 61)
  | .enq _ _ _ => true
  | .ctxdead _ count => countOk count
  | .ctxpin _ count _ => countOk count
  | .unseat => true
  | .semsig _ _ => true
  | .trap _ => true
  | .tret mode => decide (mode.toNat < 3)
  | .rdtrap _ _ => true
  | .rdctx _ _ => true
  | .wrctx _ _ => true
  | .pmc _ _ => true
  | .errlog _ _ _ => true
  | .setm _ => true
  | .setmr _ => true
  | .lmma3 _ _ _ => true
  | .llds _ _ _ => true
  | .lsts _ _ _ => true
  | .lbar _ _ _ => true
  | .ipref _ _ => true
  | .hintFd _ => true
  | .hintFe _ => true
  | .illegalOpcode _ => true
  | .reservedOpcode op _ => reservedOpcodes.contains op.toNat
  | .pick _
  | .icacheFill _
  | .sfuResult _
  | .xlaneResult _
  | .conversionResult _
  | .ldStepComplete _
  | .stStepComplete _
  | .atomicLanePerform _
  | .heldFaultEntry _
  | .faultReplay _
  | .contextCacheFill _
  | .decodeUnitComplete _
  | .dechtComplete _
  | .copyElement _
  | .copyCommandEnd _
  | .matrixEntryStart _
  | .matrixEntryRetire _
  | .batchComplete _
  | .barrierPhaseComplete _ _ _
  | .waitaWake _
  | .waitaPoll _
  | .waitaDeadline _
  | .stallQuantumExpiry _
  | .groupEndSeatFree _
  | .seating _
  | .preemption _ _
  | .contextResume _
  | .starvationBoost _
  | .l1Eviction _ _
  | .persistBufferDrain
  | .hotnessSample _
  | .kernelLaunch _ _
  | .semaphoreStep _ _
  | .xshoot _ _
  | .xshootWake _ _
  | .semaphoreWaitRecheck _ _
  | .teamPlacement _
  | .launchComplete _
  | .frPost _ _
  | .ctLoad _ _
  | .swapOut _
  | .swapIn _
  | .swapComplete _
  | .devRst _
  | .secAdv _
  | .doorbellWrite _ _ _ _
  | .registerWrite _ _
  | .hostHdmAccess _ _ _
  | .falanWriteArrival _ _ _
  | .flushMarker _
  | .linkTrained _ _
  | .linkRetrain _
  | .linkDown _
  | .noPathKill _
  | .powerLoss
  | .globalPersistentFlush
  | .powerOnReset
  | .deviceReset
  | .boot _
  | .vfFunctionLevelReset _
  | .d3hot
  | .d0
  | .d3cold
  | .throttleUpdate _ _
  | .quarterClockGate _
  | .coreClockGate _
  | .hbmSelfRefresh _
  | .pldmMonitoring
  | .pldmFirmwareUpdate _ _
  | .spdmAttestation
  | .managementPowerLimit _
  | .managementResetRequest
  | .managementReset
  | .correctedError _ _ _
  | .uncorrectableError _
  | .sldComplete _
  | .recsyncComplete _
  | .enqComplete _
  | .releaseComplete _
  | .persistBufferAcceptance
  | .markerAcknowledgement _
  | .falanReadArrival _ _ _
  | .backInvalidation _ _
  | .linkTrainingStart _
  | .starvationBoostEnd _
  | .leaveReset => false

/-- The row is an instruction word, not a step of a unit or a stimulus. -/
def Instr.isWord : Instr → Bool
  | .pick _
  | .icacheFill _
  | .sfuResult _
  | .xlaneResult _
  | .conversionResult _
  | .ldStepComplete _
  | .stStepComplete _
  | .atomicLanePerform _
  | .heldFaultEntry _
  | .faultReplay _
  | .contextCacheFill _
  | .decodeUnitComplete _
  | .dechtComplete _
  | .copyElement _
  | .copyCommandEnd _
  | .matrixEntryStart _
  | .matrixEntryRetire _
  | .batchComplete _
  | .barrierPhaseComplete _ _ _
  | .waitaWake _
  | .waitaPoll _
  | .waitaDeadline _
  | .stallQuantumExpiry _
  | .groupEndSeatFree _
  | .seating _
  | .preemption _ _
  | .contextResume _
  | .starvationBoost _
  | .l1Eviction _ _
  | .persistBufferDrain
  | .hotnessSample _
  | .kernelLaunch _ _
  | .semaphoreStep _ _
  | .xshoot _ _
  | .xshootWake _ _
  | .semaphoreWaitRecheck _ _
  | .teamPlacement _
  | .launchComplete _
  | .frPost _ _
  | .ctLoad _ _
  | .swapOut _
  | .swapIn _
  | .swapComplete _
  | .devRst _
  | .secAdv _
  | .doorbellWrite _ _ _ _
  | .registerWrite _ _
  | .hostHdmAccess _ _ _
  | .falanWriteArrival _ _ _
  | .flushMarker _
  | .linkTrained _ _
  | .linkRetrain _
  | .linkDown _
  | .noPathKill _
  | .powerLoss
  | .globalPersistentFlush
  | .powerOnReset
  | .deviceReset
  | .boot _
  | .vfFunctionLevelReset _
  | .d3hot
  | .d0
  | .d3cold
  | .throttleUpdate _ _
  | .quarterClockGate _
  | .coreClockGate _
  | .hbmSelfRefresh _
  | .pldmMonitoring
  | .pldmFirmwareUpdate _ _
  | .spdmAttestation
  | .managementPowerLimit _
  | .managementResetRequest
  | .managementReset
  | .correctedError _ _ _
  | .uncorrectableError _
  | .sldComplete _
  | .recsyncComplete _
  | .enqComplete _
  | .releaseComplete _
  | .persistBufferAcceptance
  | .markerAcknowledgement _
  | .falanReadArrival _ _ _
  | .backInvalidation _ _
  | .linkTrainingStart _
  | .starvationBoostEnd _
  | .leaveReset => false
  | _ => true

end Sys2Proof
end

