-- ==== Sys2Proof/Decode.lean ====
section
/-! DEFINITION. The decoder, total on any words and refusing by name, and the encoder beside it, both from the
encoding tables of the spec. -/

namespace Sys2Proof

/-- Why a word is no instruction. Each traps with code 0x01; the name fixes the trap's cause (R427). -/
inductive DecodeError where
  /-- A non-zero reserved field, or an out-of-range value in a field that names no register: cause 1. -/
  | reservedField
  /-- A register, uniform, predicate, record, tile or range field out of its class: cause 2. -/
  | register
  /-- A misplaced run, trailer or prefix word: cause 3. -/
  | misplaced
  deriving DecidableEq, Repr

/-- Bits [23:16]. -/
def fD (w : W32) : BitVec 8 := w.extractLsb' 16 8
/-- Bits [15:8]. -/
def fA (w : W32) : BitVec 8 := w.extractLsb' 8 8
/-- Bits [7:0]. -/
def fB (w : W32) : BitVec 8 := w.extractLsb' 0 8
/-- Bits [15:0]. -/
def f16 (w : W32) : BitVec 16 := w.extractLsb' 0 16
/-- Bits [23:0]. -/
def f24 (w : W32) : BitVec 24 := w.extractLsb' 0 24
/-- A 3-bit predicate field. -/
def f3 (w : W32) (lo : Nat) : Fin 8 := (w.extractLsb' lo 3).toFin
/-- A 4-bit number field. -/
def f4 (w : W32) (lo : Nat) : Fin 16 := (w.extractLsb' lo 4).toFin
/-- A 5-bit handle field. -/
def f5 (w : W32) (lo : Nat) : Fin 32 := (w.extractLsb' lo 5).toFin

/-- R34: the register named by a field value. -/
def VReg.ofNat (n : Nat) : Option VReg :=
  if h : n < 240 then some (.v ⟨n, h⟩) else if h : n - 240 < 8 then some (.x ⟨n - 240, h⟩) else none

/-- R34: the field value of a register. -/
def VReg.toNat : VReg → Nat
  | .v n => n.val
  | .x n => 240 + n.val

/-- R34: the field value of a source. -/
def Src.toByte : Src → BitVec 8
  | .reg r => BitVec.ofNat 8 r.toNat
  | .zero => 248
  | .one => 249
  | .lane => 250
  | .slice => 251

/-- R34: the field value of a destination. -/
def Dst.toByte : Dst → BitVec 8
  | .reg r => BitVec.ofNat 8 r.toNat
  | .discard => 248

/-- A uniform field (R36). -/
def uByte (n : UReg) : BitVec 8 := BitVec.ofNat 8 n.val
/-- A vector-range field (R185). -/
def vfByte (n : VFirst) : BitVec 8 := BitVec.ofNat 8 n.val
/-- A tile field, 224–255 (R32). -/
def tileByte (h : TileNo) : BitVec 8 := BitVec.ofNat 8 (224 + h.val)
/-- A record field, 0–223 (R32). -/
def recByte (r : RecNo) : BitVec 8 := BitVec.ofNat 8 r.val
/-- A record-or-tile field (R32). -/
def RT.toByte : RT → BitVec 8
  | .record r => recByte r
  | .tile h => tileByte h
/-- The record field of `RECSYNC`, 0xFF for all (R243). -/
def recAllByte : Option RecNo → BitVec 8
  | some r => recByte r
  | none => 0xFF
/-- The `MBATCH` byte (R302). -/
def optUByte : Option UReg → BitVec 8
  | some n => BitVec.ofNat 8 (0x80 + n.val)
  | none => 0
/-- The count byte of a barrier instruction (R302). -/
def cntByte : Option UReg → BitVec 8
  | some n => uByte n
  | none => 0xFF
/-- A 3-bit predicate field. -/
def pByte3 (p : PReg) : BitVec 3 := BitVec.ofFin p
/-- A 4-bit field. -/
def nib (n : Fin 16) : BitVec 4 := BitVec.ofFin n
/-- A 5-bit field. -/
def h5 (n : Fin 32) : BitVec 5 := BitVec.ofFin n
/-- The scope codes of R321. -/
def Scope.code : Scope → BitVec 3
  | .grp => 0 | .team => 1 | .core => 2 | .dev => 3 | .sys => 4
/-- The scope of a code (R321). -/
def Scope.ofCode : Nat → Option Scope
  | 0 => some .grp | 1 => some .team | 2 => some .core | 3 => some .dev | 4 => some .sys
  | _ => none
/-- The source byte of `SETB` (R149). -/
def SetbSrc.toByte : SetbSrc → BitVec 8
  | .imm _ => 0
  | .reg n => BitVec.ofNat 8 (0x80 + n.val)
/-- The immediate of `SETB` (R149). -/
def SetbSrc.immBits : SetbSrc → BitVec 16
  | .imm v => v
  | .reg _ => 0

def getZero {n : Nat} (b : BitVec n) : Except DecodeError Unit := if b = 0 then .ok () else .error .reservedField
def getBelow {n : Nat} (b : BitVec n) (k : Nat) : Except DecodeError (BitVec n) :=
  if b.toNat < k then .ok b else .error .reservedField
def getSrc (b : BitVec 8) : Except DecodeError Src :=
  match VReg.ofNat b.toNat with
  | some r => .ok (.reg r)
  | none => if b = 248 then .ok .zero else if b = 249 then .ok .one else if b = 250 then .ok .lane
            else if b = 251 then .ok .slice else .error .register
def getDst (b : BitVec 8) : Except DecodeError Dst :=
  match VReg.ofNat b.toNat with
  | some r => .ok (.reg r)
  | none => if b = 248 then .ok .discard else .error .register
def getEvenSrc (b : BitVec 8) : Except DecodeError Src := do
  let s ← getSrc b
  if s.even then .ok s else .error .register
def getEvenDst (b : BitVec 8) : Except DecodeError Dst := do
  let d ← getDst b
  if d.even then .ok d else .error .register
def getU (b : BitVec 8) : Except DecodeError UReg :=
  if h : b.toNat < 64 then .ok ⟨b.toNat, h⟩ else .error .register
def getEvenU (b : BitVec 8) : Except DecodeError UReg := do
  let n ← getU b
  if evenU n then .ok n else .error .register
def getU3 (b : BitVec 8) : Except DecodeError UReg := do
  let n ← getU b
  if n.val ≤ 61 then .ok n else .error .register
def getU4 (b : BitVec 8) : Except DecodeError UReg := do
  let n ← getU b
  if n.val ≤ 60 then .ok n else .error .register
def getVFirst (b : BitVec 8) : Except DecodeError VFirst :=
  if h : b.toNat < 240 then .ok ⟨b.toNat, h⟩ else .error .register
def getTile (b : BitVec 8) : Except DecodeError TileNo :=
  if h : 224 ≤ b.toNat ∧ b.toNat - 224 < 32 then .ok ⟨b.toNat - 224, h.2⟩ else .error .register
def getRec (b : BitVec 8) : Except DecodeError RecNo :=
  if h : b.toNat < 224 then .ok ⟨b.toNat, h⟩ else .error .register
def getRT (b : BitVec 8) : Except DecodeError RT :=
  if h : b.toNat < 224 then .ok (.record ⟨b.toNat, h⟩)
  else if h : b.toNat - 224 < 32 then .ok (.tile ⟨b.toNat - 224, h⟩) else .error .register
def getRecAll (b : BitVec 8) : Except DecodeError (Option RecNo) :=
  if b = 0xFF then .ok none else if h : b.toNat < 224 then .ok (some ⟨b.toNat, h⟩) else .error .register
def getCnt (b : BitVec 8) : Except DecodeError (Option UReg) :=
  if b = 0xFF then .ok none else if h : b.toNat < 64 then .ok (some ⟨b.toNat, h⟩) else .error .register
def getFull (b : BitVec 8) : Except DecodeError Unit := if b = 0xFF then .ok () else .error .register
def getOptU (b : BitVec 8) : Except DecodeError (Option UReg) :=
  if b = 0 then .ok none
  else if h : 0x80 ≤ b.toNat ∧ b.toNat - 0x80 < 64 then .ok (some ⟨b.toNat - 0x80, h.2⟩) else .error .register
def getScope (b : BitVec 3) : Except DecodeError Scope :=
  match Scope.ofCode b.toNat with
  | some s => .ok s
  | none => .error .reservedField
def getCvtSrc (b : BitVec 5) : Except DecodeError (BitVec 5) := if cvtSrcOk b then .ok b else .error .reservedField
def getCount (b : BitVec 8) : Except DecodeError (BitVec 8) := if countOk b then .ok b else .error .register
def getSetb (w : W32) : Except DecodeError Instr :=
  if fD w = 0 then .ok (.setb (.imm (f16 w)))
  else if h : 0x80 ≤ (fD w).toNat ∧ (fD w).toNat - 0x80 < 64 then
    if f16 w = 0 then .ok (.setb (.reg ⟨(fD w).toNat - 0x80, h.2⟩)) else .error .reservedField
  else .error .register
def barReserved (w : W32) : Except DecodeError Unit := do
  getZero (w.extractLsb' 16 4)
  getZero (w.extractLsb' 0 4)

/-- The CMP layout (R32). -/
def shapeCmp (mk : PReg → BitVec 5 → Src → Src → Instr) (w : W32) : Except DecodeError Instr := do
  let a ← getSrc (fA w)
  let b ← getSrc (fB w)
  pure (mk (f3 w 21) (w.extractLsb' 16 5) a b)

def shapeZZZ (mk : Instr) (w : W32) : Except DecodeError Instr := do
  getZero (fD w)
  getZero (fA w)
  getZero (fB w)
  pure mk

def shapeZSrcZ (mk : Src → Instr) (w : W32) : Except DecodeError Instr := do
  getZero (fD w)
  getZero (fB w)
  let a ← getSrc (fA w)
  pure (mk a)

def shapeZUZ (mk : UReg → Instr) (w : W32) : Except DecodeError Instr := do
  getZero (fD w)
  getZero (fB w)
  let a ← getU (fA w)
  pure (mk a)

def shapeDstSrcSrc (mk : Dst → Src → Src → Instr) (w : W32) : Except DecodeError Instr := do
  let d ← getDst (fD w)
  let a ← getSrc (fA w)
  let b ← getSrc (fB w)
  pure (mk d a b)

def shapeDstSrcZ (mk : Dst → Src → Instr) (w : W32) : Except DecodeError Instr := do
  getZero (fB w)
  let d ← getDst (fD w)
  let a ← getSrc (fA w)
  pure (mk d a)

def shapeEdstEsrcSrc (mk : Dst → Src → Src → Instr) (w : W32) : Except DecodeError Instr := do
  let d ← getEvenDst (fD w)
  let a ← getEvenSrc (fA w)
  let b ← getSrc (fB w)
  pure (mk d a b)

def shapeEdstEsrcEsrc (mk : Dst → Src → Src → Instr) (w : W32) : Except DecodeError Instr := do
  let d ← getEvenDst (fD w)
  let a ← getEvenSrc (fA w)
  let b ← getEvenSrc (fB w)
  pure (mk d a b)

def shapeUUU (mk : UReg → UReg → UReg → Instr) (w : W32) : Except DecodeError Instr := do
  let d ← getU (fD w)
  let a ← getU (fA w)
  let b ← getU (fB w)
  pure (mk d a b)

def shapeUUZ (mk : UReg → UReg → Instr) (w : W32) : Except DecodeError Instr := do
  getZero (fB w)
  let d ← getU (fD w)
  let a ← getU (fA w)
  pure (mk d a)

def shapeDstUZ (mk : Dst → UReg → Instr) (w : W32) : Except DecodeError Instr := do
  getZero (fB w)
  let d ← getDst (fD w)
  let a ← getU (fA w)
  pure (mk d a)

def shapeEuUU (mk : UReg → UReg → UReg → Instr) (w : W32) : Except DecodeError Instr := do
  let d ← getEvenU (fD w)
  let a ← getU (fA w)
  let b ← getU (fB w)
  pure (mk d a b)

def shapeUSrcZ (mk : UReg → Src → Instr) (w : W32) : Except DecodeError Instr := do
  getZero (fB w)
  let d ← getU (fD w)
  let a ← getSrc (fA w)
  pure (mk d a)

def shapeDstVfZ (mk : Dst → VFirst → Instr) (w : W32) : Except DecodeError Instr := do
  getZero (fB w)
  let d ← getDst (fD w)
  let a ← getVFirst (fA w)
  pure (mk d a)

def shapeDstVfSrc (mk : Dst → VFirst → Src → Instr) (w : W32) : Except DecodeError Instr := do
  let d ← getDst (fD w)
  let a ← getVFirst (fA w)
  let b ← getSrc (fB w)
  pure (mk d a b)

def shapeVfSrcSrc (mk : VFirst → Src → Src → Instr) (w : W32) : Except DecodeError Instr := do
  let d ← getVFirst (fD w)
  let a ← getSrc (fA w)
  let b ← getSrc (fB w)
  pure (mk d a b)

def shapeVfEuTile (mk : VFirst → UReg → TileNo → Instr) (w : W32) : Except DecodeError Instr := do
  let d ← getVFirst (fD w)
  let a ← getEvenU (fA w)
  let b ← getTile (fB w)
  pure (mk d a b)

def shapeTileEuTile (mk : TileNo → UReg → TileNo → Instr) (w : W32) : Except DecodeError Instr := do
  let d ← getTile (fD w)
  let a ← getEvenU (fA w)
  let b ← getTile (fB w)
  pure (mk d a b)

def shapeUZZ (mk : UReg → Instr) (w : W32) : Except DecodeError Instr := do
  getZero (fA w)
  getZero (fB w)
  let d ← getU (fD w)
  pure (mk d)

def shapeTileURec (mk : TileNo → UReg → RecNo → Instr) (w : W32) : Except DecodeError Instr := do
  let d ← getTile (fD w)
  let a ← getU (fA w)
  let b ← getRec (fB w)
  pure (mk d a b)

def shapeEuSrcU (mk : UReg → Src → UReg → Instr) (w : W32) : Except DecodeError Instr := do
  let d ← getEvenU (fD w)
  let a ← getSrc (fA w)
  let b ← getU (fB w)
  pure (mk d a b)

def shapeVfEuSrc (mk : VFirst → UReg → Src → Instr) (w : W32) : Except DecodeError Instr := do
  let d ← getVFirst (fD w)
  let a ← getEvenU (fA w)
  let b ← getSrc (fB w)
  pure (mk d a b)

def shapeDstSrcRt (mk : Dst → Src → RT → Instr) (w : W32) : Except DecodeError Instr := do
  let d ← getDst (fD w)
  let a ← getSrc (fA w)
  let b ← getRT (fB w)
  pure (mk d a b)

def shapeSrcSrcRt (mk : Src → Src → RT → Instr) (w : W32) : Except DecodeError Instr := do
  let d ← getSrc (fD w)
  let a ← getSrc (fA w)
  let b ← getRT (fB w)
  pure (mk d a b)

def shapeSrcEsrcZ (mk : Src → Src → Instr) (w : W32) : Except DecodeError Instr := do
  getZero (fB w)
  let d ← getSrc (fD w)
  let a ← getEvenSrc (fA w)
  pure (mk d a)

def shapeUSrcRec (mk : UReg → Src → RecNo → Instr) (w : W32) : Except DecodeError Instr := do
  let d ← getU (fD w)
  let a ← getSrc (fA w)
  let b ← getRec (fB w)
  pure (mk d a b)

def shapeTileUZ (mk : TileNo → UReg → Instr) (w : W32) : Except DecodeError Instr := do
  getZero (fB w)
  let d ← getTile (fD w)
  let a ← getU (fA w)
  pure (mk d a)

def shapeTileZZ (mk : TileNo → Instr) (w : W32) : Except DecodeError Instr := do
  getZero (fA w)
  getZero (fB w)
  let d ← getTile (fD w)
  pure (mk d)

def shapeUTileZ (mk : UReg → TileNo → Instr) (w : W32) : Except DecodeError Instr := do
  getZero (fB w)
  let d ← getU (fD w)
  let a ← getTile (fA w)
  pure (mk d a)

def shapeDstSrcTile (mk : Dst → Src → TileNo → Instr) (w : W32) : Except DecodeError Instr := do
  let d ← getDst (fD w)
  let a ← getSrc (fA w)
  let b ← getTile (fB w)
  pure (mk d a b)

def shapeVfSrcTile (mk : VFirst → Src → TileNo → Instr) (w : W32) : Except DecodeError Instr := do
  let d ← getVFirst (fD w)
  let a ← getSrc (fA w)
  let b ← getTile (fB w)
  pure (mk d a b)

def shapeSrcSrcTile (mk : Src → Src → TileNo → Instr) (w : W32) : Except DecodeError Instr := do
  let d ← getSrc (fD w)
  let a ← getSrc (fA w)
  let b ← getTile (fB w)
  pure (mk d a b)

def shapeVfSrcRt (mk : VFirst → Src → RT → Instr) (w : W32) : Except DecodeError Instr := do
  let d ← getVFirst (fD w)
  let a ← getSrc (fA w)
  let b ← getRT (fB w)
  pure (mk d a b)

def shapeEuSrcRt (mk : UReg → Src → RT → Instr) (w : W32) : Except DecodeError Instr := do
  let d ← getEvenU (fD w)
  let a ← getSrc (fA w)
  let b ← getRT (fB w)
  pure (mk d a b)

def shapeZU3Z (mk : UReg → Instr) (w : W32) : Except DecodeError Instr := do
  getZero (fD w)
  getZero (fB w)
  let a ← getU3 (fA w)
  pure (mk a)

def shapeZU3Src (mk : UReg → Src → Instr) (w : W32) : Except DecodeError Instr := do
  getZero (fD w)
  let a ← getU3 (fA w)
  let b ← getSrc (fB w)
  pure (mk a b)

def shapeU4ZZ (mk : UReg → Instr) (w : W32) : Except DecodeError Instr := do
  getZero (fA w)
  getZero (fB w)
  let d ← getU4 (fD w)
  pure (mk d)

def shapeZU4Z (mk : UReg → Instr) (w : W32) : Except DecodeError Instr := do
  getZero (fD w)
  getZero (fB w)
  let a ← getU4 (fA w)
  pure (mk a)

def shapeZTileZ (mk : TileNo → Instr) (w : W32) : Except DecodeError Instr := do
  getZero (fD w)
  getZero (fB w)
  let a ← getTile (fA w)
  pure (mk a)

def shapeZUU (mk : UReg → UReg → Instr) (w : W32) : Except DecodeError Instr := do
  getZero (fD w)
  let a ← getU (fA w)
  let b ← getU (fB w)
  pure (mk a b)

def shapeRawRawRaw (mk : BitVec 8 → BitVec 8 → BitVec 8 → Instr) (w : W32) : Except DecodeError Instr := do
  pure (mk (fD w) (fA w) (fB w))

/-- Opcodes 0x00–0x0F by their low digit (R40). -/
def decode0 (w : W32) : Nat → Except DecodeError Instr
  | 0 => shapeZZZ .nop w
  | 1 => .ok (.bra (f24 w))
  | 2 => shapeZSrcZ .brx w
  | 3 => shapeZZZ .join w
  | 4 => .ok (.call (f24 w))
  | 5 => shapeZZZ .ret w
  | 6 => shapeZZZ .regang w
  | 7 => do
    let d ← getU (fD w)
    pure (.loops d (f16 w))
  | 8 => shapeZZZ .exit w
  | 9 => shapeZZZ .yield w
  | 10 => do
    getZero (fD w)
    pure (.brkp (f16 w))
  | _ => .ok (.reservedOpcode (w.extractLsb' 24 8) (f24 w))

/-- Opcodes 0x10–0x1F by their low digit (R40). -/
def decode1 (w : W32) : Nat → Except DecodeError Instr
  | 0 => shapeDstSrcSrc .iadd w
  | 1 => shapeDstSrcSrc .isub w
  | 2 => shapeDstSrcSrc .imul w
  | 3 => shapeDstSrcSrc .imulh w
  | 4 => shapeDstSrcSrc .imad w
  | 5 => shapeDstSrcSrc .imin w
  | 6 => shapeDstSrcSrc .imax w
  | 7 => shapeDstSrcZ .iabs w
  | 8 => shapeDstSrcSrc .and w
  | 9 => shapeDstSrcSrc .or w
  | 10 => shapeDstSrcSrc .xor w
  | 11 => shapeDstSrcSrc .andn w
  | 12 => shapeDstSrcSrc .shl w
  | 13 => shapeDstSrcSrc .shr w
  | 14 => shapeDstSrcSrc .sar w
  | 15 => shapeDstSrcSrc .rotl w
  | _ => .error .misplaced

/-- Opcodes 0x20–0x2F by their low digit (R40). -/
def decode2 (w : W32) : Nat → Except DecodeError Instr
  | 0 => shapeDstSrcSrc .bfe w
  | 1 => shapeDstSrcSrc .bfi w
  | 2 => shapeDstSrcZ .clz w
  | 3 => shapeDstSrcZ .popc w
  | 4 => shapeDstSrcZ .brev w
  | 5 => shapeCmp .icmp w
  | 6 => shapeDstSrcSrc .sel w
  | 7 => shapeDstSrcZ .mov w
  | 8 => do
    let d ← getDst (fD w)
    pure (.movi d (f16 w) none)
  | 9 => do
    let d ← getDst (fD w)
    let a ← getSrc (fA w)
    pure (.iaddi d a (fB w) none)
  | 10 => shapeEdstEsrcSrc .lea64 w
  | 11 => shapeEdstEsrcEsrc .iadd64 w
  | 12 => do
    getZero (w.extractLsb' 20 1)
    getZero (w.extractLsb' 11 5)
    getZero (w.extractLsb' 3 5)
    pure (.pset (f3 w 21) (w.extractLsb' 16 4) (f3 w 8) (f3 w 0))
  | 13 => do
    let d ← getDst (fD w)
    let a ← getSrc (fA w)
    pure (.shi d a (w.extractLsb' 6 2) (w.extractLsb' 0 6))
  | _ => .ok (.reservedOpcode (w.extractLsb' 24 8) (f24 w))

/-- Opcodes 0x30–0x3F by their low digit (R40). -/
def decode3 (w : W32) : Nat → Except DecodeError Instr
  | 0 => shapeUUU .sadd w
  | 1 => shapeUUU .ssub w
  | 2 => shapeUUU .smul w
  | 3 => shapeUUU .sand w
  | 4 => shapeUUU .sor w
  | 5 => shapeUUU .sxor w
  | 6 => shapeUUU .sshl w
  | 7 => shapeUUU .sshr w
  | 8 => do
    let d ← getU (fD w)
    pure (.smovi d (f16 w) none)
  | 9 => shapeUUZ .smov w
  | 10 => do
    let a ← getU (fA w)
    let b ← getU (fB w)
    pure (.scmp (f3 w 21) (w.extractLsb' 16 5) a b)
  | 11 => do
    let d ← getU (fD w)
    pure (.srdsr d (f16 w))
  | 12 => do
    let a ← getU (fD w)
    pure (.swrsr a (f16 w))
  | 13 => do
    let d ← getU (fD w)
    let a ← getSrc (fA w)
    pure (.vtos d a (fB w))
  | 14 => shapeDstUZ .stov w
  | 15 => shapeEuUU .sminmax w
  | _ => .error .misplaced

/-- Opcodes 0x40–0x4F by their low digit (R40). -/
def decode4 (w : W32) : Nat → Except DecodeError Instr
  | 0 => shapeDstSrcSrc (fun d a b => .fadd d a b none) w
  | 1 => shapeDstSrcSrc (fun d a b => .fsub d a b none) w
  | 2 => shapeDstSrcSrc (fun d a b => .fmul d a b none) w
  | 3 => shapeDstSrcSrc (fun d a b => .fma d a b none) w
  | 4 => shapeDstSrcSrc (fun d a b => .ffma d a b none) w
  | 5 => shapeDstSrcSrc (fun d a b => .fmin d a b none) w
  | 6 => shapeDstSrcSrc (fun d a b => .fmax d a b none) w
  | 7 => shapeCmp (fun p c a b => .fcmp p c a b none) w
  | 8 => do
    let d ← getDst (fD w)
    let a ← getSrc (fA w)
    pure (.fclass d a (fB w))
  | 9 => shapeDstSrcZ .frnd w
  | 10 => shapeDstSrcSrc .fscale w
  | 11 => shapeDstSrcSrc (fun d a b => .fdot2 d a b none) w
  | 12 => shapeDstSrcSrc (fun d a b => .fdot4 d a b none) w
  | 13 => shapeDstSrcSrc .fcpys w
  | _ => .ok (.reservedOpcode (w.extractLsb' 24 8) (f24 w))

/-- Opcodes 0x50–0x5F by their low digit (R40). -/
def decode5 (w : W32) : Nat → Except DecodeError Instr
  | 0 => shapeDstSrcZ .bget w
  | 1 => shapeDstSrcSrc .bset w
  | 2 => shapeDstSrcSrc .badd w
  | 3 => shapeDstSrcZ .bclr w
  | 4 => shapeUSrcZ .bmaxr w
  | 5 => getSetb w
  | 6 => do
    getZero (w.extractLsb' 19 5)
    getZero (fB w)
    let a ← getSrc (fA w)
    pure (.bchk (f3 w 16) a)
  | 7 => do
    getZero (fA w)
    getZero (w.extractLsb' 3 5)
    let d ← getU (fD w)
    pure (.brep d (w.extractLsb' 0 3))
  | 8 => do
    getZero (w.extractLsb' 9 7)
    let d ← getU (fD w)
    pure (.flags d (w.extractLsb' 0 9))
  | _ => .ok (.reservedOpcode (w.extractLsb' 24 8) (f24 w))

/-- Opcodes 0x60–0x6F by their low digit (R40). -/
def decode6 (w : W32) : Nat → Except DecodeError Instr
  | 0 => shapeDstSrcZ .rcp w
  | 1 => shapeDstSrcZ .rsq w
  | 2 => shapeDstSrcZ .sqrt w
  | 3 => shapeDstSrcZ .exp2 w
  | 4 => shapeDstSrcZ .log2 w
  | 5 => shapeDstSrcZ .sinpi w
  | 6 => shapeDstSrcZ .cospi w
  | 7 => shapeDstSrcZ .tanh w
  | 8 => shapeDstSrcZ .sigm w
  | 9 => shapeDstSrcSrc .fdivf w
  | _ => .ok (.reservedOpcode (w.extractLsb' 24 8) (f24 w))

/-- Opcodes 0x70–0x7F by their low digit (R40). -/
def decode7 (w : W32) : Nat → Except DecodeError Instr
  | 0 => do
    let d ← getDst (fD w)
    let a ← getSrc (fA w)
    let src ← getCvtSrc (w.extractLsb' 0 5)
    pure (.cvt d a (w.extractLsb' 5 3) src)
  | 1 => shapeDstVfZ .pack w
  | 2 => do
    getZero (w.extractLsb' 6 2)
    let d ← getVFirst (fD w)
    let a ← getSrc (fA w)
    pure (.unpk d a (w.extractLsb' 3 3) (w.extractLsb' 0 3))
  | 3 => do
    getZero (w.extractLsb' 2 6)
    let d ← getDst (fD w)
    let a ← getVFirst (fA w)
    pure (.qblk d a (w.getLsbD 1) (w.getLsbD 0))
  | 4 => shapeDstVfSrc .qapply w
  | 5 => shapeVfSrcSrc .dq w
  | 6 => shapeVfEuTile .dech w
  | 7 => shapeTileEuTile .decht w
  | 8 => shapeVfEuTile .decz w
  | 9 => shapeUZZ .decst w
  | 10 => shapeTileURec .ctab w
  | _ => .ok (.reservedOpcode (w.extractLsb' 24 8) (f24 w))

/-- Opcodes 0x80–0x8F by their low digit (R40). -/
def decode8 (w : W32) : Nat → Except DecodeError Instr
  | 0 => shapeDstSrcSrc .shfl w
  | 1 => do
    let d ← getDst (fD w)
    let a ← getSrc (fA w)
    pure (.shflx d a (w.extractLsb' 6 2) (w.getLsbD 5) (w.extractLsb' 0 5))
  | 2 => do
    let d ← getDst (fD w)
    let a ← getSrc (fA w)
    pure (.bcst d a (fB w))
  | 3 => do
    getZero (w.extractLsb' 18 1)
    getZero (w.extractLsb' 11 5)
    getZero (fB w)
    let kind ← getBelow (w.extractLsb' 16 2) 3
    pure (.vote (f3 w 21) (w.extractLsb' 19 2) kind (f3 w 8))
  | 4 => do
    getZero (w.extractLsb' 11 5)
    getZero (fB w)
    let d ← getU (fD w)
    pure (.ballot d (f3 w 8))
  | 5 => do
    getZero (w.extractLsb' 3 1)
    let d ← getDst (fD w)
    let a ← getSrc (fA w)
    let op ← getBelow (w.extractLsb' 5 3) 6
    pure (.redl d a op (w.getLsbD 4) (f3 w 0))
  | 6 => do
    let d ← getDst (fD w)
    let a ← getSrc (fA w)
    let op ← getBelow (w.extractLsb' 5 3) 6
    pure (.scanl d a op (w.getLsbD 4) (w.getLsbD 3) (f3 w 0))
  | 7 => shapeEuSrcU .rwalk w
  | 8 => shapeVfEuSrc .rnext w
  | 9 => do
    getZero (w.extractLsb' 19 5)
    getZero (w.extractLsb' 1 7)
    let a ← getSrc (fA w)
    pure (.segm (f3 w 16) a (w.getLsbD 0))
  | _ => .ok (.reservedOpcode (w.extractLsb' 24 8) (f24 w))

/-- Opcodes 0x90–0x9F by their low digit (R40). -/
def decode9 (w : W32) : Nat → Except DecodeError Instr
  | 0 => shapeDstSrcRt .ld w
  | 1 => shapeSrcSrcRt .st w
  | 2 => do
    getZero (w.extractLsb' 1 7)
    let d ← getDst (fD w)
    let a ← getEvenSrc (fA w)
    pure (.ldg d a (w.getLsbD 0))
  | 3 => shapeSrcEsrcZ .stg w
  | 4 => shapeUSrcRec .sld w
  | 5 => shapeUSrcRec .sst w
  | 6 => do
    getZero (w.extractLsb' 17 7)
    let o ← getSrc (fA w)
    let r ← getRec (fB w)
    pure (.pref (w.getLsbD 16) o r)
  | 7 => do
    getZero (w.extractLsb' 18 6)
    let o ← getSrc (fA w)
    let r ← getRec (fB w)
    pure (.cctl (w.extractLsb' 16 2) o r)
  | 8 => shapeTileUZ .talloc w
  | 9 => shapeTileZZ .tfree w
  | 10 => shapeUTileZ .tinfo w
  | 11 => shapeDstSrcTile .tld w
  | 12 => shapeSrcSrcTile .tst w
  | 13 => shapeVfSrcTile .tldt w
  | 14 => shapeSrcSrcTile .tfill w
  | 15 => shapeDstSrcTile .tldx w
  | _ => .error .misplaced

/-- Opcodes 0xA0–0xAF by their low digit (R40). -/
def decodeA (w : W32) : Nat → Except DecodeError Instr
  | 0 => shapeSrcSrcTile .tstx w
  | 1 => do
    getZero (fD w)
    getZero (fB w)
    let r ← getRecAll (fA w)
    pure (.recsync r)
  | _ => .ok (.reservedOpcode (w.extractLsb' 24 8) (f24 w))

/-- Opcodes 0xB0–0xBF by their low digit (R40). -/
def decodeB (w : W32) : Nat → Except DecodeError Instr
  | 0 => shapeDstSrcRt .aadd w
  | 1 => shapeDstSrcRt .aand w
  | 2 => shapeDstSrcRt .aor w
  | 3 => shapeDstSrcRt .axor w
  | 4 => shapeDstSrcRt .amin w
  | 5 => shapeDstSrcRt .amax w
  | 6 => shapeDstSrcRt .axchg w
  | 7 => shapeVfSrcRt .acas w
  | 8 => shapeDstSrcRt .aincw w
  | 9 => shapeVfSrcRt .aaddb w
  | 10 => shapeDstSrcRt .afadd w
  | 11 => shapeSrcSrcRt .redadd w
  | 12 => shapeSrcSrcRt .redfadd w
  | 13 => shapeSrcSrcRt .redmin w
  | 14 => shapeSrcSrcRt .redmax w
  | 15 => shapeZZZ .rflush w
  | _ => .error .misplaced

/-- Opcodes 0xC0–0xCF by their low digit (R40). -/
def decodeC (w : W32) : Nat → Except DecodeError Instr
  | 0 => do
    barReserved w
    let cnt ← getCnt (fA w)
    pure (.bar (f3 w 21) (w.getLsbD 20) cnt (f4 w 4))
  | 1 => do
    barReserved w
    getZero (w.extractLsb' 21 3)
    let cnt ← getCnt (fA w)
    pure (.bara (w.getLsbD 20) cnt (f4 w 4))
  | 2 => do
    barReserved w
    getFull (fA w)
    pure (.barw (f3 w 21) (w.getLsbD 20) (f4 w 4))
  | 3 => do
    barReserved w
    getFull (fA w)
    pure (.bart (f3 w 21) (w.getLsbD 20) (f4 w 4))
  | 4 => .ok (.wait (w.extractLsb' 18 6) (w.extractLsb' 12 6) (w.extractLsb' 6 6) (w.extractLsb' 0 6))
  | 5 => do
    getZero (w.extractLsb' 18 6)
    getZero (fB w)
    let a ← getU (fA w)
    pure (.waitr (w.extractLsb' 16 2) a)
  | 6 => shapeEuSrcRt .waita w
  | 7 => do
    getZero (fA w)
    getZero (fB w)
    let d ← getOptU (fD w)
    pure (.mbatch d)
  | 8 => do
    getZero (fD w)
    getZero (fA w)
    getZero (w.extractLsb' 6 2)
    getZero (w.extractLsb' 3 1)
    let scope ← getScope (w.extractLsb' 0 3)
    pure (.fence (w.extractLsb' 4 2) scope)
  | 9 => do
    getZero (fD w)
    getZero (fA w)
    getZero (w.extractLsb' 1 7)
    pure (.pbar (w.getLsbD 0))
  | 10 => shapeSrcSrcRt .stsig w
  | _ => .ok (.reservedOpcode (w.extractLsb' 24 8) (f24 w))

/-- Opcodes 0xD0–0xDF by their low digit (R40). -/
def decodeD (w : W32) : Nat → Except DecodeError Instr
  | 0 => shapeZU3Z .cpy w
  | 1 => shapeZU3Src .cpyo w
  | 2 => shapeZU3Z .cpyg w
  | 3 => shapeZU3Z .cpys w
  | 4 => shapeZU3Z .cpyt w
  | 5 => shapeU4ZZ .engsv w
  | 6 => shapeZU4Z .engrs w
  | 8 => do
    getZero (w.extractLsb' 0 2)
    let p ← getBelow (w.extractLsb' 3 3) 5
    pure (.mma (f4 w 20) (f5 w 15) (f5 w 10) (w.getLsbD 9) (w.getLsbD 8) (w.getLsbD 7) (w.getLsbD 6) p (w.getLsbD 2))
  | 9 => shapeZU3Z .mshape w
  | 10 => do
    getZero (fA w)
    pure (.accz (fD w ++ fB w))
  | 11 => do
    let d ← getVFirst (fD w)
    let b ← getU (fB w)
    pure (.accrd d (f4 w 12) (w.extractLsb' 8 4) b)
  | 12 => do
    let d ← getVFirst (fD w)
    let b ← getU (fB w)
    pure (.accwr d (f4 w 12) (w.extractLsb' 8 4) b)
  | 13 => shapeZTileZ .msave w
  | 14 => shapeZTileZ .mres w
  | 15 => shapeZU3Z .mscale w
  | _ => .ok (.reservedOpcode (w.extractLsb' 24 8) (f24 w))

/-- Opcodes 0xE0–0xEF by their low digit (R40). -/
def decodeE (w : W32) : Nat → Except DecodeError Instr
  | 0 => do
    getZero (w.extractLsb' 6 2)
    let d ← getU (fD w)
    let a ← getU (fA w)
    pure (.enq d a (w.extractLsb' 0 6))
  | 1 => do
    getZero (fB w)
    let d ← getVFirst (fD w)
    let c ← getCount (fA w)
    pure (.ctxdead d c)
  | 2 => do
    getZero (w.extractLsb' 1 7)
    let d ← getVFirst (fD w)
    let c ← getCount (fA w)
    pure (.ctxpin d c (w.getLsbD 0))
  | 3 => shapeZZZ .unseat w
  | 4 => shapeZUU .semsig w
  | 8 => do
    getZero (fD w)
    pure (.trap (f16 w))
  | 9 => do
    getZero (fD w)
    getZero (fA w)
    getZero (w.extractLsb' 2 6)
    let mode ← getBelow (w.extractLsb' 0 2) 3
    pure (.tret mode)
  | 10 => do
    getZero (fA w)
    getZero (w.extractLsb' 3 5)
    let d ← getU (fD w)
    pure (.rdtrap d (w.extractLsb' 0 3))
  | 11 => shapeUUZ .rdctx w
  | 12 => shapeZUU .wrctx w
  | 13 => do
    getZero (fA w)
    getZero (w.extractLsb' 6 2)
    let d ← getU (fD w)
    pure (.pmc d (w.extractLsb' 0 6))
  | 14 => shapeUUU .errlog w
  | _ => .ok (.reservedOpcode (w.extractLsb' 24 8) (f24 w))

/-- Opcodes 0xF0–0xFF by their low digit (R40). -/
def decodeF (w : W32) : Nat → Except DecodeError Instr
  | 0 => .error .misplaced
  | 1 => .error .misplaced
  | 2 => .error .misplaced
  | 3 => .error .misplaced
  | 4 => .ok (.setm (f24 w))
  | 5 => shapeZUZ .setmr w
  | 8 => shapeRawRawRaw .lmma3 w
  | 9 => shapeRawRawRaw .llds w
  | 10 => shapeRawRawRaw .lsts w
  | 11 => shapeRawRawRaw .lbar w
  | 12 => .ok (.ipref (w.extractLsb' 20 4) (w.extractLsb' 0 20))
  | 13 => .ok (.hintFd (f24 w))
  | 14 => .ok (.hintFe (f24 w))
  | 15 => .ok (.illegalOpcode (f24 w))
  | _ => .ok (.reservedOpcode (w.extractLsb' 24 8) (f24 w))

/-- One instruction word without its prefix (R40–R42). -/
def decodeWord (w : W32) : Except DecodeError Instr :=
  match bits w 31 28 with
  | 0 => decode0 w (bits w 27 24)
  | 1 => decode1 w (bits w 27 24)
  | 2 => decode2 w (bits w 27 24)
  | 3 => decode3 w (bits w 27 24)
  | 4 => decode4 w (bits w 27 24)
  | 5 => decode5 w (bits w 27 24)
  | 6 => decode6 w (bits w 27 24)
  | 7 => decode7 w (bits w 27 24)
  | 8 => decode8 w (bits w 27 24)
  | 9 => decode9 w (bits w 27 24)
  | 10 => decodeA w (bits w 27 24)
  | 11 => decodeB w (bits w 27 24)
  | 12 => decodeC w (bits w 27 24)
  | 13 => decodeD w (bits w 27 24)
  | 14 => decodeE w (bits w 27 24)
  | 15 => decodeF w (bits w 27 24)
  | _ => .ok (.reservedOpcode (w.extractLsb' 24 8) (f24 w))

/-- The modifiers of a `CXP` word (R51). -/
def decodeCxp (w : W32) : Except DecodeError Cxp := do
  getZero (w.extractLsb' 0 10)
  let c ← getSrc (fD w)
  pure { c := c, negA := w.getLsbD 15, negB := w.getLsbD 14, negC := w.getLsbD 13, absA := w.getLsbD 12,
         absB := w.getLsbD 11, exact := w.getLsbD 10 }

/-- `PFX` supplies immediate bits to `MOVI`, `IADDI` and `SMOVI` only (R50). -/
def Instr.withPfx (high : BitVec 24) : Instr → Except DecodeError Instr
  | .movi d imm _ => .ok (.movi d imm (some high))
  | .iaddi d a imm _ => .ok (.iaddi d a imm (some high))
  | .smovi d imm _ => .ok (.smovi d imm (some high))
  | _ => .error .misplaced

/-- `CXP` applies to the instructions that R51 lists only. -/
def Instr.withCxp (m : Cxp) : Instr → Except DecodeError Instr
  | .ffma d a b _ => .ok (.ffma d a b (some m))
  | .fadd d a b _ => if m.c = .zero then .ok (.fadd d a b (some m)) else .error .register
  | .fsub d a b _ => if m.c = .zero then .ok (.fsub d a b (some m)) else .error .register
  | .fmul d a b _ => if m.c = .zero then .ok (.fmul d a b (some m)) else .error .register
  | .fma d a b _ => if m.c = .zero then .ok (.fma d a b (some m)) else .error .register
  | .fmin d a b _ => if m.c = .zero then .ok (.fmin d a b (some m)) else .error .register
  | .fmax d a b _ => if m.c = .zero then .ok (.fmax d a b (some m)) else .error .register
  | .fdot2 d a b _ => if m.c = .zero then .ok (.fdot2 d a b (some m)) else .error .register
  | .fdot4 d a b _ => if m.c = .zero then .ok (.fdot4 d a b (some m)) else .error .register
  | .fcmp p c a b _ => if m.c = .zero then .ok (.fcmp p c a b (some m)) else .error .register
  | _ => .error .misplaced

/-- The instruction at the head of a run's remaining body words, with the words after it (R50–R52). -/
def decode : List W32 → Except DecodeError (Instr × List W32)
  | [] => .error .misplaced
  | w :: rest =>
    if bits w 31 24 = 0xF2 then
      match rest with
      | [] => .error .misplaced
      | w2 :: rest2 =>
        match decodeWord w2 with
        | .error e => .error e
        | .ok i => match i.withPfx (f24 w) with
          | .error e => .error e
          | .ok j => .ok (j, rest2)
    else if bits w 31 24 = 0xF3 then
      match rest with
      | [] => .error .misplaced
      | w2 :: rest2 =>
        match decodeCxp w with
        | .error e => .error e
        | .ok m => match decodeWord w2 with
          | .error e => .error e
          | .ok i => match i.withCxp m with
            | .error e => .error e
            | .ok j => .ok (j, rest2)
    else match decodeWord w with
      | .error e => .error e
      | .ok i => .ok (i, rest)

/-- The RRR and RRI layouts (R32). -/
def wRRR (op d a b : BitVec 8) : W32 := (op ++ d ++ a ++ b : BitVec 32)
/-- The RI16 layout (R32). -/
def w16 (op d : BitVec 8) (imm : BitVec 16) : W32 := (op ++ d ++ imm : BitVec 32)
/-- The J24 layout (R32). -/
def w24 (op : BitVec 8) (x : BitVec 24) : W32 := (op ++ x : BitVec 32)
/-- The CMP layout (R32). -/
def wCmp (op : BitVec 8) (p : PReg) (cond : BitVec 5) (a b : BitVec 8) : W32 :=
  (op ++ pByte3 p ++ cond ++ a ++ b : BitVec 32)
/-- The layout of the barrier instructions (R302). -/
def wBar (op : BitVec 8) (p : PReg) (grid : Bool) (cnt : Option UReg) (num : Fin 16) : W32 :=
  (op ++ pByte3 p ++ BitVec.ofBool grid ++ 0#4 ++ cntByte cnt ++ nib num ++ 0#4 : BitVec 32)

/-- The instruction's own word, without its prefix; a device step has none, and reads 0. -/
def encodeWord : Instr → W32
  | .nop => wRRR 0x00 0 0 0
  | .bra off => w24 0x01 off
  | .brx a => wRRR 0x02 0 a.toByte 0
  | .join => wRRR 0x03 0 0 0
  | .call off => w24 0x04 off
  | .ret => wRRR 0x05 0 0 0
  | .regang => wRRR 0x06 0 0 0
  | .loops d off => w16 0x07 (uByte d) off
  | .exit => wRRR 0x08 0 0 0
  | .yield => wRRR 0x09 0 0 0
  | .brkp n => w16 0x0A 0 n
  | .iadd d a b => wRRR 0x10 d.toByte a.toByte b.toByte
  | .isub d a b => wRRR 0x11 d.toByte a.toByte b.toByte
  | .imul d a b => wRRR 0x12 d.toByte a.toByte b.toByte
  | .imulh d a b => wRRR 0x13 d.toByte a.toByte b.toByte
  | .imad d a b => wRRR 0x14 d.toByte a.toByte b.toByte
  | .imin d a b => wRRR 0x15 d.toByte a.toByte b.toByte
  | .imax d a b => wRRR 0x16 d.toByte a.toByte b.toByte
  | .iabs d a => wRRR 0x17 d.toByte a.toByte 0
  | .and d a b => wRRR 0x18 d.toByte a.toByte b.toByte
  | .or d a b => wRRR 0x19 d.toByte a.toByte b.toByte
  | .xor d a b => wRRR 0x1A d.toByte a.toByte b.toByte
  | .andn d a b => wRRR 0x1B d.toByte a.toByte b.toByte
  | .shl d a b => wRRR 0x1C d.toByte a.toByte b.toByte
  | .shr d a b => wRRR 0x1D d.toByte a.toByte b.toByte
  | .sar d a b => wRRR 0x1E d.toByte a.toByte b.toByte
  | .rotl d a b => wRRR 0x1F d.toByte a.toByte b.toByte
  | .bfe d a b => wRRR 0x20 d.toByte a.toByte b.toByte
  | .bfi d a b => wRRR 0x21 d.toByte a.toByte b.toByte
  | .clz d a => wRRR 0x22 d.toByte a.toByte 0
  | .popc d a => wRRR 0x23 d.toByte a.toByte 0
  | .brev d a => wRRR 0x24 d.toByte a.toByte 0
  | .icmp p cond a b => wCmp 0x25 p cond a.toByte b.toByte
  | .sel d a b => wRRR 0x26 d.toByte a.toByte b.toByte
  | .mov d a => wRRR 0x27 d.toByte a.toByte 0
  | .movi d imm _ => w16 0x28 d.toByte imm
  | .iaddi d a imm _ => wRRR 0x29 d.toByte a.toByte imm
  | .lea64 d a b => wRRR 0x2A d.toByte a.toByte b.toByte
  | .iadd64 d a b => wRRR 0x2B d.toByte a.toByte b.toByte
  | .pset p f pa pb => (0x2C#8 ++ pByte3 p ++ 0#1 ++ f ++ 0#5 ++ pByte3 pa ++ 0#5 ++ pByte3 pb : BitVec 32)
  | .shi d a kind amount => wRRR 0x2D d.toByte a.toByte (kind ++ amount)
  | .sadd d a b => wRRR 0x30 (uByte d) (uByte a) (uByte b)
  | .ssub d a b => wRRR 0x31 (uByte d) (uByte a) (uByte b)
  | .smul d a b => wRRR 0x32 (uByte d) (uByte a) (uByte b)
  | .sand d a b => wRRR 0x33 (uByte d) (uByte a) (uByte b)
  | .sor d a b => wRRR 0x34 (uByte d) (uByte a) (uByte b)
  | .sxor d a b => wRRR 0x35 (uByte d) (uByte a) (uByte b)
  | .sshl d a b => wRRR 0x36 (uByte d) (uByte a) (uByte b)
  | .sshr d a b => wRRR 0x37 (uByte d) (uByte a) (uByte b)
  | .smovi d imm _ => w16 0x38 (uByte d) imm
  | .smov d a => wRRR 0x39 (uByte d) (uByte a) 0
  | .scmp p cond a b => wCmp 0x3A p cond (uByte a) (uByte b)
  | .srdsr d number => w16 0x3B (uByte d) number
  | .swrsr a number => w16 0x3C (uByte a) number
  | .vtos d a lane => wRRR 0x3D (uByte d) a.toByte lane
  | .stov d a => wRRR 0x3E d.toByte (uByte a) 0
  | .sminmax d a b => wRRR 0x3F (uByte d) (uByte a) (uByte b)
  | .fadd d a b _ => wRRR 0x40 d.toByte a.toByte b.toByte
  | .fsub d a b _ => wRRR 0x41 d.toByte a.toByte b.toByte
  | .fmul d a b _ => wRRR 0x42 d.toByte a.toByte b.toByte
  | .fma d a b _ => wRRR 0x43 d.toByte a.toByte b.toByte
  | .ffma d a b _ => wRRR 0x44 d.toByte a.toByte b.toByte
  | .fmin d a b _ => wRRR 0x45 d.toByte a.toByte b.toByte
  | .fmax d a b _ => wRRR 0x46 d.toByte a.toByte b.toByte
  | .fcmp p cond a b _ => wCmp 0x47 p cond a.toByte b.toByte
  | .fclass d a mask => wRRR 0x48 d.toByte a.toByte mask
  | .frnd d a => wRRR 0x49 d.toByte a.toByte 0
  | .fscale d a b => wRRR 0x4A d.toByte a.toByte b.toByte
  | .fdot2 d a b _ => wRRR 0x4B d.toByte a.toByte b.toByte
  | .fdot4 d a b _ => wRRR 0x4C d.toByte a.toByte b.toByte
  | .fcpys d a b => wRRR 0x4D d.toByte a.toByte b.toByte
  | .bget d a => wRRR 0x50 d.toByte a.toByte 0
  | .bset d a b => wRRR 0x51 d.toByte a.toByte b.toByte
  | .badd d a b => wRRR 0x52 d.toByte a.toByte b.toByte
  | .bclr d a => wRRR 0x53 d.toByte a.toByte 0
  | .bmaxr d a => wRRR 0x54 (uByte d) a.toByte 0
  | .setb src => w16 0x55 src.toByte src.immBits
  | .bchk p a => wRRR 0x56 (0#5 ++ pByte3 p) a.toByte 0
  | .brep d k => wRRR 0x57 (uByte d) 0 (0#5 ++ k)
  | .flags d clear => w16 0x58 (uByte d) (0#7 ++ clear)
  | .rcp d a => wRRR 0x60 d.toByte a.toByte 0
  | .rsq d a => wRRR 0x61 d.toByte a.toByte 0
  | .sqrt d a => wRRR 0x62 d.toByte a.toByte 0
  | .exp2 d a => wRRR 0x63 d.toByte a.toByte 0
  | .log2 d a => wRRR 0x64 d.toByte a.toByte 0
  | .sinpi d a => wRRR 0x65 d.toByte a.toByte 0
  | .cospi d a => wRRR 0x66 d.toByte a.toByte 0
  | .tanh d a => wRRR 0x67 d.toByte a.toByte 0
  | .sigm d a => wRRR 0x68 d.toByte a.toByte 0
  | .fdivf d a b => wRRR 0x69 d.toByte a.toByte b.toByte
  | .cvt d a part src => wRRR 0x70 d.toByte a.toByte (part ++ src)
  | .pack d a => wRRR 0x71 d.toByte (vfByte a) 0
  | .unpk d a count first => wRRR 0x72 (vfByte d) a.toByte (0#2 ++ count ++ first)
  | .qblk d a fit b16 => wRRR 0x73 d.toByte (vfByte a) (0#6 ++ BitVec.ofBool fit ++ BitVec.ofBool b16)
  | .qapply d a b => wRRR 0x74 d.toByte (vfByte a) b.toByte
  | .dq d a b => wRRR 0x75 (vfByte d) a.toByte b.toByte
  | .dech d a t => wRRR 0x76 (vfByte d) (uByte a) (tileByte t)
  | .decht d a t => wRRR 0x77 (tileByte d) (uByte a) (tileByte t)
  | .decz d a t => wRRR 0x78 (vfByte d) (uByte a) (tileByte t)
  | .decst d => wRRR 0x79 (uByte d) 0 0
  | .ctab t a r => wRRR 0x7A (tileByte t) (uByte a) (recByte r)
  | .shfl d a b => wRRR 0x80 d.toByte a.toByte b.toByte
  | .shflx d a kind rel n => wRRR 0x81 d.toByte a.toByte (kind ++ BitVec.ofBool rel ++ n)
  | .bcst d a lane => wRRR 0x82 d.toByte a.toByte lane
  | .vote p comb kind src => (0x83#8 ++ pByte3 p ++ comb ++ 0#1 ++ kind ++ 0#5 ++ pByte3 src ++ 0#8 : BitVec 32)
  | .ballot d src => wRRR 0x84 (uByte d) (0#5 ++ pByte3 src) 0
  | .redl d a op seg sp => wRRR 0x85 d.toByte a.toByte (op ++ BitVec.ofBool seg ++ 0#1 ++ pByte3 sp)
  | .scanl d a op seg excl sp => wRRR 0x86 d.toByte a.toByte (op ++ BitVec.ofBool seg ++ BitVec.ofBool excl ++ pByte3 sp)
  | .rwalk d a b => wRRR 0x87 (uByte d) a.toByte (uByte b)
  | .rnext d a b => wRRR 0x88 (vfByte d) (uByte a) b.toByte
  | .segm p a tail => wRRR 0x89 (0#5 ++ pByte3 p) a.toByte (0#7 ++ BitVec.ofBool tail)
  | .ld d o rt => wRRR 0x90 d.toByte o.toByte rt.toByte
  | .st data o rt => wRRR 0x91 data.toByte o.toByte rt.toByte
  | .ldg d a decl => wRRR 0x92 d.toByte a.toByte (0#7 ++ BitVec.ofBool decl)
  | .stg data a => wRRR 0x93 data.toByte a.toByte 0
  | .sld d o r => wRRR 0x94 (uByte d) o.toByte (recByte r)
  | .sst data o r => wRRR 0x95 (uByte data) o.toByte (recByte r)
  | .pref hub o r => wRRR 0x96 (0#7 ++ BitVec.ofBool hub) o.toByte (recByte r)
  | .cctl op o r => wRRR 0x97 (0#6 ++ op) o.toByte (recByte r)
  | .talloc h a => wRRR 0x98 (tileByte h) (uByte a) 0
  | .tfree h => wRRR 0x99 (tileByte h) 0 0
  | .tinfo d h => wRRR 0x9A (uByte d) (tileByte h) 0
  | .tld d o h => wRRR 0x9B d.toByte o.toByte (tileByte h)
  | .tst data o h => wRRR 0x9C data.toByte o.toByte (tileByte h)
  | .tldt d o h => wRRR 0x9D (vfByte d) o.toByte (tileByte h)
  | .tfill data o h => wRRR 0x9E data.toByte o.toByte (tileByte h)
  | .tldx d o h => wRRR 0x9F d.toByte o.toByte (tileByte h)
  | .tstx data o h => wRRR 0xA0 data.toByte o.toByte (tileByte h)
  | .recsync r => wRRR 0xA1 0 (recAllByte r) 0
  | .aadd d o rt => wRRR 0xB0 d.toByte o.toByte rt.toByte
  | .aand d o rt => wRRR 0xB1 d.toByte o.toByte rt.toByte
  | .aor d o rt => wRRR 0xB2 d.toByte o.toByte rt.toByte
  | .axor d o rt => wRRR 0xB3 d.toByte o.toByte rt.toByte
  | .amin d o rt => wRRR 0xB4 d.toByte o.toByte rt.toByte
  | .amax d o rt => wRRR 0xB5 d.toByte o.toByte rt.toByte
  | .axchg d o rt => wRRR 0xB6 d.toByte o.toByte rt.toByte
  | .acas d o rt => wRRR 0xB7 (vfByte d) o.toByte rt.toByte
  | .aincw d o rt => wRRR 0xB8 d.toByte o.toByte rt.toByte
  | .aaddb d o rt => wRRR 0xB9 (vfByte d) o.toByte rt.toByte
  | .afadd d o rt => wRRR 0xBA d.toByte o.toByte rt.toByte
  | .redadd data o rt => wRRR 0xBB data.toByte o.toByte rt.toByte
  | .redfadd data o rt => wRRR 0xBC data.toByte o.toByte rt.toByte
  | .redmin data o rt => wRRR 0xBD data.toByte o.toByte rt.toByte
  | .redmax data o rt => wRRR 0xBE data.toByte o.toByte rt.toByte
  | .rflush => wRRR 0xBF 0 0 0
  | .bar p grid cnt num => wBar 0xC0 p grid cnt num
  | .bara grid cnt num => wBar 0xC1 0 grid cnt num
  | .barw p grid num => wBar 0xC2 p grid none num
  | .bart p grid num => wBar 0xC3 p grid none num
  | .wait ld st cp mx => (0xC4#8 ++ ld ++ st ++ cp ++ mx : BitVec 32)
  | .waitr counter a => wRRR 0xC5 (0#6 ++ counter) (uByte a) 0
  | .waita d o rt => wRRR 0xC6 (uByte d) o.toByte rt.toByte
  | .mbatch d => wRRR 0xC7 (optUByte d) 0 0
  | .fence kind scope => wRRR 0xC8 0 0 (0#2 ++ kind ++ 0#1 ++ scope.code)
  | .pbar cum => wRRR 0xC9 0 0 (0#7 ++ BitVec.ofBool cum)
  | .stsig data o rt => wRRR 0xCA data.toByte o.toByte rt.toByte
  | .cpy a => wRRR 0xD0 0 (uByte a) 0
  | .cpyo a b => wRRR 0xD1 0 (uByte a) b.toByte
  | .cpyg a => wRRR 0xD2 0 (uByte a) 0
  | .cpys a => wRRR 0xD3 0 (uByte a) 0
  | .cpyt a => wRRR 0xD4 0 (uByte a) 0
  | .engsv d => wRRR 0xD5 (uByte d) 0 0
  | .engrs a => wRRR 0xD6 0 (uByte a) 0
  | .mma acc hA hB na nb z r p pair => (0xD8#8 ++ nib acc ++ h5 hA ++ h5 hB ++ BitVec.ofBool na ++ BitVec.ofBool nb ++ BitVec.ofBool z ++ BitVec.ofBool r ++ p ++ BitVec.ofBool pair ++ 0#2 : BitVec 32)
  | .mshape a => wRRR 0xD9 0 (uByte a) 0
  | .accz mask => wRRR 0xDA (mask.extractLsb' 8 8) 0 (mask.extractLsb' 0 8)
  | .accrd d acc count b => wRRR 0xDB (vfByte d) (nib acc ++ count) (uByte b)
  | .accwr d acc count b => wRRR 0xDC (vfByte d) (nib acc ++ count) (uByte b)
  | .msave t => wRRR 0xDD 0 (tileByte t) 0
  | .mres t => wRRR 0xDE 0 (tileByte t) 0
  | .mscale a => wRRR 0xDF 0 (uByte a) 0
  | .enq d a q => wRRR 0xE0 (uByte d) (uByte a) (0#2 ++ q)
  | .ctxdead first count => wRRR 0xE1 (vfByte first) count 0
  | .ctxpin first count pin => wRRR 0xE2 (vfByte first) count (0#7 ++ BitVec.ofBool pin)
  | .unseat => wRRR 0xE3 0 0 0
  | .semsig a b => wRRR 0xE4 0 (uByte a) (uByte b)
  | .trap n => w16 0xE8 0 n
  | .tret mode => wRRR 0xE9 0 0 (0#6 ++ mode)
  | .rdtrap d k => wRRR 0xEA (uByte d) 0 (0#5 ++ k)
  | .rdctx d a => wRRR 0xEB (uByte d) (uByte a) 0
  | .wrctx a b => wRRR 0xEC 0 (uByte a) (uByte b)
  | .pmc d counter => wRRR 0xED (uByte d) 0 (0#2 ++ counter)
  | .errlog d a b => wRRR 0xEE (uByte d) (uByte a) (uByte b)
  | .setm m => w24 0xF4 m
  | .setmr a => wRRR 0xF5 0 (uByte a) 0
  | .lmma3 d a b => wRRR 0xF8 d a b
  | .llds d a b => wRRR 0xF9 d a b
  | .lsts d a b => wRRR 0xFA d a b
  | .lbar d a b => wRRR 0xFB d a b
  | .ipref count off => (0xFC#8 ++ count ++ off : BitVec 32)
  | .hintFd x => w24 0xFD x
  | .hintFe x => w24 0xFE x
  | .illegalOpcode x => w24 0xFF x
  | .reservedOpcode op x => w24 op x
  | .pick _
  | .icacheFill _
  | .sfuResult _
  | .xlaneResult _
  | .conversionResult _
  | .ldStepComplete _
  | .stStepComplete _
  | .atomicLanePerform _
  | .heldFaultEntry _
  | .faultReplay _
  | .contextCacheFill _
  | .decodeUnitComplete _
  | .dechtComplete _
  | .copyElement _
  | .copyCommandEnd _
  | .matrixEntryStart _
  | .matrixEntryRetire _
  | .batchComplete _
  | .barrierPhaseComplete _ _ _
  | .waitaWake _
  | .waitaPoll _
  | .waitaDeadline _
  | .stallQuantumExpiry _
  | .groupEndSeatFree _
  | .seating _
  | .preemption _ _
  | .contextResume _
  | .starvationBoost _
  | .l1Eviction _ _
  | .persistBufferDrain
  | .hotnessSample _
  | .kernelLaunch _ _
  | .semaphoreStep _ _
  | .xshoot _ _
  | .xshootWake _ _
  | .semaphoreWaitRecheck _ _
  | .teamPlacement _
  | .launchComplete _
  | .frPost _ _
  | .ctLoad _ _
  | .swapOut _
  | .swapIn _
  | .swapComplete _
  | .devRst _
  | .secAdv _
  | .doorbellWrite _ _ _ _
  | .registerWrite _ _
  | .hostHdmAccess _ _ _
  | .falanWriteArrival _ _ _
  | .flushMarker _
  | .linkTrained _ _
  | .linkRetrain _
  | .linkDown _
  | .noPathKill _
  | .powerLoss
  | .globalPersistentFlush
  | .powerOnReset
  | .deviceReset
  | .boot _
  | .vfFunctionLevelReset _
  | .d3hot
  | .d0
  | .d3cold
  | .throttleUpdate _ _
  | .quarterClockGate _
  | .coreClockGate _
  | .hbmSelfRefresh _
  | .pldmMonitoring
  | .pldmFirmwareUpdate _ _
  | .spdmAttestation
  | .managementPowerLimit _
  | .managementResetRequest
  | .managementReset
  | .correctedError _ _ _
  | .uncorrectableError _
  | .sldComplete _
  | .recsyncComplete _
  | .enqComplete _
  | .releaseComplete _
  | .persistBufferAcceptance
  | .markerAcknowledgement _
  | .falanReadArrival _ _ _
  | .backInvalidation _ _
  | .linkTrainingStart _
  | .starvationBoostEnd _
  | .leaveReset => 0

/-- A `CXP` word (R51). -/
def encodeCxp (m : Cxp) : W32 :=
  (0xF3#8 ++ m.c.toByte ++ BitVec.ofBool m.negA ++ BitVec.ofBool m.negB ++ BitVec.ofBool m.negC ++
    BitVec.ofBool m.absA ++ BitVec.ofBool m.absB ++ BitVec.ofBool m.exact ++ 0#10 : BitVec 32)

/-- The prefix word of an instruction, if it has one (R50, R51). -/
def prefixWord : Instr → Option W32
  | .movi _ _ h | .iaddi _ _ _ h | .smovi _ _ h => h.map (w24 0xF2)
  | .fadd _ _ _ m | .fsub _ _ _ m | .fmul _ _ _ m | .fma _ _ _ m | .ffma _ _ _ m | .fmin _ _ _ m
  | .fmax _ _ _ m | .fdot2 _ _ _ m | .fdot4 _ _ _ m | .fcmp _ _ _ _ m => m.map encodeCxp
  | _ => none

/-- The words of a well-formed instruction, prefix first (R52). -/
def encode (i : Instr) : List W32 := (prefixWord i).toList ++ [encodeWord i]

/-- The instruction my decoder reads from `nbits` bits `w`, the first word in the low bits. -/
def decodeTableWord (nbits w : Nat) : Option Instr :=
  if nbits = 0 then none
  else match decode [BitVec.ofNat 32 w, BitVec.ofNat 32 (w >>> 32)] with
    | .ok (i, _) => some i
    | .error _ => none

end Sys2Proof
end

