-- ==== Sys2Proof/Machine/State.lean ====
section
/-! DEFINITION. The state of the whole device as plain data, the reasons a step can stop, and the
state right after reset. -/

namespace Sys2Proof.Machine

/-- Why a step can stop. -/
inductive Fault where
  /-- Raised by every instruction word when no gang is issuing (no group holds `focus` with a run in
  progress). Safe: the machine issues words only from a run in progress (R87), so no real step is cut. -/
  | noIssuer
  deriving DecidableEq, Repr

/-- Why an instruction has no meaning. -/
inductive Refusal where
  /-- An instruction whose meaning is not written. Raised by no arm of the finished model. Safe. -/
  | notModelled (mnemonic : String)
  deriving DecidableEq, Repr

/-- A map from naturals in canonical form: keys strictly rising. -/
abbrev KMap (α : Type) := List (Nat × α)

/-- Sparse bytes, keyed by address (R4); an unlisted address reads as 0. -/
abbrev Memory := List Host.Cell

/-! ### A group and its slices -/

/-- One vector-register line (R25): 32 lanes of data and 32 bounds. -/
structure VLine where
  val : Vector W32 32
  bnd : Vector B16 32
  deriving DecidableEq, Repr

/-- Kinds of reconvergence-stack entries (R70). -/
inductive StackKind where
  | rejoin | pending | call
  deriving DecidableEq, Repr

/-- A reconvergence-stack entry (R70). `pc` is a word offset from the code-section start. -/
structure StackEntry where
  kind : StackKind
  jv : Bool
  mask : BitVec 4
  pc : W32
  deriving DecidableEq, Repr

/-- A value that a register may still show to an early reader (R49, R96, R155). -/
inductive Version where
  | v (r : VReg) (line : VLine) (lanes : BitVec 32)
  | u (r : UReg) (val : W64) (bnd : B16)
  | p (r : PReg) (val : BitVec 32) (lanes : BitVec 32)
  | budget (b : B16)
  | shape (words : List W64)
  | scale (words : List W64)
  deriving DecidableEq, Repr

/-- A register whose older version may still be read (R48, R49). `until_` is the clock from which only a newer version is
read; `runs` are the runs that have written the register since, which never read it. -/
structure Unsettled where
  alt : Version
  until_ : Nat
  runs : List Nat
  deriving DecidableEq, Repr

/-- One of the eight slices of a group (R18, R37, R70). The stack's top is its first element. -/
structure Slice where
  pc : W64
  mode : BitVec 24
  /-- The MODE before the last `SETM`, the clock until which a later run may still use it, and the run
  that wrote it (R96). -/
  oldMode : Option (BitVec 24 × Nat × Nat)
  act : BitVec 4
  exited : BitVec 4
  stack : List StackEntry
  parked : Bool
  /-- The clock before which the slice's next run does not issue, after a taken transfer (R84, R85). -/
  notBefore : Nat
  deriving DecidableEq, Repr

/-- The run in progress (R43–R46): the gang's slices, the PC of the next body word, the words fetched
and not yet issued, the trailer's unassigned flags, and the header's gap and giveway. -/
structure Run where
  slices : BitVec 8
  pc : W64
  words : List W32
  trl : BitVec 12
  trailer : Bool
  /-- False only before the first body word has issued. -/
  begun : Bool
  gap : Nat
  giveway : Bool
  /-- Serial number of the run within the device, for R49. -/
  id : Nat
  /-- Micro-step of a legacy instruction in progress (R437, R438). -/
  micro : Nat
  /-- A schedule slip has been counted for the stall in progress (R47). -/
  slipped : Bool
  /-- The model's own: the last try to issue stalled. -/
  stalled : Bool
  /-- The gang was formed by a MODE older than its slices' newest (R96). -/
  early : Bool
  deriving DecidableEq, Repr

/-- A register write to be made when an operation completes. -/
inductive RegWrite where
  | v (r : VReg) (line : VLine) (lanes : BitVec 32)
  | u (r : UReg) (val : W64) (bnd : B16)
  | p (r : PReg) (val : BitVec 32) (lanes : BitVec 32)
  deriving DecidableEq, Repr

/-- A trap to be taken: code and frame words 2–7 (R425–R427). -/
structure TrapInfo where
  code : BitVec 8
  detail : List W64
  async : Bool
  legacy : Bool
  step : Nat
  deriving DecidableEq, Repr

/-- A report card before the hub numbers it: words 1–7 of R143. -/
structure Card where
  words : List W64
  deriving DecidableEq, Repr

/-- The units whose results arrive late (R46). -/
inductive ResultKind where
  | sfu | xlane | conv | sld | accrd
  deriving DecidableEq, Repr

/-- A long-latency result outstanding (R46, R47). -/
structure Pending where
  kind : ResultKind
  flag : Option (Fin 12)
  writes : List RegWrite
  sticky : BitVec 9
  card : Option Card
  /-- The run is held until this result is written (R177, R487). -/
  holds : Bool
  trap : Option TrapInfo
  quarter : Nat
  slices : BitVec 8
  /-- The run that issued it, to which x0–x7 among its destinations belong (R7, R35). -/
  run : Nat
  /-- The serial number of its issue, which orders a quarter's cross-lane results (R227). -/
  issued : Nat
  /-- Its values are known: an `ACCRD` reads its rows only when its queue entry starts (R384). -/
  known : Bool
  deriving DecidableEq, Repr

/-- The returning atomics (R288). -/
inductive AtomicKind where
  | add | and | or | xor | min | max | xchg | cas | incw | addb | fadd | semMax
  deriving DecidableEq, Repr

/-- The buffered reductions (R295), in the order of R489. -/
inductive RedKind where
  | add | fadd | min | max
  deriving DecidableEq, Repr

/-- What a captured memory access does. -/
inductive AccessOp where
  | ld | st (signal : Bool) | ldg (decl : Bool) | stg | sld | sst | pref | cctl (op : BitVec 2)
  | atomic (k : AtomicKind) | reduce (k : RedKind) | waita | ctab (t : TileNo) (base : W64)
  | recsync (r : Option RecNo) | semsig | enq (d : UReg) (q : BitVec 6) | fetch
  deriving DecidableEq, Repr

/-- A memory access as captured at issue (R246, R270): operands, MODE and record snapshot are those read
at the original issue; `lanes` are the lanes still to perform. -/
structure Access where
  op : AccessOp
  opcode : BitVec 8
  rtField : BitVec 8
  word : W32
  pc : W64
  slices : BitVec 8
  mode : BitVec 24
  lanes : BitVec 32
  offs : Vector W64 32
  data : List VLine
  record : Option (RecNo × List W64)
  dst : Option VReg
  udst : Option UReg
  /-- Counter steps, releases and commands of its group numbered below this were issued before the access. -/
  seq : Nat
  deriving DecidableEq, Repr

/-- What a translated access knows of its page (R263, R267). -/
structure Attr where
  type : Nat
  rd : Bool
  w : Bool
  x : Bool
  bc : Bool
  size : Nat
  asid : Nat
  vpage : Nat
  /-- The cache field of the record that the access goes through, 0 where it names none (R233). -/
  cache : Nat := 0
  deriving DecidableEq, Repr

/-- One raised step of the ld or st counter (R304). `todo` is a returning atomic, and `places` the lanes of it that have
not performed, each with its page's attributes and its physical address, or its word of a tile (R287, R292). -/
structure CStep where
  id : Nat
  performed : Bool
  writes : List RegWrite
  sticky : BitVec 9
  todo : Option Access
  places : List (Nat × Attr × Nat)
  /-- The run that issued it, to which x0–x7 among its destinations belong (R7, R35). -/
  run : Nat
  deriving DecidableEq, Repr

/-- Why a gang is parked on an access (R270, R271, R279): an absent page; a migrating page; an access behind an
earlier one of the group; a cause that is past, so the access may replay; or none, the access being complete. -/
inductive ParkCause where
  | fault | migration (page : Nat) | heldBehind | ready | done
  deriving DecidableEq, Repr

/-- A gang parked at an access (R270, R279). -/
structure Park where
  cause : ParkCause
  acc : Access
  step : Option Nat
  /-- The rest of the run that the gang was executing, and its x0–x7 (R86). -/
  run : Option Run
  x : KMap VLine
  /-- Once done: the trap that the gang takes when it is next picked, another gang's run being in progress (R275, R425). -/
  trap : Option TrapInfo
  /-- The gang was in its trap handler. -/
  handler : Bool
  deriving DecidableEq, Repr

/-- A buffered-reduction target (R294). -/
inductive RedTarget where
  | mem (pa : Nat) (asid : Nat) (vpage : Nat)
  | tile (h : TileNo) (word : Nat)
  deriving DecidableEq, Repr

/-- An atomic-buffer entry (R294, R489). The list that holds it is in age order, oldest first. -/
structure RedEntry where
  target : RedTarget
  op : RedKind
  type : BitVec 5
  rnd : BitVec 3
  ftz : Bool
  sig : Bool
  /-- The page through which the entry was opened, of no meaning for a tile's (R294, R296). -/
  page : Attr
  value : W64
  bound : B16
  deriving DecidableEq, Repr

/-- A group's relation to one barrier (R307): 0–15 are b0–b15 and 16–23 are g0–g7. `completed` holds the
abandoned mark and k of the completed phase that the group has not yet recorded. -/
structure BarPend where
  token : BitVec 32
  pending : Bool
  completed : Option (Bool × Nat)
  deriving DecidableEq, Repr

/-- What follows when a release completes (R328, R311, R333). -/
inductive ReleaseThen where
  | fence (sc : Bool)
  | arrive (bar : Nat) (count : Option Nat) (wait : Option PReg) (park : Bool)
  | pbar (cum : Bool)
  | groupEnd
  deriving DecidableEq, Repr

/-- A release in progress (R328, R338, R342). Counter steps numbered below `upto` were issued before it. Once `sent`, its
drains and write-backs are done, and `markers` names the marker rounds whose acknowledgement it waits for, or for `PBAR` the
durable writes whose acceptance it waits for. `faulted`: a release write-back fault holds it until a post (R277). -/
structure Release where
  scope : Scope
  upto : Nat
  markers : List Nat
  next : ReleaseThen
  pc : W64
  opcode : BitVec 8
  sent : Bool
  faulted : Bool
  deriving DecidableEq, Repr

/-- What a monitored wait watches (R317). -/
inductive WaitTarget where
  | mem (va : Nat) (pa : Nat)
  | tile (h : TileNo) (word : Nat)
  deriving DecidableEq, Repr

/-- A monitored wait in progress (R317). -/
structure WaitA where
  d : UReg
  width : Nat
  expected : W64
  last : W64
  lastBound : B16
  deadline : Option Nat
  target : WaitTarget
  armed : Bool
  woken : Bool
  slices : BitVec 8
  /-- Its page, for a word of memory, the declared bound it is read under, and the clock of the last poll. -/
  page : Option Attr
  declared : B16
  polled : Nat
  deriving DecidableEq, Repr

/-- Instructions that hold their run until another unit is done. -/
inductive Hold where
  | result
  | decode
  | recsync (acc : Access)
  | enq (acc : Access)
  | release
  | barrier (bar : Nat) (pred : PReg)
  | waita
  | matrix
  /-- The group is parked by a release write-back fault of a fence that its run has passed (R277). -/
  | stopped
  deriving DecidableEq, Repr

/-- A copy-engine command (R347, R351, R362, R364), `DECHT` included. -/
structure CopyCmd where
  opcode : BitVec 8
  words : List W64
  rnd : BitVec 3
  sat : Bool
  ftz : Bool
  bnd : BitVec 2
  acqdone : Bool
  done : Nat
  rowMask : BitVec 32
  rowOffs : List W32
  srcRec : List W64
  dstRec : List W64
  metaRec : List W64
  destTile : TileNo
  srcTile : TileNo
  pc : W64
  /-- A fault entry of kind 4 is outstanding for this command (R360). -/
  faulted : Bool
  /-- Ended early: no release, and the group traps 0x05 (R361). -/
  ended : Bool
  /-- Only the release remains (R364); and, once that has written back, the marker rounds that it waits for (R338). -/
  released : Bool
  marks : Option (List Nat)
  /-- Counter steps numbered below this were issued before the command. -/
  seq : Nat
  /-- Destination words that the command has written in part: the bits written and the largest bound among them (R355). -/
  part : KMap (Nat × B16)
  /-- Once ended: the lowest address that ended the command and the elements completed, or the sectors refused (R361, R277); while
  faulted, the address range of its fault (R360). -/
  endDetail : Nat × Nat
  deriving DecidableEq, Repr

/-- A step of the mx counter: a closed batch and the entries of it that have not retired (R306). -/
structure Batch where
  open_ : Nat
  relNeeded : Bool
  relScope : Scope
  seq : Nat
  pc : W64
  faulted : Bool
  /-- Once its release has written back, the marker rounds that it waits for (R338). -/
  marks : Option (List Nat)
  deriving DecidableEq, Repr

/-- Where a group is (R17, R409). -/
inductive Place where
  | seat (core : Nat) (quarter : Nat)
  | hall (core : Nat)
  | ended
  | killed
  deriving DecidableEq, Repr

/-- The code a group fetches: its kernel's, or its handler's (R31, R53, R428). -/
structure Code where
  va : Nat
  size : Nat
  entry : Nat
  interlocked : Bool
  deriving DecidableEq, Repr

/-- Kinds of matrix-queue entries (R366). -/
inductive MKind where
  | mma | accz | accrd | accwr | mres
  deriving DecidableEq, Repr

/-- An allocated tile (R253–R256): its descriptor, its first bank row, its data words and sidebands. -/
structure Tile where
  desc : W64
  base : Nat
  rows : Nat
  words : KMap W32
  side : KMap W64
  poison : List Nat
  /-- The core whose scratchpad holds a CORE tile (R254). -/
  core : Nat
  deriving DecidableEq, Repr

/-- A matrix-queue entry with the state it took at issue (R366, R375, R395). -/
structure MEntry where
  gid : Nat
  kind : MKind
  word : W32
  pc : W64
  slices : BitVec 8
  mode : BitVec 24
  budget : B16
  shape : List W64
  scale : List W64
  origin : W64
  lanes : BitVec 32
  d : Nat
  tile : TileNo
  flag : Option (Fin 12)
  holds : Bool
  started : Bool
  acqdone : Bool
  /-- Counter steps numbered below this were issued before the entry. -/
  seq : Nat
  /-- The words of the save image that an `MRES` continues, none for an entry that starts whole (R392, R394). -/
  image : List W64
  /-- The tiles that a started `MMA` reads, by handle, as they were when it started (R387). -/
  old : KMap Tile
  deriving DecidableEq, Repr

/-- A decode waiting for or in the core's decode unit (R211). -/
structure DecodeJob where
  gid : Nat
  kind : BitVec 2
  d : Nat
  desc : W64
  desc2 : W64
  stream : TileNo
  mode : BitVec 24
  slices : BitVec 8
  table : Option (List Byte)
  card : Bool
  /-- Accesses numbered below this were issued before the decode. -/
  seq : Nat
  /-- The words of the stream tile when it was issued: a word that changes under the decode may be read as either (R209). -/
  old : KMap W32
  deriving DecidableEq, Repr

/-- A thread group: 32 lanes in 8 slices, with all of its context block (R25, R400). -/
structure Group where
  -- identity
  kernel : Nat
  team : Nat
  number : Nat
  role : Nat
  place : Place
  -- registers
  v : KMap VLine
  x : KMap VLine
  s : Vector W64 64
  sb : Vector B16 64
  p : Vector (BitVec 32) 7
  slices : Vector Slice 8
  unsettled : List Unsettled
  budget : B16
  sticky : BitVec 9
  fpEnable : BitVec 5
  cflags : BitVec 12
  shape : List W64
  scale : List W64
  decStatus : W64
  barst : BitVec 32
  cards : Nat
  cardCopy : List W64
  -- in-flight work
  run : Option Run
  hold : Option Hold
  pend : List Pending
  ld : List CStep
  st : List CStep
  copies : List CopyCmd
  mx : List Batch
  openBatch : Batch
  batchNo : BitVec 32
  stepSeq : Nat
  red : List RedEntry
  bars : KMap BarPend
  release : Option Release
  /-- A write to an IO page is not known to have reached its device (R340). -/
  ioOut : Bool
  waita : Option WaitA
  -- faults and traps
  token : BitVec 8
  resWord : W64
  /-- The kind of the entry that the word is armed for: 0, 1, 3 or 4 (R273). -/
  entryKind : Nat
  parks : List Park
  ctxMiss : Option Nat
  /-- The migrating page that a fill of the group's block met (R279), and the frames of the block's pages whose lines the context cache
  holds, by virtual page (R402). -/
  ctxMoving : Option Nat
  blockFrames : KMap Nat
  ctxToken : Option (BitVec 8)
  ctxPosted : Bool
  frame : List W64
  /-- The exited masks at the handler's entry (R434). -/
  entryExited : List (BitVec 4)
  /-- The handler's code while the group is in handler mode (R428). -/
  handler : Option Code
  saved : KMap W64
  savedX : KMap VLine
  resume : Option Run
  /-- Asynchronous traps that the group has still to take, oldest first (R361). -/
  asyncTraps : List TrapInfo
  killCode : BitVec 8
  -- scheduling
  stamp : Nat
  seatedAt : Nat
  notBefore : Nat
  givewayDue : Bool
  /-- After `YIELD`: picks left to wait, and the groups still to be picked first, once known (R90). -/
  yieldDue : Nat
  yieldFor : Option (List Nat)
  lastGang : Nat
  pinned : List Nat
  /-- Vector lines that the context cache has evicted and not filled again (R402). -/
  absent : List Nat
  /-- Matrix-queue entries saved by a pre-emption (R395). -/
  savedMq : List MEntry
  /-- Copy-engine decodes saved by a pre-emption, and the mark that the group's engine commands stand still until it is seated
  again (R364, R395). -/
  savedJobs : List DecodeJob
  engineSaved : Bool
  /-- The group's block has been written to memory since its launch (R401, R403). -/
  blockWritten : Bool
  parkedSince : Option Nat
  /-- The `TFREE` that waits: its run and PC, and for each group of the team the number below which an access was issued before it (R256). -/
  freeing : Option (Nat × W64 × KMap Nat)
  /-- Words of poisoned vector lines (R441): 64 times the register's number, plus the word of its line. -/
  poison : List Nat
  deriving DecidableEq, Repr

/-! ### Tiles, teams and kernels -/

/-- A barrier's phase that has completed: the groups that arrived in it and those that watch it, and k, the killed groups that it had
counted (R309). -/
structure DonePhase where
  who : List Nat
  killed : Nat
  deriving DecidableEq, Repr

/-- A team or grid barrier's state in the bell unit (R307). `due` holds the phases that have completed and whose drains and releases of
waiters are still to be made (R297), oldest first. -/
structure Barrier where
  phase : BitVec 32
  arrived : List Nat
  /-- `none` before the phase's first arrival; `some none` full; `some (some c)` counted. -/
  mode : Option (Option Nat)
  watchers : List Nat
  due : List DonePhase
  deriving DecidableEq, Repr

/-- A freed tile that accesses issued before its free may still use (R256): those of a group numbered below its mark. -/
structure LateTile where
  handle : Nat
  tile : Tile
  marks : KMap Nat
  deriving DecidableEq, Repr

/-- A placed team (R21, R418). -/
structure Team where
  kernel : Nat
  number : Nat
  core : Nat
  cls : Nat
  tiles : KMap Tile
  late : List LateTile
  bars : KMap Barrier
  deriving DecidableEq, Repr

/-- An extent (R267). -/
structure Extent where
  kind : BitVec 2
  size : BitVec 2
  type : BitVec 3
  bc : Bool
  w : Bool
  rd : Bool
  /-- Whether the pages have X, which an entry of the arena does not show. -/
  x : Bool
  lo : Nat
  hi : Nat
  pa : Nat
  deriving DecidableEq, Repr

/-- A live kernel: what its launch command and descriptor fixed (R55–R58, R414–R420). -/
structure Kernel where
  asid : Nat
  part : Nat
  queue : Nat
  entryVa : Nat
  codeObj : Nat
  code : Code
  score : Bool
  prot : Bool
  pair : Bool
  grid : List Nat
  cls : Nat
  roleGroups : List Nat
  budgets : List Nat
  reservation : Nat
  gmask : W64
  recTable : Nat
  recCount : Nat
  records : KMap (List W64)
  extents : KMap (List Extent)
  arena : Nat
  stride : Nat
  budget : B16
  fpEnable : BitVec 5
  arg : W64
  sigVa : Nat
  sigVal : W64
  placed : Nat
  killed : Bool
  order : Nat
  /-- Once every group has ended and the release of the kernel's writes has gone out: the marker rounds that its completion waits for (R332). -/
  endMarks : Option (List Nat)
  deriving DecidableEq, Repr

/-! ### Cores -/

/-- The A operand kept by the array's latch (R377). -/
structure Latch where
  gid : Nat
  hA : TileNo
  map : W64
  m : Nat
  k : Nat
  a : List W64
  b : List B16
  deriving DecidableEq, Repr

/-- A 48-byte sector held in an L1 (R232, R277). `bytes` holds the cached bytes by offset 0–47. The sectors of a line that are not revoked
carry one identifier, virtual page and cache policy: those of the line. -/
structure L1Sector where
  sector : Nat
  asid : Nat
  vpage : Nat
  /-- The cache field of the last access to the line, whose low code is the line's retention (R233). -/
  cache : Nat
  /-- The groups whose stores are dirty here (R342), those that have read it since, and the mark that a group which had stored or
  read them has made a release since (R343). -/
  owners : List Nat
  readers : List Nat
  released : Bool
  bytes : KMap Byte
  dirty : BitVec 48
  side : Option W64
  stale : Bool
  revoked : Bool
  dur : Bool
  shr : Bool
  deriving DecidableEq, Repr

/-- A hotness sample not yet written (R281). -/
structure Sample where
  va : Nat
  clock : Nat
  asid : Nat
  kind : Nat
  type : Nat
  bc : Bool
  size : Nat
  deriving DecidableEq, Repr

/-- One core (R15, R16). Accumulator cell (n, i, j) has key n·4096 + i·32 + j; row bound (n, i) key n·128 + i. -/
structure Core where
  acc : KMap W32
  rowBound : KMap B16
  accPoison : List Nat
  mq : List MEntry
  latch : Option Latch
  l1 : List L1Sector
  decodeQ : List DecodeJob
  icache : List Nat
  /-- By quarter: the group whose run is in progress there (R87), and the group, the gang and the gang's `early` mark whose
  picked run waits for the instruction cache (R91). -/
  current : KMap Nat
  frozen : KMap (Nat × BitVec 8 × Bool)
  gatedQuarters : List Nat
  gated : Bool
  /-- By quarter: the last clock known at which it held a seated group (R465). -/
  seatedUntil : KMap Nat
  /-- The clock of the core's last access beyond its L1 (R465). -/
  accessAt : Nat
  hotCount : Nat
  samples : List Sample
  /-- Performance counters 0–9, by virtual function (R447): key vf·64 + n, vf 64 being the physical function. -/
  pmc : KMap (BitVec 48)
  /-- The clock up to which counter 0 is brought up to date. -/
  acctAt : Nat
  deriving DecidableEq, Repr

/-! ### Contexts, queues, partitions and the device -/

/-- Context states (R421). -/
inductive CtxState where
  | runnable | idle | preempted | empty
  deriving DecidableEq, Repr

/-- A loaded context descriptor with its scheduling state (R397, R421). -/
structure Context where
  part : Nat
  index : Nat
  prio : Nat
  privileged : Bool
  enable : Bool
  root : Nat
  qtable : Nat
  cardBase : Nat
  cardLog : Nat
  quantum : Nat
  dropped : Nat
  cardSeq : Nat
  state : CtxState
  /-- A swap-out has moved the context's cores' contents away (R424). -/
  away : Bool
  boosted : Bool
  /-- Clocks of running time in the current window, and the clock it was last brought up to date (R423). -/
  ran : Nat
  ranAt : Nat
  gridBars : KMap Barrier
  gridHolder : Option Nat
  deriving DecidableEq, Repr

/-- Progress of a dequeued command (R416): it waits on its semaphore; its kernel waits for the grid barriers or the extent arena; or its
kernel's teams are being placed. -/
inductive CmdStage where
  | waiting | blocked (kernel : Nat) | placing (kernel : Nat)
  deriving DecidableEq, Repr

/-- The command at the head of a queue (R416). -/
structure QueueRun where
  entryVa : Nat
  words : List W64
  stage : CmdStage
  /-- Place in the order of dequeued commands (R410). -/
  order : Nat
  /-- The sector of the wait semaphore at its last read, the clock of that read, and whether a signalling write has met it since. -/
  waitSector : Nat
  lastRead : Nat
  woken : Bool
  deriving DecidableEq, Repr

/-- The register block of a partition (R280, R346, R398, R428, R443). -/
structure PartRegs where
  fqBase : W64
  fqSize : W64
  fqProd : BitVec 32
  fqCons : BitVec 32
  frPost : W64
  frStat : BitVec 3
  hsCtl : W64
  hsBase : W64
  hsSize : W64
  hsProd : BitVec 32
  hsCons : BitVec 32
  hsDrop : BitVec 48
  exBase : W64
  exSize : W64
  psDrained : BitVec 32
  psPortfail : BitVec 3
  psIncomplete : Bool
  psClean : Bool
  swBase : W64
  swCtl : W64
  swBusy : Bool
  swDone : Bool
  swFailed : Bool
  ctBase : W64
  ctLoad : W64
  ctStat : BitVec 1
  thBase : W64
  elBase : W64
  elSize : W64
  elProd : BitVec 32
  elCons : BitVec 32
  elDrop : BitVec 48
  deriving DecidableEq, Repr

/-- A fault entry held for lack of queue space (R273), with the group whose word it arms. -/
structure HeldEntry where
  words : List W64
  deriving DecidableEq, Repr

/-- One core's accumulator store as a swap-out saved it (R424). -/
structure CoreStore where
  acc : KMap W32
  rowBound : KMap B16
  accPoison : List Nat
  deriving DecidableEq, Repr

/-- What a swap-out saved (R424): the contexts that it halted, and the stores of each core of the partition. The tiles and tile tables
of those contexts' teams stay in their teams. -/
structure SwapImage where
  part : Nat
  ctxs : List Nat
  cores : KMap CoreStore
  deriving DecidableEq, Repr

/-- One partition. -/
structure Partition where
  regs : PartRegs
  held : List HeldEntry
  clockBase : Nat
  inReset : Bool
  /-- A swap in progress: out or in, and the area that SW_BASE named when it started (R424). -/
  swapping : Option Bool
  swapArea : Nat
  pmc : KMap (BitVec 48)
  /-- Identifiers of descriptors loaded since the last reset (R278). -/
  loaded : List Nat
  /-- Extent-arena entries in use, as (first, count) runs (R267). -/
  arenaUse : List (Nat × Nat)
  deriving DecidableEq, Repr

/-- States of a Falan link (R462). -/
inductive LinkState where
  | down | training | up | retraining
  deriving DecidableEq, Repr

/-- A Falan port (R462). A link is in the spray set while it is up. `since` is the clock at which its state was entered, and `lostAt`
that at which it last left the spray set. `carried`: a peer's write has arrived on it since its last marker; `markerSeen`: its marker
has arrived and the others are awaited (R338). -/
structure Link where
  state : LinkState
  peer : BitVec 8
  retrains : BitVec 32
  since : Nat
  lostAt : Nat
  carried : Bool
  markerSeen : Bool
  deriving DecidableEq, Repr

/-- Power states (R464). -/
inductive PowerState where
  | d0 | d3hot | d3cold | lost
  deriving DecidableEq, Repr

/-- A leaf or non-leaf translation held by a core TLB (R269). -/
structure TlbEntry where
  core : Nat
  asid : Nat
  vpage : Nat
  pte : W64
  level : Nat
  deriving DecidableEq, Repr

/-- A write on its way to, or in, the persist buffer (R341): one sector's bytes and sideband, under its partition's tag (R13). -/
structure DurWrite where
  part : Nat
  sector : Nat
  bytes : KMap Byte
  side : Option W64
  owners : List Nat
  /-- An engine command of the owner wrote it, and its step is still open (R342). -/
  engine : Bool
  /-- The groups that have read it, or have been ordered after it; and the mark that a group which wrote or saw it has made a
  release since (R343). -/
  seen : List Nat
  released : Bool
  seq : Nat
  deriving DecidableEq, Repr

/-- A line of the hub cache (R13, R232, R233): its partition's tag, its sectors that are present and those that backing memory does not
hold yet, by number within the line, its retention, and the step of its last use. -/
structure HubLine where
  part : Nat
  present : BitVec 4
  dirty : BitVec 4
  keep : Nat
  used : Nat
  deriving DecidableEq, Repr

/-- A write to a peer device that its destination has not acknowledged (R337–R339): the path that it travels on, none while the destination
has none, and the marker round that follows it, once one is sent. -/
structure PeerWrite where
  dest : Nat
  path : Option Nat
  sector : Nat
  core : Nat
  mark : Option Nat
  deriving DecidableEq, Repr

/-- The flush markers that one release sent to one destination, and the paths on which they travel (R338). -/
structure MarkRound where
  id : Nat
  dest : Nat
  paths : List Nat
  deriving DecidableEq, Repr

/-- A verified-code cache entry (R460): the digest's index of use order is its place in the list. -/
structure VerifiedCode where
  digest : BitVec 384
  version : Nat
  deriving DecidableEq, Repr

/-- What the device has answered to readers outside it (R338, R449, R455). -/
inductive Reply where
  | hostRead (data : List Byte) (poison : Bool)
  | peerRead (port : Nat) (data : List Byte) (poison : Bool)
  | peerAtomic (port : Nat) (old : W64) (poison : Bool)
  | markers (peer : Nat)
  | monitoring (readings : List W64) (errors : KMap Nat)
  | attestation (measurements : List W64)
  deriving DecidableEq, Repr

/-- The device registers and the device-wide units (R451, R455–R466). -/
structure Device where
  devCfg : W64
  bootDone : Bool
  recovery : Bool
  /-- The pool windows were found at fault when the partitions were to leave reset: DEV_STAT.boot reads 0 (R454). -/
  windowsBad : Bool
  secFuse : Nat
  /-- SEC_ADV as last written (R5, R451). -/
  secAdv : W64
  pwLimit : BitVec 11
  mgmtLimit : BitVec 11
  pwWatts : BitVec 11
  throttle : BitVec 3
  pwGate : Bool
  poolWin : Vector (W64 × W64) 16
  vfAsid : Vector (BitVec 256) 64
  links : Vector Link 16
  verified : List VerifiedCode
  partCount : Nat
  power : PowerState
  /-- By HBM stack: the clock at which it entered self-refresh. It leaves it at an access of its partition (R465). -/
  selfRefreshAt : KMap Nat
  resetAt : Option Nat
  /-- The host port's error signal, set 100 ms before a management reset (R456). -/
  errSignal : Bool
  /-- The firmware image staged for the next device reset, and the one that runs (R456, R458). -/
  stagedFw : Option (BitVec 384)
  activeFw : Option (BitVec 384)
  /-- The drain record (R346). -/
  drainClean : Bool
  drainIncomplete : Bool
  drainCount : BitVec 32
  drainFail : BitVec 3
  gpfDone : Bool
  /-- Pool lines whose ownership a port holds (R337): port and line; and the lines that another agent took back since. -/
  poolOwned : List (Nat × Nat)
  poolForeign : List Nat
  /-- Writes to peers that are not acknowledged, oldest first, and the markers awaited. -/
  peerOut : List PeerWrite
  marks : List MarkRound
  /-- Answers, latest first. -/
  replies : List Reply
  /-- By storage unit: the clock of its last record of corrected errors, and the errors counted since (R441). -/
  lastCorrected : KMap Nat
  correctedCount : KMap Nat
  /-- The counts of error kinds that the management port reports (R455). -/
  errCounts : KMap Nat
  /-- Performance counter 26 (R447, R462). -/
  fabricRetrains : BitVec 48
  deriving DecidableEq, Repr

/-- Which agent moves next: a gang of a group issues; a unit, the host or a peer acts; the two copies of a group's
dependence state differ a number of times in a row at its next instruction (R439); or a group's lanes and their shadows
differ (R440). -/
inductive Move where
  | issue (gid : Nat)
  | event (i : Instr)
  | rollCall (gid mismatches : Nat)
  | laneMismatch (gid : Nat) (lanes : BitVec 32)
  deriving DecidableEq, Repr

/-- The device. -/
structure State where
  /-- Core clocks since power-on; SYS_CLOCK counts them from partition reset (R116). -/
  clock : Nat
  /-- The model's own: counts steps, and indexes the free values of Config. -/
  serial : Nat
  /-- The model's own: the moves that other agents make before the issuing group goes on. -/
  agenda : List Move
  /-- The group whose gang issues (R87). -/
  focus : Nat
  /-- Memory as its points of coherence hold it (R323). -/
  mem : Memory
  /-- Sector sidebands, by sector number (R127); an unlisted sector is all exact. -/
  side : KMap W64
  /-- Poisoned sectors (R441). -/
  poison : List Nat
  /-- What the pool devices store (R344), with sidebands. -/
  pool : Memory
  poolSide : KMap W64
  durWait : List DurWrite
  pbuf : List DurWrite
  /-- The hub cache, by line (R232). -/
  hub : KMap HubLine
  tlb : List TlbEntry
  cores : KMap Core
  groups : KMap Group
  teams : KMap Team
  kernels : KMap Kernel
  nextId : Nat
  ctxs : KMap Context
  doorbells : KMap W32
  dbStat : KMap (BitVec 2)
  queues : KMap QueueRun
  parts : Vector Partition 8
  swapAreas : KMap SwapImage
  dev : Device
  deriving DecidableEq, Repr

/-! ### Reset -/

/-- A line that nothing has written: 0 with bound exact (R403). -/
def VLine.zero : VLine := ⟨Vector.replicate 32 0, Vector.replicate 32 0⟩

/-- A core at reset. -/
def Core.reset : Core :=
  { acc := [], rowBound := [], accPoison := [], mq := [], latch := none, l1 := [], decodeQ := [],
    icache := [], current := [], frozen := [], gatedQuarters := [], gated := false, seatedUntil := [], accessAt := 0, hotCount := 0, samples := [], pmc := [], acctAt := 0 }

/-- The registers of a partition at reset (R280, R346, R398, R428, R443). -/
def PartRegs.reset : PartRegs :=
  { fqBase := 0, fqSize := 6, fqProd := 0, fqCons := 0, frPost := 0, frStat := 0, hsCtl := 0,
    hsBase := 0, hsSize := 6, hsProd := 0, hsCons := 0, hsDrop := 0, exBase := 0, exSize := 12,
    psDrained := 0, psPortfail := 0, psIncomplete := false, psClean := false, swBase := 0, swCtl := 0,
    swBusy := false, swDone := false, swFailed := false, ctBase := 0, ctLoad := 0, ctStat := 0,
    thBase := 0, elBase := 0, elSize := 6, elProd := 0, elCons := 0, elDrop := 0 }

/-- A partition at reset. -/
def Partition.reset : Partition :=
  { regs := PartRegs.reset, held := [], clockBase := 0, inReset := false, swapping := none,
    swapArea := 0, pmc := [], loaded := [], arenaUse := [] }

/-- A Falan link at reset: down (LK_STAT reset 0). -/
def Link.reset : Link :=
  { state := .down, peer := 0, retrains := 0, since := 0, lostAt := 0, carried := false, markerSeen := false }

/-- The device registers at reset (R451). -/
def Device.reset : Device :=
  { devCfg := 0, bootDone := false, recovery := false, windowsBad := false, secFuse := 0, secAdv := 0, pwLimit := 1800,
    mgmtLimit := 1800, pwWatts := 0, throttle := 0, pwGate := true,
    poolWin := Vector.replicate 16 (0, 0), vfAsid := Vector.replicate 64 0,
    links := Vector.replicate 16 Link.reset, verified := [], partCount := 1, power := .d0,
    selfRefreshAt := [], resetAt := none, errSignal := false, stagedFw := none, activeFw := none, drainClean := false,
    drainIncomplete := false, drainCount := 0, drainFail := 0, gpfDone := false, poolOwned := [], poolForeign := [], peerOut := [],
    marks := [], replies := [],
    lastCorrected := [], correctedCount := [], errCounts := [], fabricRetrains := 0 }

/-- The machine right after power-on reset (R457), before boot: nothing is loaded and memory lists nothing. -/
def State.reset : State :=
  { clock := 0, serial := 0, agenda := [], focus := 0, mem := [], side := [], poison := [], pool := [],
    poolSide := [], durWait := [], pbuf := [], hub := [], tlb := [], cores := [], groups := [], teams := [],
    kernels := [], nextId := 1, ctxs := [], doorbells := [], dbStat := [], queues := [],
    parts := Vector.replicate 8 Partition.reset, swapAreas := [], dev := Device.reset }

end Sys2Proof.Machine
end

