-- ==== Sys2Proof/Machine/Maps.lean ====
section
/-! DEFINITION. Maps from naturals and byte memory, each in one canonical form (R3, R4). -/

namespace Sys2Proof.Machine

/-- The value at a key. -/
def KMap.get? {α : Type} : KMap α → Nat → Option α
  | [], _ => none
  | (k, v) :: t, n => if n < k then none else if k = n then some v else KMap.get? t n

/-- The map with a key set. -/
def KMap.set {α : Type} : KMap α → Nat → α → KMap α
  | [], n, x => [(n, x)]
  | (k, v) :: t, n, x => if n < k then (n, x) :: (k, v) :: t else if k = n then (n, x) :: t else (k, v) :: KMap.set t n x

/-- The map without a key. -/
def KMap.erase {α : Type} : KMap α → Nat → KMap α
  | [], _ => []
  | (k, v) :: t, n => if n < k then (k, v) :: t else if k = n then t else (k, v) :: KMap.erase t n

/-- The map with the value at a key changed, where there is one. -/
def KMap.modify {α : Type} (m : KMap α) (n : Nat) (f : α → α) : KMap α :=
  match KMap.get? m n with
  | some x => KMap.set m n (f x)
  | none => m

/-- The map with every value changed. -/
def KMap.mapVals {α : Type} (m : KMap α) (f : Nat → α → α) : KMap α := m.map fun (k, v) => (k, f k v)

/-- Keys strictly rising. -/
def KMap.wf {α : Type} : KMap α → Bool
  | [] => true
  | [_] => true
  | (k, _) :: (l, w) :: t => decide (k < l) && KMap.wf ((l, w) :: t)

/-! ### Byte memory -/

/-- The byte at an address; an unlisted address reads as 0 (DESIGN CHOICE, log 2). -/
def Memory.read (m : Memory) (a : Nat) : Byte := (KMap.get? m a).getD 0

/-- Write one byte, keeping the canonical form. -/
def Memory.write (m : Memory) (a : Nat) (b : Byte) : Memory :=
  if b = 0 then KMap.erase m a else KMap.set m a b

/-- Addresses strictly rising and no entry equal to what an unlisted address reads as. -/
def Memory.wf (m : Memory) : Bool := KMap.wf m && m.all fun c => decide (c.2 ≠ 0)

/-- The n bytes from an address, little-endian (R4). -/
def Memory.readN (m : Memory) (a : Nat) : Nat → Nat
  | 0 => 0
  | n + 1 => (Memory.read m a).toNat + 256 * Memory.readN m (a + 1) n

/-- Write the low n bytes of a number, little-endian (R4). -/
def Memory.writeN (m : Memory) (a : Nat) : Nat → Nat → Memory
  | 0, _ => m
  | n + 1, v => Memory.writeN (Memory.write m a (BitVec.ofNat 8 v)) (a + 1) n (v / 256)

/-- The n bytes from an address, lowest first. -/
def Memory.bytes (m : Memory) (a : Nat) : Nat → List Byte
  | 0 => []
  | n + 1 => Memory.read m a :: Memory.bytes m (a + 1) n

/-- Write a list of bytes from an address up. -/
def Memory.writeBytes (m : Memory) (a : Nat) : List Byte → Memory
  | [] => m
  | b :: t => Memory.writeBytes (Memory.write m a b) (a + 1) t

/-- Write bytes given by (offset, byte) pairs above a base. -/
def Memory.writePairs (m : Memory) (a : Nat) : KMap Byte → Memory
  | [] => m
  | (o, b) :: t => Memory.writePairs (Memory.write m (a + o) b) a t

/-! ### Frames and sectors (R231) -/

/-- The sector that holds a physical byte: 86 sectors to a 4 KB frame. -/
def sectorOf (pa : Nat) : Nat := pa / 4096 * 86 + pa % 4096 / 48

/-- The physical address of a sector's first byte. -/
def sectorBase (n : Nat) : Nat := n / 86 * 4096 + n % 86 * 48

/-- The bytes of a sector: 48, or 16 for sector 85. -/
def sectorSize (n : Nat) : Nat := if n % 86 = 85 then 16 else 48

/-- The line (frame number · 22 + line index) that holds a physical byte. -/
def lineOf (pa : Nat) : Nat := pa / 4096 * 22 + pa % 4096 / 192

/-- The line that holds a sector. -/
def lineOfSector (n : Nat) : Nat := lineOf (sectorBase n)

/-! ### Lists -/

/-- The list with element i replaced. -/
def listSet {α : Type} : List α → Nat → α → List α
  | [], _, _ => []
  | _ :: t, 0, x => x :: t
  | h :: t, n + 1, x => h :: listSet t n x

/-- Word i of a list of words, 0 beyond its end. -/
def wordAt (l : List W64) (i : Nat) : W64 := l.getD i 0

/-- x with bits [hi:lo] replaced by v. -/
def setBits {w : Nat} (x : BitVec w) (hi lo v : Nat) : BitVec w :=
  let m := 2 ^ (hi + 1 - lo)
  BitVec.ofNat w (x.toNat - bits x hi lo * 2 ^ lo + (v % m) * 2 ^ lo)

/-- The set bits of a mask in ascending order. -/
def setBitsOf {w : Nat} (m : BitVec w) : List Nat := (List.range w).filter fun i => bit m i

/-- The lowest set bit. -/
def lowestBit {w : Nat} (m : BitVec w) : Option Nat := (setBitsOf m).head?

/-- The number whose bits below n are given by a predicate on positions. -/
def maskNat (f : Nat → Bool) : Nat → Nat
  | 0 => 0
  | n + 1 => maskNat f n + (if f n then 2 ^ n else 0)

/-- The bit vector whose bit i is f i. -/
def maskOf (w : Nat) (f : Nat → Bool) : BitVec w := BitVec.ofNat w (maskNat f w)

end Sys2Proof.Machine
end

