-- ==== Sys2Proof/Config.lean ====
section
/-! DEFINITION. What an implementation fixes, and the free values: constants without a body, of which
nothing can be proved but what the rule that uses them says. -/

namespace Sys2Proof.Config

/-- Which of the two permitted versions a reader that comes too early finds (R49, R96, R155, R371, R405), by
step serial number, register slot and lane; true is the newer. -/
opaque newerVersion : Nat → Nat → Nat → Bool

/-- Which permitted result within e_f ulps a special function returns (R174), by opcode, format width and
operand bits: a choice number, reduced by the use. -/
opaque sfuChoice : Nat → Nat → Nat → Nat → Nat

/-- Whether an `MMA` that may find the A latch held finds it (R377), by step serial number. -/
opaque latchHeld : Nat → Bool

/-- How many k-steps of an `MMA` in progress have been performed when it is stopped (R393, R395), by step serial: a number reduced by the
use. -/
opaque kSteps : Nat → Nat

/-- Whether an access to a mixed 64 KB group translates through the group's first entry (R265), by step serial. -/
opaque firstEntry : Nat → Bool

/-- What a read of an IO page returns: the spec gives no device behind it (R229), by step serial and lane. -/
opaque ioRead : Nat → Nat → BitVec 64

/-- The peer device that a page frame outside every pool window belongs to, 0 for none (R229, R337). -/
opaque peerOfFrame : Nat → Nat

/-- The hub's adaptive choice of a link for a peer write (R337), by step serial and core: a choice number, reduced by the use. -/
opaque pathChoice : Nat → Nat → Nat

/-- The home slice of a line (R11, R232), by physical frame and line index. -/
opaque homeSlice : Nat → Nat → Fin 64

/-- Whether a device has acknowledged the writes to its IO pages by the time a release asks (R340), by step serial. -/
opaque ioDone : Nat → Bool

/-- Whether the context cache has dropped a line of a group by the time it takes a seat (R402), by step serial and register. -/
opaque lineDropped : Nat → Nat → Bool

/-- Events that the counters 16–18 and 24–25 count (R447), of the hub cache, the HBM and the links' flits, by step serial and counter: table
walks and the registrar reach the hub as well, and the model holds no flits. -/
opaque hubCount : Nat → Nat → BitVec 48

/-- What a poisoned granule's bytes read as where the reader is not killed (R441), by address. -/
opaque poisonByte : Nat → BitVec 8

/-- Whether an accepted write that the drain had not written survives behind a port whose drain failed (R346). -/
opaque drainSurvives : Nat → Bool

/-- Which pool ports fail to drain or flush at a power loss (R346), by step serial. -/
opaque portFails : Nat → BitVec 3

/-- The digest under which the registrar looks a signed object up (R460): SHA-384 of the signed bytes. -/
opaque sha384 : List (BitVec 8) → BitVec 384

/-- Whether both signatures and the key checks of R460 hold for a signature block over signed bytes. -/
opaque signatureVerifies : List (BitVec 8) → List (BitVec 8) → Bool

/-- The temperatures that the management port reports (R455), by step serial and place. -/
opaque temperature : Nat → Nat → BitVec 64

/-- The power of each rail that the management port reports (R455), by step serial. -/
opaque railPower : Nat → List (BitVec 64)

/-- The signed measurements of the boot ROM, the firmware stages and the firmware's own fuse counters (R455), by step serial. -/
opaque measurements : Nat → List (BitVec 64)

/-- The HBM stack, 0–7, that a frame outside every pool window lies in, and 8 for a frame of host memory (R13, R229): the spec gives no
layout of physical addresses. -/
opaque stackOf : Nat → Nat

/-- Gigabytes of memory attached to a pool port (R454). -/
opaque poolCapacity : Nat → Nat

/-- Whether the hub cache had written a dirty sector of a pool back by a loss of power (R344), by step serial and sector. -/
opaque hubEvicted : Nat → Nat → Bool

/-- Whether a pool port's device keeps its content without power (R344). -/
opaque poolPersistent : Nat → Bool

/-- The byte a volatile pool device holds after a loss of power (R344), by address. -/
opaque volatileByte : Nat → BitVec 8

/-- What another agent has written, since this device last had the line, to a byte of a peer's memory or of a pool line that a port had given
up (R323, R337), by a number that is new at each such read, and address; none where it has written nothing. -/
opaque outsideByte : Nat → Nat → Option (BitVec 8)

end Sys2Proof.Config
end

