-- ==== Sys2Proof/Machine/Num.lean ====
section
/-! DEFINITION. Number formats, rounding, conversion and the B16 bound format, over exact rationals
(R9, R118–R134, R161, R162, R186, R187). -/

namespace Sys2Proof.Machine

/-! ### Exact arithmetic -/

/-- 2^e as an exact real. -/
def pow2 (e : Int) : Rat :=
  if e < 0 then mkRat 1 (2 ^ (-e).toNat) else ((2 ^ e.toNat : Nat) : Rat)

/-- |q|. -/
def ratAbs (q : Rat) : Rat := if q < 0 then -q else q

/-- floor(log₂ q) for q > 0. -/
def floorLog2 (q : Rat) : Int :=
  let e : Int := (Nat.log2 q.num.natAbs : Int) - (Nat.log2 q.den : Int)
  if pow2 e ≤ q then e else e - 1

/-- ceil(log₂ q) for q > 0. -/
def ceilLog2 (q : Rat) : Int :=
  let e := floorLog2 q
  if pow2 e = q then e else e + 1

/-! ### Formats -/

/-- The floating-point formats (R118). -/
inductive Fmt where
  | f64 | f32 | f16 | bf16 | e4m3 | e5m2 | e3m2 | e2m3 | e2m1 | e8m0
  deriving DecidableEq, Repr

/-- Width in bits. -/
def Fmt.width : Fmt → Nat
  | .f64 => 64 | .f32 => 32 | .f16 | .bf16 => 16 | .e4m3 | .e5m2 | .e8m0 => 8 | .e3m2 | .e2m3 => 6 | .e2m1 => 4

/-- Fraction bits m. -/
def Fmt.frac : Fmt → Nat
  | .f64 => 52 | .f32 => 23 | .f16 => 10 | .bf16 => 7 | .e4m3 => 3 | .e5m2 => 2 | .e3m2 => 2 | .e2m3 => 3 | .e2m1 => 1 | .e8m0 => 0

/-- Exponent bias. -/
def Fmt.bias : Fmt → Int
  | .f64 => 1023 | .f32 => 127 | .f16 => 15 | .bf16 => 127 | .e4m3 => 7 | .e5m2 => 15 | .e3m2 => 3 | .e2m3 => 1 | .e2m1 => 1 | .e8m0 => 127

/-- Exponent field width. -/
def Fmt.expBits (f : Fmt) : Nat := match f with
  | .e8m0 => 8
  | _ => f.width - 1 - f.frac

/-- Exponent of the smallest normal. -/
def Fmt.emin (f : Fmt) : Int := match f with
  | .e8m0 => -127
  | _ => 1 - f.bias

/-- Exponent of the largest finite value. -/
def Fmt.emax : Fmt → Int
  | .f64 => 1023 | .f32 => 127 | .f16 => 15 | .bf16 => 127 | .e4m3 => 8 | .e5m2 => 15 | .e3m2 => 4 | .e2m3 => 2 | .e2m1 => 2 | .e8m0 => 127

/-- The largest finite value. -/
def Fmt.largest : Fmt → Rat
  | .e4m3 => 448
  | .e8m0 => pow2 127
  | f => (2 - pow2 (-(f.frac : Int))) * pow2 f.emax

/-- The format has infinities. -/
def Fmt.hasInf : Fmt → Bool
  | .f64 | .f32 | .f16 | .bf16 | .e5m2 => true
  | .e4m3 | .e3m2 | .e2m3 | .e2m1 | .e8m0 => false

/-- MODE ftz acts on this format (R121). -/
def Fmt.flushes : Fmt → Bool
  | .f64 | .f32 | .f16 | .bf16 => true
  | .e4m3 | .e5m2 | .e3m2 | .e2m3 | .e2m1 | .e8m0 => false

/-- The spacing exponent of `f` at magnitude q (R9 ulp): ulp(q, f) = 2^(ulpExp f q). -/
def ulpExp (f : Fmt) (q : Rat) : Int :=
  let e := if q = 0 then f.emin else max f.emin (min f.emax (floorLog2 q))
  e - f.frac

/-- ulp(y, fmt) of R9. -/
def ulp (f : Fmt) (y : Rat) : Rat := pow2 (ulpExp f (ratAbs y))

/-- A value of a format: a NaN (signalling or quiet), a signed infinity, or a signed finite magnitude. -/
inductive Val where
  | nan (signalling neg : Bool)
  | inf (neg : Bool)
  | fin (neg : Bool) (mag : Rat)
  deriving DecidableEq, Repr

/-- The sign bit of a value. -/
def Val.neg : Val → Bool
  | .nan _ n => n | .inf n => n | .fin n _ => n

/-- The value with its sign flipped. -/
def Val.negate : Val → Val
  | .nan s n => .nan s (!n) | .inf n => .inf (!n) | .fin n m => .fin (!n) m

/-- The value with sign 0. -/
def Val.abs : Val → Val
  | .nan s _ => .nan s false | .inf _ => .inf false | .fin _ m => .fin false m

def Val.isNan : Val → Bool
  | .nan _ _ => true | .inf _ => false | .fin _ _ => false
def Val.isSnan : Val → Bool
  | .nan s _ => s | .inf _ => false | .fin _ _ => false
def Val.isFinite : Val → Bool
  | .fin _ _ => true | .nan _ _ => false | .inf _ => false
def Val.isZero : Val → Bool
  | .fin _ m => decide (m = 0) | .nan _ _ => false | .inf _ => false

/-- The exact real of a finite value; 0 for the others. -/
def Val.real : Val → Rat
  | .fin n m => if n then -m else m
  | .nan _ _ | .inf _ => 0

/-- A finite value from an exact real; an exact zero takes sign `zneg`. -/
def Val.ofReal (q : Rat) (zneg : Bool) : Val :=
  if q = 0 then .fin zneg 0 else .fin (decide (q < 0)) (ratAbs q)

/-- The value that bits read as in a format (R118, R162). -/
def Fmt.decode (f : Fmt) (x : Nat) : Val :=
  match f with
  | .e8m0 => if x % 256 = 255 then .nan false false else .fin false (pow2 ((x % 256 : Nat) - 127))
  | _ =>
    let m := f.frac
    let e := (x / 2 ^ m) % 2 ^ f.expBits
    let frac := x % 2 ^ m
    let neg := (x / 2 ^ (f.width - 1)) % 2 = 1
    let top := 2 ^ f.expBits - 1
    if f.hasInf && e = top then
      if frac = 0 then .inf neg
      else .nan (f.flushes && frac < 2 ^ (m - 1)) neg
    else if f = .e4m3 ∧ e = top ∧ frac = 7 then .nan false neg
    else if e = 0 then .fin neg ((frac : Rat) * pow2 (f.emin - m))
    else .fin neg (((2 ^ m + frac : Nat) : Rat) * pow2 ((e : Int) - f.bias - m))

/-- The canonical NaN (R120); 0 in formats without NaN. -/
def Fmt.canonicalNan : Fmt → Nat
  | .f64 => 0x7FF8000000000000 | .f32 => 0x7FC00000 | .f16 => 0x7E00 | .bf16 => 0x7FC0
  | .e4m3 => 0x7F | .e5m2 => 0x7E | .e8m0 => 0xFF | .e3m2 | .e2m3 | .e2m1 => 0

/-- The sign bit in place. -/
def Fmt.signBit (f : Fmt) (neg : Bool) : Nat := if neg then 2 ^ (f.width - 1) else 0

/-- The bits of a finite magnitude that the format represents. -/
def Fmt.encodeMag (f : Fmt) (q : Rat) : Nat :=
  if q = 0 then 0
  else
    let e := floorLog2 q
    if e < f.emin then (q / pow2 (f.emin - f.frac)).floor.toNat
    else (e + f.bias).toNat * 2 ^ f.frac + (q / pow2 (e - f.frac)).floor.toNat - 2 ^ f.frac

/-- The bits of a value the format holds, NaNs canonical (R120). -/
def Fmt.encode (f : Fmt) : Val → Nat
  | .nan _ _ => f.canonicalNan
  | .inf n => f.signBit n + (2 ^ f.expBits - 1) * 2 ^ f.frac
  | .fin n q => match f with
    | .e8m0 => (floorLog2 q + 127).toNat
    | _ => f.signBit n + f.encodeMag q

/-! ### Sticky flags (R145) -/

def flInvalid : BitVec 9 := 1
def flDivZero : BitVec 9 := 2
def flOverflow : BitVec 9 := 4
def flUnderflow : BitVec 9 := 8
def flInexact : BitVec 9 := 16
def flSaturate : BitVec 9 := 32
def flBreach : BitVec 9 := 64
def flShort : BitVec 9 := 128
def flLong : BitVec 9 := 256

/-- `fl` when `c` holds. -/
def flagIf (c : Bool) (fl : BitVec 9) : BitVec 9 := if c then fl else 0

/-! ### Rounding (R161) -/

/-- An integral rounding of x ≥ 0 under rounding code `rnd` for a value of sign `neg` (R161). -/
def roundNat (rnd : Nat) (neg : Bool) (x : Rat) : Nat :=
  let f := x.floor.toNat
  let r := x - f
  if r = 0 then f
  else match rnd with
    | 0 => if r < mkRat 1 2 then f else if mkRat 1 2 < r then f + 1 else if f % 2 = 0 then f else f + 1
    | 1 => f
    | 2 => if neg then f else f + 1
    | 3 => if neg then f + 1 else f
    | 4 => if r < mkRat 1 2 then f else f + 1
    | _ => if f % 2 = 0 then f + 1 else f

/-- q ≥ 0 rounded to a multiple of 2^k. -/
def roundAt (rnd : Nat) (neg : Bool) (q : Rat) (k : Int) : Rat := (roundNat rnd neg (q / pow2 k) : Rat) * pow2 k

/-- What rounding to a format gives: the value written, its flags, the rounding term of R133 and the flush term
of R121. -/
structure Rounded where
  val : Val
  flags : BitVec 9
  rnd : Rat
  flush : Rat
  deriving DecidableEq, Repr

/-- How an overflowing finite result is written (R119). -/
def overflowVal (f : Fmt) (rnd : Nat) (sat neg : Bool) : Val × BitVec 9 :=
  if sat then (.fin neg f.largest, flSaturate ||| flInexact)
  else match f with
    | .e3m2 | .e2m3 | .e2m1 | .e8m0 => (.fin neg f.largest, flSaturate ||| flInexact)
    | .e4m3 => (.nan false neg, flOverflow ||| flInexact)
    | .f64 | .f32 | .f16 | .bf16 | .e5m2 =>
      let toInf := match rnd with
        | 0 | 4 => true
        | 2 => !neg
        | 3 => neg
        | _ => false
      (if toInf then .inf neg else .fin neg f.largest, flOverflow ||| flInexact)

/-- The exact real (−1)^neg · q rounded to a format under MODE rnd, sat and ftz (R119, R121, R133, R161, R179). -/
def roundFmt (f : Fmt) (rnd : Nat) (sat ftz neg : Bool) (q : Rat) : Rounded :=
  if q = 0 then { val := .fin neg 0, flags := 0, rnd := 0, flush := 0 }
  else
    let e := floorLog2 q
    let r := roundAt rnd neg q (max e f.emin - f.frac)
    let half := if rnd = 0 ∨ rnd = 4 then ulp f q / 2 else ulp f q
    if f.largest < r then
      let (v, fl) := overflowVal f rnd sat neg
      { val := v, flags := fl, flush := 0
        rnd := if sat then ratAbs (q - f.largest) else half }
    else
      let inexact := decide (r ≠ q)
      let tiny := decide (roundAt rnd neg q (e - f.frac) < pow2 f.emin)
      let rt := if inexact then half else 0
      let fl := flagIf inexact flInexact ||| flagIf (inexact && tiny) flUnderflow
      if ftz && f.flushes && decide (r ≠ 0 ∧ r < pow2 f.emin) then
        { val := .fin neg 0, flags := fl ||| flUnderflow ||| flInexact, rnd := rt, flush := r }
      else { val := .fin neg r, flags := fl, rnd := rt, flush := 0 }

/-- A NaN or an infinity written to a format (R119 sat, R120). -/
def writeSpecial (f : Fmt) (sat : Bool) : Val → Val × BitVec 9
  | .nan s n => match f with
    | .e3m2 | .e2m3 | .e2m1 => (.fin false 0, flInvalid)
    | _ => (.nan s n, 0)
  | .inf n =>
    if sat then (.fin n f.largest, flSaturate)
    else match f with
      | .e4m3 => (.nan false n, 0)
      | .e3m2 | .e2m3 | .e2m1 | .e8m0 => (.fin n f.largest, flSaturate)
      | .f64 | .f32 | .f16 | .bf16 | .e5m2 => (.inf n, 0)
  | .fin n q => (.fin n q, 0)

/-- The bits of a result: NaNs are canonical, except that an overflow or an infinity into E4M3 keeps its sign (R119, R120). -/
def Fmt.bitsOf (f : Fmt) (v : Val) (signedNan : Bool) : Nat :=
  match f, v with
  | .e4m3, .nan _ n => if signedNan && n then 0xFF else 0x7F
  | _, _ => f.encode v

/-! ### Element types (R38, R123) -/

/-- What the sub-elements of a type are. -/
inductive Kind where
  | flt (f : Fmt)
  | sint
  | uint
  | b16
  deriving DecidableEq, Repr

/-- An element type: its kind, sub-element width and count per lane (R123; 1 per pair at 64 bits). -/
structure Ty where
  kind : Kind
  w : Nat
  n : Nat
  deriving DecidableEq, Repr

/-- The types of R38 by code. -/
def tyOf : Nat → Option Ty
  | 0x00 => some ⟨.flt .f32, 32, 1⟩ | 0x01 => some ⟨.flt .f64, 64, 1⟩ | 0x02 => some ⟨.flt .f16, 16, 2⟩
  | 0x03 => some ⟨.flt .bf16, 16, 2⟩ | 0x04 => some ⟨.flt .e4m3, 8, 4⟩ | 0x05 => some ⟨.flt .e5m2, 8, 4⟩
  | 0x06 => some ⟨.flt .e3m2, 6, 5⟩ | 0x07 => some ⟨.flt .e2m3, 6, 5⟩ | 0x08 => some ⟨.flt .e2m1, 4, 8⟩
  | 0x09 => some ⟨.flt .e8m0, 8, 4⟩ | 0x0A => some ⟨.b16, 16, 2⟩
  | 0x10 => some ⟨.sint, 32, 1⟩ | 0x11 => some ⟨.uint, 32, 1⟩ | 0x12 => some ⟨.sint, 16, 2⟩
  | 0x13 => some ⟨.uint, 16, 2⟩ | 0x14 => some ⟨.sint, 8, 4⟩ | 0x15 => some ⟨.uint, 8, 4⟩
  | 0x16 => some ⟨.sint, 4, 8⟩ | 0x17 => some ⟨.uint, 4, 8⟩ | 0x18 => some ⟨.sint, 64, 1⟩
  | 0x19 => some ⟨.uint, 64, 1⟩
  | _ => none

/-- The type is 64 bits wide, so registers are pairs (R36). -/
def Ty.is64 (t : Ty) : Bool := t.w == 64
/-- An I or N type. -/
def Ty.isInt (t : Ty) : Bool := match t.kind with
  | .sint | .uint => true
  | .flt _ | .b16 => false
/-- A floating-point type, E8M0 included. -/
def Ty.isFloat (t : Ty) : Bool := match t.kind with
  | .flt _ => true
  | .sint | .uint | .b16 => false
/-- A signed integer type. -/
def Ty.signed (t : Ty) : Bool := decide (t.kind = .sint)

/-- Sub-element i of a lane or pair value (R98, R123). -/
def elem (x i w : Nat) : Nat := (x / 2 ^ (i * w)) % 2 ^ w

/-- x with sub-element i replaced (R123). -/
def setElem (x i w v : Nat) : Nat :=
  x - elem x i w * 2 ^ (i * w) + (v % 2 ^ w) * 2 ^ (i * w)

/-- An integer of width w as a signed or unsigned number (R122). -/
def toInt (signed : Bool) (w x : Nat) : Int :=
  let y := x % 2 ^ w
  if signed && decide (2 ^ (w - 1) ≤ y) then (y : Int) - 2 ^ w else y

/-- The low w bits of an integer (R8 pseudocode). -/
def lowBits (w : Nat) (v : Int) : Nat := (v % (2 ^ w : Nat)).toNat

/-- The range of an integer type (R122). -/
def intMin (signed : Bool) (w : Nat) : Int := if signed then -(2 ^ (w - 1) : Nat) else 0
def intMax (signed : Bool) (w : Nat) : Int := if signed then (2 ^ (w - 1) : Nat) - 1 else (2 ^ w : Nat) - 1

/-- v clamped to the range of an integer type. -/
def clampInt (signed : Bool) (w : Nat) (v : Int) : Int := max (intMin signed w) (min (intMax signed w) v)

/-! ### Bounds (R124, R125) -/

def b16Exact : B16 := 0x0000
def b16Unbounded : B16 := 0xFF00
def b16Untracked : B16 := 0xFFFF

/-- The meaning of a B16 (R124): a finite bound, unbounded, or untracked. -/
inductive Bnd where
  | fin (q : Rat)
  | unb
  | untr
  deriving DecidableEq, Repr

/-- An untracked encoding (R124). -/
def isUntracked (b : B16) : Bool := decide (0xFF00 < b.toNat)

/-- The meaning of a B16 (R124). -/
def Bnd.of (b : B16) : Bnd :=
  let e := b.toNat / 256
  let f := b.toNat % 256
  if isUntracked b then .untr
  else if e = 255 then .unb
  else if e = 0 then .fin ((f : Rat) * pow2 (-134))
  else .fin (((256 + f : Nat) : Rat) * pow2 ((e : Int) - 135))

/-- round_up_b16 (R9) of a real ≥ 0. -/
def roundUpB16 (q : Rat) : B16 :=
  if q ≤ 0 then 0
  else
    let e := floorLog2 q
    let code : Nat :=
      if e < -126 then (q * pow2 134).ceil.toNat
      else (e + 127).toNat * 256 + (q * pow2 (8 - e)).ceil.toNat - 256
    if 0xFF00 ≤ code then b16Unbounded else BitVec.ofNat 16 code

/-- round_up_b16 lifted to the states of a bound. -/
def Bnd.toB16 : Bnd → B16
  | .fin q => roundUpB16 q
  | .unb => b16Unbounded
  | .untr => b16Untracked

/-- The exact sum of two bound terms; untracked first, then unbounded (R9). -/
def Bnd.add : Bnd → Bnd → Bnd
  | .untr, _ => .untr
  | _, .untr => .untr
  | .unb, _ => .unb
  | _, .unb => .unb
  | .fin a, .fin b => .fin (a + b)

/-- q times a bound, for q ≥ 0. -/
def Bnd.scale (q : Rat) : Bnd → Bnd
  | .fin a => .fin (q * a)
  | .unb => .unb
  | .untr => .untr

/-- The product term βa·βb. -/
def Bnd.mul : Bnd → Bnd → Bnd
  | .untr, _ => .untr
  | _, .untr => .untr
  | .unb, _ => .unb
  | _, .unb => .unb
  | .fin a, .fin b => .fin (a * b)

/-- The larger of two bounds before rounding (R125). -/
def Bnd.max : Bnd → Bnd → Bnd
  | .untr, _ => .untr
  | _, .untr => .untr
  | .unb, _ => .unb
  | _, .unb => .unb
  | .fin a, .fin b => .fin (if a ≤ b then b else a)

/-- The maximum in the order of R125; untracked with anything is untracked. -/
def maxB16 (a b : B16) : B16 :=
  if isUntracked a || isUntracked b then b16Untracked else if a.toNat ≤ b.toNat then b else a

/-- A result bound exceeds the budget (R137). -/
def exceeds (β budget : B16) : Bool := !isUntracked β && !isUntracked budget && decide (budget.toNat < β.toNat)

/-- int_bound (R100). -/
def intBound (score : Bool) (srcs : List B16) : B16 :=
  if score || srcs.any isUntracked then b16Untracked
  else if srcs.all (· == b16Exact) then b16Exact else b16Unbounded

/-- A bound written under a kernel configuration: untracked under SCORE (R147). -/
def scoreB (score : Bool) (b : B16) : B16 := if score then b16Untracked else b

/-- Mul row of R132: |a|·βb + |b|·βa + βa·βb. -/
def mulTerms (a : Rat) (βa : Bnd) (b : Rat) (βb : Bnd) : Bnd :=
  ((Bnd.scale a βb).add (Bnd.scale b βa)).add (βa.mul βb)

/-! ### Reading operands with ftz (R121) -/

/-- An operand after MODE ftz: a subnormal reads as zero of its sign, and its magnitude is the flush term. -/
def flushIn (f : Fmt) (ftz : Bool) : Val → Val × Rat
  | .fin n q => if ftz && f.flushes && decide (q ≠ 0 ∧ q < pow2 f.emin) then (.fin n 0, q) else (.fin n q, 0)
  | v => (v, 0)

/-! ### Conversion (R186, R187) -/

/-- The value x converted into E8M0 (R187). -/
def convE8M0 (rnd : Nat) : Val → Val × BitVec 9
  | .nan _ _ => (.nan false false, 0)
  | .inf true => (.nan false false, flInvalid)
  | .inf false => (.fin false (pow2 127), flSaturate)
  | .fin n q =>
    if q = 0 then (.fin false (pow2 (-127)), flUnderflow ||| flInexact)
    else if n then (.nan false false, flInvalid)
    else
      let lo := floorLog2 q
      let hi := ceilLog2 q
      let k :=
        if lo = hi then lo
        else match rnd with
          | 2 => hi
          | 1 | 3 => lo
          | _ =>
            let mid := pow2 lo * mkRat 3 2
            if q < mid then lo else if mid < q then hi
            else if rnd = 4 then hi
            else if rnd = 0 then (if (lo + 127) % 2 = 0 then lo else hi)
            else (if (lo + 127) % 2 = 0 then hi else lo)
      if 127 < k then (.fin false (pow2 127), flSaturate ||| flInexact)
      else if k < -127 then (.fin false (pow2 (-127)), flUnderflow ||| flInexact)
      else (.fin false (pow2 k), flagIf (decide (lo ≠ hi)) flInexact)

/-- What a conversion wrote: bits, flags, the written value (`none` when not finite), and its real. -/
structure Conv where
  bits : Nat
  flags : BitVec 9
  val : Option Rat
  deriving DecidableEq, Repr

/-- A float value converted into a float format (R186, R187). -/
def convFloat (dst : Fmt) (rnd : Nat) (sat ftz : Bool) (v : Val) : Conv :=
  match dst with
  | .e8m0 =>
    let (r, fl) := convE8M0 rnd v
    { bits := Fmt.e8m0.encode r, flags := fl, val := if r.isFinite then some r.real else none }
  | _ =>
    match v with
    | .fin n q =>
      let r := roundFmt dst rnd sat ftz n q
      { bits := dst.bitsOf r.val true, flags := r.flags, val := if r.val.isFinite then some r.val.real else none }
    | .nan _ _ =>
      let (r, fl) := writeSpecial dst sat v
      { bits := dst.bitsOf r false, flags := fl, val := if r.isFinite then some r.real else none }
    | .inf _ =>
      let (r, fl) := writeSpecial dst sat v
      { bits := dst.bitsOf r true, flags := fl, val := if r.isFinite then some r.real else none }

/-- A float value converted into an integer type (R186). -/
def convToInt (signed : Bool) (w rnd : Nat) (v : Val) : Conv :=
  let out (n : Int) (fl : BitVec 9) : Conv := { bits := lowBits w n, flags := fl, val := some n }
  match v with
  | .nan _ _ => out 0 flInvalid
  | .inf n => out (if n then intMin signed w else intMax signed w) flInvalid
  | .fin n q =>
    let r : Int := if n then -(roundNat rnd n q : Int) else roundNat rnd n q
    if r < intMin signed w then out (intMin signed w) flInvalid
    else if intMax signed w < r then out (intMax signed w) flInvalid
    else out r (flagIf (decide ((r : Rat) ≠ v.real)) flInexact)

/-- conv(x) from source kind bits to a destination kind (R186), with the source as read (after input flush),
the flush term of the input, and whether the source was a signalling NaN. -/
structure ConvIn where
  val : Val
  int : Option Int
  flush : Rat
  snan : Bool
  deriving DecidableEq, Repr

/-- A sub-element read in a type of kind k and width w, after ftz (R121, R186). -/
def readElem (k : Kind) (w : Nat) (ftz : Bool) (x : Nat) : ConvIn :=
  match k with
  | .flt f =>
    let v := f.decode x
    let (u, fl) := flushIn f ftz v
    { val := u, int := none, flush := fl, snan := v.isSnan }
  | .sint => { val := Val.ofReal (toInt true w x) false, int := some (toInt true w x), flush := 0, snan := false }
  | .uint | .b16 => { val := Val.ofReal (toInt false w x) false, int := some (toInt false w x), flush := 0, snan := false }

/-- A read value written in a type of kind k and width w (R186). -/
def writeElem (k : Kind) (w rnd : Nat) (sat ftz : Bool) (c : ConvIn) : Conv :=
  let r : Conv := match k with
    | .flt f => convFloat f rnd sat ftz c.val
    | .sint | .uint =>
      let signed := decide (k = .sint)
      match c.int with
      | some n => let m := if sat then clampInt signed w n else n
                  { bits := lowBits w m, flags := 0, val := some (toInt signed w (lowBits w m)) }
      | none => convToInt signed w rnd c.val
    | .b16 => { bits := lowBits w (c.int.getD 0), flags := 0, val := some (c.int.getD 0) }
  if c.snan then { r with flags := r.flags ||| flInvalid } else r

/-- The conversion row of R132 and R189: βin, plus the flush term, plus |x − q(x)|. -/
def convBound (βin : Bnd) (c : ConvIn) (r : Conv) : Bnd :=
  match r.val, c.val with
  | some q, .fin _ _ => (βin.add (.fin c.flush)).add (.fin (ratAbs (c.val.real - q)))
  | _, _ => βin.add .unb

end Sys2Proof.Machine
end

