-- ==== Sys2Proof/Machine/Mem.lean ====
section
/-! DEFINITION. Sector sidebands (R127–R129), memory at its points of coherence, the L1 data caches
(R232, R324, R325), and the persist buffer's input (R341). -/

namespace Sys2Proof.Machine

/-! ### Sidebands (R127–R129) -/

/-- The sideband of a newly allocated sector: every word exact (R127). -/
def sideExact : W64 := 0x0000FFFFFFFFFFFF

/-- Word k's bound under a sideband (R127). -/
def sideWord (sb : W64) (k : Nat) : B16 :=
  let m : B16 := BitVec.ofNat 16 (bits sb 63 48)
  let d := bits sb (4 * k + 3) (4 * k)
  if isUntracked m then b16Untracked
  else if d = 15 then b16Exact
  else ((Bnd.of m).scale (pow2 (-(d : Int)))).toB16

/-- The largest code d below n + 1 whose read-back covers β (R128). -/
def sideCode (m : Bnd) (β : B16) : Nat → Nat
  | 0 => 0
  | d + 1 =>
    if β.toNat ≤ ((m.scale (pow2 (-((d + 1 : Nat) : Int)))).toB16).toNat then d + 1 else sideCode m β d

/-- The sideband compressed from the word bounds of a sector (R128); words beyond the list are coded 15. -/
def sideCompress (bs : List B16) : W64 :=
  if bs.any isUntracked then BitVec.ofNat 64 (0xFFFF * 2 ^ 48)
  else
    let m := bs.foldl maxB16 b16Exact
    let code (k : Nat) : Nat :=
      match bs[k]? with
      | some β => if β = b16Exact then 15 else sideCode (Bnd.of m) β 14
      | none => 15
    BitVec.ofNat 64 (m.toNat * 2 ^ 48 + (List.range 12).foldl (fun a k => a + code k * 2 ^ (4 * k)) 0)

/-- The bounds of a sector's words as they read back. -/
def sideBounds (n : Nat) (sb : W64) : List B16 := (List.range n).map (sideWord sb)

/-- A merge that writes some words' bounds (R129); n is the sector's word count. -/
def sideMerge (n : Nat) (sb : W64) (new : KMap B16) : W64 :=
  if new.isEmpty then sb
  else sideCompress ((List.range n).map fun k => (KMap.get? new k).getD (sideWord sb k))

/-! ### Memory at its points of coherence (R323) -/

/-- The page's sidebands act (R230): BC is ignored on CTX and IO pages. -/
def Attr.bound (a : Attr) : Bool := a.bc && decide (a.type ≠ 1) && decide (a.type ≠ 4)

/-- The peer device that owns a byte, 0 for none; only SHR pages reach peers (R229, R337). -/
def peerOf (shr : Bool) (pa : Nat) : Nat := if shr then Config.peerOfFrame (pa / 4096) else 0

/-- A sector's sideband at its point of coherence. -/
def homeSide (s : State) (sec : Nat) : W64 := (KMap.get? s.side sec).getD sideExact

/-- The number of whole words of a sector. -/
def sectorWords (sec : Nat) : Nat := sectorSize sec / 4

/-- Set a sideband, keeping the map's canonical form. -/
def setSide (m : KMap W64) (sec : Nat) (sb : W64) : KMap W64 :=
  if sb = sideExact then KMap.erase m sec else KMap.set m sec sb

/-- Every byte of a sector is among some offsets. -/
def coversSector (sec : Nat) (bytes : KMap Byte) : Bool :=
  (List.range (sectorSize sec)).all fun o => (KMap.get? bytes o).isSome

/-! ### Capacities (R10, R14, R15, R30) -/

/-- Cores of the device, and bytes of one HBM stack and of all. -/
def deviceCores : Nat := 192
def stackBytes : Nat := 2 ^ 36
def hbmBytes : Nat := 8 * stackBytes

/-- The hub cache: its home slices, its bytes, and what the persist buffer and each of n partitions' shadow storage take of them. -/
def hubSlices : Nat := 64
def hubBytes : Nat := hubSlices * 2 ^ 23
def persistBytes : Nat := 2 ^ 25
def shadowBytes (n : Nat) : Nat := if n = 8 then 2 ^ 25 else 2 ^ 26
/-- What is left for caching, and its lines in one slice. -/
def cachingBytes (n : Nat) : Nat := hubBytes - persistBytes - n * shadowBytes n
def sliceLines (n : Nat) : Nat := cachingBytes n / (hubSlices * 192)

/-- Lines of a core's L1 data cache; the ways and sets of its context cache, of 6,144 lines (R15, R402); and gigabytes of durable memory in
all. -/
def l1Lines : Nat := 2 ^ 18 / 192
def contextWays : Nat := 12
def contextSets : Nat := 512
def poolGigabytes : Nat := 4096

/-- The partitions that the device runs as, and that of a core (R13). -/
def partCountOf (s : State) : Nat := max 1 s.dev.partCount
def partOfCore (s : State) (core : Nat) : Nat := core * partCountOf s / deviceCores

/-! ### Pools and peers behind the hub (R323, R337, R454) -/

/-- The pool window that maps a physical address: its port and its partition (R454). -/
def poolWindow (s : State) (pa : Nat) : Option (Nat × Nat) :=
  (s.dev.poolWin.toList.find? fun (w0, w1) =>
    bit w1 6 && decide (bits w0 51 30 ≤ pa / 2 ^ 30) && decide (pa / 2 ^ 30 < bits w0 51 30 + bits w0 63 52)).map fun (_, w1) => (bits w1 1 0, bits w1 4 2)

/-- The sectors of a line, and the number of a sector within its line. -/
def sectorsOfLine (line : Nat) : List Nat := ((List.range 4).filter fun i => decide (line % 22 * 4 + i < 86)).map fun i => line / 22 * 86 + line % 22 * 4 + i
def sectorInLine (sec : Nat) : Nat := sec % 86 % 4

/-- The physical address of a line's first byte. -/
def lineBase (line : Nat) : Nat := line / 22 * 4096 + line % 22 * 192

/-- Replace the bytes of one sector by those of another memory. -/
def sectorFrom (src m : Memory) (sec : Nat) : Memory := Memory.writeBytes m (sectorBase sec) (Memory.bytes src (sectorBase sec) (sectorSize sec))

/-- The hub cache writes sectors back to their pools. -/
def poolSync (s : State) (secs : List Nat) : State :=
  { s with
    pool := secs.foldl (sectorFrom s.mem) s.pool
    poolSide := secs.foldl (fun m sec => setSide m sec ((KMap.get? s.side sec).getD sideExact)) s.poolSide }

/-- A sector has a write on its way to or in the persist buffer. -/
def durPending (s : State) (sec : Nat) : Bool := (s.durWait ++ s.pbuf).any fun w => decide (w.sector = sec)

/-- Sectors go to backing memory: those of the pools that no accepted write is to follow (R232, R344). HBM and host memory hold what the
hub cache holds of them in every outcome that a program or host observes. -/
def toBacking (s : State) (secs : List Nat) : State := poolSync s (secs.filter fun x => (poolWindow s (sectorBase x)).isSome && !durPending s x)

/-- The bytes of a sector with what another agent has written to them. -/
def outsideSector (s : State) (m : Memory) (sec : Nat) : Memory :=
  (List.range (sectorSize sec)).foldl (fun m o => match Config.outsideByte s.nextId (sectorBase sec + o) with
    | some b => Memory.write m (sectorBase sec + o) b
    | none => m) m

/-- A pool port takes exclusive ownership of a line (R287, R337); a line that another agent had taken comes with what it wrote there. -/
def poolOwn (s : State) (port line : Nat) : State :=
  if s.dev.poolOwned.contains (port, line) then s
  else
    let s := if s.dev.poolForeign.contains line then
        let mem := (sectorsOfLine line).foldl (outsideSector s) s.mem
        { s with mem := mem, pool := (sectorsOfLine line).foldl (sectorFrom mem) s.pool, nextId := s.nextId + 1 }
      else s
    { s with dev := { s.dev with poolOwned := (port, line) :: s.dev.poolOwned, poolForeign := s.dev.poolForeign.filter fun x => decide (x ≠ line) } }

/-! ### The hub cache (R10, R14, R232, R233, R251) -/

/-- The home slice of a line (R11). -/
def homeSlice (line : Nat) : Fin 64 := Config.homeSlice (line / 22) (line % 22)

/-- The hub writes a line's dirty sectors to backing memory, and keeps it clean. -/
def hubClean (s : State) (line : Nat) : State :=
  match KMap.get? s.hub line with
  | none => s
  | some l =>
    let s := toBacking s ((sectorsOfLine line).filter fun x => bit l.dirty (sectorInLine x))
    { s with hub := KMap.set s.hub line { l with dirty := 0 } }

/-- The line that a full slice gives up: of the lowest retention, the one least recently used. -/
def hubVictim (l : KMap HubLine) : Option Nat :=
  (l.foldl (fun (acc : Option (Nat × HubLine)) x => match acc with
    | none => some x
    | some y => if x.2.keep < y.2.keep ∨ (x.2.keep = y.2.keep ∧ x.2.used < y.2.used) then some x else some y) none).map (·.1)

/-- Room for a line in its slice. -/
def hubRoom (s : State) (line : Nat) : State :=
  let n := sliceLines (partCountOf s)
  if s.hub.length < n then s
  else
    let mine := s.hub.filter fun (k, _) => decide (homeSlice k = homeSlice line)
    if mine.length < n then s
    else match hubVictim mine with
    | some v => let s := hubClean s v; { s with hub := KMap.erase s.hub v }
    | none => s

/-- An access to a sector at its home slice, under a partition's tag and hub policy code h: it hits, or the line is allocated, or with code 2 misses
without a line (R233). A write leaves the sector dirty, but for a write to a DUR page (R341). -/
def hubUse (s : State) (part sec h : Nat) (dirty : Bool) : State :=
  let line := lineOfSector sec
  let m : BitVec 4 := BitVec.ofNat 4 (2 ^ sectorInLine sec)
  let d : BitVec 4 := if dirty then m else 0
  match KMap.get? s.hub line with
  | some l => { s with hub := KMap.set s.hub line { l with present := l.present ||| m, dirty := l.dirty ||| d, keep := if h = 1 then 0 else 1, used := s.serial } }
  | none =>
    if h = 2 then s
    else
      let s := hubRoom s line
      { s with hub := KMap.set s.hub line { part := part, present := m, dirty := d, keep := if h = 1 then 0 else 1, used := s.serial } }

/-- A core's access reaches a sector's home: its clock (R465), the pool port's ownership of the line (R337), and the hub line. The hub
caches no line of a peer. -/
def passHome (s : State) (core sec cache : Nat) (shr dirty : Bool) : State :=
  let s := if core < deviceCores then { s with cores := KMap.set s.cores core { (KMap.get? s.cores core).getD Core.reset with accessAt := s.clock } } else s
  if peerOf shr (sectorBase sec) ≠ 0 then s
  else
    let s := match poolWindow s (sectorBase sec) with
      | some (port, _) => poolOwn s port (lineOfSector sec)
      | none => s
    hubUse s (partOfCore s core) sec (cache / 4) dirty

/-- A core's read of a sector at its home: a peer's memory comes with what others have written there (R323). -/
def passL1 (s : State) (core sec cache : Nat) (shr : Bool) : State :=
  let s := if peerOf shr (sectorBase sec) ≠ 0 then { s with mem := outsideSector s s.mem sec, nextId := s.nextId + 1 } else s
  passHome s core sec cache shr false

/-! ### Writes at the points of coherence (R323, R337, R341) -/

/-- A Falan port. -/
def State.link (s : State) (p : Fin 16) : Link := s.dev.links[p.val]
def State.setLink (s : State) (p : Fin 16) (l : Link) : State := { s with dev := { s.dev with links := s.dev.links.set p.val l } }

/-- A link in the spray set. -/
def Link.isUp (l : Link) : Bool := decide (l.state = .up)

/-- The spray set of a destination: the ports whose links are up to it. -/
def upTo (s : State) (dest : Nat) : List Nat :=
  ((List.finRange 16).filter fun p => (s.link p).isUp && decide ((s.link p).peer.toNat = dest)).map (·.val)

/-- The link path of a write to a peer (R337): the path last used by this core for the sector while any is unacknowledged, else one of
the spray set, by a free choice; none while that is empty. -/
def peerPath (s : State) (dest core sec : Nat) : Option Nat :=
  match s.dev.peerOut.reverse.find? fun w => decide (w.dest = dest) && decide (w.sector = sec) && decide (w.core = core) with
  | some w => w.path
  | none => let up := upTo s dest
    if up.isEmpty then none else up[Config.pathChoice s.serial core % up.length]?

/-- Bytes of one sector on their way to its point of coherence: word bounds on a BC page, the kind of page, the groups that stored them,
the cache field of the access, and whether an engine command wrote them. -/
structure HomeWrite where
  sector : Nat
  bytes : KMap Byte
  bounds : Option (KMap B16)
  dur : Bool
  shr : Bool
  owners : List Nat
  readers : List Nat
  released : Bool
  cache : Nat
  engine : Bool

/-- A durable write is on its way to the persist buffer (R341): on a BC page the whole sector with its sideband (R345). -/
def durSend (s : State) (core : Nat) (w : HomeWrite) : State :=
  let base := sectorBase w.sector
  let all : KMap Byte := if w.bounds.isSome then (List.range (sectorSize w.sector)).map fun o => (o, Memory.read s.mem (base + o)) else w.bytes
  { s with
    durWait := s.durWait ++ [{ part := partOfCore s core, sector := w.sector, bytes := all, side := w.bounds.map fun _ => homeSide s w.sector, owners := w.owners
                               engine := w.engine, seen := w.readers, released := w.released, seq := s.nextId }]
    nextId := s.nextId + 1 }

/-- Bytes of one sector written at its point of coherence; a DUR write goes on to the persist buffer, a write to a peer waits for its
acknowledgement, and a write of the whole sector clears its poison (R441). -/
def hubWrite (s : State) (core : Nat) (w : HomeWrite) : State :=
  if w.bytes.isEmpty then s
  else
    let base := sectorBase w.sector
    let s := passHome s core w.sector w.cache w.shr (!w.dur)
    let sb := match w.bounds with
      | some b => sideMerge (sectorWords w.sector) (homeSide s w.sector) b
      | none => homeSide s w.sector
    let poison := if coversSector w.sector w.bytes then s.poison.filter (· ≠ w.sector) else s.poison
    let s := { s with mem := Memory.writePairs s.mem base w.bytes, side := setSide s.side w.sector sb, poison := poison }
    if w.dur then durSend s core w
    else if peerOf w.shr base ≠ 0 then
      let dest := peerOf w.shr base
      { s with dev := { s.dev with peerOut := s.dev.peerOut ++ [{ dest := dest, path := peerPath s dest core w.sector, sector := w.sector, core := core, mark := none }] } }
    else if decide (w.cache / 4 = 2) && (KMap.get? s.hub (lineOfSector w.sector)).isNone then toBacking s [w.sector]
    else s

/-! ### Cores and their L1 -/

/-- A core's state. -/
def State.core (s : State) (c : Nat) : Core := (KMap.get? s.cores c).getD Core.reset

/-- A core changed. -/
def State.setCore (s : State) (c : Nat) (x : Core) : State := { s with cores := KMap.set s.cores c x }

/-- The virtual function that owns an identifier, 64 standing for the physical function (R447, R451). -/
def State.vfOf (s : State) (asid : Nat) : Nat :=
  ((List.range 64).find? fun f => match s.dev.vfAsid[f]? with
    | some m => bit m asid
    | none => false).getD 64

/-- Count an event of performance counter n on a core for a virtual function (R447). -/
def pmcCore (s : State) (core vf n k : Nat) : State :=
  let c := s.core core
  let key := vf * 64 + n
  s.setCore core { c with pmc := KMap.set c.pmc key ((KMap.get? c.pmc key).getD 0 + BitVec.ofNat 48 k) }

/-- The L1's copy of a sector that an access through a page meets: a revoked copy answers only its own page (R277). -/
def L1Sector.meets (e : L1Sector) (a : Attr) (sec : Nat) : Bool := decide (e.sector = sec) && (!e.revoked || (decide (e.asid = a.asid) && decide (e.vpage = a.vpage)))
def l1Find (s : State) (core : Nat) (a : Attr) (sec : Nat) : Option L1Sector := (s.core core).l1.find? fun e => e.meets a sec

/-- The copy of a sector that may leave the L1 at any time. -/
def l1Free (s : State) (core sec : Nat) : Option L1Sector := (s.core core).l1.find? fun e => decide (e.sector = sec) && !e.revoked

/-- Two entries of an L1 hold one copy. -/
def L1Sector.same (e x : L1Sector) : Bool :=
  decide (e.sector = x.sector) && decide (e.revoked = x.revoked) && (!e.revoked || (decide (e.asid = x.asid) && decide (e.vpage = x.vpage)))

/-- The L1 without a copy. -/
def l1Drop (s : State) (core : Nat) (e : L1Sector) : State :=
  let c := s.core core
  s.setCore core { c with l1 := c.l1.filter fun x => !e.same x }

/-- The L1 with a copy put in, or in place of the old one; its line's sectors take its tag (R232, R277). The list is in order of last
use, newest first. -/
def l1Put (s : State) (core : Nat) (e : L1Sector) : State :=
  let c := s.core core
  let rest := c.l1.filter fun x => !e.same x
  s.setCore core { c with l1 := e :: rest.map fun x =>
    if !e.revoked && !x.revoked && decide (lineOfSector x.sector = lineOfSector e.sector) then { x with asid := e.asid, vpage := e.vpage, cache := e.cache } else x }

/-- The dirty bytes of a copy. -/
def L1Sector.dirtyBytes (e : L1Sector) : KMap Byte := e.bytes.filter fun (o, _) => bit e.dirty o

/-- The bounds of the words that a copy has written (R232). -/
def L1Sector.dirtyBounds (e : L1Sector) (sb : W64) : KMap B16 :=
  ((List.range (sectorWords e.sector)).filter fun k => decide (bits e.dirty (4 * k + 3) (4 * k) ≠ 0)).map fun k => (k, sideWord sb k)

/-- The write-back of a copy's dirty bytes. -/
def L1Sector.backWrite (e : L1Sector) : HomeWrite :=
  { sector := e.sector, bytes := e.dirtyBytes, bounds := e.side.map e.dirtyBounds, dur := e.dur, shr := e.shr, owners := e.owners, readers := e.readers
    released := e.released, cache := e.cache, engine := false }

/-- A copy with nothing dirty. -/
def L1Sector.clean (e : L1Sector) : L1Sector := { e with dirty := 0, owners := [], readers := [], released := false }

/-- Write back the dirty bytes of a copy that is not revoked, and leave it clean (R232, R325). -/
def l1WriteBack (s : State) (core sec : Nat) : State :=
  match l1Free s core sec with
  | some e => if e.dirty = 0 then s else l1Put (hubWrite s core e.backWrite) core e.clean
  | none => s

/-- Write back and discard a copy; a revoked copy stays (R277). -/
def l1Flush (s : State) (core sec : Nat) : State :=
  let s := l1WriteBack s core sec
  match l1Free s core sec with
  | some e => l1Drop s core e
  | none => s

/-- Write back and discard a line's copies. -/
def l1FlushLine (s : State) (core line : Nat) : State :=
  ((s.core core).l1.filter fun e => decide (lineOfSector e.sector = line) && !e.revoked).foldl (fun s e => l1Flush s core e.sector) s

/-- Every dirty sector of a core that passes a test is written back, but for the revoked ones. -/
def l1WriteBackWhere (s : State) (core : Nat) (p : L1Sector → Bool) : State :=
  (((s.core core).l1.filter fun e => p e && e.dirty ≠ 0).map (·.sector)).foldl (fun s sec => l1WriteBack s core sec) s

/-- Mark stale, in one step, every sector of a core that carries an identifier (R329). -/
def l1MarkStale (s : State) (core : Nat) (p : L1Sector → Bool) : State :=
  let c := s.core core
  s.setCore core { c with l1 := c.l1.map fun e => if p e then { e with stale := true } else e }

/-- The line's retention by its L1 code: streaming and `.evict` the lowest, keep the highest (R233, R251). -/
def L1Sector.retention (e : L1Sector) : Nat := if e.cache % 4 = 1 then 0 else if e.cache % 4 = 3 then 2 else 1

/-- The lines of an L1 in order of last use, newest first, each with its retention and whether it holds a revoked sector. -/
def l1Recent (l : List L1Sector) : List (Nat × Nat × Bool) :=
  l.foldl (fun acc e =>
    let n := lineOfSector e.sector
    if acc.any fun x => x.1 = n then acc.map fun x => if x.1 = n then (n, x.2.1, x.2.2 || e.revoked) else x
    else acc ++ [(n, e.retention, e.revoked)]) []

/-- The line that a full L1 gives up: of those without a revoked sector (R277), of the lowest retention, the least recently used; the
line just filled stays. -/
def l1Victim (l : List L1Sector) : Option Nat :=
  let lines := ((l1Recent l).drop 1).filter fun x => !x.2.2
  (lines.foldl (fun (acc : Option (Nat × Nat × Bool)) x => match acc with
    | none => some x
    | some y => if x.2.1 ≤ y.2.1 then some x else some y) none).map (·.1)

/-- An L1 that holds more lines than its 256 KB evicts one (R15, R325). -/
def l1Fit (s : State) (core : Nat) : State :=
  let l := (s.core core).l1
  if l.length ≤ l1Lines then s
  else if (l.map fun e => lineOfSector e.sector).dedup.length ≤ l1Lines then s
  else match l1Victim l with
  | some line => l1FlushLine s core line
  | none => s

/-- An access through an identifier claims its line: what the line holds under another leaves the L1 first, as at an eviction (R277, R325). -/
def l1Claim (s : State) (core asid sec : Nat) : State :=
  if (s.core core).l1.any fun e => decide (lineOfSector e.sector = lineOfSector sec) && decide (e.asid ≠ asid) && !e.revoked then
    l1FlushLine s core (lineOfSector sec)
  else s

/-- A copy of a sector fetched from its point of coherence, keeping the dirty bytes of `old` (R329). -/
def l1Fetched (s : State) (sec : Nat) (a : Attr) (old : Option L1Sector) : L1Sector :=
  let home (o : Nat) : Byte := Memory.read s.mem (sectorBase sec + o)
  match old with
  | none =>
    { sector := sec, asid := a.asid, vpage := a.vpage, cache := a.cache, owners := [], readers := [], released := false, dirty := 0
      bytes := (List.range (sectorSize sec)).map fun o => (o, home o)
      side := if a.bound then some (homeSide s sec) else none
      stale := false, revoked := false, dur := decide (a.type = 2), shr := decide (a.type = 3) }
  | some e =>
    { e with
      asid := a.asid, vpage := a.vpage, cache := a.cache
      dur := decide (a.type = 2) || (e.dur && decide (e.dirty ≠ 0)), shr := decide (a.type = 3) || (e.shr && decide (e.dirty ≠ 0))
      bytes := (List.range (sectorSize sec)).map fun o =>
        (o, if bit e.dirty o then (KMap.get? e.bytes o).getD 0 else home o)
      side := if a.bound then
          some (sideMerge (sectorWords sec) (homeSide s sec) (match e.side with
            | some sb => e.dirtyBounds sb
            | none => []))
        else e.side
      stale := false }

/-- The copy holds every byte of its sector and is not stale. -/
def L1Sector.full (e : L1Sector) : Bool := !e.stale && coversSector e.sector e.bytes

/-- Bring a sector into the L1, or use it there (R232, R233). -/
def l1Fill (s : State) (core sec : Nat) (a : Attr) : State :=
  let s := l1Claim s core a.asid sec
  match l1Find s core a sec with
  | some e =>
    if e.full && (e.side.isSome || !a.bound) then l1Put s core { e with asid := a.asid, vpage := a.vpage, cache := a.cache }
    else
      let s := passL1 s core sec a.cache (decide (a.type = 3))
      l1Fit (l1Put s core (l1Fetched s sec a (some e))) core
  | none =>
    let s := passL1 s core sec a.cache (decide (a.type = 3))
    l1Fit (l1Put s core (l1Fetched s sec a none)) core

/-- Read n bytes of one sector through the L1; `noalloc` reads that miss fill no line (R233). -/
def l1Read (s : State) (core : Nat) (a : Attr) (noalloc : Bool) (pa n : Nat) : State × Nat :=
  let sec := sectorOf pa
  let from_ (e : L1Sector) : Nat :=
    (List.range n).foldr (fun i acc => ((KMap.get? e.bytes (pa - sectorBase sec + i)).getD 0).toNat + 256 * acc) 0
  if noalloc && (l1Find s core a sec).isNone then
    let s := passL1 s core sec a.cache (decide (a.type = 3))
    (s, from_ (l1Fetched s sec a none))
  else
    let s := l1Fill s core sec a
    (s, match l1Find s core a sec with
      | some e => from_ e
      | none => 0)

/-- The bound of the word at `pa` on a BC page, through the L1 (R127, R240). -/
def l1Bound (s : State) (core : Nat) (a : Attr) (pa : Nat) : B16 :=
  let sec := sectorOf pa
  let sb := match l1Find s core a sec with
    | some e => e.side.getD (homeSide s sec)
    | none => homeSide s sec
  sideWord sb ((pa - sectorBase sec) / 4)

/-- A read of `pa` consumes poison: the sector is poisoned and not wholly rewritten in the L1 (R441). -/
def poisoned (s : State) (core : Nat) (a : Attr) (pa : Nat) : Bool :=
  let sec := sectorOf pa
  s.poison.contains sec && !(match l1Find s core a sec with
    | some e => (List.range (sectorSize sec)).all fun o => bit e.dirty o
    | none => false)

/-- The bytes and word bounds that one instruction writes in one sector. -/
structure SectorWrite where
  attr : Attr
  bytes : KMap Byte
  bounds : KMap B16
  deriving DecidableEq, Repr

/-- Store to one sector in the L1, merging its sideband once (R129, R240, R324). -/
def l1Store (s : State) (core gid sec : Nat) (w : SectorWrite) : State :=
  let a := w.attr
  let s := if a.bound then l1Fill s core sec a else l1Claim s core a.asid sec
  let e : L1Sector := (l1Find s core a sec).getD
    { sector := sec, asid := a.asid, vpage := a.vpage, cache := a.cache, owners := [], readers := [], released := false, bytes := [], dirty := 0, side := none,
      stale := false, revoked := false, dur := decide (a.type = 2), shr := decide (a.type = 3) }
  let e := { e with
    asid := a.asid, vpage := a.vpage, cache := a.cache, dur := decide (a.type = 2), shr := decide (a.type = 3)
    owners := if e.owners.contains gid then e.owners else e.owners ++ [gid]
    bytes := w.bytes.foldl (fun m (o, b) => KMap.set m o b) e.bytes
    dirty := w.bytes.foldl (fun d (o, _) => d ||| BitVec.ofNat 48 (2 ^ o)) e.dirty
    side := if a.bound then some (sideMerge (sectorWords sec) (e.side.getD (homeSide s sec)) w.bounds) else none }
  l1Fit (l1Put s core e) core

/-- Store to one sector through to its point of coherence, leaving no dirty byte in the L1 (R315, R324). -/
def throughStore (s : State) (core gid sec : Nat) (w : SectorWrite) : State :=
  hubWrite (l1Flush s core sec) core
    { sector := sec, bytes := w.bytes, bounds := if w.attr.bound then some w.bounds else none, dur := decide (w.attr.type = 2), shr := decide (w.attr.type = 3)
      owners := [gid], readers := [], released := false, cache := w.attr.cache, engine := false }

/-! ### What a group may build on (R343) -/

/-- A group has read some sectors: durable writes to them that are not accepted, and dirty durable bytes of its L1. -/
def sawSectors (s : State) (core gid : Nat) (secs : List Nat) : State :=
  let c := s.core core
  let add (l : List Nat) : List Nat := if l.contains gid then l else gid :: l
  { s.setCore core { c with l1 := c.l1.map fun e => if e.dur && decide (e.dirty ≠ 0) && secs.contains e.sector then { e with readers := add e.readers } else e } with
    durWait := s.durWait.map fun w => if secs.contains w.sector then { w with seen := add w.seen } else w }

/-- A release of a group: what it has stored or seen may become visible to others. -/
def releasedBy (s : State) (core gid : Nat) : State :=
  let c := s.core core
  { s.setCore core { c with l1 := c.l1.map fun e => if e.dur && (e.owners.contains gid || e.readers.contains gid) then { e with released := true } else e } with
    durWait := s.durWait.map fun w => if w.owners.contains gid || w.seen.contains gid then { w with released := true } else w }

/-- An acquire of a group: what has been released has performed with respect to it. -/
def acquiredBy (s : State) (core gid : Nat) : State :=
  let c := s.core core
  { s.setCore core { c with l1 := c.l1.map fun e => if e.released then { e with readers := gid :: e.readers.filter (· ≠ gid) } else e } with
    durWait := s.durWait.map fun w => if w.released then { w with seen := gid :: w.seen.filter (· ≠ gid) } else w }

end Sys2Proof.Machine
end

