-- ==== Sys2Proof/Machine/Translate.lean ====
section
/-! DEFINITION. Page tables, the core TLB and the registrar's extent tables (R262–R269). -/

namespace Sys2Proof.Machine

/-- What a translation gives. -/
inductive Xlat where
  | page (a : Attr) (pa : Nat)
  | absent
  | migrating (vpage : Nat)
  | malformed
  deriving DecidableEq, Repr

/-- The lowest VA bit indexed at a level (R262). -/
def levelShift : Nat → Nat
  | 0 => 48 | 1 => 39 | 2 => 30 | 3 => 21 | _ => 12

/-- The index of a VA at a level (R262). -/
def levelIndex (level va : Nat) : Nat :=
  if level = 0 then va / 2 ^ 48 % 4096 else va / 2 ^ levelShift level % 512

/-- The byte range lies in an enabled durable pool window of the partition (R264, R454); windows are whole
gigabytes, and a page lies in one gigabyte. -/
def durWindow (s : State) (part base : Nat) : Bool :=
  s.dev.poolWin.toList.any fun (w0, w1) =>
    bit w1 6 && bit w1 5 && decide (bits w1 4 2 = part) &&
      decide (bits w0 51 30 ≤ base / 2 ^ 30) && decide (base / 2 ^ 30 < bits w0 51 30 + bits w0 63 52)

/-- A frame that another partition owns: in its pool windows, or in its HBM stacks (R13). -/
def foreignFrame (s : State) (part base : Nat) : Bool :=
  decide (1 < s.dev.partCount) && (match poolWindow s base with
    | some (_, p) => decide (p ≠ part)
    | none => let k := Config.stackOf (base / 4096)
      decide (k < 8) && decide (k * partCountOf s / 8 ≠ part))

/-- An entry with V = 1 is malformed at a level (R264), and where it names a frame of another partition (DESIGN CHOICE, log 108). -/
def pteMalformed (s : State) (part level : Nat) (e : W64) : Bool :=
  let leaf := bit e 1
  decide (bits e 54 52 ≠ 0) || decide (5 ≤ bits e 59 57)
    || (leaf && decide (level ≤ 1)) || (!leaf && decide (level = 4))
    || (!leaf && decide (bits e 63 55 ≠ 0))
    || (bit e 56 && decide (level ≠ 4))
    || (leaf && decide (level = 2) && decide (bits e 29 12 ≠ 0))
    || (leaf && decide (level = 3) && decide (bits e 20 12 ≠ 0))
    || (leaf && decide (bits e 59 57 = 2) && !durWindow s part (bits e 51 12 * 4096))
    || foreignFrame s part (bits e 51 12 * 4096)

/-- The 16 entries of a 64 KB group agree (R265). -/
def groupAgrees (es : List W64) : Bool :=
  match es with
  | [] => false
  | e0 :: _ =>
    decide (bits e0 51 12 % 16 = 0) &&
      (List.range 16).all fun i => match es[i]? with
        | some e => bit e 0 && bit e 56 && decide (bits e 51 12 = bits e0 51 12 + i) && decide (bits e 63 52 = bits e0 63 52)
        | none => false

/-- The attributes a leaf gives (R263). -/
def leafAttr (e : W64) (size asid va : Nat) : Attr :=
  { type := bits e 59 57, rd := bit e 61, w := bit e 62, x := bit e 63, bc := bit e 60, size := size
    asid := asid, vpage := va / 4096 }

/-- A walk from one level's table down (R262–R265). `see` gives the entry used where a cached one may differ
(R269). Answers the outcome, the span of virtual addresses it holds for (as a bit count), and the entries used. -/
def walkFrom (s : State) (part asid va : Nat) (see : Nat → W64 → W64) :
    Nat → Nat → Nat → Xlat × Nat × List (Nat × W64)
  | 0, _, _ => (.malformed, 12, [])
  | fuel + 1, level, table =>
    let addr := table + 8 * levelIndex level va
    let e := see level (BitVec.ofNat 64 (Memory.readN s.mem addr 8))
    let sh := levelShift level
    if !bit e 0 then
      if bit e 1 && decide (2 ≤ level) && bit e 55 then (.migrating (va / 2 ^ sh * 2 ^ sh), sh, [])
      else (.absent, sh, [])
    else if pteMalformed s part level e then (.malformed, sh, [(level, e)])
    else if bit e 1 then
      if level = 4 && bit e 56 then
        let first := addr - addr % 128
        let es := (List.range 16).map fun i => BitVec.ofNat 64 (Memory.readN s.mem (first + 8 * i) 8)
        let i := va / 4096 % 16
        if !groupAgrees es && Config.firstEntry s.serial then
          let e0 := wordAt es 0
          if !bit e0 0 then (if bit e0 1 && bit e0 55 then (.migrating (va / 2 ^ sh * 2 ^ sh), sh, []) else (.absent, sh, []))
          else if pteMalformed s part 4 e0 then (.malformed, sh, [])
          else (.page (leafAttr e0 1 asid va) ((bits e0 51 12 + i) * 4096 + va % 4096), sh, [(level, e)])
        else (.page (leafAttr e 1 asid va) (bits e 51 12 * 4096 + va % 4096), sh, [(level, e)])
      else
        let size := if level = 2 then 3 else if level = 3 then 2 else 0
        (.page (leafAttr e size asid va) (bits e 51 12 * 4096 + va % 2 ^ sh), sh, [(level, e)])
    else
      let (r, n, l) := walkFrom s part asid va see fuel (level + 1) (bits e 51 12 * 4096)
      (r, n, (level, e) :: l)

/-- The walk that the registrar makes: every entry as it stands in memory. -/
def walkNow (s : State) (asid va : Nat) : Xlat × Nat × List (Nat × W64) :=
  match KMap.get? s.ctxs asid with
  | some c => walkFrom s c.part asid va (fun _ e => e) 5 0 c.root
  | none => (.absent, 48, [])

/-- The entry a core TLB holds for a virtual address at a level. -/
def tlbFind (s : State) (core asid level va : Nat) : Option W64 :=
  (s.tlb.find? fun t => t.core = core ∧ t.asid = asid ∧ t.level = level ∧ t.vpage = va / 2 ^ levelShift level).map (·.pte)

/-- Translate through the core TLB (R269): a cached valid entry that memory no longer holds may be used
until a shootdown covers it, and valid entries used are cached. A walk, which every translation is that the TLB does not hold
whole, is counted (R447). -/
def translate (s : State) (core asid va : Nat) : State × Xlat :=
  if 2 ^ 60 ≤ va then (s, .malformed)
  else match KMap.get? s.ctxs asid with
  | none => (s, .absent)
  | some c =>
    let see (level : Nat) (now : W64) : W64 :=
      match tlbFind s core asid level va with
      | some old => if old = now then now else if Config.newerVersion s.serial level 64 then now else old
      | none => now
    let (r, _, used) := walkFrom s c.part asid va see 5 0 c.root
    let keep : Bool := match r with
      | .malformed => false
      | .page _ _ | .absent | .migrating _ => true
    let new := used.filterMap fun (level, e) =>
      if tlbFind s core asid level va = some e then none
      else some { core := core, asid := asid, vpage := va / 2 ^ levelShift level, pte := e, level := level }
    let held : Bool := match r with
      | .page _ _ => new.isEmpty
      | .absent | .migrating _ | .malformed => false
    let s := if held then s else pmcCore s core (s.vfOf asid) 7 1
    if keep && !new.isEmpty then
      ({ s with tlb := new ++ s.tlb.filter fun t =>
          !(new.any fun n => n.core = t.core ∧ n.asid = t.asid ∧ n.level = t.level ∧ n.vpage = t.vpage) }, r)
    else (s, r)

/-! ### Extent tables (R267, R268) -/

/-- An extent covering [lo, hi) with a walk's outcome. -/
def extentOf (r : Xlat) (lo hi : Nat) : Extent :=
  let blank (kind : BitVec 2) : Extent :=
    { kind := kind, size := 0, type := 0, bc := false, w := false, rd := false, x := false, lo := lo, hi := hi, pa := 0 }
  match r with
  | .page a pa =>
    { kind := 0, size := BitVec.ofNat 2 a.size, type := BitVec.ofNat 3 a.type, bc := a.bc, w := a.w, rd := a.rd, x := a.x
      lo := lo, hi := hi, pa := pa }
  | .absent => blank 1
  | .migrating _ => blank 2
  | .malformed => blank 3

/-- Two neighbouring extents merge (R267). -/
def extentMerges (a b : Extent) : Bool :=
  decide (a.kind = b.kind) && decide (a.type = b.type) && decide (a.bc = b.bc) && decide (a.w = b.w) &&
    decide (a.rd = b.rd) && decide (a.x = b.x) && (decide (a.kind ≠ 0) || decide (a.pa + (a.hi - a.lo) = b.pa))

/-- Walk extents from an offset on, merging neighbours; the accumulator is newest first. -/
def extentLoop (s : State) (asid base len : Nat) : Nat → Nat → List Extent → List Extent
  | 0, _, acc => acc
  | fuel + 1, off, acc =>
    if len ≤ off then acc
    else
      let va := base + off
      let (r, sh, _) := walkNow s asid va
      let hi := min len ((va / 2 ^ sh + 1) * 2 ^ sh - base)
      let e := extentOf r off hi
      match acc with
      | p :: t =>
        if extentMerges p e then extentLoop s asid base len fuel hi ({ p with hi := hi } :: t)
        else if 65 ≤ acc.length then acc
        else extentLoop s asid base len fuel hi (e :: acc)
      | [] => extentLoop s asid base len fuel hi [e]

/-- The extent table of a record (R267): at most 64 extents, the 64th of kind walk where more are needed. -/
def buildExtents (s : State) (asid base len : Nat) : List Extent :=
  let l := (extentLoop s asid base len (len / 4096 + 2) 0 []).reverse
  if l.length ≤ 64 then l
  else
    let keep := l.take 63
    let lo := match keep.getLast? with
      | some e => e.hi
      | none => 0
    keep ++ [extentOf (.migrating 0) lo len]

/-- The extent that holds a byte offset. -/
def extentAt (l : List Extent) (off : Nat) : Option Extent := l.find? fun e => e.lo ≤ off ∧ off < e.hi

/-- The four words of an extent entry (R267). -/
def extentWords (e : Extent) : List W64 :=
  let flag (b : Bool) (n : Nat) : Nat := if b then 2 ^ n else 0
  [BitVec.ofNat 64 (e.kind.toNat * 2 ^ 62 + e.size.toNat * 2 ^ 60 + e.type.toNat * 2 ^ 57 + flag e.bc 56 + flag e.w 55 + flag e.rd 54 + e.lo),
   BitVec.ofNat 64 e.hi, BitVec.ofNat 64 (if e.kind = 0 then e.pa else 0), 0]

/-- Translate the byte at an offset of a record through its extents (R268). -/
def translateRecord (s : State) (core asid base : Nat) (exts : List Extent) (off : Nat) : State × Xlat :=
  match extentAt exts off with
  | some e =>
    if e.kind = 0 then
      (s, .page { type := e.type.toNat, rd := e.rd, w := e.w, x := e.x, bc := e.bc, size := e.size.toNat, asid := asid,
                  vpage := (base + off) / 4096 } (e.pa + (off - e.lo)))
    else if e.kind = 1 then (s, .absent)
    else if e.kind = 2 then translate s core asid (base + off)
    else (s, .malformed)
  | none => (s, .malformed)

end Sys2Proof.Machine
end

