-- ==== Sys2Proof/Machine/Code.lean ====
section
/-! DEFINITION. Reading code objects and kernel descriptors (R55–R58, R459, R486). -/

namespace Sys2Proof.Machine

/-- Read n bytes at a virtual address through the page tables, at their points of coherence; `none` where a
page is absent or unreadable. -/
def readVirt (s : State) (asid va : Nat) : Nat → Option Nat
  | 0 => some 0
  | n + 1 =>
    match (walkNow s asid va).1 with
    | .page a pa =>
      if a.rd && decide (a.type ≠ 1) && decide (a.type ≠ 4) then
        match readVirt s asid (va + 1) n with
        | some r => some ((Memory.read s.mem pa).toNat + 256 * r)
        | none => none
      else none
    | .absent | .migrating _ | .malformed => none

/-- The bytes of a virtual range, through the page tables. -/
def readVirtBytes (s : State) (asid va n : Nat) : Option (List Byte) :=
  (List.range n).mapM fun i => (readVirt s asid (va + i) 1).map (BitVec.ofNat 8)

/-- A code-object header (R55). -/
structure CodeObj where
  stepping : Nat
  secver : Nat
  flags : Nat
  codeOff : Nat
  codeSize : Nat
  kcount : Nat
  ktab : Nat
  dataOff : Nat
  dataSize : Nat
  sigOff : Nat
  deriving DecidableEq, Repr

/-- The size of a code object: its signature block ends it (R459). -/
def CodeObj.total (o : CodeObj) : Nat := o.sigOff + 17056

/-- A header that passes R55, whatever its stepping and version. -/
def readCodeObj (s : State) (asid va : Nat) : Option CodeObj := do
  let magic ← readVirt s asid va 4
  let hver ← readVirt s asid (va + 4) 2
  let stepping ← readVirt s asid (va + 6) 2
  let secver ← readVirt s asid (va + 8) 4
  let flags ← readVirt s asid (va + 0xC) 4
  let codeOff ← readVirt s asid (va + 0x10) 8
  let codeSize ← readVirt s asid (va + 0x18) 8
  let kcount ← readVirt s asid (va + 0x20) 4
  let ktab ← readVirt s asid (va + 0x24) 4
  let dataOff ← readVirt s asid (va + 0x28) 8
  let dataSize ← readVirt s asid (va + 0x30) 8
  let sigOff ← readVirt s asid (va + 0x38) 4
  let res ← readVirt s asid (va + 0x3C) 4
  if magic = 0x4B504C4A ∧ hver = 1 ∧ flags < 4 ∧ codeOff % 4 = 0 ∧ codeSize % 4 = 0 ∧ 1 ≤ kcount ∧ kcount ≤ 65535 ∧ res = 0 then
    some { stepping := stepping, secver := secver, flags := flags, codeOff := codeOff, codeSize := codeSize, kcount := kcount
           ktab := ktab, dataOff := dataOff, dataSize := dataSize, sigOff := sigOff }
  else none

/-- The treatment of a stepping (R56): `none` refused, else whether it runs interlocked. -/
def steppingMode (st : Nat) : Option Bool :=
  if st = 0x0410 then some false
  else if st = 0 ∨ st / 256 = 3 ∨ st / 256 = 4 then some true
  else none

/-- A kernel descriptor (R58). -/
structure KDesc where
  entryOff : Nat
  recTab : Nat
  recCount : Nat
  roleCount : Nat
  budgets : List Nat
  budget : Nat
  groups : Nat
  placement : Nat
  cls : Nat
  config : Nat
  tileOff : Nat
  tileCount : Nat
  nameOff : Nat
  reservedZero : Bool
  deriving DecidableEq, Repr

/-- The descriptor of kernel n of a code object. -/
def readKDesc (s : State) (asid va : Nat) (o : CodeObj) (n : Nat) : Option KDesc := do
  let b := va + o.ktab + 64 * n
  let entryOff ← readVirt s asid b 4
  let recTab ← readVirt s asid (b + 4) 4
  let recCount ← readVirt s asid (b + 8) 1
  let roleCount ← readVirt s asid (b + 9) 1
  let budgets ← (List.range 4).mapM fun i => readVirt s asid (b + 0xA + i) 1
  let budget ← readVirt s asid (b + 0xE) 2
  let groups ← readVirt s asid (b + 0x10) 2
  let placement ← readVirt s asid (b + 0x12) 1
  let cls ← readVirt s asid (b + 0x13) 1
  let config ← readVirt s asid (b + 0x14) 1
  let r1 ← readVirt s asid (b + 0x15) 3
  let tileOff ← readVirt s asid (b + 0x18) 4
  let tileCount ← readVirt s asid (b + 0x1C) 2
  let r2 ← readVirt s asid (b + 0x1E) 2
  let nameOff ← readVirt s asid (b + 0x20) 4
  let r3 ← readVirt s asid (b + 0x24) 28
  some { entryOff := entryOff, recTab := recTab, recCount := recCount, roleCount := roleCount, budgets := budgets, budget := budget
         groups := groups, placement := placement, cls := cls, config := config, tileOff := tileOff, tileCount := tileCount
         nameOff := nameOff, reservedZero := decide (r1 = 0 ∧ r2 = 0 ∧ r3 = 0) }

/-- The form check of a descriptor (R486, first step). A table lies in the code object where its whole extent does, so that an empty one may
stand at its end (DESIGN CHOICE, log 114). -/
def KDesc.formOk (d : KDesc) (o : CodeObj) : Bool :=
  d.reservedZero && decide (d.config < 4) && decide (d.placement ≤ 1) && decide (d.cls ≤ 7) &&
    decide (d.recCount ≤ 224) && decide (d.tileCount ≤ 32) && decide (d.entryOff % 4 = 0) && decide (d.entryOff < o.codeSize) &&
    decide (d.recTab + 40 * d.recCount ≤ o.total) && decide (d.tileOff + 16 * d.tileCount ≤ o.total) && decide (d.nameOff < o.total)

/-- The code of a handler's object (R428, R429 step 4): `none` where it fails R55–R58, for a protected launch its protected-mode needs
included. -/
def handlerCode (s : State) (asid va kernel : Nat) (prot : Bool) : Option Code := do
  let o ← readCodeObj s asid va
  let il ← steppingMode o.stepping
  let d ← readKDesc s asid va o kernel
  if kernel < o.kcount ∧ s.dev.secFuse ≤ o.secver ∧ d.formOk o ∧ (prot → o.flags / 2 % 2 = 1) then
    some { va := va + o.codeOff, size := o.codeSize, entry := va + o.codeOff + d.entryOff, interlocked := il }
  else none

end Sys2Proof.Machine
end

