-- ==== Sys2Proof/Machine/Ops.lean ====
section
/-! DEFINITION. The shared operations of the machine: lookups, lanes, registers and their versions, error
records, fault entries, kills, taking a trap and returning from one, and the frame every instruction word
issues in. -/

namespace Sys2Proof.Machine

/-! ### Lookups -/

/-- A kernel that no launch created: what a lookup finds where no kernel is. -/
def Kernel.blank : Kernel :=
  { asid := 0, part := 0, queue := 0, entryVa := 0, codeObj := 0, code := ⟨0, 0, 0, false⟩, score := false, prot := false
    pair := false, grid := [1, 1, 1], cls := 0, roleGroups := [1], budgets := [0], reservation := 0, gmask := 0
    recTable := 0, recCount := 0, records := [], extents := [], arena := 0, stride := 1024, budget := 0, fpEnable := 0
    arg := 0, sigVa := 0, sigVal := 0, placed := 0, killed := false, order := 0, endMarks := none }

/-- A team that no placement created. -/
def Team.blank : Team := { kernel := 0, number := 0, core := 0, cls := 0, tiles := [], late := [], bars := [] }

/-- A slice with no lane and nothing on its stack. -/
def Slice.blank : Slice := { pc := 0, mode := 0, oldMode := none, act := 0, exited := 0, stack := [], parked := false, notBefore := 0 }

/-- A batch with nothing in it. -/
def Batch.blank : Batch := { open_ := 0, relNeeded := false, relScope := .grp, seq := 0, pc := 0, faulted := false, marks := none }

/-- A group as a launch makes it, before its slices have lanes (R403, R420). -/
def Group.blank : Group :=
  { kernel := 0, team := 0, number := 0, role := 0, place := .ended
    v := [], x := [], s := Vector.replicate 64 0, sb := Vector.replicate 64 0, p := Vector.replicate 7 0
    slices := Vector.replicate 8 Slice.blank, unsettled := [], budget := 0, sticky := 0, fpEnable := 0, cflags := 0
    shape := [0, 0, 0], scale := [0, 0, 0], decStatus := 0, barst := 0, cards := 0, cardCopy := []
    run := none, hold := none, pend := [], ld := [], st := [], copies := [], mx := [], openBatch := Batch.blank
    batchNo := 0, stepSeq := 0, red := [], bars := [], release := none, ioOut := false, waita := none
    token := 0, resWord := 0, entryKind := 0, parks := [], ctxMiss := none, ctxMoving := none, blockFrames := [], ctxToken := none, ctxPosted := false, frame := [], entryExited := []
    handler := none, saved := [], savedX := [], resume := none, asyncTraps := [], killCode := 0
    stamp := 0, seatedAt := 0, notBefore := 0, givewayDue := false, yieldDue := 0, yieldFor := none, lastGang := 0
    pinned := [], absent := [], savedMq := [], savedJobs := [], engineSaved := false, blockWritten := false, parkedSince := none, freeing := none, poison := [] }

def State.kernel (s : State) (n : Nat) : Kernel := (KMap.get? s.kernels n).getD Kernel.blank
def State.team (s : State) (n : Nat) : Team := (KMap.get? s.teams n).getD Team.blank
def State.group? (s : State) (n : Nat) : Option Group := KMap.get? s.groups n
def State.setGroup (s : State) (n : Nat) (g : Group) : State := { s with groups := KMap.set s.groups n g }
def State.modGroup (s : State) (n : Nat) (f : Group → Group) : State := { s with groups := KMap.modify s.groups n f }
def State.setTeam (s : State) (n : Nat) (t : Team) : State := { s with teams := KMap.set s.teams n t }
def State.setKernel (s : State) (n : Nat) (k : Kernel) : State := { s with kernels := KMap.set s.kernels n k }

/-- Partition i; partitions are numbered 0–7 (R13). -/
def State.part (s : State) (i : Nat) : Partition := s.parts.toList.getD i Partition.reset
def State.setPart (s : State) (i : Nat) (p : Partition) : State :=
  if h : i < 8 then { s with parts := s.parts.set i p } else s
def State.modRegs (s : State) (i : Nat) (f : PartRegs → PartRegs) : State :=
  s.setPart i { s.part i with regs := f (s.part i).regs }

/-- SYS_CLOCK of a partition (R116): core clocks since its reset. -/
def State.sysClock (s : State) (part : Nat) : Nat := s.clock - (s.part part).clockBase

/-- The host reaches the device's memory windows: it is powered, and its firmware has booted (R458, R464). -/
def hostReaches (s : State) : Bool := s.dev.bootDone && !s.dev.recovery && decide (s.dev.power = .d0)

/-- A configured partition (R13, R450). -/
def partThere (s : State) (part : Nat) : Bool := decide (part < max 1 s.dev.partCount)

/-- Write 8-byte words from a physical address up. -/
def physWords (s : State) (pa : Nat) : List W64 → State
  | [] => s
  | w :: t => physWords { s with mem := Memory.writeN s.mem pa 8 w.toNat } (pa + 8) t

/-- Read an 8-byte word at a physical address. -/
def physWord (s : State) (pa : Nat) : W64 := BitVec.ofNat 64 (Memory.readN s.mem pa 8)

/-- Advance a partition-wide performance counter (R447). -/
def pmcPart (s : State) (part vf n k : Nat) : State :=
  let p := s.part part
  let key := vf * 64 + n
  s.setPart part { p with pmc := KMap.set p.pmc key ((KMap.get? p.pmc key).getD 0 + BitVec.ofNat 48 k) }

/-! ### Group data -/

/-- Groups per team (R399). -/
def Kernel.teamGroups (k : Kernel) : Nat := k.roleGroups.foldl (· + ·) 0
/-- The group's role budget V (R22). -/
def Kernel.budgetOf (k : Kernel) (role : Nat) : Nat := k.budgets.getD role 0
/-- The team number of a group within its grid. -/
def State.teamNumber (s : State) (g : Group) : Nat := (s.team g.team).number
/-- The group's index in its kernel (R399). -/
def State.groupIndex (s : State) (g : Group) : Nat := s.teamNumber g * (s.kernel g.kernel).teamGroups + g.number
/-- The VA of the group's context block (R399). -/
def State.blockVa (s : State) (g : Group) : Nat := (s.kernel g.kernel).arena + (s.kernel g.kernel).stride * s.groupIndex g
/-- The core a group is seated on or whose hall it is in. -/
def Group.core (g : Group) : Nat := match g.place with
  | .seat c _ => c
  | .hall c => c
  | .ended | .killed => 0
def Group.seated (g : Group) : Bool := match g.place with
  | .seat _ _ => true
  | .hall _ | .ended | .killed => false
def Group.quarter (g : Group) : Nat := match g.place with
  | .seat _ q => q
  | .hall _ | .ended | .killed => 0
/-- Neither exited nor killed (R309). -/
def Group.live (g : Group) : Bool := match g.place with
  | .seat _ _ | .hall _ => true
  | .ended | .killed => false
/-- The group is in handler mode (R431). -/
def Group.inHandler (g : Group) : Bool := g.handler.isSome
/-- The code the group fetches (R428). -/
def State.codeOf (s : State) (g : Group) : Code := g.handler.getD (s.kernel g.kernel).code
/-- Gang width G (R20). -/
def Kernel.width (k : Kernel) : Nat := if k.prot then 16 else 32
/-- Visible lanes to a slice (R18, R20). -/
def Kernel.perSlice (k : Kernel) : Nat := if k.prot then 2 else 4
/-- The lanes of a slice that has all of them (R70). -/
def Kernel.fullMask (k : Kernel) : BitVec 4 := if k.prot then 3 else 15

/-- The context of a group. -/
def State.ctxOf (s : State) (g : Group) : Option Context := KMap.get? s.ctxs (s.kernel g.kernel).asid

/-- The group's context is halted: pre-empted or swapped out, or its partition is in reset or being swapped (R409, R424). -/
def haltedCtx (s : State) (g : Group) : Bool :=
  (match s.ctxOf g with
    | some c => decide (c.state = CtxState.preempted) || c.away
    | none => false) ||
  (let p := s.part (s.kernel g.kernel).part
   p.inReset || p.swapping.isSome)

/-- The group's engine commands stand still: its context is halted, or was pre-empted since the group had a seat (R364). -/
def engineStopped (s : State) (g : Group) : Bool := haltedCtx s g || g.engineSaved

/-- The lanes that a mask of slices gives, each slice by its own 4-bit mask. -/
def lanesOf (per : Nat) (slices : BitVec 8) (f : Nat → BitVec 4) : BitVec 32 :=
  maskOf 32 fun l => decide (l < 8 * per) && bit slices (l / per) && bit (f (l / per)) (l % per)

/-- Slice i of a group. -/
def Group.slice (g : Group) (i : Nat) : Slice :=
  g.slices.toList.getD i Slice.blank

/-- Lanes of the active masks of some slices. -/
def Group.actLanes (g : Group) (k : Kernel) (slices : BitVec 8) : BitVec 32 := lanesOf k.perSlice slices fun i => (g.slice i).act
/-- A slice has exited: each of its lanes has, or none is left in its active mask or on its stack (R73). -/
def Slice.gone (sl : Slice) (full : BitVec 4) : Bool := decide (sl.exited = full) || (decide (sl.act = 0) && sl.stack.isEmpty)
/-- The slices that have not exited. -/
def Group.liveSlices (g : Group) (k : Kernel) : BitVec 8 := maskOf 8 fun i => !(g.slice i).gone k.fullMask
/-- The group with some slices changed. -/
def Group.mapSlices (g : Group) (m : BitVec 8) (f : Nat → Slice → Slice) : Group :=
  { g with slices := Vector.ofFn fun i : Fin 8 => if bit m i.val then f i.val g.slices[i.val] else g.slices[i.val] }

/-! ### Error records (R443–R445) -/

/-- The fields of an error record beside its sequence number and clock (R444). -/
structure ErrRec where
  kind : Nat
  code : Nat := 0
  asid : Nat := 0
  core : Nat := 0xFF
  pc : Nat := 0
  va : Nat := 0
  isPa : Bool := false
  group : Nat := 0xFFFFFFFF
  count : Nat := 0
  d0 : Nat := 0
  d1 : Nat := 0

/-- Count an error record by its kind, 0x01–0x0D (R455). -/
def countError (s : State) (kind : Nat) : State :=
  if kind ≤ 0x0D then { s with dev := { s.dev with errCounts := KMap.set s.dev.errCounts kind ((KMap.get? s.dev.errCounts kind).getD 0 + 1) } } else s

/-- Write an error record to a partition's ring; the sequence number, or `none` where the ring was full (R443, R446). -/
def errorRecord (s : State) (part : Nat) (r : ErrRec) : State × Option Nat :=
  let s := countError s r.kind
  let regs := (s.part part).regs
  let size := 2 ^ regs.elSize.toNat
  let n := regs.elProd.toNat
  if size ≤ (regs.elProd - regs.elCons).toNat then
    (s.modRegs part fun x => { x with elDrop := x.elDrop + 1 }, none)
  else
    let words : List W64 :=
      [BitVec.ofNat 64 (n + r.kind * 2 ^ 32 + r.code * 2 ^ 40 + r.asid * 2 ^ 48 + r.core * 2 ^ 56),
       BitVec.ofNat 64 (r.pc % 2 ^ 60),
       BitVec.ofNat 64 (r.va % 2 ^ 60 + (if r.isPa then 2 ^ 63 else 0)),
       BitVec.ofNat 64 (r.group % 2 ^ 32 + r.count % 2 ^ 32 * 2 ^ 32),
       BitVec.ofNat 64 r.d0, BitVec.ofNat 64 r.d1, BitVec.ofNat 64 (s.sysClock part % 2 ^ 48), 0]
    let s := physWords s (bits regs.elBase 51 6 * 64 + 64 * (n % size)) words
    (s.modRegs part fun x => { x with elProd := x.elProd + 1 }, some n)

/-- The record fields that name a group (R444). -/
def groupRec (s : State) (g : Group) (kind code pc : Nat) : ErrRec :=
  { kind := kind, code := code, asid := (s.kernel g.kernel).asid, core := g.core, pc := pc, group := s.groupIndex g }

/-! ### Kills (R442) -/

/-- The PC a group stands at. -/
def Group.pcNow (g : Group) : Nat := match g.run with
  | some r => r.pc.toNat
  | none => ((g.slices.toList.find? fun sl => sl.act ≠ 0).map fun sl => sl.pc.toNat).getD 0

/-- Bring counter 0 of a core up to date: clocks with a seated group, by virtual function (R447). -/
def account (s : State) (core : Nat) : State :=
  let c := s.core core
  let vfs := ((s.groups.filter fun (_, g) => decide (g.place = .seat core g.quarter)).map fun (_, g) => s.vfOf (s.kernel g.kernel).asid).dedup
  let full := (List.range 4).filter fun q => s.groups.any fun (_, g) => decide (g.place = .seat core q)
  s.setCore core { c with
    acctAt := s.clock
    seatedUntil := full.foldl (fun m q => KMap.set m q s.clock) c.seatedUntil
    pmc := vfs.foldl (fun m vf => KMap.set m (vf * 64) ((KMap.get? m (vf * 64)).getD 0 + BitVec.ofNat 48 (s.clock - c.acctAt))) c.pmc }

/-! ### Barrier state (R307–R310) -/

/-- A barrier before its first arrival. -/
def Barrier.blank : Barrier := { phase := 0, arrived := [], mode := none, watchers := [], due := [] }

/-- The index of a barrier among a group's: 0–15 b0–b15, 16–23 g0–g7. -/
def barIndex (grid : Bool) (num : Nat) : Nat := if grid then 16 + num else num

/-- A barrier's state: a team's, or a context's grid barrier. -/
def barrierOf (s : State) (grid : Bool) (owner num : Nat) : Barrier :=
  if grid then (match KMap.get? s.ctxs owner with
    | some c => (KMap.get? c.gridBars num).getD Barrier.blank
    | none => Barrier.blank)
  else (KMap.get? (s.team owner).bars num).getD Barrier.blank

def setBarrier (s : State) (grid : Bool) (owner num : Nat) (b : Barrier) : State :=
  if grid then { s with ctxs := KMap.modify s.ctxs owner fun c => { c with gridBars := KMap.set c.gridBars num b } }
  else s.setTeam owner { s.team owner with bars := KMap.set (s.team owner).bars num b }

/-- The class mask of a kernel's grid barrier (R308). -/
def gridMask (k : Kernel) (num : Nat) : BitVec 8 := BitVec.ofNat 8 (bits k.gmask (8 * num + 7) (8 * num))

/-- The teams whose groups a barrier counts (R307, R308). -/
def memberTeams (s : State) (grid : Bool) (owner num : Nat) : List Nat :=
  if grid then (s.teams.filter fun (_, t) =>
      let k := s.kernel t.kernel
      decide (k.asid = owner) && bit (gridMask k num) t.cls).map (·.1)
  else [owner]

/-- Groups of some teams, by number. -/
def groupsOf (s : State) (teams : List Nat) : List (Nat × Group) := s.groups.filter fun (_, g) => teams.contains g.team

/-- The killed groups of some teams, k of R309. -/
def killedOf (s : State) (teams : List Nat) : Nat := ((groupsOf s teams).filter fun (_, g) => decide (g.place = .killed)).length

/-- The phase in progress completes now (R309, R313). -/
def phaseDone (s : State) (grid : Bool) (owner num : Nat) : Bool :=
  let b := barrierOf s grid owner num
  let teams := memberTeams s grid owner num
  let arrived := b.arrived.filter fun i => match s.group? i with
    | some g => decide (g.place ≠ .killed)
    | none => false
  match b.mode with
  | none => false
  | some none => (groupsOf s teams).all fun (i, g) => !g.live || (g.liveSlices (s.kernel g.kernel) = 0) || arrived.contains i
  | some (some n) => decide (max 1 (n - killedOf s teams) ≤ arrived.length)

/-- A phase completes at the first moment that its condition holds: the phase number advances, and the next begins (R309). Its drains and
its waiters' release are still due. -/
def settleBarrier (s : State) (grid : Bool) (owner num : Nat) : State :=
  if phaseDone s grid owner num then
    let b := barrierOf s grid owner num
    setBarrier s grid owner num { b with
      phase := b.phase + 1, arrived := [], mode := none, watchers := []
      due := b.due ++ [{ who := b.arrived ++ b.watchers, killed := killedOf s (memberTeams s grid owner num) }] }
  else s

/-- The phases that an exit or a kill of a group completes (R309). -/
def settleBarriers (s : State) (g : Group) : State :=
  let s := ((s.team g.team).bars.map (·.1)).foldl (fun s n => settleBarrier s false g.team n) s
  let asid := (s.kernel g.kernel).asid
  match KMap.get? s.ctxs asid with
  | some c => (c.gridBars.map (·.1)).foldl (fun s n => settleBarrier s true asid n) s
  | none => s

/-! ### Kills (R442, R443) -/

/-- A group stops, frees its seat, and loses its buffered reductions and engine commands (R442). -/
def stopGroup (s : State) (gid : Nat) (code : Nat) : State :=
  match s.group? gid with
  | none => s
  | some g =>
    if !g.live then s
    else
      let k := s.kernel g.kernel
      let s := account s g.core
      let s := pmcPart s k.part (s.vfOf k.asid) 21 1
      let s := { s with cores := KMap.mapVals s.cores fun _ core =>
        { core with mq := core.mq.filter fun e => e.gid ≠ gid, decodeQ := core.decodeQ.filter fun j => j.gid ≠ gid } }
      let s := s.setKernel g.kernel { k with killed := true }
      let s := s.setGroup gid { g with
        place := .killed, run := none, hold := none, pend := [], ld := [], st := [], copies := [], mx := [], red := []
        bars := [], release := none, waita := none, parks := [], ctxMiss := none, ctxMoving := none, freeing := none, ctxToken := none, handler := none
        asyncTraps := [], resume := none, pinned := [], absent := [], savedMq := [], savedJobs := [], engineSaved := false, killCode := BitVec.ofNat 8 code
        openBatch := Batch.blank }
      settleBarriers s g

/-- Kill a group: its error record, and it stops (R442, R443). -/
def killGroup (s : State) (gid : Nat) (r : Group → ErrRec) : State :=
  match s.group? gid with
  | none => s
  | some g => if g.live then stopGroup (errorRecord s (s.kernel g.kernel).part (r g)).1 gid (r g).code else s

/-- Kill for an uncorrectable error consumed (R441). -/
def killPoison (s : State) (gid : Nat) : State :=
  killGroup s gid fun g => groupRec s g 0x03 0x20 g.pcNow

/-! ### The fault queue (R271–R273) -/

/-- Bring a partition's held entries into the queue, in fault order, while there is room (R273). -/
def writeHeld (s : State) (part : Nat) : Nat → State
  | 0 => s
  | n + 1 =>
    let p := s.part part
    match p.held with
    | [] => s
    | h :: t =>
      let size := 2 ^ p.regs.fqSize.toNat
      if size ≤ (p.regs.fqProd - p.regs.fqCons).toNat then s
      else
        let i := p.regs.fqProd.toNat
        let s := physWords s (bits p.regs.fqBase 51 6 * 64 + 64 * (i % size)) (BitVec.ofNat 64 i :: h.words)
        let s := s.setPart part { p with held := t, regs := { p.regs with fqProd := p.regs.fqProd + 1 } }
        writeHeld s part n

/-- What a fault entry says (R273). -/
structure FaultInfo where
  kind : Nat
  loVa : Nat
  hiVa : Nat
  pc : Nat
  lanes : Nat
  opcode : Nat
  write : Bool
  rt : Nat

/-- A group's fault-resolution word, in the machine and at its home in the block (R272, R401). -/
def setResWord (s : State) (gid : Nat) (w : W64) : State :=
  match s.group? gid with
  | none => s
  | some g =>
    let s := s.setGroup gid { g with resWord := w }
    match walkNow s (s.kernel g.kernel).asid (s.blockVa g + 0x348) with
    | (.page _ pa, _, _) => physWords s pa [w]
    | (.absent, _, _) | (.migrating _, _, _) | (.malformed, _, _) => s

/-- An entry of kinds 0, 1, 3 and 4 is outstanding while its word is armed or posted (R271, R272). -/
def Group.outstanding (g : Group) : Bool := bit g.resWord 62 || bit g.resWord 63

/-- Raise a fault entry for a group: the next token, the armed word for kinds other than 2, and the entry, held
where the queue is full (R272, R273). Kinds 0, 1, 3 and 4 raise nothing while one is outstanding (R271). -/
def raiseEntry (s : State) (gid : Nat) (f : FaultInfo) : State :=
  match s.group? gid with
  | none => s
  | some g =>
    if f.kind ≠ 2 && g.outstanding then s
    else
      let k := s.kernel g.kernel
      let token := g.token + 1
      let words : List W64 :=
        [BitVec.ofNat 64 (f.loVa % 2 ^ 60), BitVec.ofNat 64 (f.hiVa % 2 ^ 60), BitVec.ofNat 64 (s.blockVa g % 2 ^ 60), BitVec.ofNat 64 (f.pc % 2 ^ 60),
         BitVec.ofNat 64 (f.lanes + token.toNat * 2 ^ 32 + f.opcode * 2 ^ 40 + k.asid * 2 ^ 48 + f.kind * 2 ^ 56 + (if f.write then 2 ^ 59 else 0)),
         BitVec.ofNat 64 (g.core + g.quarter * 2 ^ 8 + f.rt * 2 ^ 10), 0]
      let g := if f.kind = 2 then { g with token := token, ctxToken := some token, ctxPosted := false }
        else { g with token := token, entryKind := f.kind }
      let s := s.setGroup gid g
      let s := if f.kind = 2 then s else setResWord s gid (BitVec.ofNat 64 (2 ^ 62 + token.toNat))
      let p := s.part k.part
      let s := s.setPart k.part { p with held := p.held ++ [{ words := words }] }
      writeHeld s k.part (p.held.length + 1)

/-! ### Registers and their versions (R34–R36, R48, R49, R403) -/

/-- The number of a register for the free choices of R49. -/
def regSlot : VReg → Nat
  | .v n => n.val
  | .x n => 240 + n.val

/-- The line of a dead register (R403): zeros, bound exact. -/
def lineDead (score : Bool) : VLine := { val := Vector.replicate 32 0, bnd := Vector.replicate 32 (scoreB score b16Exact) }
/-- The line of a temporary that its run has not written (R35): zeros, bound unbounded. -/
def lineTemp (score : Bool) : VLine := { val := Vector.replicate 32 0, bnd := Vector.replicate 32 (scoreB score b16Unbounded) }

/-- A register's line as last written. -/
def Group.line (g : Group) (score : Bool) : VReg → VLine
  | .v n => (KMap.get? g.v n.val).getD (lineDead score)
  | .x n => (KMap.get? g.x n.val).getD (lineTemp score)

/-- Set a register's line. -/
def Group.setLine (g : Group) (r : VReg) (l : VLine) : Group :=
  match r with
  | .v n => { g with v := KMap.set g.v n.val l }
  | .x n => { g with x := KMap.set g.x n.val l }

/-- Lanes of `new` where the mask has them, else of `old`. -/
def mixLines (new old : VLine) (lanes : BitVec 32) : VLine :=
  { val := Vector.ofFn fun i : Fin 32 => if bit lanes i.val then new.val[i.val] else old.val[i.val]
    bnd := Vector.ofFn fun i : Fin 32 => if bit lanes i.val then new.bnd[i.val] else old.bnd[i.val] }

/-- An older version of a register is readable (R48, R49): not within a run that has written the register since, and not
after W. -/
def Unsettled.alive (u : Unsettled) (clock run : Nat) : Bool := !u.runs.contains run && decide (clock < u.until_)

/-- What a write of `new`'s register and lanes leaves of an older version: the part in other lanes, and the part in its own. -/
def Unsettled.split (u : Unsettled) (new : Version) : List Unsettled × List Unsettled :=
  match u.alt, new with
  | .v r l m, .v r' _ m' =>
    if r = r' then (if m &&& ~~~m' = 0 then [] else [{ u with alt := .v r l (m &&& ~~~m') }],
      if m &&& m' = 0 then [] else [{ u with alt := .v r l (m &&& m') }])
    else ([u], [])
  | .p n v m, .p n' _ m' =>
    if n = n' then (if m &&& ~~~m' = 0 then [] else [{ u with alt := .p n v (m &&& ~~~m') }],
      if m &&& m' = 0 then [] else [{ u with alt := .p n v (m &&& m') }])
    else ([u], [])
  | .u n _ _, .u n' _ _ => if n = n' then ([], [u]) else ([u], [])
  | .budget _, .budget _ | .shape _, .shape _ | .scale _, .scale _ => ([], [u])
  | _, _ => ([u], [])

/-- Keep the version that a write of run `run` replaces, readable by later runs before a clock; versions older than that are
readable no longer than it is (R48, R49). -/
def keepOld (l : List Unsettled) (old : Version) (until_ run : Nat) : List Unsettled :=
  { alt := old, until_ := until_, runs := [run] } :: l.flatMap fun u =>
    (u.split old).1 ++ (u.split old).2.map fun x => { x with until_ := min x.until_ until_, runs := run :: x.runs }

/-- Forget the versions older than a result that is readable at once, as a long-latency result is when its flag clears (R48). -/
def dropOld (l : List Unsettled) (old : Version) : List Unsettled := l.flatMap fun u => (u.split old).1

/-- The register writes of operations in flight, each with its run: long-latency results and the writes of counter steps
(R47, R246). -/
def Group.inFlight (g : Group) : List (Nat × RegWrite) :=
  g.pend.flatMap (fun p => p.writes.map fun w => (p.run, w)) ++ g.ld.flatMap fun p => p.writes.map fun w => (p.run, w)

/-- Those whose values are known (R384). -/
def Group.shown (g : Group) : List (Nat × RegWrite) :=
  (g.pend.filter fun p => p.known).flatMap (fun p => p.writes.map fun w => (p.run, w)) ++ g.ld.flatMap fun p => p.writes.map fun w => (p.run, w)

/-- A register is a temporary, which belongs to one run (R7). -/
def isTemp : VReg → Bool
  | .x _ => true
  | .v _ => false

/-- The other versions of a vector register that an early reader may find; of a temporary only its own run's (R35). -/
def Group.altsV (g : Group) (clock run : Nat) (r : VReg) : List (VLine × BitVec 32) :=
  (g.unsettled.filterMap fun u => if u.alive clock run then (match u.alt with
      | .v r' l m => if r' = r then some (l, m) else none
      | .u _ _ _ | .p _ _ _ | .budget _ | .shape _ | .scale _ => none) else none) ++
  (g.shown.filterMap fun (i, w) => match w with
      | .v r' l m => if r' = r ∧ (isTemp r = false ∨ i = run) then some (l, m) else none
      | .u _ _ _ | .p _ _ _ => none)

/-- The other versions of a uniform register. -/
def Group.altsU (g : Group) (clock run : Nat) (n : UReg) : List (W64 × B16) :=
  (g.unsettled.filterMap fun u => if u.alive clock run then (match u.alt with
      | .u n' v b => if n' = n then some (v, b) else none
      | .v _ _ _ | .p _ _ _ | .budget _ | .shape _ | .scale _ => none) else none) ++
  (g.shown.filterMap fun (_, w) => match w with
      | .u n' v b => if n' = n then some (v, b) else none
      | .v _ _ _ | .p _ _ _ => none)

/-- The other versions of a predicate, with the lanes each holds for. -/
def Group.altsP (g : Group) (clock run : Nat) (n : PReg) : List (BitVec 32 × BitVec 32) :=
  (g.unsettled.filterMap fun u => if u.alive clock run then (match u.alt with
      | .p n' v m => if n' = n then some (v, m) else none
      | .v _ _ _ | .u _ _ _ | .budget _ | .shape _ | .scale _ => none) else none) ++
  (g.shown.filterMap fun (_, w) => match w with
      | .p n' v m => if n' = n then some (v, m) else none
      | .v _ _ _ | .u _ _ _ => none)

/-- The predicate as last written; p7 is true in every lane (R7). -/
def Group.predNow (g : Group) (n : PReg) : BitVec 32 := if h : n.val < 7 then g.p[n.val] else BitVec.allOnes 32

/-- What an instruction reads registers with: the group, the step's serial number, and the clock. -/
structure View where
  g : Group
  score : Bool
  interlocked : Bool
  serial : Nat
  clock : Nat
  run : Nat

/-- The i-th other version of a register stays unread: the free choice of R49, by step, register and lane. -/
def View.skips (w : View) (slot lane i : Nat) : Bool := Config.newerVersion w.serial (slot + 4096 * i) lane

/-- A vector register as an instruction reads it, its choices made under a slot: each lane is the newest version or, where R49
permits, an older one, bound and value together. -/
def View.lineAs (w : View) (slot : Nat) (r : VReg) : VLine :=
  let cur := w.g.line w.score r
  let alts := if w.interlocked then [] else w.g.altsV w.clock w.run r
  alts.zipIdx.foldl (fun acc a => mixLines a.1.1 acc (a.1.2 &&& maskOf 32 fun i => !w.skips slot i a.2)) cur

/-- A vector register as an instruction reads it. -/
def View.line (w : View) (r : VReg) : VLine := w.lineAs (regSlot r) r

/-- A uniform register as an instruction reads it. -/
def View.uni (w : View) (n : UReg) : W64 × B16 :=
  let alts := if w.interlocked then [] else w.g.altsU w.clock w.run n
  alts.zipIdx.foldl (fun acc a => if w.skips (256 + n.val) 0 a.2 then acc else a.1) (w.g.s[n.val], w.g.sb[n.val])

/-- A predicate as an instruction reads it. -/
def View.pred (w : View) (n : PReg) : BitVec 32 :=
  let alts := if w.interlocked || decide (n.val = 7) then [] else w.g.altsP w.clock w.run n
  alts.zipIdx.foldl (fun acc a =>
    let c := a.1.2 &&& maskOf 32 fun i => !w.skips (320 + n.val) i a.2
    (a.1.1 &&& c) ||| (acc &&& ~~~c)) (w.g.predNow n)

/-- The budget a slice uses (R155): the newest, or the one before an early `SETB`. -/
def View.budget (w : View) (slice : Nat) : B16 :=
  let alts := if w.interlocked then [] else w.g.unsettled.filterMap fun u => if u.alive w.clock w.run then (match u.alt with
      | .budget b => some b
      | .v _ _ _ | .u _ _ _ | .p _ _ _ | .shape _ | .scale _ => none) else none
  alts.zipIdx.foldl (fun acc a => if w.skips 330 slice a.2 then acc else a.1) w.g.budget

/-- A later write drops an outstanding write to the same register in the lanes where the free choice of R49 says
that the later one is the version that stands. -/
def RegWrite.overtaken (new : RegWrite) (serial : Nat) (old : RegWrite) : Option RegWrite :=
  match new, old with
  | .v r _ m, .v r' l' m' =>
    if r = r' then
      let rest := m' &&& ~~~(m &&& maskOf 32 fun i => Config.newerVersion serial ((regSlot r) + 1000) i)
      if rest = 0 then none else some (.v r' l' rest)
    else some old
  | .u n _ _, .u n' _ _ => if n = n' ∧ Config.newerVersion serial (1256 + n.val) 0 then none else some old
  | .p n _ m, .p n' v' m' =>
    if n = n' then
      let rest := m' &&& ~~~(m &&& maskOf 32 fun i => Config.newerVersion serial (1320 + n.val) i)
      if rest = 0 then none else some (.p n' v' rest)
    else some old
  | _, _ => some old

/-- Drop what a later write of run `run` overtakes among the writes in flight. -/
def Group.overtake (g : Group) (serial run : Nat) (new : RegWrite) : Group :=
  if g.inFlight.isEmpty then g
  else
    let left (i : Nat) (l : List RegWrite) : List RegWrite := l.filterMap fun old => match old with
      | .v (.x _) _ _ => if i = run then new.overtaken serial old else some old
      | .v (.v _) _ _ | .u _ _ _ | .p _ _ _ => new.overtaken serial old
    { g with
      pend := g.pend.map fun p => { p with writes := left p.run p.writes }
      ld := g.ld.map fun p => { p with writes := left p.run p.writes } }

/-- Make a register write, with nothing remembered of the old version. -/
def Group.apply (g : Group) (score : Bool) (w : RegWrite) : Group :=
  match w with
  | .v r l m =>
    if m = 0 then g
    else
      let g := g.setLine r (mixLines l (g.line score r) m)
      if m = BitVec.allOnes 32 ∧ !g.poison.isEmpty then { g with poison := g.poison.filter fun x => decide (x / 64 ≠ regSlot r) } else g
  | .u n v b => { g with s := g.s.set n.val v, sb := g.sb.set n.val b }
  | .p n v m => if h : n.val < 7 then { g with p := g.p.set n.val ((v &&& m) ||| (g.p[n.val] &&& ~~~m)) } else g

/-- The version that a write replaces. -/
def Group.before (g : Group) (score : Bool) : RegWrite → Version
  | .v r _ m => .v r (g.line score r) m
  | .u n _ _ => .u n g.s[n.val] g.sb[n.val]
  | .p n _ m => .p n (g.predNow n) m

/-- The older versions after a write at issue: the one it replaces stays readable by later runs for W clocks, but no later run
reads a temporary (R7, R48, R49). -/
def Group.keep (g : Group) (v : View) (w : Nat) (r : RegWrite) : List Unsettled :=
  match r with
  | .v (.x _) _ _ => g.unsettled
  | .v (.v _) _ _ | .u _ _ _ | .p _ _ _ => keepOld g.unsettled (g.before v.score r) (v.clock + w) v.run

/-- Make a fixed-latency write at issue (R48, R49). -/
def Group.write (g : Group) (v : View) (w : Nat) (r : RegWrite) : Group :=
  let g := g.overtake v.serial v.run r
  { g.apply v.score r with unsettled := g.keep v w r }

/-- A late result for a temporary goes to the temporaries of its own run: in progress, kept by a trap or by a parked gang, or
nowhere once the run has ended (R7, R35, R86). -/
def Group.landTemp (g : Group) (score : Bool) (run : Nat) (n : Fin 8) (l : VLine) (m : BitVec 32) : Group :=
  let put (x : KMap VLine) : KMap VLine := KMap.set x n.val (mixLines l ((KMap.get? x n.val).getD (lineTemp score)) m)
  let mine (r : Option Run) : Bool := r.any fun r => decide (r.id = run)
  if mine g.run then { g with x := put g.x }
  else if mine g.resume then { g with savedX := put g.savedX }
  else { g with parks := g.parks.map fun p => if mine p.run then { p with x := put p.x } else p }

/-- Write a late result of run `run`: it is readable at once, and no older version is (R47, R48). -/
def Group.land (g : Group) (score : Bool) (run : Nat) (w : RegWrite) : Group :=
  match w with
  | .v (.x n) l m => g.landTemp score run n l m
  | .v (.v _) _ _ | .u _ _ _ | .p _ _ _ => { g.apply score w with unsettled := dropOld g.unsettled (g.before score w) }

/-- Write the results of an operation of run `run`. -/
def Group.landAll (g : Group) (score : Bool) (run : Nat) (ws : List RegWrite) : Group := ws.foldl (fun g w => g.land score run w) g

/-- The run in progress, as the run that a held instruction's result belongs to. -/
def Group.runId (g : Group) : Nat := match g.run with
  | some r => r.id
  | none => 0

/-- The shape and scale records an instruction uses (R371, R373): the newest, or one before an early `MSHAPE` or `MSCALE`. -/
def View.record3 (w : View) (slot : Nat) (now : List W64) (pick : Version → Option (List W64)) : List W64 :=
  let alts := if w.interlocked then [] else w.g.unsettled.filterMap fun u => if u.alive w.clock w.run then pick u.alt else none
  alts.zipIdx.foldl (fun acc a => if w.skips slot 0 a.2 then acc else a.1) now
def View.shape (w : View) : List W64 := w.record3 331 w.g.shape fun v => match v with
  | .shape l => some l
  | .v _ _ _ | .u _ _ _ | .p _ _ _ | .budget _ | .scale _ => none
def View.scale (w : View) : List W64 := w.record3 332 w.g.scale fun v => match v with
  | .scale l => some l
  | .v _ _ _ | .u _ _ _ | .p _ _ _ | .budget _ | .shape _ => none

/-- Forget versions that nothing can read any more. -/
def Group.settle (g : Group) (clock : Nat) : Group :=
  { g with unsettled := g.unsettled.filter fun u => decide (clock < u.until_) }

/-! ### The saved copy, taking a trap and returning (R425–R434) -/

/-- T, the offset of the block's tail (R399). -/
def blockTail (v : Nat) : Nat := 2560 + 192 * v

/-- A reconvergence-stack entry's bits (R70). -/
def StackEntry.word (e : StackEntry) : W64 :=
  let kind := match e.kind with
    | .rejoin => 1
    | .pending => 2
    | .call => 3
  BitVec.ofNat 64 (kind * 2 ^ 62 + (if e.jv then 2 ^ 61 else 0) + e.mask.toNat * 2 ^ 32 + e.pc.toNat)

/-- The slice words of the block (R400). -/
def Slice.word0 (sl : Slice) (codeVa : Nat) : W64 :=
  BitVec.ofNat 64 ((sl.pc.toNat - codeVa) / 4 % 2 ^ 32 + sl.mode.toNat * 2 ^ 32 + sl.act.toNat * 2 ^ 56 + sl.exited.toNat * 2 ^ 60)
def Slice.word1 (sl : Slice) : W64 := BitVec.ofNat 64 (sl.stack.length + (if sl.parked then 32 else 0))

/-- Word at a block offset among those that the saved copy holds (R400, R430); `none` elsewhere. -/
def savedWord (g : Group) (codeVa v off : Nat) : Option W64 :=
  let t := blockTail v
  if off % 8 ≠ 0 then none
  else if off < 0x200 then some (g.s.toList.getD (off / 8) 0)
  else if off < 0x280 then
    let b (i : Nat) : Nat := ((g.sb.toList.getD ((off - 0x200) / 2 + i) 0).toNat) * 2 ^ (16 * i)
    some (BitVec.ofNat 64 (b 0 + b 1 + b 2 + b 3))
  else if off < 0x2A0 then
    let p (i : Nat) : Nat := (g.p.toList.getD ((off - 0x280) / 4 + i) 0).toNat
    some (BitVec.ofNat 64 (p 0 + p 1 * 2 ^ 32))
  else if off < 0x320 then
    let sl := g.slice ((off - 0x2A0) / 16)
    some (if (off - 0x2A0) % 16 = 0 then sl.word0 codeVa else sl.word1)
  else if off = 0x320 then some (BitVec.ofNat 64 (g.budget.toNat + g.sticky.toNat * 2 ^ 16 + g.fpEnable.toNat * 2 ^ 25))
  else if 0x370 ≤ off ∧ off < 0x388 then some (wordAt g.shape ((off - 0x370) / 8))
  else if 0x388 ≤ off ∧ off < 0x3A0 then some (wordAt g.scale ((off - 0x388) / 8))
  else if t ≤ off ∧ off < t + 0x400 then
    let st := (g.slice ((off - t) / 128)).stack.reverse
    some (match st[(off - t) % 128 / 8]? with
      | some e => e.word
      | none => 0)
  else none

/-- The offsets of the saved copy (R430). -/
def savedOffsets (v : Nat) : List Nat :=
  (List.range 101).map (8 * ·) ++ (List.range 6).map (fun i => 0x370 + 8 * i) ++ (List.range 128).map fun i => blockTail v + 8 * i

/-- The saved copy of a group (R429 step 3). -/
def savedCopy (g : Group) (codeVa v : Nat) : KMap W64 :=
  (savedOffsets v).filterMap fun off => (savedWord g codeVa v off).map fun w => (off, w)

/-- A stack entry read back; `none` for an empty slot (R70). -/
def stackEntryOf (w : W64) : Option StackEntry :=
  let mk (k : StackKind) : StackEntry := { kind := k, jv := bit w 61, mask := BitVec.ofNat 4 (bits w 35 32), pc := BitVec.ofNat 32 (bits w 31 0) }
  match bits w 63 62 with
  | 1 => some (mk .rejoin)
  | 2 => some (mk .pending)
  | 3 => some (mk .call)
  | _ => none

/-- A group with every field of R430 but the temporaries read back from block words; `full` are the lanes of a slice. -/
def restoreWords (g : Group) (full : BitVec 4) (codeVa v : Nat) (w : Nat → W64) : Group :=
  let half (off : Nat) : W32 := BitVec.ofNat 32 (if off % 8 = 0 then bits (w off) 31 0 else bits (w (off - 4)) 63 32)
  let quarter (off : Nat) : B16 := BitVec.ofNat 16 (bits (w (off - off % 8)) (off % 8 * 8 + 15) (off % 8 * 8))
  let b := w 0x320
  { g with
    s := Vector.ofFn fun i : Fin 64 => w (8 * i.val)
    sb := Vector.ofFn fun i : Fin 64 => quarter (0x200 + 2 * i.val)
    p := Vector.ofFn fun i : Fin 7 => half (0x280 + 4 * i.val)
    slices := Vector.ofFn fun i : Fin 8 =>
      let a := w (0x2A0 + 16 * i.val)
      let d := w (0x2A8 + 16 * i.val)
      { pc := BitVec.ofNat 64 (codeVa + 4 * bits a 31 0), mode := BitVec.ofNat 24 (bits a 55 32), oldMode := none
        act := BitVec.ofNat 4 (bits a 59 56) &&& full, exited := BitVec.ofNat 4 (bits a 63 60), parked := bit d 5, notBefore := 0
        stack := ((List.range (min 16 (bits d 4 0))).filterMap fun k => stackEntryOf (w (blockTail v + 128 * i.val + 8 * k))).reverse }
    budget := BitVec.ofNat 16 (bits b 15 0), sticky := BitVec.ofNat 9 (bits b 24 16), fpEnable := BitVec.ofNat 5 (bits b 29 25)
    shape := [w 0x370, w 0x378, w 0x380], scale := [w 0x388, w 0x390, w 0x398] }

/-- The handler-table entry of an identifier (R428): the handler's code where it is enabled and usable; `prot`: by a group of a protected
launch, whose needs R57 tests (DEDUCED, log 124). -/
def handlerOf (s : State) (part asid : Nat) (prot : Bool) : Option Code :=
  let base := bits (s.part part).regs.thBase 51 12 * 4096 + 16 * asid
  let w0 := physWord s base
  let w1 := physWord s (base + 8)
  if bit w1 16 then handlerCode s asid (bits w0 59 0) (bits w1 15 0) prot else none

/-- What a trapping instruction is: its slices, PC, words, and place in the run. -/
structure TrapSite where
  slices : BitVec 8
  pc : W64
  word : W32
  run : Option Run

/-- TAKING A TRAP (R429, R431): the frame, the saved copy, then the handler's entry; a group in handler mode, or
without a usable handler, is killed. -/
def takeTrap (s : State) (gid : Nat) (site : TrapSite) (t : TrapInfo) : State :=
  match s.group? gid with
  | none => s
  | some g =>
    let k := s.kernel g.kernel
    let v := k.budgetOf g.role
    if g.inHandler then killGroup s gid fun g => { groupRec s g 0x06 t.code.toNat site.pc.toNat with }
    else
      let inrun := match site.run with
        | some r => r.begun
        | none => false
      let remaining := match site.run with
        | some r => r.words.length
        | none => 0
      let w1 := t.code.toNat + remaining * 2 ^ 8 + (if inrun then 2 ^ 13 else 0) + site.slices.toNat * 2 ^ 14 + t.step * 2 ^ 22 +
        (if t.legacy then 2 ^ 26 else 0) + (if t.async then 2 ^ 27 else 0) + 2 ^ 28 + site.word.toNat * 2 ^ 32
      let frame := BitVec.ofNat 64 (bits site.pc 59 0) :: BitVec.ofNat 64 w1 :: (List.range 6).map fun i => wordAt t.detail i
      let g := g.mapSlices site.slices fun _ sl => { sl with pc := site.pc }
      let g := { g with frame := frame, savedX := if inrun then g.x else [], saved := savedCopy g k.code.va v
                        resume := site.run, run := none, hold := none }
      match handlerOf s k.part k.asid k.prot with
      | none => killGroup (s.setGroup gid g) gid fun g => groupRec s g 0x07 t.code.toNat site.pc.toNat
      | some h =>
        let s := pmcCore s g.core (s.vfOf k.asid) 9 1
        let g := { g with handler := some h, x := [], entryExited := g.slices.toList.map Slice.exited }
        s.setGroup gid (g.mapSlices (g.liveSlices k) fun _ sl =>
          { sl with pc := BitVec.ofNat 64 h.entry, mode := 0, oldMode := none, act := k.fullMask &&& ~~~sl.exited, stack := [], parked := false, notBefore := 0 })

/-- A group in handler mode starts again from the handler's entry, its live state discarded (R431). -/
def reenterHandler (s : State) (gid : Nat) : State :=
  match s.group? gid with
  | none => s
  | some g => match g.handler with
    | none => s
    | some h =>
      let k := s.kernel g.kernel
      s.setGroup gid { g.mapSlices (g.liveSlices k) (fun _ sl =>
          { sl with pc := BitVec.ofNat 64 h.entry, mode := 0, oldMode := none, act := k.fullMask &&& ~~~sl.exited, stack := [], parked := false, notBefore := 0 })
        with run := none, hold := none, x := [] }

/-! ### Code words -/

/-- A word of memory as the fetch reads it, where its page is present, whatever the page permits. -/
def fetchWord (s : State) (asid va : Nat) : Option W32 :=
  match (walkNow s asid va).1 with
  | .page _ pa =>
    some (BitVec.ofNat 32 (Memory.readN s.mem pa 4))
  | .absent | .migrating _ | .malformed => none

/-- Enter lines in an instruction cache of 1,024 lines, 8-way (R91): a set keeps its eight latest. A line's number is its physical
address in 128-byte units, and its set the number modulo 128. -/
def icacheAdd (cache lines : List Nat) : List Nat :=
  let l := lines.dedup ++ cache.filter fun x => !lines.contains x
  (l.zipIdx.filter fun x => decide (((l.take x.2).filter fun y => decide (y % 128 = x.1 % 128)).length < 8)).map (·.1)

/-- A virtual address lies in the code section. -/
def Code.holds (c : Code) (pc : Nat) : Bool := decide (c.va ≤ pc) && decide (pc + 4 ≤ c.va + c.size)

/-- The word at a code address, where its page is present (R31). -/
def codeWord (s : State) (g : Group) (pc : Nat) : Option W32 :=
  if (s.codeOf g).holds pc then fetchWord s (s.kernel g.kernel).asid pc else none

/-- next_header(pc) of a run-ending instruction (R71). DESIGN CHOICE (log 95): where the page of the word at pc + 4 is absent,
which the rule does not speak of, that word counts as no trailer. -/
def nextHeader (s : State) (g : Group) (pc : Nat) : Nat :=
  match codeWord s g (pc + 4) with
  | some w => if bits w 31 24 = 0xF1 then pc + 8 else pc + 4
  | none => pc + 4

/-! ### Issue -/

/-- The registers an instruction names (R22, R34–R36): fields that name a pair under the 64-bit types, ranges of a
given length or of a length that MODE gives (R185), uniform registers and predicates. -/
structure Uses where
  regs : List VReg := []
  ranges : List (VReg × Nat) := []
  byMode : List (VReg × (BitVec 24 → Nat)) := []
  u : List UReg := []
  p : List PReg := []

def srcRegs : Src → List VReg
  | .reg r => [r]
  | .zero | .one | .lane | .slice => []
def dstRegs : Dst → List VReg
  | .reg r => [r]
  | .discard => []

/-- The MODE fields (R37). -/
def modeType (m : BitVec 24) : Nat := bits m 23 19
def modeRnd (m : BitVec 24) : Nat := bits m 18 16
def modeTier (m : BitVec 24) : Nat := bits m 10 9
def modeBnd (m : BitVec 24) : Nat := bits m 8 7
def modeSat (m : BitVec 24) : Bool := bit m 6
def modeFtz (m : BitVec 24) : Bool := bit m 5
/-- A 64-bit MODE type (R36). -/
def wideMode (m : BitVec 24) : Bool := match tyOf (modeType m) with
  | some t => t.is64
  | none => false

/-- The register after r. -/
def regNext : VReg → VReg
  | .v n => if h : n.val + 1 < 240 then .v ⟨n.val + 1, h⟩ else .v n
  | .x n => if h : n.val + 1 < 8 then .x ⟨n.val + 1, h⟩ else .x n
def regNum : VReg → Nat
  | .v n => n.val
  | .x n => n.val

/-- n registers from r lie within the role budget, or within x0–x7 (R22, R185). -/
def rangeOk (v : Nat) (r : VReg) (n : Nat) : Bool := match r with
  | .v i => decide (i.val + n ≤ v)
  | .x i => decide (i.val + n ≤ 8)

/-- The register fields are legal for the role and the MODE type (R22, R36). -/
def Uses.ok (u : Uses) (v : Nat) (mode : BitVec 24) : Bool :=
  let wide := wideMode mode
  u.regs.all (fun r => if wide then decide (regNum r % 2 = 0) && rangeOk v r 2 else rangeOk v r 1) &&
    (u.ranges ++ u.byMode.map fun p => (p.1, p.2 mode)).all fun (r, n) => decide (n = 0) || rangeOk v r n

/-- The registers of a range. -/
def rangeRegs (r : VReg) (n : Nat) : List VReg := (List.range (n - 1)).foldl (fun l _ => match l with
  | h :: t => regNext h :: h :: t
  | [] => []) [r]

/-- Every vector register that an instruction reads or writes. -/
def Uses.all (u : Uses) (mode : BitVec 24) : List VReg :=
  (u.regs.flatMap fun r => if wideMode mode then [r, regNext r] else [r]) ++
    (u.ranges ++ u.byMode.map fun p => (p.1, p.2 mode)).flatMap fun (r, n) => if n = 0 then [] else rangeRegs r n

/-- The predicate that MODE names as the guard (R37). -/
def guardReg (mode : BitVec 24) : PReg := ⟨bits mode 13 11 % 8, Nat.mod_lt _ (by decide)⟩

/-- The accesses in flight whose results have no value yet: atomics with lanes to perform, and parked accesses. -/
def Group.owedAccesses (g : Group) : List Access :=
  g.ld.filterMap (fun x => if x.performed then none else x.todo) ++
    g.parks.filterMap fun p => if p.cause = .done then none else some p.acc

/-- The registers that an access in flight will write. -/
def Access.owesV (a : Access) : List VReg := match a.dst with
  | some r => if wideMode a.mode then [r, regNext r] else [r]
  | none => []
def Access.owesU (a : Access) : List UReg := a.udst.toList ++ (match a.op with
  | .enq d _ => [d]
  | _ => [])
def Access.owesP (a : Access) : List PReg := if a.op = .atomic .addb then [guardReg a.mode] else []

/-- A vector register that an `ACCRD` in flight will write. -/
def Group.dueV (g : Group) (run : Nat) (r : VReg) : Bool := g.inFlight.any fun (i, w) => match w with
  | .v r' _ _ => decide (r' = r) && (!isTemp r || decide (i = run))
  | .u _ _ _ | .p _ _ _ => false

/-- The scoreboard of interlocked mode (R53): a register of the instruction has an outstanding write. -/
def busy (g : Group) (clock run : Nat) (mode : BitVec 24) (u : Uses) : Bool :=
  let owed := g.owedAccesses
  (u.all mode).any (fun r => !(g.altsV clock run r).isEmpty || g.dueV run r || owed.any fun a => a.owesV.contains r) ||
    u.u.any (fun n => !(g.altsU clock run n).isEmpty || owed.any fun a => a.owesU.contains n) ||
    (guardReg mode :: u.p).any fun n => !(g.altsP clock run n).isEmpty || owed.any fun a => a.owesP.contains n

/-- The gang that issues an instruction, and what it issues with. -/
structure Gang where
  gid : Nat
  g : Group
  k : Kernel
  run : Run
  mode : BitVec 24
  i : Instr
  words : Nat
  core : Nat
  view : View

/-- What the meaning of an instruction word comes to. -/
inductive Result where
  /-- Done: the gang goes on past the instruction. -/
  | done (s : State)
  /-- A stall: the PC is kept, and one schedule slip is counted for it (R47, R304); `slip` false counts none. -/
  | stay (s : State) (slip : Bool)
  /-- The run is held at the instruction until a unit is done. -/
  | held (s : State) (h : Hold)
  /-- Some slices left the run, their PCs already set; `taken` when by a taken transfer (R84). -/
  | leave (s : State) (slices : BitVec 8) (taken : Bool)
  /-- A trap at the instruction; nothing else changes. -/
  | trap (t : TrapInfo)
  /-- The group's run, place or state has been changed already. -/
  | gone (s : State)

/-- A synchronous trap. -/
def trapOf (code : BitVec 8) (detail : List W64) : TrapInfo := { code := code, detail := detail, async := false, legacy := false, step := 0 }

/-- Trap 0x01 with a cause (R427); word 3 is the active-lane mask. -/
def trapIllegal (cause : Nat) (prefixed lanes : BitVec 32) : TrapInfo :=
  trapOf 0x01 [BitVec.ofNat 64 (prefixed.toNat + cause * 2 ^ 32), BitVec.ofNat 64 lanes.toNat]

/-- The length in words of the instruction at the head of a run's words (R50, R51). -/
def headLen : List W32 → Nat
  | w :: _ => if bits w 31 24 = 0xF2 ∨ bits w 31 24 = 0xF3 then 2 else 1
  | [] => 1

/-- The lowest slice of a mask. -/
def firstSlice (m : BitVec 8) : Nat := (lowestBit m).getD 0

/-- The MODE that a slice held before an early `SETM` of another run, while an instruction may still use it (R96). -/
def Slice.early (sl : Slice) (clock run : Nat) : Option (BitVec 24) :=
  match sl.oldMode with
  | some (m, until_, r) => if clock < until_ ∧ r ≠ run then some m else none
  | none => none

/-- The MODE that a gang uses for its next instruction (R96): the newest, or the one before an early `SETM` of another run. For
a run's first instruction the gang was formed by that choice; afterwards the old MODE is open where every slice of the gang
holds the same one. -/
def usedMode (s : State) (interlocked : Bool) (run : Run) (g : Group) : BitVec 24 :=
  let sl := g.slice (firstSlice run.slices)
  match sl.early s.clock run.id with
  | some m =>
    if !interlocked && (setBitsOf run.slices).all (fun j => decide ((g.slice j).early s.clock run.id = some m)) &&
        (if run.begun then !Config.newerVersion s.serial 340 0 else run.early) then m
    else sl.mode
  | none => sl.mode

/-- The gang that issues next: the focus group's run in progress, seated and not held (R87). -/
def gangOf (i : Instr) (s : State) : Option Gang :=
  match s.group? s.focus with
  | none => none
  | some g => match g.run, g.hold with
    | some run, none =>
      if g.seated && !run.words.isEmpty then
        let k := s.kernel g.kernel
        let il := (s.codeOf g).interlocked
        let g := g.settle s.clock
        some { gid := s.focus, g := g, k := k, run := run, mode := usedMode s il run g, i := i
               words := headLen run.words, core := g.core
               view := { g := g, score := k.score, interlocked := il, serial := s.serial, clock := s.clock, run := run.id } }
      else none
    | _, _ => none

/-- Lanes of the gang's active masks, whatever the guard. -/
def Gang.all (c : Gang) : BitVec 32 := c.g.actLanes c.k c.run.slices
/-- The guard's lanes (R71 guard_mask). -/
def Gang.guard (c : Gang) : BitVec 32 :=
  if bit c.mode 15 then
    let p := c.view.pred (guardReg c.mode)
    if bit c.mode 14 then ~~~p else p
  else BitVec.allOnes 32
/-- The active lanes: those of the active masks whose guard holds (R19, R37). -/
def Gang.lanes (c : Gang) : BitVec 32 := c.all &&& c.guard
/-- The gang lacks a slice of the group that has not exited. -/
def Gang.lacksSlice (c : Gang) : Bool := decide (c.g.liveSlices c.k &&& ~~~c.run.slices ≠ 0)
/-- The instruction is the last of its run's body (R76). -/
def Gang.last (c : Gang) : Bool := decide (c.run.words.length ≤ c.words)
/-- The PC of the instruction: of the prefix of a pair (R52). -/
def Gang.pc (c : Gang) : Nat := c.run.pc.toNat
/-- The opcode of the instruction. -/
def Gang.opcode (c : Gang) : Nat := bits (encodeWord c.i) 31 24
/-- The prefixed word of a pair, else 0 (R427). -/
def Gang.prefixed (c : Gang) : W32 := if c.words = 2 then encodeWord c.i else 0
/-- The group's virtual function. -/
def Gang.vf (c : Gang) (s : State) : Nat := s.vfOf c.k.asid
/-- Where the gang traps. -/
def Gang.site (c : Gang) : TrapSite :=
  { slices := c.run.slices, pc := c.run.pc, word := c.run.words.headD 0, run := some c.run }
/-- Trap 0x01 of the gang's instruction with a cause. -/
def Gang.illegal (c : Gang) (cause : Nat) : Result := .trap (trapIllegal cause c.prefixed c.lanes)
/-- Trap 0x02 (R427): the refused or current MODE. -/
def Gang.badMode (c : Gang) : Result := .trap (trapOf 0x02 [BitVec.ofNat 64 c.mode.toNat, BitVec.ofNat 64 c.lanes.toNat])

/-- The clocks from a run's end, or from a transfer out of it, to the next run (R44); interlocked mode ignores the gap (R53). -/
def Run.after (r : Run) (il : Bool) : Nat := if il then 1 else r.gap + 1

/-- End the group's run; its next run waits for the gap (R44). -/
def Group.endRun (g : Group) (r : Run) (il : Bool) (clock : Nat) : Group :=
  { g with run := none, x := [], notBefore := clock + r.after il, givewayDue := g.givewayDue || r.giveway }

/-- The gang goes on past n words; slices of `leave` have left the run, their PCs already set, and after a taken transfer their
next run waits for the gap and the redirect, from this clock (R84, R85). -/
def advance (s : State) (gid n : Nat) (leave : BitVec 8) (taken : Bool) : State :=
  match s.group? gid with
  | none => s
  | some g => match g.run with
    | none => s
    | some r =>
      let il := (s.codeOf g).interlocked
      let stay := r.slices &&& ~~~leave
      let rest := r.words.drop n
      let pc := r.pc + BitVec.ofNat 64 (4 * n)
      let s := pmcCore s g.core (s.vfOf (s.kernel g.kernel).asid) 2 1
      let g := if taken then g.mapSlices leave fun _ sl => { sl with notBefore := s.clock + max (r.after il) 3 } else g
      if rest.isEmpty || stay = 0 then
        let target := if r.trailer then pc + 4 else pc
        let g := g.mapSlices stay fun _ sl => { sl with pc := target }
        s.setGroup gid (g.endRun r il s.clock)
      else
        let g := g.mapSlices stay fun _ sl => { sl with pc := pc }
        s.setGroup gid { g with run := some { r with slices := stay, words := rest, pc := pc, begun := true, micro := 0, slipped := false, stalled := false } }

/-- The step's clock and serial number pass. -/
def tick (s : State) : State := { s with clock := s.clock + 1, serial := s.serial + 1 }

/-- The run stands at a legacy instruction, run as micro-steps (R437). -/
def legacyHead (r : Run) : Bool :=
  let op := bits (r.words.headD 0) 31 24
  decide (0xF8 ≤ op) && decide (op ≤ 0xFB)

/-- A trap of a micro-step is taken with code 0x30 (R438, R427). -/
def legacyTrap (r : Run) (t : TrapInfo) : TrapInfo :=
  if legacyHead r then
    { code := 0x30, detail := BitVec.ofNat 64 t.code.toNat :: (t.detail.take 5), async := false, legacy := true, step := r.micro }
  else t

/-- What a meaning came to, as the next state. -/
def finish (s : State) (c : Gang) : Result → State
  | .done s => tick (advance s c.gid c.words 0 false)
  | .leave s m taken => tick (advance s c.gid c.words m taken)
  | .held s h => tick (s.modGroup c.gid fun g => { g with hold := some h })
  | .stay s slip =>
    let s := if slip && !c.run.slipped then
        pmcCore (s.modGroup c.gid fun g => { g with run := g.run.map fun r => { r with slipped := true } }) c.core (c.vf s) 3 1
      else s
    tick (s.modGroup c.gid fun g => { g with run := g.run.map fun r => { r with stalled := true } })
  | .trap t => tick (takeTrap s c.gid c.site (legacyTrap c.run t))
  | .gone s => tick s

/-! ### Context-cache lines and poison (R26, R402, R441) -/

/-- The vector registers that an instruction with a write-only vector destination reads, and whether it reads its register
ranges; `none` where every register it names is read. -/
def inputsOf (i : Instr) : Option (List VReg × Bool) :=
  match i with
  | .iadd _ a b | .isub _ a b | .imul _ a b | .imulh _ a b | .imin _ a b | .imax _ a b | .and _ a b | .or _ a b | .xor _ a b
  | .andn _ a b | .shl _ a b | .shr _ a b | .sar _ a b | .rotl _ a b | .bfe _ a b | .sel _ a b
  | .fadd _ a b none | .fsub _ a b none | .fmul _ a b none | .fmin _ a b none | .fmax _ a b none | .fscale _ a b
  | .fcpys _ a b | .bset _ a b | .badd _ a b | .fdivf _ a b | .shfl _ a b | .dq _ a b => some (srcRegs a ++ srcRegs b, false)
  | .lea64 _ a b | .iadd64 _ a b => some (srcRegs b ++ (srcRegs a).flatMap (fun r => [r, regNext r]), false)
  | .iabs _ a | .clz _ a | .popc _ a | .brev _ a | .mov _ a | .shi _ a _ _ | .iaddi _ a _ _ | .fclass _ a _ | .frnd _ a | .bget _ a | .bclr _ a
  | .rcp _ a | .rsq _ a | .sqrt _ a | .exp2 _ a | .log2 _ a | .sinpi _ a | .cospi _ a | .tanh _ a | .sigm _ a
  | .unpk _ a _ _ | .shflx _ a _ _ _ | .bcst _ a _ | .redl _ a _ _ _ | .scanl _ a _ _ _ _ => some (srcRegs a, false)
  | .movi _ _ _ | .stov _ _ | .dech _ _ _ | .decz _ _ _ | .accrd _ _ _ _ => some ([], false)
  | .pack _ _ | .qblk _ _ _ _ => some ([], true)
  | .qapply _ _ b => some (srcRegs b, true)
  | .ld _ o _ | .tld _ o _ | .tldx _ o _ | .tldt _ o _ => some (srcRegs o, false)
  | .ldg _ a _ => some ((srcRegs a).flatMap fun r => [r, regNext r], false)
  | _ => none

/-- The vector registers that an instruction reads. -/
def readsOf (i : Instr) (u : Uses) (mode : BitVec 24) : List VReg :=
  match i, inputsOf i with
  | .rnext _ _ b, _ => srcRegs b
  | _, none => u.all mode
  | _, some (l, ranges) =>
    (l.flatMap fun r => if wideMode mode then [r, regNext r] else [r]) ++
      (if ranges then (u.ranges ++ u.byMode.map fun p => (p.1, p.2 mode)).flatMap fun (r, n) => if n = 0 then [] else rangeRegs r n else [])

/-- An instruction reads a poisoned line (R441). -/
def readsPoison (g : Group) (i : Instr) (u : Uses) (mode : BitVec 24) : Bool :=
  !g.poison.isEmpty && (readsOf i u mode).any fun r => g.poison.any fun x => decide (x / 64 = regSlot r)

/-- The first register of an instruction whose line the context cache does not hold (R26). -/
def missingLine (g : Group) (u : Uses) (mode : BitVec 24) : Option Nat :=
  if g.absent.isEmpty then none
  else (u.all mode).findSome? fun r => match r with
    | .v n => if g.absent.contains n.val then some n.val else none
    | .x _ => none

/-- Issue an instruction word: an asynchronous trap first, the scoreboard of interlocked mode,
the context-cache lines and their poison, the register fields; then the meaning. Without an issuing gang it faults. -/
def issue (i : Instr) (s : State) (uses : Uses) (body : Gang → Result) : Host.Outcome State Fault Refusal :=
  match gangOf i s with
  | none => .fault .noIssuer
  | some c =>
    let s := s.setGroup c.gid c.g
    match (if c.run.micro = 0 then c.g.asyncTraps else []) with
    | t :: rest => .next (tick (takeTrap (s.setGroup c.gid { c.g with asyncTraps := rest }) c.gid c.site t))
    | [] =>
      .next (finish s c
        (if c.view.interlocked && busy c.g s.clock c.run.id c.mode uses then .stay s false
         else if (missingLine c.g uses c.mode).isSome then
           .stay (if c.g.ctxMiss.isSome then s
             else pmcCore (s.modGroup c.gid fun g => { g with ctxMiss := missingLine c.g uses c.mode }) c.core (c.vf s) 5 1) false
         else if readsPoison c.g i uses c.mode then .gone (killPoison s c.gid)
         else if !uses.ok (c.k.budgetOf c.g.role) c.mode then c.illegal 2
         else body c))

/-- The gang of a group's run in progress, held or not, reading every register as last written: for units that finish an
instruction whose run is held. -/
def heldGang (s : State) (gid : Nat) : Option Gang :=
  match s.group? gid with
  | none => none
  | some g => match g.run with
    | none => none
    | some run =>
      let k := s.kernel g.kernel
      let i := match decode run.words with
        | .ok (i, _) => i
        | .error _ => .nop
      some { gid := gid, g := g, k := k, run := run, mode := (g.slice (firstSlice run.slices)).mode, i := i, words := headLen run.words
             core := g.core
             view := { g := g, score := k.score, interlocked := true, serial := s.serial, clock := s.clock, run := run.id } }

/-- Register writes in program order after those in flight, which they may overtake (R49, R246). -/
def overtakeAll (g : Group) (serial run : Nat) (ws : List RegWrite) : Group := ws.foldl (fun g w => g.overtake serial run w) g

/-- The held instruction is done: the run goes on past it, or a legacy instruction at its next micro-step. -/
def goOn (s : State) (gid : Nat) : State :=
  match s.group? gid with
  | none => s
  | some g => match g.run with
    | none => s.setGroup gid { g with hold := none, parkedSince := none }
    | some r =>
      let g := { g with parkedSince := none }
      if legacyHead r then s.setGroup gid { g with hold := none, run := some { r with micro := r.micro + 1, stalled := false } }
      else advance (s.setGroup gid { g with hold := none }) gid (headLen r.words) 0 false

/-- The held instruction traps. -/
def trapHeld (s : State) (gid : Nat) (t : TrapInfo) : State :=
  match heldGang s gid with
  | some c => takeTrap (s.setGroup gid { c.g with hold := none, parkedSince := none }) gid c.site (legacyTrap c.run t)
  | none => s

/-- A word that no instruction's encoding admits traps 0x01 with the cause of its fault (R33, R404, R427). -/
def badWord (e : DecodeError) (s : State) : State :=
  match gangOf .nop s with
  | none => tick s
  | some c =>
    let s := s.setGroup c.gid c.g
    match c.g.asyncTraps with
    | t :: rest => tick (takeTrap (s.setGroup c.gid { c.g with asyncTraps := rest }) c.gid c.site t)
    | [] =>
      let second : W32 := if c.words = 2 then c.run.words.getD 1 0 else 0
      let cause := match e with
        | .reservedField => 1
        | .register => 2
        | .misplaced => 3
      tick (takeTrap s c.gid c.site (trapIllegal cause second c.lanes))

/-- Issue an instruction that ends its run: anywhere else it traps (R76, R404, R432). -/
def issueLast (i : Instr) (s : State) (uses : Uses) (body : Gang → Result) : Host.Outcome State Fault Refusal :=
  issue i s uses fun c => if c.last then body c else c.illegal 3

end Sys2Proof.Machine
end

