-- ==== Sys2Proof/Machine/Operands.lean ====
section
/-! DEFINITION. Operand forms: vector registers, pairs and special sources as operands, and the writing of
destinations (R34–R36, R98, R123). -/

namespace Sys2Proof.Machine

/-- An operand as read: each lane's value, zero-extended from 32 bits or the pair's 64, and its bound. -/
structure Opnd where
  val : Vector W64 32
  bnd : Vector B16 32
  deriving DecidableEq, Repr

/-- An operand that holds one value and bound in every lane. -/
def Opnd.const (v : W64) (b : B16) : Opnd := { val := Vector.replicate 32 v, bnd := Vector.replicate 32 b }

/-- The same sub-element value in every sub-element of a lane. -/
def splat (t : Ty) (x : Nat) : Nat := (List.range t.n).foldl (fun a i => a + x * 2 ^ (i * t.w)) 0

/-- The value 1 of a type (R34). -/
def oneOf (t : Ty) : Nat := match t.kind with
  | .flt f => f.encode (.fin false 1)
  | .sint | .uint => 1
  | .b16 => 0x7F00

/-- A register as an operand: one register, or the pair that its even register names, both of one version (R36, R49, R126). -/
def View.opnd (w : View) (wide : Bool) (r : VReg) : Opnd :=
  let lo := w.line r
  if wide then
    let hi := w.lineAs (regSlot r) (regNext r)
    { val := Vector.ofFn fun i : Fin 32 => hi.val[i.val] ++ lo.val[i.val], bnd := lo.bnd }
  else { val := Vector.ofFn fun i : Fin 32 => lo.val[i.val].setWidth 64, bnd := lo.bnd }

/-- The lane and slice index sources (R34). -/
def laneIndex : Vector W64 32 := Vector.ofFn fun i : Fin 32 => BitVec.ofNat 64 i.val
def sliceIndex (per : Nat) : Vector W64 32 := Vector.ofFn fun i : Fin 32 => BitVec.ofNat 64 (i.val / per)

/-- A source field as an operand, the one source giving `one` (R34). -/
def Gang.source (c : Gang) (wide : Bool) (one : Nat) (a : Src) : Opnd :=
  let ex := scoreB c.k.score b16Exact
  match a with
  | .reg r => c.view.opnd wide r
  | .zero => Opnd.const 0 ex
  | .one => Opnd.const (BitVec.ofNat 64 one) ex
  | .lane => { val := laneIndex, bnd := Vector.replicate 32 ex }
  | .slice => { val := sliceIndex c.k.perSlice, bnd := Vector.replicate 32 ex }

/-- A source field under a MODE type (R34, R36). -/
def Gang.opnd (c : Gang) (t : Ty) (a : Src) : Opnd := c.source t.is64 (splat t (oneOf t)) a

/-- A source field of `LEA64` and `IADD64`, read as an integer whatever the MODE type (R36, R110, R111). -/
def Gang.opndInt (c : Gang) (wide : Bool) (a : Src) : Opnd := c.source wide 1 a

/-- The one source as raw bits: the value 1 of the MODE type in every sub-element of a register, or of both registers of a
pair (R34, R36). -/
def oneBits (mode : BitVec 24) (wide : Bool) : Nat := match tyOf (modeType mode) with
  | some t => if wide && !t.is64 then splat t (oneOf t) * (2 ^ 32 + 1) else splat t (oneOf t)
  | none => 0

/-- A source field read as raw bits: an offset, a pointer or an index (R34, R36). -/
def Gang.opndRaw (c : Gang) (wide : Bool) (a : Src) : Opnd := c.source wide (oneBits c.mode wide) a

/-- A destination field that is also read: 248 reads as zero (R34). -/
def dstSrc : Dst → Src
  | .reg r => .reg r
  | .discard => .zero

/-- The register writes of a destination: one register, or both of a pair with the pair's bound (R34–R36, R126). -/
def dstWrites (wide : Bool) (d : Dst) (o : Opnd) (lanes : BitVec 32) : List RegWrite :=
  match d with
  | .discard => []
  | .reg r =>
    let lo : VLine := { val := Vector.ofFn fun i : Fin 32 => o.val[i.val].setWidth 32, bnd := o.bnd }
    if wide then
      [.v r lo lanes, .v (regNext r) { val := Vector.ofFn fun i : Fin 32 => BitVec.ofNat 32 (o.val[i.val].toNat / 2 ^ 32), bnd := o.bnd } lanes]
    else [.v r lo lanes]

/-- Make register writes at issue, readable by later runs after W clocks (R48). -/
def Gang.put (c : Gang) (g : Group) (w : Nat) (ws : List RegWrite) : Group := ws.foldl (fun g x => g.write c.view w x) g

/-- The MODE type's element type, where its code is legal. -/
def Gang.ty (c : Gang) : Option Ty := tyOf (modeType c.mode)

/-- A type of the machine's default MODE, used only where a MODE holds no legal type. -/
def tyF32 : Ty := ⟨.flt .f32, 32, 1⟩

/-- The issue clocks that an instruction takes beyond its first (R117). -/
def spend (s : State) (n : Nat) : State := { s with clock := s.clock + n }

end Sys2Proof.Machine
end

