-- ==== Sys2Proof/Machine/Flags.lean ====
section
/-! DEFINITION. Sticky flags, the floating-point trap, breaches, report cards, and the delivery of computed
results (R137–R146, R178–R181). -/

namespace Sys2Proof.Machine

/-- One lane's computed result. -/
structure LaneOut where
  val : W64
  bnd : B16
  flags : BitVec 9
  tier : Nat
  deriving DecidableEq, Repr

/-- A lane that nothing was computed for. -/
def LaneOut.none : LaneOut := { val := 0, bnd := 0, flags := 0, tier := 0 }

/-- The bounds of a result are neither kept nor tested: SCORE, or MODE bnd off (R141, R147). -/
def Gang.untracked (c : Gang) : Bool := c.k.score || decide (modeBnd c.mode = 3)

/-- Lanes that raised an enabled exception, and the exceptions raised (R180). -/
def raised (fpEnable : BitVec 5) (lanes : BitVec 32) (flags : Nat → BitVec 9) : BitVec 32 × BitVec 5 :=
  let en (l : Nat) : BitVec 5 := (flags l).setWidth 5 &&& fpEnable
  (lanes &&& maskOf 32 fun l => decide (en l ≠ 0),
   (setBitsOf lanes).foldl (fun a l => a ||| en l) 0)

/-- The OR of the flags of the active lanes (R178). -/
def allFlags (lanes : BitVec 32) (flags : Nat → BitVec 9) : BitVec 9 := (setBitsOf lanes).foldl (fun a l => a ||| flags l) 0

/-- Words 1–7 of a report card (R143). -/
def cardWords (s : State) (g : Group) (pc opcode mode : Nat) (bound budget : B16) (kind index tier : Nat) (mask : Nat) : List W64 :=
  let k := s.kernel g.kernel
  [BitVec.ofNat 64 (pc % 2 ^ 60),
   BitVec.ofNat 64 (bound.toNat + budget.toNat * 2 ^ 16 + kind * 2 ^ 32 + index * 2 ^ 40 + tier * 2 ^ 48 + mode / 2 ^ 19 * 2 ^ 50 + opcode * 2 ^ 56),
   BitVec.ofNat 64 (s.teamNumber g % 2 ^ 32 + g.number * 2 ^ 32 + g.role * 2 ^ 44 + g.core * 2 ^ 48 + k.asid * 2 ^ 56),
   BitVec.ofNat 64 mask, BitVec.ofNat 64 (mask / 2 ^ 64), BitVec.ofNat 64 (mask / 2 ^ 128), BitVec.ofNat 64 (mask / 2 ^ 192)]

/-- Store a list of bytes on one page by a group, sector by sector, every written word exact on a BC page. -/
def storeRange (s : State) (core gid : Nat) (a : Attr) (exact : B16) (pa : Nat) (bytes : List Byte) : State :=
  let secs := ((List.range bytes.length).map fun i => sectorOf (pa + i)).dedup
  secs.foldl (fun s sec =>
    let mine := ((List.range bytes.length).filter fun i => sectorOf (pa + i) = sec).map fun i => (pa + i - sectorBase sec, bytes.getD i 0)
    let words := (mine.map fun (o, _) => o / 4).dedup.map fun k => (k, exact)
    l1Store s core gid sec { attr := a, bytes := mine, bounds := words }) s

/-- The bytes of a list of 8-byte words. -/
def wordBytes (l : List W64) : List Byte := l.flatMap fun w => (List.range 8).map fun i => BitVec.ofNat 8 (w.toNat / 256 ^ i)

/-- Write a report card: the context's next sequence number, 64 bytes of stores by the group, and the group's copy;
a write that cannot be made is dropped and counted (R142, R144). -/
def writeCard (s : State) (gid : Nat) (words : List W64) : State :=
  match s.group? gid with
  | none => s
  | some g =>
    let k := s.kernel g.kernel
    match KMap.get? s.ctxs k.asid with
    | none => s
    | some x =>
      let seq := x.cardSeq + 1
      let all := BitVec.ofNat 64 seq :: words
      let s := s.setGroup gid { g with cards := g.cards + 1, cardCopy := all }
      let s := { s with ctxs := KMap.set s.ctxs k.asid { x with cardSeq := seq } }
      let va := x.cardBase + 64 * ((seq - 1) % 2 ^ x.cardLog)
      let drop (s : State) : State :=
        let n := x.dropped + 1
        let s := { s with ctxs := KMap.modify s.ctxs k.asid fun y => { y with dropped := n } }
        { s with mem := Memory.writeN s.mem (bits (s.part k.part).regs.ctBase 51 14 * 2 ^ 14 + 64 * x.index + 0x28) 4 n }
      match translate s g.core k.asid va with
      | (s, .page a pa) =>
        if a.w && decide (a.type ≠ 1) && decide (a.type ≠ 4) then storeRange s g.core gid a (scoreB k.score b16Exact) pa (wordBytes all)
        else drop s
      | (s, _) => drop s

/-- The breach of an instruction: the lanes or rows over budget, and the words of its card. -/
structure Breach where
  mask : Nat
  card : List W64

/-- The breach of a vector result (R140, R143): lanes of the active set whose bound exceeds their slice's budget. -/
def Gang.breach (c : Gang) (s : State) (kind : Nat) (lanes : BitVec 32) (out : Nat → LaneOut) : Option Breach :=
  if c.untracked then none
  else
    let budget (l : Nat) : B16 := c.view.budget (l / c.k.perSlice)
    let hit := lanes &&& maskOf 32 fun l => exceeds (out l).bnd (budget l)
    match lowestBit hit with
    | none => none
    | some l =>
      let worst := (setBitsOf hit).foldl (fun a i => maxB16 a (out i).bnd) b16Exact
      some { mask := hit.toNat
             card := cardWords s c.g c.pc c.opcode c.mode.toNat worst (budget l) kind l (out l).tier hit.toNat }

/-- Trap 0x08 (R141): frame words 2–7 are those of the card. -/
def trapBreach (b : Breach) : TrapInfo := trapOf 0x08 ((b.card.drop 1).take 6)

/-- Set sticky flags. -/
def Group.stick (g : Group) (fl : BitVec 9) : Group := { g with sticky := g.sticky ||| fl }

/-- Trap 0x0B (R180). -/
def trapFloat (lanes : BitVec 32) (exc : BitVec 5) : TrapInfo := trapOf 0x0B [BitVec.ofNat 64 exc.toNat, BitVec.ofNat 64 lanes.toNat]

/-- What a computing instruction comes to before it writes: the trap it takes (0x0B, then 0x08, R181), or its flags
and the card of a flagged breach. -/
def Gang.judge (c : Gang) (s : State) (tested : Bool) (lanes : BitVec 32) (out : Nat → LaneOut) : Except TrapInfo (BitVec 9 × Option Card) :=
  let (el, exc) := raised c.g.fpEnable lanes fun l => (out l).flags
  if el ≠ 0 then .error (trapFloat el exc)
  else
    let fl := allFlags lanes fun l => (out l).flags
    match (if tested then c.breach s 0 lanes out else none) with
    | none => .ok (fl, none)
    | some b =>
      if modeBnd c.mode = 2 then .error (trapBreach b)
      else if modeBnd c.mode = 1 then .ok (fl ||| flBreach, some { words := b.card })
      else .ok (fl, none)

/-- Lane results as an operand. -/
def outOpnd (out : Nat → LaneOut) : Opnd :=
  { val := Vector.ofFn fun l : Fin 32 => (out l.val).val, bnd := Vector.ofFn fun l : Fin 32 => (out l.val).bnd }

/-- Deliver a fixed-latency result: traps, flags, breach, then the writes (R146, R178, R181). DESIGN CHOICE (log 99): its flags are
set at its issue, so that a `FLAGS` within W of it already finds and clears them. -/
def Gang.deliver (c : Gang) (s : State) (tested : Bool) (wide : Bool) (w : Nat) (d : Dst) (lanes : BitVec 32) (out : Nat → LaneOut) : Result :=
  match c.judge s tested lanes out with
  | .error t => .trap t
  | .ok (fl, card) =>
    let g := c.put (c.g.stick fl) w (dstWrites wide d (outOpnd out) lanes)
    let s := s.setGroup c.gid g
    .done (match card with
      | some k => writeCard s c.gid k.words
      | none => s)

/-! ### Long-latency results (R46, R47) -/

/-- The flag that the next long-latency instruction of the run takes (R46): none in interlocked mode (R53). -/
def Gang.nextFlag (c : Gang) : Option (Fin 12) :=
  if c.view.interlocked then none
  else match lowestBit c.run.trl with
    | some i => if h : i < 12 then some ⟨i, h⟩ else none
    | none => none

/-- Bit f of the completion flags. -/
def flagBit (f : Fin 12) : BitVec 12 := BitVec.ofNat 12 (2 ^ f.val)

/-- The run with its next trailer flag taken. -/
def takeFlag (r : Run) (f : Option (Fin 12)) : Run := match f with
  | some f => { r with trl := r.trl &&& ~~~flagBit f }
  | none => r

/-- Issue a long-latency operation: its flag is set, and its results appear when its unit completes it. `writes` false
marks a form that writes no register and takes no flag (R46, R177); `hold` holds the run until the results are written. A
flag that is still set stalls the group (R47). -/
def Gang.launch (c : Gang) (s : State) (g : Group) (p : Pending) (writes hold : Bool) : Result :=
  let f := if writes then c.nextFlag else none
  match f with
  | some n => if bit c.g.cflags n.val then .stay s true else go f
  | none => go f
where
  go (f : Option (Fin 12)) : Result :=
    let cf := match f with
      | some n => g.cflags ||| flagBit n
      | none => g.cflags
    let p := { p with flag := f, holds := hold }
    let g := overtakeAll g c.view.serial c.run.id p.writes
    let g := { g with cflags := cf, pend := g.pend ++ [p], run := g.run.map fun r => takeFlag r f }
    let s := s.setGroup c.gid g
    if hold then .held s .result else .done s

/-- A long-latency result judged at issue (R146, R177): its writes, flags, card, or the trap it takes when complete. -/
def Gang.pending (c : Gang) (s : State) (kind : ResultKind) (tested : Bool) (lanes : BitVec 32) (out : Nat → LaneOut)
    (writes : List RegWrite) : Pending :=
  let base : Pending := { kind := kind, flag := none, writes := writes, sticky := 0, card := none, holds := false, trap := none
                          quarter := c.g.quarter, slices := c.run.slices, run := c.run.id, issued := c.view.serial, known := true }
  match c.judge s tested lanes out with
  | .error t => { base with writes := [], trap := some t }
  | .ok (fl, card) => { base with sticky := fl, card := card }

end Sys2Proof.Machine
end

