-- ==== Sys2Proof/Machine/Integer.lean ====
section
/-! DEFINITION. Vector integer, logic and address instructions (R97–R111). -/

namespace Sys2Proof.Machine

/-- The element width and count of this chapter: the 6-bit types are one raw lane (R98). -/
def rawTy (t : Ty) : Ty := if t.w = 6 then { t with w := 32, n := 1 } else t

/-- Apply a function to every sub-element of up to three lane values. -/
def mapElems (t : Ty) (f : Nat → Nat → Nat → Nat) (x y z : Nat) : Nat :=
  (List.range t.n).foldl (fun a i => a + f (elem x i t.w) (elem y i t.w) (elem z i t.w) % 2 ^ t.w * 2 ^ (i * t.w)) 0

/-- The exact result written under MODE sat (R99). -/
def satInt (t : Ty) (sat : Bool) (v : Int) : Nat := lowBits t.w (if sat then clampInt t.signed t.w v else v)

/-- The lanes of an integer result: each lane by `f` of the operands' values, bounds by int_bound (R100). -/
def intLanes (score : Bool) (srcs : List Opnd) (f : Nat → Nat) : Opnd :=
  { val := Vector.ofFn fun l : Fin 32 => BitVec.ofNat 64 (f l.val)
    bnd := Vector.ofFn fun l : Fin 32 => intBound score (srcs.map fun o => o.bnd[l.val]) }

/-- Lane l of an operand as a number. -/
def Opnd.at (o : Opnd) (l : Nat) : Nat := (o.val.toList.getD l 0).toNat
/-- Lane l's bound. -/
def Opnd.bndAt (o : Opnd) (l : Nat) : B16 := o.bnd.toList.getD l 0

/-- W of a 64-bit or narrower result (R48, R117). -/
def intW (wide : Bool) : Nat := if wide then 6 else 4

/-- A vector instruction over sub-elements of operands a, b and (where `readsD`) d, for the MODE types that
`accepts` admits (R97, R98). -/
def elemOp (i : Instr) (accepts : Ty → Bool) (d : Dst) (a b : Src) (readsD : Bool) (w64 : Nat)
    (f : Ty → Bool → Nat → Nat → Nat → Nat) (s : State) : Host.Outcome State Fault Refusal :=
  issue i s { regs := dstRegs d ++ srcRegs a ++ srcRegs b } fun c =>
    match c.ty with
    | none => c.badMode
    | some t0 =>
      if !accepts t0 then c.badMode
      else
        let t := rawTy t0
        let x := c.opnd t0 a
        let y := c.opnd t0 b
        let z := c.opnd t0 (dstSrc d)
        let r := intLanes c.k.score (if readsD then [x, y, z] else [x, y]) fun l =>
          mapElems t (f t (modeSat c.mode)) (x.at l) (y.at l) (z.at l)
        let g := c.put c.g (if t.is64 then w64 else 4) (dstWrites t.is64 d r c.lanes)
        .done (spend (s.setGroup c.gid g) (if t.is64 then 1 else 0))

/-- An element as a number of its type (R98). -/
def Ty.num (t : Ty) (x : Nat) : Int := toInt t.signed t.w x

/-! ### Arithmetic (R102) -/

/-- `IADD`. -/
def execIadd (d : Dst) (a b : Src) (s : State) : Host.Outcome State Fault Refusal :=
  elemOp (.iadd d a b) Ty.isInt d a b false 6 (fun t sat x y _ => satInt t sat (t.num x + t.num y)) s
/-- `ISUB`. -/
def execIsub (d : Dst) (a b : Src) (s : State) : Host.Outcome State Fault Refusal :=
  elemOp (.isub d a b) Ty.isInt d a b false 6 (fun t sat x y _ => satInt t sat (t.num x - t.num y)) s
/-- `IMUL`. -/
def execImul (d : Dst) (a b : Src) (s : State) : Host.Outcome State Fault Refusal :=
  elemOp (.imul d a b) Ty.isInt d a b false 8 (fun t sat x y _ => satInt t sat (t.num x * t.num y)) s
/-- `IMULH`: never saturates. -/
def execImulh (d : Dst) (a b : Src) (s : State) : Host.Outcome State Fault Refusal :=
  elemOp (.imulh d a b) Ty.isInt d a b false 8 (fun t _ x y _ => lowBits t.w ((t.num x * t.num y) / (2 ^ t.w : Nat))) s
/-- `IMAD`: d is also the addend. -/
def execImad (d : Dst) (a b : Src) (s : State) : Host.Outcome State Fault Refusal :=
  elemOp (.imad d a b) Ty.isInt d a b true 8 (fun t sat x y z => satInt t sat (t.num x * t.num y + t.num z)) s
/-- `IMIN`. -/
def execImin (d : Dst) (a b : Src) (s : State) : Host.Outcome State Fault Refusal :=
  elemOp (.imin d a b) Ty.isInt d a b false 6 (fun t _ x y _ => lowBits t.w (min (t.num x) (t.num y))) s
/-- `IMAX`. -/
def execImax (d : Dst) (a b : Src) (s : State) : Host.Outcome State Fault Refusal :=
  elemOp (.imax d a b) Ty.isInt d a b false 6 (fun t _ x y _ => lowBits t.w (max (t.num x) (t.num y))) s
/-- `IABS`. -/
def execIabs (d : Dst) (a : Src) (s : State) : Host.Outcome State Fault Refusal :=
  elemOp (.iabs d a) Ty.isInt d a .zero false 6 (fun t sat x _ _ => satInt t sat (if t.num x < 0 then -t.num x else t.num x)) s

/-! ### Logic (R103) -/

/-- `AND`. -/
def execAnd (d : Dst) (a b : Src) (s : State) : Host.Outcome State Fault Refusal :=
  elemOp (.and d a b) (fun _ => true) d a b false 6 (fun _ _ x y _ => x &&& y) s
/-- `OR`. -/
def execOr (d : Dst) (a b : Src) (s : State) : Host.Outcome State Fault Refusal :=
  elemOp (.or d a b) (fun _ => true) d a b false 6 (fun _ _ x y _ => x ||| y) s
/-- `XOR`. -/
def execXor (d : Dst) (a b : Src) (s : State) : Host.Outcome State Fault Refusal :=
  elemOp (.xor d a b) (fun _ => true) d a b false 6 (fun _ _ x y _ => x ^^^ y) s
/-- `ANDN`: a and not b. -/
def execAndn (d : Dst) (a b : Src) (s : State) : Host.Outcome State Fault Refusal :=
  elemOp (.andn d a b) (fun _ => true) d a b false 6 (fun t _ x y _ => x &&& (2 ^ t.w - 1 - y)) s

/-! ### Shifts (R105) -/

/-- x shifted right t bits with copies of bit w − 1. -/
def sarNat (w x t : Nat) : Nat := lowBits w (toInt true w x / (2 ^ min t w : Nat))
/-- x rotated left t bits at width w. -/
def rotlNat (w x t : Nat) : Nat :=
  let r := t % w
  x * 2 ^ r % 2 ^ w + x / 2 ^ (w - r)
/-- The shift that a kind names (R105). -/
def shiftNat (kind w x t : Nat) : Nat := match kind with
  | 0 => if t < w then x * 2 ^ t % 2 ^ w else 0
  | 1 => if t < w then x / 2 ^ t else 0
  | 2 => sarNat w x t
  | _ => rotlNat w x t

/-- `SHL`. -/
def execShl (d : Dst) (a b : Src) (s : State) : Host.Outcome State Fault Refusal :=
  elemOp (.shl d a b) Ty.isInt d a b false 6 (fun t _ x y _ => shiftNat 0 t.w x y) s
/-- `SHR`. -/
def execShr (d : Dst) (a b : Src) (s : State) : Host.Outcome State Fault Refusal :=
  elemOp (.shr d a b) Ty.isInt d a b false 6 (fun t _ x y _ => shiftNat 1 t.w x y) s
/-- `SAR`. -/
def execSar (d : Dst) (a b : Src) (s : State) : Host.Outcome State Fault Refusal :=
  elemOp (.sar d a b) Ty.isInt d a b false 6 (fun t _ x y _ => shiftNat 2 t.w x y) s
/-- `ROTL`. -/
def execRotl (d : Dst) (a b : Src) (s : State) : Host.Outcome State Fault Refusal :=
  elemOp (.rotl d a b) Ty.isInt d a b false 6 (fun t _ x y _ => shiftNat 3 t.w x y) s
/-- `SHI`: one amount for every sub-element. -/
def execShi (d : Dst) (a : Src) (kind : BitVec 2) (amount : BitVec 6) (s : State) : Host.Outcome State Fault Refusal :=
  elemOp (.shi d a kind amount) Ty.isInt d a .zero false 6 (fun t _ x _ _ => shiftNat kind.toNat t.w x amount.toNat) s

/-! ### Bit fields and counts (R106, R107) -/

/-- Only the 32- and 64-bit integer types. -/
def fieldTy (t : Ty) : Bool := t.isInt && decide (32 ≤ t.w)

/-- Field f of a value (R106 `BFE`). -/
def bfeNat (t : Ty) (x y : Nat) : Nat :=
  let pos := y % 256
  let len := min (y / 256 % 256) t.w
  if len = 0 then 0
  else
    let f := ((t.num x / (2 ^ pos : Nat)) % (2 ^ len : Nat)).toNat
    lowBits t.w (toInt t.signed len f)

/-- z with a field taken from x (R106 `BFI`). -/
def bfiNat (t : Ty) (x y z : Nat) : Nat :=
  let pos := y % 256
  let len := min (y / 256 % 256) t.w
  let m := (2 ^ len - 1) * 2 ^ pos % 2 ^ t.w
  (x * 2 ^ pos &&& m) ||| (z &&& (2 ^ t.w - 1 - m))

/-- `BFE`. -/
def execBfe (d : Dst) (a b : Src) (s : State) : Host.Outcome State Fault Refusal :=
  elemOp (.bfe d a b) fieldTy d a b false 6 (fun t _ x y _ => bfeNat t x y) s
/-- `BFI`: d is also the target. -/
def execBfi (d : Dst) (a b : Src) (s : State) : Host.Outcome State Fault Refusal :=
  elemOp (.bfi d a b) fieldTy d a b true 6 (fun t _ x y z => bfiNat t x y z) s

/-- The number of leading zeros at width w. -/
def clzNat (w x : Nat) : Nat := if x = 0 then w else w - 1 - Nat.log2 x
/-- The number of one bits. -/
def popNat (w x : Nat) : Nat := ((List.range w).filter fun i => x.testBit i).length
/-- Bit j moved to bit w − 1 − j. -/
def revNat (w x : Nat) : Nat := (List.range w).foldl (fun a j => if x.testBit j then a + 2 ^ (w - 1 - j) else a) 0

/-- `CLZ`. -/
def execClz (d : Dst) (a : Src) (s : State) : Host.Outcome State Fault Refusal :=
  elemOp (.clz d a) Ty.isInt d a .zero false 6 (fun t _ x _ _ => clzNat t.w x) s
/-- `POPC`. -/
def execPopc (d : Dst) (a : Src) (s : State) : Host.Outcome State Fault Refusal :=
  elemOp (.popc d a) Ty.isInt d a .zero false 6 (fun t _ x _ _ => popNat t.w x) s
/-- `BREV`. -/
def execBrev (d : Dst) (a : Src) (s : State) : Host.Outcome State Fault Refusal :=
  elemOp (.brev d a) Ty.isInt d a .zero false 6 (fun t _ x _ _ => revNat t.w x) s

/-! ### Predicates (R108, R109) -/

/-- The test of a condition field (R108). -/
def condTest (cond : Nat) (sx sy : Int) (ux uy : Nat) : Bool := match cond % 8 with
  | 0 => decide (ux = uy)
  | 1 => decide (ux ≠ uy)
  | 2 => decide (sx < sy)
  | 3 => decide (sx ≤ sy)
  | 4 => decide (sy < sx)
  | 5 => decide (sy ≤ sx)
  | 6 => decide (ux < uy)
  | _ => decide (uy ≤ ux)

/-- The new predicate from the old and the test (R108). -/
def condComb {w : Nat} (comb : Nat) (p t : BitVec w) : BitVec w := match comb with
  | 0 => t
  | 1 => p &&& t
  | 2 => p ||| t
  | _ => p ^^^ t

/-- `ICMP` (R108). -/
def execIcmp (p : PReg) (cond : BitVec 5) (a b : Src) (s : State) : Host.Outcome State Fault Refusal :=
  issue (.icmp p cond a b) s { regs := srcRegs a ++ srcRegs b, p := [p] } fun c =>
    match c.ty with
    | none => c.badMode
    | some t =>
      if !t.isInt then c.badMode
      else
        let x := c.opnd t a
        let y := c.opnd t b
        let test := maskOf 32 fun l => (List.range t.n).all fun i =>
          let ex := elem (x.at l) i t.w
          let ey := elem (y.at l) i t.w
          condTest cond.toNat (t.num ex) (t.num ey) ex ey
        let g := c.put c.g 4 [.p p (condComb (cond.toNat / 8) (c.view.pred p) test) c.lanes]
        .done (spend (s.setGroup c.gid g) (if t.is64 then 1 else 0))

/-- `PSET` (R109). -/
def execPset (p : PReg) (f : BitVec 4) (pa pb : PReg) (s : State) : Host.Outcome State Fault Refusal :=
  issue (.pset p f pa pb) s { p := [p, pa, pb] } fun c =>
    let x := c.view.pred pa
    let y := c.view.pred pb
    let v := maskOf 32 fun l => bit f (2 * (bit x l).toNat + (bit y l).toNat)
    .done (spend (s.setGroup c.gid (c.put c.g 4 [.p p v c.lanes])) (if wideMode c.mode then 1 else 0))

/-! ### Moves and selection (R104) -/

/-- `SEL`: every lane of the active masks, chosen by the guard predicate whatever guard_en. -/
def execSel (d : Dst) (a b : Src) (s : State) : Host.Outcome State Fault Refusal :=
  issue (.sel d a b) s { regs := dstRegs d ++ srcRegs a ++ srcRegs b } fun c =>
    match c.ty with
    | none => c.badMode
    | some t =>
      let x := c.opnd t a
      let y := c.opnd t b
      let p := c.view.pred ⟨bits c.mode 13 11 % 8, Nat.mod_lt _ (by decide)⟩
      let q := if bit c.mode 14 then ~~~p else p
      let r : Opnd :=
        { val := Vector.ofFn fun l : Fin 32 => if bit q l.val then x.val[l.val] else y.val[l.val]
          bnd := Vector.ofFn fun l : Fin 32 => if bit q l.val then x.bnd[l.val] else y.bnd[l.val] }
      .done (spend (s.setGroup c.gid (c.put c.g (intW t.is64) (dstWrites t.is64 d r c.all))) (if t.is64 then 1 else 0))

/-- `MOV`: the value with its bound. -/
def execMov (d : Dst) (a : Src) (s : State) : Host.Outcome State Fault Refusal :=
  issue (.mov d a) s { regs := dstRegs d ++ srcRegs a } fun c =>
    match c.ty with
    | none => c.badMode
    | some t =>
      .done (spend (s.setGroup c.gid (c.put c.g (intW t.is64) (dstWrites t.is64 d (c.opnd t a) c.lanes))) (if t.is64 then 1 else 0))

/-- The immediate of `MOVI` and `SMOVI` (R50, R104, R112). -/
def movImm (imm : BitVec 16) (pfx : Option (BitVec 24)) : W64 := match pfx with
  | some h => (h ++ imm : BitVec 40).signExtend 64
  | none => imm.signExtend 64

/-- `MOVI`. -/
def execMovi (d : Dst) (imm : BitVec 16) (pfx : Option (BitVec 24)) (s : State) : Host.Outcome State Fault Refusal :=
  issue (.movi d imm pfx) s { regs := dstRegs d } fun c =>
    let wide := wideMode c.mode
    let r := Opnd.const (movImm imm pfx) (scoreB c.k.score b16Exact)
    .done (spend (s.setGroup c.gid (c.put c.g (intW wide) (dstWrites wide d r c.lanes))) (if wide then 1 else 0))

/-- The immediate of `IADDI` (R50, R102). -/
def iaddImm (imm : BitVec 8) (pfx : Option (BitVec 24)) : Int := match pfx with
  | some h => (h ++ imm : BitVec 32).toInt
  | none => imm.toInt

/-- `IADDI`: the low w bits of the immediate, read as signed, added to every sub-element. -/
def execIaddi (d : Dst) (a : Src) (imm : BitVec 8) (pfx : Option (BitVec 24)) (s : State) : Host.Outcome State Fault Refusal :=
  elemOp (.iaddi d a imm pfx) Ty.isInt d a .zero false 6
    (fun t sat x _ _ => satInt t sat (t.num x + toInt true t.w (lowBits t.w (iaddImm imm pfx)))) s

/-! ### 64-bit address arithmetic (R110, R111) -/

/-- The scale of `LEA64` by type, where the type is accepted (R97, R110). -/
def leaScale (t : Ty) : Option Nat :=
  if t.w = 64 then some 8 else if t.w = 32 then some 4 else if t.w = 16 then some 2 else if t.w = 8 then some 1 else none

/-- `LEA64`: d and a are pairs under every type. -/
def execLea64 (d : Dst) (a b : Src) (s : State) : Host.Outcome State Fault Refusal :=
  issue (.lea64 d a b) s { regs := srcRegs b, ranges := (dstRegs d ++ srcRegs a).map fun r => (r, 2) } fun c =>
    match c.ty.bind fun t => (leaScale t).map fun n => (t, n) with
    | none => c.badMode
    | some (t, scale) =>
      let x := c.opndInt true a
      let y := c.opndInt t.is64 b
      let w := if t.is64 then 64 else 32
      let r := intLanes c.k.score [x, y] fun l =>
        lowBits 64 ((x.at l : Int) + toInt (!decide (t.kind = .uint)) w (y.at l) * scale)
      .done (spend (s.setGroup c.gid (c.put c.g 6 (dstWrites true d r c.lanes))) 1)

/-- `IADD64`: pairs under every type. -/
def execIadd64 (d : Dst) (a b : Src) (s : State) : Host.Outcome State Fault Refusal :=
  issue (.iadd64 d a b) s { ranges := (dstRegs d ++ srcRegs a ++ srcRegs b).map fun r => (r, 2) } fun c =>
    let x := c.opndInt true a
    let y := c.opndInt true b
    let r := intLanes c.k.score [x, y] fun l => (x.at l + y.at l) % 2 ^ 64
    .done (spend (s.setGroup c.gid (c.put c.g 6 (dstWrites true d r c.lanes))) 1)

end Sys2Proof.Machine
end

