-- ==== Sys2Proof/Machine/Float.lean ====
section
/-! DEFINITION. Floating-point instructions (R160–R173, R178–R182). -/

namespace Sys2Proof.Machine

/-- A float operand as read: its value after `CXP` and ftz, its bound term, and whether it was signalling (R121, R132, R162). -/
structure FArg where
  v : Val
  β : Bnd
  snan : Bool

/-- Read a sub-element as a float operand. -/
def fArg (f : Fmt) (ftz abs neg exact : Bool) (b : B16) (x : Nat) : FArg :=
  let v := f.decode x
  let v := if abs then v.abs else v
  let v := if neg then v.negate else v
  let (u, flush) := flushIn f ftz v
  let β := if exact then .fin 0 else Bnd.of b
  { v := u, β := if u.isFinite then β.add (.fin flush) else β.add .unb, snan := v.isSnan }

/-- The exact result of an operation. -/
inductive Exact where
  | nan (invalid : Bool)
  | inf (neg : Bool)
  | real (q : Rat) (zneg : Bool)

/-- A sub-element's result. -/
structure ElemOut where
  bits : Nat
  bnd : B16
  flags : BitVec 9

/-- An exact result written under MODE, with its bound terms and tier term (R119–R121, R132–R134, R179). -/
def roundOut (f : Fmt) (rnd : Nat) (sat ftz : Bool) (e : Exact) (terms : Bnd) (trunc : Rat) : ElemOut :=
  match e with
  | .nan iv => { bits := f.canonicalNan, bnd := (terms.add .unb).toB16, flags := flagIf iv flInvalid }
  | .inf n =>
    let (v, fl) := writeSpecial f sat (.inf n)
    { bits := f.bitsOf v true, bnd := (terms.add .unb).toB16, flags := fl }
  | .real q zneg =>
    let neg := if q = 0 then zneg else decide (q < 0)
    let r := roundFmt f rnd sat ftz neg (ratAbs q)
    { bits := f.bitsOf r.val true
      bnd := (if r.val.isFinite then terms.add (.fin (trunc + r.rnd + r.flush)) else terms.add .unb).toB16
      flags := r.flags }

/-- The exact result of one sub-element's arithmetic, its terms, and its tier term. -/
structure FCalc where
  e : Exact
  terms : Bnd
  trunc : Rat := 0

/-- The sign of an exact zero sum or difference (R162): + under every rounding code but RDN. -/
def zeroSum (rnd : Nat) : Bool := decide (rnd = 3)

/-- x + y exactly (R164). -/
def addExact (rnd : Nat) (x y : FArg) : Exact :=
  if x.v.isNan || y.v.isNan then .nan (x.snan || y.snan)
  else match x.v, y.v with
    | .inf a, .inf b => if a = b then .inf a else .nan true
    | .inf a, _ => .inf a
    | _, .inf b => .inf b
    | _, _ => .real (x.v.real + y.v.real) (zeroSum rnd)

/-- A product exactly: NaN, infinite, or a signed magnitude (R164). -/
def mulExact (x y : Val) (snan : Bool) : Exact :=
  if x.isNan || y.isNan then .nan snan
  else
    let neg := x.neg != y.neg
    if x.isFinite && y.isFinite then .real (x.real * y.real) neg
    else if x.isZero || y.isZero then .nan true
    else .inf neg

/-- Bits of significand that a tier keeps of a multiplier operand (R135, R165). -/
def tierKeep (f : Fmt) (tier : Nat) : Option Nat :=
  match f, tier with
  | .f32, 1 => some 16
  | .f32, 2 => some 10
  | .f64, 1 => some 32
  | .f64, 2 => some 24
  | _, _ => none

/-- An operand truncated toward zero to its k most significant significand bits (R165). -/
def truncSig (keep : Option Nat) : Val → Val
  | .fin n m => match keep with
    | some k =>
      if m = 0 then .fin n m
      else
        let u := pow2 (floorLog2 m - (k - 1))
        .fin n ((m / u).floor * u)
    | none => .fin n m
  | v => v

/-- The tier term's factor (R135). -/
def tierTerm (f : Fmt) (tier : Nat) : Rat :=
  match f, tier with
  | .f32, 1 => pow2 (-14)
  | .f32, 2 => pow2 (-8)
  | .f64, 1 => pow2 (-30)
  | .f64, 2 => pow2 (-22)
  | _, _ => 0

/-- x · y + z at a tier; `z` is absent for `FMUL` (R164–R166). -/
def fmaCalc (f : Fmt) (rnd tier : Nat) (x y : FArg) (z : Option FArg) : FCalc :=
  let keep := tierKeep f tier
  let xt := truncSig keep x.v
  let yt := truncSig keep y.v
  let lost := decide (xt ≠ x.v) || decide (yt ≠ y.v)
  let trunc := if lost then tierTerm f tier * ratAbs (x.v.real * y.v.real) else 0
  let pt := mulTerms (ratAbs x.v.real) x.β (ratAbs y.v.real) y.β
  let snan := x.snan || y.snan || (match z with
    | some z => z.snan
    | none => false)
  let p := mulExact xt yt snan
  match z with
  | none => { e := p, terms := pt, trunc := trunc }
  | some z =>
    let e : Exact := match p with
      | .nan iv => .nan (iv || snan)
      | .inf n => (match z.v with
        | .nan _ _ => .nan snan
        | .inf m => if n = m then .inf n else .nan true
        | .fin _ _ => .inf n)
      | .real q _ => (match z.v with
        | .nan _ _ => .nan snan
        | .inf m => .inf m
        | .fin _ _ => .real (q + z.v.real) (zeroSum rnd))
    { e := e, terms := pt.add z.β, trunc := trunc }

/-- The `CXP` modifiers of an instruction without a prefix (R51). -/
def cxpNone : Cxp := { c := .zero, negA := false, negB := false, negC := false, absA := false, absB := false, exact := false }

/-- The types of the vector float instructions (R160). -/
def stdFloat (t : Ty) : Option Fmt := match t.kind with
  | .flt .f32 => some .f32
  | .flt .f64 => some .f64
  | .flt .f16 => some .f16
  | .flt .bf16 => some .bf16
  | _ => none

/-- Assemble a lane from its sub-elements (R123, R134). -/
def laneOut (t : Ty) (untracked : Bool) (tier : Nat) (f : Nat → ElemOut) : LaneOut :=
  (List.range t.n).foldl (fun a i =>
    let e := f i
    { val := a.val + BitVec.ofNat 64 (e.bits % 2 ^ t.w * 2 ^ (i * t.w)), flags := a.flags ||| e.flags, tier := tier
      bnd := if untracked then b16Untracked else maxB16 a.bnd e.bnd })
    { val := 0, bnd := if untracked then b16Untracked else b16Exact, flags := 0, tier := tier }

/-- W and the extra issue clock of a float result (R182). -/
def floatW (wide : Bool) : Nat := if wide then 8 else 6

/-- Deliver a vector float result with its issue clocks (R182). -/
def Gang.deliverF (c : Gang) (s : State) (tested wide : Bool) (d : Dst) (out : Nat → LaneOut) : Result :=
  c.deliver (spend s (if wide then 1 else 0)) tested wide (floatW wide) d c.lanes out

/-- The tier of a slice's multiplies (R138), given the bound a lane would carry at each tier. -/
def Gang.tierOf (c : Gang) (slice : Nat) (boundAt : Nat → Nat → B16) : Nat :=
  match modeTier c.mode with
  | 0 =>
    if c.untracked then 0
    else
      let lanes := (setBitsOf c.lanes).filter fun l => l / c.k.perSlice = slice
      let fits (t : Nat) : Bool := lanes.all fun l => !exceeds (boundAt t l) (c.view.budget slice)
      if fits 2 then 2 else if fits 1 then 1 else 0
  | n => n - 1

/-- The arithmetic instructions of two or three operands (R164): `op` gives a sub-element's exact result at a tier. -/
def floatArith (i : Instr) (d : Dst) (a b : Src) (z : Option Src) (m : Option Cxp) (tiered : Bool)
    (op : Fmt → Nat → Nat → FArg → FArg → FArg → FCalc) (s : State) : Host.Outcome State Fault Refusal :=
  issue i s { regs := dstRegs d ++ srcRegs a ++ srcRegs b ++ (match z with
      | some z => srcRegs z
      | none => []) } fun c =>
    match c.ty.bind fun t => (stdFloat t).map fun f => (t, f) with
    | none => c.badMode
    | some (t, f) =>
      let x := m.getD cxpNone
      let oa := c.opnd t a
      let ob := c.opnd t b
      let oz := match z with
        | some z => c.opnd t z
        | none => Opnd.const 0 b16Exact
      let ftz := modeFtz c.mode
      let rnd := modeRnd c.mode
      let outAt (tier l : Nat) : LaneOut := laneOut t c.untracked tier fun i =>
        let r := op f rnd tier (fArg f ftz x.absA x.negA x.exact (oa.bndAt l) (elem (oa.at l) i t.w))
          (fArg f ftz x.absB x.negB x.exact (ob.bndAt l) (elem (ob.at l) i t.w))
          (fArg f ftz false x.negC x.exact (oz.bndAt l) (elem (oz.at l) i t.w))
        roundOut f rnd (modeSat c.mode) ftz r.e r.terms r.trunc
      let tierable := tiered && (decide (f = .f32) || decide (f = .f64))
      let tier (l : Nat) : Nat := if tierable then c.tierOf (l / c.k.perSlice) fun t l => (outAt t l).bnd else 0
      c.deliverF s true t.is64 d fun l => outAt (tier l) l

/-- `FADD` (R164). -/
def execFadd (d : Dst) (a b : Src) (m : Option Cxp) (s : State) : Host.Outcome State Fault Refusal :=
  floatArith (.fadd d a b m) d a b none m false (fun _ rnd _ x y _ => { e := addExact rnd x y, terms := x.β.add y.β }) s

/-- `FSUB`: `FADD` with b negated (R164). -/
def execFsub (d : Dst) (a b : Src) (m : Option Cxp) (s : State) : Host.Outcome State Fault Refusal :=
  floatArith (.fsub d a b m) d a b none m false
    (fun _ rnd _ x y _ => { e := addExact rnd x { y with v := y.v.negate }, terms := x.β.add y.β }) s

/-- `FMUL` (R164, R165). -/
def execFmul (d : Dst) (a b : Src) (m : Option Cxp) (s : State) : Host.Outcome State Fault Refusal :=
  floatArith (.fmul d a b m) d a b none m true (fun f rnd tier x y _ => fmaCalc f rnd tier x y none) s

/-- `FMA`: d is also the addend (R164, R165). -/
def execFma (d : Dst) (a b : Src) (m : Option Cxp) (s : State) : Host.Outcome State Fault Refusal :=
  floatArith (.fma d a b m) d a b (some (dstSrc d)) m true (fun f rnd tier x y z => fmaCalc f rnd tier x y (some z)) s

/-- `FFMA`: the addend is in the prefix, and without one it traps (R51, R164, R165). -/
def execFfma (d : Dst) (a b : Src) (m : Option Cxp) (s : State) : Host.Outcome State Fault Refusal :=
  match m with
  | none => issue (.ffma d a b none) s {} fun c => c.illegal 3
  | some x => floatArith (.ffma d a b (some x)) d a b (some x.c) (some x) true (fun f rnd tier x y z => fmaCalc f rnd tier x y (some z)) s

/-- The total order of magnitudes with −0 below +0 (R168). -/
def valLt (x y : Val) : Bool :=
  match x, y with
  | .inf a, .inf b => a && !b
  | .inf a, _ => a
  | _, .inf b => !b
  | _, _ => if x.isZero && y.isZero then x.neg && !y.neg else decide (x.real < y.real)

/-- `FMIN` and `FMAX` of two operands (R168). -/
def minmaxOut (f : Fmt) (isMin : Bool) (x y : FArg) : ElemOut :=
  let fl := flagIf (x.snan || y.snan) flInvalid
  let β := (x.β.max y.β).toB16
  let out (v : Val) : ElemOut := { bits := f.encode v, bnd := β, flags := fl }
  if x.v.isNan && y.v.isNan then out x.v
  else if x.v.isNan then out y.v
  else if y.v.isNan then out x.v
  else if isMin then out (if valLt y.v x.v then y.v else x.v) else out (if valLt x.v y.v then y.v else x.v)

/-- The instructions that round nothing: each sub-element by `f` of its two operands as read. -/
def floatPure (i : Instr) (d : Dst) (a b : Src) (m : Option Cxp) (f : Fmt → FArg → FArg → ElemOut) (s : State) :
    Host.Outcome State Fault Refusal :=
  issue i s { regs := dstRegs d ++ srcRegs a ++ srcRegs b } fun c =>
    match c.ty.bind fun t => (stdFloat t).map fun f => (t, f) with
    | none => c.badMode
    | some (t, fmt) =>
      let x := m.getD cxpNone
      let oa := c.opnd t a
      let ob := c.opnd t b
      c.deliverF s true t.is64 d fun l => laneOut t c.untracked 0 fun i =>
        f fmt (fArg fmt (modeFtz c.mode) x.absA x.negA x.exact (oa.bndAt l) (elem (oa.at l) i t.w))
          (fArg fmt (modeFtz c.mode) x.absB x.negB x.exact (ob.bndAt l) (elem (ob.at l) i t.w))

/-- `FMIN` (R168). -/
def execFmin (d : Dst) (a b : Src) (m : Option Cxp) (s : State) : Host.Outcome State Fault Refusal :=
  floatPure (.fmin d a b m) d a b m (fun f x y => minmaxOut f true x y) s
/-- `FMAX` (R168). -/
def execFmax (d : Dst) (a b : Src) (m : Option Cxp) (s : State) : Host.Outcome State Fault Refusal :=
  floatPure (.fmax d a b m) d a b m (fun f x y => minmaxOut f false x y) s

/-- x < y and x = y for values that are not NaN (R169: +0 and −0 compare equal). -/
def valRel (x y : Val) : Bool × Bool :=
  match x, y with
  | .inf a, .inf b => (a && !b, a == b)
  | .inf a, _ => (a, false)
  | _, .inf b => (!b, false)
  | _, _ => (decide (x.real < y.real), decide (x.real = y.real))

/-- `FCMP`'s test and whether it raises invalid (R169). -/
def fcmpTest (cond : Nat) (x y : FArg) : Bool × Bool :=
  let nan := x.v.isNan || y.v.isNan
  let snan := x.snan || y.snan
  let (lt, eq) := valRel x.v y.v
  match cond % 8 with
  | 0 => (!nan && eq, snan)
  | 1 => (nan || !eq, snan)
  | 2 => (!nan && lt, nan)
  | 3 => (!nan && (lt || eq), nan)
  | 4 => (!nan && !lt && !eq, nan)
  | 5 => (!nan && !lt, nan)
  | 6 => (!nan, snan)
  | _ => (nan, snan)

/-- `FCMP` (R169). -/
def execFcmp (p : PReg) (cond : BitVec 5) (a b : Src) (m : Option Cxp) (s : State) : Host.Outcome State Fault Refusal :=
  issue (.fcmp p cond a b m) s { regs := srcRegs a ++ srcRegs b, p := [p] } fun c =>
    match c.ty.bind fun t => (stdFloat t).map fun f => (t, f) with
    | none => c.badMode
    | some (t, f) =>
      let x := m.getD cxpNone
      let oa := c.opnd t a
      let ob := c.opnd t b
      let tests (l : Nat) : List (Bool × Bool) := (List.range t.n).map fun i =>
        fcmpTest cond.toNat (fArg f (modeFtz c.mode) x.absA x.negA x.exact (oa.bndAt l) (elem (oa.at l) i t.w))
          (fArg f (modeFtz c.mode) x.absB x.negB x.exact (ob.bndAt l) (elem (ob.at l) i t.w))
      let fl (l : Nat) : BitVec 9 := flagIf ((tests l).any (·.2)) flInvalid
      let (el, exc) := raised c.g.fpEnable c.lanes fl
      if el ≠ 0 then .trap (trapFloat el exc)
      else
        let t' := maskOf 32 fun l => (tests l).all (·.1)
        let g := c.put (c.g.stick (allFlags c.lanes fl)) 4 [.p p (condComb (cond.toNat / 8) (c.view.pred p) t') c.lanes]
        .done (spend (s.setGroup c.gid g) (if t.is64 then 1 else 0))

/-- The class bit of a value (R170). -/
def classBit (f : Fmt) : Val → Nat
  | .nan _ _ => 0
  | .inf n => if n then 1 else 7
  | .fin n q => if q = 0 then 4 else if q < pow2 f.emin then (if n then 3 else 5) else (if n then 2 else 6)

/-- `FCLASS` (R170): all ones or all zeros; the bound is int_bound. -/
def execFclass (d : Dst) (a : Src) (mask : BitVec 8) (s : State) : Host.Outcome State Fault Refusal :=
  issue (.fclass d a mask) s { regs := dstRegs d ++ srcRegs a } fun c =>
    match c.ty.bind fun t => (stdFloat t).map fun f => (t, f) with
    | none => c.badMode
    | some (t, f) =>
      let x := c.opnd t a
      let r := intLanes c.k.score [x] fun l => mapElems t (fun e _ _ => if bit mask (classBit f (f.decode e)) then 2 ^ t.w - 1 else 0) (x.at l) 0 0
      .done (spend (s.setGroup c.gid (c.put c.g (floatW t.is64) (dstWrites t.is64 d r c.lanes))) (if t.is64 then 1 else 0))

/-- A sub-element rounded to an integral value (R171). -/
def frndOut (f : Fmt) (rnd : Nat) (ftz : Bool) (b : B16) (x : Nat) : ElemOut :=
  let r := fArg f ftz false false false b x
  match r.v with
  | .nan _ _ => { bits := f.canonicalNan, bnd := r.β.toB16, flags := flagIf r.snan flInvalid }
  | .inf n => { bits := f.encode (.inf n), bnd := r.β.toB16, flags := 0 }
  | .fin n m =>
    let q : Rat := roundNat rnd n m
    { bits := f.encode (.fin n q), bnd := (r.β.add (.fin (ratAbs (m - q)))).toB16, flags := 0 }

/-- `FRND` (R171): rounding code 5 traps 0x02 (R160). -/
def execFrnd (d : Dst) (a : Src) (s : State) : Host.Outcome State Fault Refusal :=
  issue (.frnd d a) s { regs := dstRegs d ++ srcRegs a } fun c =>
    match c.ty.bind fun t => (stdFloat t).map fun f => (t, f) with
    | none => c.badMode
    | some (t, f) =>
      if modeRnd c.mode = 5 then c.badMode
      else
        let x := c.opnd t a
        c.deliverF s true t.is64 d fun l => laneOut t c.untracked 0 fun i =>
          frndOut f (modeRnd c.mode) (modeFtz c.mode) (x.bndAt l) (elem (x.at l) i t.w)

/-- The exponents beyond which x · 2^k rounds alike for every format, so that k may be clamped (R172). -/
def scaleClamp (k : Int) : Int := max (-5000) (min 5000 k)

/-- `FSCALE` of a sub-element (R172). -/
def fscaleOut (f : Fmt) (rnd : Nat) (sat ftz : Bool) (ba bb : B16) (x : Nat) (k : Int) : ElemOut :=
  let r := fArg f ftz false false false ba x
  let p := pow2 (scaleClamp k)
  let β := r.β.scale p
  let β := if isUntracked bb then .untr else if bb = b16Exact then β else β.add .unb
  let e : Exact := match r.v with
    | .nan _ _ => .nan r.snan
    | .inf n => .inf n
    | .fin n m => .real ((if n then -m else m) * p) n
  roundOut f rnd sat ftz e β 0

/-- `FSCALE` (R172). -/
def execFscale (d : Dst) (a b : Src) (s : State) : Host.Outcome State Fault Refusal :=
  issue (.fscale d a b) s { regs := dstRegs d ++ srcRegs a ++ srcRegs b } fun c =>
    match c.ty.bind fun t => (stdFloat t).map fun f => (t, f) with
    | none => c.badMode
    | some (t, f) =>
      let x := c.opnd t a
      let y := c.opnd t b
      let kw := min t.w 32
      c.deliverF s true t.is64 d fun l => laneOut t c.untracked 0 fun i =>
        fscaleOut f (modeRnd c.mode) (modeSat c.mode) (modeFtz c.mode) (x.bndAt l) (y.bndAt l) (elem (x.at l) i t.w)
          (toInt true kw (elem (y.at l) i kw))

/-- One product of a dot product: NaN or invalid, infinite, or finite, with its mul terms (R167). -/
def dotTerm (x y : FArg) : Exact × Bnd :=
  (mulExact x.v y.v (x.snan || y.snan), mulTerms (ratAbs x.v.real) x.β (ratAbs y.v.real) y.β)

/-- The exact sum of products and an addend (R167): invalid does not depend on their order. -/
def dotExact (rnd : Nat) (ps : List Exact) (z : FArg) : Exact :=
  let zs : Exact := match z.v with
    | .nan _ _ => .nan z.snan
    | .inf n => .inf n
    | .fin n m => .real (if n then -m else m) n
  let l := ps ++ [zs]
  let inf (n : Bool) : Bool := l.any fun p => match p with
    | .inf m => m == n
    | .nan _ | .real _ _ => false
  let nan := l.any fun p => match p with
    | .nan _ => true
    | .inf _ | .real _ _ => false
  let invalid := (inf true && inf false) || l.any fun p => match p with
    | .nan iv => iv
    | .inf _ | .real _ _ => false
  if nan || invalid then .nan invalid
  else if inf true then .inf true
  else if inf false then .inf false
  else .real (l.foldl (fun a p => match p with
    | .real q _ => a + q
    | .nan _ | .inf _ => a) 0) (zeroSum rnd)

/-- `FDOT2` and `FDOT4` (R167): d is read and written as F32. -/
def dotOp (i : Instr) (d : Dst) (a b : Src) (m : Option Cxp) (ok : Fmt → Bool) (s : State) : Host.Outcome State Fault Refusal :=
  issue i s { regs := dstRegs d ++ srcRegs a ++ srcRegs b } fun c =>
    match c.ty.bind fun t => (match t.kind with
        | .flt f => if ok f then some (t, f) else none
        | .sint | .uint | .b16 => none) with
    | none => c.badMode
    | some (t, f) =>
      let x := m.getD cxpNone
      let oa := c.opnd t a
      let ob := c.opnd t b
      let oz := c.opnd tyF32 (dstSrc d)
      let rnd := modeRnd c.mode
      let ftz := modeFtz c.mode
      c.deliverF s true false d fun l =>
        let ps := (List.range t.n).map fun i =>
          dotTerm (fArg f ftz x.absA x.negA x.exact (oa.bndAt l) (elem (oa.at l) i t.w))
            (fArg f ftz x.absB x.negB x.exact (ob.bndAt l) (elem (ob.at l) i t.w))
        let z := fArg .f32 ftz false x.negC x.exact (oz.bndAt l) (oz.at l % 2 ^ 32)
        let terms := (ps.foldl (fun (acc : Bnd) p => acc.add p.2) (.fin 0)).add z.β
        laneOut tyF32 c.untracked 0 fun _ => roundOut .f32 rnd (modeSat c.mode) ftz (dotExact rnd (ps.map (·.1)) z) terms 0

/-- `FDOT2` (R167). -/
def execFdot2 (d : Dst) (a b : Src) (m : Option Cxp) (s : State) : Host.Outcome State Fault Refusal :=
  dotOp (.fdot2 d a b m) d a b m (fun f => decide (f = .f16) || decide (f = .bf16)) s
/-- `FDOT4` (R167). -/
def execFdot4 (d : Dst) (a b : Src) (m : Option Cxp) (s : State) : Host.Outcome State Fault Refusal :=
  dotOp (.fdot4 d a b m) d a b m (fun f => decide (f = .e4m3) || decide (f = .e5m2)) s

/-- `FCPYS` of a sub-element (R173). -/
def fcpysOut (f : Fmt) (ba bb : B16) (x y : Nat) : ElemOut :=
  let h := 2 ^ (f.width - 1)
  let v := f.decode x
  let sure := decide (bb = b16Exact) || (match Bnd.of bb, f.decode y with
    | .fin β, .inf _ => decide (0 ≤ β)
    | .fin β, .fin _ m => decide (β < m)
    | _, _ => false)
  let β : Bnd :=
    if isUntracked ba || isUntracked bb then .untr
    else if !v.isFinite then .unb
    else if sure then Bnd.of ba else (Bnd.of ba).add (.fin (2 * ratAbs v.real))
  { bits := x % h + y % 2 ^ f.width / h * h, bnd := β.toB16, flags := 0 }

/-- `FCPYS` (R173). -/
def execFcpys (d : Dst) (a b : Src) (s : State) : Host.Outcome State Fault Refusal :=
  issue (.fcpys d a b) s { regs := dstRegs d ++ srcRegs a ++ srcRegs b } fun c =>
    match c.ty.bind fun t => (stdFloat t).map fun f => (t, f) with
    | none => c.badMode
    | some (t, f) =>
      let x := c.opnd t a
      let y := c.opnd t b
      c.deliverF s true t.is64 d fun l => laneOut t c.untracked 0 fun i =>
        fcpysOut f (x.bndAt l) (y.bndAt l) (elem (x.at l) i t.w) (elem (y.at l) i t.w)

end Sys2Proof.Machine
end

