-- ==== Sys2Proof/Machine/Convert.lean ====
section
/-! DEFINITION. Conversion, packing and block quantisation (R183–R196, R487). -/

namespace Sys2Proof.Machine

/-- Issue the result of a conversion (R189, R196, R487): a long-latency form through the conversion unit, another readable 6 clocks
after its last issue clock, which is that of `s`. `outs` are the destination registers with their lanes' results. -/
def Gang.deliverConv (c : Gang) (s : State) (long wide discard : Bool) (outs : List (Dst × (Nat → LaneOut))) : Result :=
  let all (l : Nat) : LaneOut := outs.foldl (fun a (_, f) =>
    { a with bnd := maxB16 a.bnd (f l).bnd, flags := a.flags ||| (f l).flags }) { LaneOut.none with bnd := if c.untracked then b16Untracked else b16Exact }
  let ws := outs.flatMap fun (d, f) => dstWrites wide d (outOpnd f) c.lanes
  if long then
    let p := c.pending s .conv true c.lanes all ws
    c.launch s c.g p (!discard) (discard || decide (modeBnd c.mode = 2) || decide (c.g.fpEnable ≠ 0))
  else
    match c.judge s true c.lanes all with
    | .error t => .trap t
    | .ok (fl, card) =>
      let s := s.setGroup c.gid (c.put (c.g.stick fl) (6 + (s.clock - c.view.clock)) ws)
      .done (match card with
        | some k => writeCard s c.gid k.words
        | none => s)

/-- A sub-element converted: its bits, its bound term, its flags (R186, R189); a conversion into E8M0 ignores ftz (R187). -/
def convElem (sk dk : Kind) (sw dw rnd : Nat) (sat ftz : Bool) (β : B16) (x : Nat) : Nat × Bnd × BitVec 9 :=
  let c := readElem sk sw (ftz && decide (dk ≠ .flt .e8m0)) x
  let r := writeElem dk dw rnd sat ftz c
  (r.bits, convBound (Bnd.of β) c r, r.flags)

/-! ### CVT (R188) -/

/-- One lane of `CVT`: the parts of d that are written, and the rest of d as it stood. -/
def cvtLane (c : Gang) (src dst : Ty) (p k : Nat) (x : Nat) (βx : B16) (old : Nat) (βold : B16) : LaneOut :=
  let js (j : Nat) : Nat := if dst.n < src.n then p * k + j else j
  let jd (j : Nat) : Nat := if src.n < dst.n then p * k + j else j
  let todo := (List.range k).filter fun j => decide (js j < src.n) && decide (jd j < dst.n)
  let keep := decide (todo.length < dst.n)
  let start : Nat := if dst.w = 6 then old % 2 ^ 30 else if keep then old else 0
  let (v, b, fl) := todo.foldl (fun (acc : Nat × Bnd × BitVec 9) j =>
    let (v, b, fl) := acc
    let (bits, term, f) := convElem src.kind dst.kind src.w dst.w (modeRnd c.mode) (modeSat c.mode) (modeFtz c.mode) βx (elem x (js j) src.w)
    (setElem v (jd j) dst.w bits, b.max term, fl ||| f)) (start, if keep then Bnd.of βold else .fin 0, 0)
  { val := BitVec.ofNat 64 v, bnd := if c.untracked then b16Untracked else b.toB16, flags := fl, tier := 0 }

/-- `CVT` (R188). -/
def execCvt (d : Dst) (a : Src) (part : BitVec 3) (src : BitVec 5) (s : State) : Host.Outcome State Fault Refusal :=
  let st := (tyOf src.toNat).getD tyF32
  issue (.cvt d a part src) s { regs := dstRegs d, ranges := (srcRegs a).map fun r => (r, if st.is64 then 2 else 1) } fun c =>
    match c.ty with
    | none => c.badMode
    | some t =>
      if t.kind = .b16 then c.badMode
      else if st.is64 && !a.even then c.illegal 2
      else
        let k := min st.n t.n
        if (max st.n t.n + k - 1) / k ≤ part.toNat then c.illegal 1
        else
          let x := c.opndRaw st.is64 a
          let z := c.opnd t (dstSrc d)
          let out (l : Nat) : LaneOut := cvtLane c st t part.toNat k (x.at l) (x.bndAt l) (z.at l) (z.bndAt l)
          let long := decide (st.w ≤ 8) || decide (t.w ≤ 8)
          c.deliverConv (spend s (if st.is64 || t.is64 then 1 else 0)) long t.is64 (decide (d = .discard)) [(d, out)]

/-! ### PACK and UNPK (R190, R191) -/

/-- The types of `PACK`, `UNPK`, `DECH` and `DECZ` (R184): packed, and not B16x2. -/
def packTy (t : Ty) : Bool := decide (t.w ≤ 16) && decide (t.kind ≠ .b16)

/-- The 32-bit type that a packed type widens to (R190, R191). -/
def wideOf (t : Ty) : Kind := match t.kind with
  | .sint => .sint
  | .uint => .uint
  | .flt _ | .b16 => .flt .f32

/-- The number of registers of a range that MODE's type gives (R185): 0 for a type not accepted. -/
def packCount (accepts : Ty → Bool) (m : BitVec 24) : Nat := match tyOf (modeType m) with
  | some t => if accepts t then t.n else 0
  | none => 0

/-- Register j of a range. -/
def rangeReg (r : VFirst) (j : Nat) : VReg := if h : r.val + j < 240 then .v ⟨r.val + j, h⟩ else .v r

/-- Assemble a lane from n converted sub-elements. -/
def packLane (c : Gang) (t : Ty) (f : Nat → Nat × Bnd × BitVec 9) : LaneOut :=
  let (v, b, fl) := (List.range t.n).foldl (fun (acc : Nat × Bnd × BitVec 9) j =>
    let (v, b, fl) := acc
    let (bits, term, g) := f j
    (v + bits % 2 ^ t.w * 2 ^ (j * t.w), b.max term, fl ||| g)) (0, .fin 0, 0)
  { val := BitVec.ofNat 64 v, bnd := if c.untracked then b16Untracked else b.toB16, flags := fl, tier := 0 }

/-- `PACK` (R190). -/
def execPack (d : Dst) (a : VFirst) (s : State) : Host.Outcome State Fault Refusal :=
  issue (.pack d a) s { regs := dstRegs d, byMode := [(.v a, packCount packTy)] } fun c =>
    match c.ty with
    | none => c.badMode
    | some t =>
      if !packTy t then c.badMode
      else
        let x (j : Nat) : Opnd := c.view.opnd false (rangeReg a j)
        let out (l : Nat) : LaneOut := packLane c t fun j =>
          convElem (wideOf t) t.kind 32 t.w (modeRnd c.mode) (modeSat c.mode) (modeFtz c.mode) ((x j).bndAt l) ((x j).at l)
        c.deliverConv (spend s (t.n - 1)) (decide (t.w ≤ 8)) false (decide (d = .discard)) [(d, out)]

/-- `UNPK` (R191). -/
def execUnpk (d : VFirst) (a : Src) (count first : BitVec 3) (s : State) : Host.Outcome State Fault Refusal :=
  let n := count.toNat + 1
  issue (.unpk d a count first) s { regs := srcRegs a, ranges := [(.v d, n)] } fun c =>
    match c.ty with
    | none => c.badMode
    | some t =>
      if !packTy t then c.badMode
      else if t.n < first.toNat + n then c.illegal 1
      else
        let x := c.opnd t a
        let out (j l : Nat) : LaneOut :=
          let (v, b, fl) := convElem t.kind (wideOf t) t.w 32 0 (modeSat c.mode) (modeFtz c.mode) (x.bndAt l) (elem (x.at l) (first.toNat + j) t.w)
          { val := BitVec.ofNat 64 v, bnd := if c.untracked then b16Untracked else b.toB16, flags := fl, tier := 0 }
        c.deliverConv (spend s (n - 1)) (decide (t.w ≤ 8)) false false
          ((List.range n).map fun j => (.reg (rangeReg d j), out j))

/-! ### Block quantisation (R192–R195) -/

/-- The types of `QBLK`, `QAPPLY` and `DQ`, with their formats (R184). -/
def blockFmt (t : Ty) : Option Fmt := match t.kind with
  | .flt .e4m3 => some .e4m3
  | .flt .e5m2 => some .e5m2
  | .flt .e2m1 => some .e2m1
  | _ => none

/-- The scale of a block whose largest magnitude is mx (R192). -/
def blockScale (f : Fmt) (fit : Bool) (mx : Option Rat) : Nat := match mx with
  | none => 255
  | some q =>
    if q = 0 then 0
    else
      let e : Int := if fit then ceilLog2 (q / f.largest) else floorLog2 q - f.emax
      (max (-127) (min 127 e) + 127).toNat

/-- `QBLK` (R192, R193). -/
def execQblk (d : Dst) (a : VFirst) (fit b16 : Bool) (s : State) : Host.Outcome State Fault Refusal :=
  issue (.qblk d a fit b16) s { regs := dstRegs d, byMode := [(.v a, packCount fun t => (blockFmt t).isSome)] } fun c =>
    match c.ty.bind fun t => (blockFmt t).map fun f => (t, f) with
    | none => c.badMode
    | some (t, f) =>
      let m := (if b16 then 16 else 32) / t.n
      let inBlock (l k : Nat) : Bool := decide (k / m = l / m)
      let away := lanesOf c.k.perSlice (c.g.liveSlices c.k &&& ~~~c.run.slices) fun _ => c.k.fullMask
      if (setBitsOf c.lanes).any fun l => (setBitsOf away).any (inBlock l) then c.illegal 5
      else
        let x (j : Nat) : Opnd := c.view.opnd false (rangeReg a j)
        let mag (j l : Nat) : Option Rat := match (flushIn .f32 (modeFtz c.mode) (Fmt.f32.decode ((x j).at l))).1 with
          | .fin _ q => some q
          | .nan _ _ | .inf _ => none
        let mx (l : Nat) : Option Rat := ((setBitsOf c.lanes).filter (inBlock l)).foldl (fun acc k =>
          (List.range t.n).foldl (fun acc j => match acc, mag j k with
            | some p, some q => some (max p q)
            | _, _ => none) acc) (some 0)
        let out (l : Nat) : LaneOut :=
          { val := BitVec.ofNat 64 (blockScale f fit (mx l)), bnd := scoreB c.k.score b16Exact, flags := 0, tier := 0 }
        let s := spend s (t.n - 1)
        if d = .discard then .done s
        else
          let p : Pending := { kind := .conv, flag := none, writes := dstWrites false d (outOpnd out) c.lanes, sticky := 0, card := none
                               holds := false, trap := none, quarter := c.g.quarter, slices := c.run.slices, run := c.run.id, issued := c.view.serial, known := true }
          c.launch s c.g p true false

/-- `QAPPLY` (R194). -/
def execQapply (d : Dst) (a : VFirst) (b : Src) (s : State) : Host.Outcome State Fault Refusal :=
  issue (.qapply d a b) s { regs := dstRegs d ++ srcRegs b, byMode := [(.v a, packCount fun t => (blockFmt t).isSome)] } fun c =>
    match c.ty.bind fun t => (blockFmt t).map fun f => (t, f) with
    | none => c.badMode
    | some (t, f) =>
      let x (j : Nat) : Opnd := c.view.opnd false (rangeReg a j)
      let sc := c.opnd t b
      let one (l j : Nat) : Nat × Bnd × BitVec 9 :=
        let e := sc.at l % 256
        let β := Bnd.of ((x j).bndAt l)
        let r := readElem (.flt .f32) 32 (modeFtz c.mode) ((x j).at l)
        if e = 255 then (f.encode (writeSpecial f false (.nan false false)).1, β.add .unb, flInvalid)
        else
          let scaled : Val := match r.val with
            | .fin n q => .fin n (q * pow2 (127 - (e : Int)))
            | v => v
          let w := convFloat f (modeRnd c.mode) (modeSat c.mode) (modeFtz c.mode) scaled
          let fl := w.flags ||| flagIf r.snan flInvalid
          let term : Bnd := match w.val, r.val with
            | some q, .fin _ _ => (β.add (.fin r.flush)).add (.fin (ratAbs (r.val.real - pow2 ((e : Int) - 127) * q)))
            | _, _ => β.add .unb
          (w.bits, term, fl)
      let out (l : Nat) : LaneOut :=
        let o := packLane c t (one l)
        let βs := sc.bndAt l
        if c.untracked || βs = b16Exact || isUntracked βs then o else { o with bnd := ((Bnd.of o.bnd).add .unb).toB16 }
      c.deliverConv (spend s (t.n - 1)) true false (decide (d = .discard)) [(d, out)]

/-- `DQ` (R195). -/
def execDq (d : VFirst) (a b : Src) (s : State) : Host.Outcome State Fault Refusal :=
  issue (.dq d a b) s { regs := srcRegs a ++ srcRegs b, byMode := [(.v d, packCount fun t => (blockFmt t).isSome)] } fun c =>
    match c.ty.bind fun t => (blockFmt t).map fun f => (t, f) with
    | none => c.badMode
    | some (t, f) =>
      let x := c.opnd t a
      let sc := c.opnd t b
      let out (j l : Nat) : LaneOut :=
        let e := sc.at l % 256
        let v : Val := if e = 255 then .nan false false else match f.decode (elem (x.at l) j t.w) with
          | .fin n q => .fin n (q * pow2 ((e : Int) - 127))
          | v => v
        let w := convFloat .f32 (modeRnd c.mode) (modeSat c.mode) (modeFtz c.mode) v
        let β := Bnd.of (x.bndAt l)
        let term : Bnd := match w.val, v with
          | some q, .fin _ _ => β.add (.fin (ratAbs (v.real - q)))
          | _, _ => β.add .unb
        { val := BitVec.ofNat 64 w.bits, bnd := if c.untracked then b16Untracked else term.toB16, flags := w.flags, tier := 0 }
      c.deliverConv (spend s (t.n - 1)) true false false ((List.range t.n).map fun j => (.reg (rangeReg d j), out j))

end Sys2Proof.Machine
end

