-- ==== Sys2Proof/Machine/TileOps.lean ====
section
/-! DEFINITION. Tiles: their layout, element reads and writes, bounds, and allocation (R130, R253–R257, R259). -/

namespace Sys2Proof.Machine

/-! ### Shape (R253, R254) -/

/-- The element type of a tile; F32 only where the code is illegal, which no allocated tile's is. -/
def tileTy (desc : W64) : Ty := (tyOf (bits desc 36 32)).getD tyF32
def tileRows (desc : W64) : Nat := bits desc 15 0
def tileCols (desc : W64) : Nat := bits desc 31 16
def tileBounded (desc : W64) : Bool := bit desc 38
/-- Elements to a 32-bit word; 0 for a 64-bit element. -/
def perWord (w : Nat) : Nat := if w = 6 then 5 else 32 / w
/-- Data words per row. -/
def tileDw (desc : W64) : Nat :=
  let w := (tileTy desc).w
  if w = 6 then (tileCols desc + 4) / 5 else (tileCols desc * w + 31) / 32
/-- Words per row, the sidebands included. -/
def tileRw (desc : W64) : Nat := if tileBounded desc then tileDw desc + 2 * ((tileDw desc + 11) / 12) else tileDw desc
/-- Bank rows. -/
def tileF (desc : W64) : Nat := (tileRows desc * tileRw desc + 47) / 48
/-- The bank rows that a tile takes of each core's reservation: half for a PAIR tile. -/
def tileRowsPerCore (desc : W64) : Nat := if bit desc 37 then (tileF desc + 1) / 2 else tileF desc
/-- Sidebands per row (R130). -/
def tileSecs (desc : W64) : Nat := (tileDw desc + 11) / 12
/-- Data bytes of a tile (R197). -/
def tileBytes (desc : W64) : Nat := 4 * tileRows desc * tileDw desc

/-- A tile of the team. -/
def State.tile (s : State) (team : Nat) (h : TileNo) : Option Tile := KMap.get? (s.team team).tiles h.val
/-- A tile replaced. -/
def State.setTile (s : State) (team : Nat) (h : TileNo) (t : Tile) : State :=
  let x := s.team team
  s.setTeam team { x with tiles := KMap.set x.tiles h.val t }

/-! ### Words and elements (R255) -/

/-- Data word k, by row · dw + column word. -/
def Tile.word (t : Tile) (k : Nat) : Nat := ((KMap.get? t.words k).getD 0).toNat
/-- Set a data word, keeping the canonical form; a write of the whole word clears its poison (R441). -/
def Tile.setWord (t : Tile) (k v : Nat) : Tile :=
  { t with words := if v % 2 ^ 32 = 0 then KMap.erase t.words k else KMap.set t.words k (BitVec.ofNat 32 v) }
/-- The sideband of sector k, by row · sectors + sector of the row. -/
def Tile.sideband (t : Tile) (k : Nat) : W64 := (KMap.get? t.side k).getD sideExact

/-- The 4-byte banks of a scratchpad's bank row (R255). -/
def scratchBanks : Nat := 48

/-- Where word c of a tile's row lies, the words of the sidebands after those of the data: the core, the bank row and the bank (R255). A
PAIR tile's bank rows alternate between the cores of its pair. Nothing that a program or host reads depends on the place. -/
def Tile.placeOf (t : Tile) (row c : Nat) : Nat × Nat × Nat :=
  let l := row * tileRw t.desc + c
  let j := l / scratchBanks
  let bank := (l % scratchBanks + j) % scratchBanks
  if bit t.desc 37 then (t.core / 2 * 2 + j % 2, t.base + j / 2, bank) else (t.core, t.base + j, bank)

/-- The first word, shift and width of element (row, col), within the row's words. -/
def tileElem (desc : W64) (col : Nat) : Nat × Nat × Nat :=
  let w := (tileTy desc).w
  if w = 64 then (2 * col, 0, 64)
  else (col / perWord w, w * (col % perWord w), w)

/-- The element's bits. -/
def Tile.read (t : Tile) (row col : Nat) : Nat :=
  let (k, sh, w) := tileElem t.desc col
  let b := row * tileDw t.desc + k
  if w = 64 then t.word b + 2 ^ 32 * t.word (b + 1) else t.word b / 2 ^ sh % 2 ^ w

/-- The bound of data word k of a row, where the tile keeps sidebands. -/
def Tile.wordBound (t : Tile) (row k : Nat) : B16 := sideWord (t.sideband (row * tileSecs t.desc + k / 12)) (k % 12)

/-- The source bound of an element (R257): from the sidebands, or declared. -/
def Tile.bound (t : Tile) (row col : Nat) : B16 :=
  if tileBounded t.desc then
    let (k, _, w) := tileElem t.desc col
    if w = 64 then maxB16 (t.wordBound row k) (t.wordBound row (k + 1)) else t.wordBound row k
  else BitVec.ofNat 16 (bits t.desc 63 48)

/-- The words that an element lies in are poisoned (R441). -/
def Tile.poisoned (t : Tile) (row col : Nat) : Bool :=
  let (k, _, w) := tileElem t.desc col
  let b := row * tileDw t.desc + k
  t.poison.contains b || (w = 64 && t.poison.contains (b + 1))

/-- One element written: its place, its bits, and its bound. -/
structure TileWrite where
  row : Nat
  col : Nat
  bits : Nat
  bnd : B16

/-- The last write to each element stands (R247). -/
def lastWrites (l : List TileWrite) : List TileWrite :=
  l.foldr (fun x acc => if acc.any fun y => y.row = x.row ∧ y.col = x.col then acc else x :: acc) []

/-- Write element bits, with no bounds. -/
def Tile.writeBits (t : Tile) (x : TileWrite) : Tile :=
  let (k, sh, w) := tileElem t.desc x.col
  let b := x.row * tileDw t.desc + k
  if w = 64 then (t.setWord b (x.bits % 2 ^ 32)).setWord (b + 1) (x.bits / 2 ^ 32)
  else
    let old := t.word b
    t.setWord b (old - old / 2 ^ sh % 2 ^ w * 2 ^ sh + x.bits % 2 ^ w * 2 ^ sh)

/-- The elements that word k of a row holds. -/
def wordElems (desc : W64) (k : Nat) : List Nat :=
  let w := (tileTy desc).w
  if w = 64 then [k / 2]
  else ((List.range (perWord w)).map (k * perWord w + ·)).filter (· < tileCols desc)

/-- Write elements in one step, each sector merging once (R129, R240, R257). -/
def Tile.write (t : Tile) (ws : List TileWrite) : Tile :=
  let ws := lastWrites ws
  let touched := (ws.flatMap fun x =>
    let (k, _, w) := tileElem t.desc x.col
    if w = 64 then [(x.row, k), (x.row, k + 1)] else [(x.row, k)]).dedup
  let whole (r k : Nat) : Bool := (wordElems t.desc k).all fun c => ws.any fun x => x.row = r ∧ x.col = c
  let new := ws.foldl (fun t x => t.writeBits x) t
  let new := { new with poison := new.poison.filter fun b => !(touched.any fun (r, k) => r * tileDw t.desc + k = b ∧ whole r k) }
  if !tileBounded t.desc then new
  else
    let wordB (r k : Nat) : B16 :=
      let mine := ws.filter fun x => x.row = r && (wordElems t.desc k).contains x.col
      mine.foldl (fun b x => maxB16 b x.bnd) (if whole r k then b16Exact else t.wordBound r k)
    let secs := (touched.map fun (r, k) => (r, k / 12)).dedup
    secs.foldl (fun t (r, c) =>
      let n := min 12 (tileDw t.desc - 12 * c)
      let key := r * tileSecs t.desc + c
      let bs := (touched.filter fun (r', k) => r' = r ∧ k / 12 = c).map fun (_, k) => (k % 12, wordB r k)
      let m := bs.foldl (fun (m : KMap B16) (k, b) => KMap.set m k b) []
      { t with side := setSide t.side key (sideMerge n (t.sideband key) m) }) new

/-! ### Checks (R245, R488) -/

/-- Trap 0x0C with a cause, the failing lanes and the lowest failing element index. -/
def trapTile (cause : Nat) (lanes : BitVec 32) (index : Nat) : TrapInfo :=
  trapOf 0x0C [BitVec.ofNat 64 cause, BitVec.ofNat 64 lanes.toNat, BitVec.ofNat 64 index]

/-- The check of an access to a tile: allocated, and every element of every lane inside. `at_` gives a lane's elements
as (row, column). -/
def tileCheck (t : Option Tile) (lanes : BitVec 32) (at_ : Nat → List (Nat × Nat)) : Except TrapInfo Tile :=
  match t with
  | none => .error (trapTile 0 lanes 0)
  | some t =>
    let out (p : Nat × Nat) : Bool := decide (tileRows t.desc ≤ p.1) || decide (tileCols t.desc ≤ p.2)
    let bad := lanes &&& maskOf 32 fun l => (at_ l).any out
    if bad = 0 then .ok t
    else
      let idx := ((setBitsOf bad).flatMap fun l => ((at_ l).filter out).map fun (r, c) => r * tileCols t.desc + c)
      .error (trapTile 1 bad (idx.foldl min (idx.headD 0)))

/-- A flat index as (row, column) (R244). -/
def flatAt (desc : W64) (k : Nat) : Nat × Nat := (k / max 1 (tileCols desc), k % max 1 (tileCols desc))

/-! ### Allocation and use (R254, R256) -/

/-- A tile of a PAIR level. -/
def tilePair (desc : W64) : Bool := bit desc 37

/-- The lowest offset at which n bank rows are free of every tile that shares a scratchpad with the new one. -/
def freeRun (tiles : List Tile) (reservation n : Nat) (pair : Bool) (core : Nat) : Option Nat :=
  let near := tiles.filter fun t => pair || tilePair t.desc || decide (t.core = core)
  let at0 := 0 :: near.map fun t => t.base + t.rows
  let ok (b : Nat) : Bool := decide (b + n ≤ reservation) && near.all fun t => decide (b + n ≤ t.base) || decide (t.base + t.rows ≤ b)
  let good := at0.filter ok
  match good with
  | [] => none
  | x :: l => some (l.foldl min x)

/-- A shape that `TALLOC` takes (R254). -/
def shapeOk (desc : W64) (pairTeam : Bool) : Bool :=
  decide (1 ≤ tileRows desc) && decide (1 ≤ tileCols desc) && (tyOf (bits desc 36 32)).isSome && decide (bits desc 47 40 = 0) &&
    !bit desc 39 && (!tilePair desc || pairTeam)

/-- A copy-engine command uses a tile (R256, R351). -/
def copyUses (c : CopyCmd) (h : TileNo) : Bool :=
  let w := wordAt c.words 0
  if c.opcode = 0x77 then decide (c.destTile = h) || decide (c.srcTile = h) || decide (bits (wordAt c.words 1) 4 0 = h.val)
  else if c.opcode = 0xD2 then false
  else decide (bits w 63 56 = 224 + h.val) || decide (bits w 55 48 = 224 + h.val)

/-- A decode uses a tile (R198). -/
def decodeUses (j : DecodeJob) (h : TileNo) : Bool := decide (j.stream = h) || decide (bits j.desc2 4 0 = h.val)

/-- A matrix-queue entry uses a tile: its operands, its scale tiles, or the tile of an `MRES` (R366, R371). -/
def matrixUses (e : MEntry) (h : TileNo) : Bool :=
  match e.kind with
  | .mma => decide (bits e.word 19 15 = h.val) || decide (bits e.word 14 10 = h.val) ||
      (decide (bits (wordAt e.scale 0) 1 0 ≠ 0) && (decide (bits (wordAt e.scale 1) 4 0 = h.val) || decide (bits (wordAt e.scale 2) 4 0 = h.val)))
  | .mres => decide (e.tile = h)
  | .accz | .accrd | .accwr => false

/-- Some access of the team to a tile is in flight (R256), of those that pass a test on group and number. -/
def tileUsed (s : State) (team : Nat) (h : TileNo) (p : Nat → Nat → Bool) : Bool :=
  let mine (gid : Nat) : Bool := match s.group? gid with
    | some g => decide (g.team = team)
    | none => false
  let decoding (l : List DecodeJob) : Bool := l.any fun j => mine j.gid && decodeUses j h && p j.gid j.seq
  let entries (l : List MEntry) : Bool := l.any fun e => mine e.gid && matrixUses e h && p e.gid e.seq
  (s.groups.any fun (gid, g) => decide (g.team = team) &&
      ((g.ld.any fun x => !x.places.isEmpty && p gid x.id && (match x.todo with
        | some a => decide (a.rtField.toNat = 224 + h.val)
        | none => false)) ||
      (g.parks.any fun x => decide (x.cause ≠ ParkCause.done) && p gid x.acc.seq && (match x.acc.op with
        | .ctab t _ => decide (t = h)
        | _ => false)) ||
      (g.copies.any fun c => copyUses c h && !c.ended && !c.released && p gid c.seq) || decoding g.savedJobs || entries g.savedMq)) ||
    s.cores.any fun (_, c) => decoding c.decodeQ || entries c.mq

/-- The number that the next access of each group of a team takes. -/
def teamMarks (s : State) (team : Nat) : KMap Nat := (s.groups.filter fun (_, g) => decide (g.team = team)).map fun (gid, g) => (gid, g.stepSeq)

/-- Issued before some marks were taken. -/
def beforeMarks (m : KMap Nat) (gid seq : Nat) : Bool := decide (seq < (KMap.get? m gid).getD 0)

/-- The freed tiles that are still in use, oldest first (R256). -/
def lateInUse (s : State) (team : Nat) : List LateTile :=
  (s.team team).late.filter fun z => tileUsed s team ⟨z.handle % 32, Nat.mod_lt _ (by decide)⟩ (beforeMarks z.marks)

/-- The freed tiles that an access of a group, of some number, was issued to (R256): of one handle, the first freed. -/
def lateFor (x : Team) (gid seq : Nat) : List LateTile :=
  (x.late.filter fun z => beforeMarks z.marks gid seq).foldl (fun l z => if l.any fun y => y.handle = z.handle then l else l ++ [z]) []

/-- A reduction to one of some freed tiles' handles: it is to the tile that the handle names now. -/
def toHandles (l : List LateTile) (e : RedEntry) : Bool := match e.target with
  | .tile h _ => l.any fun z => z.handle = h.val
  | .mem _ _ _ => false

/-- The state as an access of a group sees it whose tiles may have been freed since it was issued (R256). -/
def lateIn (s : State) (gid seq : Nat) : State :=
  match s.group? gid with
  | none => s
  | some g =>
    let x := s.team g.team
    let l := lateFor x gid seq
    if l.isEmpty then s
    else (s.setTeam g.team { x with tiles := l.foldl (fun m z => KMap.set m z.handle z.tile) x.tiles }).setGroup gid { g with red := g.red.filter fun e => !toHandles l e }

/-- The freed tiles go back behind their handles after the access. -/
def lateOut (s0 s : State) (gid seq : Nat) : State :=
  match s0.group? gid with
  | none => s
  | some g0 =>
    let x0 := s0.team g0.team
    let l := lateFor x0 gid seq
    if l.isEmpty || (KMap.get? s.teams g0.team).isNone then s
    else
      let x := s.team g0.team
      let put (m : KMap Tile) (z : LateTile) : KMap Tile := match KMap.get? x0.tiles z.handle with
        | some t => KMap.set m z.handle t
        | none => KMap.erase m z.handle
      let late := x0.late.map fun z => if l.contains z then { z with tile := (KMap.get? x.tiles z.handle).getD z.tile } else z
      (s.setTeam g0.team { x with tiles := l.foldl put x.tiles, late := late }).modGroup gid fun g => if !g.live then g else
        { g with red := g0.red.filter fun e => toHandles l e || g.red.contains e }

/-- A step of an access of a group, under the tiles that it was issued to. -/
def underLate (s : State) (gid seq : Nat) (f : State → State) : State := lateOut s (f (lateIn s gid seq)) gid seq

end Sys2Proof.Machine
end

