-- ==== Sys2Proof/Machine/MemAcc.lean ====
section
/-! DEFINITION. Memory accesses: records, the elements an access names, its checks and translation, the conversion
stage, loads and stores over elements, buffered-reduction drains, and parking (R228–R252, R266–R271, R294–R297). -/

namespace Sys2Proof.Machine

/-! ### Wakes (R315, R317, R319) -/

/-- The first clock of the 100 ms window that a partition is in (R423). -/
def windowClocks : Nat := 180000000
def windowStart (s : State) (part : Nat) : Nat := s.clock - s.sysClock part % windowClocks

/-- A context's running time in the current window, brought up to the clock (R423). -/
def ranNow (s : State) (c : Context) : Context :=
  let w := windowStart s c.part
  let before := if c.ranAt < w then 0 else c.ran
  { c with ran := if c.state = .runnable then before + (s.clock - max c.ranAt w) else before, ranAt := s.clock }

/-- An idle context whose group goes on is runnable (R319); its running time counts from now (R423). -/
def wakeContext (s : State) (asid : Nat) : State :=
  { s with ctxs := KMap.modify s.ctxs asid fun c => if c.state = .idle then { ranNow s c with state := .runnable } else c }

/-- Wake the groups whose monitored waits pass a test; an idle context of theirs is runnable again (R319). -/
def wakeGroups (s : State) (p : Group → WaitA → Bool) : State :=
  let hit := s.groups.filter fun (_, g) => match g.waita with
    | some w => p g w
    | none => false
  let s := hit.foldl (fun s (_, g) => wakeContext s (s.kernel g.kernel).asid) s
  hit.foldl (fun s (gid, _) => s.modGroup gid fun g => { g with waita := g.waita.map fun w => { w with woken := true } }) s

/-- Wake every group whose monitor holds the written sector, and every command whose wait semaphore lies in it (R315, R416). -/
def wakeSector (s : State) (sec : Nat) : State :=
  wakeGroups { s with queues := KMap.mapVals s.queues fun _ q => if q.stage = .waiting ∧ q.waitSector = sec then { q with woken := true } else q }
    fun _ w => match w.target with
      | .mem _ pa => w.armed && decide (sectorOf pa = sec)
      | .tile _ _ => false

/-- Wake every group of a team that watches the written tile word. -/
def wakeTile (s : State) (team : Nat) (h : TileNo) (word : Nat) : State :=
  wakeGroups s fun g w => match w.target with
    | .tile h' k => w.armed && decide (g.team = team) && decide (h' = h) && (decide (k = word) || (decide (w.width = 8) && decide (k + 1 = word)))
    | .mem _ _ => false

/-- The attributes of no page, for the elements of tiles. -/
def noAttr : Attr := { type := 0, rd := true, w := true, x := false, bc := false, size := 0, asid := 0, vpage := 0 }

/-! ### Records (R234–R236) -/

/-- The fields of a record. -/
structure Rec where
  base : Nat
  bound : B16
  type : Nat
  len : Nat
  rowstride : Nat
  sub : Nat
  stride : Nat
  bc : Nat
  dur : Nat
  sig : Bool
  cache : Nat
  srec : Nat
  sfmt : Nat
  blk : Nat
  reserved : Bool
  deriving DecidableEq, Repr

/-- The fields of a record's words (R234). -/
def recOf (w : List W64) : Rec :=
  let a := wordAt w 0
  let b := wordAt w 1
  let c := wordAt w 2
  let d := wordAt w 3
  let e := wordAt w 4
  { base := bits a 59 0, bound := BitVec.ofNat 16 (bits b 63 48), type := bits b 44 40, len := bits b 39 0
    rowstride := bits c 63 32, sub := bits c 31 16, stride := bits c 15 0
    bc := bits d 20 19, dur := bits d 18 17, sig := bit d 16, cache := bits d 15 12, srec := bits d 11 4, sfmt := bits d 3 2
    blk := bits d 1 0
    reserved := decide (bits a 63 60 ≠ 0) || decide (bits b 47 45 ≠ 0) || decide (bits d 63 21 ≠ 0) || decide (bits e 63 32 ≠ 0) }

/-- A pointer record (R285). -/
def Rec.pointer (r : Rec) : Bool := decide (r.base = 0) && decide (r.len = 0)
/-- The element type of a record; F32 only where the code is illegal. -/
def Rec.ty (r : Rec) : Ty := (tyOf r.type).getD tyF32
/-- Elements to a scale (R234). -/
def Rec.block (r : Rec) : Nat := if r.blk = 1 then 16 else 32
/-- A record malformed by its own fields (R236). -/
def Rec.bad (r : Rec) : Bool :=
  r.reserved || (tyOf r.type).isNone || decide (r.blk = 3) || decide (r.sfmt ≠ 0) || decide (r.dur = 3) || decide (r.bc = 3) ||
    decide (r.cache / 4 = 3) || decide (2 ^ 60 < r.base + r.len)

/-- The snapshot of a record with, after its five words, those of its scale record (R237, R238). -/
def snapRecord (k : Kernel) (r : RecNo) : Option (RecNo × List W64) :=
  if r.val < k.recCount then
    let w := (KMap.get? k.records r.val).getD []
    let x := recOf w
    let five := (List.range 5).map (wordAt w)
    if x.blk ≠ 0 ∧ x.srec < k.recCount then some (r, five ++ (List.range 5).map (wordAt ((KMap.get? k.records x.srec).getD [])))
    else some (r, five)
  else none

/-- A captured record is malformed: itself, or through its scale record (R236, R238). -/
def recMalformed (w : List W64) : Bool :=
  let r := recOf w
  let sc := recOf (w.drop 5)
  r.bad || (decide (r.blk ≠ 0) && (decide (w.length < 10) || decide (sc.type ≠ 0x09) || sc.bad))

/-! ### The elements of an access (R235, R244, R248–R251, R286) -/

/-- One element that an access names: the lane and sub-element, whether it is a scale, its byte offset in its record or
its generic address, its bytes, and its bits within them. -/
structure Spot where
  lane : Nat
  j : Nat
  scale : Bool
  off : Nat
  va : Nat
  n : Nat
  sh : Nat
  w : Nat
  deriving DecidableEq, Repr

/-- Offset, bytes and shift of element p of width w (R235). -/
def elemPlace (w p : Nat) : Nat × Nat × Nat :=
  if w = 4 then (p / 2, 1, 4 * (p % 2)) else if w = 6 then (4 * (p / 5), 4, 6 * (p % 5)) else (p * (w / 8), w / 8, 0)

/-- The element position of an offset and sub-element (R235). -/
def elemPos (r : Rec) (o j : Nat) : Nat :=
  let o := o % 2 ^ 32
  if r.rowstride = 0 then r.sub + (o + j) * r.stride
  else r.sub + o / 2 ^ 16 * r.rowstride + (o % 2 ^ 16 + j) * r.stride

/-- The access works through a generic address rather than a record's offsets. -/
def Access.generic (a : Access) : Bool := match a.op with
  | .ldg _ | .stg | .semsig | .enq _ _ | .fetch | .recsync _ => true
  | .atomic _ | .reduce _ => (match a.record with
    | some (_, w) => (recOf w).pointer
    | none => false)
  | .waita | .ld | .st _ | .sld | .sst | .pref | .cctl _ | .ctab _ _ => false

/-- The access names no record. -/
def Access.recordless (a : Access) : Bool := match a.op with
  | .ldg _ | .stg | .semsig | .enq _ _ | .fetch | .recsync _ => true
  | .atomic _ | .reduce _ | .waita | .ld | .st _ | .sld | .sst | .pref | .cctl _ | .ctab _ _ => false

/-- The MODE type that an access was issued under. -/
def Access.ty (a : Access) : Ty := (tyOf (modeType a.mode)).getD tyF32

/-- The elements of one lane. -/
def Access.laneSpots (a : Access) (l : Nat) : List Spot :=
  let o := (a.offs.toList.getD l 0).toNat
  let w := match a.record with
    | some (_, w) => w
    | none => []
  let r := recOf w
  let sc := recOf (w.drop 5)
  let main (j : Nat) : Spot :=
    let (off, n, sh) := elemPlace r.ty.w (elemPos r o j)
    { lane := l, j := j, scale := false, off := off, va := r.base + off, n := n, sh := sh, w := r.ty.w }
  let scaleOf (j : Nat) : Spot :=
    let off := sc.sub + elemPos r o j / r.block * sc.stride
    { lane := l, j := j, scale := true, off := off, va := sc.base + off, n := 1, sh := 0, w := 8 }
  let raw (n : Nat) : Spot := { lane := l, j := 0, scale := false, off := o, va := o, n := n, sh := 0, w := 8 * n }
  match a.op with
  | .ld | .st _ => (List.range a.ty.n).flatMap fun j => if r.blk = 0 then [main j] else [main j, scaleOf j]
  | .sld | .sst => [{ lane := l, j := 0, scale := false, off := 8 * (o % 2 ^ 32), va := r.base + 8 * (o % 2 ^ 32), n := 8, sh := 0, w := 64 }]
  | .ldg _ | .stg => [raw (if a.ty.is64 then 8 else 4)]
  | .pref | .cctl _ => [main 0]
  | .waita => [{ main 0 with n := a.ty.w / 8, w := a.ty.w }]
  | .atomic _ | .reduce _ => if r.pointer then [raw (r.ty.w / 8)] else [main 0]
  | .semsig => [raw 8]
  | .enq _ _ => (List.range 16).map fun i => { lane := l, j := i, scale := false, off := o + 8 * i, va := o + 8 * i, n := 8, sh := 0, w := 64 }
  | .ctab _ b => (List.range o).map fun i => { lane := l, j := i, scale := false, off := b.toNat + i, va := r.base + b.toNat + i, n := 1, sh := 0, w := 8 }
  | .recsync _ => (List.range ((a.data.headD VLine.zero).val.toList.getD 0 0).toNat).map fun i => { lane := l, j := i, scale := false, off := i, va := o + i, n := 1, sh := 0, w := 8 }
  | .fetch => []

/-- All elements of the lanes still to perform. -/
def Access.spots (a : Access) : List Spot := (setBitsOf a.lanes).flatMap a.laneSpots

/-- The access reads, and writes, what it names. -/
def Access.reads (a : Access) : Bool := match a.op with
  | .ld | .ldg _ | .sld | .pref | .atomic _ | .reduce _ | .waita | .ctab _ _ | .recsync _ | .fetch | .semsig | .enq _ _ => true
  | .st _ | .stg | .sst | .cctl _ => false
def Access.writes (a : Access) : Bool := match a.op with
  | .st _ | .stg | .sst | .cctl _ | .atomic _ | .reduce _ | .semsig => true
  | .ld | .ldg _ | .sld | .pref | .waita | .ctab _ _ | .recsync _ | .fetch | .enq _ _ => false

/-- An access made once for the gang (R273). -/
def Access.single (a : Access) : Bool := match a.op with
  | .sld | .sst | .waita | .ctab _ _ | .recsync _ | .semsig | .enq _ _ | .fetch => true
  | .ld | .st _ | .ldg _ | .stg | .pref | .cctl _ | .atomic _ | .reduce _ => false

/-! ### Checks before translation (R245 steps 3 and 4, R488) -/

/-- A trap of the checks of R245: cause, failing lanes, and the lowest failing address. -/
def trapAccess (code : BitVec 8) (cause : Nat) (bad : List Spot) : TrapInfo :=
  trapOf code [BitVec.ofNat 64 cause, BitVec.ofNat 64 (maskOf 32 fun l => bad.any fun p => p.lane = l).toNat,
    BitVec.ofNat 64 (bad.foldl (fun m p => min m p.va) ((bad.map (·.va)).headD 0))]

/-- A malformed record traps in every lane. -/
def trapMalformed (lanes : BitVec 32) : TrapInfo := trapOf 0x03 [1, BitVec.ofNat 64 lanes.toNat, 0]

/-- The alignment that an access asks of a record's base (R236, R248). -/
def baseAlign (a : Access) (w : Nat) : Nat := match a.op with
  | .sld | .sst => 8
  | _ => if w = 6 then 4 else if w = 4 then 1 else w / 8

/-- The checks of R245 steps 3 and 4. -/
def Access.check (a : Access) : Option TrapInfo :=
  let spots := a.spots
  let misaligned := (spots.filter fun p => p.va % p.n ≠ 0)
  if a.recordless then
    if misaligned.isEmpty then none else some (trapAccess 0x04 1 misaligned)
  else match a.record with
  | none => some (trapMalformed a.lanes)
  | some (_, w) =>
    let r := recOf w
    let sc := recOf (w.drop 5)
    if recMalformed w then some (trapMalformed a.lanes)
    else if a.generic then
      if misaligned.isEmpty then none else some (trapAccess 0x04 1 misaligned)
    else
      let out := spots.filter fun p => decide ((if p.scale then sc.len else r.len) < p.off + p.n)
      if !out.isEmpty then some (trapAccess 0x03 0 out)
      else if !spots.isEmpty && decide (r.base % baseAlign a r.ty.w ≠ 0) then some (trapAccess 0x04 0 spots)
      else none

/-! ### Translation and the checks after it (R245 steps 5 and 6, R266–R268) -/

/-- What an element's address comes to. -/
inductive Found where
  | at_ (a : Attr) (pa : Nat)
  | bad (cause : Nat)
  | absent
  | migrating (vpage : Nat)
  deriving DecidableEq, Repr

/-- The failure of a translated element: memory type, permission, expectation (R229, R230, R245, R286). -/
def pageCause (a : Access) (scale : Bool) (p : Attr) : Option Nat :=
  let r : Rec := match a.record with
    | some (_, w) => recOf (if scale then w.drop 5 else w)
    | none => recOf []
  let io := match a.op with
    | .ldg _ | .stg => true
    | _ => false
  let expects := !a.recordless
  if p.type = 1 ∨ (p.type = 4 ∧ !io) then some 2
  else if ((a.reads || scale) && !p.rd) || (a.writes && !scale && !p.w) then some 0
  else if expects && ((decide (r.bc = 1) && !p.bound) || (decide (r.bc = 2) && p.bound) || (decide (r.dur = 1) && decide (p.type ≠ 2)) ||
      (decide (r.dur = 2) && decide (p.type = 2))) then some 3
  else none

/-- The cache field of an access (R233): that of the record it goes through, and 0 for `LDG`, `STG`, `SLD` and `SST`. -/
def Access.policy (a : Access) (scale : Bool) : Nat := match a.op with
  | .ldg _ | .stg | .sld | .sst => 0
  | _ => (match a.record with
    | some (_, w) => (recOf (if scale then w.drop 5 else w)).cache
    | none => 0)

/-- Translate one element and check its page. -/
def locate (s : State) (core : Nat) (kid : Nat) (a : Access) (p : Spot) : State × Found :=
  let k := s.kernel kid
  let (s, x) :=
    if a.generic then
      if 2 ^ 60 ≤ p.va then (s, Xlat.malformed) else translate s core k.asid p.va
    else match a.record with
    | some (n, w) =>
      let r := recOf (if p.scale then w.drop 5 else w)
      let i := if p.scale then (recOf w).srec else n.val
      translateRecord s core k.asid r.base ((KMap.get? k.extents i).getD []) p.off
    | none => (s, .malformed)
  (s, match x with
    | .page t pa => (match pageCause a p.scale t with
      | some c => .bad c
      | none => .at_ { t with cache := a.policy p.scale } pa)
    | .absent => .absent
    | .migrating v => .migrating v
    | .malformed => .bad (if a.generic && decide (2 ^ 60 ≤ p.va) then 2 else 1))

/-- Translate all elements in order. -/
def locateAll (s : State) (core kid : Nat) (a : Access) : List Spot → State × List (Spot × Found)
  | [] => (s, [])
  | p :: t =>
    let (s, f) := locate s core kid a p
    let (s, l) := locateAll s core kid a t
    (s, (p, f) :: l)

/-- The trap 0x05 of the elements that fail step 5: the cause of the lowest failing lane. -/
def trapPages (l : List (Spot × Found)) : Option TrapInfo :=
  let bad := l.filterMap fun (p, f) => match f with
    | .bad c => some (p, c)
    | .at_ _ _ | .absent | .migrating _ => none
  match bad with
  | [] => none
  | (_, c) :: _ => some (trapAccess 0x05 c (bad.map (·.1)))

/-- The elements whose pages are absent or migrating. -/
def missing (l : List (Spot × Found)) : List Spot := l.filterMap fun (p, f) => match f with
  | .absent | .migrating _ => some p
  | .at_ _ _ | .bad _ => none

/-- The elements that a fault entry names: those whose pages are absent (R273). -/
def absentSpots (l : List (Spot × Found)) : List Spot := l.filterMap fun (p, f) => if f = .absent then some p else none

/-- The migrating page that an access met, where no page is absent (R279). -/
def migratingOf (l : List (Spot × Found)) : Option Nat :=
  if l.any fun (_, f) => f = .absent then none
  else (l.filterMap fun (_, f) => match f with
    | .migrating v => some v
    | .at_ _ _ | .bad _ | .absent => none).head?

/-- Where an element lies, once present. -/
def placeOf (l : List (Spot × Found)) (lane j : Nat) (scale : Bool) : Option (Spot × Attr × Nat) :=
  l.findSome? fun (p, f) => match f with
    | .at_ a pa => if p.lane = lane ∧ p.j = j ∧ p.scale = scale then some (p, a, pa) else none
    | .absent | .migrating _ | .bad _ => none

/-! ### Samples (R281) -/

/-- Count one element access for hotness sampling, and keep a sample of every 2^k-th. -/
def sampleAccess (s : State) (core part asid va kind : Nat) (a : Attr) : State :=
  let ctl := (s.part part).regs.hsCtl
  let k := bits ctl 12 8
  if bit ctl 0 && decide (6 ≤ k) && decide (k ≤ 20) && decide (a.type ≠ 1) then
    let c := s.core core
    let n := c.hotCount + 1
    let new : List Sample := if n % 2 ^ k = 0 then
        [{ va := va, clock := s.sysClock part, asid := asid, kind := kind, type := a.type, bc := a.bc, size := a.size }]
      else []
    s.setCore core { c with hotCount := n, samples := c.samples ++ new }
  else s

/-- Count the elements of an access. -/
def sampleAll (s : State) (core part asid kind : Nat) (l : List (Spot × Attr × Nat)) : State :=
  l.foldl (fun s (p, a, _) => sampleAccess s core part asid p.va kind a) s

/-! ### Reading and writing one element -/

/-- The no-allocate policy of an access (R233). -/
def noAlloc (a : Access) (scale : Bool) : Bool := decide (a.policy scale % 4 = 2)

/-- What reading one element gives: its bits, its source bound, and whether it was poisoned. -/
structure ElemRead where
  bits : Nat
  bnd : B16
  poison : Bool

/-- Count an L1 sector miss (R447). -/
def countMiss (s : State) (core vf : Nat) (a : Attr) (pa : Nat) : State :=
  if (l1Find s core a (sectorOf pa)).isSome then s else pmcCore s core vf 6 1

/-- Read one element through the L1; an IO page's read has no defined value (R229). -/
def readSpot (s : State) (core vf : Nat) (noalloc : Bool) (declared : B16) (p : Spot) (a : Attr) (pa : Nat) : State × ElemRead :=
  if a.type = 4 then
    (s, { bits := (Config.ioRead s.serial p.lane).toNat % 2 ^ p.w, bnd := declared, poison := false })
  else
    let bad := poisoned s core a pa
    let s := countMiss s core vf a pa
    let (s, v) := l1Read s core a noalloc pa p.n
    let b := if a.bound then
        (if p.n = 8 then maxB16 (l1Bound s core a pa) (l1Bound s core a (pa + 4)) else l1Bound s core a pa)
      else declared
    (s, { bits := v / 2 ^ p.sh % 2 ^ p.w, bnd := b, poison := bad })

/-- One element to write: where, its bits and its bound. -/
structure ElemWrite where
  spot : Spot
  attr : Attr
  pa : Nat
  bits : Nat
  bnd : B16

/-- The last write to each element stands (R247). -/
def lastElems (l : List ElemWrite) : List ElemWrite :=
  l.foldr (fun x acc => if acc.any fun y => y.pa = x.pa ∧ y.spot.sh = x.spot.sh then acc else x :: acc) []

/-- The bytes that an element's write writes, from the element's first byte: all of them, the whole byte of a 4-bit element and the whole
word of a 6-bit one (R322). -/
def touchedBytes (p : Spot) : List Nat := List.range p.n

/-- How a store reaches memory: into the L1, or through to the point of coherence, with or without a signal. -/
structure StoreWay where
  through : Bool
  signal : Bool

/-- Write the elements of one sector in one step (R129, R240). -/
def writeSector (s : State) (core gid : Nat) (score : Bool) (way : StoreWay) (sec : Nat) (ws : List ElemWrite) : State :=
  match ws with
  | [] => s
  | w0 :: _ =>
    let a := w0.attr
    let base := sectorBase sec
    let partialElem := ws.any fun x => x.spot.w % 8 ≠ 0
    let s := if a.bound || partialElem then l1Fill s core sec a else s
    let oldByte (o : Nat) : Byte := match l1Find s core a sec with
      | some e => (KMap.get? e.bytes o).getD 0
      | none => 0
    let bytes : KMap Byte := ws.foldl (fun (m : KMap Byte) x =>
      (touchedBytes x.spot).foldl (fun m i =>
        let o := x.pa - base + i
        let old := ((KMap.get? m o).getD (oldByte o)).toNat
        let v := (List.range 8).foldl (fun acc b =>
          let pos := 8 * i + b
          if x.spot.sh ≤ pos ∧ pos < x.spot.sh + x.spot.w then acc + (if x.bits.testBit (pos - x.spot.sh) then 2 ^ b else 0)
          else acc + (if old.testBit b then 2 ^ b else 0)) 0
        KMap.set m o (BitVec.ofNat 8 v)) m) []
    let words := (bytes.map fun (o, _) => o / 4).dedup
    let bitsIn (k : Nat) : Nat := (ws.map fun x =>
      let lo := 8 * (x.pa - base) + x.spot.sh
      let hi := lo + x.spot.w
      min hi (32 * k + 32) - max lo (32 * k)).foldl (· + ·) 0
    let six := ws.any fun x => x.spot.w = 6
    let bnds : KMap B16 := words.foldl (fun (m : KMap B16) k =>
      let whole := decide ((if six then 30 else 32) ≤ bitsIn k)
      let mine := ws.filter fun x => decide (8 * (x.pa - base) < 32 * k + 32) && decide (32 * k < 8 * (x.pa - base + x.spot.n))
      let b := mine.foldl (fun b x => maxB16 b (scoreB score x.bnd)) (if whole then b16Exact else l1Bound s core a (base + 4 * k))
      KMap.set m k b) []
    let w : SectorWrite := { attr := a, bytes := bytes, bounds := bnds }
    if way.through then
      let s := throughStore s core gid sec w
      if way.signal then wakeSector s sec else s
    else l1Store s core gid sec w

/-- Write elements, sector by sector; those of IO pages go to their device, and no acknowledgement is known (R229, R340). -/
def writeElems (s : State) (core gid : Nat) (score : Bool) (way : StoreWay) (ws : List ElemWrite) : State :=
  let s := if ws.any fun x => x.attr.type = 4 then s.modGroup gid fun g => { g with ioOut := true } else s
  let ws := lastElems (ws.filter fun x => x.attr.type ≠ 4)
  ((ws.map fun x => sectorOf x.pa).dedup).foldl (fun s sec => writeSector s core gid score way sec (ws.filter fun x => sectorOf x.pa = sec)) s

/-! ### The conversion stage (R238–R240) -/

/-- The scale read for an element: its byte and bound. -/
abbrev ScaleRead := Option (Nat × B16)

/-- A scale whose bound is neither exact nor untracked leaves the result unbounded (R240). -/
def scaleOpen (sc : ScaleRead) : Bool := match sc with
  | some (_, b) => decide (b ≠ b16Exact) && !isUntracked b
  | none => false

/-- A non-finite value was written in a float format. -/
def nonFinite (k : Kind) (x : Nat) : Bool := match k with
  | .flt f => !(f.decode x).isFinite
  | .sint | .uint | .b16 => false

/-- A value scaled by 2^k. -/
def scaleVal (k : Int) : Val → Val
  | .fin n q => .fin n (q * pow2 k)
  | v => v

/-- An element of format ef loaded into a sub-element of format mt (R238): bits, bound, flags. -/
def stageLoad (ef mt : Ty) (mode : BitVec 24) (sc : ScaleRead) (β : B16) (x : Nat) : Nat × Bnd × BitVec 9 :=
  let rnd := modeRnd mode
  let sat := modeSat mode
  let ftz := modeFtz mode
  match sc with
  | none =>
    if ef.kind = mt.kind ∧ ef.w = mt.w then (x, if nonFinite mt.kind x then (Bnd.of β).add .unb else Bnd.of β, 0)
    else convElem ef.kind mt.kind ef.w mt.w rnd sat ftz β x
  | some (e, _) =>
    let c := readElem ef.kind ef.w ftz x
    let k : Int := (e : Int) - 127
    let c : ConvIn := if e = 255 then { val := .nan false false, int := none, flush := 0, snan := c.snan }
      else { val := scaleVal k c.val, int := none, flush := c.flush * pow2 k, snan := c.snan }
    let r := writeElem mt.kind mt.w rnd sat ftz c
    let b := convBound (Bnd.of β) c r
    (r.bits, if scaleOpen sc then b.add .unb else b, r.flags ||| flagIf (decide (e = 255)) flInvalid)

/-- A sub-element of format mt stored into an element of format ef (R239): bits, bound, flags. -/
def stageStore (mt ef : Ty) (mode : BitVec 24) (sc : ScaleRead) (β : B16) (x : Nat) : Nat × Bnd × BitVec 9 :=
  let rnd := modeRnd mode
  let sat := modeSat mode
  let ftz := modeFtz mode
  match sc with
  | none =>
    if ef.kind = mt.kind ∧ ef.w = mt.w then (x, if nonFinite ef.kind x then (Bnd.of β).add .unb else Bnd.of β, 0)
    else convElem mt.kind ef.kind mt.w ef.w rnd sat ftz β x
  | some (e, _) =>
    let c := readElem mt.kind mt.w ftz x
    let k : Int := (e : Int) - 127
    if e = 255 then
      let r := writeElem ef.kind ef.w rnd sat ftz { val := .nan false false, int := none, flush := 0, snan := c.snan }
      (r.bits, (Bnd.of β).add .unb, r.flags ||| flInvalid)
    else
      let d : ConvIn := { val := scaleVal (-k) c.val, int := none, flush := 0, snan := c.snan }
      let r := writeElem ef.kind ef.w rnd sat ftz d
      let b : Bnd := match r.val, c.val with
        | some q, .fin _ _ => ((Bnd.of β).add (.fin c.flush)).add (.fin (ratAbs (c.val.real - pow2 k * q)))
        | _, _ => (Bnd.of β).add .unb
      (r.bits, if scaleOpen sc then b.add .unb else b, r.flags)

/-! ### Register data -/

/-- A lane of captured data registers: one, or the two of a pair. -/
def dataAt (d : List VLine) (wide : Bool) (l : Nat) : Nat × B16 :=
  let lane (i : Nat) : Nat := match d[i]? with
    | some x => (x.val.toList.getD l 0).toNat
    | none => 0
  let b := match d[0]? with
    | some x => x.bnd.toList.getD l 0
    | none => 0
  (if wide then lane 0 + 2 ^ 32 * lane 1 else lane 0, b)

/-- An operand as captured lines: one, or two for a pair. -/
def captured (o : Opnd) : List VLine :=
  [{ val := Vector.ofFn fun i : Fin 32 => o.val[i.val].setWidth 32, bnd := o.bnd },
   { val := Vector.ofFn fun i : Fin 32 => BitVec.ofNat 32 (o.val[i.val].toNat / 2 ^ 32), bnd := o.bnd }]

/-- Lane results written to a destination register, or pair. -/
def laneWrites (dst : Option VReg) (wide : Bool) (lanes : BitVec 32) (out : List (Nat × LaneOut)) : List RegWrite :=
  let f (l : Nat) : LaneOut := (KMap.get? out l).getD LaneOut.none
  match dst with
  | some r => dstWrites wide (.reg r) (outOpnd f) lanes
  | none => []

/-! ### Buffered-reduction entries (R294–R297) -/

/-- The element type and the sign of a reduction's type code. -/
def redTy (e : RedEntry) : Ty := (tyOf e.type.toNat).getD tyF32

/-- Combine a value into another under an entry's key: bits, bound, flags (R295). -/
def redCombine (score : Bool) (op : RedKind) (t : Ty) (rnd : Nat) (ftz : Bool) (x : Nat) (βx : B16) (y : Nat) (βy : B16) : Nat × B16 × BitVec 9 :=
  match t.kind with
  | .flt f =>
    let a := fArg f ftz false false false βx x
    let b := fArg f ftz false false false βy y
    let o := match op with
      | .min => minmaxOut f true a b
      | .max => minmaxOut f false a b
      | .add | .fadd => roundOut f rnd false ftz (addExact rnd a b) (a.β.add b.β) 0
    (o.bits, scoreB score o.bnd, o.flags)
  | .sint | .uint | .b16 =>
    let v : Int := match op with
      | .min => min (t.num x) (t.num y)
      | .max => max (t.num x) (t.num y)
      | .add | .fadd => t.num x + t.num y
    (lowBits t.w v, intBound score [βx, βy], 0)

/-- The core's L1 gives up its copy of a sector, and the access passes on to the sector's home (R292). -/
def toHome (s : State) (core : Nat) (a : Attr) (pa : Nat) : State := passL1 (l1Flush s core (sectorOf pa)) core (sectorOf pa) a.cache (decide (a.type = 3))

/-- Bytes and bound of a value at its point of coherence, after the core's L1 gave up its copy (R292). -/
def homeValue (s : State) (a : Attr) (pa n : Nat) (declared : B16) : Nat × B16 :=
  let v := Memory.readN s.mem pa n
  let b (p : Nat) : B16 := sideWord (homeSide s (sectorOf p)) ((p - sectorBase (sectorOf p)) / 4)
  (v, if a.bound then (if n = 8 then maxB16 (b pa) (b (pa + 4)) else b pa) else declared)

/-- A value written at its point of coherence in one step with its sideband, signalling or not (R288, R296). -/
def homeWrite (s : State) (core gid : Nat) (a : Attr) (pa n v : Nat) (b : B16) (signal : Bool) : State :=
  let sec := sectorOf pa
  let o := pa - sectorBase sec
  let bytes : KMap Byte := (List.range n).map fun i => (o + i, BitVec.ofNat 8 (v / 256 ^ i))
  let bnds : KMap B16 := (List.range (n / 4)).map fun k => (o / 4 + k, b)
  let s := hubWrite s core
    { sector := sec, bytes := bytes, bounds := if a.bound then some bnds else none, dur := decide (a.type = 2), shr := decide (a.type = 3), owners := [gid]
      readers := [], released := false, cache := a.cache, engine := false }
  if signal then wakeSector s sec else s

/-- A buffered reduction to a DUR page. -/
def RedEntry.dur (e : RedEntry) : Bool := decide (e.page.type = 2)

/-- Drain one entry: an indivisible read and write at the target, through the page that opened it (R296). -/
def drainEntry (s : State) (gid : Nat) (e : RedEntry) : State :=
  match s.group? gid with
  | none => s
  | some g =>
    let k := s.kernel g.kernel
    let t := redTy e
    let n := t.w / 8
    match e.target with
    | .mem pa _ _ =>
      let s := toHome s g.core e.page pa
      let (old, βo) := homeValue s e.page pa n b16Exact
      let (v, b, _) := redCombine k.score e.op t e.rnd.toNat e.ftz old βo e.value.toNat e.bound
      homeWrite s g.core gid e.page pa n v b e.sig
    | .tile h word =>
      match s.tile g.team h with
      | none => s
      | some x =>
        let (row, col) := flatAt x.desc word
        let (v, b, _) := redCombine k.score e.op t e.rnd.toNat e.ftz (x.read row col) (x.bound row col) e.value.toNat e.bound
        let s := s.setTile g.team h (x.write [{ row := row, col := col, bits := v, bnd := b }])
        if e.sig then wakeTile s g.team h (row * tileDw x.desc + (tileElem x.desc col).1) else s

/-- Drain a group's entries that pass a test, oldest first (R297). -/
def drainWhere (s : State) (gid : Nat) (p : RedEntry → Bool) : State :=
  match s.group? gid with
  | none => s
  | some g =>
    let s := s.setGroup gid { g with red := g.red.filter fun e => !p e }
    (g.red.filter p).foldl (fun s e => drainEntry s gid e) s

/-- A store drains the group's own entries at its targets before it performs (R297). -/
def drainTargets (s : State) (gid : Nat) (l : List (Nat × Nat)) : State :=
  drainWhere s gid fun e => match e.target with
    | .mem pa _ _ => l.any fun (q, n) => decide (q < pa + (redTy e).w / 8) && decide (pa < q + n)
    | .tile _ _ => false

/-- As `drainTargets`, for elements of a tile given by flat index. -/
def drainTileTargets (s : State) (gid : Nat) (h : TileNo) (l : List Nat) : State :=
  drainWhere s gid fun e => match e.target with
    | .mem _ _ _ => false
    | .tile h' k => h' = h && l.contains k

/-! ### Performing accesses -/

/-- What performing an access came to: its register writes, flags, the lanes left because of absent pages, the faulting
addresses, and a trap or poison met. -/
structure Perf where
  s : State
  writes : List RegWrite
  sticky : BitVec 9
  left : BitVec 32
  faults : List Spot
  migrating : Option Nat
  trap : Option TrapInfo
  poison : Bool
  places : List (Nat × Attr × Nat)

/-- Nothing performed. -/
def Perf.nothing (s : State) : Perf :=
  { s := s, writes := [], sticky := 0, left := 0, faults := [], migrating := none, trap := none, poison := false, places := [] }

/-- The load of the lanes that are present (R238, R240, R241, R248, R249). -/
def performLoad (s : State) (gid : Nat) (g : Group) (a : Access) (lanes : BitVec 32) (l : List (Spot × Found)) : Perf :=
  let k := s.kernel g.kernel
  let vf := s.vfOf k.asid
  let r := match a.record with
    | some (_, w) => recOf w
    | none => recOf []
  let sc := match a.record with
    | some (_, w) => recOf (w.drop 5)
    | none => recOf []
  let declared : B16 := match a.op with
    | .ldg unb => if unb then b16Unbounded else b16Exact
    | _ => r.bound
  let t := a.ty
  let read (s : State) (lane j : Nat) (scale : Bool) : State × Option ElemRead :=
    match placeOf l lane j scale with
    | some (p, at_, pa) =>
      let (s, e) := readSpot s g.core vf (noAlloc a scale) (if scale then sc.bound else declared) p at_ pa
      (s, some e)
    | none => (s, none)
  let oneLane (acc : State × List (Nat × LaneOut) × BitVec 9 × Bool) (lane : Nat) : State × List (Nat × LaneOut) × BitVec 9 × Bool :=
    let (s, outs, fl, bad) := acc
    match a.op with
    | .ld =>
      let (s, v, b, f, bad) := (List.range t.n).foldl (fun (acc : State × Nat × Bnd × BitVec 9 × Bool) j =>
        let (s, v, b, f, bad) := acc
        let (s, e) := read s lane j false
        let (s, se) := if r.blk = 0 then (s, none) else read s lane j true
        match e with
        | none => (s, v, b, f, bad)
        | some e =>
          let scr : ScaleRead := se.map fun x => (x.bits, x.bnd)
          let (x, term, g) := stageLoad r.ty t a.mode scr e.bnd e.bits
          (s, v + x % 2 ^ t.w * 2 ^ (j * t.w), b.max term, f ||| g, bad || e.poison || (se.map (·.poison)).getD false)) (s, 0, .fin 0, 0, bad)
      (s, outs ++ [(lane, { val := BitVec.ofNat 64 v, bnd := scoreB k.score b.toB16, flags := f, tier := 0 })], fl ||| f, bad)
    | _ =>
      let (s, e) := read s lane 0 false
      match e with
      | none => (s, outs, fl, bad)
      | some e => (s, outs ++ [(lane, { val := BitVec.ofNat 64 e.bits, bnd := scoreB k.score e.bnd, flags := 0, tier := 0 })], fl, bad || e.poison)
  let (s, outs, fl, bad) := (setBitsOf lanes).foldl oneLane (s, [], 0, false)
  let ws := match a.op with
    | .sld => (match a.udst, outs with
      | some d, (_, o) :: _ => [RegWrite.u d o.val o.bnd]
      | _, _ => [])
    | _ => laneWrites a.dst t.is64 lanes outs
  let present := l.filterMap fun (p, f) => match f with
    | .at_ at_ pa => if bit lanes p.lane then some (p, at_, pa) else none
    | .absent | .migrating _ | .bad _ => none
  let s := sampleAll s g.core k.part k.asid 0 present
  let durs := (present.filter fun x => x.2.1.type = 2).map fun x => sectorOf x.2.2
  let s := if durs.isEmpty then s else sawSectors s g.core gid durs
  { Perf.nothing (if bad then killPoison s gid else s) with writes := ws, sticky := fl, poison := bad }

/-- The elements that a store writes, lane by lane (R239, R240, R248, R249). -/
def storeElems (s : State) (g : Group) (a : Access) (lanes : BitVec 32) (l : List (Spot × Found)) : State × List ElemWrite × BitVec 9 × Bool :=
  let k := s.kernel g.kernel
  let vf := s.vfOf k.asid
  let r := match a.record with
    | some (_, w) => recOf w
    | none => recOf []
  let sc := match a.record with
    | some (_, w) => recOf (w.drop 5)
    | none => recOf []
  let t := a.ty
  (setBitsOf lanes).foldl (fun (acc : State × List ElemWrite × BitVec 9 × Bool) lane =>
    match a.op with
    | .st _ =>
      (List.range t.n).foldl (fun (acc : State × List ElemWrite × BitVec 9 × Bool) j =>
        let (s, ws, fl, bad) := acc
        match placeOf l lane j false with
        | none => (s, ws, fl, bad)
        | some (p, at_, pa) =>
          let (s, scr, bad) : State × ScaleRead × Bool := match placeOf l lane j true with
            | some (q, qa, qpa) =>
              let (s, e) := readSpot s g.core vf (noAlloc a true) sc.bound q qa qpa
              (s, some (e.bits, e.bnd), bad || e.poison)
            | none => (s, none, bad)
          let (x, β) := dataAt a.data t.is64 lane
          let (v, b, f) := stageStore t r.ty a.mode scr β (elem x j t.w)
          (s, ws ++ [{ spot := p, attr := at_, pa := pa, bits := v, bnd := b.toB16 }], fl ||| f, bad)) acc
    | _ =>
      let (s, ws, fl, bad) := acc
      match placeOf l lane 0 false with
      | none => acc
      | some (p, at_, pa) =>
        let (x, β) := dataAt a.data (decide (p.n = 8)) lane
        (s, ws ++ [{ spot := p, attr := at_, pa := pa, bits := x, bnd := β }], fl, bad)) (s, [], 0, false)

/-- The store of the lanes that are present. -/
def performStore (s : State) (gid : Nat) (g : Group) (a : Access) (lanes : BitVec 32) (l : List (Spot × Found)) : Perf :=
  let k := s.kernel g.kernel
  let (s, ws, fl, bad) := storeElems s g a lanes l
  if bad then { Perf.nothing (killPoison s gid) with poison := true }
  else
    let s := drainTargets s gid (ws.map fun x => (x.pa, x.spot.n))
    let sig := match a.op with
      | .st forced => forced || (match a.record with
        | some (_, w) => (recOf w).sig
        | none => false)
      | .sst => (match a.record with
        | some (_, w) => (recOf w).sig
        | none => false)
      | _ => false
    let s := writeElems s g.core gid k.score { through := sig || noAlloc a false, signal := sig } ws
    let scales := l.filterMap fun (p, f) => match f with
      | .at_ at_ pa => if p.scale && bit lanes p.lane then some (p, at_, pa) else none
      | .absent | .migrating _ | .bad _ => none
    let s := sampleAll s g.core k.part k.asid 0 scales
    { Perf.nothing (sampleAll s g.core k.part k.asid 1 (ws.map fun x => (x.spot, x.attr, x.pa))) with sticky := fl }

/-- sem := max(sem, v) at a physical address, as a signalling write that is made only where v exceeds it (R408, R416). -/
def raiseSem (s : State) (core gid : Nat) (score : Bool) (a : Attr) (pa : Nat) (v : Nat) (β : B16) : State :=
  let s := toHome s core a pa
  let (old, b) := homeValue s a pa 8 b16Exact
  if old < v then homeWrite s core gid a pa 8 v (intBound score [b, β]) true else s

/-- `SEMSIG` (R408): the semaphore takes the greater value, as a returning atomic performs. -/
def performSem (s : State) (gid : Nat) (g : Group) (a : Access) (l : List (Spot × Found)) : Perf :=
  match l with
  | (_, .at_ at_ pa) :: _ =>
    let k := s.kernel g.kernel
    let (v, β) := dataAt a.data true ((lowestBit a.lanes).getD 0)
    let s := l1Flush s g.core (sectorOf pa)
    if s.poison.contains (sectorOf pa) then { Perf.nothing (killPoison s gid) with poison := true }
    else
      let s := drainTargets s gid [(pa, 8)]
      Perf.nothing (sampleAccess (raiseSem s g.core gid k.score at_ pa v β) g.core k.part k.asid (at_.vpage * 4096 + pa % 4096) 2 at_)
  | _ => Perf.nothing s

/-- A line takes the lowest retention in the L1 and the hub (R251). -/
def lowerLine (s : State) (core line : Nat) : State :=
  let c := s.core core
  let s := s.setCore core { c with l1 := c.l1.map fun e => if lineOfSector e.sector = line then { e with cache := e.cache / 4 * 4 + 1 } else e }
  { s with hub := KMap.modify s.hub line fun l => { l with keep := 0 } }

/-- `CCTL` on the line of each lane's element (R251). -/
def performCctl (s : State) (g : Group) (op : Nat) (lanes : BitVec 32) (l : List (Spot × Found)) : Perf :=
  let lines := (l.filterMap fun (p, f) => match f with
    | .at_ _ pa => if bit lanes p.lane then some (lineOf pa) else none
    | .absent | .migrating _ | .bad _ => none).dedup
  let secs := ((s.core g.core).l1.map (·.sector)).filter fun x => lines.contains (lineOfSector x)
  Perf.nothing (match op with
    | 0 => secs.foldl (fun s x => l1WriteBack s g.core x) s
    | 1 => secs.foldl (fun s x => l1Flush s g.core x) s
    | 2 => lines.foldl hubClean (secs.foldl (fun s x => l1Flush s g.core x) s)
    | _ => lines.foldl (fun s n => lowerLine s g.core n) s)

/-- The fields of a tile-free atomic or reduction's target lanes, in ascending order. -/
def presentPlaces (lanes : BitVec 32) (l : List (Spot × Found)) : List (Nat × Attr × Nat) :=
  l.filterMap fun (p, f) => match f with
    | .at_ a pa => if bit lanes p.lane && !p.scale then some (p.lane, a, pa) else none
    | .absent | .migrating _ | .bad _ => none

/-- Contribute one lane to the group's entries (R295): the state and the flags of the combination. -/
def contribute (s : State) (gid : Nat) (new : RedEntry) : State × BitVec 9 :=
  match s.group? gid with
  | none => (s, 0)
  | some g =>
    let score := (s.kernel g.kernel).score
    let same (e : RedEntry) : Bool := decide (e.op = new.op ∧ e.type = new.type ∧ e.rnd = new.rnd ∧ e.ftz = new.ftz ∧ e.sig = new.sig)
    match g.red.find? fun e => e.target = new.target with
    | some e =>
      if same e then
        let (v, b, fl) := redCombine score new.op (redTy new) new.rnd.toNat new.ftz e.value.toNat e.bound new.value.toNat new.bound
        (s.setGroup gid { g with red := g.red.map fun x => if x.target = new.target then { x with value := BitVec.ofNat 64 v, bound := b } else x }, fl)
      else
        let s := drainWhere s gid fun x => x.target = new.target
        (s.modGroup gid fun g => { g with red := g.red ++ [new] }, 0)
    | none =>
      let s := if 4 ≤ g.red.length then
          match g.red with
          | e :: _ => drainWhere s gid fun x => x.target = e.target
          | [] => s
        else s
      (s.modGroup gid fun g => { g with red := g.red ++ [new] }, 0)

/-- The reduction of the lanes that are present (R295). -/
def performReduce (s : State) (gid : Nat) (g : Group) (op : RedKind) (a : Access) (lanes : BitVec 32) (l : List (Spot × Found)) : Perf :=
  let k := s.kernel g.kernel
  let t := a.ty
  let sig := match a.record with
    | some (_, w) => (recOf w).sig
    | none => false
  let ps := presentPlaces lanes l
  let (s, fl) := ps.foldl (fun (acc : State × BitVec 9) (lane, at_, pa) =>
    let (s, fl) := acc
    let (x, β) := dataAt a.data t.is64 lane
    let (s, f) := contribute s gid
      { target := .mem pa at_.asid at_.vpage, op := op, type := BitVec.ofNat 5 (modeType a.mode), rnd := BitVec.ofNat 3 (modeRnd a.mode), ftz := modeFtz a.mode
        sig := sig, page := at_, value := BitVec.ofNat 64 x, bound := scoreB k.score β }
    (s, fl ||| f)) (s, 0)
  let present := l.filterMap fun (p, f) => match f with
    | .at_ at_ pa => if bit lanes p.lane then some (p, at_, pa) else none
    | .absent | .migrating _ | .bad _ => none
  { Perf.nothing (sampleAll s g.core k.part k.asid 3 present) with sticky := fl }

/-- Perform an access, or the part of it whose pages are present (R245, R270). Only the accesses of the ld and st
counters, `SLD`, `SEMSIG` and `CCTL` perform here. -/
def performAccess (s : State) (gid : Nat) (a : Access) : Perf :=
  match s.group? gid with
  | none => Perf.nothing s
  | some g =>
    let (s', l) := locateAll s g.core g.kernel a a.spots
    match trapPages l with
    | some t => { Perf.nothing s' with trap := some t }
    | none =>
      let miss := missing l
      let left := a.lanes &&& maskOf 32 fun i => miss.any fun p => p.lane = i
      let lanes := a.lanes &&& ~~~left
      let p : Perf := match a.op with
        | .ld | .ldg _ | .sld => performLoad s' gid g a lanes l
        | .st _ | .stg | .sst => performStore s' gid g a lanes l
        | .semsig => performSem s' gid g a l
        | .cctl op => performCctl s' g op.toNat lanes l
        | .atomic _ => { Perf.nothing s' with places := presentPlaces lanes l }
        | .reduce op => performReduce s' gid g op a lanes l
        | .pref | .waita | .ctab _ _ | .recsync _ | .enq _ _ | .fetch => Perf.nothing s'
      { p with left := left, faults := absentSpots l, migrating := migratingOf l }

/-! ### Fault entries and parking (R270–R273, R279) -/

/-- The fault entry of an access whose elements are absent. -/
def accessFault (a : Access) (faults : List Spot) (left : BitVec 32) : FaultInfo :=
  let vas := faults.map (·.va)
  { kind := (match a.op with
      | .fetch => 1
      | _ => 0)
    loVa := vas.foldl min (vas.headD 0), hiVa := vas.foldl max 0, pc := a.pc.toNat
    lanes := if a.single then 0xFFFFFFFF else left.toNat, opcode := a.opcode.toNat, write := a.writes && faults.any (fun p => !p.scale), rt := a.rtField.toNat }

/-- Park a gang at an access, its run kept with it; an absent page raises an entry, a migrating one none. -/
def parkGang (s : State) (gid : Nat) (a : Access) (cause : ParkCause) (step : Option Nat) (run : Option Run) (faults : List Spot) : State :=
  let s := s.modGroup gid fun g =>
    let g := g.mapSlices a.slices fun _ sl => { sl with pc := a.pc }
    { g with run := none, hold := none, x := []
             parks := g.parks ++ [{ cause := cause, acc := a, step := step, run := run, x := g.x, trap := none, handler := g.inHandler }] }
  if cause = .fault then raiseEntry s gid (accessFault a faults a.lanes) else s

/-- Two accesses may name one byte. -/
def mayOverlap (x y : List Spot) : Bool := x.any fun p => y.any fun q => decide (p.va < q.va + q.n) && decide (q.va < p.va + p.n)

/-- A gang's access follows the unfinished lanes of an earlier parked one at the same bytes (R247). -/
def Group.behindPark (g : Group) (a : Access) : Bool :=
  g.parks.any fun p => p.cause ≠ .done && mayOverlap p.acc.spots a.spots

/-! ### Issue of accesses -/

/-- The capture of an access by the issuing gang (R246). -/
def Gang.access (c : Gang) (op : AccessOp) (rt : Nat) (lanes : BitVec 32) (offs : Vector W64 32) (data : List VLine)
    (r : Option RecNo) (dst : Option VReg) (udst : Option UReg) : Access :=
  { op := op, opcode := BitVec.ofNat 8 c.opcode, rtField := BitVec.ofNat 8 rt, word := c.run.words.headD 0, pc := c.run.pc, slices := c.run.slices
    mode := c.mode, lanes := lanes, offs := offs, data := data, record := r.bind (snapRecord c.k), dst := dst, udst := udst, seq := c.g.stepSeq }

/-- Lanes that an access instruction once for the gang counts as: the lowest of the active masks (R248). -/
def Gang.lowest (c : Gang) : BitVec 32 := match lowestBit c.all with
  | some l => maskOf 32 fun i => decide (i = l)
  | none => 0

/-- Later writes wait while a release of the group is in progress (R328). -/
def Gang.writeStalls (c : Gang) : Bool := c.g.release.isSome

/-- A new step of the ld or st counter. -/
def newStep (id : Nat) (performed : Bool) (ws : List RegWrite) (fl : BitVec 9) : CStep :=
  { id := id, performed := performed, writes := ws, sticky := fl, todo := none, places := [], run := 0 }

/-- Raise a counter: the ld counter for loads, the st counter for stores (R246, R304). -/
def raiseStep (g : Group) (load : Bool) (st : CStep) : Group :=
  let st := { st with run := g.runId }
  if load then { g with ld := g.ld ++ [st], stepSeq := g.stepSeq + 1 } else { g with st := g.st ++ [st], stepSeq := g.stepSeq + 1 }

/-- A counter that a further step would raise to 63 (R304). -/
def counterFull (g : Group) (load : Bool) : Bool := decide (62 ≤ (if load then g.ld.length else g.st.length))

end Sys2Proof.Machine
end

