-- ==== Sys2Proof/Machine/AtomicOps.lean ====
section
/-! DEFINITION. The lanes of returning atomics: each one an indivisible read and write of its target (R287–R293). -/

namespace Sys2Proof.Machine

/-- The signalling writes of a captured access: its record's sig bit (R293, R315). -/
def Access.sig (a : Access) : Bool := match a.record with
  | some (_, w) => (recOf w).sig
  | none => false

/-- The new value of a returning atomic, its bound, and the flags it sets (R288, R290). -/
def atomicNew (score : Bool) (op : AtomicKind) (t : Ty) (mode : BitVec 24) (old : Nat) (βo : B16) (v : Nat) (βv : B16) (u : Nat) (βu : B16) :
    Nat × B16 × BitVec 9 :=
  let int2 := intBound score [βo, βv]
  match op with
  | .add | .semMax => (lowBits t.w ((old : Int) + v), int2, 0)
  | .and => (old &&& v, int2, 0)
  | .or => (old ||| v, int2, 0)
  | .xor => (old ^^^ v, int2, 0)
  | .min => (lowBits t.w (min (t.num old) (t.num v)), int2, 0)
  | .max => (lowBits t.w (max (t.num old) (t.num v)), int2, 0)
  | .xchg => (v, scoreB score βv, 0)
  | .cas => if old = v then (u, scoreB score βu, 0) else (old, βo, 0)
  | .incw => (if v ≤ old then 0 else old + 1, int2, 0)
  | .addb => (if old ≤ u then min (old + v) u else old, intBound score [βo, βv, βu], 0)
  | .fadd => (match t.kind with
    | .flt f =>
      let ftz := modeFtz mode
      let x := fArg f ftz false false false βo old
      let y := fArg f ftz false false false βv v
      let rnd := modeRnd mode
      let o := roundOut f rnd (modeSat mode) ftz (addExact rnd x y) (x.β.add y.β) 0
      (o.bits, scoreB score o.bnd, o.flags)
    | .sint | .uint | .b16 => (old, βo, 0))

/-- What a lane of an atomic leaves in the registers: the old value and bound, and `AADDB`'s predicate. -/
structure LaneAtomic where
  old : Nat
  bnd : B16
  flags : BitVec 9
  granted : Bool

/-- One lane's read and write at a memory target (R287, R288, R292). -/
def atomicMem (s : State) (gid : Nat) (g : Group) (a : Access) (op : AtomicKind) (lane : Nat) (at_ : Attr) (pa : Nat) : State × LaneAtomic × Bool :=
  let k := s.kernel g.kernel
  let t := a.ty
  let n := t.w / 8
  let declared := match a.record with
    | some (_, w) => (recOf w).bound
    | none => b16Exact
  let s := toHome s g.core at_ pa
  let bad := s.poison.contains (sectorOf pa)
  let (old, βo) := homeValue s at_ pa n declared
  let wide := t.is64
  let (v, βv) := dataAt a.data wide lane
  let (u, βu) := dataAt (a.data.drop 2) wide lane
  let (new, b, fl) := atomicNew k.score op t a.mode old βo v βv u βu
  let s := if new = old then s else homeWrite s g.core gid at_ pa n new b a.sig
  let s := sampleAccess s g.core k.part k.asid (at_.vpage * 4096 + pa % 4096) 2 at_
  let s := if at_.type = 2 then sawSectors s g.core gid [sectorOf pa] else s
  (s, { old := old, bnd := scoreB k.score βo, flags := fl, granted := decide (old ≤ u) }, bad)

/-- One lane's read and write at a tile element (R287, R290). -/
def atomicTile (s : State) (g : Group) (a : Access) (op : AtomicKind) (lane : Nat) (h : TileNo) (idx : Nat) : State × LaneAtomic × Bool :=
  match s.tile g.team h with
  | none => (s, { old := 0, bnd := 0, flags := 0, granted := false }, false)
  | some x =>
    let k := s.kernel g.kernel
    let t := a.ty
    let (row, col) := flatAt x.desc idx
    let old := x.read row col
    let βo := x.bound row col
    let (v, βv) := dataAt a.data t.is64 lane
    let (u, βu) := dataAt (a.data.drop 2) t.is64 lane
    let (new, b, fl) := atomicNew k.score op t a.mode old βo v βv u βu
    let s := if new = old then s else s.setTile g.team h (x.write [{ row := row, col := col, bits := new, bnd := b }])
    (s, { old := old, bnd := scoreB k.score βo, flags := fl, granted := decide (old ≤ u) }, x.poisoned row col)

/-- The register writes of one lane of an atomic (R288): the old value, and for `AADDB` the guard predicate. -/
def atomicWrites (a : Access) (op : AtomicKind) (lane : Nat) (r : LaneAtomic) : List RegWrite :=
  let m : BitVec 32 := maskOf 32 fun i => decide (i = lane)
  let o : Opnd := Opnd.const (BitVec.ofNat 64 r.old) r.bnd
  (match a.dst with
    | some d => dstWrites a.ty.is64 (.reg d) o m
    | none => []) ++
  (if op = .addb then [.p ⟨bits a.mode 13 11 % 8, Nat.mod_lt _ (by decide)⟩ (if r.granted then BitVec.allOnes 32 else 0) m] else [])

/-- Perform the first lane that a step still has to perform (R287, R292). -/
def atomicLane (s : State) (gid : Nat) (st : CStep) : State × CStep :=
  match s.group? gid, st.todo, st.places with
  | some g, some a, (lane, at_, pa) :: rest =>
    (match a.op with
    | .atomic op =>
      let (s, r, bad) := if h : 224 ≤ a.rtField.toNat then
          let (t, r, bad) := atomicTile (lateIn s gid st.id) g a op lane ⟨a.rtField.toNat - 224, by have := a.rtField.isLt; omega⟩ pa
          (lateOut s t gid st.id, r, bad)
        else atomicMem s gid g a op lane at_ pa
      let s := if bad then killPoison s gid else s
      (s, { st with places := rest, writes := st.writes ++ atomicWrites a op lane r, sticky := st.sticky ||| r.flags
                    performed := rest.isEmpty && decide (a.lanes = 0) })
    | _ => (s, st))
  | _, _, _ => (s, st)

/-- Perform every lane of a step that is left. -/
def atomicLanes (s : State) (gid : Nat) : Nat → CStep → State × CStep
  | 0, st => (s, st)
  | n + 1, st =>
    if st.places.isEmpty then (s, st)
    else
      let (s, st) := atomicLane s gid st
      atomicLanes s gid n st

/-- Replace a step of the ld counter, where the group still holds it. -/
def setLdStep (s : State) (gid : Nat) (st : CStep) : State :=
  s.modGroup gid fun g => { g with ld := g.ld.map fun x => if x.id = st.id then st else x }

/-- Perform every lane that the group's atomics still have to perform, in program order. -/
def flushAtomics (s : State) (gid : Nat) : State :=
  match s.group? gid with
  | none => s
  | some g => (g.ld.filter fun x => !x.places.isEmpty).foldl (fun s x =>
      let (s, st) := atomicLanes s gid 33 x
      setLdStep s gid st) s

/-- An access to bytes that a pending atomic lane of its group names waits for those lanes: they perform first (R247). -/
def settleAtomics (s : State) (gid : Nat) (l : List (Nat × Nat)) : State :=
  match s.group? gid with
  | none => s
  | some g =>
    if g.ld.any fun x => (match x.todo with
        | some a => decide (a.rtField.toNat < 224) && x.places.any fun (_, _, pa) => l.any fun (q, n) => decide (q < pa + 8) && decide (pa < q + n)
        | none => false) then flushAtomics s gid
    else s

/-- As `settleAtomics`, for a tile. -/
def settleTile (s : State) (gid : Nat) (h : TileNo) : State :=
  match s.group? gid with
  | none => s
  | some g =>
    if g.ld.any fun x => !x.places.isEmpty && (match x.todo with
        | some a => decide (a.rtField.toNat = 224 + h.val)
        | none => false) then flushAtomics s gid
    else s

end Sys2Proof.Machine
end

