-- ==== Sys2Proof/Machine/Memory.lean ====
section
/-! DEFINITION. Memory instructions: loads, stores, uniform accesses, prefetch and cache control (R243–R252). -/

namespace Sys2Proof.Machine

/-- The physical bytes that located elements name. -/
def bytesOf (l : List (Spot × Found)) : List (Nat × Nat) := l.filterMap fun (p, f) => match f with
  | .at_ _ pa => some (pa, p.n)
  | .absent | .migrating _ | .bad _ => none

/-- Issue a memory access of the ld or st counter (R245, R246, R270): its checks, the lanes whose pages are present, and
parking for the others. -/
def Gang.memIssue (c : Gang) (s : State) (a : Access) (load : Bool) : Result :=
  if counterFull c.g load then .stay s true
  else if !load && c.writeStalls then .stay s true
  else match a.check with
  | some t => .trap t
  | none =>
    let id := c.g.stepSeq
    if c.g.behindPark a then
      .gone (parkGang (s.modGroup c.gid fun g => raiseStep g load (newStep id false [] 0)) c.gid a .heldBehind (some id) (some c.run) [])
    else
      let s := settleAtomics s c.gid (bytesOf (locateAll s c.core c.g.kernel a a.spots).2)
      let p := performAccess s c.gid a
      match p.trap with
      | some t => .trap t
      | none =>
        if p.poison then .gone p.s
        else
          let p : Perf := { p with s := drainTargets p.s c.gid (p.places.map fun x => (x.2.2, a.ty.w / 8)) }
          let a' := { a with lanes := p.left }
          let step : CStep := { newStep id (decide (p.left = 0) && p.places.isEmpty) p.writes p.sticky with
            todo := (match a.op with
              | .atomic _ => some a'
              | _ => none)
            places := p.places }
          let s := p.s.modGroup c.gid fun g => raiseStep (overtakeAll g c.view.serial c.run.id p.writes) load step
          if p.left = 0 then .done s
          else
            let cause : ParkCause := match p.migrating with
              | some v => .migration v
              | none => .fault
            .gone (parkGang s c.gid a' cause (some id) (some c.run) p.faults)

/-! ### Tile elements through the conversion stage (R244, R257) -/

/-- The lanes of a tile load: each lane's results, the flags, and whether a word was poisoned. -/
def tileLoad (score : Bool) (t : Ty) (mode : BitVec 24) (x : Tile) (lanes : BitVec 32) (at_ : Nat → List (Nat × Nat)) :
    List (Nat × LaneOut) × BitVec 9 × Bool :=
  (setBitsOf lanes).foldl (fun (acc : List (Nat × LaneOut) × BitVec 9 × Bool) lane =>
    let (outs, fl, bad) := acc
    let (v, b, f, bad, _) := (at_ lane).foldl (fun (acc : Nat × Bnd × BitVec 9 × Bool × Nat) (r, c) =>
      let (v, b, f, bad, j) := acc
      let (y, term, g) := stageLoad (tileTy x.desc) t mode none (x.bound r c) (x.read r c)
      (v + y % 2 ^ t.w * 2 ^ (j * t.w), b.max term, f ||| g, bad || x.poisoned r c, j + 1)) (0, .fin 0, 0, bad, 0)
    (outs ++ [(lane, { val := BitVec.ofNat 64 v, bnd := scoreB score b.toB16, flags := f, tier := 0 })], fl ||| f, bad)) ([], 0, false)

/-- The elements that a tile store writes, lane by lane. -/
def tileStore (score : Bool) (t : Ty) (mode : BitVec 24) (x : Tile) (data : Opnd) (lanes : BitVec 32) (at_ : Nat → List (Nat × Nat)) :
    List TileWrite × BitVec 9 :=
  (setBitsOf lanes).foldl (fun (acc : List TileWrite × BitVec 9) lane =>
    let (ws, fl) := acc
    let (ws, fl, _) := (at_ lane).foldl (fun (acc : List TileWrite × BitVec 9 × Nat) (r, c) =>
      let (ws, fl, j) := acc
      let (y, term, g) := stageStore t (tileTy x.desc) mode none (data.bndAt lane) (elem (data.at lane) j t.w)
      (ws ++ [{ row := r, col := c, bits := y, bnd := scoreB score term.toB16 }], fl ||| g, j + 1)) (ws, fl, 0)
    (ws, fl)) ([], 0)

/-- The element formats of a tile or record agree with MODE as R242 asks. -/
def formatOk (mode ef : Ty) (scaled : Bool) : Bool :=
  decide ((mode.kind = .b16) = (ef.kind = .b16)) && (!scaled || mode.isFloat)

/-- A load from a tile, its lanes' elements given by `at_` (R244, R257, R260). -/
def Gang.tileRead (c : Gang) (s : State) (h : TileNo) (lanes : BitVec 32) (d : Dst) (at_ : Tile → Nat → List (Nat × Nat)) : Result :=
  match c.ty with
  | none => c.badMode
  | some t =>
    if counterFull c.g true then .stay s true
    else
      let x0 := s.tile c.g.team h
      if (match x0 with
        | some x => !formatOk t (tileTy x.desc) false
        | none => false) then c.badMode
      else match tileCheck x0 lanes (match x0 with
        | some x => at_ x
        | none => fun _ => []) with
      | .error e => .trap e
      | .ok _ =>
        let s := settleTile s c.gid h
        match s.tile c.g.team h with
        | none => .done s
        | some x =>
          let (outs, fl, bad) := tileLoad c.k.score t c.mode x lanes (at_ x)
          if bad then .gone (killPoison s c.gid)
          else
            let ws := laneWrites (match d with
              | .reg r => some r
              | .discard => none) t.is64 lanes outs
            .done (s.modGroup c.gid fun g => raiseStep (overtakeAll g c.view.serial c.run.id ws) true (newStep g.stepSeq true ws fl))

/-- A store to a tile, signalling or not (R244, R257, R315). -/
def Gang.tileWrite (c : Gang) (s : State) (h : TileNo) (lanes : BitVec 32) (data : Src) (signal : Bool) (at_ : Tile → Nat → List (Nat × Nat)) : Result :=
  match c.ty with
  | none => c.badMode
  | some t =>
    if counterFull c.g false || c.writeStalls then .stay s true
    else
      let x0 := s.tile c.g.team h
      if (match x0 with
        | some x => !formatOk t (tileTy x.desc) false
        | none => false) then c.badMode
      else match tileCheck x0 lanes (match x0 with
        | some x => at_ x
        | none => fun _ => []) with
      | .error e => .trap e
      | .ok x1 =>
        let (ws, fl) := tileStore c.k.score t c.mode x1 (c.opnd t data) lanes (at_ x1)
        let s := settleTile s c.gid h
        let s := drainTileTargets s c.gid h (ws.map fun w => w.row * tileCols x1.desc + w.col)
        let s := match s.tile c.g.team h with
          | none => s
          | some x => s.setTile c.g.team h (x.write ws)
        let s := if signal then
            ((ws.map fun w => w.row * tileDw x1.desc + (tileElem x1.desc w.col).1).dedup).foldl (fun s k => wakeTile s c.g.team h k) s
          else s
        .done (s.modGroup c.gid fun g => raiseStep g false (newStep g.stepSeq true [] fl))

/-- The elements of a lane of a flat tile access (R244). -/
def flatElems (n : Nat) (o : Opnd) (x : Tile) (l : Nat) : List (Nat × Nat) :=
  (List.range n).map fun j => flatAt x.desc (o.at l % 2 ^ 32 + j)

/-! ### Record loads and stores -/

/-- A record access's format check (R242); a malformed record is left to R245. -/
def recordFormat (k : Kernel) (t : Ty) (r : RecNo) : Bool :=
  match snapRecord k r with
  | none => true
  | some (_, w) => recMalformed w || formatOk t (recOf w).ty (decide ((recOf w).blk ≠ 0))

/-- `LD` (R244–R246). -/
def execLd (d : Dst) (o : Src) (rt : RT) (s : State) : Host.Outcome State Fault Refusal :=
  issue (.ld d o rt) s { regs := dstRegs d ++ srcRegs o } fun c =>
    match c.ty with
    | none => c.badMode
    | some t =>
      let off := c.opndRaw t.is64 o
      match rt with
      | .tile h => c.tileRead s h c.lanes d fun x => flatElems t.n off x
      | .record r =>
        if !recordFormat c.k t r then c.badMode
        else c.memIssue s (c.access .ld r.val c.lanes off.val [] (some r) (dstRegs d).head? none) true

/-- A store through a record or a tile (R244–R246), `STSIG` included (R316). -/
def storeOp (i : Instr) (signal : Bool) (data o : Src) (rt : RT) (s : State) : Host.Outcome State Fault Refusal :=
  issue i s { regs := srcRegs data ++ srcRegs o } fun c =>
    match c.ty with
    | none => c.badMode
    | some t =>
      let off := c.opndRaw t.is64 o
      match rt with
      | .tile h => c.tileWrite s h c.lanes data signal fun x => flatElems t.n off x
      | .record r =>
        if !recordFormat c.k t r then c.badMode
        else c.memIssue s (c.access (.st signal) r.val c.lanes off.val (captured (c.opnd t data)) (some r) none none) false

/-- `ST`. -/
def execSt (data o : Src) (rt : RT) (s : State) : Host.Outcome State Fault Refusal := storeOp (.st data o rt) false data o rt s

/-- `STSIG` (R315, R316). -/
def execStsig (data o : Src) (rt : RT) (s : State) : Host.Outcome State Fault Refusal := storeOp (.stsig data o rt) true data o rt s

/-! ### Generic pointers (R249) -/

/-- `LDG`. -/
def execLdg (d : Dst) (a : Src) (decl : Bool) (s : State) : Host.Outcome State Fault Refusal :=
  issue (.ldg d a decl) s { regs := dstRegs d, ranges := (srcRegs a).map fun r => (r, 2) } fun c =>
    c.memIssue s (c.access (.ldg decl) 0 c.lanes (c.opndRaw true a).val [] none (dstRegs d).head? none) true

/-- `STG`. -/
def execStg (data a : Src) (s : State) : Host.Outcome State Fault Refusal :=
  issue (.stg data a) s { regs := srcRegs data, ranges := (srcRegs a).map fun r => (r, 2) } fun c =>
    match c.ty with
    | none => c.badMode
    | some t => c.memIssue s (c.access .stg 0 c.lanes (c.opndRaw true a).val (captured (c.opnd t data)) none none none) false

/-! ### Uniform accesses (R248) -/

/-- A uniform register captured as a pair in every lane. -/
def capturedU (v : W64) (b : B16) : List VLine := captured (Opnd.const v b)

/-- `SLD`: long-latency; its result appears at `SLD_COMPLETE`. -/
def execSld (d : UReg) (o : Src) (r : RecNo) (s : State) : Host.Outcome State Fault Refusal :=
  issue (.sld d o r) s { regs := srcRegs o, u := [d] } fun c =>
    let a := c.access .sld r.val c.lowest (c.opndRaw (wideMode c.mode) o).val [] (some r) none (some d)
    match a.check with
    | some t => .trap t
    | none =>
      let flag := c.nextFlag
      if (match flag with
        | some n => bit c.g.cflags n.val
        | none => false) then .stay s true
      else
        let wait (s : State) (cause : ParkCause) (a : Access) (faults : List Spot) : Result :=
          let s := s.modGroup c.gid fun g => { g with cflags := (match flag with
            | some n => g.cflags ||| flagBit n
            | none => g.cflags) }
          .gone (parkGang s c.gid a cause (flag.map (·.val)) (some (takeFlag c.run flag)) faults)
        if c.g.behindPark a then wait s .heldBehind a []
        else
          let s := settleAtomics s c.gid (bytesOf (locateAll s c.core c.g.kernel a a.spots).2)
          let p := performAccess s c.gid a
          match p.trap with
          | some t => .trap t
          | none =>
            if p.poison then .gone p.s
            else if p.left ≠ 0 then
              wait p.s (match p.migrating with
                | some v => .migration v
                | none => .fault) a p.faults
            else
              let g := (p.s.group? c.gid).getD c.g
              c.launch p.s g { kind := .sld, flag := none, writes := p.writes, sticky := 0, card := none, holds := false, trap := none
                               quarter := c.g.quarter, slices := c.run.slices, run := c.run.id, issued := c.view.serial, known := true } true false

/-- `SST`. -/
def execSst (data : UReg) (o : Src) (r : RecNo) (s : State) : Host.Outcome State Fault Refusal :=
  issue (.sst data o r) s { regs := srcRegs o, u := [data] } fun c =>
    let (v, b) := c.view.uni data
    c.memIssue s (c.access .sst r.val c.lowest (c.opndRaw (wideMode c.mode) o).val (capturedU v b) (some r) none none) false

/-! ### Prefetch and cache control (R250, R251) -/

/-- `PREF`: a hint, which fills the lines named into the hub cache, and at level 0 into the L1. -/
def execPref (hub : Bool) (o : Src) (r : RecNo) (s : State) : Host.Outcome State Fault Refusal :=
  issue (.pref hub o r) s { regs := srcRegs o } fun c =>
    let a := c.access .pref r.val c.lanes (c.opndRaw (wideMode c.mode) o).val [] (some r) none none
    -- A lane whose element or record fails a check drops its own request alone.
    let good := (setBitsOf c.lanes).filter fun l => ({ a with lanes := maskOf 32 fun i => decide (i = l) } : Access).check.isNone
    let (s, l) := locateAll s c.core c.g.kernel a (good.flatMap a.laneSpots)
    .done (l.foldl (fun s (_, f) => match f with
      | .at_ t pa => (sectorsOfLine (lineOf pa)).foldl (fun s sec =>
          if hub then passL1 s c.core sec t.cache (decide (t.type = 3)) else l1Fill s c.core sec t) s
      | .bad _ | .absent | .migrating _ => s) s)

/-- `CCTL`. -/
def execCctl (op : BitVec 2) (o : Src) (r : RecNo) (s : State) : Host.Outcome State Fault Refusal :=
  issue (.cctl op o r) s { regs := srcRegs o } fun c =>
    match c.ty with
    | none => c.badMode
    | some t => if !recordFormat c.k t r then c.badMode else
    c.memIssue s (c.access (.cctl op) r.val c.lanes (c.opndRaw (wideMode c.mode) o).val [] (some r) none none) false

end Sys2Proof.Machine
end

