-- ==== Sys2Proof/Machine/Uniform.lean ====
section
/-! DEFINITION. Uniform instructions and the special registers (R112–R117). -/

namespace Sys2Proof.Machine

/-- A uniform result of two registers: the value by `f`, the bound by int_bound (R100, R112). -/
def uniOp (i : Instr) (d a b : UReg) (f : W64 → W64 → W64) (s : State) : Host.Outcome State Fault Refusal :=
  issue i s { u := [d, a, b] } fun c =>
    let (x, βx) := c.view.uni a
    let (y, βy) := c.view.uni b
    .done (s.setGroup c.gid (c.put c.g 4 [.u d (f x y) (intBound c.k.score [βx, βy])]))

/-- `SADD`. -/
def execSadd (d a b : UReg) (s : State) : Host.Outcome State Fault Refusal := uniOp (.sadd d a b) d a b (· + ·) s
/-- `SSUB`. -/
def execSsub (d a b : UReg) (s : State) : Host.Outcome State Fault Refusal := uniOp (.ssub d a b) d a b (· - ·) s
/-- `SMUL`. -/
def execSmul (d a b : UReg) (s : State) : Host.Outcome State Fault Refusal := uniOp (.smul d a b) d a b (· * ·) s
/-- `SAND`. -/
def execSand (d a b : UReg) (s : State) : Host.Outcome State Fault Refusal := uniOp (.sand d a b) d a b (· &&& ·) s
/-- `SOR`. -/
def execSor (d a b : UReg) (s : State) : Host.Outcome State Fault Refusal := uniOp (.sor d a b) d a b (· ||| ·) s
/-- `SXOR`. -/
def execSxor (d a b : UReg) (s : State) : Host.Outcome State Fault Refusal := uniOp (.sxor d a b) d a b (· ^^^ ·) s
/-- `SSHL`: 0 for amounts of 64 or more. -/
def execSshl (d a b : UReg) (s : State) : Host.Outcome State Fault Refusal :=
  uniOp (.sshl d a b) d a b (fun x y => if y.toNat < 64 then x <<< y.toNat else 0) s
/-- `SSHR`: zero fill; 0 for amounts of 64 or more. -/
def execSshr (d a b : UReg) (s : State) : Host.Outcome State Fault Refusal :=
  uniOp (.sshr d a b) d a b (fun x y => if y.toNat < 64 then x >>> y.toNat else 0) s

/-- `SMOVI` (R112). -/
def execSmovi (d : UReg) (imm : BitVec 16) (pfx : Option (BitVec 24)) (s : State) : Host.Outcome State Fault Refusal :=
  issue (.smovi d imm pfx) s { u := [d] } fun c =>
    .done (s.setGroup c.gid (c.put c.g 4 [.u d (movImm imm pfx) (scoreB c.k.score b16Exact)]))

/-- `SMOV`: the value with its bound (R112). -/
def execSmov (d a : UReg) (s : State) : Host.Outcome State Fault Refusal :=
  issue (.smov d a) s { u := [d, a] } fun c =>
    let (x, β) := c.view.uni a
    .done (s.setGroup c.gid (c.put c.g 4 [.u d x β]))

/-- The register after an even uniform register. -/
def uregNext (n : UReg) : UReg := ⟨(n.val + 1) % 64, Nat.mod_lt _ (by decide)⟩

/-- `SMINMAX`: the signed minimum to s[d], the maximum to s[d + 1] (R112). -/
def execSminmax (d a b : UReg) (s : State) : Host.Outcome State Fault Refusal :=
  issue (.sminmax d a b) s { u := [d, uregNext d, a, b] } fun c =>
    let (x, βx) := c.view.uni a
    let (y, βy) := c.view.uni b
    let β := intBound c.k.score [βx, βy]
    let le := decide (x.toInt ≤ y.toInt)
    .done (s.setGroup c.gid (c.put c.g 4 [.u d (if le then x else y) β, .u (uregNext d) (if le then y else x) β]))

/-- `SCMP` (R113): every lane of the active masks, whatever the guard. -/
def execScmp (p : PReg) (cond : BitVec 5) (a b : UReg) (s : State) : Host.Outcome State Fault Refusal :=
  issue (.scmp p cond a b) s { u := [a, b], p := [p] } fun c =>
    let x := (c.view.uni a).1
    let y := (c.view.uni b).1
    let t : BitVec 32 := if condTest cond.toNat x.toInt y.toInt x.toNat y.toNat then BitVec.allOnes 32 else 0
    .done (s.setGroup c.gid (c.put c.g 4 [.p p (condComb (cond.toNat / 8) (c.view.pred p) t) c.all]))

/-- `VTOS` (R114). -/
def execVtos (d : UReg) (a : Src) (lane : BitVec 8) (s : State) : Host.Outcome State Fault Refusal :=
  issue (.vtos d a lane) s { regs := srcRegs a, u := [d] } fun c =>
    match c.ty with
    | none => c.badMode
    | some t =>
      if lane ≠ 0xFF ∧ c.k.width ≤ lane.toNat then c.illegal 1
      else match (if lane = 0xFF then lowestBit c.lanes else some lane.toNat) with
      | none => .done s
      | some l =>
        let o := c.opnd t a
        let v : W64 := BitVec.ofNat 64 (o.at l)
        let v := if t.kind = .sint ∧ t.w = 32 then (v.setWidth 32).signExtend 64 else v
        .done (s.setGroup c.gid (c.put c.g 4 [.u d v (o.bndAt l)]))

/-- `STOV` (R114). -/
def execStov (d : Dst) (a : UReg) (s : State) : Host.Outcome State Fault Refusal :=
  issue (.stov d a) s { regs := dstRegs d, u := [a] } fun c =>
    let (x, β) := c.view.uni a
    .done (s.setGroup c.gid (c.put c.g 4 (dstWrites (wideMode c.mode) d (Opnd.const x β) c.lanes)))

/-! ### Special registers (R115, R116) -/

/-- The value of a special register; `none` for a number that names none (R116). SYS_CONFIG[2] in a handler gives the mode of the handler's code
(DESIGN CHOICE, log 111). -/
def specialRead (s : State) (c : Gang) (n : Nat) : Option W64 :=
  let team := s.team c.g.team
  let x := c.k.grid.getD 0 1
  let y := c.k.grid.getD 1 1
  let ofN (v : Nat) : Option W64 := some (BitVec.ofNat 64 v)
  match n with
  | 0x0000 => ofN 0x0410
  | 0x0001 => ofN c.k.width
  | 0x0002 => ofN (c.k.score.toNat + 2 * c.k.prot.toNat + 4 * c.view.interlocked.toNat)
  | 0x0010 => ofN c.g.number
  | 0x0011 => ofN c.g.role
  | 0x0012 => ofN c.k.teamGroups
  | 0x0013 => ofN (team.number % x)
  | 0x0014 => ofN (team.number / x % y)
  | 0x0015 => ofN (team.number / x / y)
  | 0x0016 => ofN x
  | 0x0017 => ofN y
  | 0x0018 => ofN (c.k.grid.getD 2 1)
  | 0x0019 => ofN team.cls
  | 0x0020 => ofN c.core
  | 0x0021 => ofN c.g.quarter
  | 0x0022 => ofN (s.sysClock c.k.part)
  | 0x0030 => ofN c.g.barst.toNat
  | 0x0031 => ofN (c.view.budget (firstSlice c.run.slices)).toNat
  | _ => none

/-- `SRDSR` (R115): zero-extended, bound exact. -/
def execSrdsr (d : UReg) (number : BitVec 16) (s : State) : Host.Outcome State Fault Refusal :=
  issue (.srdsr d number) s { u := [d] } fun c =>
    match specialRead s c number.toNat with
    | none => c.illegal 2
    | some v => .done (s.setGroup c.gid (c.put c.g 4 [.u d v (scoreB c.k.score b16Exact)]))

/-- `SWRSR` (R115, R312): SYS_BARST is W1C, and a write with bit 0 set clears all of it; the others are read-only. -/
def execSwrsr (a : UReg) (number : BitVec 16) (s : State) : Host.Outcome State Fault Refusal :=
  issue (.swrsr a number) s { u := [a] } fun c =>
    match specialRead s c number.toNat with
    | none => c.illegal 2
    | some _ =>
      if number = 0x0030 then
        let v := (c.view.uni a).1
        let v32 : BitVec 32 := BitVec.ofNat 32 (bits v 31 0)
        .done (s.setGroup c.gid { c.g with barst := if bit v 0 then 0 else c.g.barst &&& ~~~v32 })
      else .trap (trapOf 0x05 [7, BitVec.ofNat 64 c.lanes.toNat])

end Sys2Proof.Machine
end

