-- ==== Sys2Proof/Machine/Tiles.lean ====
section
/-! DEFINITION. Tile instructions and `RECSYNC` (R252–R261). -/

namespace Sys2Proof.Machine

/-- `TALLOC` (R253, R254): it completes at once, unless the rows that it is to take are still in use by an access to a freed tile (R256). -/
def execTalloc (h : TileNo) (a : UReg) (s : State) : Host.Outcome State Fault Refusal :=
  issue (.talloc h a) s { u := [a] } fun c =>
    let d := (c.view.uni a).1
    let x := s.team c.g.team
    let refuse : Result := .trap (trapTile 2 c.lanes 0)
    if (KMap.get? x.tiles h.val).isSome || !shapeOk d c.k.pair then refuse
    else
    let late := lateInUse s c.g.team
    let run (l : List Tile) : Option Nat := freeRun l c.k.reservation (tileRowsPerCore d) (tilePair d) c.core
    match run (x.tiles.map (·.2) ++ late.map (·.tile)) with
    | none => if (run (x.tiles.map (·.2))).isSome then .stay s false else refuse
    | some b => .done (s.setTile c.g.team h
        { desc := d, base := b, rows := tileRowsPerCore d, words := [], side := [], poison := [], core := c.core })

/-- The free of a tile in one step (R256, R297): the team's reductions to it drain first, and the accesses that were issued before keep it. -/
def freeTile (s : State) (team : Nat) (h : TileNo) : State :=
  let mine := s.groups.filter fun (_, g) => decide (g.team = team)
  let byNumber := mine.mergeSort fun x y => x.2.number ≤ y.2.number
  let s := byNumber.foldl (fun s (gid, _) => drainWhere s gid fun e => match e.target with
    | .tile h' _ => decide (h' = h)
    | .mem _ _ _ => false) s
  let x := s.team team
  let late := lateInUse s team ++ (match s.tile team h with
    | some t => if tileUsed s team h fun _ _ => true then [{ handle := h.val, tile := t, marks := teamMarks s team }] else []
    | none => [])
  s.setTeam team { x with tiles := KMap.erase x.tiles h.val, late := late }

/-- `TFREE` (R256): its run waits until the accesses of the team to the tile that were in flight when it issued have completed. -/
def execTfree (h : TileNo) (s : State) : Host.Outcome State Fault Refusal :=
  issue (.tfree h) s {} fun c =>
    match s.tile c.g.team h with
    | none => .trap (trapTile 0 c.lanes 0)
    | some _ =>
      let marks := match c.g.freeing with
        | some (run, pc, m) => if run = c.run.id ∧ pc = c.run.pc then m else teamMarks s c.g.team
        | none => teamMarks s c.g.team
      if tileUsed s c.g.team h (beforeMarks marks) then .stay (s.modGroup c.gid fun g => { g with freeing := some (c.run.id, c.run.pc, marks) }) false
      else .done ((freeTile s c.g.team h).modGroup c.gid fun g => { g with freeing := none })

/-- `TINFO`: the descriptor with alloc set, 0 for an unallocated handle (R256). -/
def execTinfo (d : UReg) (h : TileNo) (s : State) : Host.Outcome State Fault Refusal :=
  issue (.tinfo d h) s { u := [d] } fun c =>
    let v : W64 := match s.tile c.g.team h with
      | some t => t.desc ||| BitVec.ofNat 64 (2 ^ 39)
      | none => 0
    .done (s.setGroup c.gid (c.put c.g 4 [.u d v (scoreB c.k.score b16Exact)]))

/-- The elements of a lane by row and column, along a row or down a column (R257). -/
def gridElems (n : Nat) (down : Bool) (o : Opnd) (_ : Tile) (l : Nat) : List (Nat × Nat) :=
  let x := o.at l % 2 ^ 32
  let row := x / 2 ^ 16
  let col := x % 2 ^ 16
  (List.range n).map fun j => if down then (row + j, col) else (row, col + j)

/-- Sub-elements to a lane under MODE. -/
def Gang.subs (c : Gang) : Nat := (c.ty.getD tyF32).n

/-- `TLD` (R257). -/
def execTld (d : Dst) (o : Src) (h : TileNo) (s : State) : Host.Outcome State Fault Refusal :=
  issue (.tld d o h) s { regs := dstRegs d ++ srcRegs o } fun c =>
    c.tileRead s h c.lanes d (gridElems c.subs false (c.opndRaw (wideMode c.mode) o))

/-- `TLDX` (R257). -/
def execTldx (d : Dst) (o : Src) (h : TileNo) (s : State) : Host.Outcome State Fault Refusal :=
  issue (.tldx d o h) s { regs := dstRegs d ++ srcRegs o } fun c =>
    c.tileRead s h c.lanes d (gridElems c.subs true (c.opndRaw (wideMode c.mode) o))

/-- `TST` (R257). -/
def execTst (data o : Src) (h : TileNo) (s : State) : Host.Outcome State Fault Refusal :=
  issue (.tst data o h) s { regs := srcRegs data ++ srcRegs o } fun c =>
    c.tileWrite s h c.lanes data false (gridElems c.subs false (c.opndRaw (wideMode c.mode) o))

/-- `TSTX` (R257). -/
def execTstx (data o : Src) (h : TileNo) (s : State) : Host.Outcome State Fault Refusal :=
  issue (.tstx data o h) s { regs := srcRegs data ++ srcRegs o } fun c =>
    c.tileWrite s h c.lanes data false (gridElems c.subs true (c.opndRaw (wideMode c.mode) o))

/-- A register range whose length the operands give: outside the role budget, or, in interlocked mode, with a write
outstanding (R53, R185). -/
def Gang.rangeHolds (c : Gang) (r : VFirst) (n : Nat) : Bool := decide (r.val + n ≤ c.k.budgetOf c.g.role)
def Gang.rangeBusy (c : Gang) (r : VFirst) (n : Nat) : Bool :=
  c.view.interlocked && (List.range n).any fun j => !(c.g.altsV c.view.clock c.view.run (rangeReg r j)).isEmpty

/-- Sub-elements scattered over a register range: element k to sub-element k mod n of lane (k div n) mod G of register
k div (G · n); `f` gives an element's bits and bound term, and a lane that keeps a sub-element keeps its bound as well
(R206, R258). Answers the write of register i. -/
def scatterReg (score : Bool) (g : Nat) (old : VLine) (t : Ty) (r : VFirst) (total i : Nat) (lanes : BitVec 32) (f : Nat → Nat × Bnd) : RegWrite :=
  let elemsOf (l : Nat) : List Nat := (List.range t.n).filter fun j => decide ((i * g + l) * t.n + j < total)
  let hit := lanes &&& maskOf 32 fun l => decide (l < g) && !(elemsOf l).isEmpty
  let lane (l : Nat) : Nat × B16 :=
    let es := elemsOf l
    let whole := decide (es.length = t.n)
    let o := (old.val.toList.getD l 0).toNat
    let start := if whole then 0 else if t.w = 6 then o % 2 ^ 30 else o
    let ob := old.bnd.toList.getD l 0
    let (v, b) := es.foldl (fun (acc : Nat × Bnd) j =>
      let (x, term) := f ((i * g + l) * t.n + j)
      (setElem acc.1 j t.w x, acc.2.max term)) (start, if whole then .fin 0 else Bnd.of ob)
    (v, scoreB score b.toB16)
  .v (rangeReg r i)
    { val := Vector.ofFn fun l : Fin 32 => BitVec.ofNat 32 (lane l.val).1, bnd := Vector.ofFn fun l : Fin 32 => (lane l.val).2 } hit

/-- `TLDT`: a 4 × 16 block in column order (R258). -/
def execTldt (d : VFirst) (o : Src) (h : TileNo) (s : State) : Host.Outcome State Fault Refusal :=
  issue (.tldt d o h) s { regs := srcRegs o } fun c =>
    if c.lacksSlice then c.illegal 5
    else match c.ty with
    | none => c.badMode
    | some t =>
      let regs := (64 + c.k.width * t.n - 1) / (c.k.width * t.n)
      if t.is64 then c.badMode
      else if !c.rangeHolds d regs then c.illegal 2
      else if c.rangeBusy d regs then .stay s false
      else if counterFull c.g true then .stay s true
      else
        let off := (c.opndRaw false o).at ((lowestBit c.all).getD 0) % 2 ^ 32
        let at_ (k : Nat) : Nat × Nat := (off / 2 ^ 16 + k % 4, off % 2 ^ 16 + k / 4)
        let perLane (l : Nat) : List (Nat × Nat) := ((List.range 64).filter fun k => decide (k / t.n % c.k.width = l)).map at_
        let x0 := s.tile c.g.team h
        if (match x0 with
          | some x => !formatOk t (tileTy x.desc) false
          | none => false) then c.badMode
        else match tileCheck x0 (BitVec.allOnes 32) perLane with
        | .error e => .trap e
        | .ok _ =>
          let s := settleTile s c.gid h
          match s.tile c.g.team h with
          | none => .done s
          | some x =>
            let out (k : Nat) : Nat × Bnd × BitVec 9 :=
              let (r, q) := at_ k
              stageLoad (tileTy x.desc) t c.mode none (x.bound r q) (x.read r q)
            if (List.range 64).any fun k => x.poisoned (at_ k).1 (at_ k).2 then .gone (killPoison s c.gid)
            else
              let fl := (List.range 64).foldl (fun a k => a ||| (out k).2.2) 0
              let ws := (List.range regs).map fun i => scatterReg c.k.score c.k.width (c.view.line (rangeReg d i)) t d 64 i (BitVec.allOnes 32) fun k => ((out k).1, (out k).2.1)
              .done (s.modGroup c.gid fun g => raiseStep (overtakeAll g c.view.serial c.run.id ws) true (newStep g.stepSeq true ws fl))

/-- `TFILL`: one value to whole rows (R259). -/
def execTfill (data o : Src) (h : TileNo) (s : State) : Host.Outcome State Fault Refusal :=
  issue (.tfill data o h) s { regs := srcRegs data ++ srcRegs o } fun c =>
    match c.ty with
    | none => c.badMode
    | some t =>
      let x0 := s.tile c.g.team h
      if counterFull c.g false || c.writeStalls then .stay s true
      else if (match x0 with
        | some x => !formatOk t (tileTy x.desc) false
        | none => false) then c.badMode
      else match x0, lowestBit c.lanes with
      | none, _ => .trap (trapTile 0 c.lanes 0)
      | some _, none => .done (s.modGroup c.gid fun g => raiseStep g false (newStep g.stepSeq true [] 0))
      | some x, some l =>
        let off := (c.opndRaw t.is64 o).at l % 2 ^ 32
        let row0 := off / 2 ^ 16
        let rows := tileRows x.desc
        let cnt := if off % 2 ^ 16 = 0 then rows - row0 else off % 2 ^ 16
        if rows ≤ row0 ∨ rows < row0 + cnt then .trap (trapTile 1 (maskOf 32 fun i => decide (i = l)) ((max row0 rows) * tileCols x.desc))
        else
          let d := c.opnd t data
          let (y, term, fl) := stageStore t (tileTy x.desc) c.mode none (d.bndAt l) (elem (d.at l) 0 t.w)
          let ws := (List.range cnt).flatMap fun i => (List.range (tileCols x.desc)).map fun q =>
            ({ row := row0 + i, col := q, bits := y, bnd := scoreB c.k.score term.toB16 } : TileWrite)
          let s := settleTile s c.gid h
          let s := drainTileTargets s c.gid h (ws.map fun w => w.row * tileCols x.desc + w.col)
          let s := match s.tile c.g.team h with
            | none => s
            | some x => s.setTile c.g.team h (x.write ws)
          .done (s.modGroup c.gid fun g => raiseStep g false (newStep g.stepSeq true [] fl))

/-- `RECSYNC`: its run is held until `RECSYNC_COMPLETE` (R252). -/
def execRecsync (r : Option RecNo) (s : State) : Host.Outcome State Fault Refusal :=
  issue (.recsync r) s {} fun c =>
    if (match r with
      | some n => decide (c.k.recCount ≤ n.val)
      | none => false) then .trap (trapMalformed c.lanes)
    else
      let (n, count) : Nat × Nat := match r with
        | some n => (n.val, 1)
        | none => (0, c.k.recCount)
      .held s (.recsync (c.access (.recsync r) (match r with
        | some n => n.val
        | none => 0xFF) c.lowest (Vector.replicate 32 (BitVec.ofNat 64 (c.k.recTable + 40 * n))) (captured (Opnd.const (BitVec.ofNat 64 (40 * count)) b16Exact)) none none none))

end Sys2Proof.Machine
end

