-- ==== Sys2Proof/Machine/Atomics.lean ====
section
/-! DEFINITION. Returning atomics, buffered reductions and `RFLUSH` (R282–R301). -/

namespace Sys2Proof.Machine

/-- The element format agrees with the MODE type (R283). -/
def atomicFormat (mode ef : Ty) (blk : Nat) : Bool :=
  decide (blk = 0) && (if mode.isInt then ef.isInt && decide (ef.w = mode.w) else decide (ef.kind = mode.kind))

/-- The types of R283. -/
def intWide (t : Ty) : Bool := t.isInt && decide (32 ≤ t.w)
def fltWide (t : Ty) : Bool := decide (t.kind = .flt .f32) || decide (t.kind = .flt .f64)
def natWide (t : Ty) : Bool := decide (t.kind = .uint) && decide (32 ≤ t.w)
def atomicTy (op : AtomicKind) (t : Ty) : Bool := match op with
  | .add | .and | .or | .xor | .min | .max | .semMax => intWide t
  | .xchg | .cas => intWide t || fltWide t
  | .incw | .addb => natWide t
  | .fadd => fltWide t

/-- Whether a record is a pointer record in the snapshot. -/
def isPointer (k : Kernel) (r : RecNo) : Bool := match snapRecord k r with
  | some (_, w) => (recOf w).pointer
  | none => false

/-- The record's format check of R283; a malformed record is left to R245. -/
def atomicRecord (k : Kernel) (t : Ty) (r : RecNo) : Bool := match snapRecord k r with
  | none => true
  | some (_, w) => recMalformed w || atomicFormat t (recOf w).ty (recOf w).blk

/-- The pointer pair of a pointer record's offset is a legal pair (R285). -/
def pointerPairOk (c : Gang) (o : Src) : Bool := match o with
  | .reg r => decide (regNum r % 2 = 0) && rangeOk (c.k.budgetOf c.g.role) r 2
  | .zero | .one | .lane | .slice => true

/-- Issue an operation of this chapter on its target: `op` names it for the access, `load` its counter; `tile` performs it
on a tile whose lanes' elements, given by flat index, are checked. -/
def Gang.atomicIssue (c : Gang) (s : State) (t : Ty) (op : AccessOp) (o : Src) (rt : RT) (data : List VLine) (dst : Option VReg) (load : Bool)
    (tile : State → Access → TileNo → (Nat → Nat) → Result) : Result :=
  if c.writeStalls then .stay s true
  else match rt with
  | .record r =>
    if !atomicRecord c.k t r then c.badMode
    else if isPointer c.k r && !pointerPairOk c o then c.illegal 2
    else
      let offs := c.opndRaw (isPointer c.k r || t.is64) o
      c.memIssue (spend s (if t.is64 then 1 else 0)) (c.access op r.val c.lanes offs.val data (some r) dst none) load
  | .tile h =>
    let offs := c.opndRaw t.is64 o
    let idx (l : Nat) : Nat := offs.at l % 2 ^ 32
    let x0 := s.tile c.g.team h
    if (match x0 with
      | some x => !atomicFormat t (tileTy x.desc) 0
      | none => false) then c.badMode
    else if counterFull c.g load then .stay s true
    else match tileCheck x0 c.lanes fun l => match x0 with
        | some x => [flatAt x.desc (idx l)]
        | none => [] with
    | .error e => .trap e
    | .ok _ => tile (spend s (if t.is64 then 1 else 0)) (c.access op (224 + h.val) 0 offs.val data none dst none) h idx

/-! ### Returning atomics (R287–R293) -/

/-- A returning atomic: each lane performs at an `ATOMIC_LANE_PERFORM` of its own. -/
def atomicOp (i : Instr) (op : AtomicKind) (uses : Uses) (dst : Option VReg) (o : Src) (rt : RT) (data : Gang → Ty → List VLine) (s : State) :
    Host.Outcome State Fault Refusal :=
  issue i s uses fun c =>
    match c.ty with
    | none => c.badMode
    | some t =>
      if !atomicTy op t then c.badMode
      else c.atomicIssue s t (.atomic op) o rt (data c t) dst true fun s a h idx =>
        let s := drainTileTargets s c.gid h ((setBitsOf c.lanes).map idx)
        let places := (setBitsOf c.lanes).map fun l => (l, noAttr, idx l)
        .done (s.modGroup c.gid fun g =>
          raiseStep g true { newStep g.stepSeq places.isEmpty [] 0 with todo := some a, places := places })

/-- The returning atomics whose one register is operand and destination (R284). -/
def atomicOne (i : Instr) (op : AtomicKind) (d : Dst) (o : Src) (rt : RT) (s : State) : Host.Outcome State Fault Refusal :=
  atomicOp i op { regs := dstRegs d ++ srcRegs o } (dstRegs d).head? o rt (fun c t => captured (c.opnd t (dstSrc d))) s

/-- The second register, or pair, of a range of two (R284). -/
def secondReg (r : VFirst) (wide : Bool) : VReg := rangeReg r (if wide then 2 else 1)

/-- The returning atomics of two registers (R284). -/
def atomicTwo (i : Instr) (op : AtomicKind) (d : VFirst) (o : Src) (rt : RT) (s : State) : Host.Outcome State Fault Refusal :=
  atomicOp i op { regs := .v d :: srcRegs o, byMode := [(.v d, fun m => if wideMode m then 4 else 2)], p := [] } (some (.v d)) o rt
    (fun c t => captured (c.opnd t (.reg (.v d))) ++ captured (c.view.opnd t.is64 (secondReg d t.is64))) s

/-- `AADD`. -/
def execAadd (d : Dst) (o : Src) (rt : RT) (s : State) : Host.Outcome State Fault Refusal := atomicOne (.aadd d o rt) .add d o rt s
/-- `AAND`. -/
def execAand (d : Dst) (o : Src) (rt : RT) (s : State) : Host.Outcome State Fault Refusal := atomicOne (.aand d o rt) .and d o rt s
/-- `AOR`. -/
def execAor (d : Dst) (o : Src) (rt : RT) (s : State) : Host.Outcome State Fault Refusal := atomicOne (.aor d o rt) .or d o rt s
/-- `AXOR`. -/
def execAxor (d : Dst) (o : Src) (rt : RT) (s : State) : Host.Outcome State Fault Refusal := atomicOne (.axor d o rt) .xor d o rt s
/-- `AMIN`. -/
def execAmin (d : Dst) (o : Src) (rt : RT) (s : State) : Host.Outcome State Fault Refusal := atomicOne (.amin d o rt) .min d o rt s
/-- `AMAX`. -/
def execAmax (d : Dst) (o : Src) (rt : RT) (s : State) : Host.Outcome State Fault Refusal := atomicOne (.amax d o rt) .max d o rt s
/-- `AXCHG`. -/
def execAxchg (d : Dst) (o : Src) (rt : RT) (s : State) : Host.Outcome State Fault Refusal := atomicOne (.axchg d o rt) .xchg d o rt s
/-- `ACAS`. -/
def execAcas (d : VFirst) (o : Src) (rt : RT) (s : State) : Host.Outcome State Fault Refusal := atomicTwo (.acas d o rt) .cas d o rt s
/-- `AINCW`. -/
def execAincw (d : Dst) (o : Src) (rt : RT) (s : State) : Host.Outcome State Fault Refusal := atomicOne (.aincw d o rt) .incw d o rt s
/-- `AADDB`. -/
def execAaddb (d : VFirst) (o : Src) (rt : RT) (s : State) : Host.Outcome State Fault Refusal := atomicTwo (.aaddb d o rt) .addb d o rt s
/-- `AFADD`. -/
def execAfadd (d : Dst) (o : Src) (rt : RT) (s : State) : Host.Outcome State Fault Refusal := atomicOne (.afadd d o rt) .fadd d o rt s

/-- `ATOMIC_LANE_PERFORM`: the first lane left of the group's oldest atomic performs (R287, R292). -/
def execAtomicLanePerform (gid : Nat) (s : State) : Host.Outcome State Fault Refusal :=
  .next (tick (match s.group? gid with
    | some g => (match g.ld.find? fun x => !x.places.isEmpty with
      | some x =>
        let (s, st) := atomicLane s gid x
        setLdStep s gid st
      | none => s)
    | none => s))

/-! ### Buffered reductions (R294–R300) -/

/-- The types of a reduction (R283). -/
def redTyOk (op : RedKind) (t : Ty) : Bool := match op with
  | .add => intWide t
  | .fadd => fltWide t
  | .min | .max => intWide t || fltWide t

/-- A buffered reduction: every lane combines at issue, and its step completes (R295). -/
def reduceOp (i : Instr) (op : RedKind) (data o : Src) (rt : RT) (s : State) : Host.Outcome State Fault Refusal :=
  issue i s { regs := srcRegs data ++ srcRegs o } fun c =>
    match c.ty with
    | none => c.badMode
    | some t =>
      if !redTyOk op t then c.badMode
      else
        let x := c.opnd t data
        c.atomicIssue s t (.reduce op) o rt (captured x) none false fun s _ h idx =>
          let s := settleTile s c.gid h
          let (s, fl) := (setBitsOf c.lanes).foldl (fun (acc : State × BitVec 9) l =>
            let (s, f) := contribute acc.1 c.gid
              { target := .tile h (idx l), op := op, type := BitVec.ofNat 5 (modeType c.mode), rnd := BitVec.ofNat 3 (modeRnd c.mode), ftz := modeFtz c.mode
                sig := false, page := noAttr, value := BitVec.ofNat 64 (x.at l), bound := scoreB c.k.score (x.bndAt l) }
            (s, acc.2 ||| f)) (s, 0)
          .done (s.modGroup c.gid fun g => raiseStep g false (newStep g.stepSeq true [] fl))

/-- `REDADD`. -/
def execRedadd (data o : Src) (rt : RT) (s : State) : Host.Outcome State Fault Refusal := reduceOp (.redadd data o rt) .add data o rt s
/-- `REDFADD`. -/
def execRedfadd (data o : Src) (rt : RT) (s : State) : Host.Outcome State Fault Refusal := reduceOp (.redfadd data o rt) .fadd data o rt s
/-- `REDMIN`. -/
def execRedmin (data o : Src) (rt : RT) (s : State) : Host.Outcome State Fault Refusal := reduceOp (.redmin data o rt) .min data o rt s
/-- `REDMAX`. -/
def execRedmax (data o : Src) (rt : RT) (s : State) : Host.Outcome State Fault Refusal := reduceOp (.redmax data o rt) .max data o rt s

/-- `RFLUSH`: the group's entries drain, oldest first (R300). -/
def execRflush (s : State) : Host.Outcome State Fault Refusal :=
  issue .rflush s {} fun c =>
    if counterFull c.g false || c.writeStalls then .stay s true
    else .done ((drainWhere s c.gid fun _ => true).modGroup c.gid fun g => raiseStep g false (newStep g.stepSeq true [] 0))

end Sys2Proof.Machine
end

