-- ==== Sys2Proof/Machine/Bounds.lean ====
section
/-! DEFINITION. Bound instructions, the budget, and the sticky flags' reader (R149–R159). -/

namespace Sys2Proof.Machine

/-- W of a bound instruction (R159). -/
def boundW : Nat := 6

/-- The types of `BGET`, `BSET` and `BADD`: `some true` for B16x2, `some false` for F32 (R149). -/
def boundTy (t : Ty) : Option Bool :=
  if t.kind = .b16 then some true else if t.kind = .flt .f32 then some false else none

/-- The F32 bits of a bound (R150). -/
def boundF32 (b : B16) : Nat :=
  match Bnd.of b with
  | .fin q => Fmt.f32.encode (.fin false q)
  | .unb => Fmt.f32.encode (.inf false)
  | .untr => 0x7FC00000

/-- The bound that an operand value asserts (R151): under B16x2 its bits as they are, untracked ones among them (DESIGN CHOICE, log 112). -/
def boundOf (b16x2 : Bool) (x : Nat) : B16 :=
  if b16x2 then BitVec.ofNat 16 x
  else match Fmt.f32.decode (x % 2 ^ 32) with
  | .nan _ _ => b16Unbounded
  | .inf _ => b16Unbounded
  | .fin n q => if n && decide (q ≠ 0) then b16Unbounded else roundUpB16 q

/-- An instruction that gives d the 32 bits of a, with a bound of its own, in the types of R149. -/
def boundMove (i : Instr) (d : Dst) (a b : Src) (f : Bool → Nat → B16 → Nat → Nat × B16) (s : State) :
    Host.Outcome State Fault Refusal :=
  issue i s { regs := dstRegs d ++ srcRegs a ++ srcRegs b } fun c =>
    match c.ty.bind fun t => (boundTy t).map fun x => (t, x) with
    | none => c.badMode
    | some (t, b16x2) =>
      let x := c.opnd t a
      let y := c.opnd t b
      let r (l : Nat) : Nat × B16 := f b16x2 (x.at l) (x.bndAt l) (y.at l)
      let o : Opnd :=
        { val := Vector.ofFn fun l : Fin 32 => BitVec.ofNat 64 (r l.val).1
          bnd := Vector.ofFn fun l : Fin 32 => scoreB c.k.score (r l.val).2 }
      .done (s.setGroup c.gid (c.put c.g boundW (dstWrites false d o c.lanes)))

/-- `BGET` (R150). -/
def execBget (d : Dst) (a : Src) (s : State) : Host.Outcome State Fault Refusal :=
  boundMove (.bget d a) d a .zero (fun b16x2 _ β _ => (if b16x2 then β.toNat else boundF32 β, b16Exact)) s

/-- `BSET` (R151). -/
def execBset (d : Dst) (a b : Src) (s : State) : Host.Outcome State Fault Refusal :=
  boundMove (.bset d a b) d a b (fun b16x2 x _ y => (x, boundOf b16x2 y)) s

/-- `BADD` (R151). -/
def execBadd (d : Dst) (a b : Src) (s : State) : Host.Outcome State Fault Refusal :=
  boundMove (.badd d a b) d a b (fun b16x2 x β y => (x, ((Bnd.of β).add (Bnd.of (boundOf b16x2 y))).toB16)) s

/-- `BCLR`: under every type, a pair under the 64-bit ones (R152). -/
def execBclr (d : Dst) (a : Src) (s : State) : Host.Outcome State Fault Refusal :=
  issue (.bclr d a) s { regs := dstRegs d ++ srcRegs a } fun c =>
    match c.ty with
    | none => c.badMode
    | some t =>
      let o := { c.opnd t a with bnd := Vector.replicate 32 (scoreB c.k.score b16Exact) }
      .done (s.setGroup c.gid (c.put c.g boundW (dstWrites t.is64 d o c.lanes)))

/-- `BMAXR`: unchanged where no lane is active (R154). -/
def execBmaxr (d : UReg) (a : Src) (s : State) : Host.Outcome State Fault Refusal :=
  issue (.bmaxr d a) s { regs := srcRegs a, u := [d] } fun c =>
    match c.ty with
    | none => c.badMode
    | some t =>
      if c.lanes = 0 then .done s
      else
        let x := c.opnd t a
        let m := (setBitsOf c.lanes).foldl (fun m l => maxB16 m (x.bndAt l)) b16Exact
        .done (s.setGroup c.gid (c.put c.g boundW [.u d (m.setWidth 64) (scoreB c.k.score b16Exact)]))

/-- The budget that `SETB` asks for; `none` where it traps (R155). -/
def newBudget (c : Gang) : SetbSrc → Option B16
  | .imm v => if isUntracked v then none else some v
  | .reg n =>
    let v := (c.view.uni n).1
    let b : B16 := v.setWidth 16
    if bits v 63 16 ≠ 0 || isUntracked b then none else some b

/-- `SETB`: an early later run may still use the old budget (R155). -/
def execSetb (src : SetbSrc) (s : State) : Host.Outcome State Fault Refusal :=
  issue (.setb src) s { u := match src with
      | .imm _ => []
      | .reg n => [n] } fun c =>
    match newBudget c src with
    | none => c.badMode
    | some b =>
      .done (s.setGroup c.gid { c.g with budget := b, unsettled := keepOld c.g.unsettled (.budget c.g.budget) (c.view.clock + boundW) c.view.run })

/-- `BCHK` (R156). -/
def execBchk (p : PReg) (a : Src) (s : State) : Host.Outcome State Fault Refusal :=
  issue (.bchk p a) s { regs := srcRegs a, p := [p] } fun c =>
    match c.ty with
    | none => c.badMode
    | some t =>
      let x := c.opnd t a
      let out (l : Nat) : LaneOut := { LaneOut.none with bnd := x.bndAt l }
      let hit := if c.k.score then 0
        else c.lanes &&& maskOf 32 fun l => exceeds (x.bndAt l) (c.view.budget (l / c.k.perSlice))
      let br := c.breach s 2 c.lanes out
      match br, modeBnd c.mode with
      | some b, 2 => .trap (trapBreach b)
      | some b, 1 =>
        let g := (c.put c.g boundW [.p p (~~~hit) c.lanes]).stick flBreach
        .done (writeCard (s.setGroup c.gid g) c.gid b.card)
      | _, _ => .done (s.setGroup c.gid (c.put c.g boundW [.p p (~~~hit) c.lanes]))

/-- `BREP`: a word of the latest card's copy, 0 before the first (R157). -/
def execBrep (d : UReg) (k : BitVec 3) (s : State) : Host.Outcome State Fault Refusal :=
  issue (.brep d k) s { u := [d] } fun c =>
    .done (s.setGroup c.gid (c.put c.g boundW [.u d (wordAt c.g.cardCopy k.toNat) (scoreB c.k.score b16Exact)]))

/-- `FLAGS` (R158). -/
def execFlags (d : UReg) (clear : BitVec 9) (s : State) : Host.Outcome State Fault Refusal :=
  issue (.flags d clear) s { u := [d] } fun c =>
    let v := BitVec.ofNat 64 (c.g.sticky.toNat + min c.g.cards 65535 * 2 ^ 16)
    let g := c.put c.g boundW [.u d v (scoreB c.k.score b16Exact)]
    .done (s.setGroup c.gid { g with sticky := g.sticky &&& ~~~clear })

end Sys2Proof.Machine
end

