-- ==== Sys2Proof/Machine/Control.lean ====
section
/-! DEFINITION. Control and issue instructions, mode setting and hints (R42, R70–R96). -/

namespace Sys2Proof.Machine

/-! ### Paths within a slice (R70–R74) -/

/-- Free slots of a slice's stack (R71). -/
def Slice.free (sl : Slice) : Nat := 16 - sl.stack.length

/-- The bits of a lane mask that lie in slice i. -/
def sliceBits (per : Nat) (m : BitVec 32) (i : Nat) : BitVec 4 := maskOf 4 fun b => decide (b < per) && bit m (i * per + b)

/-- A code address as a word offset, and back (R70). -/
def wordOff (codeVa pc : Nat) : W32 := BitVec.ofInt 32 (((pc : Int) - codeVa) / 4)
def offPc (codeVa : Nat) (o : W32) : W64 := BitVec.ofNat 64 (codeVa + 4 * o.toNat)

/-- The target of a J24 or RI16 transfer (R32). -/
def jumpTarget {n : Nat} (pc : Nat) (off : BitVec n) : W64 := BitVec.ofInt 64 ((pc : Int) + 4 * off.toInt)

/-- Set the pc of the nearest rejoin entry to a `JOIN` reached (R79). -/
def markRejoin (pc : W32) : List StackEntry → List StackEntry
  | [] => []
  | e :: t => if e.kind = .rejoin then { e with jv := true, pc := pc } :: t else e :: markRejoin pc t

/-- Lanes of a slice exit (R73); true when the slice's path has ended. -/
def exitLanes (s : State) (g : Group) (e : BitVec 4) (sl : Slice) : Slice × Bool :=
  let stack := (sl.stack.map fun x => { x with mask := x.mask &&& ~~~e }).filter fun x => x.mask ≠ 0
  let sl := { sl with exited := sl.exited ||| e, act := sl.act &&& ~~~e, stack := stack }
  if sl.act ≠ 0 then (sl, false)
  else
    let va := (s.codeOf g).va
    match stack with
    | [] => (sl, true)
    | t :: rest =>
      let pc := match t.kind with
        | .pending | .call => offPc va t.pc
        | .rejoin => BitVec.ofNat 64 (nextHeader s g (offPc va t.pc).toNat)
      ({ sl with act := t.mask, stack := rest, pc := pc }, true)

/-- Per-slice control over the gang: each slice's new state and whether it leaves the run; the first slice that
traps stops all, and nothing changes (R86). -/
def Gang.eachSlice (c : Gang) (f : Nat → Slice → Except TrapInfo (Slice × Bool)) : Except TrapInfo (Group × BitVec 8) :=
  (setBitsOf c.run.slices).foldl (fun acc i => match acc with
    | .error t => .error t
    | .ok (g, m) => match f i (g.slice i) with
      | .error t => .error t
      | .ok (sl, leave) => .ok (g.mapSlices (maskOf 8 fun j => decide (j = i)) (fun _ _ => sl), if leave then m ||| maskOf 8 fun j => decide (j = i) else m))
    (.ok (c.g, 0))

/-- The result of per-slice control. -/
def Gang.control (c : Gang) (s : State) (taken : Bool) (r : Except TrapInfo (Group × BitVec 8)) : Result :=
  match r with
  | .error t => .trap t
  | .ok (g, m) => .leave (s.setGroup c.gid g) m (taken && decide (m ≠ 0))

/-- The slice moved to a pc. -/
def Slice.to (sl : Slice) (pc : W64) : Slice := { sl with pc := pc }
def Slice.push (sl : Slice) (e : StackEntry) : Slice := { sl with stack := e :: sl.stack }

/-- Where the gang goes after its run: the next header position (R71). -/
def Gang.nextHeader (c : Gang) : W64 := c.run.pc + BitVec.ofNat 64 (4 * c.words + (if c.run.trailer then 4 else 0))

/-- Release the slices parked at `REGANG` once every slice that has not exited is parked (R83). -/
def regangTest (g : Group) (k : Kernel) : Group :=
  let live := g.liveSlices k
  if live ≠ 0 && (setBitsOf live).all fun i => (g.slice i).parked then g.mapSlices live fun _ sl => { sl with parked := false } else g

/-! ### Meanings -/

/-- `NOP` (R93). -/
def execNop (s : State) : Host.Outcome State Fault Refusal := issue .nop s {} fun _ => .done s

/-- `BRA` (R77). -/
def execBra (off : BitVec 24) (s : State) : Host.Outcome State Fault Refusal :=
  issue (.bra off) s {} fun c =>
    let target := jumpTarget c.pc off
    let va := (s.codeOf c.g).va
    c.control s true (c.eachSlice fun i sl =>
      if !bit c.mode 15 then .ok (sl.to target, true)
      else
        let gm := sliceBits c.k.perSlice c.guard i
        let t := sl.act &&& gm
        let n := sl.act &&& ~~~gm
        if sl.free < (if t ≠ 0 ∧ n ≠ 0 then 2 else 1) then .error (trapIllegal 4 0 c.lanes)
        else
          let r := sl.push { kind := .rejoin, jv := false, mask := sl.act, pc := 0 }
          if t = 0 then .ok (r, false)
          else if n = 0 then .ok (r.to target, true)
          else .ok ({ r.push { kind := .pending, jv := false, mask := t, pc := wordOff va target.toNat } with act := n }, false))

/-- A lane of a vector register field read as 32 bits, whatever the type: the even register of a pair (R75). -/
def Gang.low32 (c : Gang) (a : Src) (l : Nat) : W32 :=
  match a with
  | .reg r => (c.view.line r).val.toList.getD l 0
  | .zero => 0
  | .one => BitVec.ofNat 32 (oneBits c.mode false)
  | .lane => BitVec.ofNat 32 l
  | .slice => BitVec.ofNat 32 (l / c.k.perSlice)

/-- `BRX` (R78). A slice whose own lanes are left goes on at the next header, and takes no transfer. DESIGN CHOICE (log 96): a
misaligned target in any slice traps 0x04 before a full stack in any slice traps 0x01. -/
def execBrx (a : Src) (s : State) : Host.Outcome State Fault Refusal :=
  issueLast (.brx a) s { regs := srcRegs a } fun c =>
    let va := (s.codeOf c.g).va
    let per := c.k.perSlice
    let bad := c.lanes &&& maskOf 32 fun l => decide ((c.low32 a l).toNat % 4 ≠ 0)
    if bad ≠ 0 then
      .trap (trapOf 0x04 [1, BitVec.ofNat 64 bad.toNat, BitVec.ofNat 64 (va + (c.low32 a ((lowestBit bad).getD 0)).toNat)])
    else c.control s true (c.eachSlice fun i sl =>
      let t := sl.act &&& sliceBits per c.guard i
      let n := sl.act &&& ~~~t
      let off (b : Nat) : Nat := (c.low32 a (i * per + b)).toNat
      let tg := (setBitsOf t).foldl (fun (l : List Nat) b => if l.contains (off b) then l else l ++ [off b]) []
      let lanesTo (x : Nat) : BitVec 4 := t &&& maskOf 4 fun b => decide (off b = x)
      let k := tg.length
      if sl.free < 1 + k - (if n = 0 ∧ 0 < k then 1 else 0) then .error (trapIllegal 4 0 c.lanes)
      else
        let r := sl.push { kind := .rejoin, jv := false, mask := sl.act, pc := 0 }
        let pend (r : Slice) (x : Nat) : Slice := r.push { kind := .pending, jv := false, mask := lanesTo x, pc := BitVec.ofNat 32 (x / 4) }
        match tg with
        | x :: rest =>
          if n ≠ 0 then .ok ({ tg.reverse.foldl pend r with act := n }, false)
          else .ok ({ rest.reverse.foldl pend r with act := lanesTo x, pc := BitVec.ofNat 64 (va + x) }, true)
        | [] => .ok ({ r with act := n }, false))

/-- `JOIN` (R79). -/
def execJoin (s : State) : Host.Outcome State Fault Refusal :=
  issueLast .join s {} fun c =>
    let va := (s.codeOf c.g).va
    c.control s true (c.eachSlice fun _ sl =>
      match sl.stack with
      | [] => .error (trapIllegal 7 0 c.lanes)
      | e :: rest => match e.kind with
        | .call => .error (trapIllegal 7 0 c.lanes)
        | .pending => .ok ({ sl with stack := markRejoin (wordOff va c.pc) rest, act := e.mask, pc := offPc va e.pc }, true)
        | .rejoin => .ok ({ sl with stack := rest, act := e.mask }, false))

/-- `CALL` (R80). -/
def execCall (off : BitVec 24) (s : State) : Host.Outcome State Fault Refusal :=
  issueLast (.call off) s {} fun c =>
    let va := (s.codeOf c.g).va
    c.control s true (c.eachSlice fun _ sl =>
      if sl.free < 1 then .error (trapIllegal 4 0 c.lanes)
      else .ok ((sl.push { kind := .call, jv := false, mask := sl.act, pc := wordOff va c.nextHeader.toNat }).to (jumpTarget c.pc off), true))

/-- `RET` (R80). -/
def execRet (s : State) : Host.Outcome State Fault Refusal :=
  issueLast .ret s {} fun c =>
    let va := (s.codeOf c.g).va
    c.control s true (c.eachSlice fun _ sl =>
      match sl.stack with
      | [] => .error (trapIllegal 7 0 c.lanes)
      | e :: rest => match e.kind with
        | .call => .ok ({ sl with stack := rest, act := e.mask, pc := offPc va e.pc }, true)
        | .pending | .rejoin => .error (trapIllegal 7 0 c.lanes))

/-- `REGANG` (R83): the gang's slices park, and all are released once every slice that has not exited is parked. -/
def execRegang (s : State) : Host.Outcome State Fault Refusal :=
  issueLast .regang s {} fun c =>
    let g := c.g.mapSlices c.run.slices fun _ sl => { sl with parked := true, pc := c.nextHeader }
    .leave (s.setGroup c.gid (regangTest g c.k)) c.run.slices false

/-- `LOOPS` (R81): one decrement for each gang that issues it. -/
def execLoops (d : UReg) (off : BitVec 16) (s : State) : Host.Outcome State Fault Refusal :=
  issueLast (.loops d off) s { u := [d] } fun c =>
    let (v, b) := c.view.uni d
    if v = 0 then .done s
    else
      let g := c.g.write c.view 4 (.u d (v - 1) (scoreB c.k.score (if b = b16Exact then b16Exact else b16Unbounded)))
      if v - 1 ≠ 0 then
        .leave (s.setGroup c.gid (g.mapSlices c.run.slices fun _ sl => sl.to (jumpTarget c.pc off))) c.run.slices true
      else .done (s.setGroup c.gid g)

/-- Close the open batch: it is numbered, and raises mx unless it is empty and nothing is ahead of it (R306). -/
def closeBatch (g : Group) : Group :=
  let g := { g with batchNo := g.batchNo + 1, openBatch := Batch.blank, mx :=
    (if g.openBatch.open_ = 0 ∧ !g.openBatch.relNeeded ∧ g.mx.isEmpty then [] else g.mx ++ [g.openBatch]) }
  g

/-- Nothing stands in the open batch. -/
def Group.batchEmpty (g : Group) : Bool := decide (g.openBatch.open_ = 0) && !g.openBatch.relNeeded

/-- The work that a group's last exit starts: its open batch is closed (R306), and its release at .sys follows its
drains (R297, R332). -/
def lastExit (g : Group) (pc : W64) : Group :=
  let g := if g.batchEmpty then g else closeBatch g
  { g with stepSeq := g.stepSeq + 1, release := some { scope := .sys, upto := g.stepSeq, markers := [], next := .groupEnd, pc := pc, opcode := 0x08, sent := false, faulted := false } }

/-- `EXIT` (R82, R73). A group whose release of a fence is in progress waits for it before its last exit. -/
def execExit (s : State) : Host.Outcome State Fault Refusal :=
  issue .exit s {} fun c =>
    match c.eachSlice fun i sl => .ok (exitLanes s c.g (sl.act &&& sliceBits c.k.perSlice c.guard i) sl) with
    | .error t => .trap t
    | .ok (g, m) =>
      let g := regangTest g c.k
      if g.liveSlices c.k = 0 then
        if !c.g.batchEmpty && decide (62 ≤ c.g.mx.length) then .stay s true
        else if c.g.release.isSome then .stay s false
        else .leave (settleBarriers (s.setGroup c.gid (lastExit g c.run.pc)) g) m false
      else .leave (s.setGroup c.gid g) m false

/-- `YIELD` (R90). -/
def execYield (s : State) : Host.Outcome State Fault Refusal :=
  issueLast .yield s {} fun c => .done (s.setGroup c.gid { c.g with yieldDue := 15, yieldFor := none })

/-- `BRKP` (R94). -/
def execBrkp (n : BitVec 16) (s : State) : Host.Outcome State Fault Refusal :=
  issue (.brkp n) s {} fun c =>
    if c.lanes ≠ 0 then .trap (trapOf 0x11 [BitVec.ofNat 64 n.toNat, BitVec.ofNat 64 c.lanes.toNat]) else .done s

/-- A MODE value that `SETM` and `SETMR` take (R39). -/
def modeLegal (m : BitVec 24) : Bool := (tyOf (modeType m)).isSome && decide (modeRnd m ≤ 5) && decide (bits m 4 0 = 0)

/-- Write MODE in every slice of the gang; later runs may use the old one for 4 clocks (R95, R96). -/
def Gang.setMode (c : Gang) (m : BitVec 24) : Group :=
  c.g.mapSlices c.run.slices fun _ sl => { sl with mode := m, oldMode := some (sl.mode, c.view.clock + 4, c.run.id) }

/-- `SETM` (R95, R39). -/
def execSetm (m : BitVec 24) (s : State) : Host.Outcome State Fault Refusal :=
  issue (.setm m) s {} fun c =>
    if modeLegal m then .done (s.setGroup c.gid (c.setMode m))
    else .trap (trapOf 0x02 [BitVec.ofNat 64 m.toNat, BitVec.ofNat 64 c.lanes.toNat])

/-- `SETMR` (R95, R39). -/
def execSetmr (a : UReg) (s : State) : Host.Outcome State Fault Refusal :=
  issue (.setmr a) s { u := [a] } fun c =>
    let v := (c.view.uni a).1
    let m : BitVec 24 := BitVec.ofNat 24 (bits v 23 0)
    if modeLegal m && decide (bits v 63 24 = 0) then .done (s.setGroup c.gid (c.setMode m))
    else .trap (trapOf 0x02 [BitVec.ofNat 64 m.toNat, BitVec.ofNat 64 c.lanes.toNat])

/-- The instruction-cache line that holds a code address, where its page is present (R91, R92). -/
def codeLine (s : State) (asid va : Nat) : Option Nat := match (walkNow s asid va).1 with
  | .page _ pa => some (pa / 128)
  | .absent | .migrating _ | .malformed => none

/-- `IPREF` (R92): the lines asked for that lie in the code section are brought into the instruction cache; a line whose page is
absent is dropped. -/
def execIpref (count : BitVec 4) (off : BitVec 20) (s : State) : Host.Outcome State Fault Refusal :=
  issue (.ipref count off) s {} fun c =>
    let first := (jumpTarget c.pc off).toNat / 128
    let code := s.codeOf c.g
    let want := ((List.range (count.toNat + 1)).map (first + ·)).filter fun l => code.va / 128 ≤ l ∧ l * 128 < code.va + code.size
    let core := s.core c.core
    .done (s.setCore c.core { core with icache := icacheAdd core.icache (want.filterMap fun l => codeLine s c.k.asid (128 * l)) })

/-- The hint encoding 0xFD (R42). -/
def execHintFd (x : BitVec 24) (s : State) : Host.Outcome State Fault Refusal := issue (.hintFd x) s {} fun _ => .done s

/-- The hint encoding 0xFE (R42). -/
def execHintFe (x : BitVec 24) (s : State) : Host.Outcome State Fault Refusal := issue (.hintFe x) s {} fun _ => .done s

/-- Opcode 0xFF (R42): trap 0x01 with the cause of an opcode that names no instruction. -/
def execIllegalOpcode (x : BitVec 24) (s : State) : Host.Outcome State Fault Refusal :=
  issue (.illegalOpcode x) s {} fun c => c.illegal 0

/-- A reserved opcode (R42): precise trap 0x01. -/
def execReservedOpcode (op : BitVec 8) (x : BitVec 24) (s : State) : Host.Outcome State Fault Refusal :=
  issue (.reservedOpcode op x) s {} fun c => c.illegal 0

end Sys2Proof.Machine
end

