-- ==== Sys2Proof/Machine/Release.lean ====
section
/-! DEFINITION. The release and acquire parts of fences, barriers, persist barriers and engine flags (R277, R327–R343),
fences and `PBAR` themselves, and the steps on which they wait. -/

namespace Sys2Proof.Machine

/-- Scopes in order (R321). -/
def scopeCode : Scope → Nat
  | .grp => 0
  | .team => 1
  | .core => 2
  | .dev => 3
  | .sys => 4

/-- wb_needed, and the scopes at which an acquire marks the L1 stale (R328, R329). -/
def scopeCrosses (k : Kernel) : Scope → Bool
  | .grp => false
  | .team | .core => k.pair
  | .dev | .sys => true

/-- The acquire part (R329), its loads having performed. -/
def acquire (s : State) (gid : Nat) (scope : Scope) : State :=
  match s.group? gid with
  | none => s
  | some g =>
    let k := s.kernel g.kernel
    let s := acquiredBy s g.core gid
    if scopeCrosses k scope then l1MarkStale s g.core fun e => e.asid = k.asid else s

/-- A gang is parked at an access that has not performed. -/
def Group.waitsParked (g : Group) (p : Access → Bool) : Bool :=
  g.parks.any fun x => decide (x.cause ≠ ParkCause.done) && decide (x.handler = g.inHandler) && decide (x.acc.op ≠ .fetch) && p x.acc

/-- Every load of the group has performed: atomics, and loads parked without a counter step, included. -/
def Group.loadsDone (g : Group) : Bool := g.ld.all (fun x => x.performed) && !g.waitsParked fun a => a.reads

/-- Every load and write issued before a point has performed. -/
def Group.doneBefore (g : Group) (upto : Nat) : Bool :=
  (g.ld ++ g.st).all (fun x => x.performed || decide (upto ≤ x.id)) && !g.waitsParked fun a => decide (a.seq ≤ upto)

/-! ### Write-back (R277, R328) -/

/-- The virtual address of a copy's line. -/
def L1Sector.lineVa (e : L1Sector) : Nat := e.vpage * 4096 + sectorBase e.sector % 4096 / 192 * 192

/-- Write one revoked sector to the frame that its page maps to now; `none` where it is refused (R277). -/
def writeRevoked (s : State) (core : Nat) (score : Bool) (e : L1Sector) : State × Bool :=
  match translate s core e.asid (e.vpage * 4096) with
  | (s, .page a pa) =>
    if a.w && decide (a.type ≠ 1) && decide (a.type ≠ 4) then
      let sec := pa / 4096 * 86 + e.sector % 86
      let words := ((e.dirtyBytes.map fun (o, _) => o / 4).dedup)
      let bounds : Option (KMap B16) := if a.bound then
          some (match e.side with
            | some sb => e.dirtyBounds sb
            | none => words.map fun w => (w, scoreB score b16Unbounded))
        else none
      let s := hubWrite s core { e.backWrite with sector := sec, bounds := bounds, dur := decide (a.type = 2), shr := decide (a.type = 3) }
      (l1Drop s core e, true)
    else (s, false)
  | (s, .absent) | (s, .migrating _) | (s, .malformed) => (s, false)

/-- Write back the dirty sectors of a core that a release covers; the revoked ones that are refused. -/
def writeBackFor (s : State) (core : Nat) (score : Bool) (p : L1Sector → Bool) : State × List L1Sector :=
  ((s.core core).l1.filter fun e => p e && decide (e.dirty ≠ 0)).foldl (fun (acc : State × List L1Sector) e =>
    if e.revoked then
      let (s, ok) := writeRevoked acc.1 core score e
      (s, if ok then acc.2 else acc.2 ++ [e])
    else (l1WriteBack acc.1 core e.sector, acc.2)) (s, [])

/-- The devices to which writes are unacknowledged (R338). -/
def peersOwed (s : State) : List Nat := (s.dev.peerOut.map (·.dest)).dedup

/-- The hub sends a destination a round of flush markers (R338): on every path that carried a write to it since the last round, and on
every path of the spray set. -/
def sendMarkers (s : State) (dest : Nat) : State :=
  let carried := (s.dev.peerOut.filter fun w => decide (w.dest = dest) && w.mark.isNone).filterMap (·.path)
  { s with
    nextId := s.nextId + 1
    dev := { s.dev with
      marks := s.dev.marks ++ [{ id := s.nextId, dest := dest, paths := (carried ++ upTo s dest).dedup }]
      peerOut := s.dev.peerOut.map fun w => if w.dest = dest ∧ w.mark = none then { w with mark := some s.nextId } else w } }

/-- The markers of a release: one round to each device that has unacknowledged writes. Answers their numbers. -/
def markPeers (s : State) : State × List Nat := (peersOwed s).foldl (fun acc d => (sendMarkers acc.1 d, acc.2 ++ [acc.1.nextId])) (s, [])

/-- Some of the marker rounds are not acknowledged. -/
def marksOwed (s : State) (l : List Nat) : Bool := l.any fun q => s.dev.marks.any fun m => decide (m.id = q)

/-- What carrying out a release came to. -/
inductive Released where
  | waiting (s : State)
  | refused (s : State) (secs : List L1Sector)
  | sent (s : State) (markers : List Nat)

/-- The drains, the wait for the group's accesses, the write-back, the wait for its IO writes at .sys, and the markers of a release (R328,
R338, R340). -/
def releaseWork (s : State) (gid : Nat) (scope : Scope) (upto : Nat) : Released :=
  match s.group? gid with
  | none => .sent s []
  | some g =>
    let k := s.kernel g.kernel
    if !g.doneBefore upto then .waiting s
    else
      let s := if 1 ≤ scopeCode scope then drainWhere s gid fun _ => true else s
      let (s, bad) := if scopeCrosses k scope then writeBackFor s g.core k.score fun e => decide (e.asid = k.asid) else (s, [])
      if !bad.isEmpty then .refused s bad
      else if scope = .sys && g.ioOut && !Config.ioDone s.serial then .waiting s
      else
        let s := releasedBy (if scope = .sys then s.modGroup gid fun g => { g with ioOut := false } else s) g.core gid
        let (s, marks) := if 3 ≤ scopeCode scope then markPeers s else (s, [])
        .sent s marks

/-- The drains, waits and write-back of `PBAR` (R342): `markers` are the durable writes still to be accepted: those that this step wrote back,
and the group's own, but for those of an engine command whose step is open. Under cum it waits as well for those that had performed
with respect to the group: it has read them, or is ordered after them (R343, log 45). -/
def pbarWork (s : State) (gid : Nat) (cum : Bool) (upto : Nat) : Released :=
  match s.group? gid with
  | none => .sent s []
  | some g =>
    let k := s.kernel g.kernel
    if !g.doneBefore upto then .waiting s
    else
      let before := s.durWait.map (·.seq)
      let s := drainWhere s gid fun e => e.dur
      let (s, bad) := writeBackFor s g.core k.score fun e => decide (e.asid = k.asid) && e.dur
      if !bad.isEmpty then .refused s bad
      else .sent s ((s.durWait.filter fun w =>
        (w.owners.contains gid && !w.engine) || !before.contains w.seq || (cum && w.seen.contains gid)).map (·.seq))

/-! ### Write-back faults (R277) -/

/-- The kind 3 entry of refused sectors. -/
def refusedFault (secs : List L1Sector) (pc : W64) (opcode : BitVec 8) : FaultInfo :=
  let vas := secs.map (·.lineVa)
  { kind := 3, loVa := vas.foldl min (vas.headD 0), hiVa := vas.foldl max 0, pc := pc.toNat, lanes := 0, opcode := opcode.toNat, write := true, rt := 0 }

/-- A release of the group meets refused sectors: the entry, and the group parks. -/
def faultRelease (s : State) (gid : Nat) (secs : List L1Sector) : State :=
  match s.group? gid with
  | none => s
  | some g => match g.release with
    | none => s
    | some r =>
      let s := s.setGroup gid { g with
        release := some { r with faulted := true }
        hold := (match g.run, g.hold with
          | some _, none => some .stopped
          | _, h => h) }
      raiseEntry s gid (refusedFault secs r.pc r.opcode)

/-- Refused sectors are discarded and counted (R277). -/
def discardRefused (s : State) (gid : Nat) (pc : Nat) : State × Nat :=
  match s.group? gid with
  | none => (s, 0)
  | some g =>
    let k := s.kernel g.kernel
    let core := s.core g.core
    let bad (e : L1Sector) : Bool := decide (e.asid = k.asid) && e.revoked && decide (e.dirty ≠ 0)
    let n := (core.l1.filter bad).length
    let s := s.setCore g.core { core with l1 := core.l1.filter fun e => !bad e }
    ((errorRecord s k.part { groupRec s g 0x09 0x05 pc with d0 := n }).1, n)

/-- Trap 0x05 of refused sectors: cause 5, word 6 their count. -/
def trapRefused (n : Nat) (pc : W64) (async : Bool) : TrapInfo :=
  { trapOf 0x05 [5, 0, 0, if async then pc else 0, BitVec.ofNat 64 n] with async := async }

/-! ### Starting and completing a release -/

/-- A release begins: it drains the group's buffered reductions, `PBAR` those to DUR pages (R297, R328, R342). -/
def startRelease (s : State) (gid : Nat) (scope : Scope) (next : ReleaseThen) (pc : W64) (opcode : Nat) : State :=
  let s := match next with
    | .pbar _ => drainWhere s gid fun e => e.dur
    | .fence _ | .arrive _ _ _ _ | .groupEnd => if 1 ≤ scopeCode scope then drainWhere s gid fun _ => true else s
  s.modGroup gid fun g => { g with
    stepSeq := g.stepSeq + 1
    release := some { scope := scope, upto := g.stepSeq, markers := [], next := next, pc := pc, opcode := BitVec.ofNat 8 opcode, sent := false, faulted := false } }

/-- `FENCE` (R326–R330). -/
def execFence (kind : BitVec 2) (scope : Scope) (s : State) : Host.Outcome State Fault Refusal :=
  issue (.fence kind scope) s {} fun c =>
    let acq := kind ≠ 1
    if kind ≠ 0 && c.g.release.isSome then .stay s false
    else if (kind = 0 || kind = 2) && !c.g.loadsDone then .stay s false
    else
      let s := if acq && kind ≠ 3 then acquire s c.gid scope else s
      if kind = 0 then .done s
      else
        let s := startRelease s c.gid scope (.fence (kind = 3)) c.run.pc c.opcode
        if kind = 3 then .held s .release else .done s

/-- `PBAR` (R342, R343). -/
def execPbar (cum : Bool) (s : State) : Host.Outcome State Fault Refusal :=
  issue (.pbar cum) s {} fun c =>
    if c.g.release.isSome then .stay s false
    else .held (startRelease s c.gid .sys (.pbar cum) c.run.pc c.opcode) .release

/-- The persist buffer's 32 MB in entries of one sector with its sideband (R341). -/
def persistCapacity : Nat := persistBytes / 64

/-- `PERSIST_BUFFER_ACCEPTANCE`: the oldest write on its way enters the persist buffer while there is room (R341, R342). -/
def execPersistBufferAcceptance (s : State) : Host.Outcome State Fault Refusal :=
  .next (tick (match s.durWait with
    | w :: rest =>
      if persistCapacity ≤ s.pbuf.length then s
      else
        let s := { s with durWait := rest, pbuf := s.pbuf ++ [w] }
        (match w.owners with
        | gid :: _ => (match s.group? gid with
          | some g => pmcPart s (s.kernel g.kernel).part (s.vfOf (s.kernel g.kernel).asid) 19 1
          | none => s)
        | [] => s)
    | [] => s))

/-- Merge one accepted write into what its pool device stores (R344, R345). -/
def drainWrite (s : State) (w : DurWrite) : State :=
  { s with
    pool := Memory.writePairs s.pool (sectorBase w.sector) w.bytes
    poolSide := (match w.side with
      | some sb => setSide s.poolSide w.sector sb
      | none => s.poolSide) }

/-- `PERSIST_BUFFER_DRAIN`: the oldest accepted write goes to its pool (R341). -/
def execPersistBufferDrain (s : State) : Host.Outcome State Fault Refusal :=
  .next (tick (match s.pbuf with
    | w :: rest => drainWrite { s with pbuf := rest } w
    | [] => s))

/-- The markers of a round have arrived: the links that carry them are up, and every write ahead of them has found a path (R338, R339). -/
def markersThere (s : State) (m : MarkRound) : Bool :=
  !m.paths.isEmpty && m.paths.all (fun p => (upTo s m.dest).contains p) &&
    s.dev.peerOut.all fun w => decide (w.dest ≠ m.dest) || w.path.isSome || (match w.mark with
      | some r => decide (m.id < r)
      | none => true)

/-- `MARKER_ACKNOWLEDGEMENT`: a destination acknowledges its oldest round of markers: every write to it that went before them has performed
(R338). -/
def execMarkerAcknowledgement (dest : Nat) (s : State) : Host.Outcome State Fault Refusal :=
  .next (tick (match s.dev.marks.find? fun m => decide (m.dest = dest) with
    | none => s
    | some m =>
      if !markersThere s m then s
      else
        { s with dev := { s.dev with
          marks := s.dev.marks.filter fun x => decide (x.id ≠ m.id)
          peerOut := s.dev.peerOut.filter fun w => decide (w.dest ≠ dest) || (match w.mark with
            | some r => decide (m.id < r)
            | none => true) } }))

end Sys2Proof.Machine
end

