-- ==== Sys2Proof/Machine/StreamDecode.lean ====
section
/-! DEFINITION. Stream decodes and code tables (R197–R211). -/

namespace Sys2Proof.Machine

/-! ### Streams and tables -/

/-- Byte p of a tile's stream (R197). -/
def Tile.byte (t : Tile) (p : Nat) : Nat := t.word (p / 4) / 2 ^ (8 * (p % 4)) % 256
/-- Bit position p: the most significant bit of a byte first. -/
def Tile.bitAt (t : Tile) (p : Nat) : Nat := t.byte (p / 8) / 2 ^ (7 - p % 8) % 2
/-- A little-endian 16-bit field. -/
def Tile.half (t : Tile) (p : Nat) : Nat := t.byte p + 256 * t.byte (p + 1)
/-- Write bytes from the tile's first data byte up. -/
def Tile.setByte (t : Tile) (p v : Nat) : Tile :=
  let w := t.word (p / 4)
  t.setWord (p / 4) (w - w / 2 ^ (8 * (p % 4)) % 256 * 2 ^ (8 * (p % 4)) + v % 256 * 2 ^ (8 * (p % 4)))

/-- Bytes written from the tile's start, every word of them exact in a bounded tile (R202, R393). -/
def Tile.writeBytes (t : Tile) (bs : List Byte) : Tile :=
  let u := (List.range bs.length).foldl (fun u i => u.setByte i (bs.getD i 0).toNat) t
  let u := { u with poison := u.poison.filter fun k => !decide (4 * k + 4 ≤ bs.length) }
  if tileBounded t.desc then
    let words := (bs.length + 3) / 4
    let dw := max 1 (tileDw t.desc)
    (List.range words).foldl (fun u k =>
      let row := k / dw
      let col := k % dw
      let key := row * tileSecs t.desc + col / 12
      { u with side := setSide u.side key (sideMerge (min 12 (dw - 12 * (col / 12))) (u.sideband key) [(col % 12, b16Exact)]) }) u
  else u

/-- The magic of a code table (R200). -/
def tableMagic : Nat := 0xC7AB

/-- What a decode produced (R203–R205): elements with their bounds, the position after the last code or token used, and
the conditions. -/
structure Decoded where
  elems : List (Nat × B16)
  pos : Nat
  badcode : Bool
  cut : Bool

/-- One code of a Huffman stream, bit by bit: the symbol's index and the position after it, or the position of its start
and whether its bits are no code (R203). -/
def huffCode (tab str : Tile) (b1 start : Nat) : Nat → Nat → Nat → Nat → Except (Nat × Bool) (Nat × Nat)
  | 0, _, _, _ => .error (start, true)
  | fuel + 1, pos, code, len =>
    if pos = b1 then .error (start, false)
    else
      let code := code * 2 + str.bitAt pos
      let len := len + 1
      let first := tab.half (8 + 4 * (len - 1))
      let index := tab.half (8 + 4 * (len - 1) + 2)
      let count := tab.half (0x48 + 2 * (len - 1))
      if first ≤ code ∧ code - first < count then .ok (index + code - first, pos + 1)
      else if len = tab.byte 6 then .error (start, true)
      else huffCode tab str b1 start fuel (pos + 1) code len

/-- A Huffman decode of up to n more elements (R203). -/
def huffman (tab str : Tile) (w b1 : Nat) : Nat → Nat → List (Nat × B16) → Decoded
  | 0, pos, acc => { elems := acc.reverse, pos := pos, badcode := false, cut := false }
  | n + 1, pos, acc =>
    match huffCode tab str b1 pos 17 pos 0 0 with
    | .ok (sym, pos) => huffman tab str w b1 n pos ((tab.half (0x80 + 2 * sym) % 2 ^ w, BitVec.ofNat 16 (tab.half 4)) :: acc)
    | .error (p, bad) => { elems := acc.reverse, pos := p, badcode := bad, cut := false }

/-- Element i of a literal run that starts at byte p (R204). -/
def literal (str : Tile) (w p i : Nat) : Nat :=
  if w = 6 then
    let q := p + 4 * (i / 5)
    (str.byte q + 256 * str.byte (q + 1) + 65536 * str.byte (q + 2) + 16777216 * str.byte (q + 3)) / 2 ^ (6 * (i % 5)) % 64
  else
    let lo := i * w
    (str.byte (p + lo / 8) + 256 * str.byte (p + lo / 8 + 1)) / 2 ^ (lo % 8) % 2 ^ w

/-- A zero-run decode (R204): `acc` is newest first, `n` elements are still wanted. -/
def zeroRun (str : Tile) (w b1 : Nat) (lit : B16) : Nat → Nat → Nat → List (Nat × B16) → Decoded
  | 0, _, pos, acc => { elems := acc.reverse, pos := pos, badcode := false, cut := false }
  | fuel + 1, n, pos, acc =>
    if n = 0 then { elems := acc.reverse, pos := pos, badcode := false, cut := false }
    else if b1 < pos + 8 then { elems := acc.reverse, pos := pos, badcode := false, cut := false }
    else
      let c := str.byte (pos / 8)
      let k := c % 128 + 1
      if c < 128 then
        let run := (List.range (min k n)).map fun _ => (0, b16Exact)
        if n < k then { elems := (run.reverse ++ acc).reverse, pos := pos + 8, badcode := false, cut := true }
        else zeroRun str w b1 lit fuel (n - k) (pos + 8) (run.reverse ++ acc)
      else
        let len := if w = 6 then 4 * ((k + 4) / 5) else (k * w + 7) / 8
        let next := pos + 8 + 8 * len
        if b1 < next then { elems := acc.reverse, pos := pos, badcode := false, cut := false }
        else
          let run := (List.range (min k n)).map fun i => (literal str w (pos / 8 + 1) i, lit)
          if n < k then { elems := (run.reverse ++ acc).reverse, pos := next, badcode := false, cut := true }
          else zeroRun str w b1 lit fuel (n - k) next (run.reverse ++ acc)

/-- The fields of a decode descriptor (R198). -/
def decLen (d : W64) : Nat := bits d 59 48
def decEnd (d : W64) : Nat := bits d 47 24
def decStart (d : W64) : Nat := bits d 23 0

/-- Run a decode: kind 1 `DECH`, 2 `DECHT`, 3 `DECZ`; w is the element width. -/
def runDecode (kind : Nat) (desc desc2 : W64) (w : Nat) (str tab : Tile) : Decoded :=
  if kind = 3 then zeroRun str w (decEnd desc) (BitVec.ofNat 16 (bits desc2 47 32)) (decLen desc + 1) (decLen desc) (decStart desc) []
  else huffman tab str w (decEnd desc) (decLen desc) (decStart desc) []

/-- The short-stream condition (R205). -/
def Decoded.short (r : Decoded) (len : Nat) : Bool := decide (r.elems.length < len)
/-- The long-stream condition (R205). -/
def Decoded.long (r : Decoded) (kind : Nat) (len b1 : Nat) : Bool :=
  !r.short len && (if kind = 3 then r.cut || decide (r.pos + 8 ≤ b1) else decide ((r.pos + 7) / 8 * 8 < b1))
/-- The status word (R210). -/
def Decoded.status (r : Decoded) (kind len b1 : Nat) : W64 :=
  BitVec.ofNat 64 (r.pos + r.elems.length * 2 ^ 24 + (if r.short len then 2 ^ 36 else 0) + (if r.long kind len b1 then 2 ^ 37 else 0) +
    kind * 2 ^ 38 + (if r.badcode then 2 ^ 40 else 0))
/-- Element e as written: zeros, unbounded, beyond what was produced (R205, R206). -/
def Decoded.elem (r : Decoded) (e : Nat) : Nat × B16 := r.elems.getD e (0, b16Unbounded)

/-! ### Checks at issue (R199) -/

/-- Trap 0x09 (R427). -/
def trapDecode (cause : Nat) (status : W64) : TrapInfo := trapOf 0x09 [BitVec.ofNat 64 cause, status]

/-- The descriptor checks of R199 step 4, in order: the cause of the first that fails. -/
def decodeCause (kind : Nat) (desc desc2 : W64) (str : Tile) (tab : Option Tile) (rangeOk : Bool) : Option Nat :=
  let len := decLen desc
  if bits desc 63 60 ≠ 0 ∨ bits desc2 63 48 ≠ 0 ∨ bits desc2 15 13 ≠ 0 ∨ bits desc2 7 5 ≠ 0 then some 0
  else if len = 0 ∨ 2048 < len then some 1
  else if decEnd desc < decStart desc then some 2
  else if 8 * tileBytes str.desc < decEnd desc then some 3
  else if kind = 3 ∧ decStart desc % 8 ≠ 0 then some 4
  else if kind = 2 ∧ 5 ≤ bits desc2 10 8 then some 5
  else if !rangeOk then some 6
  else match tab with
    | some t => if t.half 0 = tableMagic then none else some 7
    | none => none

/-- The table tile of a decode, `none` for `DECZ`. -/
def tableOf (s : State) (team kind : Nat) (desc2 : W64) : Option (Option Tile) :=
  if kind = 3 then none else some (s.tile team ⟨bits desc2 4 0 % 32, Nat.mod_lt _ (by decide)⟩)

/-- The next access, command or step of the group takes a new number. -/
def countStep (s : State) (gid : Nat) : State := s.modGroup gid fun g => { g with stepSeq := g.stepSeq + 1 }

/-- A decode into registers (R199, R206, R207): its job waits for the decode unit and its run is held. -/
def decodeOp (i : Instr) (kind : BitVec 2) (d : VFirst) (a : UReg) (h : TileNo) (s : State) : Host.Outcome State Fault Refusal :=
  issue i s { u := [a, uregNext a] } fun c =>
    match c.ty with
    | none => c.badMode
    | some t =>
      if !packTy t then c.badMode
      else
        let desc := (c.view.uni a).1
        let desc2 := (c.view.uni (uregNext a)).1
        let tab := tableOf s c.g.team kind.toNat desc2
        match s.tile c.g.team h, tab with
        | none, _ => .trap (trapTile 0 c.lanes 0)
        | some _, some none => .trap (trapTile 0 c.lanes 0)
        | some str, _ =>
          let regs := (decLen desc + c.k.width * t.n - 1) / (c.k.width * t.n)
          match decodeCause kind.toNat desc desc2 str (tab.bind id) (c.rangeHolds d regs) with
          | some x => .trap (trapDecode x (BitVec.ofNat 64 (kind.toNat * 2 ^ 38)))
          | none =>
            if c.rangeBusy d regs then .stay s false
            else
              let core := s.core c.core
              let j : DecodeJob := { gid := c.gid, kind := kind, d := d.val, desc := desc, desc2 := desc2, stream := h, mode := c.mode
                                     slices := c.run.slices, table := none, card := false, seq := c.g.stepSeq, old := str.words }
              .held (countStep (s.setCore c.core { core with decodeQ := core.decodeQ ++ [j] }) c.gid) .decode

/-- `DECH`. -/
def execDech (d : VFirst) (a : UReg) (t : TileNo) (s : State) : Host.Outcome State Fault Refusal := decodeOp (.dech d a t) 1 d a t s
/-- `DECZ`. -/
def execDecz (d : VFirst) (a : UReg) (t : TileNo) (s : State) : Host.Outcome State Fault Refusal := decodeOp (.decz d a t) 3 d a t s

/-- The most incomplete commands of a group on cp (R348). -/
def cpLimit : Nat := 8

/-- `DECHT`: a command of the copy engine, counted on cp (R208). -/
def execDecht (d : TileNo) (a : UReg) (t : TileNo) (s : State) : Host.Outcome State Fault Refusal :=
  issue (.decht d a t) s { u := [a, uregNext a] } fun c =>
    let desc := (c.view.uni a).1
    let desc2 := (c.view.uni (uregNext a)).1
    if cpLimit ≤ c.g.copies.length || c.writeStalls then .stay s true
    else match s.tile c.g.team t, tableOf s c.g.team 2 desc2, s.tile c.g.team d with
    | some str, some (some tab), some dst =>
      let w := (tileTy dst.desc).w
      let cols := tileCols dst.desc
      if w ≠ 4 ∧ w ≠ 8 ∧ w ≠ 16 then .trap (trapTile 3 c.lanes 0)
      else if tileRows dst.desc < bits desc2 31 16 + (decLen desc + cols - 1) / max 1 cols then
        .trap (trapTile 1 c.lanes (tileRows dst.desc * cols))
      else match decodeCause 2 desc desc2 str (some tab) true with
      | some x => .trap (trapDecode x (BitVec.ofNat 64 (2 * 2 ^ 38)))
      | none =>
        let core := s.core c.core
        let j : DecodeJob := { gid := c.gid, kind := 2, d := d.val, desc := desc, desc2 := desc2, stream := t, mode := c.mode
                               slices := c.run.slices, table := none, card := false, seq := c.g.stepSeq, old := str.words }
        let cmd : CopyCmd := { opcode := 0x77, words := [desc, desc2, 0], rnd := 0, sat := false, ftz := false, bnd := BitVec.ofNat 2 (modeBnd c.mode)
                               acqdone := false, done := 0, rowMask := 0, rowOffs := [], srcRec := [], dstRec := [], metaRec := []
                               destTile := d, srcTile := t, pc := c.run.pc, faulted := false, ended := false, released := false, marks := none, seq := c.g.stepSeq, part := [], endDetail := (0, 0) }
        let s := (s.setCore c.core { core with decodeQ := core.decodeQ ++ [j] }).modGroup c.gid fun g => { g with copies := g.copies ++ [cmd], stepSeq := g.stepSeq + 1 }
        if modeBnd c.mode = 2 then .held s .decode else .done s
    | _, _, _ => .trap (trapTile 0 c.lanes 0)

/-- `DECST` (R210). -/
def execDecst (d : UReg) (s : State) : Host.Outcome State Fault Refusal :=
  issue (.decst d) s { u := [d] } fun c =>
    .done (s.setGroup c.gid (c.put c.g 4 [.u d c.g.decStatus (scoreB c.k.score b16Exact)]))

/-! ### CTAB (R200–R202) -/

/-- The canonical codes of a description (R201): first and index per length, `none` where they do not fit. -/
def canonical (count : Nat → Nat) : Nat → Nat → Nat → Nat → List (Nat × Nat) → Option (List (Nat × Nat))
  | 0, _, _, _, acc => some acc.reverse
  | fuel + 1, l, c, i, acc =>
    if 2 ^ l < c + count l then none
    else canonical count fuel (l + 1) ((c + count l) * 2) (i + count l) ((c, i) :: acc)

/-- The first part of a description is valid (R201): S and the codes. -/
def tableHead (b : List Nat) : Option (Nat × List (Nat × Nat)) :=
  let h (i : Nat) : Nat := b.getD i 0 + 256 * b.getD (i + 1) 0
  let n := h 2
  let longest := b.getD 6 0
  let count (l : Nat) : Nat := h (8 + 2 * (l - 1))
  let lens := (List.range 16).map (· + 1)
  if h 0 = tableMagic ∧ b.getD 7 0 = 0 ∧ 1 ≤ n ∧ n ≤ 256 ∧ 1 ≤ longest ∧ longest ≤ 16 ∧ 1 ≤ count longest ∧
      (lens.all fun l => decide (l ≤ longest) || decide (count l = 0)) ∧ (lens.map count).foldl (· + ·) 0 = n then
    (canonical count 16 1 0 0 []).map fun l => (n, l)
  else none

/-- The first 640 bytes of a table tile (R202). -/
def tableBytes (b : List Nat) (n : Nat) (codes : List (Nat × Nat)) (vals : List Nat) : List Byte :=
  let half (v : Nat) : List Byte := [BitVec.ofNat 8 v, BitVec.ofNat 8 (v / 256)]
  (b.take 8).map (BitVec.ofNat 8) ++ codes.flatMap (fun p => half p.1 ++ half p.2) ++ (b.drop 8 |>.take 32).map (BitVec.ofNat 8) ++
    List.replicate 24 0 ++ ((List.range 256).flatMap fun i => if i < n then half (vals.getD (2 * i) 0 + 256 * vals.getD (2 * i + 1) 0) else half 0)

/-- What reading a description came to. -/
inductive TableRead where
  | table (b : List Byte)
  | trap (t : TrapInfo)
  | wait (a : Access) (cause : ParkCause) (faults : List Spot)
  | poison

/-- Read the bytes of one part as a load of the group. -/
def tablePart (s : State) (g : Group) (a : Access) : State × Except TableRead (List Nat) :=
  match a.check with
  | some t => (s, .error (.trap t))
  | none =>
    let (s, l) := locateAll s g.core g.kernel a a.spots
    match trapPages l with
    | some t => (s, .error (.trap t))
    | none =>
      if !(missing l).isEmpty then
        (s, .error (.wait a (match migratingOf l with
          | some v => .migration v
          | none => .fault) (absentSpots l)))
      else
        let vf := s.vfOf (s.kernel g.kernel).asid
        let (s, bs, bad) := l.foldl (fun (acc : State × List Nat × Bool) (p, f) =>
          let (s, bs, bad) := acc
          match f with
          | .at_ at_ pa =>
            let (s, e) := readSpot s g.core vf (noAlloc a false) b16Exact p at_ pa
            (s, bs ++ [e.bits], bad || e.poison)
          | .bad _ | .absent | .migrating _ => (s, bs, bad)) (s, [], false)
        let s := match l with
          | (p, .at_ at_ _) :: _ => sampleAccess s g.core (s.kernel g.kernel).part (s.kernel g.kernel).asid p.va 0 at_
          | _ => s
        (s, if bad then .error .poison else .ok bs)

/-- Both parts of a description (R202), each one load of the group (R281); the access's offset lanes give the length read. What waits for a
page of the second part waits as an access to both, which the replay reads again. -/
def readTable (s : State) (gid : Nat) (a : Access) : State × TableRead :=
  match s.group? gid, a.op with
  | some g, .ctab t base =>
    (match tablePart s g { a with offs := Vector.replicate 32 40 } with
    | (s, .error r) => (s, r)
    | (s, .ok b) => match tableHead b with
      | none => (s, .trap (trapDecode 10 0))
      | some (n, codes) =>
        match tablePart s g { a with op := .ctab t (base + 40), offs := Vector.replicate 32 (BitVec.ofNat 64 (2 * n)) } with
        | (s, .error (.wait _ cause l)) => (s, .wait { a with offs := Vector.replicate 32 (BitVec.ofNat 64 (40 + 2 * n)) } cause l)
        | (s, .error r) => (s, r)
        | (s, .ok v) => (s, .table (tableBytes b n codes v)))
  | _, _ => (s, .poison)

/-- A description read: its job waits for the decode unit, and the run is held. -/
def queueTable (s : State) (gid : Nat) (g : Group) (a : Access) (h : TileNo) (b : List Byte) : State :=
  let core := s.core g.core
  let j : DecodeJob := { gid := gid, kind := 0, d := h.val, desc := 0, desc2 := BitVec.ofNat 64 h.val, stream := h, mode := a.mode, slices := a.slices
                         table := some b, card := false, seq := a.seq, old := [] }
  s.setCore g.core { core with decodeQ := core.decodeQ ++ [j] }

/-- `CTAB` (R202). -/
def execCtab (t : TileNo) (a : UReg) (r : RecNo) (s : State) : Host.Outcome State Fault Refusal :=
  issue (.ctab t a r) s { u := [a] } fun c =>
    let off := (c.view.uni a).1
    match s.tile c.g.team t with
    | none => .trap (trapTile 0 c.lanes 0)
    | some x =>
      if tileBytes x.desc < 640 then .trap (trapTile 1 c.lanes 0)
      else
        let acc := c.access (.ctab t off) r.val c.lowest (Vector.replicate 32 40) [] (some r) none none
        match acc.check with
        | some e => .trap e
        | none =>
          if off.toNat % 8 ≠ 0 then .trap (trapAccess 0x04 1 (acc.spots.take 1))
          else if c.g.behindPark acc then .gone (parkGang (countStep s c.gid) c.gid acc .heldBehind none (some c.run) [])
          else
            let s := settleAtomics s c.gid (bytesOf (locateAll s c.core c.g.kernel acc acc.spots).2)
            match readTable s c.gid acc with
            | (_, .trap e) => .trap e
            | (s, .poison) => .gone (killPoison s c.gid)
            | (s, .wait a cause l) => .gone (parkGang (countStep s c.gid) c.gid a cause none (some c.run) l)
            | (s, .table b) => .held (queueTable (countStep s c.gid) c.gid c.g acc t b) .decode

/-! ### The decode unit (R205–R211) -/

/-- The stream tile as a decode reads it: each word that has changed since the decode was issued, as it was or as it is (R209). -/
def Tile.streamed (t : Tile) (old : KMap W32) (n : Nat) : Tile :=
  (((old ++ t.words).map (·.1)).dedup).foldl (fun u k =>
    let a := (KMap.get? old k).getD 0
    if a = (KMap.get? t.words k).getD 0 then u else if Config.newerVersion n k 0 then u else u.setWord k a.toNat) t

/-- A decode into registers completes (R205–R207), under the MODE that it was issued with (R96). -/
def finishDecode (s : State) (j : DecodeJob) : State :=
  match (heldGang s j.gid).map fun c => { c with mode := j.mode } with
  | none => s
  | some c =>
    match c.ty, (s.tile c.g.team j.stream).map fun t => t.streamed j.old s.serial with
    | some t, some str =>
      let kind := j.kind.toNat
      let len := decLen j.desc
      let tab := ((tableOf s c.g.team kind j.desc2).bind id).getD str
      let used := (List.range str.poison.length).any fun i => let k := str.poison.getD i 0
        decide (32 * k < decEnd j.desc) && decide (decStart j.desc < 32 * k + 32)
      if used || (kind ≠ 3 && tab.poison.any fun k => decide (k < 160)) then killPoison s j.gid
      else
        let r := runDecode kind j.desc j.desc2 t.w str tab
        let short := r.short len
        let long := r.long kind len (decEnd j.desc)
        let status := r.status kind len (decEnd j.desc)
        if (short || long) && decide (modeBnd c.mode = 2) then trapHeld s j.gid (trapDecode (if short then 8 else 9) status)
        else
          let lanes := lanesOf c.k.perSlice j.slices fun _ => c.k.fullMask
          let d : VFirst := ⟨j.d % 240, Nat.mod_lt _ (by decide)⟩
          let regs := (len + c.k.width * t.n - 1) / (c.k.width * t.n)
          let ws := (List.range regs).map fun i => scatterReg c.k.score c.k.width (c.view.line (rangeReg d i)) t d len i lanes fun e =>
            ((r.elem e).1, if c.untracked then .untr else Bnd.of (r.elem e).2)
          let out (l : Nat) : LaneOut :=
            { LaneOut.none with
              bnd := ws.foldl (fun b w => match w with
                | .v _ line m => if bit m l then maxB16 b (line.bnd.toList.getD l 0) else b
                | .u _ _ _ | .p _ _ _ => b) b16Exact
              flags := flagIf short flShort ||| flagIf long flLong }
          match c.judge s true (lanes &&& maskOf 32 fun l => decide (l < c.k.width)) out with
          | .error e => trapHeld s j.gid e
          | .ok (fl, card) =>
            let g := (overtakeAll c.g s.serial c.run.id ws).landAll c.k.score c.run.id ws
            let s := s.setGroup j.gid { g.stick fl with decStatus := status }
            let s := match card with
              | some k => writeCard s j.gid k.words
              | none => s
            goOn s j.gid
    | _, _ => s

/-- The unit finishes the decode or table load at the head of its queue (R211). -/
def decodeHead (core : Nat) (s : State) : State :=
  let c := s.core core
  match c.decodeQ with
  | j :: rest =>
    if j.kind = 2 then s
    else
      let s := s.setCore core { c with decodeQ := rest }
      match j.table with
      | some b => underLate s j.gid j.seq fun s =>
        (match s.group? j.gid with
        | some g => (match s.tile g.team j.stream with
          | some x => goOn (s.setTile g.team j.stream (x.writeBytes b)) j.gid
          | none => goOn s j.gid)
        | none => s)
      | none => underLate s j.gid j.seq fun s => finishDecode s j
  | [] => s

/-- `DECODE_UNIT_COMPLETE`. -/
def execDecodeUnitComplete (core : Nat) (s : State) : Host.Outcome State Fault Refusal := .next (tick (decodeHead core s))

end Sys2Proof.Machine
end

