-- ==== Sys2Proof/Machine/Sync.lean ====
section
/-! DEFINITION. Barriers, counter waits, monitored waits and matrix batches (R302–R319). -/

namespace Sys2Proof.Machine

/-! ### Barriers (R307–R310) -/

/-- A group's relation to a barrier. -/
def Group.bar (g : Group) (i : Nat) : BarPend := (KMap.get? g.bars i).getD { token := 0, pending := false, completed := none }
def Group.setBar (g : Group) (i : Nat) (p : BarPend) : Group := { g with bars := KMap.set g.bars i p }

/-- The owner of a barrier that a group uses. -/
def barOwner (s : State) (g : Group) (grid : Bool) : Nat := if grid then (s.kernel g.kernel).asid else g.team

/-- A barrier's scope (R311). -/
def barScope (grid : Bool) : Scope := if grid then .dev else .team

/-- record_completion (R311, R312). -/
def recordCompletion (g : Group) (score : Bool) (i : Nat) (pred : PReg) (lanes : BitVec 32) (abandoned : Bool) (k : Nat) : Group :=
  let g := g.land score g.runId (.p pred (if abandoned then 0 else BitVec.allOnes 32) lanes)
  if abandoned then
    { g with barst := BitVec.ofNat 32 (1 + i % 16 * 2 ^ 8 + (if 16 ≤ i then 2 ^ 13 else 0) + k % 2 ^ 16 * 2 ^ 16) }
  else g

/-- A group parked at a barrier whose phase has completed leaves it: the acquire, the record, and on (R311). -/
def barrierLeave (s : State) (gid : Nat) : State :=
  match s.group? gid with
  | none => s
  | some g => match g.hold, g.run with
    | some (.barrier i pred), some r =>
      let p := g.bar i
      (match p.completed with
      | some (ab, k) =>
        if g.seated && g.release.isNone then
          let s := acquire (flushAtomics s gid) gid (barScope (16 ≤ i))
          let kn := s.kernel g.kernel
          let s := s.modGroup gid fun g =>
            recordCompletion (g.setBar i { p with pending := false, completed := none }) kn.score i pred (g.actLanes kn r.slices) ab k
          goOn s gid
        else s
      | none => s)
    | _, _ => s

/-- Drain every entry of some groups, in the order given (R297). -/
def drainGroups (s : State) (l : List Nat) : State := l.foldl (fun s i => drainWhere s i fun _ => true) s

/-- The order in which a completion drains: by core, team number, then group number (R297). -/
def drainOrder (s : State) (l : List (Nat × Group)) : List Nat :=
  (l.mergeSort fun a b =>
    let key (x : Nat × Group) : Nat := ((s.team x.2.team).core * 2 ^ 32 + s.teamNumber x.2) * 2 ^ 32 + x.2.number
    decide (key a ≤ key b)).map (·.1)

/-- `BARRIER_PHASE_COMPLETE` (R309, R297, R311): the oldest phase that has completed drains, and then lets its waiters go; an idle context of
theirs is runnable again (R319). -/
def execBarrierPhaseComplete (grid : Bool) (owner : Nat) (num : Fin 16) (s : State) : Host.Outcome State Fault Refusal :=
  .next (tick (
    let b := barrierOf s grid owner num.val
    match b.due with
    | [] => s
    | d :: rest =>
      let i := barIndex grid num.val
      let s := drainGroups s (drainOrder s (groupsOf s (memberTeams s grid owner num.val)))
      let s := setBarrier s grid owner num.val { b with due := rest }
      let mark (s : State) (gid : Nat) : State := match s.group? gid with
        | some g => if g.live then wakeContext (s.setGroup gid (g.setBar i { g.bar i with completed := some (decide (0 < d.killed), d.killed) })) (s.kernel g.kernel).asid else s
        | none => s
      let s := d.who.foldl mark s
      d.who.foldl barrierLeave s))

/-! ### Barrier instructions (R311) -/

/-- Trap 0x0D (R427). -/
def trapBarrier (cause num : Nat) (grid : Bool) : TrapInfo :=
  trapOf 0x0D [BitVec.ofNat 64 (cause + num * 2 ^ 8 + (if grid then 2 ^ 13 else 0))]

/-- The checks that every barrier instruction makes (R311, R431). -/
def Gang.barCheck (c : Gang) (s : State) (grid : Bool) (num : Nat) (counted : Bool) : Option TrapInfo :=
  if c.g.inHandler || c.lacksSlice then some (trapBarrier 0 num grid)
  else if grid && (decide (7 < num) || !bit (gridMask c.k num) (s.team c.g.team).cls) then some (trapBarrier 1 num grid)
  else if grid && counted then some (trapBarrier 2 num grid)
  else none

/-- Arrive: the checks of `BAR` and `BARA`, then the release; the arrival follows it (R311). `pred` waits. -/
def Gang.arrive (c : Gang) (s : State) (grid : Bool) (cnt : Option Nat) (num : Nat) (wait : Option PReg) : Result :=
  let i := barIndex grid num
  let b := barrierOf s grid (barOwner s c.g grid) num
  match c.barCheck s grid num cnt.isSome with
  | some t => .trap t
  | none =>
    if (c.g.bar i).pending then .trap (trapBarrier 3 num grid)
    else if (match cnt with
      | some n => decide (n = 0) || decide (c.k.teamGroups < n)
      | none => false) then .trap (trapBarrier 2 num grid)
    else if (match b.mode with
      | some m => decide (m ≠ cnt)
      | none => false) then .trap (trapBarrier 4 num grid)
    else if c.g.release.isSome then .stay s false
    else .held (startRelease s c.gid (barScope grid) (.arrive i cnt wait wait.isSome) c.run.pc c.opcode) .release

/-- The count operand of `BAR` and `BARA` (R302). -/
def Gang.barCount (c : Gang) (cnt : Option UReg) : Option Nat := cnt.map fun r => (c.view.uni r).1.toNat
def cntUses (cnt : Option UReg) : List UReg := match cnt with
  | some r => [r]
  | none => []

/-- The arrival itself, its release having performed (R309, R311). -/
def arriveNow (s : State) (gid i : Nat) (cnt : Option Nat) : State :=
  match s.group? gid with
  | none => s
  | some g =>
    let grid := decide (16 ≤ i)
    let owner := barOwner s g grid
    let b := barrierOf s grid owner (i % 16)
    let s := setBarrier s grid owner (i % 16) { b with arrived := b.arrived ++ [gid], mode := some (b.mode.getD cnt) }
    settleBarrier (s.setGroup gid (g.setBar i { token := b.phase, pending := true, completed := none })) grid owner (i % 16)

/-- Wait for a barrier: for the phase of a pending arrival, else for the next completion (R311). -/
def Gang.barWait (c : Gang) (s : State) (grid : Bool) (num : Nat) (pred : PReg) : Result :=
  match c.barCheck s grid num false with
  | some t => .trap t
  | none =>
    let i := barIndex grid num
    let p := c.g.bar i
    if c.g.release.isSome then .stay s false
    else if p.pending then
      let s := s.modGroup c.gid fun g => { g with hold := some (.barrier i pred), parkedSince := some s.clock }
      if p.completed.isSome then .gone (barrierLeave s c.gid) else .held s (.barrier i pred)
    else
      let owner := barOwner s c.g grid
      let b := barrierOf s grid owner num
      let s := setBarrier s grid owner num { b with watchers := b.watchers ++ [c.gid] }
      .held (s.modGroup c.gid fun g => { g.setBar i { token := b.phase, pending := false, completed := none } with parkedSince := some s.clock }) (.barrier i pred)

/-- `BAR`. -/
def execBar (p : PReg) (grid : Bool) (cnt : Option UReg) (num : Fin 16) (s : State) : Host.Outcome State Fault Refusal :=
  issue (.bar p grid cnt num) s { u := cntUses cnt, p := [p] } fun c => c.arrive s grid (c.barCount cnt) num.val (some p)

/-- `BARA`. -/
def execBara (grid : Bool) (cnt : Option UReg) (num : Fin 16) (s : State) : Host.Outcome State Fault Refusal :=
  issue (.bara grid cnt num) s { u := cntUses cnt } fun c => c.arrive s grid (c.barCount cnt) num.val none

/-- `BARW`. -/
def execBarw (p : PReg) (grid : Bool) (num : Fin 16) (s : State) : Host.Outcome State Fault Refusal :=
  issue (.barw p grid num) s { p := [p] } fun c => c.barWait s grid num.val p

/-- `BART`. -/
def execBart (p : PReg) (grid : Bool) (num : Fin 16) (s : State) : Host.Outcome State Fault Refusal :=
  issue (.bart p grid num) s { p := [p] } fun c =>
    match c.barCheck s grid num.val false with
    | some t => .trap t
    | none =>
      let i := barIndex grid num.val
      let b := c.g.bar i
      if !b.pending then .trap (trapBarrier 5 num.val grid)
      else match b.completed with
      | some (ab, k) =>
        if !c.g.loadsDone then .stay s false
        else
          let s := acquire s c.gid (barScope grid)
          .done (s.setGroup c.gid (recordCompletion (c.g.setBar i { b with pending := false, completed := none }) c.k.score i p c.all ab k))
      | none => .done (s.setGroup c.gid (c.put c.g 4 [.p p 0 c.all]))

/-! ### Counters and batches (R304–R306) -/

/-- A counter's value (R304). -/
def Group.counter (g : Group) : Nat → Nat
  | 0 => g.ld.length
  | 1 => g.st.length
  | 2 => g.copies.length
  | _ => g.mx.length

/-- `WAIT` (R305). -/
def execWait (ld st cp mx : BitVec 6) (s : State) : Host.Outcome State Fault Refusal :=
  issue (.wait ld st cp mx) s {} fun c =>
    let over_ (n : Nat) (t : BitVec 6) : Bool := decide (t ≠ 63) && decide (t.toNat < c.g.counter n)
    if over_ 0 ld || over_ 1 st || over_ 2 cp || over_ 3 mx then .stay s false else .done s

/-- `WAITR` (R305). -/
def execWaitr (counter : BitVec 2) (a : UReg) (s : State) : Host.Outcome State Fault Refusal :=
  issue (.waitr counter a) s { u := [a] } fun c =>
    let t := min (c.view.uni a).1.toNat 63
    if t ≠ 63 ∧ t < c.g.counter counter.toNat then .stay s false else .done s

/-- `MBATCH` (R306). -/
def execMbatch (d : Option UReg) (s : State) : Host.Outcome State Fault Refusal :=
  issue (.mbatch d) s { u := cntUses d } fun c =>
    if 62 ≤ c.g.mx.length then .stay s true
    else
      let g := closeBatch c.g
      .done (s.setGroup c.gid (match d with
        | some r => c.put g 4 [.u r (BitVec.ofNat 64 g.batchNo.toNat) (scoreB c.k.score b16Exact)]
        | none => g))

/-! ### Monitored waits (R315–R318) -/

/-- The monitors of a core's table that are armed (R317). -/
def armedOn (s : State) (core : Nat) : Nat :=
  (s.groups.filter fun (_, g) => decide (g.core = core) && g.live && (match g.waita with
    | some w => w.armed
    | none => false)).length

/-- Read a waited-for word at its point of coherence: value, bound, poisoned (R317, R292). -/
def readWait (s : State) (gid : Nat) (g : Group) (w : WaitA) : State × Nat × B16 × Bool :=
  let a := w.page.getD noAttr
  match w.target with
  | .mem _ pa =>
    let s := toHome (settleAtomics s gid [(pa, w.width)]) g.core a pa
    let (v, b) := homeValue s a pa w.width w.declared
    (if a.type = 2 then sawSectors s g.core gid [sectorOf pa] else s, v, b, s.poison.contains (sectorOf pa))
  | .tile h word =>
    let s := settleTile s gid h
    match s.tile g.team h with
    | none => (s, 0, b16Exact, false)
    | some x =>
      let dw := max 1 (tileDw x.desc)
      let v := if w.width = 8 then x.word word + 2 ^ 32 * x.word (word + 1) else x.word word
      let at_ (k : Nat) : B16 := if tileBounded x.desc then x.wordBound (k / dw) (k % dw) else BitVec.ofNat 16 (bits x.desc 63 48)
      (s, v, if w.width = 8 then maxB16 (at_ word) (at_ (word + 1)) else at_ word, x.poison.contains word || (w.width = 8 && x.poison.contains (word + 1)))

/-- Re-read a waited-for word; leave where it differs or the deadline has passed (R317). -/
def rereadWait (s : State) (gid : Nat) : State :=
  match s.group? gid with
  | none => s
  | some g => match g.waita, g.run with
    | some w, some _ =>
      let (s, v, b, bad) := readWait s gid g w
      if bad then killPoison s gid
      else
        let score := (s.kernel g.kernel).score
        let w := { w with last := BitVec.ofNat 64 v, lastBound := scoreB score b, woken := false }
        let late := match w.deadline with
          | some t => decide (t ≤ s.clock)
          | none => false
        if decide (w.last ≠ w.expected) || late then
          let s := s.modGroup gid fun g => ({ g with waita := none }).land score g.runId (.u w.d w.last w.lastBound)
          goOn s gid
        else s.modGroup gid fun g => { g with waita := some w, hold := some .waita, parkedSince := some (g.parkedSince.getD s.clock) }
    | _, _ => s

/-- A waited-for word lies in a peer device's memory, and is polled (R317). -/
def WaitTarget.atPeer (t : WaitTarget) (page : Option Attr) : Bool := match t, page with
  | .mem _ pa, some a => decide (peerOf (decide (a.type = 3)) pa ≠ 0)
  | _, _ => false

/-- Begin a wait: the expected value, the deadline, the monitor where the table has room, and the arming read (R317).
A word of a peer device is polled. -/
def beginWait (s : State) (gid : Nat) (d : UReg) (width : Nat) (target : WaitTarget) (page : Option Attr) (declared : B16) (slices : BitVec 8) : State :=
  match s.group? gid with
  | none => s
  | some g =>
    let e : W64 := BitVec.ofNat 64 (g.s[d.val].toNat % 2 ^ (8 * width))
    let lim := (g.s.toList.getD (d.val + 1) 0).toNat
    let w : WaitA :=
      { d := d, width := width, expected := e, last := e, lastBound := 0, deadline := if 2 ^ 48 ≤ lim then none else some (s.clock + lim)
        target := target, armed := !target.atPeer page && decide (armedOn s g.core < 256), woken := false, slices := slices, page := page, declared := declared
        polled := s.clock }
    rereadWait (s.setGroup gid { g with waita := some w, hold := some .waita }) gid

/-- The word of a `WAITA` through a record, once its page is present (R317, R245). -/
def waitAccess (s : State) (gid : Nat) (a : Access) : State × Option TableRead :=
  match s.group? gid, a.udst with
  | some g, some d =>
    let (s, l) := locateAll s g.core g.kernel a a.spots
    match trapPages l with
    | some t => (s, some (.trap t))
    | none => match l with
      | (_, .at_ at_ pa) :: _ => (beginWait s gid d (a.ty.w / 8) (.mem (at_.vpage * 4096 + pa % 4096) pa) (some at_)
          (match a.record with
            | some (_, w) => (recOf w).bound
            | none => b16Exact) a.slices, none)
      | _ => (s, some (.wait a (match migratingOf l with
        | some v => .migration v
        | none => .fault) (absentSpots l)))
  | _, _ => (s, none)

/-- The data word, by row · dw + column word, that a monitored wait reads of a tile at a flat index (R317), and an element that lies in
it: the first word of the element where elements have 32 or 64 bits, and else the word of that index (log 102). -/
def waitWord (desc : W64) (idx : Nat) : Nat :=
  if (tileTy desc).w < 32 then idx else (flatAt desc idx).1 * tileDw desc + (tileElem desc (flatAt desc idx).2).1
def waitElem (desc : W64) (idx : Nat) : Nat × Nat :=
  if (tileTy desc).w < 32 then (idx / max 1 (tileDw desc), idx % max 1 (tileDw desc) * perWord (tileTy desc).w) else flatAt desc idx

/-- `WAITA` (R317, R303). -/
def execWaita (d : UReg) (o : Src) (rt : RT) (s : State) : Host.Outcome State Fault Refusal :=
  issue (.waita d o rt) s { regs := srcRegs o, u := [d, uregNext d] } fun c =>
    match c.ty with
    | none => c.badMode
    | some t =>
      if !(t.isInt && decide (32 ≤ t.w)) then c.badMode
      else
        let offs := c.opndRaw t.is64 o
        match rt with
        | .tile h =>
          let x0 := s.tile c.g.team h
          let idx := offs.at ((lowestBit c.all).getD 0) % 2 ^ 32
          if c.lacksSlice then c.illegal 5
          else (match tileCheck x0 c.lowest fun _ => match x0 with
              | some x => [waitElem x.desc idx]
              | none => [] with
            | .error e => .trap e
            | .ok x => .gone (beginWait s c.gid d (t.w / 8) (.tile h (waitWord x.desc idx)) none b16Exact c.run.slices))
        | .record r =>
          let a := c.access .waita r.val c.lowest offs.val [] (some r) none (some d)
          let rc := match a.record with
            | some (_, w) => some w
            | none => none
          if (match rc with
            | some w => !recMalformed w && decide ((recOf w).ty.w < 32)
            | none => false) then c.badMode
          else if c.lacksSlice then c.illegal 5
          else if (match rc with
            | some w => !recMalformed w && (recOf w).pointer
            | none => false) then .trap (trapAccess 0x03 0 a.spots)
          else match a.check with
          | some e => .trap e
          | none =>
            if c.g.behindPark a then .gone (parkGang s c.gid a .heldBehind none (some c.run) [])
            else match waitAccess s c.gid a with
            | (s, none) => .gone s
            | (_, some (.trap e)) => .trap e
            | (s, some (.wait a cause l)) => .gone (parkGang s c.gid a cause none (some c.run) l)
            | (s, some (.table _)) | (s, some .poison) => .gone s

/-- `WAITA_WAKE`: a woken group re-reads its word (R317). -/
def execWaitaWake (gid : Nat) (s : State) : Host.Outcome State Fault Refusal :=
  .next (tick (match s.group? gid with
    | some g => (match g.waita with
      | some w => if g.seated && w.woken then rereadWait s gid else s
      | none => s)
    | none => s))

/-- `WAITA_POLL`: a group without a monitor re-reads its word every 1,024 clocks (R317). -/
def execWaitaPoll (gid : Nat) (s : State) : Host.Outcome State Fault Refusal :=
  .next (tick (match s.group? gid with
    | some g => (match g.waita with
      | some w => if g.seated && !w.armed && decide (w.polled + 1024 ≤ s.clock) then
          rereadWait (s.setGroup gid { g with waita := some { w with polled := s.clock } }) gid
        else s
      | none => s)
    | none => s))

/-- `WAITA_DEADLINE`: the deadline has passed: a last read, and the wait ends (R317). -/
def execWaitaDeadline (gid : Nat) (s : State) : Host.Outcome State Fault Refusal :=
  .next (tick (match s.group? gid with
    | some g => (match g.waita with
      | some w => (match w.deadline with
        | some t => if g.seated && decide (t ≤ s.clock) then rereadWait s gid else s
        | none => s)
      | none => s)
    | none => s))

/-! ### Releases complete (R328, R338, R342) -/

/-- What follows a release that is complete. -/
def releaseNext (s : State) (gid : Nat) (r : Release) : State :=
  let s := s.modGroup gid fun g => { g with release := none, hold := if g.hold = some .stopped then none else g.hold }
  match r.next with
  | .fence false => s
  | .fence true => goOn (acquire s gid r.scope) gid
  | .pbar _ => goOn s gid
  | .groupEnd => s
  | .arrive i cnt wait _ =>
    let s := arriveNow s gid i cnt
    match wait with
    | some p => s.modGroup gid fun g => { g with hold := some (.barrier i p), parkedSince := some s.clock }
    | none => goOn s gid

/-- `RELEASE_COMPLETE` (R328): the drains and write-backs, then, once the destinations have acknowledged or the durable
writes are accepted, the release is complete. -/
def execReleaseComplete (gid : Nat) (s : State) : Host.Outcome State Fault Refusal :=
  .next (tick (match s.group? gid with
    | none => s
    | some g => match g.release with
      | none => s
      | some r =>
        if r.faulted then s
        else if r.sent then
          let left : Bool := match r.next with
            | .pbar _ => r.markers.any fun q => s.durWait.any fun w => decide (w.seq = q)
            | .fence _ | .arrive _ _ _ _ | .groupEnd => marksOwed s r.markers
          if left then s else releaseNext s gid r
        else
          let w := match r.next with
            | .pbar cum => pbarWork s gid cum r.upto
            | .fence _ | .arrive _ _ _ _ | .groupEnd => releaseWork s gid r.scope r.upto
          match w with
          | .waiting s => s
          | .refused s secs => faultRelease s gid secs
          | .sent s markers =>
            if markers.isEmpty then releaseNext s gid r
            else s.modGroup gid fun g => { g with release := some { r with sent := true, markers := markers } }))

end Sys2Proof.Machine
end

