-- ==== Sys2Proof/Machine/Copy.lean ====
section
/-! DEFINITION. The copy engine: its commands, their elements, and saving and restoring them (R347–R365). -/

namespace Sys2Proof.Machine

/-! ### Endpoints and elements (R351, R354, R357) -/

/-- An endpoint of a command: a record with its snapshot, or a tile. -/
inductive Endpoint where
  | record (n : RecNo) (w : List W64)
  | tile (h : TileNo)
  deriving DecidableEq, Repr

/-- A field that names a record below 224 and a tile from there on. -/
def fieldTile (f : Nat) : Option TileNo := if h : 224 ≤ f ∧ f < 256 then some ⟨f - 224, by omega⟩ else none
def fieldRecord (f : Nat) : RecNo := ⟨f % 224, Nat.mod_lt _ (by decide)⟩

/-- A position of a record without the 32-bit truncation of offsets (R354). -/
def exactPos (r : Rec) (o j : Nat) : Nat :=
  if r.rowstride = 0 then r.sub + (o + j) * r.stride else r.sub + o / 2 ^ 16 * r.rowstride + (o % 2 ^ 16 + j) * r.stride

/-- rec_el of R354: position of row i, column j, for w elements per row. -/
def recEl (r : Rec) (o i j w : Nat) : Nat := if r.rowstride = 0 then exactPos r (o + i * w) j else exactPos r (o + i * 2 ^ 16) j

/-- The element at a position of a record, and its scale (R234, R235). -/
def recSpots (w : List W64) (p : Nat) : List Spot :=
  let r := recOf w
  let sc := recOf (w.drop 5)
  let (off, n, sh) := elemPlace r.ty.w p
  let so := sc.sub + p / r.block * sc.stride
  { lane := 0, j := 0, scale := false, off := off, va := r.base + off, n := n, sh := sh, w := r.ty.w } ::
    (if r.blk = 0 then [] else [{ lane := 0, j := 0, scale := true, off := so, va := sc.base + so, n := 1, sh := 0, w := 8 }])

/-- The fields of a copy descriptor (R351). -/
def CopyCmd.rows (c : CopyCmd) : Nat := bits (wordAt c.words 0) 47 32
def CopyCmd.cols (c : CopyCmd) : Nat := bits (wordAt c.words 0) 31 16
def CopyCmd.tr (c : CopyCmd) : Bool := bit (wordAt c.words 0) 15
def CopyCmd.dorg (c : CopyCmd) : Nat := bits (wordAt c.words 1) 63 32
def CopyCmd.sorg (c : CopyCmd) : Nat := bits (wordAt c.words 1) 31 0
def CopyCmd.morg (c : CopyCmd) : Nat := bits (wordAt c.words 2) 31 0
/-- The word that carries a command's flags: s[a], or for `CPYG` s[a+2], or for `DECHT` s[a+1]. -/
def CopyCmd.flagWord (c : CopyCmd) : W64 := if c.opcode = 0xD2 then wordAt c.words 2 else if c.opcode = 0x77 then wordAt c.words 1 else wordAt c.words 0
def CopyCmd.rel (c : CopyCmd) : Bool := bit c.flagWord 12
def CopyCmd.acq (c : CopyCmd) : Bool := bit c.flagWord 11
def scopeOf : Nat → Scope
  | 0 => .grp
  | 1 => .team
  | 2 => .core
  | 3 => .dev
  | _ => .sys
def CopyCmd.scope (c : CopyCmd) : Scope := scopeOf (bits c.flagWord 10 8)
/-- The rows that a command copies: `CPYO` skips the rows of inactive lanes. -/
def CopyCmd.rowList (c : CopyCmd) : List Nat := if c.opcode = 0xD1 then (List.range c.rows).filter fun i => bit c.rowMask i else List.range c.rows
/-- Elements, or words of `CPYG`, that a command performs. -/
def CopyCmd.total (c : CopyCmd) : Nat :=
  if c.opcode = 0xD2 then bits (wordAt c.words 2) 63 32 / 4
  else if c.opcode = 0xD1 then c.rowList.length * c.cols
  else if c.opcode = 0x77 then 0
  else c.rows * c.cols

/-- The source and destination of a command. -/
def CopyCmd.src (c : CopyCmd) : Endpoint := match fieldTile (bits (wordAt c.words 0) 63 56) with
  | some h => .tile h
  | none => .record (fieldRecord (bits (wordAt c.words 0) 63 56)) c.srcRec
def CopyCmd.dst (c : CopyCmd) : Endpoint := match fieldTile (bits (wordAt c.words 0) 55 48) with
  | some h => .tile h
  | none => .record (fieldRecord (bits (wordAt c.words 0) 55 48)) c.dstRec

/-- Position of row i, column j at a record endpoint with an origin and w elements per row; `CPYO` uses its lane
offsets. -/
def CopyCmd.recPos (c : CopyCmd) (w : List W64) (o i j n : Nat) : Nat :=
  if c.opcode = 0xD1 then recEl (recOf w) ((c.rowOffs.getD i 0).toNat) 0 j n else recEl (recOf w) o i j n

/-- Row and column of element (i, j) at a tile endpoint (R354). -/
def tileEl (o i j : Nat) : Nat × Nat := (o / 2 ^ 16 % 2 ^ 16 + i, o % 2 ^ 16 + j)

/-- Source elements per row. -/
def CopyCmd.srcCols (c : CopyCmd) : Nat := if c.opcode = 0xD3 then c.cols / 2 else c.cols

/-! ### The conversion of an element (R355) -/

/-- A MODE that holds only the fields a copy takes. -/
def CopyCmd.mode (c : CopyCmd) : BitVec 24 :=
  BitVec.ofNat 24 (c.rnd.toNat * 2 ^ 16 + (if c.sat then 2 ^ 6 else 0) + (if c.ftz then 2 ^ 5 else 0))

/-- One element from one format to another: bits, bound, flags. -/
def copyConv (src dst : Ty) (mode : BitVec 24) (s1 s2 : ScaleRead) (β : B16) (x : Nat) : Nat × Bnd × BitVec 9 :=
  match s1, s2 with
  | some (e1, _), some (e2, _) =>
    let ftz := modeFtz mode
    let c := readElem src.kind src.w ftz x
    let k1 : Int := (e1 : Int) - 127
    let k2 : Int := (e2 : Int) - 127
    if e1 = 255 ∨ e2 = 255 then
      let r := writeElem dst.kind dst.w (modeRnd mode) (modeSat mode) ftz { val := .nan false false, int := none, flush := 0, snan := c.snan }
      (r.bits, (Bnd.of β).add .unb, r.flags ||| flInvalid)
    else
      let v := scaleVal k1 c.val
      let r := writeElem dst.kind dst.w (modeRnd mode) (modeSat mode) ftz { val := scaleVal (-k2) v, int := none, flush := 0, snan := c.snan }
      let b : Bnd := match r.val, v with
        | some q, .fin _ _ => ((Bnd.of β).add (.fin (c.flush * pow2 k1))).add (.fin (ratAbs (v.real - pow2 k2 * q)))
        | _, _ => (Bnd.of β).add .unb
      (r.bits, if scaleOpen s1 || scaleOpen s2 then b.add .unb else b, r.flags)
  | none, some _ => stageStore src dst mode s2 β x
  | _, none => stageLoad src dst mode s1 β x

/-! ### Reaching an element -/

/-- What reaching an element came to. -/
inductive Reach where
  | read (x : Nat) (β : B16) (poison : Bool)
  | spot (p : Spot) (a : Attr) (pa : Nat)
  | cell (row col : Nat)
  | absent (va : Nat) (scale write : Bool)
  | wait
  | bad (va : Nat)

/-- The access by which the engine reaches a record's element, or for `CPYG` a word. -/
def engineAccess (op : AccessOp) (r : Option (RecNo × List W64)) : Access :=
  { op := op, opcode := 0, rtField := 0, word := 0, pc := 0, slices := 0, mode := 0, lanes := 0, offs := Vector.replicate 32 0, data := []
    record := r, dst := none, udst := none, seq := 0 }

/-- Locate one spot for the engine. -/
def reachSpot (s : State) (g : Group) (a : Access) (p : Spot) : State × Reach :=
  match locate s g.core g.kernel a p with
  | (s, .at_ t pa) => (s, .spot p t pa)
  | (s, .bad _) => (s, .bad p.va)
  | (s, .absent) => (s, .absent p.va p.scale (a.writes && !p.scale))
  | (s, .migrating _) => (s, .wait)

/-- Read one spot. -/
def readReach (s : State) (g : Group) (a : Access) (declared : B16) (p : Spot) : State × Reach :=
  match reachSpot s g a p with
  | (s, .spot p t pa) =>
    let k := s.kernel g.kernel
    let (s, e) := readSpot s g.core (s.vfOf k.asid) (noAlloc a p.scale) declared p t pa
    (sampleAccess s g.core k.part k.asid p.va 4 t, .read e.bits e.bnd e.poison)
  | r => r

/-- Read an element of an endpoint at a record position or tile element, with its scale. -/
def readEnd (s : State) (g : Group) (e : Endpoint) (pos : Nat) (cell : Nat × Nat) : State × Reach × ScaleRead :=
  match e with
  | .tile h => (s, (match s.tile g.team h with
      | some x => .read (x.read cell.1 cell.2) (x.bound cell.1 cell.2) (x.poisoned cell.1 cell.2)
      | none => .bad 0), none)
  | .record n w =>
    let a := engineAccess .ld (some (n, w))
    match recSpots w pos with
    | [p, q] =>
      (match readReach s g a (recOf w).bound p with
      | (s, .read x β bad) =>
        (match readReach s g a (recOf (w.drop 5)).bound q with
        | (s, .read y βy bad') => (s, .read x β (bad || bad'), some (y, βy))
        | (s, r) => (s, r, none))
      | (s, r) => (s, r, none))
    | p :: _ =>
      let (s, r) := readReach s g a (recOf w).bound p
      (s, r, none)
    | [] => (s, .wait, none)

/-- Reach the element that an endpoint writes, with its scale's byte, and whether that was poisoned. -/
def reachEnd (s : State) (g : Group) (e : Endpoint) (pos : Nat) (cell : Nat × Nat) : State × Reach × ScaleRead × Bool :=
  match e with
  | .tile _ => (s, .cell cell.1 cell.2, none, false)
  | .record n w =>
    let a := engineAccess (.st false) (some (n, w))
    match recSpots w pos with
    | [p, q] =>
      (match reachSpot s g a p with
      | (s, .spot p t pa) =>
        (match readReach s g a (recOf (w.drop 5)).bound q with
        | (s, .read y βy bad) => (s, .spot p t pa, some (y, βy), bad)
        | (s, r) => (s, r, none, false))
      | (s, r) => (s, r, none, false))
    | p :: _ =>
      let (s, r) := reachSpot s g a p
      (s, r, none, false)
    | [] => (s, .wait, none, false)

/-! ### Writing an element (R355, R359) -/

/-- The mask of a word's bits that elements of width w fill. -/
def wordFull (w : Nat) : Nat := if w = 6 then 2 ^ 30 - 1 else 2 ^ 32 - 1

/-- The destination word's bound after an element is written, and the command's account of it (R355): the largest bound of
the elements written into it, with its old one while it keeps old bits. -/
def partBound (part : KMap (Nat × B16)) (key mask full : Nat) (β old : B16) : B16 × KMap (Nat × B16) :=
  let (m, b) := (KMap.get? part key).getD (0, b16Exact)
  let m' := Nat.lor m mask
  let b' := maxB16 b β
  if Nat.land m' full = full then (b', KMap.erase part key) else (maxB16 old b', KMap.set part key (m', b'))

/-- The bits of an element within its word. -/
def elemMask (sh w : Nat) : Nat := (2 ^ min w 32 - 1) * 2 ^ sh

/-- Write an element in memory, through to its point of coherence (R322, R324). -/
def copyToMem (s : State) (gid : Nat) (g : Group) (cmd : CopyCmd) (p : Spot) (t : Attr) (pa v : Nat) (β : B16) (bad : Bool) : State × CopyCmd :=
  let k := s.kernel g.kernel
  let s := toHome (drainTargets s gid [(pa, p.n)]) g.core t pa
  let sec := sectorOf pa
  let base := sectorBase sec
  let old := Memory.readN s.mem pa p.n
  let new := old - old / 2 ^ p.sh % 2 ^ p.w * 2 ^ p.sh + v % 2 ^ p.w * 2 ^ p.sh
  let bytes : KMap Byte := (touchedBytes p).map fun i => (pa - base + i, BitVec.ofNat 8 (new / 256 ^ i))
  let words := (List.range (max 1 (p.n / 4))).map fun i => (pa - base) / 4 + i
  let sh := if p.n < 4 then 8 * ((pa - base) % 4) + p.sh else p.sh
  let (bnds, part) := words.foldl (fun (acc : KMap B16 × KMap (Nat × B16)) w =>
    let oldB := sideWord (homeSide s sec) w
    let (b, part) := partBound acc.2 (sec * 12 + w) (elemMask sh p.w) (wordFull p.w) (scoreB k.score β) oldB
    (acc.1 ++ [(w, b)], part)) ([], cmd.part)
  let s := hubWrite s g.core
    { sector := sec, bytes := bytes, bounds := if t.bound then some bnds else none, dur := decide (t.type = 2), shr := decide (t.type = 3), owners := [gid]
      readers := [], released := false, cache := t.cache, engine := true }
  let s := if bad && !s.poison.contains sec then { s with poison := sec :: s.poison } else s
  let s := sampleAccess s g.core k.part k.asid p.va 5 t
  (s, if t.bound then { cmd with part := part } else cmd)

/-- Write an element of a tile; a bounded tile's sector merges once (R129). -/
def copyToTile (s : State) (gid : Nat) (g : Group) (cmd : CopyCmd) (h : TileNo) (row col v : Nat) (β : B16) (bad : Bool) : State × CopyCmd :=
  match s.tile g.team h with
  | none => (s, cmd)
  | some x0 =>
    let k := s.kernel g.kernel
    let s := drainTileTargets s gid h [row * tileCols x0.desc + col]
    let x := (s.tile g.team h).getD x0
    let (w0, sh, w) := tileElem x.desc col
    let dw := tileDw x.desc
    let words := if w = 64 then [w0, w0 + 1] else [w0]
    let full (i : Nat) : Nat := (wordElems x.desc i).foldl (fun m c => Nat.lor m (elemMask (tileElem x.desc c).2.1 w)) 0
    let y := x.write [{ row := row, col := col, bits := v, bnd := scoreB k.score β }]
    let (bnds, part) := words.foldl (fun (acc : KMap B16 × KMap (Nat × B16)) i =>
      let (b, part) := partBound acc.2 (row * dw + i) (elemMask sh w) (full i) (scoreB k.score β) (x.wordBound row i)
      (acc.1 ++ [(i % 12, b)], part)) ([], cmd.part)
    let key := row * tileSecs x.desc + w0 / 12
    let side := setSide x.side key (sideMerge (min 12 (dw - 12 * (w0 / 12))) (x.sideband key) bnds)
    let y := if bad then { y with poison := (words.map fun i => row * dw + i) ++ y.poison.filter fun k => !words.any fun i => decide (row * dw + i = k) } else y
    if tileBounded x.desc then (s.setTile g.team h { y with side := side }, { cmd with part := part })
    else (s.setTile g.team h y, cmd)

/-- Write a reached element. -/
def copyWrite (s : State) (gid : Nat) (g : Group) (cmd : CopyCmd) (h : Option TileNo) (r : Reach) (v : Nat) (b : Bnd) (fl : BitVec 9) (bad : Bool) : State × CopyCmd :=
  let s := s.modGroup gid fun g => g.stick fl
  match r, h with
  | .spot p t pa, _ => copyToMem s gid g cmd p t pa v b.toB16 bad
  | .cell row col, some h => copyToTile s gid g cmd h row col v b.toB16 bad
  | _, _ => (s, cmd)

/-! ### One element (R354–R360) -/

/-- The element format of an endpoint. -/
def endTy (s : State) (g : Group) : Endpoint → Ty
  | .record _ w => (recOf w).ty
  | .tile h => match s.tile g.team h with
    | some x => tileTy x.desc
    | none => tyF32

/-- The tile of an endpoint. -/
def Endpoint.handle : Endpoint → Option TileNo
  | .tile h => some h
  | .record _ _ => none

/-- What performing an element came to: done, waiting, a fault over a row's addresses, or an early end. -/
inductive Moved where
  | done (s : State) (cmd : CopyCmd)
  | wait (s : State)
  | fault (s : State) (lo hi : Nat) (write : Bool)
  | ended (s : State) (va : Nat)

/-- The addresses of a row's elements at a record, or of their scales, for the positions of the row (R360). -/
def rowSpan (w : List W64) (positions : List Nat) (va : Nat) (scale : Bool) : Nat × Nat :=
  let vas := positions.flatMap fun p => (recSpots w p).filterMap fun q => if q.scale = scale then some q.va else none
  (vas.foldl min (vas.headD va), vas.foldl max 0)

/-- The positions of row i of an endpoint with an origin and n elements per row, and its record's words. -/
def CopyCmd.rowOf (c : CopyCmd) (e : Endpoint) (o i n : Nat) : List W64 × List Nat :=
  match e with
  | .tile _ => ([], [])
  | .record _ w => (w, (List.range n).map fun j => c.recPos w o i j n)

/-- An element that was not reached; the row's record and positions. -/
def notReached (s : State) (r : Reach) (row : List W64 × List Nat) : Moved :=
  match r with
  | .absent va scale write =>
    let (lo, hi) := rowSpan row.1 row.2 va scale
    .fault s lo hi write
  | .bad va => .ended s va
  | .wait | .read _ _ _ | .spot _ _ _ | .cell _ _ => .wait s

/-- The position of row i, column j of an endpoint. -/
def CopyCmd.posOf (c : CopyCmd) (e : Endpoint) (o i j n : Nat) : Nat := match e with
  | .record _ w => c.recPos w o i j n
  | .tile _ => 0

/-- Copy source element (i, j) of n per row to destination element (di, dj) (R354, R355); `bad0`: what chose it was poisoned. -/
def moveElem (s : State) (gid : Nat) (g : Group) (cmd : CopyCmd) (i j : Nat) (di dj : Nat) (bad0 : Bool) : Moved :=
  let n := cmd.srcCols
  match readEnd s g cmd.src (cmd.posOf cmd.src cmd.sorg i j n) (tileEl cmd.sorg i j) with
  | (s, .read x β bad, s1) =>
    let put (s : State) (r : Reach) (s2 : ScaleRead) (bad2 : Bool) : Moved :=
      let (v, b, fl) := copyConv (endTy s g cmd.src) (endTy s g cmd.dst) cmd.mode s1 s2 β x
      let (s, cmd) := copyWrite s gid g cmd cmd.dst.handle r v b fl (bad || bad2)
      .done s cmd
    (match reachEnd s g cmd.dst (cmd.posOf cmd.dst cmd.dorg di dj cmd.cols) (tileEl cmd.dorg di dj) with
    | (s, .spot p t pa, s2, bad2) => put s (.spot p t pa) s2 (bad0 || bad2)
    | (s, .cell row col, s2, bad2) => put s (.cell row col) s2 (bad0 || bad2)
    | (s, r, _, _) => notReached s r (cmd.rowOf cmd.dst cmd.dorg di cmd.cols))
  | (s, r, _) => notReached s r (cmd.rowOf cmd.src cmd.sorg i n)

/-- The flags of a conversion whose value another one of its group replaces (R357). -/
def lostFlags (s : State) (gid : Nat) (g : Group) (cmd : CopyCmd) (i j : Nat) : State :=
  match readEnd s g cmd.src (cmd.posOf cmd.src cmd.sorg i j cmd.srcCols) (0, 0) with
  | (s, .read x β _, s1) => s.modGroup gid fun g' => g'.stick (copyConv (endTy s g cmd.src) (endTy s g cmd.dst) cmd.mode s1 none β x).2.2
  | (s, _, _) => s

/-- Element (i, j) of `CPYS` (R357): the group's metadata element names the two of its four positions that take source elements, the second
where they are one, and the others are zero. -/
def moveSparse (s : State) (gid : Nat) (g : Group) (cmd : CopyCmd) (i j : Nat) : Moved :=
  let m : Endpoint := .record (fieldRecord (bits (wordAt cmd.words 2) 63 56)) cmd.metaRec
  let q := j / 4
  let mpos (q : Nat) : Nat := recEl (recOf cmd.metaRec) cmd.morg i q (cmd.cols / 4)
  match readEnd s g m (mpos q) (0, 0) with
  | (s, .read c _ bad, _) =>
    let first := decide (j % 4 = c % 4)
    let second := decide (j % 4 = c / 4 % 4)
    if second then moveElem (if first then lostFlags s gid g cmd i (2 * q) else s) gid g cmd i (2 * q + 1) i j bad
    else if first then moveElem s gid g cmd i (2 * q) i j bad
    else
      let (row, col) := tileEl cmd.dorg i j
      let (s, cmd) := copyWrite s gid g cmd cmd.dst.handle (.cell row col) 0 (.fin 0) 0 bad
      .done s cmd
  | (s, r, _) => notReached s r (cmd.metaRec, (List.range (cmd.cols / 4)).map mpos)

/-- One word of `CPYG` (R358): its destination is checked as a `STG`'s, and an IO page ends it (R353, R360). -/
def moveWord (s : State) (gid : Nat) (g : Group) (cmd : CopyCmd) (n : Nat) : Moved :=
  let spot (va : Nat) : Spot := { lane := 0, j := 0, scale := false, off := va, va := va, n := 4, sh := 0, w := 32 }
  let sva := bits (wordAt cmd.words 0) 59 0 + 4 * n
  let dva := bits (wordAt cmd.words 1) 59 0 + 4 * n
  let declared := if bit (wordAt cmd.words 2) 15 then b16Unbounded else b16Exact
  match readReach s g (engineAccess .fetch none) declared (spot sva) with
  | (s, .read x β bad) =>
    (match reachSpot s g (engineAccess .stg none) (spot dva) with
    | (s, .spot p t pa) =>
      if t.type = 4 then .ended s dva
      else
        let (s, cmd) := copyWrite s gid g cmd none (.spot p t pa) x (Bnd.of β) 0 bad
        .done s cmd
    | (s, r) => notReached s r ([], []))
  | (s, r) => notReached s r ([], [])

/-- Perform a command's next element. -/
def moveNext (s : State) (gid : Nat) (g : Group) (cmd : CopyCmd) : Moved :=
  let n := cmd.done
  if cmd.opcode = 0xD2 then moveWord s gid g cmd n
  else
    let i := cmd.rowList.getD (n / max 1 cmd.cols) 0
    let j := n % max 1 cmd.cols
    if cmd.opcode = 0xD3 then moveSparse s gid g cmd i j
    else if cmd.opcode = 0xD4 ∧ cmd.tr then moveElem s gid g cmd i j j i false
    else moveElem s gid g cmd i j i j false

/-- Replace the group's oldest command. -/
def setCopy (s : State) (gid : Nat) (c : CopyCmd) : State := s.modGroup gid fun g => { g with copies := listSet g.copies 0 c }

/-- The command's acquire, before its first read (R333): `none` while it waits for earlier accesses. -/
def copyAcquire (s : State) (gid : Nat) (g : Group) (cmd : CopyCmd) : Option (State × CopyCmd) :=
  if !cmd.acq || cmd.acqdone then some (s, cmd)
  else if !g.doneBefore cmd.seq then none
  else some (acquire s gid cmd.scope, { cmd with acqdone := true })

/-- A kind 4 or kind 3 entry for a command: raised once no entry of the group is outstanding (R360, R277). -/
def faultCopy (s : State) (gid : Nat) (g : Group) (cmd : CopyCmd) (f : FaultInfo) : State :=
  if g.outstanding then setCopy s gid cmd
  else raiseEntry (setCopy s gid { cmd with faulted := true, endDetail := (f.loVa, f.hiVa) }) gid f

/-- `COPY_ELEMENT` (R354–R360): the group's oldest command performs its next element. -/
def execCopyElement (gid : Nat) (s : State) : Host.Outcome State Fault Refusal :=
  .next (tick (match s.group? gid with
    | none => s
    | some g => match g.copies with
      | [] => s
      | cmd :: _ =>
        if engineStopped s g || cmd.opcode = 0x77 || cmd.faulted || cmd.ended || cmd.released || decide (cmd.total ≤ cmd.done) then s
        else match copyAcquire s gid g cmd with
        | none => s
        | some (s, cmd) =>
          let s0 := s
          let out (s : State) : State := lateOut s0 s gid cmd.seq
          match moveNext (lateIn s gid cmd.seq) gid g cmd with
          | .done s cmd => setCopy (out s) gid { cmd with done := cmd.done + 1 }
          | .wait s => setCopy (out s) gid cmd
          | .ended s va => setCopy (out s) gid { cmd with ended := true, endDetail := (va, cmd.done) }
          | .fault s lo hi write =>
            faultCopy (out s) gid g cmd { kind := 4, loVa := lo, hiVa := hi, pc := cmd.pc.toNat, lanes := 0, opcode := cmd.opcode.toNat, write := write, rt := 0 }))

/-- The asynchronous trap of a command that ended early (R361). -/
def trapCopy (cmd : CopyCmd) : TrapInfo :=
  { trapOf 0x05 [6, 0, BitVec.ofNat 64 cmd.endDetail.1, cmd.pc, BitVec.ofNat 64 cmd.endDetail.2] with async := true }

/-- Remove the group's oldest command: a `PBAR` no longer passes over its durable writes (R342). -/
def dropCopy (s : State) (gid : Nat) : State :=
  { s.modGroup gid fun g => { g with copies := g.copies.drop 1 } with
    durWait := s.durWait.map fun w => if w.engine && w.owners.contains gid then { w with engine := false } else w }

/-- The oldest command is done; a run held by a `DECHT` under bnd = trap goes on. -/
def finishCopy (s : State) (gid : Nat) (g : Group) (cmd : CopyCmd) : State :=
  if cmd.opcode = 0x77 ∧ cmd.bnd = 2 ∧ g.hold = some .decode then goOn (dropCopy s gid) gid else dropCopy s gid

/-- `COPY_COMMAND_END` (R361, R333): a command finishes, or ends early, after its release. -/
def execCopyCommandEnd (gid : Nat) (s : State) : Host.Outcome State Fault Refusal :=
  .next (tick (match s.group? gid with
    | none => s
    | some g => match g.copies with
      | [] => s
      | cmd :: _ =>
        if cmd.faulted || engineStopped s g then s
        else if cmd.ended then
          (dropCopy s gid).modGroup gid fun g => { g with asyncTraps := g.asyncTraps ++ [trapCopy cmd] }
        else if decide (cmd.opcode = 0x77) && !cmd.released then s
        else if cmd.done < cmd.total then s
        else if !cmd.rel then finishCopy s gid g cmd
        else match cmd.marks with
        | some l => if marksOwed s l then s else finishCopy s gid g cmd
        | none => match releaseWork s gid cmd.scope cmd.seq with
          | .waiting s => s
          | .refused s secs => faultCopy s gid g { cmd with released := true } (refusedFault secs cmd.pc cmd.opcode)
          | .sent s l => if l.isEmpty then finishCopy s gid g cmd else setCopy s gid { cmd with released := true, marks := some l }))

/-! ### `DECHT` (R205–R209) -/

/-- The copy-engine decode of a group at the head of its core's queue (R211). -/
def dechtJob (s : State) (gid : Nat) (g : Group) : Option DecodeJob := (s.core g.core).decodeQ.head?.filter fun j => decide (j.gid = gid) && decide (j.kind = 2)

/-- A copy-engine decode finishes (R208): the tile write, the flags and the status; the command then ends, after its release. -/
def finishDecht (gid : Nat) (s : State) : State :=
  match s.group? gid with
    | none => s
    | some g => match g.copies, dechtJob s gid g with
      | cmd :: _, some j =>
        if cmd.opcode ≠ 0x77 ∨ cmd.released ∨ engineStopped s g then s
        else (match copyAcquire s gid g cmd with
        | none => s
        | some (s, cmd) =>
          let core := s.core g.core
          let s := s.setCore g.core { core with decodeQ := core.decodeQ.filter fun x => decide (x ≠ j) }
          let h := cmd.destTile
          (match (s.tile g.team cmd.srcTile).map fun t => t.streamed j.old s.serial, (tableOf s g.team 2 j.desc2).bind id, s.tile g.team h with
          | some str, some tab, some dst =>
            let len := decLen j.desc
            let r := runDecode 2 j.desc j.desc2 (tileTy dst.desc).w str tab
            let short := r.short len
            let long := r.long 2 len (decEnd j.desc)
            let status := r.status 2 len (decEnd j.desc)
            let bad := (str.poison.any fun k => decide (32 * k < decEnd j.desc) && decide (decStart j.desc < 32 * k + 32)) || tab.poison.any fun k => decide (k < 160)
            if (short || long) && decide (cmd.bnd = 2) then trapHeld (dropCopy s gid) gid (trapDecode (if short then 8 else 9) status)
            else
              let cols := max 1 (tileCols dst.desc)
              let row := bits j.desc2 31 16
              let score := (s.kernel g.kernel).score
              let ws := (List.range len).map fun e => ({ row := row + e / cols, col := e % cols, bits := (r.elem e).1, bnd := scoreB score (r.elem e).2 } : TileWrite)
              let s := drainTileTargets s gid h (ws.map fun w => w.row * cols + w.col)
              let x := ((s.tile g.team h).getD dst).write ws
              let dw := tileDw dst.desc
              let hit := (ws.map fun w => w.row * dw + (tileElem dst.desc w.col).1).dedup
              let x := if bad then { x with poison := hit ++ x.poison.filter fun k => !hit.contains k } else x
              let s := s.setTile g.team h x
              let s := s.modGroup gid fun g => { g.stick (flagIf short flShort ||| flagIf long flLong) with decStatus := status }
              setCopy s gid { cmd with released := true }
          | _, _, _ => setCopy s gid { cmd with released := true }))
      | _, _ => s

/-- `DECHT_COMPLETE`. -/
def execDechtComplete (gid : Nat) (s : State) : Host.Outcome State Fault Refusal :=
  .next (tick (match (s.group? gid).bind fun g => g.copies.head? with
    | some cmd => underLate s gid cmd.seq (finishDecht gid)
    | none => s))

/-! ### Checks at issue (R353) -/

/-- Every element of an endpoint, as (position, cell). -/
def allElems (c : CopyCmd) (w : List W64) (o n : Nat) : List (Nat × Nat × Nat) :=
  c.rowList.flatMap fun i => (List.range n).map fun j => (c.recPos w o i j n, i, j)

/-- An element of a tile endpoint outside its tile: the lowest index. -/
def tileOutside (x : Tile) (cells : List (Nat × Nat)) : Option Nat :=
  let bad := cells.filter fun p => decide (tileRows x.desc ≤ p.1) || decide (tileCols x.desc ≤ p.2)
  match bad.map fun p => p.1 * tileCols x.desc + p.2 with
  | [] => none
  | k :: t => some (t.foldl min k)

/-- The lowest address of the spots of a record endpoint that fail a test. -/
def lowSpot (spots : List Spot) (p : Spot → Bool) : Option Nat :=
  match (spots.filter p).map (·.va) with
  | [] => none
  | k :: t => some (t.foldl min k)

/-- The elements of a record endpoint. -/
def endSpots (c : CopyCmd) (w : List W64) (o n : Nat) : List Spot := (allElems c w o n).flatMap fun x => recSpots w x.1

/-- A trap of an engine instruction: it names no lane. -/
def trapEngine (code : BitVec 8) (cause va : Nat) : TrapInfo := trapOf code [BitVec.ofNat 64 cause, 0, BitVec.ofNat 64 va]

/-- Check 4 and 5 at a record endpoint: malformed, pointer, bounds, base. -/
def recordChecks (w : Option (List W64)) (spots : List W64 → List Spot) : Option TrapInfo :=
  match w with
  | none => some (trapEngine 0x03 1 0)
  | some w =>
    let r := recOf w
    let sc := recOf (w.drop 5)
    if recMalformed w then some (trapEngine 0x03 1 0)
    else if r.pointer then some (trapEngine 0x03 0 0)
    else (lowSpot (spots w) fun p => decide ((if p.scale then sc.len else r.len) < p.off + p.n)).map (trapEngine 0x03 0)

/-- Check 5: a misaligned base. -/
def baseCheck (w : List W64) : Option TrapInfo :=
  let r := recOf w
  let n := if r.ty.w = 6 then 4 else if r.ty.w = 4 then 1 else r.ty.w / 8
  if r.base % n ≠ 0 then some (trapEngine 0x04 0 r.base) else none

/-- Check 6: a present or bad extent that holds an element fails its type, permission or expectation. -/
def extentCheck (k : Kernel) (n : RecNo) (w : List W64) (write : Bool) (spots : List Spot) : Option TrapInfo :=
  let a := engineAccess (if write then .st false else .ld) (some (n, w))
  let fail (p : Spot) : Option Nat :=
    let i := if p.scale then (recOf w).srec else n.val
    match extentAt ((KMap.get? k.extents i).getD []) p.off with
    | none => some 1
    | some e =>
      if e.kind = 0 then pageCause a p.scale { type := e.type.toNat, rd := e.rd, w := e.w, x := e.x, bc := e.bc, size := 0, asid := 0, vpage := 0 }
      else if e.kind = 3 then some 1 else none
  match spots.filterMap fun p => (fail p).map fun c => (p.va, c) with
  | [] => none
  | (v, c) :: t => some (trapEngine 0x05 c (t.foldl (fun m x => min m x.1) v))

/-- First of some checks that fails. -/
def firstTrap (l : List (Option TrapInfo)) : Option TrapInfo := (l.filterMap id).head?

/-- Element formats that a copy takes (R353 step 2). -/
def copyFormats (a b : Ty) (blkA blkB : Nat) : Bool :=
  !((decide (a.kind = .b16) && decide (b.kind ≠ .b16)) || (decide (b.kind = .b16) && decide (a.kind ≠ .b16)) ||
    (decide (blkA ≠ 0) && b.isInt) || (decide (blkB ≠ 0) && a.isInt) || (decide (blkA ≠ 0) && decide (b.kind = .b16)) || (decide (blkB ≠ 0) && decide (a.kind = .b16)))

/-- Check 1 of R353 for a descriptor's own fields. -/
def descOk (op : Nat) (w : List W64) : Bool :=
  let a := wordAt w 0
  let c := wordAt w 2
  decide (bits a 14 13 = 0) && decide (bits a 7 0 = 0) && decide (bits a 10 8 ≤ 4) && decide (bits a 47 32 ≠ 0) && decide (bits a 31 16 ≠ 0) &&
    (!bit a 15 || decide (op = 0xD4)) && decide (bits c 55 32 = 0) && (decide (op = 0xD3) || (decide (bits c 63 56 = 0) && decide (bits c 31 0 = 0)))

/-- The endpoint rules of check 1. -/
def endpointsOk (op : Nat) (src dst : Nat) : Bool :=
  let ts := decide (224 ≤ src)
  let td := decide (224 ≤ dst)
  if op = 0xD0 then !ts || !td
  else if op = 0xD4 then ts && td
  else if op = 0xD1 then ts != td
  else !ts && td

/-- The check of a copy command, in the order of R353. `full`: `CPYO`'s rows lie in the issuing gang; `badTypes`: the trap of formats that do
not go together. -/
def copyCheck (s : State) (g : Group) (c : CopyCmd) (full : Bool) (badTypes : TrapInfo) : Except TrapInfo Unit :=
  let k := s.kernel g.kernel
  let op := c.opcode.toNat
  let illegal (n : Nat) : TrapInfo := trapIllegal n 0 0
  if op = 0xD2 then
    let a := wordAt c.words 0
    let b := wordAt c.words 1
    let d := wordAt c.words 2
    if bits d 31 16 ≠ 0 ∨ bits d 14 13 ≠ 0 ∨ bits d 7 0 ≠ 0 ∨ 5 ≤ bits d 10 8 then .error (illegal 1)
    else if a.toNat % 4 ≠ 0 ∨ b.toNat % 4 ≠ 0 ∨ bits d 63 32 % 4 ≠ 0 ∨ bits a 63 60 ≠ 0 ∨ bits b 63 60 ≠ 0 then
      .error (trapEngine 0x04 1 (if a.toNat % 4 ≠ 0 ∨ bits a 63 60 ≠ 0 then a.toNat else b.toNat))
    else .ok ()
  else
    let sf := bits (wordAt c.words 0) 63 56
    let df := bits (wordAt c.words 0) 55 48
    let metaTy := (recOf c.metaRec).ty
    if !descOk op c.words || !endpointsOk op sf df then .error (illegal 1)
    else if op = 0xD1 ∧ k.width < c.rows then .error (illegal 1)
    else if op = 0xD1 ∧ !full then .error (illegal 5)
    else if op = 0xD3 ∧ (c.cols % 4 ≠ 0 ∨ 224 ≤ bits (wordAt c.words 2) 63 56 ∨ (bits (wordAt c.words 2) 63 56 < k.recCount ∧ !(metaTy.kind = .uint ∧ metaTy.w = 4))) then .error (illegal 1)
    else
      let known (f : Nat) (w : List W64) : Bool := decide (f < 224) && decide (f < k.recCount) && !recMalformed w
      let tyOfEnd (f : Nat) (w : List W64) : Option (Ty × Nat) :=
        match fieldTile f with
        | some h => (s.tile g.team h).map fun x => (tileTy x.desc, 0)
        | none => if known f w then some ((recOf w).ty, (recOf w).blk) else none
      if (match tyOfEnd sf c.srcRec, tyOfEnd df c.dstRec with
        | some (a, x), some (b, y) => !copyFormats a b x y
        | _, _ => false) then .error badTypes
      else
        let tileCk (f o : Nat) (n : Nat) (tr : Bool) : Option TrapInfo :=
          match fieldTile f with
          | none => none
          | some h => match s.tile g.team h with
            | none => some (trapTile 0 0 0)
            | some x =>
              let cells := c.rowList.flatMap fun i => (List.range n).map fun j => if tr then tileEl o j i else tileEl o i j
              (tileOutside x cells).map (trapTile 1 0)
        let recs : List (RecNo × List W64 × Nat × Nat × Bool) :=
          (if sf < 224 then [(fieldRecord sf, c.srcRec, c.sorg, c.srcCols, false)] else []) ++
          (if df < 224 then [(fieldRecord df, c.dstRec, c.dorg, c.cols, true)] else []) ++
          (if op = 0xD3 then [(fieldRecord (bits (wordAt c.words 2) 63 56), c.metaRec, c.morg, c.cols / 4, false)] else [])
        match firstTrap ([tileCk sf c.sorg c.cols false, tileCk df c.dorg c.cols (decide (op = 0xD4) && c.tr)] ++
            recs.map (fun (n, w, o, m, _) => recordChecks (if n.val < k.recCount then some w else none) fun w => endSpots c w o m) ++
            recs.map (fun (_, w, _, _, _) => baseCheck w) ++
            recs.map fun (n, w, o, m, wr) => extentCheck k n w wr (endSpots c w o m)) with
        | some t => .error t
        | none => .ok ()

/-! ### Instructions -/

/-- The words of a record as a command captures them. -/
def capturedRec (k : Kernel) (f : Nat) : List W64 := if f < 224 then (match snapRecord k (fieldRecord f) with
  | some (_, w) => w
  | none => []) else []

/-- Three words of a descriptor, from s[a]. -/
def Gang.three (c : Gang) (a : UReg) : List W64 := (List.range 3).map fun i => (c.view.uni ⟨(a.val + i) % 64, Nat.mod_lt _ (by decide)⟩).1

/-- A command as issued. -/
def newCopy (k : Kernel) (g : Group) (op : Nat) (words : List W64) (rnd : Nat) (sat ftz : Bool) (mask : BitVec 32) (offs : List W32) (pc : W64) : CopyCmd :=
  { opcode := BitVec.ofNat 8 op, words := words, rnd := BitVec.ofNat 3 rnd, sat := sat, ftz := ftz, bnd := 0, acqdone := false, done := 0
    rowMask := mask, rowOffs := offs
    srcRec := if op = 0xD2 then [] else capturedRec k (bits (wordAt words 0) 63 56)
    dstRec := if op = 0xD2 then [] else capturedRec k (bits (wordAt words 0) 55 48)
    metaRec := if op = 0xD3 then capturedRec k (bits (wordAt words 2) 63 56) else []
    destTile := 0, srcTile := 0, pc := pc, faulted := false, ended := false, released := false, marks := none, seq := g.stepSeq, part := [], endDetail := (0, 0) }

/-- The registers of a range of n uniform registers. -/
def uRange (a : UReg) (n : Nat) : List UReg := (List.range n).map fun i => ⟨(a.val + i) % 64, Nat.mod_lt _ (by decide)⟩

/-- Issue a copy command (R348, R353). -/
def Gang.copyIssue (c : Gang) (s : State) (cmd : CopyCmd) (full : Bool) : Result :=
  if cpLimit ≤ c.g.copies.length then .stay s true
  else if c.writeStalls then .stay s false
  else match copyCheck s c.g cmd full (trapOf 0x02 [BitVec.ofNat 64 c.mode.toNat, BitVec.ofNat 64 c.lanes.toNat]) with
  | .error t => .trap (if t.code = 0x01 then trapIllegal (bits (wordAt t.detail 0) 39 32) c.prefixed c.lanes else t)
  | .ok () => .done (s.modGroup c.gid fun g => { g with copies := g.copies ++ [cmd], stepSeq := g.stepSeq + 1 })

/-- A copy with the MODE fields of R350. -/
def copyOp (i : Instr) (op : Nat) (a : UReg) (s : State) : Host.Outcome State Fault Refusal :=
  issue i s { u := uRange a 3 } fun c =>
    c.copyIssue s (newCopy c.k c.g op (c.three a) (modeRnd c.mode) (modeSat c.mode) (modeFtz c.mode) 0 [] c.run.pc) true

/-- `CPY`. -/
def execCpy (a : UReg) (s : State) : Host.Outcome State Fault Refusal := copyOp (.cpy a) 0xD0 a s

/-- `CPYO` (R349, R353, R354): row i is lane i's, at its lane offset. -/
def execCpyo (a : UReg) (b : Src) (s : State) : Host.Outcome State Fault Refusal :=
  issue (.cpyo a b) s { regs := srcRegs b, u := uRange a 3 } fun c =>
    let words := c.three a
    let rows := bits (wordAt words 0) 47 32
    let need := maskOf 8 fun i => decide (i * c.k.perSlice < rows) && !(c.g.slice i).gone c.k.fullMask
    c.copyIssue s (newCopy c.k c.g 0xD1 words (modeRnd c.mode) (modeSat c.mode) (modeFtz c.mode) c.lanes ((List.range 32).map fun l => BitVec.ofNat 32 ((c.opndRaw false b).at l)) c.run.pc)
      (decide (need &&& ~~~c.run.slices = 0))

/-- `CPYG` (R352, R358). -/
def execCpyg (a : UReg) (s : State) : Host.Outcome State Fault Refusal :=
  issue (.cpyg a) s { u := uRange a 3 } fun c => c.copyIssue s (newCopy c.k c.g 0xD2 (c.three a) 0 false false 0 [] c.run.pc) true

/-- `CPYS` (R357). -/
def execCpys (a : UReg) (s : State) : Host.Outcome State Fault Refusal := copyOp (.cpys a) 0xD3 a s
/-- `CPYT`. -/
def execCpyt (a : UReg) (s : State) : Host.Outcome State Fault Refusal := copyOp (.cpyt a) 0xD4 a s

/-- The save record of a command (R362). -/
def saveRecord (c : CopyCmd) : List W64 :=
  [wordAt c.words 0, wordAt c.words 1, wordAt c.words 2,
   BitVec.ofNat 64 (c.opcode.toNat * 2 ^ 56 + c.rnd.toNat * 2 ^ 53 + (if c.sat then 2 ^ 52 else 0) + (if c.ftz then 2 ^ 51 else 0) +
     (if c.acqdone then 2 ^ 50 else 0) + c.done % 2 ^ 48)]

/-- The writes of `ENGSV`. -/
def engsvWrites (score : Bool) (d : UReg) (l : List W64) : List RegWrite :=
  (List.range 4).map fun i => .u ⟨(d.val + i) % 64, Nat.mod_lt _ (by decide)⟩ (wordAt l i) (scoreB score b16Exact)

/-- The oldest command that `ENGSV` takes, where it does not wait first for one ahead of it (R362). -/
def engsvReady (g : Group) : Bool := match g.copies with
  | [] => true
  | c :: _ => decide (c.opcode ≠ 0xD1) && decide (c.opcode ≠ 0x77)

/-- `ENGSV` takes the oldest command (R362); where that one has ended early, its trap is still to be taken (R361). -/
def takeCopy (s : State) (gid : Nat) (d : UReg) : State :=
  match s.group? gid with
  | none => s
  | some g =>
    let score := (s.kernel g.kernel).score
    match g.copies with
    | [] => s.setGroup gid (g.landAll score g.runId (engsvWrites score d [0, 0, 0, 0]))
    | c :: _ => (dropCopy s gid).modGroup gid fun g =>
      { g with asyncTraps := if c.ended then g.asyncTraps ++ [trapCopy c] else g.asyncTraps }.landAll score g.runId (engsvWrites score d (saveRecord c))

/-- `ENGSV`: it stalls its run until a `CPYO` or `DECHT` ahead of it is done (R362). -/
def execEngsv (d : UReg) (s : State) : Host.Outcome State Fault Refusal :=
  issue (.engsv d) s { u := uRange d 4 } fun c => if engsvReady c.g then .done (takeCopy s c.gid d) else .stay s false

/-- `ENGRS` (R363). -/
def execEngrs (a : UReg) (s : State) : Host.Outcome State Fault Refusal :=
  issue (.engrs a) s { u := uRange a 4 } fun c =>
    let w3 := (c.view.uni ⟨(a.val + 3) % 64, Nat.mod_lt _ (by decide)⟩).1
    let op := bits w3 63 56
    if bits w3 49 48 ≠ 0 then c.illegal 1
    else if op = 0 then .done s
    else if (op ≠ 0xD0 ∧ op ≠ 0xD2 ∧ op ≠ 0xD3 ∧ op ≠ 0xD4) ∨ 5 < bits w3 55 53 then c.illegal 1
    else
      let cmd := newCopy c.k c.g op (c.three a) (bits w3 55 53) (bit w3 52) (bit w3 51) 0 [] c.run.pc
      c.copyIssue s { cmd with acqdone := bit w3 50, done := bits w3 47 0 } true

end Sys2Proof.Machine
end

