-- ==== Sys2Proof/Machine/MatCalc.lean ====
section
/-! DEFINITION. The arithmetic of the matrix array and of its magnitude array (R369–R381). -/

namespace Sys2Proof.Machine

/-! ### Classes and shapes (R369–R372) -/

/-- The classes of R369. -/
inductive MClass where
  | f64 | f32 | f16 | fp8 | int8 | fp4
  deriving DecidableEq, Repr

/-- The class that the element formats of A and B form. -/
def classOf (a b : Ty) : Option MClass :=
  let i8 (t : Ty) : Bool := t.isInt && decide (t.w = 8)
  let fp8 (t : Ty) : Bool := decide (t.kind = .flt .e4m3) || decide (t.kind = .flt .e5m2)
  let fp4 (t : Ty) : Bool := decide (t.kind = .flt .e3m2) || decide (t.kind = .flt .e2m3) || decide (t.kind = .flt .e2m1)
  if a.kind = .flt .f64 ∧ b.kind = .flt .f64 then some .f64
  else if a.kind = .flt .f32 ∧ b.kind = .flt .f32 then some .f32
  else if (a.kind = .flt .f16 ∧ b.kind = .flt .f16) ∨ (a.kind = .flt .bf16 ∧ b.kind = .flt .bf16) then some .f16
  else if fp8 a && fp8 b then some .fp8
  else if i8 a && i8 b then some .int8
  else if fp4 a && fp4 b then some .fp4
  else none

/-- K of a class. -/
def classK (c : MClass) (kh : Bool) : Nat := match c with
  | .f64 => 4
  | .f32 => 8
  | .f16 => if kh then 8 else 16
  | .fp8 | .int8 => 32
  | .fp4 => 64

/-- A format that some class takes. -/
def matFormat (t : Ty) : Bool := (classOf t t).isSome

/-- M and N of shape word 0 (R371). -/
def shapeM (w : W64) : Nat := 2 ^ (bits w 2 0 + 3)
def shapeN (w : W64) : Nat := 2 ^ (bits w 4 3 + 3)

/-- The flat index that a map gives row r and position k along K (R372). -/
def mapIndex (map : W64) (r k : Nat) : Nat := bits map 47 32 + r * bits map 15 0 + (bits map 63 48 + k) * bits map 31 16

/-- Elements to a scale, and a scale's flat index (R373). -/
def scaleBlock (sc0 : W64) : Nat := if bits sc0 1 0 = 1 then 16 else 32
def scaleIndex (w map : W64) (blk r k : Nat) : Nat := bits w 47 16 + r * bits w 63 48 + (bits map 63 48 + k) / blk

/-- Scales act on an `MMA` (R373). -/
def scalesApply (c : MClass) (sc0 : W64) : Bool := decide (bits sc0 1 0 ≠ 0) && (decide (c = .fp8) || decide (c = .fp4))

/-! ### Operands (R377) -/

/-- An operand element: its value after negation and scaling, its bound, and what reading it raised. -/
structure MOpd where
  v : Val
  snan : Bool
  β : Bnd
  inv : Bool
  openRow : Bool
  int : Int

/-- One operand element from raw bits, its bound, and its scale. -/
def mOpd (t : Ty) (ftz neg : Bool) (sc : ScaleRead) (x : Nat) (β : B16) : MOpd :=
  match t.kind with
  | .flt f =>
    let a := fArg f ftz false neg false β x
    match sc with
    | some (e, βs) =>
      if e = 255 then { v := .nan false false, snan := false, β := a.β, inv := true, openRow := scaleOpen (some (e, βs)), int := 0 }
      else { v := scaleVal ((e : Int) - 127) a.v, snan := a.snan, β := a.β, inv := false, openRow := scaleOpen (some (e, βs)), int := 0 }
    | none => { v := a.v, snan := a.snan, β := a.β, inv := false, openRow := false, int := 0 }
  | .sint | .uint | .b16 =>
    let n := t.num x
    { v := .fin false 0, snan := false, β := Bnd.of β, inv := false, openRow := false, int := if neg then -n else n }

/-! ### The code domain (R380) -/

/-- The value of a code relative to a reference exponent. -/
def codeVal (r : Int) (c : Nat) : Rat :=
  let e := c / 4
  let f := c % 4
  if e = 0 then pow2 (r - 63) * f / 4 else pow2 (r - 63 + e) * (1 + (f : Rat) / 4)

/-- The least code at or above a value, `none` above the largest. -/
def codeUp (r : Int) (q : Rat) : Option Nat :=
  if q ≤ 0 then some 0
  else
    let u := q / pow2 (r - 63)
    if u ≤ 3 / 4 then some (4 * u).ceil.toNat
    else if u ≤ 2 then some 4
    else
      let e := floorLog2 u
      let f := ((u / pow2 e - 1) * 4).ceil.toNat
      let c := 4 * e.toNat + f
      if 256 ≤ c then none else some c

/-- Add a value to a code, each rounded up. -/
def codeAdd (r : Int) (c : Option Nat) (q : Rat) : Option Nat :=
  match c, codeUp r q with
  | some a, some b => codeUp r (codeVal r a + codeVal r b)
  | _, _ => none

/-- Add two codes. -/
def codeSum (r : Int) (a b : Option Nat) : Option Nat :=
  match a, b with
  | some a, some b => codeUp r (codeVal r a + codeVal r b)
  | _, _ => none

/-- The larger of two codes. -/
def codeMax (a b : Option Nat) : Option Nat :=
  match a, b with
  | some a, some b => some (max a b)
  | _, _ => none

/-! ### One accumulator element (R376, R378, R379) -/

/-- An element in progress: its cell, its partial sum, its magnitude code, its flags, and whether all has been finite. -/
structure MElem where
  c : Nat
  s : Val
  e : Option Nat
  fl : BitVec 9
  ok : Bool

/-- Width of the partial sum at a tier (R135, R376). -/
def tierBits (tier : Nat) : Nat := if tier = 0 then 34 else if tier = 1 then 24 else 16

/-- cut(v, w) of R376. -/
def cutSig (w : Nat) (q : Rat) : Rat :=
  let m := ratAbs q
  if m = 0 then 0
  else
    let u := pow2 (floorLog2 m - (w - 1))
    let t : Rat := (m / u).floor * u
    if q < 0 then -t else t

/-- Add an exact product to a partial sum: the sum, and invalid. -/
def sumProduct (s : Val) (p : Exact) : Val × Bool :=
  match s, p with
  | .nan a b, .nan iv => (.nan a b, iv)
  | .nan a b, _ => (.nan a b, false)
  | _, .nan iv => (.nan false false, iv)
  | .inf a, .inf b => if a = b then (.inf a, false) else (.nan false false, true)
  | .inf a, .real _ _ => (.inf a, false)
  | .fin _ _, .inf b => (.inf b, false)
  | .fin n m, .real q _ => (Val.ofReal (Val.real (.fin n m) + q) false, false)

/-- A partial sum as an exact addend. -/
def addend (c : Val) (csnan : Bool) (p : Exact) (zneg : Bool) : Exact :=
  match c, p with
  | .nan _ _, .nan iv => .nan (iv || csnan)
  | .nan _ _, _ => .nan csnan
  | _, .nan iv => .nan iv
  | .inf a, .inf b => if a = b then .inf a else .nan true
  | .inf a, .real _ _ => .inf a
  | .fin _ _, .inf b => .inf b
  | .fin n m, .real q z => .real (Val.real (.fin n m) + q) (zneg && n && z)

/-- Round a cell's sum: the new cell, flags, its error for ρ, and whether it is finite (R376, R379). -/
def promote (f : Fmt) (sat ftz : Bool) (c : Nat) (p : Exact) : Nat × BitVec 9 × Rat × Bool :=
  let v := f.decode c
  match addend v v.isSnan p (decide (f = .f64)) with
  | .nan iv => (f.canonicalNan, flagIf iv flInvalid, 0, false)
  | .inf n =>
    let (w, fl) := writeSpecial f sat (.inf n)
    (f.bitsOf w true, fl, 0, false)
  | .real q z =>
    let r := roundFmt f 0 sat ftz (if q = 0 then z else decide (q < 0)) (ratAbs q)
    (f.bitsOf r.val true, r.flags, r.rnd + r.flush, r.val.isFinite)

/-- A partial sum as an exact value. -/
def exactOf : Val → Exact
  | .nan _ _ => .nan false
  | .inf n => .inf n
  | .fin n m => .real (Val.real (.fin n m)) false

/-- What the magnitude array needs of a row: its reference exponent and operand bounds; `none` where the row is not
tracked in codes. -/
abbrev MBounds := Option (Int × Rat × Rat)

/-- The code of the terms of one product under R379. -/
def termCode (mb : MBounds) (u : Option Nat) (x y : MOpd) : Option Nat :=
  match mb with
  | none => u
  | some (r, βA, βB) => codeAdd r (codeAdd r (codeAdd r u (ratAbs x.v.real * βB)) (βA * ratAbs y.v.real)) (βA * βB)

/-- One round of adding neighbouring codes. -/
def codePairs (r : Int) : List (Option Nat) → List (Option Nat)
  | a :: b :: l => codeSum r a b :: codePairs r l
  | l => l

/-- The sum of a list of codes, in pairs: neighbours first, then neighbouring sums, for at most `fuel` rounds (DEDUCED, log 18: a
running sum along k would give 0x8A00 where R470 states 0x8900). -/
def codeTree (r : Int) : Nat → List (Option Nat) → Option Nat
  | 0, l => l.foldl (codeSum r) (some 0)
  | fuel + 1, l => match l with
    | [] => some 0
    | [a] => a
    | l => codeTree r fuel (codePairs r l)

/-- The terms of R379 over the products of an element, summed in pairs. -/
def termSum (mb : MBounds) (kk : Nat) (x y : Nat → MOpd) : Option Nat := match mb with
  | none => some 0
  | some (r, _, _) => codeTree r 8 ((List.range (4 * kk)).map fun k => termCode mb (some 0) (x k) (y k))

/-- Add an error to a code. -/
def errCode (mb : MBounds) (u : Option Nat) (q : Rat) : Option Nat := match mb with
  | none => u
  | some (r, _, _) => codeAdd r u q

/-- One k-step: four products (R376). Its errors join the element's code. -/
def kStep (w : Nat) (mb : MBounds) (x y : Nat → MOpd) (t : Nat) (m : MElem) : MElem :=
  (List.range 4).foldl (fun (m : MElem) q =>
    let a := x (4 * t + q)
    let b := y (4 * t + q)
    let (s, iv) := sumProduct m.s (mulExact a.v b.v (a.snan || b.snan))
    let fl := m.fl ||| flagIf iv flInvalid
    match s with
    | .fin n v =>
      let q := Val.real (.fin n v)
      let k := cutSig w q
      if k = q then { m with s := s, fl := fl }
      else { m with s := Val.ofReal k false, fl := fl ||| flInexact, e := errCode mb m.e (pow2 (1 - (w : Int)) * ratAbs q) }
    | v => { m with s := v, fl := fl, ok := false }) m

/-- The k-steps of an F32-accumulating element from step t0 up to t1, with promotions every Pv steps (R376). -/
def floatElem (w kk pv : Nat) (sat ftz : Bool) (mb : MBounds) (x y : Nat → MOpd) (t0 t1 : Nat) (m : MElem) : MElem :=
  ((List.range t1).drop t0).foldl (fun m t =>
    let m := kStep w mb x y t m
    if (t + 1) % pv = 0 ∨ t + 1 = kk then
      let (c, fl, err, fin) := promote .f32 sat ftz m.c (exactOf m.s)
      { c := c, s := .fin false 0, e := errCode mb m.e err, fl := m.fl ||| fl, ok := m.ok && fin }
    else m) m

/-- An F64 element: one rounding for each product (R378). -/
def wideElem (sat ftz : Bool) (mb : MBounds) (x y : Nat → MOpd) (t0 t1 : Nat) (m : MElem) : MElem :=
  ((List.range t1).drop t0).foldl (fun m t =>
    (List.range 4).foldl (fun (m : MElem) q =>
      let a := x (4 * t + q)
      let b := y (4 * t + q)
      let (c, fl, err, fin) := promote .f64 sat ftz m.c (mulExact a.v b.v (a.snan || b.snan))
      { m with c := c, fl := m.fl ||| fl, ok := m.ok && fin, e := errCode mb m.e err }) m) m

/-- An INT8 element: exact products added once for each k-step (R378). -/
def intElem (sat : Bool) (x y : Nat → MOpd) (t0 t1 : Nat) (m : MElem) : MElem :=
  ((List.range t1).drop t0).foldl (fun m t =>
    let p : Int := (List.range 4).foldl (fun a q => a + (x (4 * t + q)).int * (y (4 * t + q)).int) 0
    let v := toInt true 32 m.c + p
    { m with c := lowBits 32 (if sat then clampInt true 32 v else v) }) m

/-! ### Predictions and row bounds (R379–R381) -/

/-- Everything an `MMA` computes from: its class and shape, its operands, its cells and its old row bounds. -/
structure MIn where
  cls : MClass
  m : Nat
  n : Nat
  k : Nat
  pv : Nat
  z : Bool
  sat : Bool
  ftz : Bool
  a : Nat → Nat → MOpd
  b : Nat → Nat → MOpd
  cell : Nat → Nat → Nat
  old : Nat → B16
  untracked : Bool

/-- The accumulator's float format. -/
def MIn.fmt (x : MIn) : Fmt := if x.cls = .f64 then .f64 else .f32
/-- k-steps. -/
def MIn.kk (x : MIn) : Nat := x.k / 4

/-- The cell an element starts from, and the magnitude that flushing it lost (R376, R121). -/
def MIn.start (x : MIn) (i j : Nat) : Nat × Rat :=
  if x.z then (0, 0)
  else if x.cls = .int8 then (x.cell i j, 0)
  else
    let c := x.cell i j
    match flushIn x.fmt x.ftz (x.fmt.decode c) with
    | (v, lost) => if lost = 0 then (c, 0) else (x.fmt.bitsOf v true, lost)

/-- The largest bound of A's row i, and of all of B (R379). -/
def MIn.βA (x : MIn) (i : Nat) : Bnd := (List.range x.k).foldl (fun b k => b.max (x.a i k).β) (.fin 0)
def MIn.βB (x : MIn) : Bnd := (List.range x.n).foldl (fun b j => (List.range x.k).foldl (fun b k => b.max (x.b k j).β) b) (.fin 0)

/-- Every operand and starting cell of a row is finite, and no scale opens the row. -/
def MIn.finiteRow (x : MIn) (i : Nat) : Bool :=
  (List.range x.k).all (fun k => (x.a i k).v.isFinite && !(x.a i k).openRow) &&
    (List.range x.n).all fun j => (List.range x.k).all (fun k => (x.b k j).v.isFinite && !(x.b k j).openRow) &&
      (x.cls = .int8 || (x.fmt.decode (x.start i j).1).isFinite)

/-- The whole row is written under Z (R379). -/
def MIn.full (x : MIn) : Bool := x.z && decide (x.n = 32)

/-- The old bound joined with m (R379). -/
def MIn.join (x : MIn) (old m : Bnd) : Bnd := if x.full then m else if x.z then old.max m else old.add m

/-- What stands for ρ(i, j) in the prediction at a tier: ρ̂ of R381, and what flushing the cell lost (R121). -/
def MIn.rhoHat (x : MIn) (i j tier : Nat) : Rat :=
  let S := (List.range x.k).foldl (fun a k => a + ratAbs (x.a i k).v.real * ratAbs (x.b k j).v.real) 0
  let (c, lost) := x.start i j
  let a0 := if x.z then 0 else ratAbs (x.fmt.decode c).real
  let np : Rat := ((x.kk + x.pv - 1) / x.pv : Nat)
  let ρ : Rat := if x.cls = .f64 then 4 * x.kk * (pow2 (-52) * (a0 + S) + pow2 (-1074))
    else 4 * (min x.pv x.kk : Nat) * pow2 (1 - (tierBits tier : Int)) * S + np * (pow2 (-23) * (a0 + S) + pow2 (-149))
  ρ + lost

/-- The exact value of a row's prediction at a tier, from which its reference exponent follows (R380, R381). -/
def MIn.guess (x : MIn) (i tier : Nat) : Bnd :=
  let βA := x.βA i
  let βB := x.βB
  let old := Bnd.of (x.old i)
  if βA = .untr ∨ βB = .untr ∨ (old = .untr ∧ !x.full) then .untr
  else if !x.finiteRow i then .unb
  else
    let sum (f : Nat → Rat) : Rat := (List.range x.k).foldl (fun a k => a + f k) 0
    let at_ (j : Nat) : Bnd :=
      (((Bnd.scale (sum fun k => ratAbs (x.a i k).v.real) βB).add (Bnd.scale (sum fun k => ratAbs (x.b k j).v.real) βA)).add
        (Bnd.scale x.k (βA.mul βB))).add (.fin (x.rhoHat i j tier))
    x.join old ((List.range x.n).foldl (fun m j => m.max (at_ j)) (.fin 0))

/-- One more than the exponent of a bound as R124 gives it; `none` where the bound is not finite. -/
def refExp (b : B16) : Option Int := if b.toNat / 256 = 255 then none else some ((max 1 (b.toNat / 256) : Nat) - 126)

/-- A row's bound in the code domain from the codes of its elements, joined with the old bound (R379, R380). -/
def MIn.rowCode (x : MIn) (r : Int) (i : Nat) (es : List (Option Nat)) : B16 :=
  let m := es.foldl codeMax (some 0)
  let o : Option Nat := match Bnd.of (x.old i) with
    | .fin q => codeUp r q
    | .unb | .untr => none
  match (if x.full then m else if x.z then codeMax o m else codeSum r o m) with
  | some c => roundUpB16 (codeVal r c)
  | none => b16Unbounded

/-- The prediction for a row at a tier, evaluated in the code domain (R381): about the exact prediction's exponent, as the row's own
terms are summed. -/
def MIn.predict (x : MIn) (i tier : Nat) : B16 :=
  match x.guess i tier, x.βA i, x.βB with
  | .fin q, .fin a, .fin b => (match refExp (roundUpB16 q) with
    | none => b16Unbounded
    | some r => x.rowCode r i ((List.range x.n).map fun j =>
        codeAdd r (termSum (some (r, a, b)) x.kk (x.a i) fun k => x.b k j) (x.rhoHat i j tier)))
  | .untr, _, _ => b16Untracked
  | _, _, _ => b16Unbounded

/-- The tier of an `MMA` (R139, R381). -/
def MIn.tier (x : MIn) (modeTier : Nat) (budget : B16) : Nat :=
  if x.cls = .f64 ∨ x.cls = .int8 then 0
  else if modeTier ≠ 0 then modeTier - 1
  else if x.untracked then 1
  else
    let fits (t : Nat) : Bool := (List.range x.m).all fun i => !exceeds (x.predict i t) budget
    if fits 2 then 2 else if fits 1 then 1 else 0

/-- Where a row of a resumed `MMA` stands: the k-step it goes on from, its partial sums and codes, and its reference exponent, `none`
where its bound is already beyond the codes. -/
structure MResume where
  t0 : Nat
  s : Nat → Val
  e : Nat → Nat
  r : Option Int

/-- A row in progress or computed: its elements, and its reference exponent where its bound is followed in codes. -/
structure MWork where
  es : List MElem
  r : Option Int

/-- A computed row: cells, flags, and the new row bound. -/
structure MRow where
  cells : List Nat
  fl : BitVec 9
  bnd : B16

/-- A row's bound is untracked whatever it computes (R379). -/
def MIn.untrRow (x : MIn) (i : Nat) : Bool :=
  x.untracked || decide (x.βA i = .untr) || decide (x.βB = .untr) || (decide (Bnd.of (x.old i) = .untr) && !x.full)

/-- A row's elements up to k-step t1 at a tier (R376–R380). An element that has not been promoted still starts from its cell, or from +0. -/
def MIn.work (x : MIn) (tier i : Nat) (res : Option MResume) (t1 : Nat) : MWork :=
  let r : Option Int := if x.untrRow i || decide (x.cls = .int8) then none else match res with
    | some m => m.r
    | none => refExp (x.predict i tier)
  let mb : MBounds := match r, x.βA i, x.βB with
    | some r, .fin a, .fin b => some (r, a, b)
    | _, _, _ => none
  let elem (j : Nat) : MElem :=
    let (c, lost) := x.start i j
    let (t0, m) : Nat × MElem := match res with
      | some m =>
        let promoted := decide (x.cls = .f64) || decide (x.cls = .int8) || decide (x.pv ≤ m.t0)
        (m.t0, { c := if promoted then x.cell i j else c, s := m.s j, e := some (m.e j), fl := 0, ok := true })
      | none => (0, { c := c, s := .fin false 0, e := errCode mb (some 0) lost, fl := 0, ok := true })
    let y (k : Nat) : MOpd := x.b k j
    if x.cls = .int8 then intElem x.sat (x.a i) y t0 t1 m
    else if x.cls = .f64 then wideElem x.sat x.ftz mb (x.a i) y t0 t1 m
    else floatElem (tierBits tier) x.kk x.pv x.sat x.ftz mb (x.a i) y t0 t1 m
  { es := (List.range x.n).map elem, r := mb.map (·.1) }

/-- The flags of a row's elements, and of its operands (R383). -/
def MIn.rowFlags (x : MIn) (i : Nat) (es : List MElem) : BitVec 9 :=
  let inv := (List.range x.k).any (fun k => (x.a i k).inv) || (List.range x.n).any fun j => (List.range x.k).any fun k => (x.b k j).inv
  es.foldl (fun f e => f ||| e.fl) (flagIf inv flInvalid)

/-- Compute a row at a tier (R376–R380). -/
def MIn.row (x : MIn) (tier i : Nat) (res : Option MResume) : MRow :=
  let w := x.work tier i res x.kk
  let bnd : B16 :=
    if x.untracked then b16Untracked
    else if x.cls = .int8 then
      intBound false ((List.range x.k).map (fun k => (x.a i k).β.toB16) ++
        ((List.range x.n).flatMap fun j => (List.range x.k).map fun k => (x.b k j).β.toB16) ++ (if x.z then [] else [x.old i]))
    else if x.untrRow i then b16Untracked
    else match w.r, x.βA i, x.βB with
    | some r, .fin a, .fin b =>
      if !x.finiteRow i || !(w.es.all fun e => e.ok) then b16Unbounded
      else x.rowCode r i (w.es.zipIdx.map fun (e, j) => codeSum r e.e (termSum (some (r, a, b)) x.kk (x.a i) fun k => x.b k j))
    | _, _, _ => b16Unbounded
  { cells := w.es.map (·.c), fl := x.rowFlags i w.es, bnd := bnd }

end Sys2Proof.Machine
end

