-- ==== Sys2Proof/Machine/Matrix.lean ====
section
/-! DEFINITION. Matrix instructions, the matrix queue and accumulators (R366–R396). -/

namespace Sys2Proof.Machine

/-! ### The unit and its store (R366–R370) -/

/-- The entries a matrix queue holds. -/
def queueLimit : Nat := 16

/-- The core whose unit performs a group's matrix instructions (R368, R391). -/
def leader (k : Kernel) (g : Group) : Nat := if k.pair || k.prot then g.core / 2 * 2 else g.core

/-- Rows that exist in an accumulator (R384, R391). -/
def accRows (k : Kernel) : Nat := if k.pair && !k.prot then 256 else 128

/-- The core and row that hold row i. -/
def accPlace (lead i : Nat) : Nat × Nat := (lead + i / 128, i % 128)

/-- A cell of accumulator n. -/
def accCell (s : State) (lead n i j : Nat) : Nat :=
  let (c, r) := accPlace lead i
  ((KMap.get? (s.core c).acc (n * 4096 + r * 32 + j)).getD 0).toNat
def setAccCell (s : State) (lead n i j v : Nat) : State :=
  let (c, r) := accPlace lead i
  let core := s.core c
  let key := n * 4096 + r * 32 + j
  s.setCore c { core with acc := if v % 2 ^ 32 = 0 then KMap.erase core.acc key else KMap.set core.acc key (BitVec.ofNat 32 v) }
/-- A row bound of accumulator n. -/
def accBound (s : State) (lead n i : Nat) : B16 :=
  let (c, r) := accPlace lead i
  (KMap.get? (s.core c).rowBound (n * 128 + r)).getD b16Exact
def setAccBound (s : State) (lead n i : Nat) (b : B16) : State :=
  let (c, r) := accPlace lead i
  let core := s.core c
  let key := n * 128 + r
  s.setCore c { core with rowBound := if b = b16Exact then KMap.erase core.rowBound key else KMap.set core.rowBound key b }
/-- A poisoned row (R441). -/
def accPoisoned (s : State) (lead n i : Nat) : Bool :=
  let (c, r) := accPlace lead i
  (s.core c).accPoison.contains (n * 128 + r)
def poisonRow (s : State) (lead n i : Nat) : State :=
  let (c, r) := accPlace lead i
  let core := s.core c
  s.setCore c { core with accPoison := (n * 128 + r) :: core.accPoison.filter fun x => x ≠ n * 128 + r }

/-- An F64 element lies in two cells of a pair of accumulators (R370). -/
def accElem (s : State) (lead n i j : Nat) (wide : Bool) : Nat :=
  if wide then accCell s lead (n + j / 16) i (2 * (j % 16)) + 2 ^ 32 * accCell s lead (n + j / 16) i (2 * (j % 16) + 1)
  else accCell s lead n i j
def setAccElem (s : State) (lead n i j : Nat) (wide : Bool) (v : Nat) : State :=
  if wide then setAccCell (setAccCell s lead (n + j / 16) i (2 * (j % 16)) v) lead (n + j / 16) i (2 * (j % 16) + 1) (v / 2 ^ 32)
  else setAccCell s lead n i j v
/-- A row bound written to both accumulators of an F64 pair. -/
def setAccBounds (s : State) (lead n i : Nat) (wide : Bool) (b : B16) : State :=
  let s := setAccBound s lead n i b
  if wide then setAccBound s lead (n + 1) i b else s

/-- The rows that hold a row: itself, and in protected mode its shadow on the odd core (R391). -/
def withShadow (k : Kernel) (i : Nat) : List Nat := if k.prot then [i, i + 128] else [i]

/-! ### Shape and scale (R371, R373) -/

/-- The words of `MSHAPE` are legal. -/
def shapeWordOk (w : W64) : Bool := decide (bits w 63 11 = 0) && decide (bits w 4 3 ≤ 2) && decide (bits w 2 0 ≤ 5) && decide (bits w 8 6 ≤ 4)
/-- The words of `MSCALE` are legal. -/
def scaleWordsOk (w : List W64) : Bool :=
  decide (bits (wordAt w 0) 63 2 = 0) && decide (bits (wordAt w 0) 1 0 ≠ 3) && decide (bits (wordAt w 1) 15 5 = 0) && decide (bits (wordAt w 2) 15 5 = 0)

/-- A record whose old words later runs may still use for 4 clocks. -/
def Gang.remember (c : Gang) (v : Version) : List Unsettled := keepOld c.g.unsettled v (c.view.clock + 4) c.view.run

/-- `MSHAPE`. -/
def execMshape (a : UReg) (s : State) : Host.Outcome State Fault Refusal :=
  issue (.mshape a) s { u := uRange a 3 } fun c =>
    if c.lanes = 0 then .done s
    else
      let w := c.three a
      if !shapeWordOk (wordAt w 0) then c.illegal 1
      else .done (s.setGroup c.gid { c.g with shape := w, unsettled := c.remember (.shape c.g.shape) })

/-- `MSCALE`. -/
def execMscale (a : UReg) (s : State) : Host.Outcome State Fault Refusal :=
  issue (.mscale a) s { u := uRange a 3 } fun c =>
    if c.lanes = 0 then .done s
    else
      let w := c.three a
      if !scaleWordsOk w then c.illegal 1
      else .done (s.setGroup c.gid { c.g with scale := w, unsettled := c.remember (.scale c.g.scale) })

/-! ### MMA: fields and checks (R374, R375) -/

def mmaAcc (w : W32) : Nat := bits w 23 20
def mmaA (w : W32) : TileNo := ⟨bits w 19 15 % 32, Nat.mod_lt _ (by decide)⟩
def mmaB (w : W32) : TileNo := ⟨bits w 14 10 % 32, Nat.mod_lt _ (by decide)⟩
def mmaPair (w : W32) : Bool := bit w 2
def scaleTile (w : W64) : TileNo := ⟨bits w 4 0 % 32, Nat.mod_lt _ (by decide)⟩

/-- The class, M, N and K of a checked `MMA`. -/
structure MPlan where
  cls : MClass
  m : Nat
  n : Nat
  k : Nat

/-- The checks of R375, in order. -/
def mmaCheck (s : State) (g : Group) (word : W32) (shape scale : List W64) (mode : BitVec 24) (lanes : BitVec 32) : Except TrapInfo MPlan :=
  let kn := s.kernel g.kernel
  let w0 := wordAt shape 0
  let ta := s.tile g.team (mmaA word)
  let tb := s.tile g.team (mmaB word)
  let cls := ta.bind fun a => tb.bind fun b => classOf (tileTy a.desc) (tileTy b.desc)
  let m := shapeM w0
  let n := shapeN w0
  let pair := mmaPair word
  let illegal (c : Nat) : Except TrapInfo MPlan := .error (trapIllegal c 0 lanes)
  if bits word 1 0 ≠ 0 ∨ 5 ≤ bits word 5 3 then illegal 1
  else if pair && (!kn.pair || kn.prot) then illegal 1
  else if pair != decide (m = 256) then illegal 1
  else if cls = some .f64 ∧ mmaAcc word % 2 = 1 then illegal 2
  else if bit w0 5 && (match cls with
    | some c => decide (c ≠ .f16)
    | none => false) then illegal 1
  else
    let fmtBad (t : Option Tile) : Bool := match t with
      | some x => !matFormat (tileTy x.desc)
      | none => false
    let both := ta.isSome && tb.isSome
    let scaled := match cls with
      | some c => scalesApply c (wordAt scale 0)
      | none => false
    let st (i : Nat) : Option Tile := s.tile g.team (scaleTile (wordAt scale i))
    let scBad (t : Option Tile) : Bool := match t with
      | some x => decide ((tileTy x.desc).kind ≠ .flt .e8m0)
      | none => false
    if fmtBad ta || fmtBad tb || (both && cls.isNone) || (scaled && (scBad (st 1) || scBad (st 2))) then
      .error (trapOf 0x02 [BitVec.ofNat 64 mode.toNat, BitVec.ofNat 64 lanes.toNat])
    else match ta, tb, cls with
    | some a, some b, some cls =>
      let k := classK cls (bit w0 5)
      if scaled && ((st 1).isNone || (st 2).isNone) then .error (trapTile 0 lanes 0)
      else
        let big (t : Tile) (i : Nat) : Option Nat := if tileRows t.desc * tileCols t.desc ≤ i then some i else none
        let blk := scaleBlock (wordAt scale 0)
        let sbig (i map rows : Nat) (mw : W64) : Option Nat := if scaled then (st i).bind fun t => big t (scaleIndex (wordAt scale i) mw blk (rows - 1) (k - 1 + map)) else none
        match [big a (mapIndex (wordAt shape 1) (m - 1) (k - 1)), big b (mapIndex (wordAt shape 2) (n - 1) (k - 1)),
            sbig 1 0 m (wordAt shape 1), sbig 2 0 n (wordAt shape 2)].filterMap id with
        | i :: _ => .error (trapTile 1 lanes i)
        | [] =>
          if pair && (!tilePair a.desc || !tilePair b.desc) then .error (trapTile 3 lanes 0)
          else .ok { cls := cls, m := m, n := n, k := k }
    | _, _, _ => .error (trapTile 0 lanes 0)

/-! ### The queue (R366, R389) -/

/-- An entry joins the queue of a core. -/
def pushEntry (s : State) (lead : Nat) (e : MEntry) : State :=
  let core := s.core lead
  s.setCore lead { core with mq := core.mq ++ [e] }

/-- A batched entry joins the group's open batch, with its release. -/
def joinBatch (g : Group) (rel : Bool) (scope : Scope) (pc : W64) : Group :=
  let b := g.openBatch
  { g with openBatch :=
      { b with open_ := b.open_ + 1, relNeeded := b.relNeeded || rel, seq := g.stepSeq, pc := if rel then pc else b.pc
               relScope := if rel && decide (scopeCode b.relScope < scopeCode scope) then scope else b.relScope } }

/-- An entry that retires leaves its batch: the oldest batch that still waits, else the open one. -/
def leaveBatch (g : Group) : Group :=
  let rec go : List Batch → List Batch × Bool
    | [] => ([], false)
    | b :: t => if b.open_ ≠ 0 then ({ b with open_ := b.open_ - 1 } :: t, true) else
      let (t, hit) := go t
      (b :: t, hit)
  let (mx, hit) := go g.mx
  if hit then { g with mx := mx } else { g with openBatch := { g.openBatch with open_ := g.openBatch.open_ - 1 } }

/-- An entry that is withdrawn or refused leaves the batch it joined: its run is held, so that batch is still open (R385, R394). -/
def leaveOpen (g : Group) : Group := { g with openBatch := { g.openBatch with open_ := g.openBatch.open_ - 1 } }

/-- The entry of the issuing gang. -/
def Gang.entry (c : Gang) (kind : MKind) : MEntry :=
  { gid := c.gid, kind := kind, word := c.run.words.headD 0, pc := c.run.pc, slices := c.run.slices, mode := c.mode
    budget := c.view.budget (firstSlice c.run.slices), shape := c.view.shape, scale := c.view.scale, origin := 0, lanes := c.lanes, d := 0, tile := 0
    flag := none, holds := false, started := false, acqdone := false, seq := c.g.stepSeq, image := [], old := [] }

/-- A batched entry is issued; `hold` holds the run until the queue reaches it or is done with it. -/
def Gang.enqueue (c : Gang) (s : State) (e : MEntry) (rel : Bool) (scope : Scope) (hold : Bool) : Result :=
  let s := (pushEntry s (leader c.k c.g) { e with holds := hold }).modGroup c.gid fun g =>
    { joinBatch g rel scope c.run.pc with stepSeq := g.stepSeq + 1 }
  if hold then .held s .matrix else .done s

/-- Issue an `MMA` word: its checks, and its entry in the queue (R366, R375). -/
def Gang.mmaIssue (c : Gang) (s : State) (word : W32) : Result :=
    if c.writeStalls then .stay s false
    else if queueLimit ≤ (s.core (leader c.k c.g)).mq.length then .stay s true
    else
      let e := { c.entry .mma with word := word }
      match mmaCheck s c.g e.word e.shape e.scale c.mode c.lanes with
      | .error t => .trap t
      | .ok _ =>
        let w0 := wordAt e.shape 0
        c.enqueue s e (bit w0 10) (scopeOf (bits w0 8 6)) (decide (modeBnd c.mode = 2))

/-- `MMA` (R375–R383). -/
def execMma (acc : Fin 16) (hA hB : TileNo) (na nb z r : Bool) (p : BitVec 3) (pair : Bool) (s : State) : Host.Outcome State Fault Refusal :=
  issue (.mma acc hA hB na nb z r p pair) s {} fun c => if c.lanes = 0 then .done s else c.mmaIssue s (c.run.words.headD 0)

/-- `ACCZ` (R386). -/
def execAccz (mask : BitVec 16) (s : State) : Host.Outcome State Fault Refusal :=
  issue (.accz mask) s {} fun c =>
    if c.lanes = 0 then .done s
    else if c.writeStalls then .stay s false
    else if queueLimit ≤ (s.core (leader c.k c.g)).mq.length then .stay s true
    else c.enqueue s { c.entry .accz with d := mask.toNat } false .grp false

/-- The types of `ACCRD` and `ACCWR`: whether F64. -/
def accTy (mode : BitVec 24) : Option Bool := match tyOf (modeType mode) with
  | some t =>
    if t.kind = .flt .f64 then some true
    else if t.kind = .flt .f32 ∨ (t.isInt ∧ t.w = 32) then some false
    else none
  | none => none

/-- The checks of `ACCRD` and `ACCWR` on origin, rows and accumulator (R384): the cause of trap 0x01. -/
def accCheck (k : Kernel) (wide : Bool) (acc : Nat) (origin : W64) (count : Nat) : Option Nat :=
  if wide ∧ acc % 2 = 1 then some 2
  else if bits origin 63 32 ≠ 0 ∨ 31 < bits origin 31 16 ∨ accRows k < bits origin 15 0 + count then some 1
  else none

/-- Register r of the range of `ACCRD` and `ACCWR`. -/
def accReg (d : VFirst) (wide : Bool) (r : Nat) : VReg := rangeReg d (if wide then 2 * r else r)

/-- The registers of `ACCRD` and `ACCWR`. -/
def accUses (d : VFirst) (count : BitVec 4) (b : UReg) : Uses :=
  { regs := [.v d], byMode := [(.v d, fun m => (count.toNat + 1) * (if wideMode m then 2 else 1))], u := [b] }

/-- The lanes of row r that `ACCRD` and `ACCWR` move. -/
def accLanes (lanes : BitVec 32) (col0 : Nat) : BitVec 32 := lanes &&& maskOf 32 fun l => decide (col0 + l < 32)

/-- What `ACCRD` writes, read now: at its issue it gives the registers and lanes alone (R384). -/
def accReads (s : State) (k : Kernel) (lead : Nat) (e : MEntry) : List RegWrite :=
  let wide := wideMode e.mode
  let acc := bits e.word 15 12
  let row0 := bits e.origin 15 0
  let col0 := bits e.origin 31 16
  let d : VFirst := ⟨e.d % 240, Nat.mod_lt _ (by decide)⟩
  (List.range (bits e.word 11 8 + 1)).flatMap fun r =>
    let β := scoreB k.score (accBound s lead acc (row0 + r))
    let o : Opnd :=
      { val := Vector.ofFn fun l : Fin 32 => BitVec.ofNat 64 (accElem s lead acc (row0 + r) ((col0 + l.val) % 32) wide), bnd := Vector.replicate 32 β }
    dstWrites wide (.reg (accReg d wide r)) o (accLanes e.lanes col0)

/-- `ACCRD` (R384). -/
def execAccrd (d : VFirst) (acc : Fin 16) (count : BitVec 4) (b : UReg) (s : State) : Host.Outcome State Fault Refusal :=
  issue (.accrd d acc count b) s (accUses d count b) fun c =>
    if c.lanes = 0 then .done s
    else match accTy c.mode with
    | none => c.badMode
    | some wide =>
        let origin := (c.view.uni b).1
        match accCheck c.k wide acc.val origin (count.toNat + 1) with
        | some n => c.illegal n
        | none =>
          let lead := leader c.k c.g
          if queueLimit ≤ (s.core lead).mq.length then .stay s true
          else
            let e := { c.entry .accrd with origin := origin, d := d.val, flag := c.nextFlag }
            let p : Pending := { kind := .accrd, flag := none, writes := accReads s c.k lead e, sticky := 0, card := none, holds := false, trap := none
                                 quarter := c.g.quarter, slices := c.run.slices, run := c.run.id, issued := c.view.serial, known := false }
            match c.launch s c.g p true false with
            | .done s => .done (pushEntry s lead e)
            | r => r

/-- `ACCWR` (R385). -/
def execAccwr (d : VFirst) (acc : Fin 16) (count : BitVec 4) (b : UReg) (s : State) : Host.Outcome State Fault Refusal :=
  issue (.accwr d acc count b) s (accUses d count b) fun c =>
    if c.lanes = 0 then .done s
    else match accTy c.mode with
    | none => c.badMode
    | some wide =>
        let origin := (c.view.uni b).1
        match accCheck c.k wide acc.val origin (count.toNat + 1) with
        | some n => c.illegal n
        | none =>
          if c.writeStalls then .stay s false
          else if queueLimit ≤ (s.core (leader c.k c.g)).mq.length then .stay s true
          else c.enqueue s { c.entry .accwr with origin := origin, d := d.val } false .grp true

/-! ### Images (R392) -/

/-- A word from byte fields, the first lowest. -/
def packBytes (f : Nat → Nat) : W64 := BitVec.ofNat 64 ((List.range 8).foldl (fun a i => a + f i % 256 * 256 ^ i) 0)

/-- How far an `MMA` has come: the rows it has completed, the k-steps of the current block, its breaches so far, and its rows in work. -/
structure MProgress where
  tier : Nat
  rows : Nat
  steps : Nat
  worst : B16
  low : Nat
  any : Bool
  mask : Nat
  /-- The current block's rows by half and place; a place without work gives zeros. -/
  work : Nat → Nat → Option MWork

/-- The save image of an entry (R392), as words: with the progress of one that had started. The codes of R380 in it are those of the errors
so far: the terms are summed again from the operands (log 17). -/
def imageOf (e : MEntry) (p : Option MProgress) : List W64 :=
  let head (n : Nat) : List W64 :=
    [BitVec.ofNat 64 (e.word.toNat + (if e.acqdone then 2 ^ 35 else 0) + n), wordAt e.shape 0, wordAt e.shape 1, wordAt e.shape 2,
     wordAt e.scale 0, wordAt e.scale 1, wordAt e.scale 2, BitVec.ofNat 64 (e.mode.toNat + e.budget.toNat * 2 ^ 24)]
  match p with
  | none => head 0 ++ List.replicate 600 0
  | some p =>
    let elem (h q j : Nat) : Option MElem := (p.work h q).bind fun w => w.es[j]?
    let r (h q : Nat) : Nat := match (p.work h q).bind fun w => if w.es.all fun e => e.ok && e.e.isSome then w.r else none with
      | some r => (r + 127).toNat
      | none => 0
    let sums (h : Nat) : List W64 := (List.range 256).map fun n => match elem h (n / 32) (n % 32) with
      | some m => BitVec.ofNat 64 (Fmt.f64.bitsOf m.s true)
      | none => 0
    let codes (h : Nat) : List W64 := (List.range 32).map fun n => packBytes fun i => ((elem h ((8 * n + i) / 32) ((8 * n + i) % 32)).bind fun m => m.e).getD 0
    head (p.tier * 2 ^ 32 + 2 ^ 34 + p.rows * 2 ^ 36 + p.steps * 2 ^ 45) ++
      [BitVec.ofNat 64 (if p.any then p.worst.toNat + p.low * 2 ^ 16 + 2 ^ 24 else 0), packBytes (r 0), packBytes (r 1)] ++ List.replicate 5 0 ++
      ((List.range 4).map fun i => BitVec.ofNat 64 (p.mask / 2 ^ (64 * i))) ++ List.replicate 12 0 ++ sums 0 ++ sums 1 ++ codes 0 ++ codes 1

/-- The image of a queue entry as it stands, or of nothing: of an `MMA` that continues an image, that image. -/
def imageWords (e : Option MEntry) : List W64 :=
  match e with
  | none => List.replicate 608 0
  | some e =>
    if e.image.isEmpty then imageOf e none
    else e.image.set 0 (BitVec.ofNat 64 (setBits (wordAt e.image 0) 35 35 (if e.acqdone then 1 else 0)).toNat)

/-- A tile too small for an image, or absent: the trap (R393). -/
def imageTrap (t : Option Tile) (lanes : BitVec 32) : Option TrapInfo := match t with
  | none => some (trapTile 0 lanes 0)
  | some x => if tileBytes x.desc < 4864 then some (trapTile 1 lanes 0) else none

/-- Word i of a tile's stream, 8 bytes to a word. -/
def tileWord64 (x : Tile) (i : Nat) : W64 := BitVec.ofNat 64 (x.word (2 * i) + 2 ^ 32 * x.word (2 * i + 1))

/-- The fields that an image marks 0 are 0, and its counts are in range (R392, R394). -/
def imageOk (l : List W64) (m kk : Nat) : Bool :=
  let a := wordAt l 0
  decide (bits a 63 49 = 0) && decide (bits a 44 36 % 8 = 0) && decide (bits a 44 36 < m ∨ (bits a 44 36 = m ∧ bits a 48 45 = 0)) && decide (bits a 48 45 < max 1 kk) &&
    decide (bits (wordAt l 7) 63 40 = 0) && decide (bits (wordAt l 8) 63 25 = 0) && decide (bits a 33 32 ≠ 3) &&
    ((List.range 5).all fun i => wordAt l (11 + i) = 0) && (List.range 12).all fun i => wordAt l (20 + i) = 0

/-- The rows that each array has completed under a save image: a pair's two arrays share its count (R390, R392). -/
def imageFirst (l : List W64) (m : Nat) : Nat := if m = 256 then bits (wordAt l 0) 44 36 / 16 * 8 else bits (wordAt l 0) 44 36

/-- The progress that a save image carries for a row (R392). -/
def resumeOf (l : List W64) (first row : Nat) : Option MResume :=
  let a := wordAt l 0
  if l.isEmpty ∨ !bit a 34 ∨ bits a 48 45 = 0 ∨ row % 128 < first ∨ first + 8 ≤ row % 128 then none
  else
    let q := row % 128 - first
    let half := row / 128
    let byte (i : Nat) : Nat := bits (wordAt l (i / 8)) (8 * (i % 8) + 7) (8 * (i % 8))
    let r := byte (0x48 + 8 * half + q)
    some { t0 := bits a 48 45, r := if r = 0 then none else some ((r : Int) - 127)
           s := fun j => Fmt.decode .f64 (wordAt l (0x20 + 256 * half + 32 * q + j)).toNat
           e := fun j => byte (0x1100 + 256 * half + 32 * q + j) }

/-! ### Performing an MMA (R376–R383, R390–R392) -/

/-- A raw element of a tile by flat index, with its bound and poison: each word of it that has changed since the `MMA` started reads as it
was or as it is, with its bound (R387). -/
def tileFlat (serial h : Nat) (old : Option Tile) (x : Tile) (i : Nat) : Nat × B16 × Bool :=
  let (r, c) := flatAt x.desc i
  let (k, _, w) := tileElem x.desc c
  let b := r * tileDw x.desc + k
  let pick (b : Nat) : Tile := match old with
    | none => x
    | some o => if o.desc ≠ x.desc then x else if o.word b = x.word b && o.bound r c = x.bound r c then x else if Config.newerVersion serial b h then x else o
  if w = 64 then ((pick b).read r c % 2 ^ 32 + (pick (b + 1)).read r c / 2 ^ 32 * 2 ^ 32, maxB16 ((pick b).bound r c) ((pick (b + 1)).bound r c), x.poisoned r c)
  else ((pick b).read r c, (pick b).bound r c, x.poisoned r c)

/-- What an `MMA` at the head of a queue computes from: its input, the poison it reads, the latch it leaves, its tier, the rows of its
image that are complete in each array, and the rows it computes, shadows among them. -/
structure MStart where
  x : MIn
  bad : Bool
  latch : Option Latch
  tier : Nat
  first : Nat
  rows : List Nat

/-- Take the operands of an `MMA` (R377, R390, R391, R394). The shadow of a row computes from the row's operands and its own cells. -/
def mmaStart (s : State) (lead : Nat) (g : Group) (e : MEntry) (pl : MPlan) : MStart :=
  let k := s.kernel g.kernel
  let w := e.word
  let acc := mmaAcc w
  let wide := decide (pl.cls = .f64)
  let blank : Tile := { desc := 0, base := 0, rows := 0, words := [], side := [], poison := [], core := 0 }
  let tile (h : TileNo) : Tile := (s.tile g.team h).getD blank
  let flat (h : TileNo) (i : Nat) : Nat × B16 × Bool := tileFlat s.serial h.val (KMap.get? e.old h.val) (tile h) i
  let mapA := wordAt e.shape 1
  let mapB := wordAt e.shape 2
  let held : Option Latch := match (s.core lead).latch with
    | some l => if l.gid = e.gid ∧ l.hA = mmaA w ∧ l.map = mapA ∧ l.m = pl.m ∧ l.k = pl.k ∧ Config.latchHeld s.serial then some l else none
    | none => none
  let rawA (i q : Nat) : Nat × B16 × Bool := match held with
    | some l => ((wordAt l.a (i * pl.k + q)).toNat, l.b.getD (i * pl.k + q) 0, false)
    | none => flat (mmaA w) (mapIndex mapA i q)
  let rawB (q j : Nat) : Nat × B16 × Bool := flat (mmaB w) (mapIndex mapB j q)
  let scaled := scalesApply pl.cls (wordAt e.scale 0)
  let blk := scaleBlock (wordAt e.scale 0)
  let scaleFlat (n : Nat) (map : W64) (r q : Nat) : Option (Nat × B16 × Bool) :=
    if scaled then (s.tile g.team (scaleTile (wordAt e.scale n))).map fun _ => flat (scaleTile (wordAt e.scale n)) (scaleIndex (wordAt e.scale n) map blk r q)
    else none
  let scaleAt (n : Nat) (map : W64) (r q : Nat) : ScaleRead := (scaleFlat n map r q).map fun x => (x.1, x.2.1)
  let scalePoison (n : Nat) (map : W64) (r q : Nat) : Bool := match scaleFlat n map r q with
    | some x => x.2.2
    | none => false
  let ftz := modeFtz e.mode
  let la := (List.range pl.m).flatMap fun i => (List.range pl.k).map fun q => rawA i q
  let z := bit w 7
  let mine (i : Nat) : Nat := if k.prot then i % 128 else i
  let x : MIn :=
    { cls := pl.cls, m := pl.m, n := pl.n, k := pl.k, pv := 2 ^ bits w 5 3, z := z, sat := modeSat e.mode, ftz := ftz
      a := fun i q => let (v, β, _) := rawA (mine i) q
        mOpd (tileTy (tile (mmaA w)).desc) ftz (bit w 9) (scaleAt 1 mapA (mine i) q) v β
      b := fun q j => let (v, β, _) := rawB q j
        mOpd (tileTy (tile (mmaB w)).desc) ftz (bit w 8) (scaleAt 2 mapB j q) v β
      cell := fun i j => accElem s lead acc i j wide, old := fun i => accBound s lead acc i
      untracked := k.score || decide (modeBnd e.mode = 3) }
  let rows := (List.range pl.m).flatMap (withShadow k)
  let resumed := !e.image.isEmpty && bit (wordAt e.image 0) 34
  let first := if resumed then imageFirst e.image pl.m else 0
  { x := x
    bad := la.any (fun x => x.2.2) || (List.range pl.k).any (fun q => (List.range pl.n).any fun j => (rawB q j).2.2 || scalePoison 2 mapB j q) ||
      (List.range pl.m).any (fun i => (List.range pl.k).any (fun q => scalePoison 1 mapA i q)) || (!z && rows.any fun i => accPoisoned s lead acc i)
    latch := if bit w 6 then
        some { gid := e.gid, hA := mmaA w, map := mapA, m := pl.m, k := pl.k, a := la.map fun x => BitVec.ofNat 64 x.1, b := la.map fun x => x.2.1 }
      else none
    tier := if resumed then bits (wordAt e.image 0) 33 32 else x.tier (modeTier e.mode) e.budget
    first := first, rows := rows.filter fun i => decide (first ≤ i % 128) }

/-- What the rows computed so far breach, after what an image has recorded (R382, R392): mask, largest bound, lowest row, whether any. -/
def rowBreaches (e : MEntry) (out : KMap MRow) : Nat × B16 × Nat × Bool :=
  let beyond := out.filter fun (i, r) => decide (i < 256) && exceeds r.bnd e.budget
  let resumed := !e.image.isEmpty && bit (wordAt e.image 0) 34
  let any := resumed && bit (wordAt e.image 8) 24
  let old : Nat := if resumed then (List.range 4).foldl (fun m i => m + (wordAt e.image (16 + i)).toNat * 2 ^ (64 * i)) 0 else 0
  (beyond.foldl (fun m (i, _) => Nat.lor m (2 ^ i)) old,
   beyond.foldl (fun b (_, r) => maxB16 b r.bnd) (if any then BitVec.ofNat 16 (bits (wordAt e.image 8) 15 0) else b16Exact),
   (beyond.map (·.1) ++ (if any then [bits (wordAt e.image 8) 23 16] else [])).foldl min 255, any || !beyond.isEmpty)

/-- The rows of an `MMA` without its shadows (R382, R391). -/
def ownRows (k : Kernel) (out : KMap MRow) : KMap MRow := if k.prot then out.filter fun (i, _) => decide (i < 128) else out

/-- Cells of a row written. -/
def writeCells (s : State) (lead acc : Nat) (wide : Bool) (i : Nat) (cells : List Nat) : State :=
  (cells.zipIdx).foldl (fun s (v, j) => setAccElem s lead acc i j wide v) s

/-- Completed rows written. -/
def writeRows (s : State) (lead acc : Nat) (wide : Bool) (out : KMap MRow) : State :=
  out.foldl (fun s (i, r) => setAccBounds (writeCells s lead acc wide i r.cells) lead acc i wide r.bnd) s

/-- What an `MMA` came to. -/
structure MmaOut where
  s : State
  poison : Bool
  trap : Option TrapInfo
  flags : BitVec 9
  card : Option (List W64)

/-- The array keeps or releases its latch (R377). -/
def setLatch (s : State) (lead : Nat) (l : Option Latch) : State :=
  let core := s.core lead
  s.setCore lead { core with latch := l }

/-- Perform the rows of an `MMA` at the head of a core's queue that are left (R376–R383, R390, R391, R441). -/
def performMma (s : State) (lead : Nat) (g : Group) (e : MEntry) (pl : MPlan) : MmaOut :=
  let k := s.kernel g.kernel
  let acc := mmaAcc e.word
  let wide := decide (pl.cls = .f64)
  let b := mmaStart s lead g e pl
  let s := setLatch s lead b.latch
  if b.bad then
    { s := b.rows.foldl (fun s i => poisonRow s lead acc i) s, poison := true, trap := none, flags := 0, card := none }
  else
    let out : KMap MRow := b.rows.map fun i => (i, b.x.row b.tier i (resumeOf e.image b.first i))
    let own := ownRows k out
    let (mask, worst, low, any) := rowBreaches e own
    let breach := !k.score && any
    let card := cardWords s g e.pc.toNat 0xD8 e.mode.toNat worst e.budget 1 low b.tier mask
    if breach && decide (modeBnd e.mode = 2) then
      { s := s, poison := false, trap := some (trapOf 0x08 ((card.drop 1).take 6)), flags := 0, card := none }
    else
      let flagIt := breach && decide (modeBnd e.mode = 1)
      { s := pmcCore (writeRows s lead acc wide out) lead (s.vfOf k.asid) 8 (pl.m / 8 * (pl.k / 4)), poison := false, trap := none
        flags := own.foldl (fun f (_, r) => f ||| r.fl) (flagIf flagIt flBreach), card := if flagIt then some card else none }

/-- Stop a started `MMA` at a k-step boundary of some block (R392, R393, R395): the state with its completed blocks and promotions written and
their flags set, and its image. One whose action is trap has staged its writes, and one that reads poison has written nothing: it is taken
whole (log 17). -/
def stopMma (s : State) (lead : Nat) (g : Group) (e : MEntry) (pl : MPlan) : State × List W64 :=
  let k := s.kernel g.kernel
  let acc := mmaAcc e.word
  let wide := decide (pl.cls = .f64)
  let b := mmaStart s lead g e pl
  let s := setLatch s lead none
  if b.bad || decide (modeBnd e.mode = 2) then (s, imageWords (some e))
  else
    let kk := pl.k / 4
    let resumed := !e.image.isEmpty && bit (wordAt e.image 0) 34
    let done := b.first / 8 * kk + (if resumed then bits (wordAt e.image 0) 48 45 else 0)
    let total := min pl.m 128 / 8 * kk
    let at_ := done + Config.kSteps s.serial % max 1 (total - done)
    let blk := at_ / kk
    let t := at_ % kk
    let out : KMap MRow := (b.rows.filter fun i => decide (i % 128 < 8 * blk)).map fun i => (i, b.x.row b.tier i (resumeOf e.image b.first i))
    let work : KMap MWork := if t = 0 then [] else
      (b.rows.filter fun i => decide (i % 128 / 8 = blk)).map fun i => (i, b.x.work b.tier i (resumeOf e.image b.first i) t)
    let own := ownRows k out
    let (mask, worst, low, any) := rowBreaches e own
    let fl := work.foldl (fun f (i, w) => if k.prot && decide (128 ≤ i) then f else f ||| b.x.rowFlags i w.es) (own.foldl (fun f (_, r) => f ||| r.fl) 0)
    let promoted := wide || decide (pl.cls = .int8) || decide (b.x.pv ≤ t)
    let s := writeRows s lead acc wide out
    let s := if promoted then work.foldl (fun s (i, w) => writeCells s lead acc wide i (w.es.map (·.c))) s else s
    (s.modGroup e.gid fun g => g.stick fl,
     imageOf e (some { tier := b.tier, rows := if pl.m = 256 then 16 * blk else 8 * blk, steps := t, worst := worst, low := low, any := any, mask := mask
                       work := fun h q => KMap.get? work (8 * blk + q + 128 * h) }))

/-- Take an entry's progress into an image (R393, R395): a started `MMA` stops, under the tiles that it was issued to. -/
def saveEntry (s : State) (lead : Nat) (e : MEntry) : State × MEntry :=
  let s1 := lateIn s e.gid e.seq
  match s1.group? e.gid with
  | none => (s, e)
  | some g =>
    if !e.started || decide (e.kind ≠ .mma) then (s, e)
    else match mmaCheck s1 g e.word e.shape e.scale e.mode e.lanes with
    | .error _ => (s, e)
    | .ok pl =>
      let (s2, l) := stopMma s1 lead g e pl
      (lateOut s s2 e.gid e.seq, { e with image := l, started := false })

/-! ### `MSAVE` and `MRES` (R393, R394) -/

/-- `MSAVE` (R393): it stalls until its group has one queue entry, an `MMA`, or none. -/
def execMsave (t : TileNo) (s : State) : Host.Outcome State Fault Refusal :=
  issue (.msave t) s {} fun c =>
    if c.lanes = 0 then .done s
    else
      let lead := leader c.k c.g
      match imageTrap (s.tile c.g.team t) c.lanes with
      | some e => .trap e
      | none =>
        let save (s : State) (l : List W64) : State := match s.tile c.g.team t with
          | some x => s.setTile c.g.team t (x.writeBytes (wordBytes l))
          | none => s
        match (s.core lead).mq.filter fun e => e.gid = c.gid with
        | [] => .done (save (setLatch s lead none) (imageWords none))
        | [e] =>
          if e.kind = .mma then
            let (s, e) := saveEntry s lead e
            let core := s.core lead
            let s := s.setCore lead { core with mq := core.mq.filter fun e => e.gid ≠ c.gid, latch := none }
            .done (save (s.modGroup c.gid leaveBatch) (imageWords (some e)))
          else .stay s false
        | _ => .stay s false

/-- `MRES` (R394): batched, and its run is held until it reaches the head of the queue. -/
def execMres (t : TileNo) (s : State) : Host.Outcome State Fault Refusal :=
  issue (.mres t) s {} fun c =>
    if c.lanes = 0 then .done s
    else match imageTrap (s.tile c.g.team t) c.lanes with
    | some e => .trap e
    | none =>
      if c.writeStalls then .stay s false
      else if queueLimit ≤ (s.core (leader c.k c.g)).mq.length then .stay s true
      else c.enqueue s { c.entry .mres with tile := t } false .grp true

/-! ### The unit's steps (R366, R382–R395) -/

/-- The entry at the head of a queue is done with. -/
def popEntry (s : State) (lead : Nat) : State :=
  let core := s.core lead
  s.setCore lead { core with mq := core.mq.drop 1 }

/-- Replace the entry at the head. -/
def setHead (s : State) (lead : Nat) (e : MEntry) : State :=
  let core := s.core lead
  s.setCore lead { core with mq := listSet core.mq 0 e }

/-- An entry drives the arrays of both cores of its pair: an `MMA.pair`, and in protected mode whatever computes or writes (R390, R391). -/
def drivesBoth (s : State) (e : MEntry) : Bool :=
  (decide (e.kind = .mma) && mmaPair e.word) ||
    (match s.group? e.gid with
    | some g => (s.kernel g.kernel).prot && decide (e.kind ≠ .accrd) && decide (e.kind ≠ .mres)
    | none => false)

/-- A core's unit is slaved: it waits while an entry of the pair's even core that drives both arrays is started (R390). -/
def slaved (s : State) (core : Nat) : Bool :=
  decide (core % 2 = 1) && (match (s.core (core - 1)).mq with
    | e :: _ => e.started && drivesBoth s e
    | [] => false)

/-- An entry that drives both arrays waits until what the odd core's unit performs has retired. -/
def followerBusy (s : State) (core : Nat) (e : MEntry) : Bool :=
  drivesBoth s e && (match (s.core (core + 1)).mq with
    | f :: _ => f.started
    | [] => false)

/-- The lanes of `ACCWR` write the accumulator (R385), and its shadow (R391). -/
def performAccwr (s : State) (lead : Nat) (g : Group) (e : MEntry) : State :=
  let k := s.kernel g.kernel
  let wide := wideMode e.mode
  let acc := bits e.word 15 12
  let row0 := bits e.origin 15 0
  let col0 := bits e.origin 31 16
  let d : VFirst := ⟨e.d % 240, Nat.mod_lt _ (by decide)⟩
  let lanes := setBitsOf (accLanes e.lanes col0)
  (List.range (bits e.word 11 8 + 1)).foldl (fun s r =>
    let x := g.line k.score (accReg d wide r)
    let y := g.line k.score (regNext (accReg d wide r))
    if lanes.isEmpty then s
    else (withShadow k (row0 + r)).foldl (fun s row =>
      let s := lanes.foldl (fun s l =>
        let v := (x.val.toList.getD l 0).toNat + (if wide then 2 ^ 32 * (y.val.toList.getD l 0).toNat else 0)
        setAccElem s lead acc row (col0 + l) wide v) s
      let b := lanes.foldl (fun b l => maxB16 b (x.bnd.toList.getD l 0)) b16Exact
      let whole := decide (lanes.length = 32)
      setAccBounds s lead acc row wide (scoreB k.score (if whole then b else maxB16 (accBound s lead acc row) b))) s) s

/-- An `ACCRD` that starts reads its rows: the lanes that no later write has taken, of its registers (R384). -/
def startAccrd (s : State) (lead : Nat) (g : Group) (e : MEntry) : State :=
  let now := accReads s (s.kernel g.kernel) lead e
  let fill (w : RegWrite) : RegWrite := match w with
    | .v r l m => (match now.findSome? fun x => match x with
        | .v r' l' _ => if r' = r then some l' else none
        | .u _ _ _ | .p _ _ _ => none with
      | some l' => .v r l' m
      | none => .v r l m)
    | .u n v b => .u n v b
    | .p n v m => .p n v m
  let rec go : List Pending → List Pending
    | [] => []
    | p :: t => if p.kind = ResultKind.accrd then { p with writes := p.writes.map fill, known := true } :: t else p :: go t
  s.setGroup e.gid { g with pend := go g.pend }

/-- The tiles that an `MMA` reads, as they stand. -/
def tilesNow (s : State) (g : Group) (e : MEntry) : KMap Tile :=
  ([mmaA e.word, mmaB e.word, scaleTile (wordAt e.scale 1), scaleTile (wordAt e.scale 2)].foldl (fun (m : KMap Tile) h =>
    match s.tile g.team h with
    | some t => KMap.set m h.val t
    | none => m) [])

/-- The head of a queue starts (R366, R385, R388, R394): its acquire; an `ACCWR` writes its rows, and an `MRES` reads its image, their
runs going on. -/
def startHead (core : Nat) (g : Group) (e : MEntry) (s : State) : State :=
  let begun := { e with started := true }
  match e.kind with
  | .accz => setHead s core begun
  | .accrd => setHead (startAccrd s core g e) core begun
  | .accwr => goOn (setHead (performAccwr s core g e) core begun) e.gid
  | .mma =>
    let w0 := wordAt e.shape 0
    let s := settleTile (settleTile s e.gid (mmaA e.word)) e.gid (mmaB e.word)
    let s := settleTile (settleTile s e.gid (scaleTile (wordAt e.scale 1))) e.gid (scaleTile (wordAt e.scale 2))
    let begun := { begun with old := tilesNow s g e }
    if bit w0 9 && !e.acqdone then
      if g.doneBefore e.seq then setHead (acquire s e.gid (scopeOf (bits w0 8 6))) core { begun with acqdone := true } else s
    else setHead s core begun
  | .mres =>
    (match s.tile g.team e.tile with
    | none => goOn (popEntry (s.modGroup e.gid leaveOpen) core) e.gid
    | some x =>
      let l := (List.range 608).map (tileWord64 x)
      let a := wordAt l 0
      let word : W32 := BitVec.ofNat 32 (bits a 31 0)
      let mode : BitVec 24 := BitVec.ofNat 24 (bits (wordAt l 7) 23 0)
      let shape := (l.drop 1).take 3
      let scale := (l.drop 4).take 3
      let fail (t : TrapInfo) : State := trapHeld (popEntry (s.modGroup e.gid leaveOpen) core) e.gid t
      if x.poison.any fun w => decide (w < 1216) then killPoison s e.gid
      else if word = 0 then goOn (setHead s core begun) e.gid
      else if bits word 31 24 ≠ 0xD8 ∨ !shapeWordOk (wordAt shape 0) ∨ !scaleWordsOk scale ∨ !modeLegal mode then fail (trapIllegal 1 0 e.lanes)
      else match mmaCheck s g word shape scale mode e.lanes with
      | .error t => fail t
      | .ok pl =>
        if !imageOk l pl.m (pl.k / 4) then fail (trapIllegal 1 0 e.lanes)
        else
          let w0 := wordAt shape 0
          let s := s.modGroup e.gid fun g => if bit w0 10 then
              let h := joinBatch g true (scopeOf (bits w0 8 6)) e.pc
              { h with openBatch := { h.openBatch with open_ := g.openBatch.open_ } }
            else g
          goOn (setHead s core { e with kind := .mma, word := word, mode := mode, shape := shape, scale := scale, image := l, holds := false
                                        budget := BitVec.ofNat 16 (bits (wordAt l 7) 39 24), acqdone := bit a 35, started := false }) e.gid)

/-- `MATRIX_ENTRY_START` (R366, R385, R388, R390, R394). -/
def execMatrixEntryStart (core : Nat) (s : State) : Host.Outcome State Fault Refusal :=
  .next (tick (match (s.core core).mq with
    | [] => s
    | e :: _ =>
      if e.started || slaved s core || followerBusy s core e then s
      else match s.group? e.gid with
      | none => popEntry s core
      | some g => underLate s e.gid e.seq (startHead core g e)))

/-- Complete an `ACCRD` (R384). -/
def finishAccrd (s : State) (g : Group) (e : MEntry) : State :=
  match g.pend.find? fun p => decide (p.kind = ResultKind.accrd) with
  | none => s
  | some p =>
    let g := { g with
      pend := g.pend.eraseP fun p => decide (p.kind = ResultKind.accrd)
      cflags := (match p.flag with
        | some f => g.cflags &&& ~~~flagBit f
        | none => g.cflags) }
    s.setGroup e.gid (g.landAll (s.kernel g.kernel).score p.run p.writes)

/-- A cell that an `ACCRD` reads, or its row's bound, differs from its shadow (R391). -/
def shadowDiffers (s : State) (lead : Nat) (e : MEntry) : Bool :=
  let wide := wideMode e.mode
  let acc := bits e.word 15 12
  let row0 := bits e.origin 15 0
  let col0 := bits e.origin 31 16
  (List.range (bits e.word 11 8 + 1)).any fun r =>
    accBound s lead acc (row0 + r) ≠ accBound s lead acc (row0 + r + 128) ||
      (setBitsOf (accLanes e.lanes col0)).any fun l => accElem s lead acc (row0 + r) (col0 + l) wide ≠ accElem s lead acc (row0 + r + 128) (col0 + l) wide

/-- `ACCZ` clears a core's accumulators (R386). -/
def clearAcc (score : Bool) (accs : List Nat) (s : State) (c : Nat) : State :=
  let x := s.core c
  s.setCore c { x with
    acc := x.acc.filter fun (key, _) => !accs.contains (key / 4096), accPoison := x.accPoison.filter fun key => !accs.contains (key / 128)
    rowBound := (if score then accs.foldl (fun m n => (List.range 128).foldl (fun m i => KMap.set m (n * 128 + i) b16Untracked) m) x.rowBound
      else x.rowBound.filter fun (key, _) => !accs.contains (key / 128)) }

/-- The started entry at the head of a queue performs and retires (R366, R376–R386). An `MMA` whose run has been released, as `MRES` does,
takes the trap of its breach at its group's next instruction (R394). -/
def finishHead (core : Nat) (g : Group) (e : MEntry) (s : State) : State :=
  let k := s.kernel g.kernel
  match e.kind with
  | .accz =>
    let accs := (List.range 16).filter fun n => e.d.testBit n
    let s := clearAcc k.score accs s core
    let s := if k.pair || k.prot then clearAcc k.score accs s (core + 1) else s
    popEntry (s.modGroup e.gid leaveBatch) core
  | .accwr | .mres => popEntry (s.modGroup e.gid leaveBatch) core
  | .accrd =>
    let wide := wideMode e.mode
    let row0 := bits e.origin 15 0
    let acc := bits e.word 15 12
    let rows := (List.range (bits e.word 11 8 + 1)).flatMap fun r => withShadow k (row0 + r)
    if rows.any fun r => accPoisoned s core acc r || (wide && accPoisoned s core (acc + 1) r) then
      killPoison (popEntry s core) e.gid
    else if k.prot && shadowDiffers s core e then
      killGroup (popEntry s core) e.gid fun g => { groupRec s g 0x05 0x21 e.pc.toNat with d0 := e.lanes.toNat }
    else popEntry (finishAccrd s g e) core
  | .mma =>
    (match mmaCheck s g e.word e.shape e.scale e.mode e.lanes with
    | .error _ => popEntry (s.modGroup e.gid leaveBatch) core
    | .ok pl =>
      let o := performMma s core g e pl
      if o.poison then killPoison (popEntry o.s core) e.gid
      else
        let s := popEntry (o.s.modGroup e.gid fun g => leaveBatch (g.stick o.flags)) core
        let s := match o.card with
          | some c => writeCard s e.gid c
          | none => s
        match o.trap with
        | some t => if e.holds then trapHeld s e.gid t else s.modGroup e.gid fun g => if g.live then { g with asyncTraps := g.asyncTraps ++ [t] } else g
        | none => if e.holds then goOn s e.gid else s)

/-- The started entry at the head of a core's queue retires. -/
def retireHead (core : Nat) (s : State) : State :=
  match (s.core core).mq with
    | [] => s
    | e :: _ =>
      if !e.started || slaved s core then s
      else match s.group? e.gid with
      | none => popEntry s core
      | some g => underLate s e.gid e.seq (finishHead core g e)

/-- `MATRIX_ENTRY_RETIRE`. -/
def execMatrixEntryRetire (core : Nat) (s : State) : Host.Outcome State Fault Refusal := .next (tick (retireHead core s))

/-- `BATCH_COMPLETE` (R306, R333): the oldest closed batch has retired; its release, then its mx step completes. -/
def execBatchComplete (gid : Nat) (s : State) : Host.Outcome State Fault Refusal :=
  .next (tick (match s.group? gid with
    | none => s
    | some g => match g.mx with
      | [] => s
      | b :: rest =>
        if b.open_ ≠ 0 || b.faulted then s
        else
          let put (s : State) (l : List Batch) : State := s.modGroup gid fun g => { g with mx := l }
          if !b.relNeeded then put s rest
          else match b.marks with
          | some l => if marksOwed s l then s else put s rest
          | none => match releaseWork s gid b.relScope b.seq with
            | .waiting s => s
            | .refused s secs =>
              if g.outstanding then s
              else raiseEntry (put s ({ b with faulted := true } :: rest)) gid (refusedFault secs b.pc 0xD8)
            | .sent s l => put s (if l.isEmpty then rest else { b with marks := some l } :: rest)))

end Sys2Proof.Machine
end

