-- ==== Sys2Proof/Machine/Block.lean ====
section
/-! DEFINITION. The context block word by word: what its header, register lines and tail hold of a group, how the handler
reads and writes it, and its writing to and reading from memory (R399–R401, R403, R435, R436, R489). -/

namespace Sys2Proof.Machine

/-! ### Register lines (R25) -/

/-- Word i, of 24, of a 192-byte line: 32 lanes of data, then 32 bounds. -/
def VLine.word (l : VLine) (i : Nat) : W64 :=
  if i < 16 then BitVec.ofNat 64 ((l.val.toList.getD (2 * i) 0).toNat + 2 ^ 32 * (l.val.toList.getD (2 * i + 1) 0).toNat)
  else
    let b (k : Nat) : Nat := (l.bnd.toList.getD (4 * (i - 16) + k) 0).toNat * 2 ^ (16 * k)
    BitVec.ofNat 64 (b 0 + b 1 + b 2 + b 3)

/-- A line with word i replaced. -/
def VLine.setWord (l : VLine) (i : Nat) (score : Bool) (w : W64) : VLine :=
  { val := Vector.ofFn fun k : Fin 32 => if k.val / 2 = i then BitVec.ofNat 32 (bits w (32 * (k.val % 2) + 31) (32 * (k.val % 2))) else l.val[k.val]
    bnd := Vector.ofFn fun k : Fin 32 =>
      if 16 + k.val / 4 = i then scoreB score (BitVec.ofNat 16 (bits w (16 * (k.val % 4) + 15) (16 * (k.val % 4)))) else l.bnd[k.val] }

/-- A line as the block holds it: in protected mode each visible lane and its shadow stand in their physical places (R20). -/
def VLine.physical (k : Kernel) (l : VLine) : VLine :=
  if k.prot then
    { val := Vector.ofFn fun j : Fin 32 => l.val.toList.getD (2 * (j.val / 4) + j.val % 4 / 2) 0
      bnd := Vector.ofFn fun j : Fin 32 => l.bnd.toList.getD (2 * (j.val / 4) + j.val % 4 / 2) 0 }
  else l

/-- The visible lanes of a line of the block (R20). -/
def VLine.visible (k : Kernel) (l : VLine) : VLine :=
  if k.prot then
    { val := Vector.ofFn fun v : Fin 32 => if v.val < 16 then l.val.toList.getD (4 * (v.val / 2) + 2 * (v.val % 2)) 0 else 0
      bnd := Vector.ofFn fun v : Fin 32 => if v.val < 16 then l.bnd.toList.getD (4 * (v.val / 2) + 2 * (v.val % 2)) 0 else 0 }
  else l

/-! ### Live words of the header and tail (R400) -/

/-- The frame of the group's last trap says that x0–x7 are saved (R426). -/
def Group.inrun (g : Group) : Bool := bit (wordAt g.frame 1) 13

/-- The park kind (R400). -/
def parkKind (s : State) (g : Group) : Nat :=
  if (match KMap.get? s.ctxs (s.kernel g.kernel).asid with
    | some c => decide (c.state = CtxState.preempted)
    | none => false) then 6
  else if g.ctxToken.isSome then 5
  else if g.waita.isSome then 2
  else if (match g.hold with
    | some (.barrier _ _) => true
    | _ => false) then 1
  else if g.parks.any fun p => decide (p.cause = ParkCause.fault) then 3
  else if g.ctxMoving.isSome || g.parks.any fun p => (match p.cause with
    | .migration _ => true
    | .fault | .heldBehind | .ready | .done => false) then 4
  else 0

/-- Words 0x328–0x36F and 0x3A0–0x3B8, and bits [63:30] of 0x320. -/
def liveWord (s : State) (g : Group) (v off : Nat) : W64 :=
  let clk (t : Nat) : Nat := (t - (s.part (s.kernel g.kernel).part).clockBase) % 2 ^ 48
  if off = 0x320 then BitVec.ofNat 64 (g.cflags.toNat * 2 ^ 32)
  else if off = 0x328 then
    BitVec.ofNat 64 (g.ld.length % 64 + g.st.length % 64 * 2 ^ 8 + g.copies.length % 64 * 2 ^ 16 + g.mx.length % 64 * 2 ^ 24 + g.batchNo.toNat * 2 ^ 32)
  else if off = 0x330 then g.decStatus
  else if off = 0x338 then BitVec.ofNat 64 (g.token.toNat + g.barst.toNat * 2 ^ 32)
  else if off = 0x340 then BitVec.ofNat 64 (g.cards % 2 ^ 32 + parkKind s g * 2 ^ 32)
  else if off = 0x348 then g.resWord
  else if 0x350 ≤ off ∧ off < 0x370 then
    BitVec.ofNat 64 ((List.range 64).foldl (fun a i =>
      let n := 8 * (off - 0x350) + i
      if n < v ∧ (KMap.get? g.v n).isNone then a + 2 ^ i else a) 0)
  else if off = 0x3A0 then (match g.waita with
    | some w => (match w.deadline with
      | some t => BitVec.ofNat 64 (clk t)
      | none => BitVec.ofNat 64 (2 ^ 48 - 1))
    | none => BitVec.ofNat 64 (2 ^ 48 - 1))
  else if off = 0x3A8 then (match g.waita with
    | some w => (match w.target with
      | .mem va _ => BitVec.ofNat 64 (va % 2 ^ 60)
      | .tile _ _ => 0)
    | none => (((g.parks.findSome? fun p => match p.cause with
      | .migration vp => some vp
      | .fault | .heldBehind | .ready | .done => none).or g.ctxMoving).map fun vp => BitVec.ofNat 64 (vp % 2 ^ 60)).getD 0)
  else if off = 0x3B0 then BitVec.ofNat 64 (g.number % 4096 + g.role % 4 * 2 ^ 12 + s.teamNumber g * 2 ^ 32)
  else 0

/-- The four words of an atomic-buffer entry (R489). -/
def redWords (s : State) (team : Nat) (e : RedEntry) : List W64 :=
  let op := match e.op with
    | .add => 0
    | .fadd => 1
    | .min => 2
    | .max => 3
  let key := 1 + op * 2 ^ 1 + e.type.toNat * 2 ^ 3 + e.rnd.toNat * 2 ^ 8 + (if e.ftz then 2 ^ 11 else 0) + (if e.sig then 2 ^ 12 else 0) + e.bound.toNat * 2 ^ 16
  match e.target with
  | .mem pa asid vpage => [BitVec.ofNat 64 key, BitVec.ofNat 64 pa, BitVec.ofNat 64 (asid + vpage * 4096), e.value]
  | .tile h idx =>
    let word := match s.tile team h with
      | some x => (flatAt x.desc idx).1 * tileDw x.desc + (tileElem x.desc (flatAt x.desc idx).2).1
      | none => idx
    [BitVec.ofNat 64 (key + 2 ^ 13), BitVec.ofNat 64 (h.val + word * 2 ^ 32), 0, e.value]

/-- The engine-area record of a command (R362, R364). -/
def areaRecord (c : CopyCmd) : List W64 :=
  if c.opcode = 0x77 then
    [wordAt c.words 0, wordAt c.words 1, BitVec.ofNat 64 (224 + c.destTile.val + (224 + c.srcTile.val) * 2 ^ 8),
     BitVec.ofNat 64 (0x77 * 2 ^ 56 + (if c.acqdone then 2 ^ 50 else 0) + c.bnd.toNat * 2 ^ 48 + (if c.released then 1 else 0))]
  else saveRecord c

/-- The offset block of a command (R400): its row mask, then its row offsets. -/
def offsetBlock (c : CopyCmd) : List W64 :=
  if c.opcode = 0xD1 then
    BitVec.ofNat 64 c.rowMask.toNat :: (List.range 16).map fun i => BitVec.ofNat 64 ((c.rowOffs.getD (2 * i) 0).toNat + 2 ^ 32 * (c.rowOffs.getD (2 * i + 1) 0).toNat)
  else List.replicate 17 0

/-- The eight words of a saved matrix queue entry (R400). -/
def entryWords (e : MEntry) : List W64 :=
  let rd := decide (e.kind = .accrd)
  [BitVec.ofNat 64 (e.word.toNat + e.mode.toNat * 2 ^ 32),
   BitVec.ofNat 64 (e.budget.toNat + (if rd then (match e.flag with
     | some f => (f.val + 1) * 2 ^ 16
     | none => 0) + e.lanes.toNat * 2 ^ 32 else 0))] ++
  (match e.kind with
  | .mma => (List.range 3).map (wordAt e.shape) ++ (List.range 3).map (wordAt e.scale)
  | .accrd => [e.origin, 0, 0, 0, 0, 0]
  | .accz | .accwr | .mres => [0, 0, 0, 0, 0, 0])

/-- A group's unretired queue entries: an `MMA` that has started, and the others in order (R395). -/
def queueOf (s : State) (gid : Nat) (g : Group) : Option MEntry × List MEntry :=
  let l := (s.core (leader (s.kernel g.kernel) g)).mq.filter fun e => decide (e.gid = gid)
  let l := if l.isEmpty then g.savedMq else l
  match l with
  | e :: t => if decide (e.kind = .mma) && (e.started || !e.image.isEmpty) then (some e, t) else (none, l)
  | [] => (none, [])

/-- Words of the tail from T + 0x400 (R400). -/
def tailWord (s : State) (gid : Nat) (g : Group) (off : Nat) : W64 :=
  if off < 0x4C0 then
    let p := g.bar ((off - 0x400) / 8)
    BitVec.ofNat 64 (p.token.toNat + (if p.pending then 2 ^ 32 else 0))
  else if off < 0x540 then wordAt ((g.red.map (redWords s g.team)).flatten) ((off - 0x4C0) / 8)
  else if off < 0x580 then wordAt g.cardCopy ((off - 0x540) / 8)
  else if off < 0x680 then wordAt ((g.copies.map areaRecord).flatten) ((off - 0x580) / 8)
  else if off < 0xAC0 then wordAt ((g.copies.map offsetBlock).flatten) ((off - 0x680) / 8)
  else if off < 0xEC0 then wordAt (((queueOf s gid g).2.map entryWords).flatten) ((off - 0xAC0) / 8)
  else if off < 0x21C0 then wordAt (imageWords (queueOf s gid g).1) ((off - 0xEC0) / 8)
  else 0

/-- A word of the block (R400, R436): the saved copy while the group is in its handler, its live state otherwise. -/
def blockWord (s : State) (gid : Nat) (g : Group) (off : Nat) : W64 :=
  let k := s.kernel g.kernel
  let v := k.budgetOf g.role
  let t := blockTail v
  let saved : W64 := if g.inHandler then (KMap.get? g.saved off).getD 0 else (savedWord g k.code.va v off).getD 0
  if off < 0x320 ∨ (0x370 ≤ off ∧ off < 0x3A0) ∨ (t ≤ off ∧ off < t + 0x400) then saved
  else if off = 0x320 then BitVec.ofNat 64 (bits saved 29 0 + (liveWord s g v 0x320).toNat)
  else if off < 0x3C0 then liveWord s g v off
  else if off < 0x400 then wordAt g.frame ((off - 0x3C0) / 8)
  else if off < 0xA00 then
    let x := if g.inHandler then (if g.inrun then g.savedX else []) else g.x
    (match KMap.get? x ((off - 0x400) / 192) with
    | some l => (l.physical k).word ((off - 0x400) % 192 / 8)
    | none => 0)
  else if off < t then
    (match KMap.get? g.v ((off - 0xA00) / 192) with
    | some l => (l.physical k).word ((off - 0xA00) % 192 / 8)
    | none => 0)
  else tailWord s gid g (off - t)

/-- The bytes of a block that programs reach (R435). -/
def blockBytes (v : Nat) : Nat := blockTail v + 10752

/-- A word of the saved copy as it is kept: what its layout holds as 0 stays 0 (R6, R70, R400). -/
def keptWord (k : Kernel) (t off : Nat) (w : W64) : W64 :=
  if t ≤ off ∧ off < t + 0x400 then setBits w 60 36 0
  else if off = 0x298 then BitVec.ofNat 64 (bits w 31 0)
  else if 0x2A0 ≤ off ∧ off < 0x320 then
    if off % 16 = 8 then BitVec.ofNat 64 (bits w 5 0) else if k.prot then setBits w 59 58 0 else w
  else if 0x200 ≤ off ∧ off < 0x280 ∧ k.score then BitVec.ofNat 64 ((List.range 4).foldl (fun a _ => a * 2 ^ 16 + b16Untracked.toNat) 0)
  else w

/-- `WRCTX` of a word, by the region it lies in (R436). -/
def writeBlockWord (s : State) (gid off : Nat) (w : W64) : State :=
  s.modGroup gid fun g =>
    let k := s.kernel g.kernel
    let v := k.budgetOf g.role
    let t := blockTail v
    if off < 0x320 ∨ (0x370 ≤ off ∧ off < 0x3A0) ∨ (t ≤ off ∧ off < t + 0x400) then
      { g with saved := KMap.set g.saved off (keptWord k t off w) }
    else if off = 0x320 then { g with saved := KMap.set g.saved off (BitVec.ofNat 64 (bits w 29 0)) }
    else if 0x400 ≤ off ∧ off < 0xA00 then
      let n := (off - 0x400) / 192
      { g with savedX := KMap.set g.savedX n (((((KMap.get? g.savedX n).getD VLine.zero).physical k).setWord ((off - 0x400) % 192 / 8) k.score w).visible k) }
    else if 0xA00 ≤ off ∧ off < t then
      let n := (off - 0xA00) / 192
      { g with v := KMap.set g.v n (((((KMap.get? g.v n).getD (lineDead k.score)).physical k).setWord ((off - 0xA00) % 192 / 8) k.score w).visible k) }
    else g

/-! ### The block in memory (R401, R402) -/

/-- The physical address of a byte of a group's block, where its page is present. -/
def blockNow (s : State) (g : Group) (off : Nat) : Option Nat :=
  match walkNow s (s.kernel g.kernel).asid (s.blockVa g + off) with
  | (.page _ pa, _, _) => some pa
  | (.absent, _, _) | (.migrating _, _, _) | (.malformed, _, _) => none

/-- As the context cache reaches it (R402): its lines keep the frame that their fill translated to. -/
def blockPa (s : State) (g : Group) (off : Nat) : Option Nat :=
  let va := s.blockVa g + off
  match KMap.get? g.blockFrames (va / 4096) with
  | some f => some (4096 * f + va % 4096)
  | none => blockNow s g off

/-- Translate the pages of a group's block that the context cache does not hold, through the core TLB (R266, R402): the frames of the
present ones are kept, and the others answered by page. -/
def lookBlock (s : State) (core gid : Nat) (g : Group) : State × List (Nat × Xlat) :=
  let k := s.kernel g.kernel
  let first := s.blockVa g / 4096
  let pages := (List.range ((s.blockVa g + blockBytes (k.budgetOf g.role) - 1) / 4096 + 1 - first)).map (first + ·)
  (pages.filter fun p => (KMap.get? g.blockFrames p).isNone).foldl (fun (acc : State × List (Nat × Xlat)) p =>
    match translate acc.1 core k.asid (4096 * p) with
    | (s, .page _ pa) => (s.modGroup gid fun g => { g with blockFrames := KMap.set g.blockFrames p (pa / 4096) }, acc.2)
    | (s, x) => (s, acc.2 ++ [(p, x)])) (s, [])

/-- The words of the block that are not zero; the writing of a block to memory clears it first. -/
def blockWords (s : State) (gid : Nat) (g : Group) : List (Nat × W64) :=
  let v := (s.kernel g.kernel).budgetOf g.role
  ((List.range (blockBytes v / 8)).map fun i => (8 * i, blockWord s gid g (8 * i)))

/-- Write a group's block to its CTX pages; a word whose page is absent stays in the machine (R402). -/
def writeBlock (s : State) (gid : Nat) : State :=
  match s.group? gid with
  | none => s
  | some g => (blockWords s gid g).foldl (fun s (off, w) => match blockPa s g off with
    | some pa => physWords s pa [w]
    | none => s) s

/-- Write the engine area of a group's block alone: of a group that holds no seat, whose engine goes on (R364, R395, R400). -/
def writeEngineArea (s : State) (gid : Nat) : State :=
  match s.group? gid with
  | none => s
  | some g =>
    let t := blockTail ((s.kernel g.kernel).budgetOf g.role)
    ((List.range ((0x21C0 - 0x580) / 8)).map fun i => t + 0x580 + 8 * i).foldl (fun s off => match blockPa s g off with
      | some pa => physWords s pa [blockWord s gid g off]
      | none => s) s

/-- Read a group's quarter registers back from its block at seating (R401). -/
def readBlock (s : State) (g : Group) : Group :=
  let k := s.kernel g.kernel
  let v := k.budgetOf g.role
  let word (off : Nat) : W64 := match blockPa s g off with
    | some pa => physWord s pa
    | none => (savedWord g k.code.va v off).getD 0
  restoreWords g k.fullMask k.code.va v word

end Sys2Proof.Machine
end

