-- ==== Sys2Proof/Machine/Seats.lean ====
section
/-! DEFINITION. Seats and halls: which groups are candidates, in what order, and how a group leaves its seat and takes one
(R26, R275, R276, R402, R409–R411, R421, R422). -/

namespace Sys2Proof.Machine

/-- The group waits at a barrier. -/
def Group.atBarrier (g : Group) : Option Nat := match g.hold with
  | some (.barrier i _) => some i
  | _ => none

/-- A gang of the group is parked on a fault or a migration whose cause is not past. -/
def Group.faultParked (g : Group) : Bool :=
  g.parks.any fun p => decide (p.handler = g.inHandler) && decide (p.cause ≠ ParkCause.done) && decide (p.cause ≠ ParkCause.ready)

/-- The group's word is posted, and not consumed (R272). -/
def Group.posted (g : Group) : Bool := bit g.resWord 63

/-- The group's whole run of work is parked (R409): at a barrier, at `WAITA`, at a context fault, at a fault of its release, or
on faults in every gang that could issue. -/
def Group.isParked (g : Group) (k : Kernel) : Bool :=
  g.atBarrier.isSome || g.waita.isSome || g.ctxToken.isSome || g.ctxMoving.isSome || (match g.release with
    | some r => r.faulted
    | none => false) ||
  (g.faultParked && g.run.isNone &&
    (g.liveSlices k &&& ~~~(g.parks.foldl (fun (m : BitVec 8) p => if p.cause = .done || decide (p.handler ≠ g.inHandler) then m else m ||| p.acc.slices) 0) = 0))

/-- The word of a monitored wait differs from the value waited on. -/
def waitDiffers (s : State) (g : Group) (w : WaitA) : Bool :=
  match w.target with
  | .mem _ pa => decide (Memory.readN s.mem pa w.width ≠ w.expected.toNat)
  | .tile h word => match s.tile g.team h with
    | some x => decide ((if w.width = 8 then x.word word + 2 ^ 32 * x.word (word + 1) else x.word word) ≠ w.expected.toNat)
    | none => true

/-- The group's park has been satisfied (R409). -/
def Group.parkSatisfied (s : State) (g : Group) : Bool :=
  (match g.atBarrier with
    | some i => (g.bar i).completed.isSome
    | none => false) ||
  (match g.waita with
    | some w => (w.woken && waitDiffers s g w) || (match w.deadline with
        | some t => decide (t ≤ s.clock)
        | none => false) || (!w.armed && decide (w.polled + 1024 ≤ s.clock))
    | none => false) ||
  (g.ctxToken.isSome && g.ctxPosted) ||
  (g.ctxToken.isNone && (g.posted || g.parks.any fun p => decide (p.cause = ParkCause.ready) && decide (p.handler = g.inHandler)))

/-- A candidate for a seat of its core (R409). -/
def candidate (s : State) (g : Group) : Bool :=
  (match g.place with
    | .hall _ => true
    | .seat _ _ | .ended | .killed => false) &&
  !haltedCtx s g && (!g.isParked (s.kernel g.kernel) || g.parkSatisfied s) && (g.ctxToken.isNone || g.ctxPosted)

/-- A core hosts a group in the hall: it is its core, or the other core of its pair (R17, R21, R402). -/
def hosts (s : State) (core : Nat) (g : Group) : Bool := match g.place with
  | .hall c => decide (c = core) || ((s.kernel g.kernel).pair && decide (c / 2 = core / 2))
  | .seat _ _ | .ended | .killed => false

/-- The candidates that a core's free seat may take. -/
def candidatesOn (s : State) (core : Nat) : List (Nat × Group) := s.groups.filter fun (_, g) => hosts s core g && candidate s g

/-- A context's rank (R410): its priority, or above 7 while it is boosted. -/
def Context.rank (c : Context) : Nat := if c.boosted then 8 else c.prio
def rankOf (s : State) (g : Group) : Nat := match s.ctxOf g with
  | some c => c.rank
  | none => 0

/-- The seating order of R410: smaller is earlier. -/
def seatKey (s : State) (g : Group) : Nat :=
  let k := s.kernel g.kernel
  (((8 - rankOf s g) * 2 + (if g.parkSatisfied s then 0 else 1)) * 2 ^ 64 + k.order) * 2 ^ 64 + s.teamNumber g * 2 ^ 16 + g.number

/-- The candidate that a free seat takes. -/
def firstCandidate (s : State) (core : Nat) : Option (Nat × Group) :=
  (candidatesOn s core).foldl (fun acc x => match acc with
    | none => some x
    | some y => if seatKey s x.2 < seatKey s y.2 then some x else some y) none

/-- Sixteen seats to a quarter, four quarters to a core (R15, R88). -/
def seatsPerQuarter : Nat := 16

/-- The groups seated in a quarter of a core. -/
def seatedIn (s : State) (core quarter : Nat) : List (Nat × Group) := s.groups.filter fun (_, g) => decide (g.place = .seat core quarter)

/-- The first quarter of a core with a free seat (DESIGN CHOICE, log 106: R17 lets a group take a seat in any quarter). -/
def freeQuarter (s : State) (core : Nat) : Option Nat := (List.range 4).find? fun q => decide ((seatedIn s core q).length < seatsPerQuarter)

/-- Instructions that hold their run and have not changed state are withdrawn by a pre-emption, and issue again (R422). -/
def withdraw (g : Group) : Group :=
  match g.hold with
  | some (.recsync _) | some (.enq _) => { g with hold := none }
  | some .release => (match g.release with
    | some r => (match r.next with
      | .pbar _ => if r.faulted then g else { g with hold := none, release := none }
      | .fence _ | .arrive _ _ _ _ | .groupEnd => g)
    | none => { g with hold := none })
  | _ => g

/-- Change the counter step that a park belongs to. -/
def modStep (s : State) (gid id : Nat) (f : CStep → CStep) : State :=
  s.modGroup gid fun g =>
    let up (l : List CStep) : List CStep := l.map fun x => if x.id = id then f x else x
    { g with ld := up g.ld, st := up g.st }

/-- A completion flag falls without a result. -/
def dropFlag (s : State) (gid n : Nat) : State := s.modGroup gid fun g => { g with cflags := if h : n < 12 then g.cflags &&& ~~~flagBit ⟨n, h⟩ else g.cflags }

/-- The quarter's run in progress is that of the group no longer. -/
def clearCurrent (s : State) (gid : Nat) : State :=
  match s.group? gid with
  | some g =>
    let c := s.core g.core
    s.setCore g.core { c with current := c.current.filter fun (_, i) => decide (i ≠ gid), frozen := c.frozen.filter fun (_, i, _) => decide (i ≠ gid) }
  | none => s

/-- The handler's live state is lost: its accesses that wait on a page are dropped, their counter steps closed, and it is to
start from its entry (R431). -/
def loseHandler (s : State) (gid : Nat) : State :=
  match s.group? gid with
  | none => s
  | some g =>
    let s := (g.parks.filter (·.handler)).foldl (fun s p => match p.step, p.acc.op with
      | some id, .sld => if p.cause = ParkCause.done then s else dropFlag s gid id
      | some id, _ => modStep s gid id fun x => { x with performed := x.places.isEmpty, todo := none }
      | none, _ => s) s
    reenterHandler (s.modGroup gid fun g => { g with parks := g.parks.filter fun p => !p.handler, waita := none }) gid

/-- A group leaves its seat for its core's hall: its block is written back, its pins end, and in handler mode its handler's
live state is lost (R401, R406, R411, R431). -/
def leaveSeat (s : State) (gid : Nat) : State :=
  match s.group? gid with
  | none => s
  | some g =>
    if !g.seated then s
    else
      let s := clearCurrent (writeBlock (account s g.core) gid) gid
      let s := s.setGroup gid { g with place := .hall g.core, pinned := [], ctxMiss := none, blockWritten := true }
      if g.inHandler then loseHandler s gid else s

/-- The kind 2 entry of a context fault (R273, R276). -/
def contextFault (_ : State) (g : Group) (va : Nat) : FaultInfo :=
  { kind := 2, loVa := va, hiVa := va, pc := g.pcNow, lanes := 0, opcode := 0, write := false, rt := 0 }

/-- The trap of a fill of the block through a malformed entry (R264, R488): it names no lane. -/
def trapBlock (va : Nat) : TrapInfo := trapOf 0x05 [1, 0, BitVec.ofNat 64 va]

/-- What a seating reads of the block first meets a page that is not present, among those that translation answered (R401, R410, R276):
the address and what its page came to. -/
def blockGap (s : State) (g : Group) (l : List (Nat × Xlat)) : Option (Nat × Xlat) :=
  if !g.blockWritten then none else
  let t := blockTail ((s.kernel g.kernel).budgetOf g.role)
  (0 :: (List.range 11).map fun i => t + 1024 * i).findSome? fun off =>
    (l.find? fun x => decide (x.1 = (s.blockVa g + off) / 4096)).map fun x => (s.blockVa g + off, x.2)

/-- Vector lines of a group that the context cache of its core holds (R402). -/
def Group.cached (g : Group) : List Nat := (g.v.map (·.1)).filter fun n => !g.absent.contains n

/-- The lines of the tail of a block (R399). -/
def tailLines : Nat := 56

/-- A line that a core's context cache holds: its set, whether it is pinned, its last use, its group, and its number where it is a vector line. -/
structure CtxLine where
  set : Nat
  pinned : Bool
  used : Nat
  gid : Nat
  v : Option Nat

/-- The set of the line at an offset of a group's block, by the physical address of its first byte (R402); none for a line on a page that
the core has not translated. -/
def lineSet (s : State) (g : Group) (off : Nat) : Option Nat :=
  let va := s.blockVa g + off
  (KMap.get? g.blockFrames (va / 4096)).map fun f => (4096 * f + va % 4096) / 192 % contextSets

/-- The lines of a group that its core's context cache holds (R402): x0–x7, its vector lines, and its tail. -/
def Group.ctxLines (s : State) (gid : Nat) (g : Group) : List CtxLine :=
  let line (v : Option Nat) (off : Nat) : Option CtxLine := (lineSet s g off).map fun i =>
    { set := i, pinned := v.any g.pinned.contains, used := g.stamp, gid := gid, v := v }
  let t := blockTail ((s.kernel g.kernel).budgetOf g.role)
  (List.range 8).filterMap (fun n => line none (1024 + 192 * n)) ++ g.cached.filterMap (fun n => line (some n) (2560 + 192 * n)) ++
    (List.range tailLines).filterMap fun n => line none (t + 192 * n)

/-- The order in which the lines of a set are given up: unpinned before pinned, then the least recently used (R402). -/
def CtxLine.before (a b : CtxLine) : Bool := decide (a.pinned.toNat < b.pinned.toNat) || (decide (a.pinned = b.pinned) && decide (a.used ≤ b.used))

/-- A line put into its place in that order. -/
def orderLine (x : CtxLine) : List CtxLine → List CtxLine
  | [] => [x]
  | y :: t => if x.before y then x :: y :: t else y :: orderLine x t

/-- The lines given up: those that twelve of their set come after. -/
def overflow : List CtxLine → List CtxLine
  | [] => []
  | x :: t => if contextWays ≤ t.countP (fun y => decide (y.set = x.set)) then x :: overflow t else overflow t

/-- A set of a core's context cache that would hold more than its 12 lines gives lines up (R15, R402, log 118). -/
def fitContext (s : State) (core : Nat) : State :=
  let l := (s.groups.filter fun (_, g) => g.live && decide (g.core = core)).flatMap fun (gid, g) => g.ctxLines s gid
  if l.all fun x => decide (l.countP (fun y => decide (y.set = x.set)) ≤ contextWays) then s
  else (overflow (l.foldr orderLine [])).foldl (fun s x => match x.v with
    | some n => s.modGroup x.gid fun g => { g with absent := n :: g.absent }
    | none => s) s

/-- Engine state comes back: the saved queue entries, in order, and the decodes (R364, R395). -/
def restoreEngine (s : State) (gid : Nat) (g : Group) : State :=
  let lead := leader (s.kernel g.kernel) g
  let c := s.core lead
  let s := s.setCore lead { c with mq := c.mq ++ g.savedMq }
  let c := s.core g.core
  let s := s.setCore g.core { c with decodeQ := c.decodeQ ++ g.savedJobs }
  s.modGroup gid fun g => { g with savedMq := [], savedJobs := [], engineSaved := false }

/-- Decodes still due move with a group to the other core of its pair. -/
def moveJobs (s : State) (gid old new : Nat) : State :=
  if old = new then s
  else
    let c := s.core old
    let s := s.setCore old { c with decodeQ := c.decodeQ.filter fun j => decide (j.gid ≠ gid) }
    let d := s.core new
    s.setCore new { d with decodeQ := d.decodeQ ++ c.decodeQ.filter fun j => decide (j.gid = gid) }

/-- What moving a group to the other core of its pair came to. -/
inductive Mover where
  | stays (s : State)
  | goes (s : State)

/-- A group that takes a seat on the other core of its pair: the release at .dev on the old core (R336). What the group has not performed
yet it performs on the new core, and is not waited for (log 104). Refused sectors hold it as those of a fence do, and so do the
acknowledgements of peers, once it is seated. -/
def moveCore (s : State) (gid : Nat) (g : Group) (new : Nat) : Mover :=
  let k := s.kernel g.kernel
  let s := drainWhere s gid fun _ => true
  let (s, bad) := writeBackFor s g.core k.score fun e => decide (e.asid = k.asid)
  let after (sent : Bool) (marks : List Nat) : Release :=
    { scope := .dev, upto := 0, markers := marks, next := .fence false, pc := BitVec.ofNat 64 g.pcNow, opcode := 0, sent := sent, faulted := false }
  if !bad.isEmpty then
    .stays (if g.release.isSome then s else faultRelease (s.modGroup gid fun g => { g with release := some (after false []) }) gid bad)
  else
    let (s, marks) := markPeers (releasedBy s g.core gid)
    let s := if marks.isEmpty then s else s.modGroup gid fun g => { g with release := some (match g.release with
      | none => after true marks
      | some r => if r.sent then { r with markers := r.markers ++ marks } else r) }
    .goes (moveJobs s gid g.core new)

/-- A group whose block is at hand takes the seat (R401, R410, R441, R431): its quarter registers are read back from its block, its engine
state comes back, its monitor is armed again and its word read again, and lines of it may have left the context cache. -/
def sitDown (s : State) (gid : Nat) (core quarter : Nat) (moved : Bool) : State :=
  match s.group? gid with
  | none => s
  | some g =>
    let h := if g.inHandler || !g.blockWritten then g else readBlock s g
    let gone := (h.v.map (·.1)).filter fun n => Config.lineDropped s.serial n
    let w := h.waita.map fun w => { w with woken := true, armed := w.armed || (decide (armedOn s core < 256) && !w.target.atPeer w.page) }
    let s := s.setGroup gid { h with
      place := .seat core quarter, stamp := s.clock, seatedAt := s.clock, absent := (h.absent ++ gone).dedup, ctxMiss := none, ctxToken := none
      ctxPosted := false, waita := w }
    let s := if moved then acquire s gid .dev else s
    let c := s.core core
    let s := s.setCore core { c with gated := false, gatedQuarters := c.gatedQuarters.filter fun q => decide (q ≠ quarter) }
    let s := fitContext (wakeContext (restoreEngine s gid h) (s.kernel g.kernel).asid) core
    if h.inHandler then reenterHandler s gid else barrierLeave s gid

/-- A group takes a seat. A page of the block that is absent is a context fault (R276), one that migrates keeps the group waiting for its
wake (R279), and one whose translation is malformed traps once the group is seated, the words of the block that it would have given
standing as they were (R264, log 103). A poisoned line of the block kills the group. -/
def takeSeat (s : State) (gid : Nat) (core quarter : Nat) : State :=
  match s.group? gid with
  | none => s
  | some g =>
    let s := account s core
    if !g.poison.isEmpty then killPoison (s.setGroup gid { g with place := .seat core quarter }) gid
    else
      let (s, l) := lookBlock s core gid g
      let seat (s : State) : State :=
        if g.core = core then sitDown s gid core quarter false
        else match moveCore s gid g core with
        | .stays s => s
        | .goes s => sitDown s gid core quarter true
      match blockGap s g l with
      | some (va, .absent) =>
        (raiseEntry (s.modGroup gid fun g => { g with place := .seat core quarter }) gid (contextFault s g va)).modGroup gid fun x => { x with place := g.place }
      | some (_, .migrating v) => s.modGroup gid fun g => { g with ctxMoving := some v }
      | some (va, .malformed) => (seat s).modGroup gid fun g => if g.seated then { g with asyncTraps := g.asyncTraps ++ [trapBlock va] } else g
      | some (_, .page _ _) | none => seat s

end Sys2Proof.Machine
end

