-- ==== Sys2Proof/Machine/Context.lean ====
section
/-! DEFINITION. Context and work instructions: `ENQ`, `CTXDEAD`, `CTXPIN`, `UNSEAT` and `SEMSIG` (R404–R408, R413, R417). -/

namespace Sys2Proof.Machine

/-! ### Queues (R413) -/

/-- A context's access made by the device itself, where its page is present: attributes and physical address. -/
def ctxPage (s : State) (asid va : Nat) : Option (Attr × Nat) :=
  match walkNow s asid va with
  | (.page a pa, _, _) => some (a, pa)
  | (.absent, _, _) | (.migrating _, _, _) | (.malformed, _, _) => none

/-- The words of a queue table entry (R413), and the physical address it lies at. -/
structure QueueEntry where
  pa : Nat
  ring : Nat
  size : Nat
  device : Bool
  enable : Bool
  rd : W32
  wr : W32

/-- Queue table entry q of a context; `none` where its page is absent. -/
def queueEntry (s : State) (asid q : Nat) : Option QueueEntry :=
  match KMap.get? s.ctxs asid with
  | none => none
  | some c => match ctxPage s asid (c.qtable + 32 * q) with
    | none => none
    | some (_, pa) =>
      let w1 := physWord s (pa + 8)
      some { pa := pa, ring := bits (physWord s pa) 59 7 * 128, size := bits w1 4 0, device := bit w1 8, enable := bit w1 9
             rd := BitVec.ofNat 32 (physWord s (pa + 16)).toNat, wr := BitVec.ofNat 32 (physWord s (pa + 24)).toNat }

/-- The slots of ring entry n. -/
def QueueEntry.slotVa (q : QueueEntry) (n : Nat) : Nat := q.ring + 128 * (n % 2 ^ q.size)

/-! ### `ENQ` (R417) -/

/-- The read of the 128 bytes: the words, or why they cannot be read yet or at all. -/
inductive EnqRead where
  | words (l : List W64)
  | trap (t : TrapInfo)
  | wait (cause : ParkCause) (l : List Spot)
  | poison

/-- Read an `ENQ`'s command as a load of the group. -/
def enqRead (s : State) (gid : Nat) (a : Access) : State × EnqRead :=
  match s.group? gid with
  | none => (s, .words [])
  | some g =>
    let (s, l) := locateAll s g.core g.kernel a a.spots
    match trapPages l with
    | some t => (s, .trap t)
    | none =>
      if !(missing l).isEmpty then
        (s, .wait (match migratingOf l with
          | some v => .migration v
          | none => .fault) (absentSpots l))
      else
        let vf := s.vfOf (s.kernel g.kernel).asid
        let s := settleAtomics s gid (bytesOf l)
        let (s, ws, bad) := l.foldl (fun (acc : State × List W64 × Bool) (p, f) => match f with
          | .at_ at_ pa =>
            let (s, e) := readSpot acc.1 g.core vf false b16Exact p at_ pa
            (s, acc.2.1 ++ [BitVec.ofNat 64 e.bits], acc.2.2 || e.poison)
          | .absent | .migrating _ | .bad _ => acc) (s, [], false)
        if bad then (s, .poison) else (s, .words ws)

/-- Append a command to a device queue: the result in s[d] (R417). -/
def enqAppend (s : State) (gid : Nat) (g : Group) (q : Nat) (ws : List W64) : State × W64 :=
  let asid := (s.kernel g.kernel).asid
  match queueEntry s asid q with
  | none => (s, BitVec.allOnes 64)
  | some e =>
    if !e.device || !e.enable then (s, BitVec.allOnes 64)
    else if (e.wr - e.rd).toNat = 2 ^ e.size then (s, BitVec.allOnes 64 - 1)
    else match ctxPage s asid (e.slotVa e.wr.toNat) with
    | none => (s, BitVec.allOnes 64)
    | some (a, pa) =>
      let w0 : W64 := BitVec.ofNat 64 (setBits (wordAt ws 0) 63 56 0).toNat
      let put (s : State) (x : Attr × Nat × W64) : State := homeWrite (toHome s g.core x.1 x.2.1) g.core gid x.1 x.2.1 8 x.2.2.toNat b16Exact false
      let s := ((List.range 16).map fun i => (a, pa + 8 * i, if i = 0 then w0 else wordAt ws i)).foldl put s
      let s := { s with mem := Memory.writeN s.mem (e.pa + 24) 4 (e.wr + 1).toNat }
      (s, BitVec.ofNat 64 e.wr.toNat)

/-- `ENQ`: its run is held until `ENQ_COMPLETE` (R417). -/
def execEnq (d a : UReg) (q : BitVec 6) (s : State) : Host.Outcome State Fault Refusal :=
  issue (.enq d a q) s { u := [d, a] } fun c =>
    let v := (c.view.uni a).1
    if c.writeStalls then .stay s false
    else if v.toNat % 128 ≠ 0 then .trap (trapOf 0x04 [1, BitVec.ofNat 64 c.lowest.toNat, v])
    else
      let acc := c.access (.enq d q) q.toNat c.lowest (Vector.replicate 32 v) [] none none (some d)
      if c.g.behindPark acc then .gone (parkGang s c.gid acc .heldBehind none (some c.run) [])
      else match enqRead s c.gid acc with
      | (_, .trap t) => .trap t
      | (s, .wait cause l) => .gone (parkGang s c.gid acc cause none (some c.run) l)
      | (s, .poison) => .gone (killPoison s c.gid)
      | (s, .words _) => .held s (.enq acc)

/-- The command arrives and is appended (R417); where its page has left, the gang parks. -/
def enqFinish (s : State) (gid : Nat) (acc : Access) (d : UReg) (q : BitVec 6) : State :=
  match s.group? gid with
  | none => s
  | some g => match enqRead s gid acc with
    | (s, .trap t) => trapHeld s gid t
    | (s, .wait cause l) => parkGang s gid acc cause none g.run l
    | (s, .poison) => killPoison s gid
    | (s, .words ws) =>
      let (s, r) := enqAppend s gid g q.toNat ws
      goOn (s.modGroup gid fun g => g.land (s.kernel g.kernel).score g.runId (.u d r (scoreB (s.kernel g.kernel).score b16Exact))) gid

/-- `ENQ_COMPLETE` (R417). -/
def execEnqComplete (gid : Nat) (s : State) : Host.Outcome State Fault Refusal :=
  .next (tick (match s.group? gid with
    | some g => (match g.hold with
      | some (.enq acc) => (match acc.op with
        | .enq d q => if g.seated then enqFinish s gid acc d q else s
        | _ => s)
      | _ => s)
    | none => s))

/-! ### Register lines (R403, R405, R406) -/

/-- An outstanding load, decode, long-latency instruction or `ACCRD` may still write one of some registers (R405). -/
def writesDue (s : State) (gid : Nat) (g : Group) (n count : Nat) : Bool :=
  let hit (r : VReg) : Bool := match r with
    | .v i => decide (n ≤ i.val) && decide (i.val < n + count)
    | .x _ => false
  (g.inFlight.any fun (_, w) => match w with
    | .v r _ _ => hit r
    | .u _ _ _ | .p _ _ _ => false) ||
  (g.ld.any fun x => match x.todo with
    | some a => (match a.dst with
      | some r => hit r || hit (regNext r)
      | none => false)
    | none => false) ||
  (g.parks.any fun p => decide (p.cause ≠ ParkCause.done) && (match p.acc.dst with
    | some r => hit r || hit (regNext r)
    | none => false)) ||
  (s.core g.core).decodeQ.any fun j => decide (j.gid = gid) && (decide (j.kind = 1) || decide (j.kind = 3))

/-- Registers made dead: zero, bound exact, their lines dropped and unpinned (R403, R405). -/
def killLines (g : Group) (v : View) (n count : Nat) : Group :=
  let named (i : Nat) : Bool := decide (n ≤ i) && decide (i < n + count)
  let old : List Version := (g.v.filter fun (i, _) => named i).filterMap fun (i, l) =>
    if h : i < 240 then some (.v (.v ⟨i, h⟩) l (BitVec.allOnes 32)) else none
  { g with
    v := g.v.filter fun (i, _) => !named i
    unsettled := old.foldl (fun l o => keepOld l o (v.clock + 4) v.run) g.unsettled
    pinned := g.pinned.filter fun i => !named i
    absent := g.absent.filter fun i => !named i
    poison := g.poison.filter fun x => !named (x / 64) }

/-- `CTXDEAD` (R405). -/
def execCtxdead (first : VFirst) (count : BitVec 8) (s : State) : Host.Outcome State Fault Refusal :=
  issue (.ctxdead first count) s {} fun c =>
    if !rangeOk (c.k.budgetOf c.g.role) (.v first) count.toNat then c.illegal 2
    else if c.lacksSlice then c.illegal 5
    else if writesDue s c.gid c.g first.val count.toNat then .stay s true
    else .done (s.setGroup c.gid (killLines c.g c.view first.val count.toNat))

/-- A line's CTX page is present, so that a fill of it completes. -/
def lineFills (s : State) (g : Group) (n : Nat) : Bool := (blockPa s g (2560 + 192 * n)).isSome

/-- `CTXPIN` (R406): at most 64 lines are pinned; the fills it starts are dropped where a page is absent. -/
def execCtxpin (first : VFirst) (count : BitVec 8) (pin : Bool) (s : State) : Host.Outcome State Fault Refusal :=
  issue (.ctxpin first count pin) s {} fun c =>
    if !rangeOk (c.k.budgetOf c.g.role) (.v first) count.toNat then c.illegal 2
    else
      let named := (List.range count.toNat).map (first.val + ·)
      if pin then
        .done (s.setGroup c.gid { c.g with
          pinned := (c.g.pinned ++ named.filter fun n => !c.g.pinned.contains n).take 64
          absent := c.g.absent.filter fun n => !(named.contains n && lineFills s c.g n) })
      else .done (s.setGroup c.gid { c.g with pinned := c.g.pinned.filter fun n => !named.contains n })

/-! ### `UNSEAT` and `SEMSIG` -/

/-- `UNSEAT` (R407, R411): where the hall holds a candidate of its team the group goes there, else it yields. -/
def execUnseat (s : State) : Host.Outcome State Fault Refusal :=
  issueLast .unseat s {} fun c =>
    if (candidatesOn s c.core).any fun (_, g) => decide (g.team = c.g.team) then
      .gone (leaveSeat (advance s c.gid c.words 0 false) c.gid)
    else .done (s.setGroup c.gid { c.g with yieldDue := 15, yieldFor := none })

/-- `SEMSIG` (R408). -/
def execSemsig (a b : UReg) (s : State) : Host.Outcome State Fault Refusal :=
  issue (.semsig a b) s { u := [a, b] } fun c =>
    let (v, β) := c.view.uni b
    c.memIssue s (c.access .semsig 0 c.lowest (Vector.replicate 32 (c.view.uni a).1) (capturedU v β) none none none) false

end Sys2Proof.Machine
end

