-- ==== Sys2Proof/Machine/Records.lean ====
section
/-! DEFINITION. The registrar's snapshots of records and their extent tables, the extent arena, and `RECSYNC`'s completion
(R237, R252, R267, R274). -/

namespace Sys2Proof.Machine

/-! ### The extent arena (R267) -/

/-- The first entry of a free run of n entries. -/
def arenaFree (use : List (Nat × Nat)) (cap n : Nat) : Option Nat :=
  (0 :: use.map fun (f, c) => f + c).filter (fun b => decide (b + n ≤ cap) && use.all fun (f, c) => decide (c = 0) || decide (b + n ≤ f) || decide (f + c ≤ b))
    |>.foldl (fun m b => match m with
      | some x => some (min x b)
      | none => some b) none

/-- Write extents to the arena from an entry on. -/
def writeArena (s : State) (part first : Nat) (l : List Extent) : State :=
  physWords s (bits (s.part part).regs.exBase 51 12 * 4096 + 32 * first) (l.flatMap extentWords)

/-- Take a run of the arena for some extents and write them there; `none` where no run is free. -/
def takeArena (s : State) (part : Nat) (l : List Extent) : Option (State × Nat) :=
  let p := s.part part
  match arenaFree p.arenaUse (2 ^ p.regs.exSize.toNat) l.length with
  | none => none
  | some f => some (writeArena (s.setPart part { p with arenaUse := (f, l.length) :: p.arenaUse }) part f l, f)

/-- Free the arena run at an entry. -/
def dropArena (s : State) (part first count : Nat) : State :=
  let p := s.part part
  s.setPart part { p with arenaUse := p.arenaUse.erase (first, count) }

/-- The arena index of a snapshot record. -/
def extIndex (w : List W64) : Nat := bits (wordAt w 4) 31 0

/-- Free every arena run of a kernel. -/
def dropKernelArena (s : State) (kid : Nat) : State :=
  let k := s.kernel kid
  k.records.foldl (fun s (i, w) => dropArena s k.part (extIndex w) ((KMap.get? k.extents i).getD []).length) s

/-! ### Snapshots (R237) -/

/-- The extents of a record as read: none for a record malformed by its own fields. -/
def recordExtents (s : State) (asid : Nat) (w : List W64) : List Extent :=
  let r := recOf w
  if r.bad then [] else buildExtents s asid r.base r.len

/-- Put one record into a kernel's snapshot with its extents; `none` where the arena has no room. -/
def putRecord (s : State) (kid i : Nat) (w : List W64) : Option State :=
  let k := s.kernel kid
  let l := recordExtents s k.asid w
  match takeArena s k.part l with
  | none => none
  | some (s, f) =>
    let k := s.kernel kid
    let w := (w.take 4) ++ [BitVec.ofNat 64 (bits (wordAt w 4) 63 32 * 2 ^ 32 + f % 2 ^ 32)]
    some (s.setKernel kid { k with records := KMap.set k.records i w, extents := KMap.set k.extents i l })

/-- The five words of record i of a table read by the registrar; a record whose page is absent reads as malformed. -/
def tableRecord (s : State) (asid va i : Nat) : List W64 :=
  match readVirtBytes s asid (va + 40 * i) 40 with
  | some bs => (List.range 5).map fun j => BitVec.ofNat 64 ((List.range 8).foldr (fun b acc => (bs.getD (8 * j + b) 0).toNat + 256 * acc) 0)
  | none => List.replicate 5 (BitVec.allOnes 64)

/-- Snapshot a kernel's record table; `none` where the arena has no room, and nothing changes. -/
def snapshotTable (s : State) (kid : Nat) : Option State :=
  let k := s.kernel kid
  (List.range k.recCount).foldl (fun acc i => acc.bind fun s => putRecord s kid i (tableRecord s k.asid k.recTable i)) (some s)

/-- An extent of kind walk over the same bytes. -/
def Extent.walking (e : Extent) : Extent := extentOf (.migrating 0) e.lo e.hi

/-- Replace the extents of a snapshot record (R274, R278): a new arena run where their number changes. DESIGN CHOICE (log 105): where no
run is free, each old extent that `hit` names becomes one of kind walk in its place, which translates as what was to replace it would. -/
def setExtents (s : State) (kid i : Nat) (l : List Extent) (hit : Extent → Bool) : State :=
  let k := s.kernel kid
  let old := (KMap.get? k.extents i).getD []
  let w := (KMap.get? k.records i).getD []
  let inPlace (l : List Extent) : State := writeArena (s.setKernel kid { k with extents := KMap.set k.extents i l }) k.part (extIndex w) l
  if l = old then s
  else if l.length = old.length then inPlace l
  else match takeArena (dropArena s k.part (extIndex w) old.length) k.part l with
  | none => inPlace (old.map fun e => if hit e then e.walking else e)
  | some (s, f) =>
    s.setKernel kid { k with
      extents := KMap.set k.extents i l
      records := KMap.set k.records i ((w.take 4) ++ [BitVec.ofNat 64 (bits (wordAt w 4) 63 32 * 2 ^ 32 + f % 2 ^ 32)]) }

/-- At most 64 extents: the 64th, of kind walk, covers the rest (R267). -/
def capExtents (l : List Extent) : List Extent :=
  if l.length ≤ 64 then l
  else match l.drop 63, l.getLast? with
  | e :: _, some z => l.take 63 ++ [extentOf (.migrating 0) e.lo z.hi]
  | _, _ => l

/-- What an extent's bytes are as the page tables stand: its own extents, and one of kind walk for what more than 65 of them would cover. -/
def walkedAgain (s : State) (asid base : Nat) (e : Extent) : List Extent :=
  let l := extentLoop s asid base e.hi ((e.hi - e.lo) / 4096 + 2) e.lo []
  match l with
  | z :: _ => l.reverse ++ (if z.hi < e.hi then [extentOf (.migrating 0) z.hi e.hi] else [])
  | [] => [e]

/-- Re-walk the absent and walk extents of a record that pass a test (R274). -/
def rewalkWhere (s : State) (kid i : Nat) (p : Nat → Extent → Bool) : State :=
  let k := s.kernel kid
  let base := (recOf ((KMap.get? k.records i).getD [])).base
  let l := (KMap.get? k.extents i).getD []
  let hit (e : Extent) : Bool := (decide (e.kind = 1) || decide (e.kind = 2)) && p base e
  setExtents s kid i (capExtents (l.flatMap fun e => if hit e then walkedAgain s k.asid base e else [e])) hit

/-- Re-walk the absent and walk extents of a record that hold some offsets. -/
def rewalk (s : State) (kid i : Nat) (offs : List Nat) : State :=
  rewalkWhere s kid i fun _ e => offs.any fun o => decide (e.lo ≤ o) && decide (o < e.hi)

/-- Re-walk the extents that the unfinished elements of an access lie in. -/
def rewalkAccess (s : State) (kid : Nat) (a : Access) : State :=
  match a.record with
  | none => s
  | some (n, w) =>
    if a.generic then s
    else
      let offs (scale : Bool) : List Nat := (a.spots.filter fun p => p.scale = scale).map (·.off)
      let s := rewalk s kid n.val (offs false)
      if (recOf w).blk = 0 then s else rewalk s kid (recOf w).srec (offs true)

/-! ### `RECSYNC` (R252) -/

/-- The records that an access in flight uses. -/
def Access.uses (a : Access) (r : Option RecNo) : Bool := match a.record with
  | none => false
  | some (n, w) => match r with
    | none => true
    | some x => decide (n = x) || (decide ((recOf w).blk ≠ 0) && decide ((recOf w).srec = x.val))

/-- The records that a copy command reads and writes through, scale records included. -/
def CopyCmd.recordsUsed (c : CopyCmd) : List Nat :=
  if c.opcode = 0x77 ∨ c.opcode = 0xD2 then []
  else
    let withScale (f : Nat) (w : List W64) : List Nat :=
      if f < 224 then f :: (if (recOf w).blk = 0 then [] else [(recOf w).srec]) else []
    withScale (bits (wordAt c.words 0) 63 56) c.srcRec ++ withScale (bits (wordAt c.words 0) 55 48) c.dstRec ++
      (if c.opcode = 0xD3 then withScale (bits (wordAt c.words 2) 63 56) c.metaRec else [])

/-- A copy command that still moves elements uses a record. -/
def copyUsesRecord (c : CopyCmd) (r : Option RecNo) : Bool :=
  !c.ended && !c.released && c.recordsUsed.any fun f => match r with
    | none => true
    | some x => decide (f = x.val)

/-- No access of the task that uses the old snapshot is outstanding (R252 step 1). -/
def recordQuiet (s : State) (kid : Nat) (r : Option RecNo) : Bool :=
  s.groups.all fun (_, g) => decide (g.kernel ≠ kid) ||
    ((g.ld ++ g.st).all (fun x => match x.todo with
      | some a => x.performed || !a.uses r
      | none => true) &&
    g.parks.all (fun p => decide (p.cause = ParkCause.done) || !p.acc.uses r) && g.copies.all fun c => !copyUsesRecord c r)

/-- Finish a `RECSYNC` whose run is held: the read, with its acquire, and the new snapshot (R252). Where the extent arena has no room for it,
the run stays held, as a dispatch waits (R267, log 105). -/
def recsyncFinish (s : State) (gid : Nat) (acc : Access) (r : Option RecNo) : State :=
  match s.group? gid with
  | none => s
  | some g =>
    let k := s.kernel g.kernel
    let s0 := s
    if !recordQuiet s g.kernel r then s
    else
      let (s, l) := locateAll s g.core g.kernel acc acc.spots
      match trapPages l with
      | some t => trapHeld s gid t
      | none =>
        if !(missing l).isEmpty then
          parkGang s gid acc (match migratingOf l with
            | some v => .migration v
            | none => .fault) none g.run (absentSpots l)
        else
          let s := acquire s gid .dev
          let (s, bs, bad) := l.foldl (fun (x : State × List Nat × Bool) (p, f) => match f with
            | .at_ at_ pa =>
              let (s, e) := readSpot x.1 g.core (s.vfOf k.asid) false b16Exact p at_ pa
              (s, x.2.1 ++ [e.bits], x.2.2 || e.poison)
            | .absent | .migrating _ | .bad _ => x) (s, [], false)
          if bad then killPoison s gid
          else
            let first := match r with
              | some n => n.val
              | none => 0
            let word (i j : Nat) : W64 := BitVec.ofNat 64 ((List.range 8).foldr (fun b a => bs.getD (40 * i + 8 * j + b) 0 + 256 * a) 0)
            match (List.range (bs.length / 40)).foldl (fun acc i => acc.bind fun s =>
              let kn := s.kernel g.kernel
              let old := (KMap.get? kn.records (first + i)).getD []
              let freed := dropArena s k.part (extIndex old) ((KMap.get? kn.extents (first + i)).getD []).length
              putRecord freed g.kernel (first + i) ((List.range 5).map (word i))) (some s) with
            | some s => goOn s gid
            | none => s0

/-- `RECSYNC_COMPLETE` (R252). -/
def execRecsyncComplete (gid : Nat) (s : State) : Host.Outcome State Fault Refusal :=
  .next (tick (match s.group? gid with
    | some g => (match g.hold with
      | some (.recsync acc) => (match acc.op with
        | .recsync r => if g.seated then recsyncFinish s gid acc r else s
        | _ => s)
      | _ => s)
    | none => s))

end Sys2Proof.Machine
end

