-- ==== Sys2Proof/Machine/System.lean ====
section
/-! DEFINITION. Trap and system instructions: `TRAP`, the return from the handler, the frame and the block as the handler
sees them, the counters, and the error log (R432–R436, R446, R447). -/

namespace Sys2Proof.Machine

/-- `TRAP` (R433). -/
def execTrap (n : BitVec 16) (s : State) : Host.Outcome State Fault Refusal :=
  issue (.trap n) s {} fun c =>
    if c.lanes = 0 then .done s else .trap (trapOf 0x10 [BitVec.ofNat 64 n.toNat, BitVec.ofNat 64 c.lanes.toNat])

/-! ### `TRET` (R434) -/

/-- A stack as the saved copy holds it is one that `TRET` accepts (R70, R434). -/
def savedStackOk (s : State) (g : Group) (w : Nat → W64) (t i : Nat) (exited : BitVec 4) (depth : Nat) : Bool :=
  let k := s.kernel g.kernel
  (List.range depth).all fun j => match stackEntryOf (w (t + 128 * i + 8 * j)) with
    | none => false
    | some e => decide (e.mask &&& exited = 0) &&
        (decide (e.kind ≠ .rejoin) || !e.jv || (match codeWord s { g with handler := none } (k.code.va + 4 * e.pc.toNat) with
          | some x => decide (bits x 31 24 = 0x03)
          | none => false))

/-- The saved copy passes the checks of `TRET` (R434). -/
def savedOk (s : State) (g : Group) : Bool :=
  let k := s.kernel g.kernel
  let t := blockTail (k.budgetOf g.role)
  let w (off : Nat) : W64 := (KMap.get? g.saved off).getD 0
  !isUntracked (BitVec.ofNat 16 (bits (w 0x320) 15 0)) &&
  (List.range 8).all fun i =>
    let a := w (0x2A0 + 16 * i)
    let depth := bits (w (0x2A8 + 16 * i)) 4 0
    let exited : BitVec 4 := BitVec.ofNat 4 (bits a 63 60)
    modeLegal (BitVec.ofNat 24 (bits a 55 32)) && decide (depth ≤ 16) && decide (exited = g.entryExited.getD i 0) && savedStackOk s g w t i exited depth

/-- The long-latency instructions (R46): those that take a trailer flag. -/
def longLatency (i : Instr) (mode : BitVec 24) : Bool :=
  let narrow := match tyOf (modeType mode) with
    | some t => decide (t.w ≤ 8)
    | none => false
  match i with
  | .rcp d _ | .rsq d _ | .sqrt d _ | .exp2 d _ | .log2 d _ | .sinpi d _ | .cospi d _ | .tanh d _ | .sigm d _ | .fdivf d _ _
  | .shfl d _ _ | .shflx d _ _ _ _ | .bcst d _ _ | .redl d _ _ _ _ | .scanl d _ _ _ _ _ | .qblk d _ _ _ | .qapply d _ _ => decide (d ≠ .discard)
  | .cvt d _ _ src => decide (d ≠ .discard) && (narrow || (match tyOf src.toNat with
    | some t => decide (t.w ≤ 8)
    | none => false))
  | .pack d _ => decide (d ≠ .discard) && narrow
  | .unpk _ _ _ _ => narrow
  | .dq _ _ _ | .vote _ _ _ _ | .ballot _ _ | .rwalk _ _ _ | .rnext _ _ _ | .segm _ _ _ | .accrd _ _ _ _ | .sld _ _ _ => true
  | _ => false

/-- The run that a skip resumes: past the trapping instruction, whose trailer flag, if it takes one, is passed over (R46, R434). -/
def skipRun (r : Run) (mode : BitVec 24) (interlocked : Bool) : Run :=
  let n := headLen r.words
  let long := match decode r.words with
    | .ok (i, _) => longLatency i mode
    | .error _ => false
  let trl := if long && !interlocked then (match lowestBit r.trl with
      | some b => r.trl &&& ~~~(BitVec.ofNat 12 (2 ^ b))
      | none => r.trl) else r.trl
  { r with words := r.words.drop n, pc := r.pc + BitVec.ofNat 64 (4 * n), trl := trl, begun := true, micro := 0, slipped := false, stalled := false }

/-- Leave handler mode: the saved copy, and the trapping gang's run (R430, R434). -/
def returnFromHandler (s : State) (gid : Nat) (skip : Bool) : State :=
  match s.group? gid with
  | none => s
  | some g =>
    let k := s.kernel g.kernel
    let v := k.budgetOf g.role
    let pc := BitVec.ofNat 64 (bits (wordAt g.frame 0) 59 0)
    let w1 := wordAt g.frame 1
    let slices : BitVec 8 := BitVec.ofNat 8 (bits w1 21 14)
    let h := restoreWords { g with unsettled := [] } k.fullMask k.code.va v fun off => (KMap.get? g.saved off).getD 0
    let back := maskOf 8 fun i => bit slices i && decide ((h.slice i).pc = pc)
    let h := { h with
      frame := g.frame.set 1 (BitVec.ofNat 64 (setBits w1 28 28 0).toNat), x := if g.inrun then g.savedX else []
      handler := none, saved := [], savedX := [], resume := none, run := none, hold := none, notBefore := s.clock }
    match g.resume with
    | none => s.setGroup gid h
    | some r =>
      let r := { r with slices := back, stalled := false }
      let h := if back = 0 then h else { h with lastGang := firstSlice back }
      if back = 0 then s.setGroup gid h
      else if !skip || bit w1 27 then s.setGroup gid { h with run := some r }
      else
        let n := skipRun r (h.slice (firstSlice back)).mode k.code.interlocked
        if n.words.isEmpty then
          let target := if r.trailer then n.pc + 4 else n.pc
          s.setGroup gid ((h.mapSlices back fun _ sl => { sl with pc := target }).endRun r k.code.interlocked s.clock)
        else s.setGroup gid { h.mapSlices back (fun _ sl => { sl with pc := n.pc }) with run := some n }

/-- `TRET` (R434). -/
def execTret (mode : BitVec 2) (s : State) : Host.Outcome State Fault Refusal :=
  issueLast (.tret mode) s {} fun c =>
    if c.lacksSlice then c.illegal 5
    else if !c.g.inHandler then c.illegal 6
    else if !savedOk s c.g || mode = 2 then
      .gone (killGroup s c.gid fun g => groupRec s g 0x08 (bits (wordAt g.frame 1) 7 0) c.pc)
    else .gone (returnFromHandler (pmcCore s c.core (c.vf s) 2 1) c.gid (decide (mode = 1)))

/-! ### The frame and the block (R435, R436) -/

/-- A uniform result, exact. -/
def Gang.putU (c : Gang) (s : State) (w : Nat) (d : UReg) (v : W64) : Result :=
  .done (s.setGroup c.gid (c.put c.g w [.u d v (scoreB c.k.score b16Exact)]))

/-- A uniform result of an instruction that holds its run until it completes: no reader comes too early. -/
def Gang.giveU (c : Gang) (s : State) (d : UReg) (v : W64) : Result :=
  let w : RegWrite := .u d v (scoreB c.k.score b16Exact)
  .done (s.modGroup c.gid fun g => (g.overtake c.view.serial c.run.id w).land c.k.score c.run.id w)

/-- `RDTRAP`. -/
def execRdtrap (d : UReg) (k : BitVec 3) (s : State) : Host.Outcome State Fault Refusal :=
  issue (.rdtrap d k) s { u := [d] } fun c => c.putU s 4 d (wordAt c.g.frame k.toNat)

/-- The traps of `RDCTX` and `WRCTX` (R435, R488). -/
def Gang.blockTrap (c : Gang) (off : Nat) : Option TrapInfo :=
  let lanes := BitVec.ofNat 64 c.lanes.toNat
  if !c.g.inHandler then some (trapOf 0x05 [7, lanes])
  else if off % 8 ≠ 0 then some (trapOf 0x04 [1, lanes])
  else if blockBytes (c.k.budgetOf c.g.role) ≤ off then some (trapOf 0x05 [7, lanes])
  else none

/-- The poisoned word of a register line at a block offset (R441). -/
def poisonAt (g : Group) (off : Nat) : Option Nat :=
  if 0xA00 ≤ off then
    let x := (off - 0xA00) / 192 * 64 + (off - 0xA00) % 192 / 8
    if g.poison.contains x then some x else none
  else none

/-- `RDCTX`. -/
def execRdctx (d a : UReg) (s : State) : Host.Outcome State Fault Refusal :=
  issue (.rdctx d a) s { u := [d, a] } fun c =>
    let off := (c.view.uni a).1.toNat
    match c.blockTrap off with
    | some t => .trap t
    | none =>
      if (poisonAt c.g off).isSome then .gone (killPoison s c.gid)
      else c.giveU s d (blockWord s c.gid c.g off)

/-- `WRCTX`. -/
def execWrctx (a b : UReg) (s : State) : Host.Outcome State Fault Refusal :=
  issue (.wrctx a b) s { u := [a, b] } fun c =>
    let off := (c.view.uni a).1.toNat
    match c.blockTrap off with
    | some t => .trap t
    | none =>
      let s := writeBlockWord s c.gid off (c.view.uni b).1
      .done (match poisonAt c.g off with
        | some x => s.modGroup c.gid fun g => { g with poison := g.poison.filter fun y => decide (y ≠ x) }
        | none => s)

/-! ### Counters and the error log (R446, R447) -/

/-- Counter n as a group reads it (R447). -/
def readCounter (s : State) (g : Group) (n : Nat) : BitVec 48 :=
  let k := s.kernel g.kernel
  let vf := s.vfOf k.asid
  if n ≤ 9 then (KMap.get? ((account s g.core).core g.core).pmc (vf * 64 + n)).getD 0
  else if (16 ≤ n ∧ n ≤ 18) ∨ ((n = 24 ∨ n = 25) ∧ vf = 64) then Config.hubCount s.serial n
  else if n ≤ 21 ∧ 19 ≤ n then (KMap.get? (s.part k.part).pmc (vf * 64 + n)).getD 0
  else if n = 26 ∧ vf = 64 then s.dev.fabricRetrains
  else 0

/-- `PMC` (R447). -/
def execPmc (d : UReg) (counter : BitVec 6) (s : State) : Host.Outcome State Fault Refusal :=
  issue (.pmc d counter) s { u := [d] } fun c => c.putU s 4 d (BitVec.ofNat 64 (readCounter s c.g counter.toNat).toNat)

/-- `ERRLOG` (R446). -/
def execErrlog (d a b : UReg) (s : State) : Host.Outcome State Fault Refusal :=
  issue (.errlog d a b) s { u := [d, a, b] } fun c =>
    let (s, n) := errorRecord s c.k.part { groupRec s c.g 0x10 0 c.pc with d0 := (c.view.uni a).1.toNat, d1 := (c.view.uni b).1.toNat }
    c.giveU s d (match n with
      | some n => BitVec.ofNat 64 n
      | none => BitVec.allOnes 64)

end Sys2Proof.Machine
end

