-- ==== Sys2Proof/Machine/Faults.lean ====
section
/-! DEFINITION. Results and counter steps that complete, the host's posts, and the replay of parked accesses (R47, R246,
R270–R279, R304). -/

namespace Sys2Proof.Machine

/-! ### Long-latency results (R47, R177, R487) -/

/-- The first result outstanding of a kind appears: its trap, or its writes, flags and card; its flag clears. -/
def completeResult (s : State) (gid : Nat) (kind : ResultKind) : State :=
  match s.group? gid with
  | none => s
  | some g => match g.pend.find? fun p => decide (p.kind = kind) with
    | none => s
    | some p =>
      let k := s.kernel g.kernel
      let g := { g with
        pend := g.pend.eraseP fun p => decide (p.kind = kind)
        cflags := (match p.flag with
          | some f => g.cflags &&& ~~~flagBit f
          | none => g.cflags) }
      match p.trap with
      | some t =>
        let g := { g with run := g.run.map fun r => (match p.flag with
          | some f => { r with trl := r.trl ||| flagBit f }
          | none => r) }
        trapHeld (s.setGroup gid g) gid t
      | none =>
        let s := s.setGroup gid ((g.stick p.sticky).landAll k.score p.run p.writes)
        let s := match p.card with
          | some c => writeCard s gid c.words
          | none => s
        if p.holds then goOn s gid else s

/-- `SFU_RESULT`. -/
def execSfuResult (gid : Nat) (s : State) : Host.Outcome State Fault Refusal := .next (tick (completeResult s gid .sfu))
/-- A group's oldest cross-lane result. -/
def xlaneHead (g : Group) : Option Pending := g.pend.find? fun p => decide (p.kind = .xlane)

/-- A quarter's cross-lane network writes results in issue order: no group of the same quarter has an older one (R227). -/
def xlaneTurn (s : State) (gid : Nat) : Bool :=
  match s.group? gid with
  | none => false
  | some g => match xlaneHead g with
    | none => false
    | some p => s.groups.all fun (_, h) => decide (h.core ≠ g.core) || !h.live || (match xlaneHead h with
      | some q => decide (q.quarter ≠ p.quarter) || decide (p.issued ≤ q.issued)
      | none => true)

/-- `XLANE_RESULT` (R227). -/
def execXlaneResult (gid : Nat) (s : State) : Host.Outcome State Fault Refusal :=
  .next (tick (if xlaneTurn s gid then completeResult s gid .xlane else s))
/-- `CONVERSION_RESULT`. -/
def execConversionResult (gid : Nat) (s : State) : Host.Outcome State Fault Refusal := .next (tick (completeResult s gid .conv))
/-- `SLD_COMPLETE`. -/
def execSldComplete (gid : Nat) (s : State) : Host.Outcome State Fault Refusal := .next (tick (completeResult s gid .sld))

/-! ### Counter steps (R246, R304) -/

/-- `LD_STEP_COMPLETE`: the oldest step of the ld counter, once it has performed, writes its registers and is lowered. -/
def execLdStepComplete (gid : Nat) (s : State) : Host.Outcome State Fault Refusal :=
  .next (tick (match s.group? gid with
    | none => s
    | some g => match g.ld with
      | x :: rest =>
        if x.performed then s.setGroup gid (({ g with ld := rest }.stick x.sticky).landAll (s.kernel g.kernel).score x.run x.writes) else s
      | [] => s))

/-- `ST_STEP_COMPLETE`: the oldest step of the st counter, once it has performed, is lowered. -/
def execStStepComplete (gid : Nat) (s : State) : Host.Outcome State Fault Refusal :=
  .next (tick (match s.group? gid with
    | none => s
    | some g => match g.st with
      | x :: rest => if x.performed then s.setGroup gid ({ g with st := rest }.stick x.sticky) else s
      | [] => s))

/-- `HELD_FAULT_ENTRY`: held entries are written while the queue has room (R273). -/
def execHeldFaultEntry (part : Nat) (s : State) : Host.Outcome State Fault Refusal :=
  .next (tick (writeHeld s part ((s.part part).held.length + 1)))

/-! ### The context cache (R26, R276) -/

/-- `CONTEXT_CACHE_FILL`: the line that a group's issue misses arrives (R266, R402). Where its page is absent the group leaves its seat
with a context fault, where it is migrating the group waits for the wake, and a malformed translation traps (R264, R279). -/
def execContextCacheFill (gid : Nat) (s : State) : Host.Outcome State Fault Refusal :=
  .next (tick (match s.group? gid with
    | none => s
    | some g => match g.ctxMiss with
      | none => s
      | some n =>
        if g.ctxMoving.isSome then s
        else
          let va := s.blockVa g + 2560 + 192 * n
          let found (s : State) : State := fitContext (s.modGroup gid fun g => { g with ctxMiss := none, absent := g.absent.filter fun i => decide (i ≠ n) }) g.core
          match KMap.get? g.blockFrames (va / 4096) with
          | some _ => found s
          | none => match translate s g.core (s.kernel g.kernel).asid va with
            | (s, .page _ pa) => found (s.modGroup gid fun g => { g with blockFrames := KMap.set g.blockFrames (va / 4096) (pa / 4096) })
            | (s, .migrating v) => s.modGroup gid fun g => { g with ctxMoving := some v }
            | (s, .absent) => leaveSeat (raiseEntry s gid (contextFault s g va)) gid
            | (s, .malformed) => trapHeld (s.modGroup gid fun g => { g with ctxMiss := none }) gid (trapBlock va)))

/-! ### Posts (R272, R274, R276) -/

/-- The live group of a partition whose block lies at a VA (R399). -/
def groupAtBlock (s : State) (part va : Nat) : Option (Nat × Group) :=
  s.groups.find? fun (_, g) => g.live && decide ((s.kernel g.kernel).part = part) && decide (s.blockVa g = va)

/-- The record of a kill by a fault status (R445). -/
def killByStatus (s : State) (gid code : Nat) : State := killGroup s gid fun g => groupRec s g 0x0A code g.pcNow

/-- Set bits of FR_STAT. -/
def frFlag (s : State) (part n : Nat) : State := s.modRegs part fun r => { r with frStat := r.frStat ||| BitVec.ofNat 3 (2 ^ n) }

/-- `FR_POST` (R274, R276). -/
def execFrPost (part : Nat) (value : BitVec 64) (s : State) : Host.Outcome State Fault Refusal :=
  .next (tick (
    if !(hostReaches s && partThere s part) then s else
    let s := s.modRegs part fun r => { r with frPost := value }
    let va := bits value 59 10 * 1024
    let token : BitVec 8 := BitVec.ofNat 8 (bits value 7 0)
    let status := bits value 9 8
    if bits value 63 61 ≠ 0 then frFlag s part 2
    else match groupAtBlock s part va with
    | none => frFlag s part 0
    | some (gid, g) =>
      if bit value 60 then
        if status = 1 ∨ status = 3 then frFlag s part 2
        else if g.ctxToken ≠ some token then s
        else if status = 0 then s.setGroup gid { g with ctxPosted := true }
        else killByStatus s gid 0x07
      else if (blockNow s g 0).isNone then frFlag s part 1
      else if !bit g.resWord 62 || g.posted || decide (bits g.resWord 7 0 ≠ token.toNat) then frFlag s part 0
      else setResWord s gid (BitVec.ofNat 64 (2 ^ 63 + 2 ^ 62 + status * 2 ^ 16 + token.toNat))))

/-! ### Replay (R270, R274, R275) -/

/-- Replace a park of a group. -/
def setPark (s : State) (gid i : Nat) (p : Park) : State := s.modGroup gid fun g => { g with parks := listSet g.parks i p }

/-- Remove a park of a group. -/
def dropPark (s : State) (gid i : Nat) : State := s.modGroup gid fun g => { g with parks := g.parks.take i ++ g.parks.drop (i + 1) }

/-- A parked gang's access traps: its step counts as performed, with what its other lanes did, and the gang traps at its PC, where
another gang's run is in progress only once it is picked again (R275, R425). DESIGN CHOICE (log 100): what the lanes that performed at
the original issue wrote stays, whatever the trap; the rules say so for a protection status alone. The group's other parked gangs
replay later. -/
def trapPark (s : State) (gid i : Nat) (p : Park) (t : TrapInfo) : State :=
  let s := match p.step, p.acc.op with
    | some id, .sld => dropFlag s gid id
    | some id, _ => modStep s gid id fun x => { x with performed := x.places.isEmpty, todo := x.todo.map fun a => { a with lanes := 0 } }
    | none, _ => s
  let run := match p.acc.op, p.step, p.run with
    | .sld, some id, some r => some (if h : id < 12 then { r with trl := r.trl ||| flagBit ⟨id, h⟩ } else r)
    | _, _, r => r
  let idle : Bool := match s.group? gid with
    | some g => g.run.isNone
    | none => true
  let s := if idle then
      takeTrap ((dropPark s gid i).modGroup gid fun g => { g with x := p.x }) gid { slices := p.acc.slices, pc := p.acc.pc, word := p.acc.word, run := run } t
    else setPark s gid i { p with cause := .done, run := run, trap := some t }
  s.modGroup gid fun g => if g.outstanding then g
    else { g with parks := g.parks.map fun q => if q.cause = .fault then { q with cause := .ready } else q }

/-- A parked gang whose access waits again: an absent page raises an entry, unless one is outstanding (R271). -/
def repark (s : State) (gid i : Nat) (p : Park) (a : Access) (cause : ParkCause) (faults : List Spot) : State :=
  let s := setPark s gid i { p with acc := a, cause := cause }
  if cause = .fault then raiseEntry s gid (accessFault a faults a.lanes) else s

/-- The cause of unfinished lanes. -/
def causeOf (m : Option Nat) : ParkCause := match m with
  | some v => .migration v
  | none => .fault

/-- Replay an access of a counter step, or an `SLD`, or a `CCTL`: its unfinished lanes perform where their pages are present. -/
def replayLanes (s : State) (gid i : Nat) (p : Park) : State :=
  let s := settleAtomics s gid (match s.group? gid with
    | some g => bytesOf (locateAll s g.core g.kernel p.acc p.acc.spots).2
    | none => [])
  let r := performAccess s gid p.acc
  match r.trap with
  | some t => trapPark r.s gid i p t
  | none =>
    if r.poison then r.s
    else
      let s := drainTargets r.s gid (r.places.map fun x => (x.2.2, p.acc.ty.w / 8))
      let a := { p.acc with lanes := r.left }
      match p.acc.op with
      | .sld =>
        if r.left ≠ 0 then repark s gid i p p.acc (causeOf r.migrating) r.faults
        else
          let flag : Option (Fin 12) := match p.step with
            | some id => if h : id < 12 then some ⟨id, h⟩ else none
            | none => none
          let s := setPark s gid i { p with cause := .done }
          s.modGroup gid fun g => { g with pend := g.pend ++
            [{ kind := .sld, flag := flag, writes := r.writes, sticky := 0, card := none, holds := false, trap := none, quarter := g.quarter, slices := p.acc.slices, run := (p.run.map Run.id).getD 0, issued := s.serial, known := true }] }
      | _ =>
        let s := match p.step with
          | none => s
          | some id => modStep s gid id fun x =>
            { x with
              writes := x.writes ++ r.writes, sticky := x.sticky ||| r.sticky, places := x.places ++ r.places
              performed := decide (r.left = 0) && x.places.isEmpty && r.places.isEmpty
              todo := (match p.acc.op with
                | .atomic _ => some a
                | _ => none) }
        if r.left = 0 then setPark s gid i { p with cause := .done }
        else repark s gid i p a (causeOf r.migrating) r.faults

/-- Replay an access that holds its run: the run comes back, and the instruction goes on where it parked. Only when no other
gang's run is in progress. -/
def replayHeld (s : State) (gid i : Nat) (p : Park) : State :=
  match s.group? gid with
  | none => s
  | some g =>
    if g.run.isSome then setPark s gid i { p with cause := .ready }
    else
      let back (s : State) (h : Option Hold) : State := (dropPark s gid i).modGroup gid fun g => { g with run := p.run, x := p.x, hold := h, lastGang := firstSlice p.acc.slices }
      match p.acc.op with
      | .enq _ _ => back s (some (.enq p.acc))
      | .recsync _ => back s (some (.recsync p.acc))
      | .waita =>
        (match waitAccess (back s (some .waita)) gid p.acc with
        | (s, none) => s
        | (_, some (.trap t)) => trapPark s gid i p t
        | (_, some (.wait a cause l)) => repark s gid i p a cause l
        | (s, some (.table _)) | (s, some .poison) => s)
      | .ctab h _ =>
        (match readTable s gid p.acc with
        | (_, .trap t) => trapPark s gid i p t
        | (s, .poison) => killPoison s gid
        | (_, .wait a cause l) => repark s gid i p a cause l
        | (s, .table b) =>
          let s := back s (some .decode)
          (match s.group? gid with
          | some g => queueTable s gid g p.acc h b
          | none => s))
      | _ => s

/-- Replay one parked gang, unless it follows an earlier one of its group that is still unfinished at its bytes (R247), or its
group is in its handler and the gang is not. -/
def replayPark (s : State) (gid i : Nat) : State :=
  match s.group? gid with
  | none => s
  | some g => match g.parks[i]? with
    | none => s
    | some p =>
      if p.cause = .done || !g.live then s
      else if g.inHandler && !p.handler then setPark s gid i { p with cause := .ready }
      else if (g.parks.take i).any fun q => decide (q.cause ≠ ParkCause.done) && mayOverlap q.acc.spots p.acc.spots then
        setPark s gid i { p with cause := .heldBehind }
      else match p.acc.op with
      | .fetch | .pref => dropPark s gid i
      | .enq _ _ | .recsync _ | .waita | .ctab _ _ => replayHeld s gid i p
      | .ld | .st _ | .ldg _ | .stg | .sld | .sst | .cctl _ | .atomic _ | .reduce _ | .semsig => replayLanes s gid i p

/-- Replay the parks of a group in order from the last to the first index given; dropping one shifts only those behind it. -/
def replayFrom (s : State) (gid : Nat) : Nat → Nat → State
  | 0, _ => s
  | n + 1, i =>
    let before := match s.group? gid with
      | some g => g.parks.length
      | none => 0
    let s := replayPark s gid i
    let after := match s.group? gid with
      | some g => g.parks.length
      | none => 0
    replayFrom s gid n (if after < before then i else i + 1)

/-- Every parked gang of a group replays (R271, R274). -/
def replayAll (s : State) (gid : Nat) : State :=
  match s.group? gid with
  | some g => replayFrom s gid g.parks.length 0
  | none => s

/-- The first park that waits on a fault. -/
def firstFault (g : Group) : Option (Nat × Park) :=
  (List.range g.parks.length).findSome? fun i => match g.parks[i]? with
    | some p => if p.cause = .fault then some (i, p) else none
    | none => none

/-- The trap 0x05 of a protection status (R274, R488). -/
def trapProtection (a : Access) : TrapInfo :=
  let vas := a.spots.map (·.va)
  trapOf 0x05 [5, BitVec.ofNat 64 (if a.single then 0xFFFFFFFF else a.lanes.toNat), BitVec.ofNat 64 (vas.foldl min (vas.headD a.pc.toNat))]

/-- A protection status for a faulted release (R277): the refused sectors go, and the instruction traps, or the group does after
a fence that it has passed, or at its last `EXIT`. -/
def refuseRelease (s : State) (gid : Nat) (g : Group) (r : Release) : State :=
  let (s, n) := discardRefused s gid r.pc.toNat
  let s := s.modGroup gid fun g => { g with release := none, hold := if g.hold = some .stopped then none else g.hold }
  match r.next with
  | .groupEnd => takeTrap s gid { slices := 0, pc := r.pc, word := (codeWord s g r.pc.toNat).getD 0, run := none } (trapRefused n r.pc false)
  | .fence false => s.modGroup gid fun g => { g with asyncTraps := g.asyncTraps ++ [trapRefused n r.pc true] }
  | .fence true | .pbar _ | .arrive _ _ _ _ => if g.hold = some .release then trapHeld s gid (trapRefused n r.pc false) else s

/-- A protection status for the group's oldest command (R360, R361, R277). -/
def refuseCopy (s : State) (gid : Nat) (kind : Nat) (cmd : CopyCmd) : State :=
  if kind = 4 then setCopy s gid { cmd with faulted := false, ended := true, endDetail := (cmd.endDetail.1, cmd.done) }
  else
    let (s, n) := discardRefused s gid cmd.pc.toNat
    setCopy s gid { cmd with faulted := false, ended := true, endDetail := (0, n) }

/-- A protection status for the release of the group's oldest batch (R277, R361). -/
def refuseBatch (s : State) (gid : Nat) (b : Batch) : State :=
  let (s, n) := discardRefused s gid b.pc.toNat
  let t : TrapInfo := { trapOf 0x05 [6, 0, 0, b.pc, BitVec.ofNat 64 n] with async := true }
  s.modGroup gid fun g => { g with mx := g.mx.drop 1, asyncTraps := g.asyncTraps ++ [t] }

/-- The word is consumed by an engine command: of a copy or of a batch. -/
def engineEntry (g : Group) : Bool :=
  (match g.copies with
    | c :: _ => c.faulted
    | [] => false) || (match g.mx with
    | b :: _ => b.faulted
    | [] => false)

/-- Re-walk the extents of a copy command's records, scale records included, that hold addresses of its faulting row, in the retry of its
fault (R360). -/
def rewalkCopy (s : State) (kid : Nat) (c : CopyCmd) : State :=
  c.recordsUsed.foldl (fun s f => rewalkWhere s kid f fun base e => decide (base + e.lo ≤ c.endDetail.2) && decide (c.endDetail.1 < base + e.hi)) s

/-- The re-walks of a retry: of the extents that unfinished elements of the group's parked gangs lie in, and of its faulted command (R274). -/
def rewalkGroup (s : State) (g : Group) : State :=
  let s := g.parks.foldl (fun s q => if q.cause = .done then s else rewalkAccess s g.kernel q.acc) s
  match g.copies.find? fun c => c.faulted with
  | some c => rewalkCopy s g.kernel c
  | none => s

/-- A faulted release is tried again (R277). -/
def retryRelease (s : State) (gid : Nat) : State :=
  s.modGroup gid fun g => match g.release with
    | some r => if r.faulted then { g with release := some { r with faulted := false }, hold := if g.hold = some .stopped then none else g.hold } else g
    | none => g

/-- The status of a consumed word, 0 or 1, acts on what raised the entry: an engine command, the group's release, or a parked access. -/
def actStatus (s : State) (gid : Nat) (g : Group) (status : Nat) : State :=
  match g.copies.find? fun c => c.faulted, g.mx.find? fun b => b.faulted with
  | some cmd, _ => retryRelease (if status = 0 then setCopy s gid { cmd with faulted := false } else refuseCopy s gid g.entryKind cmd) gid
  | none, some b =>
    retryRelease (if status = 0 then s.modGroup gid fun g => { g with mx := { b with faulted := false } :: g.mx.drop 1 } else refuseBatch s gid b) gid
  | none, none =>
    if g.entryKind = 3 then
      (match g.release with
      | some r => if r.faulted then (if status = 0 then retryRelease s gid else refuseRelease s gid g r) else s
      | none => s)
    else
      let s := retryRelease s gid
      match firstFault g with
      | none => s
      | some (i, p) => if status = 0 then s else trapPark s gid i p (trapProtection p.acc)

/-- Consume a posted word (R271, R274, R277, R360): the status acts, and every parked gang of the group replays. -/
def consumeWord (s : State) (gid : Nat) (g : Group) : State :=
  let status := bits g.resWord 17 16
  let s := setResWord s gid (setBits g.resWord 63 62 0)
  if 2 ≤ status then
    let s := if status = 3 then frFlag s (s.kernel g.kernel).part 2 else s
    killByStatus s gid 0x06
  else
    let s := actStatus (if status = 0 then rewalkGroup s g else s) gid g status
    if status = 1 && decide (g.entryKind < 2) && (firstFault g).isSome then s else replayAll s gid

/-- `FAULT_REPLAY` (R274, R275, R279): a posted word is consumed, by the group in its seat or by its engine command wherever
it is; else the gangs whose cause is past replay. -/
def execFaultReplay (gid : Nat) (s : State) : Host.Outcome State Fault Refusal :=
  .next (tick (match s.group? gid with
    | none => s
    | some g =>
      if !g.live then s
      else if g.posted then
        if engineEntry g && !engineStopped s g then consumeWord s gid g
        else if g.seated && (!g.inHandler || g.parks.any fun p => p.handler && decide (p.cause = ParkCause.fault)) then consumeWord s gid g
        else s
      else if g.seated && g.parks.any (fun p => decide (p.cause = ParkCause.ready) && decide (p.handler = g.inHandler)) then replayAll s gid
      else s))

/-! ### Roll call and protected mode (R439, R440) -/

/-- A group whose dependence state's copies differ at an issue, n times in a row: each mismatch cancels and reissues with the
same results, at most three times, and then kills. -/
def rollCall (s : State) (gid n : Nat) : State :=
  match s.group? gid with
  | none => s
  | some g =>
    if g.seated && g.run.isSome && decide (0 < n) then
      let part := (s.kernel g.kernel).part
      let s := pmcCore s g.core (s.vfOf (s.kernel g.kernel).asid) 4 (min n 3)
      let s := (errorRecord s part { groupRec s g 0x02 0 g.pcNow with count := min n 3 }).1
      if 3 < n then killGroup s gid fun g => groupRec s g 0x0D 0x20 g.pcNow else s
    else s

/-- The instructions before which a protected launch compares lanes and shadows. -/
def comparePoint (i : Instr) : Bool := match i with
  | .st _ _ _ | .stg _ _ | .stsig _ _ _ | .tst _ _ _ | .tstx _ _ _ | .tfill _ _ _ | .lsts _ _ _ => true
  | .aadd _ _ _ | .aand _ _ _ | .aor _ _ _ | .axor _ _ _ | .amin _ _ _ | .amax _ _ _ | .axchg _ _ _ | .acas _ _ _ | .aincw _ _ _
  | .aaddb _ _ _ | .afadd _ _ _ | .redadd _ _ _ | .redfadd _ _ _ | .redmin _ _ _ | .redmax _ _ _ => true
  | .sst _ _ _ | .semsig _ _ | .enq _ _ _ | .wrctx _ _ | .errlog _ _ _ | .cpyo _ _ | .accrd _ _ _ _ => true
  | _ => false

/-- A group of a protected launch whose lanes differ from their shadows at a compare point is killed before any lane performs. -/
def laneMismatch (s : State) (gid : Nat) (lanes : BitVec 32) : State :=
  match s.group? gid with
  | none => s
  | some g => match g.run with
    | none => s
    | some r => match decode r.words with
      | .ok (i, _) =>
        if (s.kernel g.kernel).prot && g.seated && comparePoint i then
          killGroup s gid fun g => { groupRec s g 0x05 0x21 g.pcNow with d0 := lanes.toNat }
        else s
      | .error _ => s

end Sys2Proof.Machine
end

