-- ==== Sys2Proof/Machine/Issue.lean ====
section
/-! DEFINITION. The issue of runs: the pick of a quarter, the fetch of a run and the instruction cache, and the steps that
free and fill seats (R31, R43–R47, R53, R82, R84–R91, R271, R319, R409–R411). -/

namespace Sys2Proof.Machine

/-- The serial number passes, and no clock. -/
def bump (s : State) : State := { s with serial := s.serial + 1 }

/-! ### Gangs (R19, R83, R89) -/

/-- A fetch that met a page fault parks the whole group (R271). -/
def Group.fetchParked (g : Group) : Bool := g.parks.any fun p => decide (p.acc.op = .fetch) && decide (p.handler = g.inHandler)

/-- The slices that can issue: not exited, not waiting at `REGANG`, and not parked on an access. -/
def Group.freeSlices (g : Group) (k : Kernel) : BitVec 8 :=
  let parked : BitVec 8 := g.parks.foldl (fun m p => if p.handler = g.inHandler then m ||| p.acc.slices else m) 0
  g.liveSlices k &&& ~~~parked &&& maskOf 8 fun i => !(g.slice i).parked

/-- The MODE under which a slice's next run starts (R96): its newest, or, by a free choice of the slice's own, the one before an
early `SETM`. -/
def startMode (s : State) (g : Group) (i : Nat) : BitVec 24 :=
  match (if (s.codeOf g).interlocked then none else (g.slice i).early s.clock s.serial) with
  | some m => if Config.newerVersion s.serial 341 i then (g.slice i).mode else m
  | none => (g.slice i).mode

/-- A gang whose run may start or go on: its slices, whether it was formed by an older MODE (R96), and the park of a run that
goes on past its access. -/
structure GangPick where
  slices : BitVec 8
  early : Bool
  park : Option Nat
  deriving DecidableEq, Repr

/-- The gangs among some slices: those whose PC and MODE agree, in ascending order of lowest slice. -/
def gangsOf (s : State) (g : Group) (m : BitVec 8) : List GangPick :=
  let same (i j : Nat) : Bool := decide ((g.slice i).pc = (g.slice j).pc) && decide ((g.slice i).mode = (g.slice j).mode) &&
    decide (startMode s g i = startMode s g j)
  (setBitsOf m).filterMap fun i =>
    if (setBitsOf m).any fun j => decide (j < i) && same i j then none
    else some { slices := m &&& maskOf 8 fun j => same i j, early := decide (startMode s g i ≠ (g.slice i).mode), park := none }

/-- The gangs whose access is complete, and whose run goes on. -/
def doneGangs (g : Group) : List GangPick :=
  (List.range g.parks.length).filterMap fun i => match g.parks[i]? with
    | some p => if p.cause = ParkCause.done ∧ p.handler = g.inHandler then some { slices := p.acc.slices, early := false, park := some i } else none
    | none => none

/-- In the order in which they are tried: ascending lowest slice, after the gang that issued the last run, wrapping round (R89). -/
def gangOrder (g : Group) (l : List GangPick) : List GangPick :=
  let up := (List.range 8).flatMap fun i => l.filter fun m => decide (firstSlice m.slices = i)
  (up.filter fun m => decide (g.lastGang < firstSlice m.slices)) ++ up.filter fun m => decide (firstSlice m.slices ≤ g.lastGang)

/-- The gang's next run may start: the gap and the redirect, and the wait mask of its header, where it can be read; a run in the
middle waits for the gap alone (R44, R85, R87). -/
def gangReady (s : State) (g : Group) (m : GangPick) : Bool :=
  decide (g.notBefore ≤ s.clock) && (m.park.isSome ||
    (setBitsOf m.slices).all (fun i => decide ((g.slice i).notBefore ≤ s.clock)) &&
      ((s.codeOf g).interlocked || (match codeWord s g (g.slice (firstSlice m.slices)).pc.toNat with
        | some w => decide (bits w 31 24 ≠ 0xF0) || decide (BitVec.ofNat 12 (bits w 18 7) &&& g.cflags = 0)
        | none => true)))

/-- The gangs of a group whose run may start or go on, in the order in which they are tried. -/
def readyGangs (s : State) (g : Group) : List GangPick :=
  if g.fetchParked then []
  else (gangOrder g (gangsOf s g (g.freeSlices (s.kernel g.kernel)) ++ doneGangs g)).filter (gangReady s g)

/-- The run in progress stands at an instruction whose completion flag is still set (R47). -/
def flagStalled (r : Run) (cflags : BitVec 12) (mode : BitVec 24) : Bool :=
  (match decode r.words with
    | .ok (i, _) => longLatency i mode
    | .error _ => false) &&
  (match lowestBit r.trl with
    | some f => bit cflags f
    | none => false)

/-- A group is eligible at a pick (R87). -/
def eligible (s : State) (g : Group) : Bool :=
  g.seated && !haltedCtx s g && g.ctxMiss.isNone && g.ctxMoving.isNone && g.hold.isNone && g.waita.isNone &&
    (match g.release with
      | some r => !r.faulted
      | none => true) &&
    (match g.run with
      | some r => !flagStalled r g.cflags (g.slice (firstSlice r.slices)).mode
      | none => !(readyGangs s g).isEmpty)

/-! ### The fetch of a run (R31, R43–R45, R271) -/

/-- What fetching a run comes to. -/
inductive Fetched where
  | run (r : Run) (wait : BitVec 12) (lines : List Nat)
  | trap (pc : Nat) (word : W32) (code : BitVec 8) (cause : Nat)
  | absent (va : Nat)
  | migrating (va vpage : Nat)

/-- Fetch one word: its value and instruction-cache line, or why it cannot be had. -/
def fetchAt (s : State) (g : Group) (va : Nat) : State × Except Fetched (W32 × Nat × Attr) :=
  if !(s.codeOf g).holds va then (s, .error (.trap va 0 0x05 4))
  else match translate s g.core (s.kernel g.kernel).asid va with
  | (s, .page a pa) =>
    if !a.x then (s, .error (.trap va 0 0x05 0))
    else if a.type = 1 ∨ a.type = 4 then (s, .error (.trap va 0 0x05 2))
    else
      let w := Memory.readN s.mem pa 4
      (s, .ok (BitVec.ofNat 32 w, pa / 128, a))
  | (s, .absent) => (s, .error (.absent va))
  | (s, .migrating v) => (s, .error (.migrating va v))
  | (s, .malformed) => (s, .error (.trap va 0 0x05 1))

/-- Fetch the words at addresses pc, pc + 4, …, the last first in the result. -/
def fetchBody (s : State) (g : Group) (pc : Nat) : Nat → State × Except Fetched (List W32 × List Nat)
  | 0 => (s, .ok ([], []))
  | n + 1 => match fetchBody s g pc n with
    | (s, .error e) => (s, .error e)
    | (s, .ok (ws, ls)) => match fetchAt s g (pc + 4 * n) with
      | (s, .error e) => (s, .error e)
      | (s, .ok (w, l, _)) => (s, .ok (w :: ws, l :: ls))

/-- Fetch the run whose header is at a PC. A word after the body that lies in the code section belongs to the fetch, since it
may be the run's trailer. DESIGN CHOICE (log 97): where its page has no X, is CTX or IO, or is malformed, the run has no trailer. -/
def fetchRun (s : State) (g : Group) (slices : BitVec 8) (pc : Nat) : State × Fetched :=
  match fetchAt s g pc with
  | (s, .error e) => (s, e)
  | (s, .ok (h, l0, a)) =>
    let len := bits h 23 19
    if bits h 31 24 ≠ 0xF0 then (s, .trap pc h 0x01 3)
    else if len = 0 ∨ 24 ≤ len ∨ bits h 2 0 ≠ 0 then (s, .trap pc h 0x01 1)
    else match fetchBody s g (pc + 4) len with
    | (s, .error e) => (s, e)
    | (s, .ok (ws, ls)) =>
      let after := pc + 4 + 4 * len
      let il := (s.codeOf g).interlocked
      let r (trailer : Bool) (set : Nat) : Run :=
        { slices := slices, pc := BitVec.ofNat 64 (pc + 4), words := ws.reverse, trl := if il then 0 else BitVec.ofNat 12 set, trailer := trailer
          begun := false, gap := bits h 6 4, giveway := bit h 3, id := s.serial, micro := 0, slipped := false, stalled := false, early := false }
      let wait : BitVec 12 := if il then 0 else BitVec.ofNat 12 (bits h 18 7)
      let s := sampleAccess s g.core (s.kernel g.kernel).part (s.kernel g.kernel).asid pc 6 a
      if !(s.codeOf g).holds after then (s, .run (r false 0) wait (l0 :: ls).dedup)
      else match fetchAt s g after with
      | (s, .error (.absent va)) => (s, .absent va)
      | (s, .error (.migrating va v)) => (s, .migrating va v)
      | (s, .error _) => (s, .run (r false 0) wait (l0 :: ls).dedup)
      | (s, .ok (t, lt, _)) =>
        if bits t 31 24 ≠ 0xF1 then (s, .run (r false 0) wait (l0 :: ls).dedup)
        else if bits t 11 0 ≠ 0 then (s, .trap after t 0x01 1)
        else (s, .run (r true (bits t 23 12)) wait (lt :: l0 :: ls).dedup)

/-- The access that a faulting fetch parks: its replay fetches the run again (R271). -/
def fetchAccess (g : Group) (slices : BitVec 8) (lanes : BitVec 32) : Access :=
  { op := .fetch, opcode := 0xF0, rtField := 0, word := 0, pc := (g.slice (firstSlice slices)).pc, slices := slices
    mode := (g.slice (firstSlice slices)).mode, lanes := lanes, offs := Vector.replicate 32 0, data := [], record := none, dst := none, udst := none, seq := g.stepSeq }

/-- The place of a fetched word in a fault entry. -/
def fetchSpot (va : Nat) : Spot := { lane := 0, j := 0, scale := false, off := va, va := va, n := 4, sh := 0, w := 32 }

/-- A gang of a picked group starts its next run: the fetch, and its trap or fault, or the run in progress. -/
def startRun (s : State) (gid : Nat) (slices : BitVec 8) (early : Bool) : State :=
  match s.group? gid with
  | none => s
  | some g =>
    let k := s.kernel g.kernel
    let pc := (g.slice (firstSlice slices)).pc.toNat
    let lanes := g.actLanes k slices
    match fetchRun s g slices pc with
    | (s, .run r _ _) =>
      let s := pmcCore s g.core (s.vfOf k.asid) 1 1
      s.modGroup gid fun g => { g with run := some { r with early := early }, x := [], lastGang := firstSlice slices }
    | (s, .trap va w code cause) =>
      let t : TrapInfo := if code = 0x01 then trapIllegal cause 0 lanes else trapOf code [BitVec.ofNat 64 cause, BitVec.ofNat 64 lanes.toNat, BitVec.ofNat 64 va]
      takeTrap (s.modGroup gid fun g => { g with lastGang := firstSlice slices }) gid { slices := slices, pc := BitVec.ofNat 64 va, word := w, run := none } t
    | (s, .absent va) =>
      parkGang (s.modGroup gid fun g => { g with lastGang := firstSlice slices }) gid (fetchAccess g slices lanes) .fault none none [fetchSpot va]
    | (s, .migrating _ v) =>
      parkGang (s.modGroup gid fun g => { g with lastGang := firstSlice slices }) gid (fetchAccess g slices lanes) (.migration v) none none []

/-- The instruction-cache lines of a run that its core does not hold (R91). -/
def missingLines (s : State) (core : Nat) (f : Fetched) : List Nat :=
  match f with
  | .run _ _ ls => ls.filter fun l => !(s.core core).icache.contains l
  | .trap _ _ _ _ | .absent _ | .migrating _ _ => []

/-! ### The pick (R87–R91) -/

/-- A run whose access is complete goes on past its instruction, or traps at it. -/
def resumeDone (s : State) (gid i : Nat) : State :=
  match s.group? gid with
  | none => s
  | some g => match g.parks[i]? with
    | none => s
    | some p =>
      let s := s.modGroup gid fun g =>
        { g with parks := g.parks.take i ++ g.parks.drop (i + 1), run := p.run, x := p.x, lastGang := firstSlice p.acc.slices }
      match p.trap with
      | some t => takeTrap s gid { slices := p.acc.slices, pc := p.acc.pc, word := p.acc.word, run := p.run } t
      | none => goOn s gid

/-- The picked group goes on: with the run that stalled, or with the first of its gangs, in a run whose access is complete or in
its next run; where the instruction cache lacks lines of that run, the quarter freezes and the pick stands (R47, R89, R91). -/
def startPicked (s : State) (gid : Nat) (core quarter : Nat) : State :=
  match s.group? gid with
  | none => s
  | some g => match g.run, readyGangs s g with
    | some r, _ => s.setGroup gid { g with run := some { r with stalled := false } }
    | none, m :: _ => (match m.park with
      | some i => resumeDone s gid i
      | none =>
        let miss := missingLines s core (fetchRun s g m.slices (g.slice (firstSlice m.slices)).pc.toNat).2
        if miss.isEmpty then startRun s gid m.slices m.early
        else
          let s := pmcCore s core (s.vfOf (s.kernel g.kernel).asid) 3 1
          let c := s.core core
          s.setCore core { c with frozen := KMap.set c.frozen quarter (gid, m.slices, m.early) })
    | none, [] => s

/-- A quarter's run in progress can issue. -/
def busyQuarter (s : State) (core quarter : Nat) : Bool :=
  match KMap.get? (s.core core).current quarter with
  | none => false
  | some gid => match s.group? gid with
    | none => false
    | some g => decide (g.place = .seat core quarter) && g.hold.isNone && g.ctxMiss.isNone && !haltedCtx s g && (match g.run with
      | some r => !r.stalled
      | none => false)

/-- The groups of a quarter that are eligible at a pick. -/
def eligibleIn (s : State) (core quarter : Nat) : List (Nat × Group) := (seatedIn s core quarter).filter fun (_, g) => eligible s g

/-- A group that `YIELD` set back waits for the others (R90). -/
def Group.yielding (g : Group) : Bool := decide (g.yieldDue ≠ 0) && (match g.yieldFor with
  | some l => !l.isEmpty
  | none => true)

/-- Pick order: giveway last where another is eligible, then the earliest stamp, then the group seated first (R88). -/
def pickBefore (many : Bool) (a b : Nat × Group) : Bool :=
  let key (x : Nat × Group) : Nat := (((if x.2.givewayDue && many then 1 else 0) * 2 ^ 64 + x.2.stamp) * 2 ^ 64 + x.2.seatedAt) * 2 ^ 32 + x.1
  decide (key a < key b)

/-- The group that a pick of some eligible groups chooses. -/
def chosen (l : List (Nat × Group)) : Option (Nat × Group) :=
  let ready := l.filter fun (_, g) => !g.yielding
  let from_ := if ready.isEmpty then l else ready
  let many := decide (1 < from_.length)
  from_.foldl (fun acc x => match acc with
    | none => some x
    | some y => if pickBefore many x y then some x else some y) none

/-- What a pick leaves of a group's giveway and yield (R88, R90). -/
def afterPick (l : List (Nat × Group)) (picked : Nat) (gid : Nat) (g : Group) : Group :=
  let g := if l.any fun (i, _) => i = gid then { g with givewayDue := false } else g
  if g.yieldDue = 0 then g
  else
    let left := ((g.yieldFor.getD ((l.map (·.1)).filter fun i => decide (i ≠ gid))).filter fun i => decide (i ≠ picked))
    if gid = picked ∨ left.isEmpty ∨ g.yieldDue = 1 then { g with yieldDue := 0, yieldFor := none }
    else { g with yieldDue := g.yieldDue - 1, yieldFor := some left }

/-- The groups that `YIELD` set back since the last pick learn whom they wait for (R90). -/
def seeYields (l : List (Nat × Group)) (s : State) (core quarter : Nat) : State :=
  (seatedIn s core quarter).foldl (fun s (i, g) =>
    if g.yieldDue ≠ 0 ∧ g.yieldFor.isNone then s.setGroup i { g with yieldFor := some ((l.map (·.1)).filter fun j => decide (j ≠ i)) } else s) s

/-- Make a quarter's pick: the focus, the stamp, and the run. -/
def pickIn (s : State) (core quarter : Nat) : State :=
  let s := seeYields (eligibleIn s core quarter) s core quarter
  let l := eligibleIn s core quarter
  match chosen l with
  | none => s
  | some (gid, _) =>
    let s := (seatedIn s core quarter).foldl (fun s (i, g) => s.setGroup i (afterPick l gid i g)) s
    let s := s.modGroup gid fun g => { g with stamp := s.clock }
    let c := s.core core
    let s := s.setCore core { c with current := KMap.set c.current quarter gid }
    let s := match s.group? gid with
      | some g => wakeContext s (s.kernel g.kernel).asid
      | none => s
    startPicked { s with focus := gid } gid core quarter

/-- A quarter can pick: it is not frozen, its run in progress cannot issue, and a group is eligible. -/
def canPick (s : State) (core quarter : Nat) : Bool :=
  (KMap.get? (s.core core).frozen quarter).isNone && !busyQuarter s core quarter && !(eligibleIn s core quarter).isEmpty

/-- `PICK` (R87–R91): in the clock in which the run's first word may issue. -/
def execPick (quarter : Nat) (s : State) : Host.Outcome State Fault Refusal :=
  .next (if canPick s (quarter / 4) (quarter % 4) then bump (pickIn s (quarter / 4) (quarter % 4)) else tick s)

/-- `ICACHE_FILL` (R91): the missing lines arrive, and the run that was picked starts. -/
def execIcacheFill (quarter : Nat) (s : State) : Host.Outcome State Fault Refusal :=
  let core := quarter / 4
  let q := quarter % 4
  .next (tick (match KMap.get? (s.core core).frozen q with
    | none => s
    | some (gid, m, early) =>
      let c := s.core core
      let s := s.setCore core { c with frozen := KMap.erase c.frozen q }
      match s.group? gid with
      | none => s
      | some g =>
        if g.place ≠ .seat core q ∨ g.run.isSome ∨ g.fetchParked ∨ m &&& ~~~g.freeSlices (s.kernel g.kernel) ≠ 0 then s
        else
          let miss := missingLines s core (fetchRun s g m (g.slice (firstSlice m)).pc.toNat).2
          let c := s.core core
          startRun (s.setCore core { c with icache := icacheAdd c.icache miss }) gid m early))

/-- The words that a group's run issues next: seated, in progress in its quarter, and not held (R87). -/
def issuable (s : State) (gid : Nat) : List W32 :=
  match s.group? gid with
  | some g => (match g.run, g.hold with
    | some r, none =>
      if g.seated && decide (KMap.get? (s.core g.core).current g.quarter = some gid) && !haltedCtx s g then r.words else []
    | _, _ => [])
  | none => []

/-! ### Ends and seats (R82, R319, R409–R411) -/

/-- A group has ended, and nothing of it is left to complete (R82). -/
def drained (s : State) (gid : Nat) (g : Group) : Bool :=
  g.live && decide (g.liveSlices (s.kernel g.kernel) = 0) && g.ld.isEmpty && g.st.isEmpty && g.copies.isEmpty && g.mx.isEmpty && g.pend.isEmpty &&
    g.release.isNone && g.red.isEmpty && decide (g.openBatch.open_ = 0) && !(s.core g.core).decodeQ.any fun j => decide (j.gid = gid)

/-- `GROUP_END_SEAT_FREE` (R82, R411). -/
def execGroupEndSeatFree (gid : Nat) (s : State) : Host.Outcome State Fault Refusal :=
  .next (tick (match s.group? gid with
    | none => s
    | some g =>
      if drained s gid g then (clearCurrent (account s g.core) gid).modGroup gid fun g => { g with place := .ended, pinned := [], absent := [] } else s))

/-- A seated group that may leave its seat to a candidate (R411): for one of its own team, or of another. DESIGN CHOICE (log 98): a
group whose context-cache fill proceeds, which R26 lets the core unseat, keeps its seat. -/
def mayLeave (s : State) (g : Group) (own : Bool) : Bool :=
  !g.parkSatisfied s && (g.atBarrier.isSome || g.waita.isSome || (!own && g.isParked (s.kernel g.kernel)))

/-- The seated group that a core without a free seat unseats: for a candidate of its own team, else for the first candidate. -/
def unseatable (s : State) (core : Nat) : Option Nat :=
  let cands := candidatesOn s core
  let seated := s.groups.filter fun (_, g) => g.seated && decide (g.core = core)
  match seated.find? fun (_, g) => mayLeave s g true && cands.any fun (_, c) => decide (c.team = g.team) with
  | some (i, _) => some i
  | none => if cands.isEmpty then none else (seated.find? fun (_, g) => mayLeave s g false).map (·.1)

/-- A core can seat a candidate. -/
def canSeat (s : State) (core : Nat) : Bool :=
  (firstCandidate s core).isSome && ((freeQuarter s core).isSome || (unseatable s core).isSome)

/-- `SEATING` (R409–R411): a free seat takes the core's first candidate; a core without a free seat first unseats a parked
group. -/
def execSeating (core : Nat) (s : State) : Host.Outcome State Fault Refusal :=
  let s := match freeQuarter s core, unseatable s core with
    | none, some i => leaveSeat s i
    | _, _ => s
  .next (tick (match freeQuarter s core, firstCandidate s core with
    | some q, some (gid, _) => takeSeat s gid core q
    | _, _ => s))

/-- Clocks in a microsecond at 1.8 GHz (R10, R116). -/
def clocksPerUs : Nat := 1800

/-- The stall quantum of a context in clocks: 20 microseconds where the descriptor gives none (R319, R397). -/
def quantumClocks (c : Context) : Nat := (if c.quantum = 0 then 20 else c.quantum) * clocksPerUs

/-- The seated groups of a context. -/
def seatedOf (s : State) (asid : Nat) : List (Nat × Group) :=
  s.groups.filter fun (_, g) => g.seated && decide ((s.kernel g.kernel).asid = asid)

/-- Every seated group of a context has been parked in `WAITA`, `BAR` or `BARW` for longer than its quantum (R319). -/
def stalledOut (s : State) (asid : Nat) (c : Context) : Bool :=
  let l := seatedOf s asid
  !l.isEmpty && l.all fun (_, g) => (g.waita.isSome || g.atBarrier.isSome) && !g.parkSatisfied s && (match g.parkedSince with
    | some t => decide (t + quantumClocks c < s.clock)
    | none => false)

/-- `STALL_QUANTUM_EXPIRY` (R319, R421). -/
def execStallQuantumExpiry (asid : Nat) (s : State) : Host.Outcome State Fault Refusal :=
  .next (tick (match KMap.get? s.ctxs asid with
    | none => s
    | some c => if c.state = .runnable && stalledOut s asid c then { s with ctxs := KMap.set s.ctxs asid { ranNow s c with state := .idle } } else s))

end Sys2Proof.Machine
end

