-- ==== Sys2Proof/Machine/Preempt.lean ====
section
/-! DEFINITION. Contexts that run, wait and are pre-empted, and the starvation guard (R395, R421–R423). -/

namespace Sys2Proof.Machine

/-! ### States of a context (R319, R421) -/

/-- The live groups of a context. -/
def groupsOfCtx (s : State) (asid : Nat) : List (Nat × Group) := s.groups.filter fun (_, g) => g.live && decide ((s.kernel g.kernel).asid = asid)

/-- The context counts as runnable: it is not halted, has live groups or commands, and is not idle; an idle context is runnable
again once a park of one of its groups is satisfied (R319, R421). -/
def runnableNow (s : State) (asid : Nat) (c : Context) : Bool :=
  match c.state with
  | .runnable => true
  | .idle => (groupsOfCtx s asid).any fun (_, g) => g.parkSatisfied s
  | .preempted | .empty => false

/-- A context has candidates on a core that has no free seat (R422). -/
def needsSeatsOn (s : State) (asid core : Nat) : Bool :=
  (freeQuarter s core).isNone && (candidatesOn s core).any fun (_, g) => decide ((s.kernel g.kernel).asid = asid)

/-- The cores of a partition when the device has n (R13, R14). -/
def coresOf (s : State) (part : Nat) : List Nat :=
  let n := max 1 s.dev.partCount
  (List.range (deviceCores / n)).map (part * (deviceCores / n) + ·)

/-- The context that a pre-emption on a core halts: of lower rank, not idle, holding a seat there; the lowest ranked. -/
def victim (s : State) (asid core : Nat) (c : Context) : Option (Nat × Context) :=
  let l := s.ctxs.filter fun (a, d) => decide (a ≠ asid) && decide (d.part = c.part) && decide (d.rank < c.rank) && runnableNow s a d &&
    s.groups.any fun (_, g) => g.seated && decide (g.core = core) && decide ((s.kernel g.kernel).asid = a)
  l.foldl (fun acc x => match acc with
    | none => some x
    | some y => if x.2.rank < y.2.rank then some x else some y) none

/-! ### Halting a context (R395, R422) -/

/-- What the decode unit already performs for a group completes; its other decodes are withdrawn, or saved with their
commands (R211, R422). -/
def haltDecodes (s : State) (gid : Nat) : State :=
  match s.group? gid with
  | none => s
  | some g =>
    let s := match (s.core g.core).decodeQ with
      | j :: _ => if j.gid = gid then (if j.kind = 2 then finishDecht gid s else decodeHead g.core s) else s
      | [] => s
    let c := s.core g.core
    let mine := c.decodeQ.filter fun j => decide (j.gid = gid)
    let s := s.setCore g.core { c with decodeQ := c.decodeQ.filter fun j => decide (j.gid ≠ gid) }
    s.modGroup gid fun g => { g with
      savedJobs := g.savedJobs ++ mine.filter fun j => decide (j.kind = 2)
      hold := if g.hold = some .decode && mine.any (fun j => decide (j.kind ≠ 2)) then none else g.hold }

/-- The entry of a group's matrix queue entries that has started and completes at a pre-emption. -/
def completesAtHalt (e : MEntry) : Bool := e.started && decide (e.kind ≠ .mma)

/-- The group's matrix queue entries stop: what has started completes or becomes an image, an `ACCWR` or `MRES` that waits is
withdrawn, the others are saved, and the latch is released (R377, R395). -/
def haltMatrix (s : State) (gid : Nat) : State :=
  match s.group? gid with
  | none => s
  | some g =>
    let lead := leader (s.kernel g.kernel) g
    let s := match (s.core lead).mq with
      | e :: _ => if e.gid = gid then
          if completesAtHalt e then retireHead lead s
          else let (s, e) := saveEntry s lead e
            setHead s lead e
        else s
      | [] => s
    let c := s.core lead
    let mine := c.mq.filter fun e => decide (e.gid = gid)
    let waits := mine.filter fun e => decide (e.kind = .accwr) || decide (e.kind = .mres)
    let s := s.setCore lead { c with mq := c.mq.filter fun e => decide (e.gid ≠ gid), latch := none }
    s.modGroup gid fun g =>
      let g := waits.foldl (fun g _ => leaveOpen g) g
      { g with
        savedMq := g.savedMq ++ mine.filter fun e => decide (e.kind ≠ .accwr) && decide (e.kind ≠ .mres)
        hold := if waits.isEmpty then g.hold else none }

/-- An instruction that holds its run for its own result completes it before the group halts. -/
def haltResult (s : State) (gid : Nat) : State :=
  match s.group? gid with
  | none => s
  | some g => if g.hold = some .result then (match g.pend.find? fun p => p.holds with
      | some p => completeResult s gid p.kind
      | none => s)
    else s

/-- Halt one group of a context that is pre-empted or swapped out (R364, R395, R422). -/
def haltGroup (s : State) (gid : Nat) : State :=
  let s := haltMatrix (haltDecodes (haltResult s gid) gid) gid
  let s := s.modGroup gid fun g => { withdraw g with engineSaved := true, waita := g.waita.map fun w => { w with armed := false } }
  match s.group? gid with
  | some g => if g.seated then leaveSeat s gid else writeEngineArea s gid
  | none => s

/-- Every live group of a context halts. -/
def haltContext (s : State) (asid : Nat) : State := (groupsOfCtx s asid).foldl (fun s (i, _) => haltGroup s i) s

/-- Set a context's state, its running time brought up to the clock. -/
def setCtxState (s : State) (asid : Nat) (st : CtxState) : State :=
  { s with ctxs := KMap.modify s.ctxs asid fun c => { ranNow s c with state := st } }

/-- `PREEMPTION` (R422): a context that needs seats on a core halts the lowest-ranked context that holds seats there, on every
core of the partition. -/
def execPreemption (asid core : Nat) (s : State) : Host.Outcome State Fault Refusal :=
  .next (tick (match KMap.get? s.ctxs asid with
    | none => s
    | some c =>
      if runnableNow s asid c && needsSeatsOn s asid core then (match victim s asid core c with
        | some (a, _) => setCtxState (haltContext s a) a .preempted
        | none => s)
      else s))

/-- A runnable context needs the seats of a pre-empted one: it holds seats, or has candidates, on a core that hosts groups of
it (R421 and its example). -/
def needsSeatsOf (s : State) (asid other : Nat) : Bool :=
  let cores := ((groupsOfCtx s asid).map fun (_, g) => g.core).dedup
  (groupsOfCtx s other).any fun (_, g) => cores.contains g.core && (g.seated || candidate s g)

/-- A pre-empted context may run again: boosted, or no runnable context of higher rank needs its seats (R421). -/
def mayResume (s : State) (asid : Nat) (c : Context) : Bool :=
  decide (c.state = .preempted) && !c.away && (c.boosted || !s.ctxs.any fun (a, d) =>
    decide (d.part = c.part) && decide (c.rank < d.rank) && runnableNow s a d && needsSeatsOf s asid a)

/-- A context's groups may be seated again; seatings that met a context fault and parks on migrating pages are tried again (R276, R279). -/
def resumeContext (s : State) (asid : Nat) : State :=
  let s := { s with groups := KMap.mapVals s.groups fun _ g =>
    if (s.kernel g.kernel).asid = asid then { g with
        ctxToken := none, ctxPosted := false, ctxMoving := none
        parks := g.parks.map fun p => match p.cause with
          | .migration _ => { p with cause := .ready }
          | .fault | .heldBehind | .ready | .done => p }
      else g }
  setCtxState s asid .runnable

/-- `CONTEXT_RESUME` (R421). -/
def execContextResume (asid : Nat) (s : State) : Host.Outcome State Fault Refusal :=
  .next (tick (match KMap.get? s.ctxs asid with
    | some c => if mayResume s asid c then resumeContext s asid else s
    | none => s))

/-! ### The starvation guard (R423) -/

/-- One millisecond in clocks. -/
def msClocks : Nat := 1800000

/-- A context is due to be boosted: it has work, and what remains of the window is no more than its shortfall. -/
def boostDue (s : State) (asid : Nat) (c : Context) : Bool :=
  let ran := (ranNow s c).ran
  let left := windowClocks - s.sysClock c.part % windowClocks
  !c.boosted && !c.away && (decide (c.state = .preempted) || runnableNow s asid c) && decide (ran < msClocks) && decide (left ≤ msClocks - ran)

/-- `STARVATION_BOOST` (R423). -/
def execStarvationBoost (asid : Nat) (s : State) : Host.Outcome State Fault Refusal :=
  .next (tick (match KMap.get? s.ctxs asid with
    | some c => if boostDue s asid c then { s with ctxs := KMap.set s.ctxs asid { ranNow s c with boosted := true } } else s
    | none => s))

/-- `STARVATION_BOOST_END` (R423). -/
def execStarvationBoostEnd (asid : Nat) (s : State) : Host.Outcome State Fault Refusal :=
  .next (tick (match KMap.get? s.ctxs asid with
    | some c => if c.boosted && decide (msClocks ≤ (ranNow s c).ran) then { s with ctxs := KMap.set s.ctxs asid { ranNow s c with boosted := false } } else s
    | none => s))

end Sys2Proof.Machine
end

