-- ==== Sys2Proof/Machine/Registrar.lean ====
section
/-! DEFINITION. The registrar: commands, wait and signal semaphores, the checks of a launch, placement of teams and the state of a
group at launch, completion, and shootdowns (R55–R58, R278, R279, R308, R399, R414–R420, R453, R460, R478, R486). -/

namespace Sys2Proof.Machine

/-! ### Commands (R413, R414, R416) -/

/-- The key of a queue: 64 times its context's identifier, plus its number. -/
def queueKey (asid q : Nat) : Nat := asid * 64 + q

/-- A queue's write pointer as it stands. -/
def writePointer (s : State) (asid q : Nat) (e : QueueEntry) : W32 := if e.device then e.wr else (KMap.get? s.doorbells (queueKey asid q)).getD 0

/-- The partition is neither in reset nor being swapped. -/
def partRuns (s : State) (part : Nat) : Bool := let p := s.part part; !p.inReset && p.swapping.isNone

/-- The context's world is in place: it is loaded, and not swapped out. -/
def ctxRuns (s : State) (asid : Nat) : Bool := match KMap.get? s.ctxs asid with
  | some c => partRuns s c.part && !c.away
  | none => false

/-- The next command of a queue that the registrar may dequeue: its queue entry, the virtual address of its ring entry, and its words
where they can be read. A queue whose entry cannot be read, or whose size is out of range, is not read. -/
def nextCommand (s : State) (asid q : Nat) : Option (QueueEntry × Nat × Option (List W64)) :=
  match KMap.get? s.ctxs asid with
  | none => none
  | some c =>
    if !c.enable || !ctxRuns s asid || decide (64 ≤ q) || (KMap.get? s.queues (queueKey asid q)).isSome then none
    else match queueEntry s asid q with
    | none => none
    | some e =>
      if !e.enable || decide (e.size = 0) || decide (16 < e.size) || (c.privileged && decide (q = 0) && e.device) || decide (writePointer s asid q e = e.rd) then none
      else
        let va := e.slotVa e.rd.toNat
        some (e, va, (readVirtBytes s asid va 128).map fun bs =>
          (List.range 16).map fun i => BitVec.ofNat 64 ((List.range 8).foldr (fun b acc => (bs.getD (8 * i + b) 0).toNat + 256 * acc) 0))

/-- The kind of a command. -/
def cmdKind (w : List W64) : Nat := bits (wordAt w 0) 7 0

/-- The bits that each slot may hold (R414). -/
def slotMask : Nat → Nat
  | 0 => 0xFF000FFFFFFFFFFF
  | 1 | 2 | 11 | 13 => 2 ^ 60 - 1
  | 3 => 2 ^ 60 - 2 ^ 10
  | 4 | 5 | 6 => 2 ^ 21 - 1
  | 7 => 0x1FFF1FFF1FFF1FFF
  | 8 => 2 ^ 32 - 1
  | 9 => 0x1FFF071FFFFF
  | _ => 2 ^ 64 - 1

/-- A slot holds no bit outside its layout. -/
def slotOk (n : Nat) (w : W64) : Bool := decide (w &&& ~~~(BitVec.ofNat 64 (slotMask n)) = 0)

/-- Slot n is indirect (R415). -/
def slotIndirect (w : List W64) (n : Nat) : Bool := bit (wordAt w 0) (8 + n)

/-- A malformed command (R414, R416). -/
def cmdMalformed (w : List W64) : Bool :=
  (decide (cmdKind w ≠ 1) && decide (cmdKind w ≠ 2)) ||
    (List.range 16).any (fun n => if slotIndirect w n then decide (n < 4) || (decide (10 < n) && decide (n ≠ 15)) else !slotOk n (wordAt w n)) ||
    decide (bits (wordAt w 11) 2 0 ≠ 0) || decide (bits (wordAt w 13) 2 0 ≠ 0) || (!slotIndirect w 9 && decide (4096 < bits (wordAt w 9) 44 32))

/-! ### Semaphores (R416, R408) -/

/-- The registrar's write has no core of its own: the number of no core of the device. -/
def noCore : Nat := 192

/-- The physical address of a semaphore that can be read: present, with RD, and of type NORM, DUR or SHR. -/
def semPlace (s : State) (asid va : Nat) : Option (Attr × Nat) :=
  match ctxPage s asid va with
  | some (a, pa) => if a.rd && decide (a.type ≠ 1) && decide (a.type ≠ 4) then some (a, pa) else none
  | none => none

/-- The value of a semaphore and its sector. -/
def semRead (s : State) (asid va : Nat) : Option (Nat × Nat) := (semPlace s asid va).map fun (a, pa) => ((homeValue s a pa 8 b16Exact).1, sectorOf pa)

/-- The signal of a command: sem := max(sem, value) as a signalling write, or an error record where it cannot be made (R416). -/
def signalSem (s : State) (part asid : Nat) (va value : W64) : State :=
  if va = 0 then s
  else
    let v := bits va 59 0
    let place := if bits va 63 60 ≠ 0 ∨ v % 8 ≠ 0 then none else semPlace s asid v
    match place with
    | some (a, pa) => if a.w then raiseSem s noCore 0 false a pa value.toNat b16Exact else (errorRecord s part { kind := 0x0E, asid := asid, va := v }).1
    | none => (errorRecord s part { kind := 0x0E, asid := asid, va := v }).1

/-- Write a command's status byte (R416). -/
def writeStatus (s : State) (asid va status : Nat) : State :=
  match ctxPage s asid (va + 7) with
  | some (_, pa) => { s with mem := Memory.write s.mem pa (BitVec.ofNat 8 status) }
  | none => s

/-- A context without live groups and without a command in progress is empty (R421). -/
def settleContext (s : State) (asid : Nat) : State :=
  match KMap.get? s.ctxs asid with
  | none => s
  | some c =>
    let busy := !(groupsOfCtx s asid).isEmpty || s.queues.any (fun (k, _) => decide (k / 64 = asid)) || s.kernels.any fun (_, k) => decide (k.asid = asid)
    if busy then (if c.state = .empty then setCtxState s asid .runnable else s)
    else if c.state = .preempted then s
    else setCtxState s asid .empty

/-- Complete a command: its status, then its signal (R416). -/
def complete (s : State) (part asid va status : Nat) (sigVa sigVal : W64) : State :=
  signalSem (writeStatus s asid va status) part asid sigVa sigVal

/-- A queue's command completes, and its queue goes on to the next. -/
def completeCmd (s : State) (asid q : Nat) (r : QueueRun) (status : Nat) : State :=
  let part := match KMap.get? s.ctxs asid with
    | some c => c.part
    | none => 0
  let s := { s with queues := KMap.erase s.queues (queueKey asid q) }
  settleContext (complete s part asid r.entryVa status (wordAt r.words 13) (wordAt r.words 14)) asid

/-! ### Verified code (R459, R460) -/

/-- The entries of the verified-code cache. -/
def verifiedEntries : Nat := 64

/-- Look a code object up in the verified-code cache, or verify it and add it; `none` where it does not verify. -/
def verifyObject (s : State) (asid va : Nat) (o : CodeObj) : Option State :=
  match readVirtBytes s asid va o.sigOff, readVirtBytes s asid (va + o.sigOff) 17056 with
  | some body, some sig =>
    let d := Config.sha384 body
    let field (i n : Nat) : Nat := (List.range n).foldr (fun b acc => (sig.getD (i + b) 0).toNat + 256 * acc) 0
    let keep (l : List VerifiedCode) : State := { s with dev := { s.dev with verified := l.take verifiedEntries } }
    (match s.dev.verified.find? fun v => v.digest = d with
    | some v => some (keep (v :: s.dev.verified.filter fun x => decide (x.digest ≠ d)))
    | none =>
      if field 0 4 = 0x4B534742 ∧ field 4 4 < 4 ∧ field 8 4 = o.secver ∧ field 0xC 4 = 0 ∧ Config.signatureVerifies body sig then
        some (keep ({ digest := d, version := o.secver } :: s.dev.verified))
      else none)
  | _, _ => none

/-! ### The checks of a launch (R55–R58, R399, R415, R486) -/

/-- The words of a command with each indirect slot read; `none` where one fails (R415). -/
def readIndirect (s : State) (asid : Nat) (w : List W64) : Option (List W64) :=
  (List.range 16).mapM fun n =>
    let x := wordAt w n
    if n = 0 ∨ !slotIndirect w n then some x
    else if bits x 63 60 ≠ 0 ∨ bits x 2 0 ≠ 0 then none
    else match ctxPage s asid (bits x 59 0) with
    | some (a, pa) =>
      if a.type = 1 ∨ a.type = 4 then none
      else
        let v : W64 := BitVec.ofNat 64 (homeValue s a pa 8 b16Exact).1
        if slotOk n v && slotRange n v then some v else none
    | none => none
where
  /-- The ranges of R414 that an indirect slot's value keeps. -/
  slotRange (n : Nat) (v : W64) : Bool :=
    if 4 ≤ n ∧ n ≤ 6 then decide (v.toNat ≤ 2 ^ 20)
    else if n = 7 then
      let g := (List.range 4).map fun i => bits v (16 * i + 12) (16 * i)
      g.all (fun x => decide (x ≤ 4096)) && decide (1 ≤ g.sum) && decide (g.sum ≤ 4096)
    else if n = 8 then (List.range 4).all fun i => decide (bits v (8 * i + 7) (8 * i) ≤ 240)
    else if n = 9 then !isUntracked (BitVec.ofNat 16 (bits v 15 0)) && decide (bits v 44 32 ≤ 4096)
    else true

/-- The groups of a descriptor divided among its roles as equally as possible, the lower-numbered taking the remainder (R414). -/
def divideGroups (groups roles : Nat) : List Nat := (List.range roles).map fun i => groups / roles + (if i < groups % roles then 1 else 0)

/-- The stride of a kernel's context blocks (R399). -/
def arenaStride (vmax : Nat) : Nat := (13312 + 192 * vmax + 1023) / 1024 * 1024

/-- The bytes of a kernel's arena range. -/
def Kernel.arenaBytes (k : Kernel) : Nat := k.stride * (k.grid.foldl (· * ·) 1) * k.teamGroups

/-- The arena range of a kernel overlaps that of a live kernel of its partition (R399). -/
def arenaOverlaps (s : State) (k : Kernel) : Bool :=
  s.kernels.any fun (_, x) => decide (x.part = k.part) && decide (x.arena < k.arena + k.arenaBytes) && decide (k.arena < x.arena + x.arenaBytes)

/-- What the checks of a launch come to: a status, or the kernel it makes. -/
inductive Checked where
  | status (s : State) (n : Nat)
  | kernel (s : State) (k : Kernel)

/-- A launch asks for protected mode, by its command or by its descriptor, of a code object that is not width-relative (R57). -/
def protRefused (w0 : W64) (o : CodeObj) (d : Option KDesc) : Bool :=
  decide (o.flags / 2 % 2 = 0) && (if bit w0 24 then (match d with
    | some d => decide (d.config / 2 % 2 = 1)
    | none => false) else bit w0 26)

/-- Check a kernel launch whose indirect slots are read (R55–R58, R486, R416). Where a page of the code object is absent or unreadable, it fails
as one whose content fails would: the header and the signed bytes with 0x81, the descriptor with 0x82 (DESIGN CHOICE, log 113). Groups that
the command gives to roles past the descriptor's role count are not started (DESIGN CHOICE, log 110). -/
def checkLaunch (s : State) (part asid q : Nat) (entryVa order : Nat) (w : List W64) : Checked :=
  let va := bits (wordAt w 1) 59 0
  let w0 := wordAt w 0
  let desc := bit w0 24
  match readCodeObj s asid va with
  | none => .status s 0x81
  | some o => match steppingMode o.stepping, verifyObject s asid va o with
  | some il, some s =>
    let n := bits w0 43 28
    let kd := if n < o.kcount then readKDesc s asid va o n else none
    if o.secver < s.dev.secFuse ∨ protRefused w0 o kd then .status s 0x81
    else match kd with
      | none => .status s 0x82
      | some d =>
        if !d.formOk o then .status s 0x82
        else
            let nr := d.roleCount
            let w7 := wordAt w 7
            let w8 := wordAt w 8
            let w9 := wordAt w 9
            let groups := if desc then divideGroups d.groups nr else (List.range 4).map fun i => bits w7 (16 * i + 12) (16 * i)
            let budgets := (if desc then d.budgets else (List.range 4).map fun i => bits w8 (8 * i + 7) (8 * i)).take nr
            let budget : B16 := BitVec.ofNat 16 (if desc then d.budget else bits w9 15 0)
            let grid := [(wordAt w 4).toNat, (wordAt w 5).toNat, (wordAt w 6).toNat]
            let total := grid.foldl (· * ·) 1
            let score := if desc then decide (d.config % 2 = 1) else bit w0 25
            let k : Kernel :=
              { asid := asid, part := part, queue := q, entryVa := entryVa, codeObj := va
                code := ⟨va + o.codeOff, o.codeSize, va + o.codeOff + d.entryOff, il⟩, score := score, prot := if desc then decide (d.config / 2 % 2 = 1) else bit w0 26
                pair := if desc then decide (d.placement = 1) else bit w0 27, grid := grid, cls := if desc then d.cls else bits w9 26 24
                roleGroups := groups.take nr, budgets := budgets, reservation := bits w9 44 32, gmask := wordAt w 10
                recTable := if bits (wordAt w 2) 59 0 = 0 then va + d.recTab else bits (wordAt w 2) 59 0, recCount := d.recCount
                records := [], extents := [], arena := bits (wordAt w 3) 59 10 * 1024, stride := arenaStride (budgets.foldl max 0)
                budget := budget, fpEnable := BitVec.ofNat 5 (bits w9 20 16), arg := wordAt w 15, sigVa := bits (wordAt w 13) 63 0
                sigVal := wordAt w 14, placed := 0, killed := false, order := order, endMarks := none }
            if nr = 0 ∨ 4 < nr ∨ k.roleGroups.sum = 0 ∨ 4096 < k.roleGroups.sum ∨ (desc ∧ (d.groups = 0 ∨ 4096 < d.groups)) ∨
                budgets.any (fun v => decide (240 < v)) ∨ isUntracked budget ∨ grid.any (fun x => decide (2 ^ 20 < x)) ∨ 2 ^ 32 < total then
              .status s 0x83
            else if total = 0 then .status s 0x01
            else if arenaOverlaps s k then .status s 0x87
            else .kernel s k
  | _, _ => .status s 0x81

/-! ### Placement (R418–R420, R478) -/

/-- Bank rows of a core's scratchpad (R253). -/
def scratchRows : Nat := 4096
/-- Teams that a core hosts. -/
def teamsPerCore : Nat := 256

/-- The cores on which a kernel's team placed at a core stands. -/
def teamCores (k : Kernel) (core : Nat) : List Nat := if k.pair then [core / 2 * 2, core / 2 * 2 + 1] else [core]

/-- A team has ended: none of its groups is live. -/
def teamEnded (s : State) (tid : Nat) : Bool := s.groups.all fun (_, g) => decide (g.team ≠ tid) || !g.live

/-- A kernel's context is swapped out. -/
def kernelAway (s : State) (kid : Nat) : Bool := match KMap.get? s.ctxs (s.kernel kid).asid with
  | some c => c.away
  | none => false

/-- The teams that stand on a core. -/
def teamsOn (s : State) (core : Nat) : List (Nat × Team) :=
  s.teams.filter fun (i, t) => !kernelAway s t.kernel && (teamCores (s.kernel t.kernel) t.core).contains core && !teamEnded s i

/-- A core's free scratchpad reservation. -/
def freeRows (s : State) (core : Nat) : Nat := scratchRows - ((teamsOn s core).map fun (_, t) => (s.kernel t.kernel).reservation).sum

/-- The live groups of a core, seated and in its hall. -/
def residents (s : State) (core : Nat) : Nat := (s.groups.filter fun (_, g) => g.live && decide (g.core = core) && !kernelAway s g.kernel).length

/-- A team of the kernel may stand on these cores (R418, R419). -/
def placeOk (s : State) (k : Kernel) (core : Nat) : Bool :=
  let pair := teamsOn s (core / 2 * 2) ++ teamsOn s (core / 2 * 2 + 1)
  (teamCores k core).all (fun c => decide (k.reservation ≤ freeRows s c) && decide ((teamsOn s c).length < teamsPerCore)) &&
    pair.all fun (_, t) => decide ((s.kernel t.kernel).prot = k.prot)

/-- The cores to try: the even core of each pair for a PAIR team and for a protected one. -/
def placeCores (s : State) (k : Kernel) : List Nat := (coresOf s k.part).filter fun c => decide (c % 2 = 0) || (!k.pair && !k.prot)

/-- The groups that a placement counts as resident. -/
def placeLoad (s : State) (k : Kernel) (core : Nat) : Nat := if k.pair || k.prot then residents s core + residents s (core + 1) else residents s core

/-- The core for a kernel's next team: the fewest resident groups, then the lowest number. -/
def placeFor (s : State) (k : Kernel) : Option Nat :=
  ((placeCores s k).filter (placeOk s k)).foldl (fun acc c => match acc with
    | none => some c
    | some d => if placeLoad s k c < placeLoad s k d then some c else some d) none

/-- The role of a group number: roles take their groups in order (R420). -/
def roleOf (roles : List Nat) (g : Nat) : Nat :=
  match roles with
  | [] => 0
  | n :: t => if g < n then 0 else 1 + roleOf t (g - n)

/-- A group as a launch starts it (R420). -/
def freshGroup (k : Kernel) (kid tid number core : Nat) : Group :=
  let ex := scoreB k.score b16Exact
  { Group.blank with
    kernel := kid, team := tid, number := number, role := roleOf k.roleGroups number, place := .hall (if k.pair then core / 2 * 2 + number % 2 else core)
    s := (Vector.replicate 64 0).set 0 k.arg, sb := Vector.replicate 64 ex, budget := k.budget, fpEnable := k.fpEnable
    slices := Vector.replicate 8 { Slice.blank with pc := BitVec.ofNat 64 k.code.entry, act := k.fullMask } }

/-- Place a kernel's next team on a core: its groups enter the hall, their resolution words unarmed (R418, R420, R272, R478). -/
def placeOn (s : State) (kid core : Nat) : State :=
  let k := s.kernel kid
  let n := k.placed
  let tid := s.nextId
  let xy := k.grid.getD 0 1 * k.grid.getD 1 1
  let s := { s with nextId := tid + 1 + k.teamGroups }
  let s := s.setKernel kid { k with placed := n + 1 }
  let s := s.setTeam tid { Team.blank with kernel := kid, number := n, core := core, cls := (k.cls + n / max 1 xy) % 8 }
  (List.range k.teamGroups).foldl (fun s i => setResWord (s.setGroup (tid + 1 + i) (freshGroup k kid tid i core)) (tid + 1 + i) 0) s

/-- Place up to n more teams, in ascending number, while there is room. -/
def placeTeams (s : State) (kid : Nat) : Nat → State
  | 0 => s
  | n + 1 => match placeFor s (s.kernel kid) with
    | some c => placeTeams (placeOn s kid c) kid n
    | none => s

/-- The teams of a kernel. -/
def Kernel.teamCount (k : Kernel) : Nat := k.grid.foldl (· * ·) 1

/-- All of a kernel's teams are placed by a placement. -/
def fitsWhole (s : State) (kid : Nat) : Bool :=
  let k := s.kernel kid
  decide (k.teamCount ≤ ((placeTeams s kid (k.teamCount - k.placed)).kernel kid).placed)

/-- All of a kernel's teams would fit in the empty partition (R418). -/
def fitsEmpty (s : State) (kid : Nat) : Bool := fitsWhole { s with teams := [], groups := [] } kid

/-- Place what fits of a kernel: a kernel that holds grid barriers only whole (R418). -/
def placeKernel (s : State) (kid : Nat) : State :=
  let k := s.kernel kid
  if k.gmask ≠ 0 ∧ !fitsWhole s kid then s else placeTeams s kid (k.teamCount - k.placed)

/-- Once its last team is placed, a command leaves its queue to the next (R416). -/
def leaveQueue (s : State) (kid : Nat) : State :=
  let k := s.kernel kid
  if k.teamCount ≤ k.placed then { s with queues := KMap.erase s.queues (queueKey k.asid k.queue) } else s

/-! ### Dequeueing (R416) -/

/-- A kernel whose launch passed its checks takes the context's grid barriers and its records' snapshot, and its teams are placed;
it waits where the grid barriers are held, or the extent arena lacks room (R267, R308, R418). -/
def beginKernel (s : State) (asid q : Nat) (r : QueueRun) (kid : Nat) : State :=
  let k := s.kernel kid
  let held := match KMap.get? s.ctxs asid with
    | some c => c.gridHolder.isSome
    | none => false
  let wait (s : State) : State := { s with queues := KMap.set s.queues (queueKey asid q) { r with stage := .blocked kid } }
  if decide (k.gmask ≠ 0) && held then wait s
  else if k.gmask ≠ 0 ∧ !fitsEmpty s kid then completeCmd { s with kernels := KMap.erase s.kernels kid } asid q r 0x85
  else match snapshotTable s kid with
  | none => wait s
  | some s =>
    let s := if k.gmask ≠ 0 then { s with ctxs := KMap.modify s.ctxs asid fun c => { c with gridHolder := some kid, gridBars := [] } } else s
    let s := { s with queues := KMap.set s.queues (queueKey asid q) { r with stage := .placing kid } }
    leaveQueue (placeKernel s kid) kid

/-- A command whose wait semaphore has its value goes on: the acquire, the indirect slots, and the rest (R416, R332). -/
def goCmd (s : State) (asid q : Nat) (r : QueueRun) : State :=
  match KMap.get? s.ctxs asid with
  | none => s
  | some c =>
    let s := (coresOf s c.part).foldl (fun s core => if (s.core core).l1.isEmpty then s else l1MarkStale s core fun e => decide (e.asid = asid)) s
    match readIndirect s asid r.words with
    | none => completeCmd s asid q r 0x84
    | some w =>
      if cmdKind w = 2 then completeCmd s asid q r 0x01
      else match checkLaunch s c.part asid q r.entryVa r.order w with
      | .status s n => completeCmd s asid q r n
      | .kernel s k => beginKernel { s with kernels := KMap.set s.kernels s.nextId k, nextId := s.nextId + 1 } asid q r s.nextId

/-- Read a command's wait semaphore: it fails, holds the value, or the command waits on (R416). -/
def tryCmd (s : State) (asid q : Nat) (r : QueueRun) : State :=
  let va := bits (wordAt r.words 11) 59 0
  if va = 0 then goCmd s asid q r
  else match semRead s asid va with
  | none => completeCmd s asid q r 0x84
  | some (v, sec) =>
    if (wordAt r.words 12).toNat ≤ v then goCmd s asid q r
    else { s with queues := KMap.set s.queues (queueKey asid q) { r with stage := .waiting, waitSector := sec, lastRead := s.clock, woken := false } }

/-- The read pointer passes the entry, and the command is in progress (R413, R416). -/
def takeCmd (s : State) (asid q : Nat) (e : QueueEntry) (va : Nat) (w : List W64) : State × QueueRun :=
  let r : QueueRun := { entryVa := va, words := w, stage := .waiting, order := s.nextId, waitSector := 0, lastRead := s.clock, woken := false }
  let s := { s with mem := Memory.writeN s.mem (e.pa + 16) 4 (e.rd + 1).toNat, nextId := s.nextId + 1, queues := KMap.set s.queues (queueKey asid q) r }
  (settleContext s asid, r)

/-- Dequeue a command for a kernel or a semaphore step; one that cannot be read, or is malformed, completes at once. -/
def dequeue (s : State) (asid q : Nat) (e : QueueEntry) (va : Nat) (w : Option (List W64)) : State :=
  let (s, r) := takeCmd s asid q e va (w.getD (List.replicate 16 0))
  if w.isNone || cmdMalformed r.words then completeCmd s asid q r 0x80 else tryCmd s asid q r

/-- The kind of the next command of a queue: 0 where it cannot be read. -/
def nextKind (s : State) (asid q : Nat) : Option Nat := (nextCommand s asid q).map fun (_, _, w) => match w with
  | some w => cmdKind w
  | none => 0

/-- `KERNEL_LAUNCH` (R416): the next command of a queue that is neither a semaphore step nor a shootdown; or a launch that waits for
its grid barriers or the extent arena is tried again. -/
def execKernelLaunch (asid queue : Nat) (s : State) : Host.Outcome State Fault Refusal :=
  .next (tick (match KMap.get? s.queues (queueKey asid queue) with
    | some r => (match r.stage with
      | .blocked kid => if ctxRuns s asid then beginKernel s asid queue r kid else s
      | .waiting | .placing _ => s)
    | none => match nextCommand s asid queue with
      | some (e, va, w) =>
        if (nextKind s asid queue = some 2) || (nextKind s asid queue = some 0x30) then s else dequeue s asid queue e va w
      | none => s))

/-- `SEMAPHORE_STEP` (R414, R416). -/
def execSemaphoreStep (asid queue : Nat) (s : State) : Host.Outcome State Fault Refusal :=
  .next (tick (match nextCommand s asid queue with
    | some (e, va, w) => if nextKind s asid queue = some 2 then dequeue s asid queue e va w else s
    | none => s))

/-- `SEMAPHORE_WAIT_RECHECK` (R416): after a signalling write to the semaphore's sector, or 10 microseconds after the last read. -/
def execSemaphoreWaitRecheck (asid queue : Nat) (s : State) : Host.Outcome State Fault Refusal :=
  .next (tick (match KMap.get? s.queues (queueKey asid queue) with
    | some r =>
      if r.stage = .waiting && ctxRuns s asid && (r.woken || decide (r.lastRead + 10 * clocksPerUs ≤ s.clock)) then tryCmd s asid queue r else s
    | none => s))

/-- The queue of a kernel whose teams are being placed. -/
def placingRun (s : State) (kid : Nat) : Option QueueRun :=
  match KMap.get? s.queues (queueKey (s.kernel kid).asid (s.kernel kid).queue) with
  | some r => if r.stage = .placing kid then some r else none
  | none => none

/-- A waiting team of a kernel can be placed now (R418). -/
def canPlace (s : State) (kid : Nat) : Bool :=
  let k := s.kernel kid
  (placingRun s kid).isSome && ctxRuns s k.asid && decide (k.placed < k.teamCount) && (if k.gmask ≠ 0 then fitsWhole s kid else (placeFor s k).isSome)

/-- `TEAM_PLACEMENT` (R418): a waiting team takes the space that a team's end freed; a kernel with grid barriers is placed whole. -/
def execTeamPlacement (kernel : Nat) (s : State) : Host.Outcome State Fault Refusal :=
  .next (tick (
    if canPlace s kernel then
      let k := s.kernel kernel
      leaveQueue (if k.gmask ≠ 0 then placeKernel s kernel else placeTeams s kernel 1) kernel
    else s))

/-- Every group of a kernel has ended or been killed, all its teams having been placed. -/
def kernelEnded (s : State) (kid : Nat) : Bool :=
  match KMap.get? s.kernels kid with
  | none => false
  | some k => decide (k.teamCount ≤ k.placed) && s.groups.all fun (_, g) => decide (g.kernel ≠ kid) || !g.live

/-- A kernel and what it held leave the machine. -/
def dropKernel (s : State) (kid : Nat) : State :=
  let k := s.kernel kid
  let s := dropKernelArena s kid
  let teams := (s.teams.filter fun (_, t) => decide (t.kernel = kid)).map (·.1)
  { s with
    kernels := KMap.erase s.kernels kid
    teams := s.teams.filter fun (i, _) => !teams.contains i
    groups := s.groups.filter fun (_, g) => decide (g.kernel ≠ kid)
    ctxs := KMap.modify s.ctxs k.asid fun c => if c.gridHolder = some kid then { c with gridHolder := none, gridBars := [] } else c }

/-- An ended kernel leaves the machine, with its signal (R416). -/
def endKernel (s : State) (kid : Nat) : State :=
  let k := s.kernel kid
  settleContext (signalSem (dropKernel s kid) k.part k.asid k.sigVa k.sigVal) k.asid

/-- The release at .sys that covers a kernel's writes, those of its killed groups included (R332, R336): the write-back of its identifier's
dirty bytes, and the markers to the peers. Sectors that are refused stay where they are (R277). Answers the marker rounds. -/
def kernelRelease (s : State) (kid : Nat) : State × List Nat :=
  let k := s.kernel kid
  markPeers ((s.cores.filter fun (_, c) => c.l1.any fun e => decide (e.asid = k.asid) && decide (e.dirty ≠ 0)).foldl
    (fun s (c, _) => (writeBackFor s c k.score fun e => decide (e.asid = k.asid)).1) s)

/-- Writes of a kernel's groups to IO pages that their device has not acknowledged (R340). -/
def kernelIo (s : State) (kid : Nat) : Bool := s.groups.any fun (_, g) => decide (g.kernel = kid) && g.ioOut

/-- `LAUNCH_COMPLETE` (R332, R416): the status; then, for a signal, the release of the kernel's writes, and the signal once that has performed. -/
def execLaunchComplete (kernel : Nat) (s : State) : Host.Outcome State Fault Refusal :=
  .next (tick (
    let k := s.kernel kernel
    if !kernelEnded s kernel then s
    else match k.endMarks with
      | some l => if marksOwed s l || (kernelIo s kernel && !Config.ioDone s.serial) then s else endKernel s kernel
      | none =>
        let s := writeStatus s k.asid k.entryVa (if k.killed then 0x02 else 0x01)
        if k.sigVa = 0 then endKernel s kernel
        else
          let (s, l) := kernelRelease s kernel
          if l.isEmpty && !kernelIo s kernel then endKernel s kernel else s.setKernel kernel { s.kernel kernel with endMarks := some l }))

/-! ### Shootdowns (R278, R279) -/

/-- A shootdown's identifiers, first page, number of pages (0 for all), and whether it writes back. -/
structure Shootdown where
  asids : List Nat
  first : Nat
  count : Nat
  wb : Bool

/-- The pages of a shootdown. -/
def Shootdown.page (x : Shootdown) (vpage : Nat) : Bool := decide (x.count = 0) || (decide (x.first ≤ vpage) && decide (vpage < x.first + x.count))
def Shootdown.covers (x : Shootdown) (asid vpage : Nat) : Bool := x.asids.contains asid && x.page vpage

/-- Virtual addresses [lo, hi) meet the range. -/
def Shootdown.meets (x : Shootdown) (lo hi : Nat) : Bool := decide (x.count = 0) || (decide (lo < (x.first + x.count) * 4096) && decide (x.first * 4096 < hi))

/-- A present extent split so that its overlap with the range is of kind walk (R278 step 1). -/
def Shootdown.split (x : Shootdown) (base : Nat) (e : Extent) : List Extent :=
  let lo := if x.count = 0 then e.lo else max e.lo (x.first * 4096 - base)
  let hi := if x.count = 0 then e.hi else min e.hi ((x.first + x.count) * 4096 - base)
  if e.kind ≠ 0 || !x.meets (base + e.lo) (base + e.hi) then [e]
  else
    (if e.lo < lo then [{ e with hi := lo }] else []) ++ [extentOf (.migrating 0) lo hi] ++
      (if hi < e.hi then [{ e with lo := hi, pa := e.pa + (hi - e.lo) }] else [])

/-- Turn the overlap of every live task's extents with the range into kind walk. -/
def Shootdown.extents (x : Shootdown) (part : Nat) (s : State) : State :=
  (s.kernels.filter fun (_, k) => decide (k.part = part) && x.asids.contains k.asid).foldl (fun s (kid, k) =>
    k.extents.foldl (fun s (i, l) =>
      let base := (recOf ((KMap.get? k.records i).getD [])).base
      setExtents s kid i (capExtents (l.flatMap (x.split base))) fun e => decide (e.kind = 0) && x.meets (base + e.lo) (base + e.hi)) s) s

/-- Drop the TLB entries that translate any part of the range. -/
def Shootdown.tlb (x : Shootdown) (part : Nat) (s : State) : State :=
  let cores := coresOf s part
  { s with tlb := s.tlb.filter fun t =>
      let sz := 2 ^ levelShift t.level
      !(cores.contains t.core && x.asids.contains t.asid && x.meets (t.vpage * sz) ((t.vpage + 1) * sz)) }

/-- The live groups of the named identifiers in ascending group number, in which their reductions drain (R297). -/
def Shootdown.groups (x : Shootdown) (s : State) : List Nat :=
  ((s.groups.filter fun (_, g) => g.live && x.asids.contains (s.kernel g.kernel).asid).mergeSort fun a b => a.2.number ≤ b.2.number).map (·.1)

/-- Accesses that translated before the drop perform: pending atomic lanes, and the buffered reductions of the range (R278 step 3, R297). -/
def Shootdown.perform (x : Shootdown) (s : State) : State :=
  (x.groups s).foldl (fun s gid => drainWhere (flushAtomics s gid) gid fun e => match e.target with
    | .mem _ asid vpage => x.covers asid vpage
    | .tile _ _ => false) s

/-- Unseat the groups whose blocks meet the range. -/
def Shootdown.unseat (x : Shootdown) (s : State) : State :=
  (s.groups.filter fun (_, g) =>
    let k := s.kernel g.kernel
    g.seated && x.asids.contains k.asid && x.meets (s.blockVa g) (s.blockVa g + k.stride)).foldl (fun s (i, _) => leaveSeat s i) s

/-- The context caches hold no line of the range any more: the blocks of unseated groups are found through the page tables again. -/
def Shootdown.blocks (x : Shootdown) (s : State) : State :=
  { s with groups := KMap.mapVals s.groups fun _ g =>
      if x.asids.contains (s.kernel g.kernel).asid && !g.seated then { g with blockFrames := g.blockFrames.filter fun (p, _) => !x.page p } else g }

/-- One core's L1 copies of the range: written back and discarded, or, without wb, the clean ones discarded and the dirty ones
revoked (R278 step 4). -/
def Shootdown.l1 (x : Shootdown) (s : State) (core : Nat) : State :=
  let mine := (s.core core).l1.filter fun e => x.covers e.asid e.vpage
  if mine.isEmpty then s
  else if x.wb then mine.foldl (fun s e => l1Flush s core e.sector) s
  else
    let c := s.core core
    let left := c.l1.filter fun e => !x.covers e.asid e.vpage || decide (e.dirty ≠ 0)
    s.setCore core { c with l1 := left.map fun e => if x.covers e.asid e.vpage then { e with revoked := true } else e }

/-- The identifiers that a shootdown names. -/
def shootAsids (s : State) (part : Nat) (w : List W64) : List Nat := if bit (wordAt w 0) 9 then (s.part part).loaded else [bits (wordAt w 0) 23 16]

/-- A shootdown's fields. -/
def shootdown (s : State) (part : Nat) (w : List W64) : Shootdown :=
  { asids := shootAsids s part w, first := bits (wordAt w 1) 59 12, count := bits (wordAt w 2) 39 0, wb := bit (wordAt w 0) 8 }

/-- A shootdown command that is refused with status 0x86 (R278). -/
def shootBad (c : Context) (q : Nat) (w : List W64) : Bool :=
  !c.privileged || decide (q ≠ 0) || decide (bits (wordAt w 0) 15 11 ≠ 0) || decide (bits (wordAt w 0) 63 24 ≠ 0) || decide (bits (wordAt w 1) 63 60 ≠ 0) ||
    decide (bits (wordAt w 1) 11 0 ≠ 0) || decide (bits (wordAt w 2) 63 40 ≠ 0) || decide (bits (wordAt w 3) 63 60 ≠ 0) || decide (bits (wordAt w 3) 2 0 ≠ 0) ||
    (w.drop 5).any fun x => decide (x ≠ 0)

/-- Perform a shootdown with wake 0 (R278). -/
def performShoot (s : State) (part : Nat) (x : Shootdown) : State :=
  let s := x.perform (x.tlb part (x.extents part s))
  let s := x.blocks (if x.wb then x.unseat s else s)
  (coresOf s part).foldl x.l1 s

/-- Wake the groups parked on a migrating page of the range (R279). -/
def wakeMigrations (s : State) (x : Shootdown) : State :=
  { s with groups := KMap.mapVals s.groups fun _ g =>
      if x.asids.contains (s.kernel g.kernel).asid then { g with
        ctxMoving := g.ctxMoving.filter fun va => !x.page (va / 4096) && !x.meets (s.blockVa g) (s.blockVa g + (s.kernel g.kernel).stride)
        parks := g.parks.map fun p => match p.cause with
        | .migration va => if x.page (va / 4096) || p.acc.spots.any (fun sp => x.page (sp.va / 4096)) then { p with cause := .ready } else p
        | .fault | .heldBehind | .ready | .done => p }
      else g }

/-- Dequeue a shootdown, of wake 0 or 1: its status, then its signal. -/
def dequeueShoot (s : State) (asid q : Nat) (wake : Bool) : State :=
  match KMap.get? s.ctxs asid, nextCommand s asid q with
  | some c, some (e, va, some w) =>
    if cmdKind w ≠ 0x30 ∨ bit (wordAt w 0) 10 ≠ wake then s
    else
      let (s, _) := takeCmd s asid q e va w
      let s := { s with queues := KMap.erase s.queues (queueKey asid q) }
      settleContext (
        if shootBad c q w then writeStatus s asid va 0x86
        else
          let x := shootdown s c.part w
          complete (if wake then wakeMigrations s x else performShoot s c.part x) c.part asid va 0x01 (wordAt w 3) (wordAt w 4)) asid
  | _, _ => s

/-- `XSHOOT` (R278). -/
def execXshoot (asid queue : Nat) (s : State) : Host.Outcome State Fault Refusal := .next (tick (dequeueShoot s asid queue false))

/-- `XSHOOT_WAKE` (R279). -/
def execXshootWake (asid queue : Nat) (s : State) : Host.Outcome State Fault Refusal := .next (tick (dequeueShoot s asid queue true))

end Sys2Proof.Machine
end

