-- ==== Sys2Proof/Machine/Host.lean ====
section
/-! DEFINITION. What the host does to the device through its windows: doorbells, context loads, registers, fuse advances, resets of
partitions and of virtual functions, partition swaps and accesses to device memory (R280, R346, R397, R398, R424, R428, R443, R449–R454,
R457, R461, R463). -/

namespace Sys2Proof.Machine

/-! ### Context loads (R397) -/

/-- The eight words of a descriptor. -/
def descWords (s : State) (pa : Nat) : List W64 := (List.range 8).map fun i => physWord s (pa + 8 * i)

/-- A descriptor has a bit that must be 0, or more than 2^16 card slots. -/
def descReserved (w : List W64) : Bool :=
  let only (i mask : Nat) : Bool := decide (wordAt w i &&& ~~~(BitVec.ofNat 64 mask) = 0)
  !only 0 0x1FFF || !only 1 0x000FFFFFFFFF8000 || !only 2 0x0FFFFFFFFFFFF800 || !only 3 0x0FFFFFFFFFFFFFDF || !only 4 0xFFFF || !only 5 0xFFFFFFFF ||
    !only 6 0 || !only 7 0 || decide (16 < bits (wordAt w 3) 4 0)

/-- A descriptor is not loaded: a reserved bit, a second privileged context of the partition, or an identifier that another partition
holds. -/
def descBad (s : State) (part : Nat) (w : List W64) : Bool :=
  let asid := bits (wordAt w 0) 7 0
  descReserved w ||
    (bit (wordAt w 0) 11 && bit (wordAt w 0) 12 && s.ctxs.any fun (a, c) => decide (c.part = part) && c.privileged && c.enable && decide (a ≠ asid)) ||
    (match KMap.get? s.ctxs asid with
      | some c => decide (c.part ≠ part)
      | none => false)

/-- The context that a descriptor describes, with the scheduling state that it had before. -/
def descContext (part index : Nat) (w : List W64) (old : Option Context) : Context :=
  { part := part, index := index, prio := bits (wordAt w 0) 10 8, privileged := bit (wordAt w 0) 11, enable := bit (wordAt w 0) 12
    root := bits (wordAt w 1) 51 15 * 2 ^ 15, qtable := bits (wordAt w 2) 59 11 * 2 ^ 11, cardBase := bits (wordAt w 3) 59 6 * 64
    cardLog := bits (wordAt w 3) 4 0, quantum := bits (wordAt w 4) 15 0, dropped := bits (wordAt w 5) 31 0
    cardSeq := (match old with
      | some c => c.cardSeq
      | none => 0)
    state := (match old with
      | some c => c.state
      | none => .empty)
    away := (match old with
      | some c => c.away
      | none => false)
    boosted := (match old with
      | some c => c.boosted
      | none => false)
    ran := (match old with
      | some c => c.ran
      | none => 0)
    ranAt := (match old with
      | some c => c.ranAt
      | none => 0)
    gridBars := (match old with
      | some c => c.gridBars
      | none => [])
    gridHolder := (match old with
      | some c => c.gridHolder
      | none => none) }

/-- Load descriptor `index` of a partition's context table. -/
def loadContext (s : State) (part index : Nat) : State :=
  let w := descWords s (bits (s.part part).regs.ctBase 51 14 * 2 ^ 14 + 64 * index)
  if descBad s part w then s.modRegs part fun r => { r with ctStat := 1 }
  else
    let asid := bits (wordAt w 0) 7 0
    let p := s.part part
    let s := s.setPart part { p with loaded := if p.loaded.contains asid then p.loaded else asid :: p.loaded }
    { s with ctxs := KMap.set s.ctxs asid (descContext part index w (KMap.get? s.ctxs asid)) }

/-- `CT_LOAD` (R397, R398). -/
def execCtLoad (part : Nat) (value : BitVec 64) (s : State) : Host.Outcome State Fault Refusal :=
  .next (tick (
    if hostReaches s && partThere s part then
      loadContext (s.modRegs part fun r => { r with ctLoad := BitVec.ofNat 64 (bits value 7 0) }) part (bits value 7 0)
    else s))

/-! ### Doorbells (R452) -/

/-- A virtual function, or the physical one, reaches an identifier's doorbell page. -/
def reachesPage (s : State) (vf : Option (Fin 64)) (asid : Nat) : Bool := match vf with
  | some f => bit s.dev.vfAsid[f.val] asid
  | none => true

/-- DB_STAT, of two bits W1C, for an identifier. -/
def setDbStat (s : State) (asid : Nat) (v : BitVec 2) : State :=
  { s with dbStat := if v = 0 then KMap.erase s.dbStat asid else KMap.set s.dbStat asid v }

def getDbStat (s : State) (asid : Nat) : BitVec 2 := (KMap.get? s.dbStat asid).getD 0

/-- A write of a queue's pointer: it is taken, or it sets overrun or device-queue write. -/
def writeDoorbell (s : State) (asid q : Nat) (v : W32) : State :=
  match queueEntry s asid q with
  | none => s
  | some e =>
    if e.device then setDbStat s asid (getDbStat s asid ||| 2)
    else if (v - e.rd).toNat ≤ 2 ^ e.size then { s with doorbells := KMap.set s.doorbells (queueKey asid q) v }
    else setDbStat s asid (getDbStat s asid ||| 1)

/-- `DOORBELL_WRITE` (R452): queue 64 stands for DB_STAT. -/
def execDoorbellWrite (vf : Option (Fin 64)) (asid queue : Nat) (value : BitVec 32) (s : State) : Host.Outcome State Fault Refusal :=
  .next (tick (
    if !hostReaches s || !reachesPage s vf asid || !decide (asid < 256) then s
    else if queue = 64 then setDbStat s asid (getDbStat s asid &&& ~~~(BitVec.ofNat 2 value.toNat))
    else if queue < 64 then writeDoorbell s asid queue value
    else s))

/-! ### The code fuse counter (R461) -/

/-- Advance the counter, with the entries of the verified-code cache that fall below it. -/
def advanceFuse (s : State) (v : Nat) : State :=
  if s.dev.secFuse < v ∧ v ≤ 64 then
    { s with dev := { s.dev with secFuse := v, verified := s.dev.verified.filter fun x => decide (v ≤ x.version) } }
  else s

/-- `SEC_ADV` (R461). -/
def execSecAdv (value : BitVec 64) (s : State) : Host.Outcome State Fault Refusal :=
  .next (tick (if hostReaches s then advanceFuse { s with dev := { s.dev with secAdv := value } } value.toNat else s))

/-! ### What the pools hold (R341, R344, R457) -/

/-- A sector's address with what its pool device stores and the accepted writes laid over it. -/
def overlay (l : List DurWrite) (m : Memory) : Memory := l.foldl (fun m w => Memory.writePairs m (sectorBase w.sector) w.bytes) m
def overlaySide (l : List DurWrite) (m : KMap W64) : KMap W64 := l.foldl (fun m w => match w.side with
  | some sb => setSide m w.sector sb
  | none => m) m

/-- The writes on their way to the persist buffer that pass a test are lost: their sectors hold what has been accepted (R345, R457). -/
def loseWrites (s : State) (p : DurWrite → Bool) : State :=
  let lost := (s.durWait.filter p).map (·.sector)
  let kept := s.durWait.filter fun w => !p w
  let all := s.pbuf ++ kept
  { s with
    durWait := kept
    mem := lost.foldl (sectorFrom (overlay all s.pool)) s.mem
    side := lost.foldl (fun m sec => setSide m sec ((KMap.get? (overlaySide all s.poolSide) sec).getD sideExact)) s.side }

/-- The sectors that lie in pool windows of a partition, or of any, and are listed in memory or in the pools. -/
def windowSectors (s : State) (part : Option Nat) : List Nat :=
  let here (pa : Nat) : Bool := match poolWindow s pa with
    | some (_, p) => decide (part = none) || decide (part = some p)
    | none => false
  (((s.mem ++ s.pool).filter fun (a, _) => here a).map fun (a, _) => sectorOf a).dedup ++
    (((s.side ++ s.poolSide).filter fun (n, _) => here (sectorBase n)).map (·.1)).dedup

/-- The hub cache writes back and gives up the lines that carry a partition's tag (R13, R457). -/
def dropHub (s : State) (part : Nat) : State :=
  let mine := (s.hub.filter fun (_, l) => decide (l.part = part)).map (·.1)
  let s := mine.foldl hubClean s
  { s with hub := s.hub.filter fun (k, _) => !mine.contains k }

/-! ### Partition reset (R457) -/

/-- PS_STAT as the drain record gives it (R346). -/
def drainRegs (d : Device) (r : PartRegs) : PartRegs :=
  { r with psDrained := d.drainCount, psPortfail := d.drainFail, psIncomplete := d.drainIncomplete, psClean := d.drainClean }

/-- A partition enters reset: its contexts end without status or records; its registers, cores, halls, barriers and queues take their
reset values; its hub lines are written back; writes not yet accepted are lost. Device memory keeps its contents. -/
def resetPartition (s : State) (part : Nat) : State :=
  let cores := coresOf s part
  let asids := (s.ctxs.filter fun (_, c) => decide (c.part = part)).map (·.1)
  let kids := (s.kernels.filter fun (_, k) => decide (k.part = part)).map (·.1)
  let s := dropHub (loseWrites s fun w => decide (w.part = part)) part
  let s := poolSync s ((windowSectors s (some part)).filter fun sec => !durPending s sec)
  { s with
    cores := s.cores.filter fun (c, _) => !cores.contains c
    tlb := s.tlb.filter fun t => !cores.contains t.core
    groups := s.groups.filter fun (_, g) => !kids.contains g.kernel
    teams := s.teams.filter fun (_, t) => !kids.contains t.kernel
    kernels := s.kernels.filter fun (i, _) => !kids.contains i
    ctxs := s.ctxs.filter fun (a, _) => !asids.contains a
    queues := s.queues.filter fun (k, _) => !asids.contains (k / 64)
    doorbells := s.doorbells.filter fun (k, _) => !asids.contains (k / 64)
    dbStat := s.dbStat.filter fun (a, _) => !asids.contains a
    parts := if h : part < 8 then s.parts.set part { Partition.reset with regs := drainRegs s.dev PartRegs.reset, inReset := true, clockBase := s.clock } else s.parts }

/-- The configured partitions whose bits a value sets. -/
def selected (s : State) (value : BitVec 64) : List Nat := (List.range 8).filter fun i => bit value i && partThere s i

/-- `DEV_RST` (R451, R457). -/
def execDevRst (value : BitVec 64) (s : State) : Host.Outcome State Fault Refusal :=
  .next (tick (if hostReaches s then (selected s value).foldl resetPartition s else s))

/-- Every configured partition is held in reset. -/
def allHeld (s : State) : Bool := (List.range (max 1 s.dev.partCount)).all fun i => (s.part i).inReset

/-- The physical bytes of an enabled window. -/
def windowSpan (w : W64 × W64) : Nat × Nat := (bits w.1 51 30 * 2 ^ 30, (bits w.1 51 30 + bits w.1 63 52) * 2 ^ 30)

/-- Gigabytes behind a pool port: 4 TB at most are attached in all (R454). -/
def portGigabytes (p : Nat) : Nat := min poolGigabytes (Config.poolCapacity p)

/-- Enabled windows overlap, or one passes the capacity of its port (R454). -/
def windowsBad (s : State) : Bool :=
  let l := s.dev.poolWin.toList.filter fun w => bit w.2 6
  l.any (fun w => decide (bits w.2 1 0 = 3) || decide (portGigabytes (bits w.2 1 0) < bits w.1 63 52)) ||
    (List.range l.length).any fun i => (List.range i).any fun j =>
      let a := windowSpan (l.getD i (0, 0))
      let b := windowSpan (l.getD j (0, 0))
      decide (a.1 < b.2) && decide (b.1 < a.2)

/-- `LEAVE_RESET` (R451, R454, R457): the partitions held in reset leave it, with a new partition count; with windows at fault they stay
in it, and DEV_STAT.boot is clear. -/
def execLeaveReset (s : State) : Host.Outcome State Fault Refusal :=
  .next (tick (
    if !hostReaches s || !(List.range 8).any (fun i => (s.part i).inReset) then s
    else if windowsBad s then { s with dev := { s.dev with windowsBad := true } }
    else
      { s with
        dev := { s.dev with windowsBad := false, partCount := if allHeld s then 2 ^ bits s.dev.devCfg 1 0 else s.dev.partCount }
        parts := s.parts.map fun p => if p.inReset then { p with inReset := false, clockBase := s.clock } else p }))

/-! ### Reset of a virtual function (R463) -/

/-- The identifiers of a virtual function. -/
def vfOwns (s : State) (vf : Fin 64) (asid : Nat) : Bool := bit s.dev.vfAsid[vf.val] asid

/-- `VF_FUNCTION_LEVEL_RESET`: its contexts are disabled, and their live groups killed, without error records. -/
def execVfFunctionLevelReset (vf : Fin 64) (s : State) : Host.Outcome State Fault Refusal :=
  .next (tick (
    let mine := (s.groups.filter fun (_, g) => g.live && vfOwns s vf (s.kernel g.kernel).asid).map (·.1)
    mine.foldl (fun s gid => stopGroup s gid 0)
      { s with ctxs := KMap.mapVals s.ctxs fun a c => if vfOwns s vf a then { c with enable := false } else c }))

/-! ### Partition swaps (R424, R336) -/

/-- The contexts of a partition that are in place. -/
def presentCtxs (s : State) (part : Nat) : List Nat := (s.ctxs.filter fun (_, c) => decide (c.part = part) && !c.away).map (·.1)

/-- An identifier's kernels are under SCORE. -/
def scoreOf (s : State) (asid : Nat) : Bool := s.kernels.any fun (_, k) => decide (k.asid = asid) && k.score

/-- Write back the L1s of some cores, revoked sectors to the frames that their pages map to now (R277, R325, R336). -/
def writeBackCores (s : State) (cores : List Nat) : State :=
  cores.foldl (fun s c => (((s.core c).l1.map (·.asid)).dedup).foldl (fun s a => (writeBackFor s c (scoreOf s a) fun e => decide (e.asid = a)).1) s) s

/-- A write of SW_CTL is kept whether or not a swap starts (R5). -/
def keepSwCtl (s : State) (part : Nat) (v : BitVec 64) : State := s.modRegs part fun r => { r with swCtl := BitVec.ofNat 64 (bits v 1 0) }

/-- A swap may start: the partition is there, in operation and not being swapped. -/
def mayStartSwap (s : State) (part : Nat) : Bool :=
  hostReaches s && partThere s part && !(s.part part).inReset && (s.part part).swapping.isNone

/-- A swap starts. -/
def beginSwap (s : State) (part : Nat) (out : Bool) : State :=
  let p := s.part part
  s.setPart part { p with
    swapping := some out, swapArea := bits p.regs.swBase 51 12 * 4096
    regs := { p.regs with swBusy := true, swCtl := if out then 1 else 2 } }

/-- `SWAP_OUT` (R424): every context of the partition is pre-empted, its context blocks are written back, and the L1s are written back
and marked stale. -/
def execSwapOut (part : Nat) (s : State) : Host.Outcome State Fault Refusal :=
  .next (tick (
    if mayStartSwap s part then
      let s := (presentCtxs s part).foldl (fun s a => setCtxState (haltContext s a) a .preempted) s
      let s := (coresOf s part).foldl (fun s c => if (s.core c).l1.isEmpty then s else l1MarkStale s c fun _ => true) (writeBackCores s (coresOf s part))
      beginSwap s part true
    else s))

/-- `SWAP_IN` (R424). -/
def execSwapIn (part : Nat) (s : State) : Host.Outcome State Fault Refusal :=
  .next (tick (if mayStartSwap s part then beginSwap s part false else s))

/-- The stores of the partition's cores move to the swap area, with the contexts in place. -/
def finishOut (s : State) (part : Nat) : State :=
  let cores := (coresOf s part).filter fun c => (KMap.get? s.cores c).isSome
  let ctxs := presentCtxs s part
  let image : SwapImage :=
    { part := part, ctxs := ctxs
      cores := cores.map fun c => (c, { acc := (s.core c).acc, rowBound := (s.core c).rowBound, accPoison := (s.core c).accPoison }) }
  { s with
    swapAreas := KMap.set s.swapAreas (s.part part).swapArea image
    ctxs := KMap.mapVals s.ctxs fun a c => if ctxs.contains a then { c with away := true } else c
    cores := KMap.mapVals s.cores fun c x => if cores.contains c then { x with acc := [], rowBound := [], accPoison := [], latch := none } else x }

/-- What a swap-out of the partition saved comes back, and its contexts run. -/
def finishIn (s : State) (image : SwapImage) : State :=
  let s := image.cores.foldl (fun s (c, x) =>
    let k := s.core c
    s.setCore c { k with acc := x.acc, rowBound := x.rowBound, accPoison := x.accPoison, latch := none }) s
  image.ctxs.foldl (fun s a => resumeContext { s with ctxs := KMap.modify s.ctxs a fun c => { c with away := false } } a) s

/-- `SWAP_COMPLETE` (R424): SW_STAT is set; a swap-in of an area that no swap-out of the partition wrote fails. -/
def execSwapComplete (part : Nat) (s : State) : Host.Outcome State Fault Refusal :=
  .next (tick (
    let p := s.part part
    let done (s : State) (ok : Bool) : State :=
      let p := s.part part
      s.setPart part { p with swapping := none, regs := { p.regs with swBusy := false, swDone := ok, swFailed := !ok } }
    match p.swapping with
    | none => s
    | some true => done (finishOut s part) true
    | some false => match KMap.get? s.swapAreas p.swapArea with
      | some i => if i.part = part then done (finishIn s i) true else done s false
      | none => done s false))

/-! ### Registers (R280, R346, R398, R428, R443, R450, R451) -/

/-- A write of a log2 size that must lie in a range: the whole value that is written (DESIGN CHOICE, log 107). -/
def sizeIn (value : BitVec 64) (lo hi : Nat) (old : W64) : W64 :=
  if lo ≤ value.toNat ∧ value.toNat ≤ hi then value else old

/-- A consumed count does not pass the produced one. -/
def consumed (prod cons : BitVec 32) (v : BitVec 64) : BitVec 32 :=
  let w : BitVec 32 := BitVec.ofNat 32 v.toNat
  if (prod - cons).toNat < (w - cons).toNat then prod else w

/-- A value with only the bits of a field. -/
def field (v : BitVec 64) (hi lo : Nat) : W64 := BitVec.ofNat 64 (bits v hi lo * 2 ^ lo)

/-- A kernel of the partition is live. -/
def partLive (s : State) (part : Nat) : Bool := s.kernels.any fun (_, k) => decide (k.part = part)

/-- Write a register of a partition block that has no behaviour of its own. -/
def writePartReg (s : State) (part off : Nat) (v : BitVec 64) : State :=
  let p := s.part part
  let r := p.regs
  let put (x : PartRegs) : State := s.setPart part { p with regs := x }
  let held (x : PartRegs) : State := writeHeld (put x) part p.held.length
  match off with
  | 0x100 => put { r with fqBase := field v 51 6 }
  | 0x108 => held { r with fqSize := sizeIn v 6 16 r.fqSize }
  | 0x118 => held { r with fqCons := consumed r.fqProd r.fqCons v }
  | 0x130 => put { r with frStat := r.frStat &&& ~~~(BitVec.ofNat 3 v.toNat) }
  | 0x140 => put { r with hsCtl := v &&& 0x1F01 }
  | 0x148 => put { r with hsBase := field v 51 5 }
  | 0x150 => put { r with hsSize := sizeIn v 6 20 r.hsSize }
  | 0x160 => put { r with hsCons := BitVec.ofNat 32 v.toNat }
  | 0x170 => if partLive s part then s else put { r with exBase := field v 51 12 }
  | 0x178 => if partLive s part then s else put { r with exSize := sizeIn v 12 20 r.exSize }
  | 0x180 => put { r with
      psPortfail := r.psPortfail &&& ~~~(BitVec.ofNat 3 (bits v 10 8)), psIncomplete := r.psIncomplete && !bit v 1, psClean := r.psClean && !bit v 0 }
  | 0x1C0 => put { r with swBase := field v 51 12 }
  | 0x1C8 => put { r with swCtl := field v 1 0 }
  | 0x200 => put { r with ctBase := field v 51 14 }
  | 0x210 => put { r with ctStat := r.ctStat &&& ~~~(BitVec.ofNat 1 v.toNat) }
  | 0x220 => put { r with thBase := field v 51 12 }
  | 0x240 => put { r with elBase := field v 51 6 }
  | 0x248 => put { r with elSize := sizeIn v 6 16 r.elSize }
  | 0x258 => put { r with elCons := consumed r.elProd r.elCons v }
  | _ => s

/-- Write a device register that has no behaviour of its own. -/
def writeDevReg (s : State) (off : Nat) (v : BitVec 64) : State :=
  let d := s.dev
  if off = 0x08 then
    if allHeld s && !bit d.devCfg 63 then { s with dev := { d with devCfg := v &&& BitVec.ofNat 64 (2 ^ 63 + 3) } } else s
  else if off = 0x40 then { s with dev := { d with pwLimit := BitVec.ofNat 11 v.toNat } }
  else if off = 0x50 then { s with dev := { d with pwGate := bit v 0 } }
  else if 0x200 ≤ off ∧ off < 0x300 ∧ off % 8 = 0 then
    let w := (off - 0x200) / 16
    if h : w < 16 then
      let old := d.poolWin[w]
      { s with dev := { d with poolWin := d.poolWin.set w (if off % 16 = 0 then (field v 63 30, old.2) else (old.1, field v 6 0)) } }
    else s
  else if 0x400 ≤ off ∧ off < 0xC00 ∧ off % 8 = 0 then
    let f := (off - 0x400) / 32
    if h : f < 64 then
      let i := (off - 0x400) % 32 / 8
      { s with dev := { d with vfAsid := d.vfAsid.set f (setBits d.vfAsid[f] (64 * i + 63) (64 * i) v.toNat) } }
    else s
  else s

/-- Where an offset of BAR0 lies: the device registers, or an offset in a partition's block (R450). -/
def barBlock (off : Nat) : Option (Nat × Nat) := if 0x100000 ≤ off ∧ off < 0x180000 then some ((off - 0x100000) / 0x10000, (off - 0x100000) % 0x10000) else none

/-- `REGISTER_WRITE` (R450, R451): registers with behaviour of their own act as their own stimuli do. -/
def execRegisterWrite (offset : Nat) (value : BitVec 64) (s : State) : Host.Outcome State Fault Refusal :=
  if !hostReaches s then .next (tick s)
  else match barBlock offset with
  | none =>
    if offset = 0x18 then execDevRst value s
    else if offset = 0x28 then execSecAdv value s
    else .next (tick (writeDevReg s offset value))
  | some (part, off) =>
    if !partThere s part then .next (tick s)
    else if off = 0x128 then execFrPost part value s
    else if off = 0x208 then execCtLoad part value s
    else if off = 0x1C8 ∧ bits value 1 0 = 1 then execSwapOut part (keepSwCtl s part value)
    else if off = 0x1C8 ∧ bits value 1 0 = 2 then execSwapIn part (keepSwCtl s part value)
    else .next (tick (writePartReg s part off value))

/-! ### What the registers read (R5, R280, R346, R398, R428, R443, R450, R451) -/

/-- A flag at a bit. -/
def flagAt (b : Bool) (n : Nat) : Nat := if b then 2 ^ n else 0

/-- A register of a partition's block. -/
def readPartReg (s : State) (part off : Nat) : Nat :=
  let p := s.part part
  let r := p.regs
  match off with
  | 0x100 => r.fqBase.toNat
  | 0x108 => r.fqSize.toNat
  | 0x110 => r.fqProd.toNat
  | 0x118 => r.fqCons.toNat
  | 0x120 => p.held.length % 2 ^ 16
  | 0x128 => r.frPost.toNat
  | 0x130 => r.frStat.toNat
  | 0x140 => r.hsCtl.toNat
  | 0x148 => r.hsBase.toNat
  | 0x150 => r.hsSize.toNat
  | 0x158 => r.hsProd.toNat
  | 0x160 => r.hsCons.toNat
  | 0x168 => r.hsDrop.toNat
  | 0x170 => r.exBase.toNat
  | 0x178 => r.exSize.toNat
  | 0x180 => r.psDrained.toNat * 2 ^ 16 + r.psPortfail.toNat * 2 ^ 8 + flagAt r.psIncomplete 1 + flagAt r.psClean 0
  | 0x1C0 => r.swBase.toNat
  | 0x1C8 => r.swCtl.toNat
  | 0x1D0 => flagAt r.swBusy 0 + flagAt r.swDone 1 + flagAt r.swFailed 2
  | 0x200 => r.ctBase.toNat
  | 0x208 => r.ctLoad.toNat
  | 0x210 => r.ctStat.toNat
  | 0x220 => r.thBase.toNat
  | 0x240 => r.elBase.toNat
  | 0x248 => r.elSize.toNat
  | 0x250 => r.elProd.toNat
  | 0x258 => r.elCons.toNat
  | 0x260 => r.elDrop.toNat
  | _ => 0

/-- DEV_STAT: boot complete, but for windows at fault (R454), recovery mode, and the partitions held in reset. -/
def devStat (s : State) : Nat :=
  flagAt (s.dev.bootDone && !s.dev.windowsBad) 0 + flagAt s.dev.recovery 1 +
    (List.range 8).foldl (fun n i => n + flagAt (partThere s i && (s.part i).inReset) (8 + i)) 0

/-- LK_STAT of a port (R462). -/
def linkStat (l : Link) : Nat :=
  (match l.state with
    | .down => 0
    | .training => 1
    | .up => 2
    | .retraining => 3) + flagAt l.isUp 2 + l.peer.toNat * 2 ^ 8 + l.retrains.toNat * 2 ^ 32

/-- A device register. -/
def readDevReg (s : State) (off : Nat) : Nat :=
  let d := s.dev
  if off = 0x00 then 0x0410
  else if off = 0x08 then d.devCfg.toNat
  else if off = 0x10 then devStat s
  else if off = 0x20 then d.secFuse
  else if off = 0x28 then d.secAdv.toNat
  else if off = 0x40 then d.pwLimit.toNat
  else if off = 0x48 then d.pwWatts.toNat + d.throttle.toNat * 2 ^ 11 + flagAt (decide (d.throttle ≠ 0)) 16
  else if off = 0x50 then flagAt d.pwGate 0
  else if 0x80 ≤ off ∧ off < 0x100 ∧ off % 8 = 0 then (if h : (off - 0x80) / 8 < 16 then linkStat d.links[(off - 0x80) / 8] else 0)
  else if 0x200 ≤ off ∧ off < 0x300 ∧ off % 8 = 0 then
    (if h : (off - 0x200) / 16 < 16 then (if off % 16 = 0 then d.poolWin[(off - 0x200) / 16].1.toNat else d.poolWin[(off - 0x200) / 16].2.toNat) else 0)
  else if 0x400 ≤ off ∧ off < 0xC00 ∧ off % 8 = 0 then
    (if h : (off - 0x400) / 32 < 64 then bits d.vfAsid[(off - 0x400) / 32] (64 * ((off - 0x400) % 32 / 8) + 63) (64 * ((off - 0x400) % 32 / 8)) else 0)
  else 0

/-- What the physical function's read of an offset of BAR0 returns (R5, R450): nothing while the port does not answer, and in recovery mode only
DEV_STEP and DEV_STAT (R458). -/
def readRegister (s : State) (off : Nat) : Option W64 :=
  if s.dev.power ≠ .d0 then none
  else if s.dev.recovery then some (if off = 0 ∨ off = 0x10 then BitVec.ofNat 64 (readDevReg s off) else 0)
  else if !s.dev.bootDone then none
  else some (match barBlock off with
    | none => BitVec.ofNat 64 (readDevReg s off)
    | some (part, o) => if partThere s part then BitVec.ofNat 64 (readPartReg s part o) else 0)

/-- What a function's read of offset 8·queue of an identifier's doorbell page returns (R450, R452): the queue's current write pointer, DB_STAT
for queue 64, and 0 where no register lies, or where the page is not the function's. -/
def readDoorbell (s : State) (vf : Option (Fin 64)) (asid queue : Nat) : W64 :=
  if !reachesPage s vf asid then 0
  else if queue = 64 then BitVec.ofNat 64 (getDbStat s asid).toNat
  else if 64 < queue then 0
  else BitVec.ofNat 64 (match queueEntry s asid queue with
    | some e => writePointer s asid queue e
    | none => (KMap.get? s.doorbells (queueKey asid queue)).getD 0).toNat

/-! ### Host accesses to device memory (R449) -/

/-- A physical address of HBM. -/
def inHbm (s : State) (pa : Nat) : Bool := (poolWindow s pa).isNone && decide (Config.stackOf (pa / 4096) < 8)

/-- The partition that holds a physical address (R13). -/
def partOfPa (s : State) (pa : Nat) : Nat := match poolWindow s pa with
  | some (_, p) => p
  | none => let k := Config.stackOf (pa / 4096)
    if k < 8 then k * partCountOf s / 8 else 0

/-- An agent outside the device reaches the home slices of some bytes: their pool lines come to the port, and their hub lines are used. -/
def homeTouch (s : State) (pa n : Nat) (dirty : Bool) : State :=
  (((List.range n).map fun i => sectorOf (pa + i)).dedup).foldl (fun s sec =>
    let s := match poolWindow s (sectorBase sec) with
      | some (port, _) => poolOwn s port (lineOfSector sec)
      | none => s
    hubUse s (partOfPa s (sectorBase sec)) sec 0 dirty) s

/-- Bytes written at their home slice by an agent outside the device; a whole sector clears its poison (R441). -/
def homeBytes (s : State) (pa : Nat) (data : List Byte) : State :=
  let s := homeTouch s pa data.length true
  let last := pa + data.length
  { s with
    mem := Memory.writeBytes s.mem pa data
    poison := s.poison.filter fun sec => !(decide (pa ≤ sectorBase sec) && decide (sectorBase sec + sectorSize sec ≤ last)) }

/-- A sector that some bytes touch is poisoned. -/
def bytesPoisoned (s : State) (pa n : Nat) : Bool :=
  s.poison.any fun sec => decide (sectorBase sec < pa + n) && decide (pa < sectorBase sec + sectorSize sec)

/-- Send an answer. -/
def reply (s : State) (r : Reply) : State := { s with dev := { s.dev with replies := r :: s.dev.replies } }

/-- `HOST_HDM_ACCESS` (R449): at the home slice; a read gives as many bytes as `data` has. -/
def execHostHdmAccess (pa : Nat) (write : Bool) (data : List (BitVec 8)) (s : State) : Host.Outcome State Fault Refusal :=
  .next (tick (
    if !(hostReaches s && inHbm s pa && inHbm s (pa + (data.length - 1))) then s
    else if write then homeBytes s pa data
    else
      let s := homeTouch s pa data.length false
      reply s (.hostRead (Memory.bytes s.mem pa data.length) (bytesPoisoned s pa data.length))))

end Sys2Proof.Machine
end

