-- ==== Sys2Proof/Machine/Lanes.lean ====
section
/-! DEFINITION. Cross-lane and ragged-walk instructions (R212–R227). -/

namespace Sys2Proof.Machine

/-- Issue a cross-lane instruction: it spans the group, and traps where a live slice is not in its gang (R212). -/
def laneIssue (i : Instr) (uses : Uses) (s : State) (body : Gang → Result) : Host.Outcome State Fault Refusal :=
  issue i s uses fun c => if c.lacksSlice then c.illegal 5 else body c

/-- A cross-lane result, long-latency where it writes a register (R46, R227); `lanes` and `out` carry the flags of float
combines. -/
def Gang.lanesDone (c : Gang) (s : State) (writes hold : Bool) (lanes : BitVec 32) (out : Nat → LaneOut) (ws : List RegWrite) : Result :=
  if !writes && !hold then .done s
  else c.launch s c.g (c.pending s .xlane false lanes out ws) writes hold

/-- No flags and no values: for results judged by nothing. -/
def noOut : Nat → LaneOut := fun _ => LaneOut.none

/-! ### Shuffles and broadcast (R217, R218) -/

/-- Move the value and bound of a source lane into each active lane. -/
def Gang.shuffle (c : Gang) (s : State) (d : Dst) (a : Src) (from_ : Nat → Nat) : Result :=
  match c.ty with
  | none => c.badMode
  | some t =>
    let x := c.opnd t a
    let o : Opnd :=
      { val := Vector.ofFn fun l : Fin 32 => BitVec.ofNat 64 (x.at (from_ l.val))
        bnd := Vector.ofFn fun l : Fin 32 => scoreB c.k.score (x.bndAt (from_ l.val)) }
    c.lanesDone (spend s (if t.is64 then 1 else 0)) (decide (d ≠ .discard)) false 0 noOut (dstWrites t.is64 d o c.lanes)

/-- `SHFL`. -/
def execShfl (d : Dst) (a b : Src) (s : State) : Host.Outcome State Fault Refusal :=
  laneIssue (.shfl d a b) { regs := dstRegs d ++ srcRegs a ++ srcRegs b } s fun c =>
    let i := c.opndRaw (wideMode c.mode) b
    c.shuffle s d a fun l => i.at l % 2 ^ 32 % c.k.width

/-- `SHFLX`. -/
def execShflx (d : Dst) (a : Src) (kind : BitVec 2) (rel : Bool) (n : BitVec 5) (s : State) : Host.Outcome State Fault Refusal :=
  laneIssue (.shflx d a kind rel n) { regs := dstRegs d ++ srcRegs a } s fun c =>
    let g := c.k.width
    let k := if rel then g / 2 ^ n.toNat else n.toNat
    if (rel && (decide (n = 0) || decide (k = 0))) || (!rel && decide (g ≤ n.toNat)) then c.illegal 1
    else c.shuffle s d a fun l => match kind.toNat with
      | 0 => if k ≤ l then l - k else l
      | 1 => if l + k < g then l + k else l
      | 2 => l ^^^ k
      | _ => (l + k) % g

/-- `BCST`. -/
def execBcst (d : Dst) (a : Src) (lane : BitVec 8) (s : State) : Host.Outcome State Fault Refusal :=
  laneIssue (.bcst d a lane) { regs := dstRegs d ++ srcRegs a } s fun c =>
    if lane ≠ 0xFF ∧ c.k.width ≤ lane.toNat then c.illegal 1
    else c.shuffle s d a fun _ => if lane = 0xFF then (lowestBit c.lanes).getD 0 else lane.toNat

/-! ### Votes, ballots and segment masks (R219–R221) -/

/-- `VOTE`. -/
def execVote (p : PReg) (comb : BitVec 2) (kind : BitVec 2) (src : PReg) (s : State) : Host.Outcome State Fault Refusal :=
  laneIssue (.vote p comb kind src) { p := [p, src] } s fun c =>
    let x := c.view.pred src &&& c.lanes
    let t := match kind.toNat with
      | 0 => decide (x = c.lanes)
      | 1 => decide (x ≠ 0)
      | _ => decide (x = c.lanes) || decide (x = 0)
    let v : BitVec 32 := if t then BitVec.allOnes 32 else 0
    c.lanesDone s true false 0 noOut [.p p (condComb comb.toNat (c.view.pred p) v) c.lanes]

/-- `BALLOT`. -/
def execBallot (d : UReg) (src : PReg) (s : State) : Host.Outcome State Fault Refusal :=
  laneIssue (.ballot d src) { u := [d], p := [src] } s fun c =>
    c.lanesDone s true false 0 noOut [.u d ((c.view.pred src &&& c.lanes).setWidth 64) (scoreB c.k.score b16Exact)]

/-- The previous and the next active lane. -/
def prevLane (lanes : BitVec 32) (l : Nat) : Option Nat := ((setBitsOf lanes).filter (· < l)).getLast?
def nextLane (lanes : BitVec 32) (l : Nat) : Option Nat := ((setBitsOf lanes).filter (l < ·)).head?

/-- `SEGM`: the MODE type is not used, so a names one register under every type (R216, log 101). -/
def execSegm (p : PReg) (a : Src) (tail : Bool) (s : State) : Host.Outcome State Fault Refusal :=
  laneIssue (.segm p a tail) { ranges := (srcRegs a).map fun r => (r, 1), p := [p] } s fun c =>
    let v : BitVec 32 := maskOf 32 fun l => match (if tail then nextLane c.lanes l else prevLane c.lanes l) with
      | some q => decide (c.low32 a l ≠ c.low32 a q)
      | none => true
    c.lanesDone s true false 0 noOut [.p p v c.lanes]

/-! ### Reductions and scans (R222–R224) -/

/-- A value being combined: bits, bound, flags raised on the way. -/
structure Part where
  bits : Nat
  bnd : B16
  flags : BitVec 9

/-- combine(x, y) of an operation (R222, R224). -/
def combine (score : Bool) (t : Ty) (mode : BitVec 24) (op : Nat) (x y : Part) : Part :=
  match t.kind with
  | .flt f =>
    let ftz := modeFtz mode
    let a := fArg f ftz false false false x.bnd x.bits
    let b := fArg f ftz false false false y.bnd y.bits
    let o := match op with
      | 0 => roundOut f (modeRnd mode) (modeSat mode) ftz (addExact (modeRnd mode) a b) (a.β.add b.β) 0
      | 1 => minmaxOut f true a b
      | _ => minmaxOut f false a b
    { bits := o.bits, bnd := scoreB score o.bnd, flags := x.flags ||| y.flags ||| o.flags }
  | .sint | .uint | .b16 =>
    let v : Nat := match op with
      | 0 => (x.bits + y.bits) % 2 ^ t.w
      | 1 => lowBits t.w (min (t.num x.bits) (t.num y.bits))
      | 2 => lowBits t.w (max (t.num x.bits) (t.num y.bits))
      | 3 => x.bits &&& y.bits
      | 4 => x.bits ||| y.bits
      | _ => x.bits ^^^ y.bits
    { bits := v, bnd := intBound score [x.bnd, y.bnd], flags := 0 }

/-- combine with absent operands (R222, R223). -/
def combineOpt (f : Part → Part → Part) : Option Part → Option Part → Option Part
  | some x, some y => some (f x y)
  | some x, none => some x
  | none, y => y

/-- The identity of an exclusive scan (R223). -/
def identityOf (score : Bool) (t : Ty) (op : Nat) : Part :=
  let v : Nat := match t.kind with
    | .flt f => (match op with
      | 0 => 0
      | 1 => f.encode (.inf false)
      | _ => f.encode (.inf true))
    | .sint | .uint | .b16 => (match op with
      | 1 => lowBits t.w (intMax t.signed t.w)
      | 2 => lowBits t.w (intMin t.signed t.w)
      | 3 => 2 ^ t.w - 1
      | _ => 0)
  { bits := v, bnd := scoreB score b16Exact, flags := 0 }

/-- The lanes that begin a segment among the active lanes (R221). -/
def segHeads (lanes heads : BitVec 32) (seg : Bool) : BitVec 32 :=
  lanes &&& ((if seg then heads else 0) ||| maskOf 32 fun l => decide (lowestBit lanes = some l))

/-- The segment of an active lane. -/
def segmentOf (lanes heads : BitVec 32) (l : Nat) : BitVec 32 :=
  let start := ((setBitsOf heads).filter (· ≤ l)).getLast?.getD 0
  let stop := ((setBitsOf heads).filter (l < ·)).head?.getD 32
  lanes &&& maskOf 32 fun i => decide (start ≤ i) && decide (i < stop)

/-- The tree of `REDL` over a vector of optional parts: steps k = 1, 2, 4, … below G. -/
def redTree (f : Part → Part → Part) (g : Nat) : Nat → Nat → (Nat → Option Part) → (Nat → Option Part)
  | 0, _, t => t
  | fuel + 1, k, t =>
    if g ≤ k then t
    else
      let u : List (Option Part) := (List.range g).map fun i => if i % (2 * k) = 0 then combineOpt f (t i) (t (i + k)) else t i
      redTree f g fuel (2 * k) fun i => (u.getD i none)

/-- The steps of `SCANL`; each lane keeps the flags of its own steps (R224). -/
def scanSteps (f : Part → Part → Part) (g : Nat) : Nat → Nat → (Nat → Option Part) → BitVec 32 → (Nat → Option Part)
  | 0, _, t, _ => t
  | fuel + 1, k, t, h =>
    if g ≤ k then t
    else
      let u : List (Option Part) := (List.range g).map fun l => if k ≤ l && !bit h l then combineOpt f ((t (l - k)).map fun p => { p with flags := 0 }) (t l) else t l
      scanSteps f g fuel (2 * k) (fun i => u.getD i none) (h ||| maskOf 32 fun l => decide (k ≤ l) && decide (l < g) && bit h (l - k))

/-- The types of `REDL` and `SCANL` (R216). -/
def redlTy (op : Nat) (t : Ty) : Bool := match t.kind with
  | .flt .f32 | .flt .f64 => decide (op ≤ 2)
  | .sint | .uint => decide (32 ≤ t.w)
  | _ => false

/-- `REDL` and `SCANL` over the gang's active lanes, an integer result's bound being R224's for one lane as for several; `result`
gives a lane's part from the operand parts and the segment heads, and `steps` are the lanes whose combine steps raise flags
(R224). The run is held as R177 says. -/
def Gang.foldLanes (c : Gang) (s : State) (d : Dst) (a : Src) (op : Nat) (seg : Bool) (sp : PReg) (steps : BitVec 32)
    (result : Ty → (Nat → Part) → BitVec 32 → Nat → Part) : Result :=
  match c.ty with
  | none => c.badMode
  | some t =>
    if !redlTy op t then c.badMode
    else
      let x := c.opnd t a
      let part (l : Nat) : Part :=
        { bits := x.at l, bnd := if t.isFloat then scoreB c.k.score (x.bndAt l) else intBound c.k.score [x.bndAt l], flags := 0 }
      let heads := segHeads c.lanes (c.view.pred sp) seg
      let out (l : Nat) : LaneOut :=
        let r := result t part heads l
        { val := BitVec.ofNat 64 r.bits, bnd := r.bnd, flags := r.flags, tier := 0 }
      let hold := t.isFloat && (decide (d = .discard) || decide (modeBnd c.mode = 2) || decide (c.g.fpEnable ≠ 0))
      c.lanesDone (spend s (if t.is64 then 1 else 0)) (decide (d ≠ .discard)) hold steps out (dstWrites t.is64 d (outOpnd out) c.lanes)

/-- `REDL` (R222). -/
def execRedl (d : Dst) (a : Src) (op : BitVec 3) (seg : Bool) (sp : PReg) (s : State) : Host.Outcome State Fault Refusal :=
  laneIssue (.redl d a op seg sp) { regs := dstRegs d ++ srcRegs a, p := [sp] } s fun c =>
    c.foldLanes s d a op.toNat seg sp c.lanes fun t part heads l =>
      let m := segmentOf c.lanes heads l
      (redTree (combine c.k.score t c.mode op.toNat) c.k.width 6 1 (fun i => if bit m i then some (part i) else none) 0).getD (identityOf c.k.score t op.toNat)

/-- `SCANL` (R223): the flags of every combine step stand in its results. -/
def execScanl (d : Dst) (a : Src) (op : BitVec 3) (seg excl : Bool) (sp : PReg) (s : State) : Host.Outcome State Fault Refusal :=
  laneIssue (.scanl d a op seg excl sp) { regs := dstRegs d ++ srcRegs a, p := [sp] } s fun c =>
    c.foldLanes s d a op.toNat seg sp (maskOf 32 fun l => decide (l < c.k.width)) fun t part heads l =>
      let r := scanSteps (combine c.k.score t c.mode op.toNat) c.k.width 6 1 (fun i => if bit c.lanes i then some (part i) else none) heads
      let ident := identityOf c.k.score t op.toNat
      if excl then
        let all := (r l).getD ident
        match (if bit heads l then none else prevLane c.lanes l) with
        | some q => { (r q).getD ident with flags := all.flags }
        | none => { ident with flags := all.flags }
      else (r l).getD ident

/-! ### Ragged walks (R225, R226) -/

/-- The length that a lane names: its low 32 bits, from every lane. -/
def Gang.lengths (c : Gang) (b : Src) : List Nat := (List.range c.k.width).map fun l => (c.low32 b l).toNat

/-- `RWALK`. -/
def execRwalk (d : UReg) (a : Src) (b : UReg) (s : State) : Host.Outcome State Fault Refusal :=
  laneIssue (.rwalk d a b) { ranges := (srcRegs a).map fun r => (r, 1), u := [d, uregNext d, b] } s fun c =>
    let total := (c.lengths a).foldl (· + ·) 0
    let ex := scoreB c.k.score b16Exact
    c.lanesDone s true false 0 noOut
      [.u d (BitVec.ofNat 64 (min (c.view.uni b).1.toNat total)) ex, .u (uregNext d) (BitVec.ofNat 64 total) ex]
/-- The row that holds position e, with the start of it (R226). -/
def rowAt : List Nat → Nat → Nat → Nat → Option (Nat × Nat)
  | [], _, _, _ => none
  | n :: t, row, start, e => if start ≤ e ∧ e < start + n then some (row, e - start) else rowAt t (row + 1) (start + n) e

/-- `RNEXT`. -/
def execRnext (d : VFirst) (a : UReg) (b : Src) (s : State) : Host.Outcome State Fault Refusal :=
  laneIssue (.rnext d a b) { ranges := (.v d, 2) :: (srcRegs b).map fun r => (r, 1), u := [a, uregNext a] } s fun c =>
    let cur := (c.view.uni a).1.toNat
    let total := (c.view.uni (uregNext a)).1.toNat
    let lens := c.lengths b
    let ex := scoreB c.k.score b16Exact
    let at_ (l : Nat) : Option (Nat × Nat) := if cur + l < total then rowAt lens 0 0 (cur + l) else none
    let line (f : Option (Nat × Nat) → Nat) : VLine :=
      { val := Vector.ofFn fun l : Fin 32 => BitVec.ofNat 32 (f (at_ l.val)), bnd := Vector.replicate 32 ex }
    c.lanesDone s true false 0 noOut
      [.v (.v d) (line fun r => match r with
          | some p => p.1
          | none => 0xFFFFFFFF) c.lanes,
       .v (regNext (.v d)) (line fun r => match r with
          | some p => p.2
          | none => 0) c.lanes,
       .u a (BitVec.ofNat 64 (min (cur + c.k.width) total)) ex]

end Sys2Proof.Machine
end

