-- ==== Sys2Proof/Machine/Legacy.lean ====
section
/-! DEFINITION. The Z3 instructions that run as micro-steps (R437, R438): each machine step at one performs the micro-step that
its run stands at. -/

namespace Sys2Proof.Machine

/-- A micro-step is done, and the instruction goes on with the next. -/
def Gang.microDone (c : Gang) (s : State) : Result :=
  .gone (s.modGroup c.gid fun g => { g with run := g.run.map fun r => { r with micro := r.micro + 1, stalled := false } })

/-! ### `LMMA3` -/

/-- The shape record that `LMMA3` writes (R371, R437). -/
def legacyShape : List W64 := [BitVec.ofNat 64 (1 + 1 * 2 ^ 3), BitVec.ofNat 64 (16 + 1 * 2 ^ 16), BitVec.ofNat 64 (1 + 16 * 2 ^ 16)]

/-- The tile of an 8-bit tile field. -/
def tileField (b : BitVec 8) : Option TileNo := if h : 224 ≤ b.toNat then some ⟨b.toNat - 224, by omega⟩ else none

/-- An F16 or BF16 tile, or one that is absent and left to the checks of `MMA`. -/
def legacyTile (s : State) (g : Group) (h : TileNo) : Bool := match s.tile g.team h with
  | some x => decide ((tileTy x.desc).kind = .flt .f16) || decide ((tileTy x.desc).kind = .flt .bf16)
  | none => true

/-- `LMMA3`: the shape record, the `MMA`, a no-operation without an active lane (R367), the batch, and the wait (R437). -/
def execLmma3 (d a b : BitVec 8) (s : State) : Host.Outcome State Fault Refusal :=
  issue (.lmma3 d a b) s {} fun c =>
    match (if h : d.toNat < 16 then some (⟨d.toNat, h⟩ : Fin 16) else none), tileField a, tileField b with
    | some acc, some hA, some hB =>
      if c.run.micro = 0 then
        c.microDone (s.setGroup c.gid { c.g with shape := legacyShape, unsettled := c.remember (.shape c.g.shape) })
      else if c.run.micro = 1 then
        if c.lanes = 0 then c.microDone s
        else if !legacyTile s c.g hA || !legacyTile s c.g hB then c.badMode
        else match c.mmaIssue s (encodeWord (.mma acc hA hB false false false false 0 false)) with
          | .done s => c.microDone s
          | r => r
      else if c.run.micro = 2 then
        if 62 ≤ c.g.mx.length then .stay s true else c.microDone (s.setGroup c.gid (closeBatch c.g))
      else if c.g.mx.isEmpty then .done s else .stay s false
    | _, _, _ => c.illegal 2

/-! ### `LLDS` and `LSTS` -/

/-- The byte address of a lane: the raw 32 bits of its register. -/
def Gang.legacyAddr (c : Gang) (a : Src) (l : Nat) : Nat := (c.low32 a l).toNat

/-- The checks of micro-step 0 (R437): alignment, then the tile's data bytes. -/
def legacyCheck (c : Gang) (x : Option Tile) (a : Src) : Except TrapInfo Tile :=
  let bad := c.lanes &&& maskOf 32 fun l => decide (c.legacyAddr a l % 4 ≠ 0)
  let lowest (m : BitVec 32) : Nat := ((setBitsOf m).map (c.legacyAddr a)).foldl min (c.legacyAddr a ((lowestBit m).getD 0))
  if bad ≠ 0 then .error (trapOf 0x04 [1, BitVec.ofNat 64 bad.toNat, BitVec.ofNat 64 (lowest bad)])
  else match x with
  | none => .error (trapTile 0 c.lanes 0)
  | some x =>
    let out := c.lanes &&& maskOf 32 fun l => decide (tileBytes x.desc ≤ c.legacyAddr a l)
    if out ≠ 0 then .error (trapTile 1 out (lowest out / 4)) else .ok x

/-- The bound of a word of a tile: its sideband's, or the declared one (R257). -/
def Tile.rawBound (x : Tile) (k : Nat) : B16 :=
  let dw := max 1 (tileDw x.desc)
  if tileBounded x.desc then x.wordBound (k / dw) (k % dw) else BitVec.ofNat 16 (bits x.desc 63 48)

/-- Write whole words of a tile in one step, each sector merging once (R129, R130). -/
def Tile.writeWords (x : Tile) (ws : KMap (W32 × B16)) : Tile :=
  let y := ws.foldl (fun y (k, v, _) => y.setWord k v.toNat) x
  let y := { y with poison := y.poison.filter fun k => (KMap.get? ws k).isNone }
  if !tileBounded x.desc then y
  else
    let dw := max 1 (tileDw x.desc)
    let key (k : Nat) : Nat := k / dw * tileSecs x.desc + k % dw / 12
    ((ws.map fun (k, _) => (key k, k % dw / 12)).dedup).foldl (fun y (i, c) =>
      let m := (ws.filter fun (k, _) => decide (key k = i)).foldl (fun (m : KMap B16) (k, _, b) => KMap.set m (k % dw % 12) b) []
      { y with side := setSide y.side i (sideMerge (min 12 (dw - 12 * c)) (y.sideband i) m) }) y

/-- `LLDS` (R437). -/
def execLlds (d a b : BitVec 8) (s : State) : Host.Outcome State Fault Refusal :=
  let rs := (match getDst d with
    | .ok x => dstRegs x
    | .error _ => []) ++ (match getSrc a with
    | .ok x => srcRegs x
    | .error _ => [])
  issue (.llds d a b) s { ranges := rs.map fun r => (r, 1) } fun c =>
    match getDst d, getSrc a, tileField b with
    | .ok d, .ok a, some h =>
      (match legacyCheck c (s.tile c.g.team h) a with
      | .error t => .trap t
      | .ok x =>
        if c.run.micro = 0 then c.microDone s
        else
          let s := settleTile s c.gid h
          let x := (s.tile c.g.team h).getD x
          let k (l : Nat) : Nat := c.legacyAddr a l / 4
          if (setBitsOf c.lanes).any fun l => x.poison.contains (k l) then .gone (killPoison s c.gid)
          else
            let o : Opnd := { val := Vector.ofFn fun l : Fin 32 => BitVec.ofNat 64 (x.word (k l.val)), bnd := Vector.ofFn fun l : Fin 32 => scoreB c.k.score (x.rawBound (k l.val)) }
            let ws := dstWrites false d o c.lanes
            .done (s.modGroup c.gid fun g => (overtakeAll g c.view.serial c.run.id ws).landAll c.k.score c.run.id ws))
    | _, _, _ => c.illegal 2

/-- `LSTS` (R437): performed as `TST`, its st step with it. -/
def execLsts (d a b : BitVec 8) (s : State) : Host.Outcome State Fault Refusal :=
  let rs := (match getSrc d with
    | .ok x => srcRegs x
    | .error _ => []) ++ (match getSrc a with
    | .ok x => srcRegs x
    | .error _ => [])
  issue (.lsts d a b) s { ranges := rs.map fun r => (r, 1) } fun c =>
    match getSrc d, getSrc a, tileField b with
    | .ok data, .ok a, some h =>
      (match legacyCheck c (s.tile c.g.team h) a with
      | .error t => .trap t
      | .ok x =>
        if c.run.micro = 0 then c.microDone s
        else if counterFull c.g false || c.writeStalls then .stay s true
        else
          let k (l : Nat) : Nat := c.legacyAddr a l / 4
          let v := c.opndRaw false data
          let s := settleTile s c.gid h
          let dw := max 1 (tileDw x.desc)
          let s := drainTileTargets s c.gid h ((setBitsOf c.lanes).flatMap fun l => (wordElems x.desc (k l % dw)).map fun q => k l / dw * tileCols x.desc + q)
          let x := (s.tile c.g.team h).getD x
          let ws := (setBitsOf c.lanes).foldl (fun (m : KMap (W32 × B16)) l => KMap.set m (k l) (BitVec.ofNat 32 (v.at l), scoreB c.k.score (v.bndAt l))) []
          .done ((s.setTile c.g.team h (x.writeWords ws)).modGroup c.gid fun g => raiseStep g false (newStep g.stepSeq true [] 0)))
    | _, _, _ => c.illegal 2

/-! ### `LBAR` -/

/-- `LBAR` (R437): it arrives as `BARA`, and waits as `BARW`. -/
def execLbar (d a b : BitVec 8) (s : State) : Host.Outcome State Fault Refusal :=
  issue (.lbar d a b) s {} fun c =>
    if d ≠ 0 ∨ a ≠ 0 ∨ bits b 3 0 ≠ 0 then c.illegal 1
    else if c.run.micro = 0 then c.arrive s false none (bits b 7 4) none
    else if c.run.micro = 1 then c.barWait s false (bits b 7 4) 7
    else .done s

end Sys2Proof.Machine
end

