-- ==== Sys2Proof/Machine/Links.lean ====
section
/-! DEFINITION. Falan links: their states, what peers do to this device's memory, markers, and releases without a path (R337–R339, R462);
and back-invalidation by the pools (R337, R454). -/

namespace Sys2Proof.Machine

/-! ### Link states (R339, R462) -/

/-- A link that trains. -/
def Link.trains (l : Link) : Bool := decide (l.state = .training) || decide (l.state = .retraining)

/-- The device is powered. -/
def powered (s : State) : Bool := decide (s.dev.power = .d0) || decide (s.dev.power = .d3hot)

/-- Ten milliseconds, and a hundred, in clocks. -/
def linkPatience : Nat := 18000000
def pathPatience : Nat := 180000000

/-- `LINK_TRAINING_START`: a down link starts to train. -/
def execLinkTrainingStart (port : Fin 16) (s : State) : Host.Outcome State Fault Refusal :=
  .next (tick (
    let l := s.link port
    if powered s && decide (l.state = .down) then s.setLink port { l with state := .training, since := s.clock } else s))

/-- The unacknowledged writes to a destination whose link has gone down, and those without a path, travel on a path of its spray set, and so do
the markers of its rounds (R339); while it has none, they wait. -/
def reroute (s : State) (dest : Nat) : State :=
  let up := upTo s dest
  match up[Config.pathChoice s.serial deviceCores % max 1 up.length]? with
  | none => s
  | some new =>
    let lost (p : Nat) : Bool := (List.finRange 16).any fun q => decide (q.val = p) && (decide ((s.link q).state = .down) || decide ((s.link q).state = .training))
    let at_ (p : Nat) : Nat := if lost p then new else p
    { s with dev := { s.dev with
        peerOut := s.dev.peerOut.map fun w => if w.dest = dest then { w with path := some (match w.path with
          | some p => at_ p
          | none => new) } else w
        marks := s.dev.marks.map fun m => if m.dest = dest then { m with paths := (if m.paths.isEmpty then [new] else m.paths.map at_).dedup } else m } }

/-- `LINK_TRAINED` within 10 ms: the link joins the spray set; one that retrained comes back to the same peer, its flits replayed first. -/
def execLinkTrained (port : Fin 16) (peer : BitVec 8) (s : State) : Host.Outcome State Fault Refusal :=
  .next (tick (
    let l := s.link port
    if powered s && l.trains && decide (s.clock < l.since + linkPatience) then
      let p := if l.state = .training then peer else l.peer
      reroute (s.setLink port { l with state := .up, since := s.clock, peer := p }) p.toNat
    else s))

/-- `LINK_RETRAIN`: the link leaves the spray set, and the retrain is counted (R339, R447). -/
def execLinkRetrain (port : Fin 16) (s : State) : Host.Outcome State Fault Refusal :=
  .next (tick (
    let l := s.link port
    if powered s && l.isUp then
      let s := s.setLink port { l with state := .retraining, since := s.clock, lostAt := s.clock, retrains := l.retrains + 1 }
      { s with dev := { s.dev with fabricRetrains := s.dev.fabricRetrains + 1 } }
    else s))

/-- An error record of the whole device, in the ring of each configured partition. -/
def deviceRecord (s : State) (r : ErrRec) : State :=
  (List.range (max 1 s.dev.partCount)).foldl (fun s i => (errorRecord s i r).1) s

/-- `LINK_DOWN` (R339, R462): a link that did not train within 10 ms. -/
def execLinkDown (port : Fin 16) (s : State) : Host.Outcome State Fault Refusal :=
  .next (tick (
    let l := s.link port
    if l.trains && decide (l.since + linkPatience ≤ s.clock) then
      let t := s.setLink port { l with state := .down, since := s.clock }
      if l.state = .retraining then deviceRecord (reroute t l.peer.toNat) { kind := 0x0B, d0 := port.val } else t
    else s))

/-- No path to a destination has remained for 100 ms (R339). -/
def noPath (s : State) (dest : Nat) : Bool :=
  (upTo s dest).isEmpty && decide (pathPatience ≤ s.clock) &&
    (List.finRange 16).all fun p => decide ((s.link p).peer.toNat ≠ dest) || decide ((s.link p).lostAt + pathPatience ≤ s.clock)

/-- The destinations whose acknowledgement a group's releases wait for: fences and barriers, and those of its engine commands. -/
def releaseDests (s : State) (g : Group) : List Nat :=
  let rounds := (match g.release with
    | some r => (match r.next with
      | .pbar _ => []
      | .fence _ | .arrive _ _ _ _ | .groupEnd => r.markers)
    | none => []) ++ g.copies.flatMap (fun c => c.marks.getD []) ++ g.mx.flatMap fun b => b.marks.getD []
  (s.dev.marks.filter fun m => rounds.contains m.id).map (·.dest)

/-- `NO_PATH_KILL` (R339). -/
def execNoPathKill (gid : Nat) (s : State) : Host.Outcome State Fault Refusal :=
  .next (tick (match s.group? gid with
    | some g => if (releaseDests s g).any (noPath s) then killGroup s gid fun g => groupRec s g 0x0C 0x20 g.pcNow else s
    | none => s))

/-! ### Arrivals from peers (R320, R337, R338) -/

/-- Memory of this device that a peer reaches: HBM and the pools. -/
def peerReaches (s : State) (pa n : Nat) : Bool :=
  let here (a : Nat) : Bool := (poolWindow s a).isSome || inHbm s a
  here pa && here (pa + (n - 1))

/-- `FALAN_WRITE_ARRIVAL`: a peer's write performs at its home slice. -/
def execFalanWriteArrival (port : Fin 16) (pa : Nat) (data : List (BitVec 8)) (s : State) : Host.Outcome State Fault Refusal :=
  .next (tick (
    let l := s.link port
    if powered s && l.isUp then
      let s := s.setLink port { l with carried := true }
      if peerReaches s pa data.length then homeBytes s pa data else s
    else s))

/-- What a peer's atomic writes. -/
def peerNew (old : Nat) : PeerRead → Option Nat
  | .read _ => none
  | .add v => some ((old + v.toNat) % 2 ^ 64)
  | .exchange v => some v.toNat
  | .compareSwap c n => if old = c.toNat then some n.toNat else none

/-- `FALAN_READ_ARRIVAL`: a peer's read, or its atomic on an 8-byte word, performs at its home slice. -/
def execFalanReadArrival (port : Fin 16) (pa : Nat) (req : PeerRead) (s : State) : Host.Outcome State Fault Refusal :=
  .next (tick (
    if !(powered s && (s.link port).isUp) then s
    else match req with
    | .read n => if peerReaches s pa n then
        let s := homeTouch s pa n false
        reply s (.peerRead port.val (Memory.bytes s.mem pa n) (bytesPoisoned s pa n)) else s
    | .add _ | .exchange _ | .compareSwap _ _ =>
      if pa % 8 ≠ 0 || !peerReaches s pa 8 then s
      else
        let s := homeTouch s pa 8 true
        let old := Memory.readN s.mem pa 8
        let s := reply s (.peerAtomic port.val (BitVec.ofNat 64 old) (bytesPoisoned s pa 8))
        (match peerNew old req with
        | some v => { s with mem := Memory.writeN s.mem pa 8 v }
        | none => s)))

/-- The ports over which a peer's writes may have come: those in the spray set, and those that carried a write (R338). -/
def markerPaths (s : State) (peer : BitVec 8) : List (Fin 16) :=
  (List.finRange 16).filter fun p => decide ((s.link p).peer = peer) && ((s.link p).isUp || (s.link p).carried)

/-- `FLUSH_MARKER` (R338): with the marker of each path gathered, the device acknowledges. -/
def execFlushMarker (port : Fin 16) (s : State) : Host.Outcome State Fault Refusal :=
  .next (tick (
    let l := s.link port
    if !(powered s && l.isUp) then s
    else
      let s := s.setLink port { l with markerSeen := true }
      let paths := markerPaths s l.peer
      if paths.all fun p => (s.link p).markerSeen then
        reply (paths.foldl (fun s p => s.setLink p { s.link p with markerSeen := false, carried := false }) s) (.markers l.peer.toNat)
      else s))

/-! ### The pools (R337, R454) -/

/-- `BACK_INVALIDATION` (R337): a pool port gives up a line: what the device has of it goes to the pool, the accepted writes first. -/
def execBackInvalidation (port : Fin 3) (line : Nat) (s : State) : Host.Outcome State Fault Refusal :=
  .next (tick (match poolWindow s (lineBase line) with
    | some (p, _) =>
      if p ≠ port.val then s
      else
        let secs := sectorsOfLine line
        let due := s.pbuf.filter fun w => secs.contains w.sector
        let s := due.foldl drainWrite { s with pbuf := s.pbuf.filter fun w => !secs.contains w.sector }
        let s := poolSync s (secs.filter fun x => !durPending s x)
        { s with
          hub := KMap.erase s.hub line
          dev := { s.dev with
            poolOwned := s.dev.poolOwned.filter fun x => decide (x ≠ (port.val, line))
            poolForeign := line :: s.dev.poolForeign.filter fun x => decide (x ≠ line) } }
    | none => s))

end Sys2Proof.Machine
end

