-- ==== Sys2Proof/Machine/Power.lean ====
section
/-! DEFINITION. Loss of power and the durable tier, resets of the device, boot, power states and throttling, the management port,
clock gates, storage errors, and the upkeep of the L1 and of hotness samples (R281, R325, R344–R346, R441, R454–R458, R464–R466). -/

namespace Sys2Proof.Machine

/-! ### Loss of power (R344–R346) -/

/-- The pool port behind which a sector lies. -/
def portOf (s : State) (sec : Nat) : Option Nat := (poolWindow s (sectorBase sec)).map (·.1)

/-- A pool port is among those that fail. -/
def fails (mask : BitVec 3) (port : Option Nat) : Bool := match port with
  | some p => bit mask p
  | none => false

/-- The entries that the drain writes to the pools: all, but behind a port that fails only some. -/
def drainedEntries (s : State) (mask : BitVec 3) : List DurWrite := s.pbuf.filter fun w => !fails mask (portOf s w.sector) || Config.drainSurvives w.seq

/-- The hold-up bank drains the persist buffer, and the drain record is made. -/
def drainAtLoss (s : State) (mask : BitVec 3) : State :=
  let l := drainedEntries s mask
  let t := l.foldl drainWrite s
  { t with
    pbuf := []
    dev := { t.dev with
      drainCount := BitVec.ofNat 32 l.length, drainFail := mask, drainClean := decide (l.length = s.pbuf.length)
      drainIncomplete := s.pbuf.any fun w => fails mask (portOf s w.sector) } }

/-- The dirty pool sectors that the hub cache had written back by then. -/
def evictedAtLoss (s : State) : State :=
  poolSync s ((windowSectors s none).filter fun sec => !durPending s sec && Config.hubEvicted s.serial sec)

/-- The pool device behind a physical address keeps its content without power, whatever the windows say of it (R344). -/
def persistentAt (s : State) (pa : Nat) : Bool :=
  match s.dev.poolWin.toList.find? fun (w0, w1) => bit w1 6 && decide (bits w0 51 30 ≤ pa / 2 ^ 30) && decide (pa / 2 ^ 30 < bits w0 51 30 + bits w0 63 52) with
  | some (_, w1) => Config.poolPersistent (bits w1 1 0)
  | none => true

/-- Volatile pool devices hold anything after the loss (R344). -/
def volatileLoss (s : State) : State :=
  { s with pool := (s.pool.filter fun (a, _) => !persistentAt s a).foldl (fun m (a, _) => Memory.write m a (Config.volatileByte a)) s.pool }

/-- Host memory as it stands, laid over what the pools hold: HBM and every cache are lost. -/
def keptMemory (s : State) : Memory :=
  (s.mem.filter fun (a, _) => (poolWindow s a).isNone && decide (8 ≤ Config.stackOf (a / 4096))).foldl (fun m (a, b) => Memory.write m a b) (overlay s.pbuf s.pool)

/-- The device registers after a reset of the whole device: what outlives it, and reset values (R451, R457). -/
def resetRegs (d : Device) (power : PowerState) : Device :=
  { Device.reset with
    secFuse := d.secFuse, power := power, stagedFw := d.stagedFw, activeFw := d.activeFw, drainClean := d.drainClean, drainIncomplete := d.drainIncomplete
    drainCount := d.drainCount, drainFail := d.drainFail, gpfDone := d.gpfDone, replies := d.replies }

/-- Everything but the pools, host memory, the persist buffer's accepted writes and the fuses takes its reset value. -/
def wipe (s : State) (power : PowerState) : State :=
  { State.reset with
    clock := s.clock, serial := s.serial, agenda := s.agenda, nextId := s.nextId, mem := keptMemory s, side := overlaySide s.pbuf s.poolSide
    poison := s.poison.filter fun sec => (poolWindow s (sectorBase sec)).isSome, pool := s.pool, poolSide := s.poolSide, pbuf := s.pbuf
    parts := Vector.replicate 8 { Partition.reset with clockBase := s.clock }, dev := resetRegs s.dev power }

/-- `POWER_LOSS` (R344): acceptance stops, the buffer drains, and the rest is lost. -/
def execPowerLoss (s : State) : Host.Outcome State Fault Refusal :=
  .next (tick (
    if powered s then
      let s := volatileLoss (evictedAtLoss (drainAtLoss s (Config.portFails s.serial)))
      wipe { s with durWait := [], dev := { s.dev with gpfDone := false } } .lost
    else s))

/-- `GLOBAL_PERSISTENT_FLUSH` (R344, R346): after the drain; a port whose flush does not complete is named. -/
def execGlobalPersistentFlush (s : State) : Host.Outcome State Fault Refusal :=
  .next (tick (
    if s.dev.power = .lost && !s.dev.gpfDone then
      let mask := Config.portFails s.serial
      { s with dev := { s.dev with gpfDone := true, drainFail := s.dev.drainFail ||| mask, drainIncomplete := s.dev.drainIncomplete || decide (mask ≠ 0) } }
    else s))

/-! ### Resets and boot (R457, R458) -/

/-- `POWER_ON_RESET`: power comes on after a loss or after D3cold. -/
def execPowerOnReset (s : State) : Host.Outcome State Fault Refusal :=
  .next (tick (if powered s then s else wipe s .d0))

/-- A reset of the whole device: accepted writes still drain, and writes not accepted are lost. -/
def resetDevice (s : State) : State := if powered s then wipe { evictedAtLoss s with durWait := [] } .d0 else s

/-- `DEVICE_RESET`. -/
def execDeviceReset (s : State) : Host.Outcome State Fault Refusal := .next (tick (resetDevice s))

/-- `BOOT` (R458): a verified boot takes up the staged firmware and the drain record; a failed one sets recovery mode. -/
def execBoot (verified : Bool) (s : State) : Host.Outcome State Fault Refusal :=
  .next (tick (
    let d := s.dev
    if d.power ≠ .d0 || d.bootDone || d.recovery then s
    else if verified then
      { s with
        parts := s.parts.map fun p => { p with regs := drainRegs d p.regs }
        dev := { d with bootDone := true, activeFw := (match d.stagedFw with
          | some f => some f
          | none => d.activeFw), stagedFw := none } }
    else { s with dev := { d with recovery := true } }))

/-! ### Power states (R464) -/

/-- `D3HOT`: every context is pre-empted, the L1s are written back, and the HBM enters self-refresh. -/
def execD3hot (s : State) : Host.Outcome State Fault Refusal :=
  .next (tick (
    if s.dev.power = .d0 then
      let s := (s.ctxs.map (·.1)).foldl (fun s a => setCtxState (haltContext s a) a .preempted) s
      let s := writeBackCores s (s.cores.map (·.1))
      { s with dev := { s.dev with power := .d3hot, selfRefreshAt := (List.range 8).map fun i => (i, s.clock) } }
    else s))

/-- `D0`: the contexts resume. -/
def execD0 (s : State) : Host.Outcome State Fault Refusal :=
  .next (tick (
    if s.dev.power = .d3hot then
      let s := { s with dev := { s.dev with power := .d0, selfRefreshAt := [] } }
      ((s.ctxs.filter fun (_, c) => decide (c.state = .preempted) && !c.away).map (·.1)).foldl resumeContext s
    else s))

/-- `D3COLD`: after D3hot the persist buffer drains, and main power goes. -/
def execD3cold (s : State) : Host.Outcome State Fault Refusal :=
  .next (tick (
    if s.dev.power = .d3hot then
      let s := s.pbuf.foldl drainWrite { s with pbuf := [] }
      wipe { volatileLoss (evictedAtLoss s) with durWait := [] } .d3cold
    else s))

/-! ### Power limits and throttling (R456, R466) -/

/-- The effective power limit: the smallest of the board's, the host's and the management port's. -/
def effectiveLimit (d : Device) : Nat := min 1800 (min d.pwLimit.toNat d.mgmtLimit.toNat)

/-- The throttle level that the controller sets on a measurement: above the limit it rises, at least by one (R466, DESIGN CHOICE, log 109). -/
def levelFor (d : Device) (watts : BitVec 11) (level : BitVec 3) : BitVec 3 :=
  if effectiveLimit d < watts.toNat then BitVec.ofNat 3 (min 7 (max level.toNat (d.throttle.toNat + 1))) else level

/-- `THROTTLE_UPDATE`: the power controller's measurement over the last millisecond, and its throttle level. -/
def execThrottleUpdate (watts : BitVec 11) (level : BitVec 3) (s : State) : Host.Outcome State Fault Refusal :=
  .next (tick (if s.dev.power = .d0 then { s with dev := { s.dev with pwWatts := watts, throttle := levelFor s.dev watts level } } else s))

/-- A throttled clock: issue and the starts of passes are withheld in L of every 8 clocks. -/
def withheld (s : State) : Bool := decide (s.clock % 8 < s.dev.throttle.toNat)

/-! ### Clock gates and self-refresh (R465) -/

/-- A quarter without a seated group, and the last clock at which it had one. -/
def quarterIdle (s : State) (core q : Nat) : Bool :=
  (seatedIn s core q).isEmpty && decide ((KMap.get? (s.core core).seatedUntil q).getD 0 + clocksPerUs ≤ s.clock)

/-- `QUARTER_CLOCK_GATE`. -/
def execQuarterClockGate (quarter : Nat) (s : State) : Host.Outcome State Fault Refusal :=
  .next (tick (
    let core := quarter / 4
    let c := s.core core
    if decide (core < deviceCores) && quarterIdle s core (quarter % 4) && !c.gatedQuarters.contains (quarter % 4) then
      s.setCore core { c with gatedQuarters := quarter % 4 :: c.gatedQuarters }
    else s))

/-- A core without a seated group, copy command, matrix entry or decode. -/
def coreIdle (s : State) (core : Nat) : Bool :=
  let c := s.core core
  c.mq.isEmpty && c.decodeQ.isEmpty && s.groups.all fun (_, g) => decide (g.core ≠ core) || !g.live || (!g.seated && g.copies.isEmpty)

/-- `CORE_CLOCK_GATE`. -/
def execCoreClockGate (core : Nat) (s : State) : Host.Outcome State Fault Refusal :=
  .next (tick (
    let c := s.core core
    if s.dev.pwGate && !c.gated && decide (core < deviceCores) && coreIdle s core && c.seatedUntil.all (fun (_, t) => decide (t + 10 * clocksPerUs ≤ s.clock)) then
      s.setCore core { c with gated := true }
    else s))

/-- `HBM_SELF_REFRESH`: a stack whose partition's cores have made no access for 1 ms. -/
def execHbmSelfRefresh (stack : Fin 8) (s : State) : Host.Outcome State Fault Refusal :=
  .next (tick (
    let part := stack.val * max 1 s.dev.partCount / 8
    let idle := (coresOf s part).all fun c => decide ((s.core c).accessAt + msClocks ≤ s.clock)
    let asleep := match KMap.get? s.dev.selfRefreshAt stack.val with
      | some t => (coresOf s part).all fun c => decide ((s.core c).accessAt ≤ t)
      | none => false
    if idle && !asleep then
      { s with dev := { s.dev with selfRefreshAt := KMap.set s.dev.selfRefreshAt stack.val s.clock } }
    else s))

/-! ### The management port (R455, R456) -/

/-- `PLDM_MONITORING`: the temperatures of eight compute dies, eight stacks and the hub, the power, and the counts of error kinds. -/
def execPldmMonitoring (s : State) : Host.Outcome State Fault Refusal :=
  .next (tick (if powered s then
    reply s (.monitoring (((List.range 17).map fun i => Config.temperature s.serial i) ++ Config.railPower s.serial) s.dev.errCounts) else s))

/-- `PLDM_FIRMWARE_UPDATE`: an image that verifies is staged for the next device reset. -/
def execPldmFirmwareUpdate (digest : BitVec 384) (verified : Bool) (s : State) : Host.Outcome State Fault Refusal :=
  .next (tick (if powered s && verified then { s with dev := { s.dev with stagedFw := some digest } } else s))

/-- `SPDM_ATTESTATION`: the code fuse counter and the other measurements, signed. -/
def execSpdmAttestation (s : State) : Host.Outcome State Fault Refusal :=
  .next (tick (if powered s then reply s (.attestation (BitVec.ofNat 64 s.dev.secFuse :: Config.measurements s.serial)) else s))

/-- `MANAGEMENT_POWER_LIMIT`. -/
def execManagementPowerLimit (watts : BitVec 11) (s : State) : Host.Outcome State Fault Refusal :=
  .next (tick (if powered s then { s with dev := { s.dev with mgmtLimit := watts } } else s))

/-- `MANAGEMENT_RESET_REQUEST`: signalled on the host port, and due 100 ms later. -/
def execManagementResetRequest (s : State) : Host.Outcome State Fault Refusal :=
  .next (tick (if powered s && s.dev.resetAt.isNone then { s with dev := { s.dev with errSignal := true, resetAt := some (s.clock + 100 * msClocks) } } else s))

/-- `MANAGEMENT_RESET`. -/
def execManagementReset (s : State) : Host.Outcome State Fault Refusal :=
  .next (tick (match s.dev.resetAt with
    | some t => if t ≤ s.clock then resetDevice s else s
    | none => s))

/-! ### Storage errors (R441, R445) -/

/-- `CORRECTED_ERROR`: counted, and recorded at most once per millisecond and storage unit, with the errors since the last record. -/
def execCorrectedError (unit : Nat) (pa : BitVec 52) (core : Option Nat) (s : State) : Host.Outcome State Fault Refusal :=
  .next (tick (
    let part := match core with
      | some c => partOfCore s c
      | none => partOfPa s pa.toNat
    let s := pmcPart s part 64 20 1
    let n := (KMap.get? s.dev.correctedCount unit).getD 0 + 1
    let due := match KMap.get? s.dev.lastCorrected unit with
      | some t => decide (t + msClocks ≤ s.clock)
      | none => true
    if due then
      let s := (errorRecord s part { kind := 0x01, core := core.getD 0xFF, va := pa.toNat, isPa := true, count := n }).1
      { s with dev := { s.dev with lastCorrected := KMap.set s.dev.lastCorrected unit s.clock, correctedCount := KMap.erase s.dev.correctedCount unit } }
    else { s with dev := { s.dev with correctedCount := KMap.set s.dev.correctedCount unit n } }))

/-- Poison one granule: the partition and the fields of its error record, where the granule exists. -/
def poisonSite (s : State) : ErrSite → Option (State × Nat × ErrRec)
  | .sector pa =>
    let sec := sectorOf pa
    some ({ s with poison := if s.poison.contains sec then s.poison else sec :: s.poison }, partOfPa s pa, { kind := 0x04, va := pa, isPa := true })
  | .tileWord team h word => (s.tile team h).map fun x =>
    (s.setTile team h { x with poison := if x.poison.contains word then x.poison else word :: x.poison }, (s.kernel (s.team team).kernel).part,
      { kind := 0x04, core := (s.team team).core, asid := (s.kernel (s.team team).kernel).asid })
  | .blockLine gid v => (s.group? gid).map fun g =>
    (s.setGroup gid { g with poison := ((List.range 24).map fun w => 64 * regSlot v + w) ++ g.poison.filter fun x => decide (x / 64 ≠ regSlot v) },
      (s.kernel g.kernel).part, groupRec s g 0x04 0 0)
  | .accRow core acc row =>
    if core < deviceCores ∧ row < 128 then
      let c := s.core core
      some (s.setCore core { c with accPoison := (acc.val * 128 + row) :: c.accPoison.filter fun x => decide (x ≠ acc.val * 128 + row) }, partOfCore s core,
        { kind := 0x04, core := core })
    else none

/-- `UNCORRECTABLE_ERROR`. -/
def execUncorrectableError (site : ErrSite) (s : State) : Host.Outcome State Fault Refusal :=
  .next (tick (match poisonSite s site with
    | some (t, part, r) => (errorRecord t part r).1
    | none => s))

/-! ### L1 evictions and hotness samples (R281, R325) -/

/-- `L1_EVICTION`: the line's dirty bytes are written back, and its copies discarded; revoked dirty sectors stay (R277). -/
def execL1Eviction (core line : Nat) (s : State) : Host.Outcome State Fault Refusal :=
  .next (tick (((s.core core).l1.filter fun e => decide (lineOfSector e.sector = line)).foldl (fun s e => l1Flush s core e.sector) s))

/-- The words of a sample (R281). -/
def Sample.words (x : Sample) (core : Nat) : List W64 :=
  [BitVec.ofNat 64 (x.va % 2 ^ 60), BitVec.ofNat 64 (x.clock % 2 ^ 48 + x.asid * 2 ^ 48 + core * 2 ^ 56),
   BitVec.ofNat 64 (x.kind + x.type * 8 + (if x.bc then 64 else 0) + x.size * 128), 0]

/-- `HOTNESS_SAMPLE`: the oldest sample of a core goes to its partition's ring, or is dropped where the ring is full. -/
def execHotnessSample (core : Nat) (s : State) : Host.Outcome State Fault Refusal :=
  .next (tick (
    let c := s.core core
    match c.samples with
    | [] => s
    | x :: rest =>
      let part := partOfCore s core
      let s := s.setCore core { c with samples := rest }
      let r := (s.part part).regs
      let n := r.hsProd.toNat
      if 2 ^ r.hsSize.toNat ≤ (r.hsProd - r.hsCons).toNat then s.modRegs part fun r => { r with hsDrop := r.hsDrop + 1 }
      else
        let s := physWords s (bits r.hsBase 51 5 * 32 + 32 * (n % 2 ^ r.hsSize.toNat)) (x.words core)
        s.modRegs part fun r => { r with hsProd := r.hsProd + 1 }))

end Sys2Proof.Machine
end

