-- ==== Sys2Proof/Machine/Special.lean ====
section
/-! DEFINITION. The special functions and their bounds (R174, R175): exact results where they are rational and
representable, otherwise enclosures that decide which results lie within e_f ulps. -/

namespace Sys2Proof.Machine

/-! ### Enclosures by exact rational arithmetic -/

/-- A real known to lie between two rationals. -/
structure Encl where
  lo : Rat
  hi : Rat

/-- 2^400 · π lies between this and this + 2. -/
def piNat : Nat :=
  8112377246730971238862271351300894519161151600179265203591191037615230905373990498745523360926816815427566779727327576235
/-- 2^400 · ln 2 lies between this and this + 2. -/
def ln2Nat : Nat :=
  1789879222497203190815761498240779176894896805856420935579692301363062920687047601279850318367644315849030039181347319085

def piEncl : Encl := { lo := (piNat : Rat) * pow2 (-400), hi := ((piNat + 2 : Nat) : Rat) * pow2 (-400) }
def ln2Encl : Encl := { lo := (ln2Nat : Rat) * pow2 (-400), hi := ((ln2Nat + 2 : Nat) : Rat) * pow2 (-400) }

/-- The integer square root, bit by bit from bit b down. -/
def isqrtFrom (n : Nat) : Nat → Nat → Nat
  | 0, acc => if (acc + 1) * (acc + 1) ≤ n then acc + 1 else acc
  | b + 1, acc => isqrtFrom n b (if (acc + 2 ^ (b + 1)) * (acc + 2 ^ (b + 1)) ≤ n then acc + 2 ^ (b + 1) else acc)

/-- floor(√n). -/
def isqrt (n : Nat) : Nat := isqrtFrom n (Nat.log2 n / 2 + 1) 0

/-- √q for q ≥ 0; both ends are the root where it is rational. -/
def sqrtEncl (q : Rat) : Encl :=
  let p := q.num.toNat * q.den
  let r := isqrt p
  if r * r = p then { lo := mkRat r q.den, hi := mkRat r q.den }
  else
    let r := isqrt (p * 2 ^ 400)
    { lo := (r : Rat) * pow2 (-200) / (q.den : Rat), hi := ((r + 1 : Nat) : Rat) * pow2 (-200) / (q.den : Rat) }

/-- The partial sum of e^r to r^n/n!, by Horner from the last term. -/
def expPoly (r : Rat) : Nat → Nat → Rat
  | 0, _ => 1
  | n + 1, k => 1 + r / (k : Rat) * expPoly r n (k + 1)

/-- e^y: y = n·ln 2 + r with |r| ≤ 1/2; y is at most some thousands. -/
def expEncl (y : Rat) : Encl :=
  let n : Int := (y / ln2Encl.lo + mkRat 1 2).floor
  let a := y - n * ln2Encl.hi
  let b := y - n * ln2Encl.lo
  let g := pow2 (-260)
  let rlo : Rat := ((min a b) / g).floor * g
  let rhi : Rat := ((max a b) / g).ceil * g
  let ε := pow2 (-200)
  { lo := (expPoly rlo 48 1 - ε) * pow2 n, hi := (expPoly rhi 48 1 + ε) * pow2 n }

/-- The partial sum of (e^t − 1)/t. -/
def expm1Poly (t : Rat) : Nat → Nat → Rat
  | 0, _ => 1
  | n + 1, k => 1 + t / (k : Rat) * expm1Poly t n (k + 1)

/-- The partial sum of sin(t)/t by Horner; k is the next odd power. -/
def sinPoly (t2 : Rat) : Nat → Nat → Rat
  | 0, _ => 1
  | n + 1, k => 1 - t2 / ((k * (k - 1) : Nat) : Rat) * sinPoly t2 n (k + 2)

/-- sin(πr) for 0 ≤ r ≤ 1/2. -/
def sinEncl (r : Rat) : Encl :=
  let at_ (t : Rat) : Rat := t * sinPoly (t * t) 34 3
  let tl := piEncl.lo * r
  let th := piEncl.hi * r
  { lo := at_ tl - th * pow2 (-200), hi := at_ th + th * pow2 (-200) }

/-- The partial sum of atanh(z)/z. -/
def atanhPoly (z2 : Rat) : Nat → Nat → Rat
  | 0, k => 1 / (k : Rat)
  | n + 1, k => 1 / (k : Rat) + z2 * atanhPoly z2 n (k + 2)

/-- ln m for m near 1, as a signed enclosure. -/
def lnEncl (m : Rat) : Encl :=
  let z := (m - 1) / (m + 1)
  let v := 2 * z * atanhPoly (z * z) 50 1
  let ε := ratAbs z * pow2 (-200)
  { lo := v - ε, hi := v + ε }

/-- q / c for an enclosure q of any sign and a positive one c. -/
def Encl.div (q c : Encl) : Encl :=
  { lo := if q.lo < 0 then q.lo / c.lo else q.lo / c.hi, hi := if q.hi < 0 then q.hi / c.hi else q.hi / c.lo }

/-- log₂ x for x > 0. -/
def log2Encl (x : Rat) : Encl :=
  let e := floorLog2 x
  let m := x / pow2 e
  let (e, m) := if mkRat 3 2 < m then (e + 1, m / 2) else (e, m)
  let q := (lnEncl m).div ln2Encl
  { lo := q.lo + e, hi := q.hi + e }

/-- tanh x for x > 0. -/
def tanhEncl (x : Rat) : Encl :=
  if 64 ≤ x then { lo := 1 - pow2 (-180), hi := 1 }
  else if mkRat 1 2 < x then
    let u := expEncl (-2 * x)
    { lo := (1 - u.hi) / (1 + u.hi), hi := (1 - u.lo) / (1 + u.lo) }
  else
    let t := 2 * x
    let p := t * expm1Poly t 60 2
    let lo := p * (1 - pow2 (-200))
    let hi := p * (1 + pow2 (-200))
    { lo := lo / (lo + 2), hi := hi / (hi + 2) }

/-- e^(−t) for t ≥ 0, of any size. -/
def expNegEncl (t : Rat) : Encl := if 3000 ≤ t then { lo := 0, hi := pow2 (-4000) } else expEncl (-t)

/-- 1/(1 + e^(−x)). -/
def sigmEncl (x : Rat) : Encl :=
  if 0 ≤ x then
    let u := expNegEncl x
    { lo := 1 / (1 + u.hi), hi := 1 / (1 + u.lo) }
  else
    let u := expNegEncl (-x)
    { lo := u.lo / (1 + u.lo), hi := u.hi / (1 + u.hi) }

/-- 2^x for x between −3000 and 3000. -/
def exp2Encl (x : Rat) : Encl :=
  let n := x.floor
  let f := x - n
  { lo := (expEncl (f * ln2Encl.lo)).lo * pow2 n, hi := (expEncl (f * ln2Encl.hi)).hi * pow2 n }

/-- |sin(πx)|. -/
def sinpiEncl (x : Rat) : Encl :=
  let r := x - x.floor
  sinEncl (if mkRat 1 2 < r then 1 - r else r)

/-- |cos(πx)|. -/
def cospiEncl (x : Rat) : Encl := sinpiEncl (x + mkRat 1 2)

/-! ### Results (R174) -/

/-- The special functions. -/
inductive SfOp where
  | rcp | rsq | sqrt | exp2 | log2 | sinpi | cospi | tanh | sigm | divf
  deriving DecidableEq, Repr

/-- What a special function gives: a special value with flags, a rational result, or an irrational magnitude. -/
inductive SfVal where
  | special (v : Val) (flags : BitVec 9)
  | exact (q : Rat) (zneg : Bool)
  | encl (neg : Bool) (e : Encl)

/-- An integer. -/
def ratInt (q : Rat) : Bool := decide (q.den = 1)

/-- f(x), or x ÷ y (R174). -/
def sfVal (op : SfOp) (x y : Val) (snan : Bool) : SfVal :=
  let nan (iv : Bool) : SfVal := .special (.nan false false) (flagIf iv flInvalid)
  let inf (n : Bool) : SfVal := .special (.inf n) 0
  let pole (n : Bool) : SfVal := .special (.inf n) flDivZero
  if x.isNan || (decide (op = .divf) && y.isNan) then nan snan
  else
    let neg := x.neg
    match op with
    | .rcp => match x with
      | .inf n => .exact 0 n
      | _ => if x.isZero then pole neg else .exact (1 / x.real) neg
    | .rsq => match x with
      | .inf n => if n then nan true else .exact 0 false
      | _ => if x.isZero then pole neg else if neg then nan true
        else
          let e := sqrtEncl x.real
          if e.lo = e.hi then .exact (1 / e.lo) false else .encl false { lo := 1 / e.hi, hi := 1 / e.lo }
    | .sqrt => match x with
      | .inf n => if n then nan true else inf false
      | _ => if x.isZero then .exact 0 neg else if neg then nan true
        else
          let e := sqrtEncl x.real
          if e.lo = e.hi then .exact e.lo false else .encl false e
    | .exp2 => match x with
      | .inf n => if n then .exact 0 false else inf false
      | _ =>
        let q := max (-2000) (min 2000 x.real)
        if ratInt q then .exact (pow2 q.num) false else .encl false (exp2Encl q)
    | .log2 => match x with
      | .inf n => if n then nan true else inf false
      | _ => if x.isZero then pole true else if neg then nan true
        else
          let e := floorLog2 x.real
          if pow2 e = x.real then .exact e false
          else
            let l := log2Encl x.real
            if x.real < 1 then .encl true { lo := -l.hi, hi := -l.lo } else .encl false l
    | .sinpi => match x with
      | .inf _ => nan true
      | _ =>
        if ratInt x.real then .exact 0 neg
        else
          let n := decide (x.real.floor % 2 = 1)
          if ratInt (2 * x.real) then .exact (if n then -1 else 1) n else .encl n (sinpiEncl x.real)
    | .cospi => match x with
      | .inf _ => nan true
      | _ =>
        let n := decide ((x.real + mkRat 1 2).floor % 2 = 1)
        if ratInt x.real then .exact (if n then -1 else 1) n
        else if ratInt (2 * x.real) then .exact 0 false else .encl n (cospiEncl x.real)
    | .tanh => match x with
      | .inf n => .exact (if n then -1 else 1) n
      | _ => if x.isZero then .exact 0 neg else .encl neg (tanhEncl (ratAbs x.real))
    | .sigm => match x with
      | .inf n => .exact (if n then 0 else 1) false
      | _ => if x.isZero then .exact (mkRat 1 2) false else .encl false (sigmEncl x.real)
    | .divf =>
      let n := neg != y.neg
      match x, y with
      | .inf _, .inf _ => nan true
      | .inf _, _ => inf n
      | _, .inf _ => .exact 0 n
      | _, _ => if y.isZero then (if x.isZero then nan true else pole n) else .exact (x.real / y.real) n

/-- e_f (R174). -/
def sfErr (op : SfOp) (f : Fmt) : Nat := match op with
  | .rcp | .rsq | .sqrt => 1
  | .exp2 | .log2 | .sinpi | .cospi | .tanh | .sigm | .divf => if f = .f32 then 2 else 1

/-- The representable magnitudes within e_f ulps of a magnitude enclosed by e (R174), in ascending order. -/
def sfPermitted (f : Fmt) (ef : Nat) (e : Encl) : List Rat :=
  let c := (roundFmt f 0 true false false e.lo).val
  let code := f.encodeMag c.real
  let near := ((List.range 9).map fun i => code + i).filterMap fun k => if 4 ≤ k then some (f.decode (k - 4)) else none
  (near.filter fun v => v.isFinite && !v.neg &&
    decide (max (ratAbs (v.real - e.lo)) (ratAbs (v.real - e.hi)) ≤ ef * ulp f v.real)).map (·.real)

/-- The result chosen: a pure function of the operands (R28), free among the permitted ones (R174). -/
def sfPick (op : SfOp) (f : Fmt) (xbits ybits : Nat) (e : Encl) : Rat :=
  let l := sfPermitted f (sfErr op f) e
  l.getD (Config.sfuChoice (match op with
    | .rcp => 0x60 | .rsq => 0x61 | .sqrt => 0x62 | .exp2 => 0x63 | .log2 => 0x64 | .sinpi => 0x65 | .cospi => 0x66 | .tanh => 0x67
    | .sigm => 0x68 | .divf => 0x69) f.width xbits ybits % max 1 l.length) 0

/-- A magnitude as the unit writes it: overflow as under RNE or sat (R119), inexact, underflow, flush (R121). Answers
the value, flags, the distance of a clamp, and the flushed magnitude. -/
def sfWrite (op : SfOp) (f : Fmt) (sat ftz neg : Bool) (xb yb : Nat) (e : Encl) : Val × BitVec 9 × Rat × Rat :=
  let r := roundFmt f 0 sat false neg e.lo
  if bit r.flags 2 || bit r.flags 5 then (r.val, r.flags, ratAbs (e.hi - f.largest), 0)
  else
    let exact := decide (e.lo = e.hi) && decide (r.val.real = (if neg then -e.lo else e.lo))
    let q := if exact then e.lo else sfPick op f xb yb e
    let tiny := decide (q < pow2 f.emin)
    let fl := flagIf (!exact) flInexact ||| flagIf (!exact && tiny) flUnderflow
    if ftz && tiny && decide (q ≠ 0) then (.fin neg 0, fl ||| flUnderflow ||| flInexact, 0, q) else (.fin neg q, fl, 0, 0)

/-! ### Bounds (R175) -/

/-- An upper bound of L over [x − β, x + β]; `none` where it is unbounded (R175). -/
def sfSlope (op : SfOp) (x β : Rat) : Option Rat :=
  let lo := x - β
  let hi := x + β
  let hasZero := decide (lo ≤ 0) && decide (0 ≤ hi)
  let near := if 0 < lo then lo else -hi
  match op with
  | .rcp => if hasZero then none else some (1 / (near * near))
  | .rsq => if lo ≤ 0 then none else some (1 / (2 * lo * (sqrtEncl lo).lo))
  | .sqrt => if lo ≤ 0 then none else some (1 / (2 * (sqrtEncl lo).lo))
  | .exp2 =>
    if 2000 ≤ hi then none
    else some (ln2Encl.hi * (if hi ≤ -2000 then pow2 (-2000) else (exp2Encl hi).hi))
  | .log2 => if lo ≤ 0 then none else some (1 / (lo * ln2Encl.lo))
  | .sinpi =>
    some (if lo.ceil ≤ hi.floor then piEncl.hi else piEncl.hi * max (cospiEncl lo).hi (cospiEncl hi).hi)
  | .cospi =>
    some (if (lo - mkRat 1 2).ceil ≤ (hi - mkRat 1 2).floor then piEncl.hi else piEncl.hi * max (sinpiEncl lo).hi (sinpiEncl hi).hi)
  | .tanh =>
    if hasZero then some 1
    else
      let u := expNegEncl (2 * near)
      some (4 * u.hi / ((1 + u.lo) * (1 + u.lo)))
  | .sigm =>
    if hasZero then some (mkRat 1 4)
    else
      let u := expNegEncl near
      some (u.hi / ((1 + u.lo) * (1 + u.lo)))
  | .divf => none

/-- The bound of a special function's finite result (R175), before it is rounded up. -/
def sfBound (op : SfOp) (x y : FArg) (err : Rat) : Bnd :=
  match op with
  | .divf => (match x.β, y.β with
    | .untr, _ => .untr
    | _, .untr => .untr
    | .fin a, .fin b =>
      let m := ratAbs y.v.real
      if y.v.isFinite && decide (b < m) then .fin ((a + ratAbs (x.v.real / y.v.real) * b) / (m - b) + err) else .unb
    | _, _ => .unb)
  | _ => (match x.β with
    | .fin b => if b = 0 then .fin err else (match sfSlope op x.v.real b with
      | some l => .fin (l * b + err)
      | none => .unb)
    | β => β)

/-- One sub-element of a special function (R174, R175). -/
def sfOut (op : SfOp) (f : Fmt) (sat ftz : Bool) (ba bb : B16) (xb yb : Nat) : ElemOut :=
  let x := fArg f ftz false false false ba xb
  let y := fArg f ftz false false false bb yb
  let ef := sfErr op f
  let unbd : Bnd := match op with
    | .divf => (x.β.add y.β).add .unb
    | _ => x.β.add .unb
  let fin (v : Val) (fl : BitVec 9) (clamp flush : Rat) : ElemOut :=
    let err := if clamp = 0 then (ef : Rat) * ulp f v.real + flush else clamp
    { bits := f.bitsOf v true, bnd := (if v.isFinite then sfBound op x y err else unbd).toB16, flags := fl }
  match sfVal op x.v y.v (x.snan || (decide (op = .divf) && y.snan)) with
  | .special v fl =>
    let (w, fl2) := writeSpecial f sat v
    { bits := f.bitsOf w false, bnd := unbd.toB16, flags := fl ||| fl2 }
  | .exact q zneg =>
    let neg := if q = 0 then zneg else decide (q < 0)
    if q = 0 then fin (.fin neg 0) 0 0 0
    else
      let (v, fl, clamp, flush) := sfWrite op f sat ftz neg xb yb { lo := ratAbs q, hi := ratAbs q }
      fin v fl clamp flush
  | .encl neg e =>
    let (v, fl, clamp, flush) := sfWrite op f sat ftz neg xb yb e
    fin v fl clamp flush

/-! ### Meanings -/

/-- The types of the special-function unit (R160). -/
def sfuFloat (t : Ty) : Option Fmt := match t.kind with
  | .flt .f32 => some .f32
  | .flt .f16 => some .f16
  | .flt .bf16 => some .bf16
  | _ => none

/-- Special-function instructions in a quarter's unit that are not complete (R176). -/
def sfuBusy (s : State) (core quarter : Nat) : Nat :=
  (s.groups.map fun (_, g) => if g.core = core then (g.pend.filter fun p => p.kind = .sfu ∧ p.quarter = quarter).length else 0).foldl (· + ·) 0

/-- A special-function instruction (R174–R177): its results appear at `SFU_RESULT`. -/
def sfuOp (i : Instr) (op : SfOp) (d : Dst) (a b : Src) (s : State) : Host.Outcome State Fault Refusal :=
  issue i s { regs := dstRegs d ++ srcRegs a ++ srcRegs b } fun c =>
    match c.ty.bind fun t => (sfuFloat t).map fun f => (t, f) with
    | none => c.badMode
    | some (t, f) =>
      if 4 ≤ sfuBusy s c.core c.g.quarter then .stay s true
      else
        let x := c.opnd t a
        let y := c.opnd t b
        let out (l : Nat) : LaneOut := laneOut t c.untracked 0 fun i =>
          sfOut op f (modeSat c.mode) (modeFtz c.mode) (x.bndAt l) (y.bndAt l) (elem (x.at l) i t.w) (elem (y.at l) i t.w)
        let p := c.pending s .sfu true c.lanes out (dstWrites false d (outOpnd out) c.lanes)
        let discard := decide (d = .discard)
        c.launch s c.g p (!discard) (discard || decide (modeBnd c.mode = 2) || decide (c.g.fpEnable ≠ 0))

/-- `RCP`. -/
def execRcp (d : Dst) (a : Src) (s : State) : Host.Outcome State Fault Refusal := sfuOp (.rcp d a) .rcp d a .zero s
/-- `RSQ`. -/
def execRsq (d : Dst) (a : Src) (s : State) : Host.Outcome State Fault Refusal := sfuOp (.rsq d a) .rsq d a .zero s
/-- `SQRT`. -/
def execSqrt (d : Dst) (a : Src) (s : State) : Host.Outcome State Fault Refusal := sfuOp (.sqrt d a) .sqrt d a .zero s
/-- `EXP2`. -/
def execExp2 (d : Dst) (a : Src) (s : State) : Host.Outcome State Fault Refusal := sfuOp (.exp2 d a) .exp2 d a .zero s
/-- `LOG2`. -/
def execLog2 (d : Dst) (a : Src) (s : State) : Host.Outcome State Fault Refusal := sfuOp (.log2 d a) .log2 d a .zero s
/-- `SINPI`. -/
def execSinpi (d : Dst) (a : Src) (s : State) : Host.Outcome State Fault Refusal := sfuOp (.sinpi d a) .sinpi d a .zero s
/-- `COSPI`. -/
def execCospi (d : Dst) (a : Src) (s : State) : Host.Outcome State Fault Refusal := sfuOp (.cospi d a) .cospi d a .zero s
/-- `TANH`. -/
def execTanh (d : Dst) (a : Src) (s : State) : Host.Outcome State Fault Refusal := sfuOp (.tanh d a) .tanh d a .zero s
/-- `SIGM`. -/
def execSigm (d : Dst) (a : Src) (s : State) : Host.Outcome State Fault Refusal := sfuOp (.sigm d a) .sigm d a .zero s
/-- `FDIVF`. -/
def execFdivf (d : Dst) (a b : Src) (s : State) : Host.Outcome State Fault Refusal := sfuOp (.fdivf d a b) .divf d a b s

end Sys2Proof.Machine
end

