-- ==== Sys2Proof/Machine/Dispatch.lean ====
section
/-! DEFINITION. One arm per instruction: its meaning. -/

namespace Sys2Proof.Machine

/-- The meaning of every instruction. -/
def exec (i : Instr) (s : State) : Host.Outcome State Fault Refusal :=
  match i with
  | .nop => Sys2Proof.Machine.execNop s
  | .bra off => Sys2Proof.Machine.execBra off s
  | .brx a => Sys2Proof.Machine.execBrx a s
  | .join => Sys2Proof.Machine.execJoin s
  | .call off => Sys2Proof.Machine.execCall off s
  | .ret => Sys2Proof.Machine.execRet s
  | .regang => Sys2Proof.Machine.execRegang s
  | .loops d off => Sys2Proof.Machine.execLoops d off s
  | .exit => Sys2Proof.Machine.execExit s
  | .yield => Sys2Proof.Machine.execYield s
  | .brkp n => Sys2Proof.Machine.execBrkp n s
  | .setm m => Sys2Proof.Machine.execSetm m s
  | .setmr a => Sys2Proof.Machine.execSetmr a s
  | .ipref count off => Sys2Proof.Machine.execIpref count off s
  | .iadd d a b => Sys2Proof.Machine.execIadd d a b s
  | .isub d a b => Sys2Proof.Machine.execIsub d a b s
  | .imul d a b => Sys2Proof.Machine.execImul d a b s
  | .imulh d a b => Sys2Proof.Machine.execImulh d a b s
  | .imad d a b => Sys2Proof.Machine.execImad d a b s
  | .imin d a b => Sys2Proof.Machine.execImin d a b s
  | .imax d a b => Sys2Proof.Machine.execImax d a b s
  | .iabs d a => Sys2Proof.Machine.execIabs d a s
  | .and d a b => Sys2Proof.Machine.execAnd d a b s
  | .or d a b => Sys2Proof.Machine.execOr d a b s
  | .xor d a b => Sys2Proof.Machine.execXor d a b s
  | .andn d a b => Sys2Proof.Machine.execAndn d a b s
  | .shl d a b => Sys2Proof.Machine.execShl d a b s
  | .shr d a b => Sys2Proof.Machine.execShr d a b s
  | .sar d a b => Sys2Proof.Machine.execSar d a b s
  | .rotl d a b => Sys2Proof.Machine.execRotl d a b s
  | .bfe d a b => Sys2Proof.Machine.execBfe d a b s
  | .bfi d a b => Sys2Proof.Machine.execBfi d a b s
  | .clz d a => Sys2Proof.Machine.execClz d a s
  | .popc d a => Sys2Proof.Machine.execPopc d a s
  | .brev d a => Sys2Proof.Machine.execBrev d a s
  | .icmp p cond a b => Sys2Proof.Machine.execIcmp p cond a b s
  | .sel d a b => Sys2Proof.Machine.execSel d a b s
  | .mov d a => Sys2Proof.Machine.execMov d a s
  | .movi d imm pfx => Sys2Proof.Machine.execMovi d imm pfx s
  | .iaddi d a imm pfx => Sys2Proof.Machine.execIaddi d a imm pfx s
  | .lea64 d a b => Sys2Proof.Machine.execLea64 d a b s
  | .iadd64 d a b => Sys2Proof.Machine.execIadd64 d a b s
  | .pset p f pa pb => Sys2Proof.Machine.execPset p f pa pb s
  | .shi d a kind amount => Sys2Proof.Machine.execShi d a kind amount s
  | .sadd d a b => Sys2Proof.Machine.execSadd d a b s
  | .ssub d a b => Sys2Proof.Machine.execSsub d a b s
  | .smul d a b => Sys2Proof.Machine.execSmul d a b s
  | .sand d a b => Sys2Proof.Machine.execSand d a b s
  | .sor d a b => Sys2Proof.Machine.execSor d a b s
  | .sxor d a b => Sys2Proof.Machine.execSxor d a b s
  | .sshl d a b => Sys2Proof.Machine.execSshl d a b s
  | .sshr d a b => Sys2Proof.Machine.execSshr d a b s
  | .smovi d imm pfx => Sys2Proof.Machine.execSmovi d imm pfx s
  | .smov d a => Sys2Proof.Machine.execSmov d a s
  | .scmp p cond a b => Sys2Proof.Machine.execScmp p cond a b s
  | .srdsr d number => Sys2Proof.Machine.execSrdsr d number s
  | .swrsr a number => Sys2Proof.Machine.execSwrsr a number s
  | .vtos d a lane => Sys2Proof.Machine.execVtos d a lane s
  | .stov d a => Sys2Proof.Machine.execStov d a s
  | .sminmax d a b => Sys2Proof.Machine.execSminmax d a b s
  | .fadd d a b m => Sys2Proof.Machine.execFadd d a b m s
  | .fsub d a b m => Sys2Proof.Machine.execFsub d a b m s
  | .fmul d a b m => Sys2Proof.Machine.execFmul d a b m s
  | .fma d a b m => Sys2Proof.Machine.execFma d a b m s
  | .ffma d a b m => Sys2Proof.Machine.execFfma d a b m s
  | .fmin d a b m => Sys2Proof.Machine.execFmin d a b m s
  | .fmax d a b m => Sys2Proof.Machine.execFmax d a b m s
  | .fcmp p cond a b m => Sys2Proof.Machine.execFcmp p cond a b m s
  | .fclass d a mask => Sys2Proof.Machine.execFclass d a mask s
  | .frnd d a => Sys2Proof.Machine.execFrnd d a s
  | .fscale d a b => Sys2Proof.Machine.execFscale d a b s
  | .fdot2 d a b m => Sys2Proof.Machine.execFdot2 d a b m s
  | .fdot4 d a b m => Sys2Proof.Machine.execFdot4 d a b m s
  | .fcpys d a b => Sys2Proof.Machine.execFcpys d a b s
  | .bget d a => Sys2Proof.Machine.execBget d a s
  | .bset d a b => Sys2Proof.Machine.execBset d a b s
  | .badd d a b => Sys2Proof.Machine.execBadd d a b s
  | .bclr d a => Sys2Proof.Machine.execBclr d a s
  | .bmaxr d a => Sys2Proof.Machine.execBmaxr d a s
  | .setb src => Sys2Proof.Machine.execSetb src s
  | .bchk p a => Sys2Proof.Machine.execBchk p a s
  | .brep d k => Sys2Proof.Machine.execBrep d k s
  | .flags d clear => Sys2Proof.Machine.execFlags d clear s
  | .rcp d a => Sys2Proof.Machine.execRcp d a s
  | .rsq d a => Sys2Proof.Machine.execRsq d a s
  | .sqrt d a => Sys2Proof.Machine.execSqrt d a s
  | .exp2 d a => Sys2Proof.Machine.execExp2 d a s
  | .log2 d a => Sys2Proof.Machine.execLog2 d a s
  | .sinpi d a => Sys2Proof.Machine.execSinpi d a s
  | .cospi d a => Sys2Proof.Machine.execCospi d a s
  | .tanh d a => Sys2Proof.Machine.execTanh d a s
  | .sigm d a => Sys2Proof.Machine.execSigm d a s
  | .fdivf d a b => Sys2Proof.Machine.execFdivf d a b s
  | .cvt d a part src => Sys2Proof.Machine.execCvt d a part src s
  | .pack d a => Sys2Proof.Machine.execPack d a s
  | .unpk d a count first => Sys2Proof.Machine.execUnpk d a count first s
  | .qblk d a fit b16 => Sys2Proof.Machine.execQblk d a fit b16 s
  | .qapply d a b => Sys2Proof.Machine.execQapply d a b s
  | .dq d a b => Sys2Proof.Machine.execDq d a b s
  | .dech d a t => Sys2Proof.Machine.execDech d a t s
  | .decht d a t => Sys2Proof.Machine.execDecht d a t s
  | .decz d a t => Sys2Proof.Machine.execDecz d a t s
  | .decst d => Sys2Proof.Machine.execDecst d s
  | .ctab t a r => Sys2Proof.Machine.execCtab t a r s
  | .shfl d a b => Sys2Proof.Machine.execShfl d a b s
  | .shflx d a kind rel n => Sys2Proof.Machine.execShflx d a kind rel n s
  | .bcst d a lane => Sys2Proof.Machine.execBcst d a lane s
  | .vote p comb kind src => Sys2Proof.Machine.execVote p comb kind src s
  | .ballot d src => Sys2Proof.Machine.execBallot d src s
  | .redl d a op seg sp => Sys2Proof.Machine.execRedl d a op seg sp s
  | .scanl d a op seg excl sp => Sys2Proof.Machine.execScanl d a op seg excl sp s
  | .rwalk d a b => Sys2Proof.Machine.execRwalk d a b s
  | .rnext d a b => Sys2Proof.Machine.execRnext d a b s
  | .segm p a tail => Sys2Proof.Machine.execSegm p a tail s
  | .ld d o rt => Sys2Proof.Machine.execLd d o rt s
  | .st data o rt => Sys2Proof.Machine.execSt data o rt s
  | .ldg d a decl => Sys2Proof.Machine.execLdg d a decl s
  | .stg data a => Sys2Proof.Machine.execStg data a s
  | .sld d o r => Sys2Proof.Machine.execSld d o r s
  | .sst data o r => Sys2Proof.Machine.execSst data o r s
  | .pref hub o r => Sys2Proof.Machine.execPref hub o r s
  | .cctl op o r => Sys2Proof.Machine.execCctl op o r s
  | .talloc h a => Sys2Proof.Machine.execTalloc h a s
  | .tfree h => Sys2Proof.Machine.execTfree h s
  | .tinfo d h => Sys2Proof.Machine.execTinfo d h s
  | .tld d o h => Sys2Proof.Machine.execTld d o h s
  | .tst data o h => Sys2Proof.Machine.execTst data o h s
  | .tldt d o h => Sys2Proof.Machine.execTldt d o h s
  | .tfill data o h => Sys2Proof.Machine.execTfill data o h s
  | .tldx d o h => Sys2Proof.Machine.execTldx d o h s
  | .tstx data o h => Sys2Proof.Machine.execTstx data o h s
  | .recsync r => Sys2Proof.Machine.execRecsync r s
  | .aadd d o rt => Sys2Proof.Machine.execAadd d o rt s
  | .aand d o rt => Sys2Proof.Machine.execAand d o rt s
  | .aor d o rt => Sys2Proof.Machine.execAor d o rt s
  | .axor d o rt => Sys2Proof.Machine.execAxor d o rt s
  | .amin d o rt => Sys2Proof.Machine.execAmin d o rt s
  | .amax d o rt => Sys2Proof.Machine.execAmax d o rt s
  | .axchg d o rt => Sys2Proof.Machine.execAxchg d o rt s
  | .acas d o rt => Sys2Proof.Machine.execAcas d o rt s
  | .aincw d o rt => Sys2Proof.Machine.execAincw d o rt s
  | .aaddb d o rt => Sys2Proof.Machine.execAaddb d o rt s
  | .afadd d o rt => Sys2Proof.Machine.execAfadd d o rt s
  | .redadd data o rt => Sys2Proof.Machine.execRedadd data o rt s
  | .redfadd data o rt => Sys2Proof.Machine.execRedfadd data o rt s
  | .redmin data o rt => Sys2Proof.Machine.execRedmin data o rt s
  | .redmax data o rt => Sys2Proof.Machine.execRedmax data o rt s
  | .rflush => Sys2Proof.Machine.execRflush s
  | .bar p grid cnt num => Sys2Proof.Machine.execBar p grid cnt num s
  | .bara grid cnt num => Sys2Proof.Machine.execBara grid cnt num s
  | .barw p grid num => Sys2Proof.Machine.execBarw p grid num s
  | .bart p grid num => Sys2Proof.Machine.execBart p grid num s
  | .wait ld st cp mx => Sys2Proof.Machine.execWait ld st cp mx s
  | .waitr counter a => Sys2Proof.Machine.execWaitr counter a s
  | .waita d o rt => Sys2Proof.Machine.execWaita d o rt s
  | .mbatch d => Sys2Proof.Machine.execMbatch d s
  | .fence kind scope => Sys2Proof.Machine.execFence kind scope s
  | .pbar cum => Sys2Proof.Machine.execPbar cum s
  | .stsig data o rt => Sys2Proof.Machine.execStsig data o rt s
  | .cpy a => Sys2Proof.Machine.execCpy a s
  | .cpyo a b => Sys2Proof.Machine.execCpyo a b s
  | .cpyg a => Sys2Proof.Machine.execCpyg a s
  | .cpys a => Sys2Proof.Machine.execCpys a s
  | .cpyt a => Sys2Proof.Machine.execCpyt a s
  | .engsv d => Sys2Proof.Machine.execEngsv d s
  | .engrs a => Sys2Proof.Machine.execEngrs a s
  | .mma acc hA hB na nb z r p pair => Sys2Proof.Machine.execMma acc hA hB na nb z r p pair s
  | .mshape a => Sys2Proof.Machine.execMshape a s
  | .accz mask => Sys2Proof.Machine.execAccz mask s
  | .accrd d acc count b => Sys2Proof.Machine.execAccrd d acc count b s
  | .accwr d acc count b => Sys2Proof.Machine.execAccwr d acc count b s
  | .msave t => Sys2Proof.Machine.execMsave t s
  | .mres t => Sys2Proof.Machine.execMres t s
  | .mscale a => Sys2Proof.Machine.execMscale a s
  | .enq d a q => Sys2Proof.Machine.execEnq d a q s
  | .ctxdead first count => Sys2Proof.Machine.execCtxdead first count s
  | .ctxpin first count pin => Sys2Proof.Machine.execCtxpin first count pin s
  | .unseat => Sys2Proof.Machine.execUnseat s
  | .semsig a b => Sys2Proof.Machine.execSemsig a b s
  | .trap n => Sys2Proof.Machine.execTrap n s
  | .tret mode => Sys2Proof.Machine.execTret mode s
  | .rdtrap d k => Sys2Proof.Machine.execRdtrap d k s
  | .rdctx d a => Sys2Proof.Machine.execRdctx d a s
  | .wrctx a b => Sys2Proof.Machine.execWrctx a b s
  | .pmc d counter => Sys2Proof.Machine.execPmc d counter s
  | .errlog d a b => Sys2Proof.Machine.execErrlog d a b s
  | .lmma3 d a b => Sys2Proof.Machine.execLmma3 d a b s
  | .llds d a b => Sys2Proof.Machine.execLlds d a b s
  | .lsts d a b => Sys2Proof.Machine.execLsts d a b s
  | .lbar d a b => Sys2Proof.Machine.execLbar d a b s
  | .hintFd x => Sys2Proof.Machine.execHintFd x s
  | .hintFe x => Sys2Proof.Machine.execHintFe x s
  | .illegalOpcode x => Sys2Proof.Machine.execIllegalOpcode x s
  | .reservedOpcode op x => Sys2Proof.Machine.execReservedOpcode op x s
  | .pick quarter => Sys2Proof.Machine.execPick quarter s
  | .icacheFill quarter => Sys2Proof.Machine.execIcacheFill quarter s
  | .sfuResult gid => Sys2Proof.Machine.execSfuResult gid s
  | .xlaneResult gid => Sys2Proof.Machine.execXlaneResult gid s
  | .conversionResult gid => Sys2Proof.Machine.execConversionResult gid s
  | .ldStepComplete gid => Sys2Proof.Machine.execLdStepComplete gid s
  | .stStepComplete gid => Sys2Proof.Machine.execStStepComplete gid s
  | .atomicLanePerform gid => Sys2Proof.Machine.execAtomicLanePerform gid s
  | .heldFaultEntry part => Sys2Proof.Machine.execHeldFaultEntry part s
  | .faultReplay gid => Sys2Proof.Machine.execFaultReplay gid s
  | .contextCacheFill gid => Sys2Proof.Machine.execContextCacheFill gid s
  | .decodeUnitComplete core => Sys2Proof.Machine.execDecodeUnitComplete core s
  | .dechtComplete gid => Sys2Proof.Machine.execDechtComplete gid s
  | .copyElement gid => Sys2Proof.Machine.execCopyElement gid s
  | .copyCommandEnd gid => Sys2Proof.Machine.execCopyCommandEnd gid s
  | .matrixEntryStart core => Sys2Proof.Machine.execMatrixEntryStart core s
  | .matrixEntryRetire core => Sys2Proof.Machine.execMatrixEntryRetire core s
  | .batchComplete gid => Sys2Proof.Machine.execBatchComplete gid s
  | .barrierPhaseComplete grid owner num => Sys2Proof.Machine.execBarrierPhaseComplete grid owner num s
  | .waitaWake gid => Sys2Proof.Machine.execWaitaWake gid s
  | .waitaPoll gid => Sys2Proof.Machine.execWaitaPoll gid s
  | .waitaDeadline gid => Sys2Proof.Machine.execWaitaDeadline gid s
  | .stallQuantumExpiry asid => Sys2Proof.Machine.execStallQuantumExpiry asid s
  | .groupEndSeatFree gid => Sys2Proof.Machine.execGroupEndSeatFree gid s
  | .seating core => Sys2Proof.Machine.execSeating core s
  | .preemption asid core => Sys2Proof.Machine.execPreemption asid core s
  | .contextResume asid => Sys2Proof.Machine.execContextResume asid s
  | .starvationBoost asid => Sys2Proof.Machine.execStarvationBoost asid s
  | .l1Eviction core line => Sys2Proof.Machine.execL1Eviction core line s
  | .persistBufferDrain => Sys2Proof.Machine.execPersistBufferDrain s
  | .hotnessSample core => Sys2Proof.Machine.execHotnessSample core s
  | .kernelLaunch asid queue => Sys2Proof.Machine.execKernelLaunch asid queue s
  | .semaphoreStep asid queue => Sys2Proof.Machine.execSemaphoreStep asid queue s
  | .xshoot asid queue => Sys2Proof.Machine.execXshoot asid queue s
  | .xshootWake asid queue => Sys2Proof.Machine.execXshootWake asid queue s
  | .semaphoreWaitRecheck asid queue => Sys2Proof.Machine.execSemaphoreWaitRecheck asid queue s
  | .teamPlacement kernel => Sys2Proof.Machine.execTeamPlacement kernel s
  | .launchComplete kernel => Sys2Proof.Machine.execLaunchComplete kernel s
  | .frPost part value => Sys2Proof.Machine.execFrPost part value s
  | .ctLoad part value => Sys2Proof.Machine.execCtLoad part value s
  | .swapOut part => Sys2Proof.Machine.execSwapOut part s
  | .swapIn part => Sys2Proof.Machine.execSwapIn part s
  | .swapComplete part => Sys2Proof.Machine.execSwapComplete part s
  | .devRst value => Sys2Proof.Machine.execDevRst value s
  | .secAdv value => Sys2Proof.Machine.execSecAdv value s
  | .doorbellWrite vf asid queue value => Sys2Proof.Machine.execDoorbellWrite vf asid queue value s
  | .registerWrite offset value => Sys2Proof.Machine.execRegisterWrite offset value s
  | .hostHdmAccess pa write data => Sys2Proof.Machine.execHostHdmAccess pa write data s
  | .falanWriteArrival port pa data => Sys2Proof.Machine.execFalanWriteArrival port pa data s
  | .flushMarker port => Sys2Proof.Machine.execFlushMarker port s
  | .linkTrained port peer => Sys2Proof.Machine.execLinkTrained port peer s
  | .linkRetrain port => Sys2Proof.Machine.execLinkRetrain port s
  | .linkDown port => Sys2Proof.Machine.execLinkDown port s
  | .noPathKill gid => Sys2Proof.Machine.execNoPathKill gid s
  | .powerLoss => Sys2Proof.Machine.execPowerLoss s
  | .globalPersistentFlush => Sys2Proof.Machine.execGlobalPersistentFlush s
  | .powerOnReset => Sys2Proof.Machine.execPowerOnReset s
  | .deviceReset => Sys2Proof.Machine.execDeviceReset s
  | .boot verified => Sys2Proof.Machine.execBoot verified s
  | .vfFunctionLevelReset vf => Sys2Proof.Machine.execVfFunctionLevelReset vf s
  | .d3hot => Sys2Proof.Machine.execD3hot s
  | .d0 => Sys2Proof.Machine.execD0 s
  | .d3cold => Sys2Proof.Machine.execD3cold s
  | .throttleUpdate watts level => Sys2Proof.Machine.execThrottleUpdate watts level s
  | .quarterClockGate quarter => Sys2Proof.Machine.execQuarterClockGate quarter s
  | .coreClockGate core => Sys2Proof.Machine.execCoreClockGate core s
  | .hbmSelfRefresh stack => Sys2Proof.Machine.execHbmSelfRefresh stack s
  | .pldmMonitoring => Sys2Proof.Machine.execPldmMonitoring s
  | .pldmFirmwareUpdate digest verified => Sys2Proof.Machine.execPldmFirmwareUpdate digest verified s
  | .spdmAttestation => Sys2Proof.Machine.execSpdmAttestation s
  | .managementPowerLimit watts => Sys2Proof.Machine.execManagementPowerLimit watts s
  | .managementResetRequest => Sys2Proof.Machine.execManagementResetRequest s
  | .managementReset => Sys2Proof.Machine.execManagementReset s
  | .correctedError unit pa core => Sys2Proof.Machine.execCorrectedError unit pa core s
  | .uncorrectableError site => Sys2Proof.Machine.execUncorrectableError site s
  | .sldComplete gid => Sys2Proof.Machine.execSldComplete gid s
  | .recsyncComplete gid => Sys2Proof.Machine.execRecsyncComplete gid s
  | .enqComplete gid => Sys2Proof.Machine.execEnqComplete gid s
  | .releaseComplete gid => Sys2Proof.Machine.execReleaseComplete gid s
  | .persistBufferAcceptance => Sys2Proof.Machine.execPersistBufferAcceptance s
  | .markerAcknowledgement dest => Sys2Proof.Machine.execMarkerAcknowledgement dest s
  | .falanReadArrival port pa req => Sys2Proof.Machine.execFalanReadArrival port pa req s
  | .backInvalidation port line => Sys2Proof.Machine.execBackInvalidation port line s
  | .linkTrainingStart port => Sys2Proof.Machine.execLinkTrainingStart port s
  | .starvationBoostEnd asid => Sys2Proof.Machine.execStarvationBoostEnd asid s
  | .leaveReset => Sys2Proof.Machine.execLeaveReset s

end Sys2Proof.Machine
end

