-- ==== Sys2Proof/Machine/Sched.lean ====
section
/-! DEFINITION. The move that the device makes of itself where no move is on the agenda, and how a program comes to run (log 5). -/

namespace Sys2Proof.Machine

/-! ### Steps that the device's units may take -/

/-- The live groups. -/
def liveGroups (s : State) : List Nat := (s.groups.filter fun (_, g) => g.live).map (·.1)

/-- What a step of a unit does. -/
abbrev UnitStep := State → Host.Outcome State Fault Refusal

/-- Steps of the units that serve one group. -/
def groupSteps (gid : Nat) : List UnitStep :=
  [execLdStepComplete gid, execStStepComplete gid, execAtomicLanePerform gid, execSfuResult gid, execXlaneResult gid, execConversionResult gid,
   execSldComplete gid, execReleaseComplete gid, execRecsyncComplete gid, execEnqComplete gid, execCopyCommandEnd gid, execDechtComplete gid,
   execBatchComplete gid, execContextCacheFill gid, execFaultReplay gid, execWaitaWake gid, execWaitaPoll gid, execWaitaDeadline gid,
   execGroupEndSeatFree gid, execNoPathKill gid]

/-- Cores that hold state, or that host groups, with the other core of each pair. -/
def coresInUse (s : State) : List Nat :=
  (s.cores.map (·.1) ++ (s.groups.filter fun (_, g) => g.live).flatMap fun (_, g) => [g.core / 2 * 2, g.core / 2 * 2 + 1]).dedup

/-- Steps of a core's units. -/
def coreSteps (core : Nat) : List UnitStep :=
  ((List.range 4).flatMap fun q => [execPick (4 * core + q), execIcacheFill (4 * core + q), execQuarterClockGate (4 * core + q)]) ++
    [execDecodeUnitComplete core, execMatrixEntryRetire core, execSeating core, execHotnessSample core, execCoreClockGate core]

/-- Steps that start a pass of an engine, which throttling withholds (R466). -/
def passSteps (s : State) : List UnitStep :=
  if withheld s then [] else (liveGroups s).map (fun i => execCopyElement i) ++ (coresInUse s).map fun c => execMatrixEntryStart c

/-- Steps of a context: its scheduling and its queues. -/
def contextSteps (s : State) (asid : Nat) : List UnitStep :=
  [execStallQuantumExpiry asid, execContextResume asid, execStarvationBoost asid, execStarvationBoostEnd asid] ++
    (coresInUse s).map (fun c => execPreemption asid c) ++
    (List.range 64).flatMap fun q =>
      [execKernelLaunch asid q, execSemaphoreStep asid q, execXshoot asid q, execXshootWake asid q, execSemaphoreWaitRecheck asid q]

/-- Phases that may complete: of a team's barriers, and of a context's grid barriers. -/
def barrierSteps (s : State) : List UnitStep :=
  (s.teams.flatMap fun (i, _) => (List.finRange 16).map fun n => execBarrierPhaseComplete false i n) ++
    s.ctxs.flatMap fun (a, _) => ((List.finRange 16).take 8).map fun n => execBarrierPhaseComplete true a n

/-- Steps of the hub. -/
def hubSteps (s : State) : List UnitStep :=
  [execPersistBufferAcceptance, execPersistBufferDrain, execManagementReset] ++
    (List.range 8).flatMap (fun p => [execHeldFaultEntry p, execSwapComplete p]) ++ (List.finRange 16).map (fun p => execLinkDown p) ++
    (List.finRange 8).map (fun k => execHbmSelfRefresh k) ++ s.kernels.flatMap fun (k, _) => [execTeamPlacement k, execLaunchComplete k]

/-- Every step that the device's units might take (R464): in D3hot only the hub's, and without power only the flush. -/
def unitSteps (s : State) : List UnitStep :=
  match s.dev.power with
  | .d0 =>
    (liveGroups s).flatMap groupSteps ++ (coresInUse s).flatMap coreSteps ++ passSteps s ++ (s.ctxs.map (·.1)).flatMap (contextSteps s) ++ barrierSteps s ++ hubSteps s
  | .d3hot => [execPersistBufferAcceptance, execPersistBufferDrain, execManagementReset]
  | .lost => [execGlobalPersistentFlush]
  | .d3cold => []

/-- What a unit's step does, where it changes more than the clock. -/
def acted (s : State) (f : UnitStep) : Option State := match f s with
  | .next t => if t = tick s then none else some t
  | .fault _ | .refused _ => none

/-- The next step of the device's own units; where nothing is due, only the clock runs. The steps take turns. -/
def unitStep (s : State) : State :=
  let l := unitSteps s
  let n := s.serial % max 1 l.length
  ((l.drop n ++ l.take n).findSome? (acted s)).getD (tick s)

/-- A group's run stalled at its last try to issue. -/
def stalledRun (s : State) (gid : Nat) : Bool := match s.group? gid with
  | some g => (match g.run with
    | some r => r.stalled
    | none => false)
  | none => false

/-- The focus gives way in this step: every other step while its run is stalled, and every sixteenth step. -/
def yields (s : State) : Bool := (stalledRun s s.focus && decide (s.serial % 2 = 0)) || decide (s.serial % 16 = 15)

/-- The words that may issue now: none without power or in a throttled clock (R464, R466). -/
def issueWords (s : State) (gid : Nat) : List W32 := if s.dev.power = .d0 && !withheld s then issuable s gid else []

/-- The other groups whose runs are in progress and can issue. -/
def otherIssuers (s : State) : List Nat :=
  (s.cores.flatMap fun (_, c) => c.current.map (·.2)).filter fun i => decide (i ≠ s.focus) && !(issueWords s i).isEmpty && !stalledRun s i

/-- The group that issues in this step; `none` where a unit moves. The focus issues on; as it gives way or cannot issue, units and the
other issuing groups take turns. -/
def turn (s : State) : Option Nat :=
  if !(issueWords s s.focus).isEmpty && !yields s then some s.focus
  else
    let l := otherIssuers s
    if s.serial / 16 % 2 = s.serial % 2 then none else l[s.serial / 2 % max 1 l.length]?

/-- A live group on core 0, of a kernel of its own, whose run holds the given words (log 5): what a launch, a pick and a
fetch give the machine. -/
def placeWords (s : State) (ws : List W32) : State :=
  let n := s.nextId
  let k : Kernel := { Kernel.blank with code := ⟨0, 2 ^ 20, 0, false⟩, budgets := [240] }
  let t : Team := { Team.blank with kernel := n }
  let r : Run := { slices := 255, pc := 4, words := ws.take (headLen ws), trl := 0, trailer := false, begun := false, gap := 0
                   giveway := false, id := n, micro := 0, slipped := false, stalled := false, early := false }
  let g : Group := { Group.blank with
    kernel := n, team := n, place := .seat 0 0, run := some r
    slices := Vector.replicate 8 { Slice.blank with pc := 4, act := 15 } }
  let c := s.core 0
  { s with
    kernels := KMap.set s.kernels n k, teams := KMap.set s.teams n t, groups := KMap.set s.groups n g
    cores := KMap.set s.cores 0 { c with current := KMap.set c.current 0 n }
    nextId := n + 1, focus := n, agenda := [] }

end Sys2Proof.Machine
end

