-- ==== Sys2Proof/Machine/Step.lean ====
section
/-! DEFINITION. One step of the device: the move at the head of the agenda, else the issuing group's next word, else a
step of the device's own units. -/

namespace Sys2Proof.Machine

/-- Issue the next word of the focus group's run; a word without an instruction traps (R33, R404). -/
def issueHead (s : State) : Host.Outcome State Fault Refusal :=
  match decode (issueWords s s.focus) with
  | .ok (i, _) => exec i s
  | .error e => .next (badWord e s)

/-- Make a move: a group that cannot issue now lets a clock pass, and an instruction word is no move of its own. -/
def runMove (m : Move) (s : State) : Host.Outcome State Fault Refusal :=
  match m with
  | .event i => if i.isWord then .next (tick s) else exec i s
  | .issue gid => if (issueWords s gid).isEmpty then .next (tick s) else issueHead { s with focus := gid }
  | .rollCall gid n => .next (tick (rollCall s gid n))
  | .laneMismatch gid lanes => .next (tick (laneMismatch s gid lanes))

/-- One step. -/
def step (s : State) : Host.Outcome State Fault Refusal :=
  match s.agenda with
  | m :: t => runMove m { s with agenda := t }
  | [] => match turn s with
    | some gid => issueHead { s with focus := gid }
    | none => .next (unitStep s)

/-- The words of an instruction whose bits are w, in order: the table's words, and words of zeros up to two. -/
def tableWords (nbits w : Nat) : List W32 :=
  if nbits ≤ 32 then [BitVec.ofNat 32 w, 0] else [BitVec.ofNat 32 w, BitVec.ofNat 32 (w / 2 ^ 32)]

/-- The state with an instruction's words in a run of the issuing group, about to issue (log 5). -/
def State.withFetchWord (s : State) (nbits w : Nat) : State := placeWords s (tableWords nbits w)

end Sys2Proof.Machine
end

