-- ==== Sys2Proof/Safety.lean ====
section
/-! DEFINITION. What counts as a safe run, and the terms in which the claims speak: when an instruction word issues with
nothing in its way, what going on past it means, and what it leaves alone. -/

namespace Sys2Proof

/-- A run of k steps from a state that neither faults nor is refused. -/
def SafeRun (k : Nat) (s : Machine.State) : Prop := ∃ t, core.run k s = .next t

namespace Machine

/-- The gang c issues instruction i, which names the registers u: no asynchronous trap is due, no register waits for the
scoreboard of interlocked mode (R53) or for the context cache (R26), none that is read is poisoned (R441), and every register
field is legal for the role and the MODE type (R22, R36). -/
structure Issues (i : Instr) (s : State) (c : Gang) (u : Uses) : Prop where
  gang : gangOf i s = some c
  noTrapDue : c.g.asyncTraps = []
  notBusy : (c.view.interlocked && busy c.g s.clock c.run.id c.mode u) = false
  present : missingLine c.g u c.mode = none
  clean : readsPoison c.g i u c.mode = false
  legal : u.ok (c.k.budgetOf c.g.role) c.mode = true

/-- The next state when gang c goes on past its instruction with its group at g, after n clocks beyond the first. -/
def wentOn (s : State) (c : Gang) (g : Group) (n : Nat) : State :=
  tick (advance (spend (s.setGroup c.gid g) n) c.gid c.words 0 false)

/-- The state in which gang c's instruction runs: its group without the register versions that nothing can read any more (R48). -/
def entered (s : State) (c : Gang) : State := s.setGroup c.gid c.g

/-- The next state when gang c goes on past its instruction, which has left the machine in state s. -/
def wentPast (s : State) (c : Gang) : State := tick (advance s c.gid c.words 0 false)

/-- The next state when gang c goes on past its instruction, which changes nothing of the group. -/
def passed (s : State) (c : Gang) : State := wentPast (entered s c) c

/-- Gang c waits at its instruction, and counts no slip. -/
def Stays (i : Instr) (s : State) (c : Gang) : Prop :=
  exec i s = .next (tick ((entered s c).modGroup c.gid fun g => { g with run := g.run.map fun r => { r with stalled := true } }))

/-- The next state when gang c leaves its instruction with its group at g, the slices m having left the run. -/
def leftRun (s : State) (c : Gang) (g : Group) (m : BitVec 8) (taken : Bool) : State :=
  tick (advance (s.setGroup c.gid g) c.gid c.words m (taken && decide (m ≠ 0)))

/-- The next state when gang c's instruction traps. -/
def trapped (s : State) (c : Gang) (t : TrapInfo) : State :=
  tick (takeTrap (entered s c) c.gid c.site (legacyTrap c.run t))

/-- The trap 0x01 of gang c's instruction with a cause of R427. -/
def illegalTrap (c : Gang) (cause : Nat) : TrapInfo := trapIllegal cause c.prefixed c.lanes

/-- Nothing but group gid, the clock and the counters of performance has changed from s to t. -/
structure OnlyGroup (s t : State) (gid : Nat) : Prop where
  memory : ∀ a, Memory.read t.mem a = Memory.read s.mem a
  sidebands : t.side = s.side
  poison : t.poison = s.poison
  pool : t.pool = s.pool
  durable : t.durWait = s.durWait ∧ t.pbuf = s.pbuf
  hub : t.hub = s.hub
  caches : ∀ n, (t.core n).l1 = (s.core n).l1
  accumulators : ∀ n, (t.core n).acc = (s.core n).acc ∧ (t.core n).rowBound = (s.core n).rowBound ∧ (t.core n).mq = (s.core n).mq
  groups : ∀ n, n ≠ gid → t.group? n = s.group? n
  teams : t.teams = s.teams
  kernels : t.kernels = s.kernels
  contexts : t.ctxs = s.ctxs
  partitions : t.parts = s.parts
  queues : t.queues = s.queues
  device : t.dev = s.dev

/-- The registers of group g that g' may have changed are the vector registers vs, the uniform registers us and the predicates
ps; no other part of the group has changed but the older versions that early readers may find (R49), the register writes in
flight that a later write overtakes, and the poison that a full write clears. -/
structure Frame (score : Bool) (g g' : Group) (vs : List VReg) (us : List UReg) (ps : List PReg) : Prop where
  vec : ∀ r, r ∉ vs → g'.line score r = g.line score r
  uni : ∀ n : UReg, n ∉ us → g'.s[n.val] = g.s[n.val] ∧ g'.sb[n.val] = g.sb[n.val]
  pred : ∀ n, n ∉ ps → g'.predNow n = g.predNow n
  rest : g' = { g with v := g'.v, x := g'.x, s := g'.s, sb := g'.sb, p := g'.p, unsettled := g'.unsettled
                       pend := g'.pend, ld := g'.ld, poison := g'.poison }

/-- The instruction completes: it goes on, nothing but its group, the clock and the counters changes, and its group is left
as P says. -/
def Completes (i : Instr) (s : State) (c : Gang) (n : Nat) (P : Group → Prop) : Prop :=
  ∃ g, exec i s = .next (wentOn s c g n) ∧ OnlyGroup s (wentOn s c g n) c.gid ∧ P g

/-- Lane l of a register, or of the pair that an even register names (R36), as a number. -/
def laneAt (g : Group) (score wide : Bool) (r : VReg) (l : Fin 32) : Nat :=
  ((g.line score r).val[l.val]).toNat + (if wide then 2 ^ 32 * ((g.line score (regNext r)).val[l.val]).toNat else 0)

/-- Lane l's bound (R126). -/
def boundAt (g : Group) (score : Bool) (r : VReg) (l : Fin 32) : B16 := (g.line score r).bnd[l.val]

/-- The registers that a destination field names (R34, R36). -/
def destRegs (wide : Bool) : Dst → List VReg
  | .reg r => if wide then [r, regNext r] else [r]
  | .discard => []

/-- The result of a vector instruction of gang c: in the lanes m destination d holds a value that `val` allows, with the bound
`bnd`; its other lanes, every other register and the rest of the group are as before. A discarded destination changes
nothing. -/
structure VecResult (c : Gang) (g : Group) (d : Dst) (wide : Bool) (m : BitVec 32) (val : Fin 32 → Nat → Prop) (bnd : Fin 32 → B16) :
    Prop where
  frame : Frame c.view.score c.g g (destRegs wide d) [] []
  written : ∀ r, d = .reg r → ∀ l : Fin 32, bit m l.val = true →
    val l (laneAt g c.view.score wide r l) ∧ boundAt g c.view.score r l = bnd l ∧
      (wide = true → boundAt g c.view.score (regNext r) l = bnd l)
  kept : ∀ r, d = .reg r → ∀ l : Fin 32, bit m l.val = false →
    laneAt g c.view.score wide r l = laneAt c.g c.view.score wide r l ∧ boundAt g c.view.score r l = boundAt c.g c.view.score r l ∧
      (wide = true → boundAt g c.view.score (regNext r) l = boundAt c.g c.view.score (regNext r) l)

/-- Uniform register d holds v with bound b, and the rest of the group is as before. -/
structure UniResult (c : Gang) (g : Group) (d : UReg) (v : W64) (b : B16) : Prop where
  frame : Frame c.view.score c.g g [] [d] []
  value : g.s[d.val] = v
  bound : g.sb[d.val] = b

/-- In the lanes m predicate p is as `new` says; its other lanes and the rest of the group are as before. A write to p7 is
ignored (R36). -/
structure PredResult (c : Gang) (g : Group) (p : PReg) (m : BitVec 32) (new : Fin 32 → Bool) : Prop where
  frame : Frame c.view.score c.g g [] [] (if p.val = 7 then [] else [p])
  lanes : p.val ≠ 7 → ∀ l : Fin 32, bit (g.predNow p) l.val = if bit m l.val then new l else bit (c.g.predNow p) l.val

/-- The instruction completes and the slices that m names leave their run, their PCs set; nothing but the group, the clock and
the counters changes. -/
def Transfers (i : Instr) (s : State) (c : Gang) (taken : Bool) (P : Group → BitVec 8 → Prop) : Prop :=
  ∃ g m, exec i s = .next (leftRun s c g m taken) ∧ OnlyGroup s (leftRun s c g m taken) c.gid ∧ P g m

/-- Each slice of the gang is as `new` says, and leaves the run where its second part is true; the other slices and the rest of the
group are as before. -/
structure SliceResult (c : Gang) (g : Group) (m : BitVec 8) (new : Fin 8 → Slice × Bool) : Prop where
  rest : g = { c.g with slices := g.slices }
  inside : ∀ j : Fin 8, bit c.run.slices j.val = true → g.slices[j.val] = (new j).1 ∧ bit m j.val = (new j).2
  outside : ∀ j : Fin 8, bit c.run.slices j.val = false → g.slices[j.val] = c.g.slices[j.val] ∧ bit m j.val = false

/-- The trap 0x02 of an instruction that does not accept the type, rounding or tier of MODE (R39). -/
def modeTrap (c : Gang) : TrapInfo := trapOf 0x02 [BitVec.ofNat 64 c.mode.toNat, BitVec.ofNat 64 c.lanes.toNat]

/-- The exceptions of lane l that the group enables (R180). -/
def enabledOf (c : Gang) (out : Nat → LaneOut) (l : Nat) : BitVec 5 := (out l).flags.setWidth 5 &&& c.g.fpEnable

/-- Lane l's result breaches the budget of its slice (R137, R140). -/
def breaches (c : Gang) (lanes : BitVec 32) (out : Nat → LaneOut) (l : Nat) : Prop :=
  c.untracked = false ∧ l < 32 ∧ bit lanes l = true ∧ exceeds (out l).bnd (c.view.budget (l / c.k.perSlice)) = true

/-- The group after a computed result: the destination in the active lanes, and the sticky flags `fl` set. -/
def Computed (c : Gang) (g : Group) (d : Dst) (wide : Bool) (lanes : BitVec 32) (out : Nat → LaneOut) (fl : BitVec 9) : Prop :=
  VecResult { c with g := c.g.stick fl } g d wide lanes
    (fun l v => v = (out l.val).val.toNat % if wide then 2 ^ 64 else 2 ^ 32) (fun l => (out l.val).bnd)

/-- A computing instruction comes to the lanes' results `out`: an enabled exception traps with code 0x0B, a breach acts by MODE bnd where
results are `tested`, and else the results, their bounds and their sticky flags are written (R140, R141, R146, R178–R181). -/
structure Delivers (i : Instr) (s : State) (c : Gang) (tested wide : Bool) (n : Nat) (d : Dst) (lanes : BitVec 32) (out : Nat → LaneOut) :
    Prop where
  excepts : (∃ l < 32, bit lanes l = true ∧ enabledOf c out l ≠ 0) →
    ∃ (exc : BitVec 5) (mask : BitVec 32), exec i s = .next (trapped s c (trapFloat mask exc)) ∧
      (∀ l < 32, bit mask l = (bit lanes l && decide (enabledOf c out l ≠ 0))) ∧
      ∀ j < 5, exc.getLsbD j = true ↔ ∃ l < 32, bit lanes l = true ∧ (enabledOf c out l).getLsbD j = true
  breachTraps : (∀ l < 32, bit lanes l = true → enabledOf c out l = 0) → tested = true → (∃ l, breaches c lanes out l) → modeBnd c.mode = 2 →
    ∃ b : Breach, exec i s = .next (trapped s c (trapBreach b)) ∧ ∀ l < 32, b.mask.testBit l = true ↔ breaches c lanes out l
  breachFlags : (∀ l < 32, bit lanes l = true → enabledOf c out l = 0) → tested = true → (∃ l, breaches c lanes out l) → modeBnd c.mode = 1 →
    ∃ (g : Group) (words : List W64),
      exec i s = .next (tick (advance (writeCard (spend (s.setGroup c.gid g) n) c.gid words) c.gid c.words 0 false)) ∧
      Computed c g d wide lanes out (allFlags lanes (fun l => (out l).flags) ||| flBreach)
  completes : (∀ l < 32, bit lanes l = true → enabledOf c out l = 0) →
    (tested = false ∨ (∀ l, ¬breaches c lanes out l) ∨ modeBnd c.mode = 0) →
    Completes i s c n fun g => Computed c g d wide lanes out (allFlags lanes fun l => (out l).flags)

/-- The group after a long-latency word has issued: its run's next completion flag is set where the word `takes` one, and its results wait in
p; every register is as before (R46). -/
structure Launched (c : Gang) (g : Group) (p : Pending) (takes hold : Bool) : Prop where
  waits : ∃ q, g.pend = q ++ [{ p with flag := if takes then c.nextFlag else none, holds := hold }] ∧ q.length = c.g.pend.length
  flags : ∀ f : Fin 12, bit g.cflags f.val = (bit c.g.cflags f.val || (takes && decide (c.nextFlag = some f)))
  frame : Frame c.view.score c.g { g with cflags := c.g.cflags, run := c.g.run } [] [] []

/-- Gang c issues a long-latency word whose results wait in p: the run goes on, or is held until they are written. -/
def Launches (i : Instr) (s : State) (c : Gang) (n : Nat) (p : Pending) (takes hold : Bool) : Prop :=
  ∃ g, Launched c g p takes hold ∧ exec i s =
    .next (if hold then tick ((spend (s.setGroup c.gid g) n).modGroup c.gid fun g => { g with hold := some .result }) else wentOn s c g n)

/-- The completion flag that a long-latency word of gang c would take is free, so that it does not stall (R47). -/
def flagFree (c : Gang) : Prop := ∀ f, c.nextFlag = some f → bit c.g.cflags f.val = false

/-- Gang c stalls at its instruction: one schedule slip is counted for it, and nothing else changes (R47, R304). -/
def Stalls (i : Instr) (s : State) (c : Gang) : Prop :=
  ∃ t, exec i s = .next t ∧ OnlyGroup s t c.gid ∧
    t.group? c.gid = some { c.g with run := c.g.run.map fun r => { r with slipped := true, stalled := true } }

end Machine

end Sys2Proof
end

