-- ==== Sys2Proof/Certificates/Slice0/Obligations.lean ====
section
/-! DEFINITION. The statements for the provers, each a rule of the spec or what the model makes of several, and the
definitions in which they are written. -/

namespace Sys2Proof.Machine

/-! ### Integer instructions (R97–R111) -/

/-- Sub-element k of a lane, as a number of the type (R98). -/
def numAt (t : Ty) (v k : Nat) : Int := toInt t.signed t.w (elem v k t.w)

/-- The operands of an arithmetic instruction of R102, and whether its destination is an operand too. -/
def arithForm : Instr → Option (Dst × Src × Src × Bool)
  | .iadd d a b | .isub d a b | .imul d a b | .imulh d a b | .imin d a b | .imax d a b => some (d, a, b, false)
  | .imad d a b => some (d, a, b, true)
  | .iabs d a | .iaddi d a _ _ => some (d, a, .zero, false)
  | _ => none

/-- R102's table: the exact result on the numbers x, y and z of a type. -/
def arithExact (i : Instr) (t : Ty) (x y z : Int) : Int := match i with
  | .iadd _ _ _ => x + y
  | .isub _ _ _ => x - y
  | .imul _ _ _ => x * y
  | .imulh _ _ _ => x * y / 2 ^ t.w
  | .imad _ _ _ => x * y + z
  | .imin _ _ _ => if x ≤ y then x else y
  | .imax _ _ _ => if x ≤ y then y else x
  | .iabs _ _ => if t.signed && decide (x < 0) then -x else x
  | .iaddi _ _ imm none => x + (((imm.signExtend 64).toInt + 2 ^ (t.w - 1)) % 2 ^ t.w - 2 ^ (t.w - 1))
  | .iaddi _ _ imm (some high) => x + ((((high ++ imm).signExtend 64).toInt + 2 ^ (t.w - 1)) % 2 ^ t.w - 2 ^ (t.w - 1))
  | _ => 0

/-- The instructions that MODE sat governs (R99). -/
def saturates : Instr → Bool
  | .iadd _ _ _ | .isub _ _ _ | .imul _ _ _ | .imad _ _ _ | .iaddi _ _ _ _ | .iabs _ _ => true
  | _ => false

/-- A bit of a bitwise result (R103). -/
def logicBit : Instr → Option (Dst × Src × Src × (Bool → Bool → Bool))
  | .and d a b => some (d, a, b, fun x y => x && y)
  | .or d a b => some (d, a, b, fun x y => x || y)
  | .xor d a b => some (d, a, b, fun x y => x != y)
  | .andn d a b => some (d, a, b, fun x y => x && !y)
  | _ => none

/-- A shift's operands, its kind by `SHI`'s numbering, and the amount it takes from an element of b (R105). -/
def shiftForm : Instr → Option (Dst × Src × Src × Nat × (Nat → Nat))
  | .shl d a b => some (d, a, b, 0, id)
  | .shr d a b => some (d, a, b, 1, id)
  | .sar d a b => some (d, a, b, 2, id)
  | .rotl d a b => some (d, a, b, 3, id)
  | .shi d a kind amount => some (d, a, .zero, kind.toNat, fun _ => amount.toNat)
  | _ => none

/-- Bit j of the element x of w bits shifted by n (R105). -/
def shiftBit (kind w x n j : Nat) : Bool := match kind with
  | 0 => decide (n ≤ j) && x.testBit (j - n)
  | 1 => decide (j + n < w) && x.testBit (j + n)
  | 2 => x.testBit (min (j + n) (w - 1))
  | _ => x.testBit ((j + (w - n % w)) % w)

/-- Bit j of the `BFE` of x with field word y (R106). -/
def extractBit (t : Ty) (x y j : Nat) : Bool :=
  let pos := y % 256
  let len := min (y / 256 % 256) t.w
  let ext (n : Nat) : Bool := if n < t.w then x.testBit n else t.signed && x.testBit (t.w - 1)
  if len = 0 then false
  else if j < len then ext (pos + j)
  else t.signed && ext (pos + len - 1)

/-- Bit j of the `BFI` of x into z with field word y (R106). -/
def insertBit (t : Ty) (x y z j : Nat) : Bool :=
  let pos := y % 256
  let len := min (y / 256 % 256) t.w
  if pos ≤ j ∧ j < pos + len then x.testBit (j - pos) else z.testBit j

/-- What `CLZ`, `POPC` and `BREV` make of an element (R107). -/
def countOf (i : Instr) (w x v : Nat) : Prop := match i with
  | .clz _ _ => v ≤ w ∧ (∀ j, w - v ≤ j → j < w → x.testBit j = false) ∧ (v < w → x.testBit (w - 1 - v) = true)
  | .popc _ _ => v = ((List.range w).filter x.testBit).length
  | .brev _ _ => ∀ j < w, v.testBit j = x.testBit (w - 1 - j)
  | _ => False

/-- R108's tests on two elements of w bits, as numbers of a type and unsigned. -/
def cmpTest (code : Nat) (sx sy : Int) (ux uy : Nat) : Bool := match code with
  | 0 => decide (sx = sy)
  | 1 => decide (sx ≠ sy)
  | 2 => decide (sx < sy)
  | 3 => decide (sx ≤ sy)
  | 4 => decide (sx > sy)
  | 5 => decide (sx ≥ sy)
  | 6 => decide (ux < uy)
  | _ => decide (ux ≥ uy)

/-- R108's combinations of the old predicate and the test. -/
def cmpComb (code : Nat) (p t : Bool) : Bool := match code with
  | 0 => t
  | 1 => p && t
  | 2 => p || t
  | _ => p != t

/-- The uniform arithmetic and logic of R112. -/
def uniformForm : Instr → Option (UReg × UReg × UReg × (Nat → Nat → Nat))
  | .sadd d a b => some (d, a, b, fun x y => x + y)
  | .ssub d a b => some (d, a, b, fun x y => x + (2 ^ 64 - y))
  | .smul d a b => some (d, a, b, fun x y => x * y)
  | .sand d a b => some (d, a, b, Nat.land)
  | .sor d a b => some (d, a, b, Nat.lor)
  | .sxor d a b => some (d, a, b, Nat.xor)
  | .sshl d a b => some (d, a, b, fun x y => x * 2 ^ y)
  | .sshr d a b => some (d, a, b, fun x y => x / 2 ^ y)
  | _ => none

end Sys2Proof.Machine

section

open Sys2Proof Sys2Proof.Machine

/-- R102, R99, R100: the arithmetic instructions, on every sub-element of every active lane, under every integer type; the rest of
the group, every other group, and memory are as before. -/
def Obligations.IntegerArithmeticResults : Prop :=
  ∀ (i : Instr) (d : Dst) (a b : Src) (readsD : Bool) (s : State) (c : Gang) (t : Ty), arithForm i = some (d, a, b, readsD) →
    Issues i s c { regs := dstRegs d ++ srcRegs a ++ srcRegs b } → c.ty = some t → t.isInt = true →
    Completes i s c (if t.is64 then 1 else 0) fun g => VecResult c g d t.is64 c.lanes
      (fun l v => ∀ k < t.n,
        let e := arithExact i t (numAt t ((c.opnd t a).at l.val) k) (numAt t ((c.opnd t b).at l.val) k) (numAt t ((c.opnd t (dstSrc d)).at l.val) k)
        if saturates i && modeSat c.mode then numAt t v k = max (intMin t.signed t.w) (min (intMax t.signed t.w) e)
        else (elem v k t.w : Int) = e % 2 ^ t.w)
      (fun l => intBound c.k.score ([(c.opnd t a).bndAt l.val, (c.opnd t b).bndAt l.val] ++
        if readsD then [(c.opnd t (dstSrc d)).bndAt l.val] else []))

/-- R103, R100: `AND`, `OR`, `XOR` and `ANDN` act on every bit of the lane, or of the pair, under every type. -/
def Obligations.BitwiseResults : Prop :=
  ∀ (i : Instr) (d : Dst) (a b : Src) (f : Bool → Bool → Bool) (s : State) (c : Gang) (t : Ty), logicBit i = some (d, a, b, f) →
    Issues i s c { regs := dstRegs d ++ srcRegs a ++ srcRegs b } → c.ty = some t →
    Completes i s c (if t.is64 then 1 else 0) fun g => VecResult c g d t.is64 c.lanes
      (fun l v => ∀ j < (if t.is64 then 64 else 32), v.testBit j = f (((c.opnd t a).at l.val).testBit j) (((c.opnd t b).at l.val).testBit j))
      (fun l => intBound c.k.score [(c.opnd t a).bndAt l.val, (c.opnd t b).bndAt l.val])

/-- R105: the shifts, with an amount for each sub-element, or one for all in `SHI`; no bit crosses from one sub-element into
another. -/
def Obligations.ShiftResults : Prop :=
  ∀ (i : Instr) (d : Dst) (a b : Src) (kind : Nat) (amount : Nat → Nat) (s : State) (c : Gang) (t : Ty),
    shiftForm i = some (d, a, b, kind, amount) → Issues i s c { regs := dstRegs d ++ srcRegs a ++ srcRegs b } → c.ty = some t →
    t.isInt = true →
    Completes i s c (if t.is64 then 1 else 0) fun g => VecResult c g d t.is64 c.lanes
      (fun l v => ∀ k < t.n, ∀ j < t.w, (elem v k t.w).testBit j =
        shiftBit kind t.w (elem ((c.opnd t a).at l.val) k t.w) (amount (elem ((c.opnd t b).at l.val) k t.w)) j)
      (fun l => intBound c.k.score [(c.opnd t a).bndAt l.val, (c.opnd t b).bndAt l.val])

/-- R106, R107: `BFE` and `BFI`, bit by bit, under the 32-bit and 64-bit integer types; `CLZ`, `POPC` and `BREV` of every sub-element. -/
def Obligations.BitFieldAndCountResults : Prop :=
  ∀ (d : Dst) (a b : Src) (s : State) (c : Gang) (t : Ty), c.ty = some t → t.isInt = true →
    (32 ≤ t.w → Issues (.bfe d a b) s c { regs := dstRegs d ++ srcRegs a ++ srcRegs b } →
      Completes (.bfe d a b) s c (if t.is64 then 1 else 0) fun g => VecResult c g d t.is64 c.lanes
        (fun l v => ∀ j < t.w, v.testBit j = extractBit t ((c.opnd t a).at l.val) ((c.opnd t b).at l.val) j)
        (fun l => intBound c.k.score [(c.opnd t a).bndAt l.val, (c.opnd t b).bndAt l.val])) ∧
    (32 ≤ t.w → Issues (.bfi d a b) s c { regs := dstRegs d ++ srcRegs a ++ srcRegs b } →
      Completes (.bfi d a b) s c (if t.is64 then 1 else 0) fun g => VecResult c g d t.is64 c.lanes
        (fun l v => ∀ j < t.w, v.testBit j = insertBit t ((c.opnd t a).at l.val) ((c.opnd t b).at l.val) ((c.opnd t (dstSrc d)).at l.val) j)
        (fun l => intBound c.k.score [(c.opnd t a).bndAt l.val, (c.opnd t b).bndAt l.val, (c.opnd t (dstSrc d)).bndAt l.val])) ∧
    ∀ i, i = .clz d a ∨ i = .popc d a ∨ i = .brev d a → Issues i s c { regs := dstRegs d ++ srcRegs a } →
      Completes i s c (if t.is64 then 1 else 0) fun g => VecResult c g d t.is64 c.lanes
        (fun l v => ∀ k < t.n, countOf i t.w (elem ((c.opnd t a).at l.val) k t.w) (elem v k t.w))
        (fun l => intBound c.k.score [(c.opnd t a).bndAt l.val])

/-- R108, R109: `ICMP` and `PSET` write their predicate in the active lanes alone. -/
def Obligations.PredicateResults : Prop :=
  ∀ (p : PReg) (s : State) (c : Gang),
    (∀ (cond : BitVec 5) (a b : Src) (t : Ty), Issues (.icmp p cond a b) s c { regs := srcRegs a ++ srcRegs b, p := [p] } →
      c.ty = some t → t.isInt = true →
      Completes (.icmp p cond a b) s c (if t.is64 then 1 else 0) fun g => PredResult c g p c.lanes fun l =>
        cmpComb (cond.toNat / 8) (bit (c.view.pred p) l.val) ((List.range t.n).all fun k =>
          cmpTest (cond.toNat % 8) (numAt t ((c.opnd t a).at l.val) k) (numAt t ((c.opnd t b).at l.val) k)
            (elem ((c.opnd t a).at l.val) k t.w) (elem ((c.opnd t b).at l.val) k t.w))) ∧
    ∀ (f : BitVec 4) (pa pb : PReg), Issues (.pset p f pa pb) s c { p := [p, pa, pb] } →
      Completes (.pset p f pa pb) s c (if wideMode c.mode then 1 else 0) fun g => PredResult c g p c.lanes fun l =>
        bit f (2 * (bit (c.view.pred pa) l.val).toNat + (bit (c.view.pred pb) l.val).toNat)

/-- R104: `MOV` and `SEL` move a value with its bound, `SEL` in every lane of the active masks by the guard predicate; `MOVI` writes
its immediate, extended from 16 or 40 bits, with an exact bound. -/
def Obligations.MoveResults : Prop :=
  ∀ (d : Dst) (s : State) (c : Gang) (t : Ty), c.ty = some t →
    (∀ a : Src, Issues (.mov d a) s c { regs := dstRegs d ++ srcRegs a } →
      Completes (.mov d a) s c (if t.is64 then 1 else 0) fun g => VecResult c g d t.is64 c.lanes
        (fun l v => v = (c.opnd t a).at l.val % if t.is64 then 2 ^ 64 else 2 ^ 32) (fun l => (c.opnd t a).bndAt l.val)) ∧
    (∀ a b : Src, Issues (.sel d a b) s c { regs := dstRegs d ++ srcRegs a ++ srcRegs b } →
      Completes (.sel d a b) s c (if t.is64 then 1 else 0) fun g =>
        let takesA (l : Nat) : Bool := bit (c.view.pred ⟨bits c.mode 13 11 % 8, Nat.mod_lt _ (by decide)⟩) l != bit c.mode 14
        VecResult c g d t.is64 c.all
          (fun l v => v = (if takesA l.val then (c.opnd t a).at l.val else (c.opnd t b).at l.val) % if t.is64 then 2 ^ 64 else 2 ^ 32)
          (fun l => if takesA l.val then (c.opnd t a).bndAt l.val else (c.opnd t b).bndAt l.val)) ∧
    (∀ (imm : BitVec 16) (high : Option (BitVec 24)), Issues (.movi d imm high) s c { regs := dstRegs d } →
      Completes (.movi d imm high) s c (if t.is64 then 1 else 0) fun g => VecResult c g d t.is64 c.lanes
        (fun _ v => (v : Int) = (match high with
            | none => imm.toInt
            | some h => (h ++ imm).toInt) % if t.is64 then 2 ^ 64 else 2 ^ 32)
        (fun _ => scoreB c.k.score b16Exact))

/-- R110, R111: `LEA64` adds a scaled index to a pair, `IADD64` two pairs, modulo 2^64.
R112: the uniform instructions, once for the gang, modulo 2^64, whatever MODE and the guard say.
R114: `VTOS` and `STOV` between a vector lane and a uniform register. -/
def Obligations.AddressAndUniformResults : Prop :=
  (∀ (d : Dst) (a b : Src) (s : State) (c : Gang),
       (∀ t : Ty, (Instr.lea64 d a b).wellFormed = true →
         Issues (.lea64 d a b) s c { regs := srcRegs b, ranges := (dstRegs d ++ srcRegs a).map fun r => (r, 2) } →
         c.ty = some t → t.w = 64 ∨ t.w = 32 ∨ t.w = 16 ∨ t.w = 8 →
         Completes (.lea64 d a b) s c 1 fun g => VecResult c g d true c.lanes
           (fun l v => (v : Int) = ((c.opndInt true a).at l.val +
             toInt (!decide (t.kind = .uint)) (max 32 t.w) ((c.opndInt t.is64 b).at l.val) * (t.w / 8 : Nat)) % 2 ^ 64)
           (fun l => intBound c.k.score [(c.opndInt true a).bndAt l.val, (c.opndInt t.is64 b).bndAt l.val])) ∧
       ((Instr.iadd64 d a b).wellFormed = true →
         Issues (.iadd64 d a b) s c { ranges := (dstRegs d ++ srcRegs a ++ srcRegs b).map fun r => (r, 2) } →
         Completes (.iadd64 d a b) s c 1 fun g => VecResult c g d true c.lanes
           (fun l v => v = ((c.opndInt true a).at l.val + (c.opndInt true b).at l.val) % 2 ^ 64)
           (fun l => intBound c.k.score [(c.opndInt true a).bndAt l.val, (c.opndInt true b).bndAt l.val]))) ∧
  ((∀ (s : State) (c : Gang),
          (∀ (i : Instr) (d a b : UReg) (f : Nat → Nat → Nat), uniformForm i = some (d, a, b, f) → Issues i s c { u := [d, a, b] } →
            Completes i s c 0 fun g => UniResult c g d (BitVec.ofNat 64 (f (c.view.uni a).1.toNat (c.view.uni b).1.toNat))
              (intBound c.k.score [(c.view.uni a).2, (c.view.uni b).2])) ∧
          (∀ d a : UReg, Issues (.smov d a) s c { u := [d, a] } →
            Completes (.smov d a) s c 0 fun g => UniResult c g d (c.view.uni a).1 (c.view.uni a).2) ∧
          (∀ (d : UReg) (imm : BitVec 16) (high : Option (BitVec 24)), Issues (.smovi d imm high) s c { u := [d] } →
            Completes (.smovi d imm high) s c 0 fun g => UniResult c g d (BitVec.ofInt 64 (match high with
                | none => imm.toInt
                | some h => (h ++ imm).toInt)) (scoreB c.k.score b16Exact)) ∧
          (∀ d a b : UReg, d.val % 2 = 0 → Issues (.sminmax d a b) s c { u := [d, uregNext d, a, b] } →
            Completes (.sminmax d a b) s c 0 fun g =>
              let x := (c.view.uni a).1
              let y := (c.view.uni b).1
              let β := intBound c.k.score [(c.view.uni a).2, (c.view.uni b).2]
              Frame c.view.score c.g g [] [d, uregNext d] [] ∧ g.s[d.val].toInt = min x.toInt y.toInt ∧
                g.s[(uregNext d).val].toInt = max x.toInt y.toInt ∧ g.sb[d.val] = β ∧ g.sb[(uregNext d).val] = β) ∧
          (∀ (p : PReg) (cond : BitVec 5) (a b : UReg), Issues (.scmp p cond a b) s c { u := [a, b], p := [p] } →
            Completes (.scmp p cond a b) s c 0 fun g => PredResult c g p c.all fun l =>
              cmpComb (cond.toNat / 8) (bit (c.view.pred p) l.val)
                (cmpTest (cond.toNat % 8) (c.view.uni a).1.toInt (c.view.uni b).1.toInt (c.view.uni a).1.toNat (c.view.uni b).1.toNat))) ∧
     (∀ (s : State) (c : Gang) (t : Ty), c.ty = some t →
          (∀ (d : UReg) (a : Src) (lane : BitVec 8) (l : Fin 32), Issues (.vtos d a lane) s c { regs := srcRegs a, u := [d] } →
            (lane ≠ 0xFF ∧ lane.toNat < c.k.width ∧ l.val = lane.toNat) ∨
              (lane = 0xFF ∧ bit c.lanes l.val = true ∧ ∀ j < l.val, bit c.lanes j = false) →
            Completes (.vtos d a lane) s c 0 fun g => UniResult c g d
              (if t.is64 then (c.opnd t a).val[l.val]
                else if t.kind = .sint ∧ t.w = 32 then (((c.opnd t a).val[l.val]).setWidth 32).signExtend 64
                else (c.opnd t a).val[l.val])
              (c.opnd t a).bnd[l.val]) ∧
          (∀ (d : UReg) (a : Src), Issues (.vtos d a 0xFF) s c { regs := srcRegs a, u := [d] } → c.lanes = 0 →
            exec (.vtos d a 0xFF) s = .next (passed s c)) ∧
          (∀ (d : Dst) (a : UReg), Issues (.stov d a) s c { regs := dstRegs d, u := [a] } →
            Completes (.stov d a) s c 0 fun g => VecResult c g d t.is64 c.lanes
              (fun _ v => v = (c.view.uni a).1.toNat % if t.is64 then 2 ^ 64 else 2 ^ 32) (fun _ => (c.view.uni a).2))))

end

/-! ### Control (R42, R70–R96, R433) -/

namespace Sys2Proof.Machine

/-- R77's guarded `BRA` for one slice: t the lanes that take the branch, n those that fall through. -/
def branchSlice (sl : Slice) (t n : BitVec 4) (target : W64) (targetOff : W32) : Slice × Bool :=
  let rejoin : StackEntry := { kind := .rejoin, jv := false, mask := sl.act, pc := 0 }
  let pend : StackEntry := { kind := .pending, jv := false, mask := t, pc := targetOff }
  if t ≠ 0 ∧ n ≠ 0 then ({ sl with act := n, stack := pend :: rejoin :: sl.stack }, false)
  else if t ≠ 0 then ({ sl with pc := target, stack := rejoin :: sl.stack }, true)
  else ({ sl with stack := rejoin :: sl.stack }, false)

/-- The lanes of a slice for which the guard holds (R71). -/
def guardLanes (c : Gang) (j : Nat) : BitVec 4 := maskOf 4 fun b => decide (b < c.k.perSlice) && bit c.guard (j * c.k.perSlice + b)

/-- Lanes e leave a slice's masks and its stack (R73). -/
def withoutLanes (sl : Slice) (e : BitVec 4) : Slice :=
  { sl with exited := sl.exited ||| e, act := sl.act &&& ~~~e
            stack := (sl.stack.map fun x => { x with mask := x.mask &&& ~~~e }).filter fun x => decide (x.mask ≠ 0) }

/-- What R73 says of a slice whose lanes e exit: whether the run goes on, and where an ended path continues. -/
def ExitsTo (s : State) (c : Gang) (e : BitVec 4) (old new : Slice) (leaves : Bool) : Prop :=
  let w := withoutLanes old e
  (w.act ≠ 0 → new = w ∧ leaves = false) ∧
  (w.act = 0 → leaves = true ∧ (w.stack = [] → new = w) ∧
    ∀ (t : StackEntry) (rest : List StackEntry), w.stack = t :: rest →
      (t.kind = .pending → new = { w with act := t.mask, stack := rest, pc := offPc (s.codeOf c.g).va t.pc }) ∧
      (t.kind = .rejoin → new = { w with act := t.mask, stack := rest
                                         pc := BitVec.ofNat 64 (nextHeader s c.g (offPc (s.codeOf c.g).va t.pc).toNat) }))

/-- Every slice of a group that has not exited is parked at a `REGANG` (R83). -/
def allParked (g : Group) (k : Kernel) : Prop :=
  g.liveSlices k ≠ 0 ∧ ∀ j : Fin 8, bit (g.liveSlices k) j.val = true → g.slices[j.val].parked = true

/-- The release of parked slices: all at once when none is missing, and not before (R83). -/
def Regangs (k : Kernel) (g h : Group) : Prop :=
  h = { g with slices := h.slices } ∧ (¬allParked g k → h = g) ∧
    (allParked g k → ∀ j : Fin 8, h.slices[j.val] =
      if bit (g.liveSlices k) j.val then { g.slices[j.val] with parked := false } else g.slices[j.val])

/-- The lanes of slice j that take a `BRX`, and their targets in the order of the lowest lane that holds each (R78). -/
def brxTargets (c : Gang) (a : Src) (j : Nat) (t : BitVec 4) : List Nat :=
  ((List.range 4).filter fun b => bit t b).foldl (fun l b =>
    if l.contains (c.low32 a (j * c.k.perSlice + b)).toNat then l else l ++ [(c.low32 a (j * c.k.perSlice + b)).toNat]) []

/-- R78 for one slice: the paths run in the order fall-through, then the targets. -/
def brxSlice (c : Gang) (a : Src) (va : Nat) (j : Nat) (sl : Slice) : Slice × Bool :=
  let t := sl.act &&& guardLanes c j
  let n := sl.act &&& ~~~t
  let tg := brxTargets c a j t
  let lanesTo (x : Nat) : BitVec 4 := t &&& maskOf 4 fun b => decide ((c.low32 a (j * c.k.perSlice + b)).toNat = x)
  let rejoin : StackEntry := { kind := .rejoin, jv := false, mask := sl.act, pc := 0 }
  let pend (x : Nat) : StackEntry := { kind := .pending, jv := false, mask := lanesTo x, pc := BitVec.ofNat 32 (x / 4) }
  if n ≠ 0 ∨ tg = [] then ({ sl with act := n, stack := tg.map pend ++ rejoin :: sl.stack }, false)
  else ({ sl with act := lanesTo (tg.headD 0), pc := BitVec.ofNat 64 (va + tg.headD 0), stack := (tg.drop 1).map pend ++ rejoin :: sl.stack }, true)

/-- The entries that R78 needs room for. -/
def brxNeed (c : Gang) (a : Src) (j : Nat) (sl : Slice) : Nat :=
  let t := sl.act &&& guardLanes c j
  let k := (brxTargets c a j t).length
  1 + k - if sl.act &&& ~~~t = 0 ∧ 0 < k then 1 else 0

/-- R79 for one slice whose stack is e :: rest: a pending path ends here, or the lanes rejoin and go on after the `JOIN`. -/
def JoinsTo (c : Gang) (va : Nat) (e : StackEntry) (rest : List StackEntry) (old new : Slice) (leaves : Bool) : Prop :=
  match e.kind with
  | .pending => leaves = true ∧ new = { old with stack := new.stack, act := e.mask, pc := offPc va e.pc } ∧
      new.stack.length = rest.length ∧
      (∀ (n : Nat) (x : StackEntry), rest[n]? = some x → x.kind = .rejoin →
        (∀ (m : Nat) (y : StackEntry), m < n → rest[m]? = some y → y.kind ≠ .rejoin) →
        new.stack[n]? = some { x with jv := true, pc := wordOff va c.pc }) ∧
      ∀ (n : Nat) (x : StackEntry), rest[n]? = some x →
        (x.kind ≠ .rejoin ∨ ∃ (m : Nat) (y : StackEntry), m < n ∧ rest[m]? = some y ∧ y.kind = .rejoin) → new.stack[n]? = some x
  | .rejoin => leaves = false ∧ new = { old with stack := rest, act := e.mask }
  | .call => False

/-- The words of a gang are not its run's last (R76). -/
def endsRun : Instr → Option Uses
  | .brx a => some { regs := srcRegs a }
  | .join | .call _ | .ret | .regang | .yield | .tret _ | .unseat => some {}
  | .loops d _ => some { u := [d] }
  | _ => none

end Sys2Proof.Machine

section

open Sys2Proof Sys2Proof.Machine

/-- R76, R404, R432: an instruction that ends its run traps with code 0x01, cause 3, anywhere else.
R42, R92, R93: `NOP` and the hints change nothing of what programs see: `NOP`, 0xFD and 0xFE go on with the state as it is, and
`IPREF` changes the instruction cache only, where the lines it names that lie in the code section and have a page take their places in
sets of eight, of which it names no more; `YIELD` sets its group back for up to fifteen
picks (R90).
R95, R39: `SETM` and `SETMR` write a legal MODE into every slice of the gang, whatever the guard; an illegal one traps with code 0x02 and
changes nothing. -/
def Obligations.RunsHintsAndModes : Prop :=
  (∀ (i : Instr) (u : Uses) (s : State) (c : Gang), endsRun i = some u → Issues i s c u → c.last = false →
       exec i s = .next (trapped s c (illegalTrap c 3))) ∧
  ((∀ (s : State) (c : Gang),
          (∀ i : Instr, (i = .nop ∨ (∃ x, i = .hintFd x) ∨ ∃ x, i = .hintFe x) → Issues i s c {} → exec i s = .next (passed s c)) ∧
          (∀ (count : BitVec 4) (off : BitVec 20), Issues (.ipref count off) s c {} →
            ∃ lines cache : List Nat, exec (.ipref count off) s =
                .next (passed (s.setCore c.core { s.core c.core with icache := cache }) c) ∧
              (∀ x, x ∈ lines ↔ ∃ n ≤ count.toNat,
                let l := (jumpTarget c.pc off).toNat / 128 + n
                (s.codeOf c.g).va / 128 ≤ l ∧ l * 128 < (s.codeOf c.g).va + (s.codeOf c.g).size ∧
                  codeLine s c.k.asid (128 * l) = some x) ∧
              (∀ x ∈ cache, x ∈ lines ∨ x ∈ (s.core c.core).icache) ∧
              ∀ x ∈ lines, (lines.filter fun y => y % 128 = x % 128).length ≤ 8 → x ∈ cache) ∧
          (Issues .yield s c {} → c.last = true → exec .yield s = .next (wentOn s c { c.g with yieldDue := 15, yieldFor := none } 0))) ∧
     (∀ (s : State) (c : Gang) (m : BitVec 24) (i : Instr) (u : Uses) (high : Bool),
          (i = .setm m ∧ u = {} ∧ high = false) ∨
            (∃ a, i = .setmr a ∧ u = { u := [a] } ∧ (c.view.uni a).1.setWidth 24 = m ∧ high = decide (2 ^ 24 ≤ (c.view.uni a).1.toNat)) →
          Issues i s c u →
          let legal := (tyOf (m.toNat / 2 ^ 19)).isSome && decide (m.toNat / 2 ^ 16 % 8 ≤ 5) && decide (m.toNat % 32 = 0) && !high
          (legal = true → Completes i s c 0 fun g => SliceResult c g 0 fun j =>
            ({ c.g.slices[j.val] with mode := m, oldMode := some (c.g.slices[j.val].mode, c.view.clock + 4, c.run.id) }, false)) ∧
          (legal = false → exec i s = .next (trapped s c (trapOf 0x02 [m.setWidth 64, c.lanes.setWidth 64])))))

/-- R77, R72: `BRA`, taken by every slice of the gang without a guard; with one, each slice parts its lanes by R77, and traps where its stack
has too little room.
R78: `BRX` sends each lane to its own target; a target that is not a multiple of 4 traps with code 0x04, a stack with too little room with
0x01.
R79: `JOIN` ends each slice's path and starts the next one; without an entry to join at, it traps. -/
def Obligations.BranchesAndJoins : Prop :=
  ((∀ (off : BitVec 24) (s : State) (c : Gang), Issues (.bra off) s c {} →
          let target := BitVec.ofInt 64 ((c.pc : Int) + 4 * off.toInt)
          let lanesOf (j : Fin 8) : BitVec 4 × BitVec 4 :=
            (c.g.slices[j.val].act &&& guardLanes c j.val, c.g.slices[j.val].act &&& ~~~guardLanes c j.val)
          let fits (j : Fin 8) : Prop := c.g.slices[j.val].stack.length + (if (lanesOf j).1 ≠ 0 ∧ (lanesOf j).2 ≠ 0 then 2 else 1) ≤ 16
          (bit c.mode 15 = false →
            Transfers (.bra off) s c true fun g m => SliceResult c g m fun j => ({ c.g.slices[j.val] with pc := target }, true)) ∧
          (bit c.mode 15 = true → (∀ j : Fin 8, bit c.run.slices j.val = true → fits j) →
            Transfers (.bra off) s c true fun g m => SliceResult c g m fun j =>
              branchSlice c.g.slices[j.val] (lanesOf j).1 (lanesOf j).2 target (wordOff (s.codeOf c.g).va target.toNat)) ∧
          (bit c.mode 15 = true → (∃ j : Fin 8, bit c.run.slices j.val = true ∧ ¬fits j) →
            exec (.bra off) s = .next (trapped s c (trapIllegal 4 0 c.lanes)))) ∧
     (∀ (a : Src) (s : State) (c : Gang), Issues (.brx a) s c { regs := srcRegs a } → c.last = true →
          let aligned := ∀ l < 32, bit c.lanes l = true → (c.low32 a l).toNat % 4 = 0
          let fits := ∀ j : Fin 8, bit c.run.slices j.val = true → c.g.slices[j.val].stack.length + brxNeed c a j.val c.g.slices[j.val] ≤ 16
          (aligned → fits → Transfers (.brx a) s c true fun g m => SliceResult c g m fun j =>
            brxSlice c a (s.codeOf c.g).va j.val c.g.slices[j.val]) ∧
          (aligned → ¬fits → exec (.brx a) s = .next (trapped s c (trapIllegal 4 0 c.lanes))) ∧
          (¬aligned → ∃ t : TrapInfo, t.code = 0x04 ∧ t.async = false ∧ exec (.brx a) s = .next (trapped s c t)))) ∧
  (∀ (s : State) (c : Gang), Issues .join s c {} → c.last = true →
       let joins (j : Fin 8) : Prop := ∃ e rest, c.g.slices[j.val].stack = e :: rest ∧ e.kind ≠ .call
       ((∀ j : Fin 8, bit c.run.slices j.val = true → joins j) →
         Transfers .join s c true fun g m => ∃ new, SliceResult c g m new ∧ ∀ j : Fin 8, bit c.run.slices j.val = true →
           ∀ e rest, c.g.slices[j.val].stack = e :: rest → JoinsTo c (s.codeOf c.g).va e rest c.g.slices[j.val] (new j).1 (new j).2) ∧
       ((∃ j : Fin 8, bit c.run.slices j.val = true ∧ ¬joins j) → exec .join s = .next (trapped s c (trapIllegal 7 0 c.lanes))))

/-- R80: `CALL` pushes the return point and `RET` goes back to it, whatever the guard; a full stack, or one without a call on top, traps.
R81: `LOOPS` counts its uniform register down and goes back while the count is not 0.
R82, R73, R83: `EXIT` ends the active lanes of each slice by R73, and may release the parked slices; the group's last exit starts the
release at kernel end, and waits for a release in progress.
R83: `REGANG` parks the gang's slices, and releases all that have not exited once every one is parked. -/
def Obligations.CallsLoopsAndExits : Prop :=
  ((∀ (s : State) (c : Gang), c.last = true →
          (∀ off : BitVec 24, Issues (.call off) s c {} →
            ((∀ j : Fin 8, bit c.run.slices j.val = true → c.g.slices[j.val].stack.length < 16) →
              Transfers (.call off) s c true fun g m => SliceResult c g m fun j =>
                let sl := c.g.slices[j.val]
                ({ sl with pc := BitVec.ofInt 64 ((c.pc : Int) + 4 * off.toInt)
                           stack := { kind := .call, jv := false, mask := sl.act, pc := wordOff (s.codeOf c.g).va c.nextHeader.toNat } :: sl.stack }, true)) ∧
            ((∃ j : Fin 8, bit c.run.slices j.val = true ∧ 16 ≤ c.g.slices[j.val].stack.length) →
              exec (.call off) s = .next (trapped s c (trapIllegal 4 0 c.lanes)))) ∧
          (Issues .ret s c {} →
            let calls (j : Fin 8) : Prop := ∃ e rest, c.g.slices[j.val].stack = e :: rest ∧ e.kind = .call
            ((∀ j : Fin 8, bit c.run.slices j.val = true → calls j) →
              Transfers .ret s c true fun g m => ∃ new, SliceResult c g m new ∧ ∀ j : Fin 8, bit c.run.slices j.val = true →
                ∀ e rest, c.g.slices[j.val].stack = e :: rest →
                  new j = ({ c.g.slices[j.val] with stack := rest, act := e.mask, pc := offPc (s.codeOf c.g).va e.pc }, true)) ∧
            ((∃ j : Fin 8, bit c.run.slices j.val = true ∧ ¬calls j) → exec .ret s = .next (trapped s c (trapIllegal 7 0 c.lanes))))) ∧
     (∀ (d : UReg) (off : BitVec 16) (s : State) (c : Gang), Issues (.loops d off) s c { u := [d] } → c.last = true → c.run.slices ≠ 0 →
          let n := (c.view.uni d).1.toNat
          let bound := if c.k.score then b16Untracked else if (c.view.uni d).2 = b16Exact then b16Exact else b16Unbounded
          (n = 0 → exec (.loops d off) s = .next (passed s c)) ∧
          (n = 1 → Completes (.loops d off) s c 0 fun g => UniResult c g d 0 bound) ∧
          (1 < n → Transfers (.loops d off) s c true fun g m => m = c.run.slices ∧ ∃ h,
            UniResult c h d (BitVec.ofNat 64 (n - 1)) bound ∧ g = { h with slices := g.slices } ∧ ∀ j : Fin 8, g.slices[j.val] =
              if bit c.run.slices j.val then { c.g.slices[j.val] with pc := BitVec.ofInt 64 ((c.pc : Int) + 4 * off.toInt) } else c.g.slices[j.val]))) ∧
  ((∀ (s : State) (c : Gang), Issues .exit s c {} →
          ∃ (g0 g : Group) (m : BitVec 8) (new : Fin 8 → Slice × Bool), SliceResult c g0 m new ∧
            (∀ j : Fin 8, bit c.run.slices j.val = true →
              ExitsTo s c (c.g.slices[j.val].act &&& guardLanes c j.val) c.g.slices[j.val] (new j).1 (new j).2) ∧
            Regangs c.k g0 g ∧
            (g.liveSlices c.k ≠ 0 → exec .exit s = .next (leftRun s c g m false)) ∧
            (g.liveSlices c.k = 0 → c.g.release = none → c.g.batchEmpty = true ∨ c.g.mx.length < 62 → exec .exit s =
              .next (tick (advance (settleBarriers (s.setGroup c.gid (lastExit g c.run.pc)) g) c.gid c.words m false)))) ∧
     (∀ (s : State) (c : Gang), Issues .regang s c {} → c.last = true →
          Transfers .regang s c false fun g m => m = c.run.slices ∧ ∃ g0, Regangs c.k g0 g ∧ g0 = { c.g with slices := g0.slices } ∧
            ∀ j : Fin 8, g0.slices[j.val] =
              if bit c.run.slices j.val then { c.g.slices[j.val] with parked := true, pc := c.nextHeader } else c.g.slices[j.val]))

/-- R433, R94, R42: `TRAP` and `BRKP` trap with codes 0x10 and 0x11 where a lane is active, and act as `NOP` where none is; the opcodes that name
no instruction trap with code 0x01, cause 0. -/
def Obligations.SoftwareTraps : Prop :=
  ∀ (s : State) (c : Gang),
    (∀ (n : BitVec 16) (i : Instr) (code : BitVec 8), (i = .trap n ∧ code = 0x10) ∨ (i = .brkp n ∧ code = 0x11) → Issues i s c {} →
      (c.lanes ≠ 0 → exec i s = .next (trapped s c (trapOf code [n.setWidth 64, c.lanes.setWidth 64]))) ∧
      (c.lanes = 0 → exec i s = .next (passed s c))) ∧
    ∀ i : Instr, ((∃ x, i = .illegalOpcode x) ∨ ∃ op x, i = .reservedOpcode op x) → Issues i s c {} →
      exec i s = .next (trapped s c (illegalTrap c 0))

end

/-! ### Numbers, bounds and floating point (R118–R182) -/

namespace Sys2Proof.Machine

/-- The sign of an infinity. -/
def infOf : Val → Option Bool
  | .inf n => some n
  | .nan _ _ | .fin _ _ => none

/-- The sign of an infinite product of operands that are not NaN, nor 0 and infinite. -/
def prodInf (x y : Val) : Option Bool := if (infOf x).isSome || (infOf y).isSome then some (x.neg != y.neg) else none

/-- The operands of an arithmetic instruction of R164: d, a, b and the addend, and whether it multiplies. -/
def floatForm : Instr → Option (Dst × Src × Src × Src × Bool)
  | .fadd d a b _ | .fsub d a b _ => some (d, a, b, .zero, false)
  | .fmul d a b _ => some (d, a, b, .zero, true)
  | .fma d a b _ => some (d, a, b, dstSrc d, true)
  | .ffma d a b (some m) => some (d, a, b, m.c, true)
  | _ => none

/-- The modifiers of its `CXP` word (R51). -/
def modifiersOf : Instr → Cxp
  | .fadd _ _ _ m | .fsub _ _ _ m | .fmul _ _ _ m | .fma _ _ _ m | .ffma _ _ _ m | .fmin _ _ _ m | .fmax _ _ _ m | .fcmp _ _ _ _ m
  | .fdot2 _ _ _ m | .fdot4 _ _ _ m => m.getD cxpNone
  | _ => cxpNone

/-- The exact real result of R164's pseudocode. -/
def exactReal (i : Instr) (x y z : Rat) : Rat := match i with
  | .fadd _ _ _ _ => x + y
  | .fsub _ _ _ _ => x - y
  | .fmul _ _ _ _ => x * y
  | _ => x * y + z

/-- The infinite terms of the sum that an arithmetic instruction forms. -/
def infTerms (i : Instr) (x y z : Val) : Option Bool × Option Bool := match i with
  | .fadd _ _ _ _ => (infOf x, infOf y)
  | .fsub _ _ _ _ => (infOf x, infOf y.negate)
  | .fmul _ _ _ _ => (prodInf x y, none)
  | _ => (prodInf x y, infOf z)

/-- The bound terms of the input bounds (R132, R166). -/
def boundTerms (i : Instr) (x y z : FArg) : Bnd := match i with
  | .fadd _ _ _ _ | .fsub _ _ _ _ => x.β.add y.β
  | .fmul _ _ _ _ => mulTerms (ratAbs x.v.real) x.β (ratAbs y.v.real) y.β
  | _ => (mulTerms (ratAbs x.v.real) x.β (ratAbs y.v.real) y.β).add z.β

/-- The sign of an exact zero result (R162): of a product its factors' exclusive or, of a sum + under every rounding code but RDN. -/
def zeroNeg (i : Instr) (rnd : Nat) (x y : Val) : Bool := match i with
  | .fmul _ _ _ _ => x.neg != y.neg
  | _ => rnd == 3

/-- R164–R166 for one sub-element at a tier, of operands as read. -/
def ArithElem (i : Instr) (mul : Bool) (f : Fmt) (rnd tier : Nat) (sat ftz : Bool) (x y z : FArg) (e : ElemOut) : Prop :=
  let nan := x.v.isNan || y.v.isNan || z.v.isNan
  let snan := x.snan || y.snan || z.snan
  let zeroInf := mul && ((x.v.isZero && (infOf y.v).isSome) || (y.v.isZero && (infOf x.v).isSome))
  let unbounded := e.bnd = b16Unbounded ∨ e.bnd = b16Untracked
  let xt := if mul then truncSig (tierKeep f tier) x.v else x.v
  let yt := if mul then truncSig (tierKeep f tier) y.v else y.v
  let q := exactReal i xt.real yt.real z.v.real
  let lost := if xt ≠ x.v ∨ yt ≠ y.v then tierTerm f tier * ratAbs (x.v.real * y.v.real) else 0
  (nan = true ∨ zeroInf = true → e.bits = f.canonicalNan ∧ e.flags = flagIf (snan || zeroInf) flInvalid ∧ unbounded) ∧
  (nan = false → zeroInf = false →
    match infTerms i x.v y.v z.v with
    | (some a, some b) =>
      if a = b then e.bits = f.bitsOf (writeSpecial f sat (.inf a)).1 true ∧ e.flags = (writeSpecial f sat (.inf a)).2 ∧ unbounded
      else e.bits = f.canonicalNan ∧ e.flags = flInvalid ∧ unbounded
    | (some a, none) | (none, some a) =>
      e.bits = f.bitsOf (writeSpecial f sat (.inf a)).1 true ∧ e.flags = (writeSpecial f sat (.inf a)).2 ∧ unbounded
    | (none, none) => e = roundOut f rnd sat ftz (.real q (zeroNeg i rnd xt yt)) (boundTerms i x y z) lost)

/-- R138: the tier of a lane's multiply, where `fits t` says that every active lane of its slice stays within the budget at tier t. -/
def TierChosen (c : Gang) (f : Fmt) (mul : Bool) (fits : Nat → Prop) (tier : Nat) : Prop :=
  if mul = true ∧ (f = .f32 ∨ f = .f64) then
    if modeTier c.mode ≠ 0 then tier = modeTier c.mode - 1
    else if c.untracked = true then tier = 0
    else (fits 2 → tier = 2) ∧ (¬fits 2 → fits 1 → tier = 1) ∧ (¬fits 2 → ¬fits 1 → tier = 0)
  else tier = 0

/-- Sub-element k of lane l of a source as a float operand (R34, R51, R121). -/
def floatArg (c : Gang) (t : Ty) (f : Fmt) (a : Src) (abs neg exact : Bool) (l k : Nat) : FArg :=
  fArg f (modeFtz c.mode) abs neg exact ((c.opnd t a).bndAt l) (elem ((c.opnd t a).at l) k t.w)

/-- R168: the smaller or larger of two operands that are not NaN; −0 counts as less than +0. -/
def IsExtreme (smaller : Bool) (x y r : Val) : Prop :=
  (r = x ∨ r = y) ∧
  (x = .inf smaller ∨ y = .inf smaller → r = .inf smaller) ∧
  (x = .inf (!smaller) → r = y) ∧ (y = .inf (!smaller) → r = x) ∧
  (x.isFinite = true → y.isFinite = true → r.real = if smaller then min x.real y.real else max x.real y.real) ∧
  (x.isZero = true → y.isZero = true → r.neg = if smaller then x.neg || y.neg else x.neg && y.neg)

/-- R169's tests of two operands. -/
def fcmpHolds (code : Nat) (x y : Val) : Prop :=
  let nan := x.isNan = true ∨ y.isNan = true
  let eq := x = y ∨ (x.isFinite = true ∧ y.isFinite = true ∧ x.real = y.real)
  let lt := (x = .inf true ∧ y ≠ .inf true) ∨ (y = .inf false ∧ x ≠ .inf false) ∨ (x.isFinite = true ∧ y.isFinite = true ∧ x.real < y.real)
  match code with
  | 0 => ¬nan ∧ eq
  | 1 => nan ∨ ¬eq
  | 2 => ¬nan ∧ lt
  | 3 => ¬nan ∧ (lt ∨ eq)
  | 4 => ¬nan ∧ ¬lt ∧ ¬eq
  | 5 => ¬nan ∧ ¬lt
  | 6 => ¬nan
  | _ => nan

/-- R169's column of what raises invalid. -/
def fcmpInvalid (code : Nat) (x y : FArg) : Bool :=
  if 2 ≤ code ∧ code ≤ 5 then x.v.isNan || y.v.isNan else x.snan || y.snan

/-- The class of an operand, by its bit in the mask of `FCLASS` (R170). -/
def HasClass (f : Fmt) (v : Val) (n : Nat) : Prop := match n with
  | 0 => v.isNan = true
  | 1 => v = .inf true
  | 2 => v.neg = true ∧ v.isFinite = true ∧ pow2 f.emin ≤ ratAbs v.real
  | 3 => v.neg = true ∧ v.isFinite = true ∧ v.isZero = false ∧ ratAbs v.real < pow2 f.emin
  | 4 => v.isZero = true
  | 5 => v.neg = false ∧ v.isFinite = true ∧ v.isZero = false ∧ ratAbs v.real < pow2 f.emin
  | 6 => v.neg = false ∧ v.isFinite = true ∧ pow2 f.emin ≤ ratAbs v.real
  | _ => v = .inf false

/-- A magnitude that a format represents (R118). -/
def Representable (f : Fmt) (q : Rat) : Prop := ∃ x, x < 2 ^ f.width ∧ f.decode x = .fin false q

/-- R161: r is the rounding of q ≥ 0, of sign neg, among the multiples of u: the neighbours of q, chosen by the rounding code. -/
def RoundsTo (rnd : Nat) (neg : Bool) (q u r : Rat) : Prop :=
  ∃ n : Nat, (n : Rat) * u ≤ q ∧ q < (n + 1 : Nat) * u ∧
    (q = (n : Rat) * u → r = q) ∧
    (q ≠ (n : Rat) * u →
      let down : Rat := n * u
      let up : Rat := (n + 1 : Nat) * u
      match rnd with
      | 0 => (q - down < up - q → r = down) ∧ (up - q < q - down → r = up) ∧ (q - down = up - q → r = if n % 2 = 0 then down else up)
      | 1 => r = down
      | 2 => r = if neg then down else up
      | 3 => r = if neg then up else down
      | 4 => r = if q - down < up - q then down else up
      | _ => r = if n % 2 = 0 then up else down)

end Sys2Proof.Machine

section

open Sys2Proof Sys2Proof.Machine

/-- R118, R162: every encoding of a format that is no NaN is the encoding of its value, and a signalling NaN is one whose top fraction bit is 0, in the
formats that have one.
R161, R119, R121, R179: a magnitude rounds to a neighbour on the grid of its exponent, by the rounding code; it overflows above the largest
finite value, is inexact where it changes, and underflows where it is tiny and inexact; a subnormal result is flushed under ftz. -/
def Obligations.FormatsAndRounding : Prop :=
  (∀ (f : Fmt) (x : Nat), x < 2 ^ f.width →
       ((f.decode x).isNan = false → f.encode (f.decode x) = x) ∧
       ((f.decode x).isSnan = true ↔ (f = .f64 ∨ f = .f32 ∨ f = .f16 ∨ f = .bf16) ∧ (f.decode x).isNan = true ∧ x.testBit (f.frac - 1) = false)) ∧
  (∀ (f : Fmt) (rnd : Nat) (sat ftz neg : Bool) (q : Rat), f ≠ .e8m0 → rnd ≤ 5 → 0 < q →
       ∃ r : Rat, RoundsTo rnd neg q (pow2 (max (floorLog2 q) f.emin - f.frac)) r ∧
         let o := roundFmt f rnd sat ftz neg q
         (f.largest < r → o.val = (overflowVal f rnd sat neg).1 ∧ o.flags = (overflowVal f rnd sat neg).2) ∧
         (r ≤ f.largest → ¬(ftz = true ∧ f.flushes = true ∧ r ≠ 0 ∧ r < pow2 f.emin) → o.val = .fin neg r ∧ Representable f r ∧
           (bit o.flags 4 = true ↔ r ≠ q) ∧ (o.rnd = 0 ↔ r = q) ∧ bit o.flags 2 = false ∧
           (bit o.flags 3 = true → r ≠ q ∧ q < pow2 f.emin)) ∧
         (r ≤ f.largest → ftz = true ∧ f.flushes = true ∧ r ≠ 0 ∧ r < pow2 f.emin → o.val = .fin neg 0 ∧ o.flush = r ∧ o.flags = flUnderflow ||| flInexact))

/-- R124, R125: rounding a bound into B16 is upward, to the least encoding that covers it.
R123, R134: a lane of packed results: each sub-element in its place, the flags of all, and the largest of their bounds. -/
def Obligations.BoundsAndPackedResults : Prop :=
  (∀ q : Rat, 0 ≤ q →
       (∀ p, Bnd.of (roundUpB16 q) = .fin p → q ≤ p) ∧ isUntracked (roundUpB16 q) = false ∧
       ∀ (b : B16) (p : Rat), Bnd.of b = .fin p → q ≤ p → (roundUpB16 q).toNat ≤ b.toNat) ∧
  (∀ (t : Ty) (m : Nat) (untracked : Bool) (tier : Nat) (e : Nat → ElemOut), tyOf m = some t →
       let o := laneOut t untracked tier e
       (∀ k < t.n, elem o.val.toNat k t.w = (e k).bits % 2 ^ t.w) ∧ o.val.toNat < 2 ^ (t.n * t.w) ∧
       (∀ j < 9, o.flags.getLsbD j = true ↔ ∃ k < t.n, (e k).flags.getLsbD j = true) ∧
       (untracked = true → o.bnd = b16Untracked) ∧
       (untracked = false → (∀ k < t.n, isUntracked (e k).bnd = false) →
         (∀ k < t.n, (e k).bnd.toNat ≤ o.bnd.toNat) ∧ ∃ k < t.n, o.bnd = (e k).bnd))

/-- R164–R166, R138, R160: the float arithmetic of every type that R160 gives it, at the tier that R138 chooses for each slice; an `FFMA` without
its `CXP` word traps with code 0x01, cause 3 (R51).
R167: `FDOT2` and `FDOT4` round the exact sum of the products and of the F32 addend once. -/
def Obligations.FloatArithmeticAndDotProducts : Prop :=
  ((∀ (i : Instr) (d : Dst) (a b z : Src) (mul : Bool) (s : State) (c : Gang), floatForm i = some (d, a, b, z, mul) →
         Issues i s c { regs := dstRegs d ++ srcRegs a ++ srcRegs b ++ srcRegs z } →
         (∀ (t : Ty) (f : Fmt), c.ty = some t → stdFloat t = some f →
           ∃ (e : Nat → Nat → Nat → ElemOut) (tier : Nat → Nat),
             (∀ τ l k, l < 32 → k < t.n → ArithElem i mul f (modeRnd c.mode) τ (modeSat c.mode) (modeFtz c.mode)
               (floatArg c t f a (modifiersOf i).absA (modifiersOf i).negA (modifiersOf i).exact l k)
               (floatArg c t f b (modifiersOf i).absB (modifiersOf i).negB (modifiersOf i).exact l k)
               (floatArg c t f z false (modifiersOf i).negC (modifiersOf i).exact l k) (e τ l k)) ∧
             (∀ l < 32, TierChosen c f mul (fun τ => ∀ m < 32, bit c.lanes m = true → m / c.k.perSlice = l / c.k.perSlice →
               exceeds (laneOut t c.untracked τ (e τ m)).bnd (c.view.budget (l / c.k.perSlice)) = false) (tier l)) ∧
             Delivers i s c true t.is64 (if t.is64 then 1 else 0) d c.lanes fun l => laneOut t c.untracked (tier l) (e (tier l) l)) ∧
         (∀ t : Ty, c.ty = some t → stdFloat t = none → exec i s = .next (trapped s c (modeTrap c)))) ∧
     ∀ (d : Dst) (a b : Src) (s : State) (c : Gang), Issues (.ffma d a b none) s c {} →
       exec (.ffma d a b none) s = .next (trapped s c (illegalTrap c 3))) ∧
  (∀ (i : Instr) (d : Dst) (a b : Src) (m : Option Cxp) (s : State) (c : Gang) (t : Ty) (f : Fmt),
       (i = .fdot2 d a b m ∧ (f = .f16 ∨ f = .bf16)) ∨ (i = .fdot4 d a b m ∧ (f = .e4m3 ∨ f = .e5m2)) →
       Issues i s c { regs := dstRegs d ++ srcRegs a ++ srcRegs b } → c.ty = some t → t.kind = .flt f →
       ∃ e : Nat → ElemOut,
         (∀ l < 32,
           let x (k : Nat) := floatArg c t f a (modifiersOf i).absA (modifiersOf i).negA (modifiersOf i).exact l k
           let y (k : Nat) := floatArg c t f b (modifiersOf i).absB (modifiersOf i).negB (modifiersOf i).exact l k
           let z := fArg .f32 (modeFtz c.mode) false (modifiersOf i).negC (modifiersOf i).exact ((c.opnd tyF32 (dstSrc d)).bndAt l)
             ((c.opnd tyF32 (dstSrc d)).at l % 2 ^ 32)
           let q := ((List.range t.n).map fun k => (x k).v.real * (y k).v.real).foldl (· + ·) 0 + z.v.real
           let terms := ((List.range t.n).foldl (fun (β : Bnd) k => β.add (mulTerms (ratAbs (x k).v.real) (x k).β (ratAbs (y k).v.real) (y k).β)) (.fin 0)).add z.β
           ((∃ k < t.n, (x k).v.isNan = true ∨ (y k).v.isNan = true) ∨ z.v.isNan = true → (e l).bits = 0x7FC00000) ∧
           (z.snan = true ∨ (∃ k < t.n, (x k).snan = true ∨ (y k).snan = true) → (e l).bits = 0x7FC00000 ∧ (e l).flags = flInvalid) ∧
           ((∀ k < t.n, (x k).v.isFinite = true ∧ (y k).v.isFinite = true) → z.v.isFinite = true → q ≠ 0 →
             e l = roundOut .f32 (modeRnd c.mode) (modeSat c.mode) (modeFtz c.mode) (.real q false) terms 0)) ∧
         Delivers i s c true false 0 d c.lanes fun l => laneOut tyF32 c.untracked 0 fun _ => e l)

/-- R168: `FMIN` and `FMAX`. -/
def Obligations.FloatMinMaxResults : Prop :=
  ∀ (d : Dst) (a b : Src) (m : Option Cxp) (smaller : Bool) (i : Instr) (s : State) (c : Gang) (t : Ty) (f : Fmt),
    i = (if smaller then .fmin d a b m else .fmax d a b m) → Issues i s c { regs := dstRegs d ++ srcRegs a ++ srcRegs b } →
    c.ty = some t → stdFloat t = some f →
    ∃ e : Nat → Nat → ElemOut,
      (∀ l k, l < 32 → k < t.n →
        let x := floatArg c t f a (modifiersOf i).absA (modifiersOf i).negA (modifiersOf i).exact l k
        let y := floatArg c t f b (modifiersOf i).absB (modifiersOf i).negB (modifiersOf i).exact l k
        (e l k).flags = flagIf (x.snan || y.snan) flInvalid ∧ (e l k).bnd = (x.β.max y.β).toB16 ∧
        (x.v.isNan = true → y.v.isNan = true → (e l k).bits = f.canonicalNan) ∧
        (x.v.isNan = true → y.v.isNan = false → (e l k).bits = f.encode y.v) ∧
        (x.v.isNan = false → y.v.isNan = true → (e l k).bits = f.encode x.v) ∧
        (x.v.isNan = false → y.v.isNan = false → ∃ r, IsExtreme smaller x.v y.v r ∧ (e l k).bits = f.encode r)) ∧
      Delivers i s c true t.is64 (if t.is64 then 1 else 0) d c.lanes fun l => laneOut t c.untracked 0 (e l)

/-- R169: `FCMP` writes its predicate by R108's combination, and raises invalid by R169's table. -/
def Obligations.FloatCompareResults : Prop :=
  ∀ (p : PReg) (cond : BitVec 5) (a b : Src) (m : Option Cxp) (s : State) (c : Gang) (t : Ty) (f : Fmt),
    Issues (.fcmp p cond a b m) s c { regs := srcRegs a ++ srcRegs b, p := [p] } → c.ty = some t → stdFloat t = some f →
    let x (l k : Nat) := floatArg c t f a (m.getD cxpNone).absA (m.getD cxpNone).negA (m.getD cxpNone).exact l k
    let y (l k : Nat) := floatArg c t f b (m.getD cxpNone).absB (m.getD cxpNone).negB (m.getD cxpNone).exact l k
    let invalid (l : Nat) : Bool := (List.range t.n).any fun k => fcmpInvalid (cond.toNat % 8) (x l k) (y l k)
    let anyInvalid : Prop := ∃ l < 32, bit c.lanes l = true ∧ invalid l = true
    (anyInvalid → bit c.g.fpEnable 0 = true → ∃ (exc : BitVec 5) (mask : BitVec 32),
      exec (.fcmp p cond a b m) s = .next (trapped s c (trapFloat mask exc)) ∧ exc = 1 ∧ ∀ l < 32, bit mask l = (bit c.lanes l && invalid l)) ∧
    (¬(anyInvalid ∧ bit c.g.fpEnable 0 = true) → ∃ (holds : Nat → Bool) (fl : BitVec 9),
      (∀ l < 32, holds l = true ↔ ∀ k < t.n, fcmpHolds (cond.toNat % 8) (x l k).v (y l k).v) ∧ (fl = if fl = 0 then 0 else flInvalid) ∧
      (fl ≠ 0 ↔ anyInvalid) ∧
      Completes (.fcmp p cond a b m) s c (if t.is64 then 1 else 0) fun g => PredResult { c with g := c.g.stick fl } g p c.lanes fun l =>
        cmpComb (cond.toNat / 8) (bit (c.view.pred p) l.val) (holds l.val))

/-- R170, R173: `FCLASS` writes all ones where the class of the sub-element is in its mask, and all zeros elsewhere; `FCPYS` joins the
magnitude bits of a with the sign bit of b.
R171, R172, R160: `FRND` rounds to an integral value by MODE rnd, and traps with code 0x02 under round-to-odd; `FSCALE` rounds x · 2^k
once; beyond exponents at which every format overflows or underflows alike, k stands at ±5000. -/
def Obligations.FloatClassSignRoundAndScale : Prop :=
  ((∀ (d : Dst) (a : Src) (mask : BitVec 8) (s : State) (c : Gang) (t : Ty) (f : Fmt),
         Issues (.fclass d a mask) s c { regs := dstRegs d ++ srcRegs a } → c.ty = some t → stdFloat t = some f →
         Completes (.fclass d a mask) s c (if t.is64 then 1 else 0) fun g => VecResult c g d t.is64 c.lanes
           (fun l v => ∀ k < t.n, ∃ n < 8, HasClass f (f.decode (elem ((c.opnd t a).at l.val) k t.w)) n ∧
             elem v k t.w = if bit mask n then 2 ^ t.w - 1 else 0)
           (fun l => intBound c.k.score [(c.opnd t a).bndAt l.val])) ∧
     ∀ (d : Dst) (a b : Src) (s : State) (c : Gang) (t : Ty) (f : Fmt),
       Issues (.fcpys d a b) s c { regs := dstRegs d ++ srcRegs a ++ srcRegs b } → c.ty = some t → stdFloat t = some f →
       ∃ e : Nat → Nat → ElemOut,
         (∀ l k, l < 32 → k < t.n →
           let x := elem ((c.opnd t a).at l) k t.w
           let y := elem ((c.opnd t b).at l) k t.w
           let βa := (c.opnd t a).bndAt l
           let βb := (c.opnd t b).bndAt l
           (∀ j < t.w, (e l k).bits.testBit j = if j = t.w - 1 then y.testBit j else x.testBit j) ∧ (e l k).flags = 0 ∧
           (isUntracked βa = true ∨ isUntracked βb = true → (e l k).bnd = b16Untracked) ∧
           (isUntracked βa = false → βb = b16Exact → (f.decode x).isFinite = true → (e l k).bnd = (Bnd.of βa).toB16)) ∧
         Delivers (.fcpys d a b) s c true t.is64 (if t.is64 then 1 else 0) d c.lanes fun l => laneOut t c.untracked 0 (e l)) ∧
  ((∀ (d : Dst) (a : Src) (s : State) (c : Gang) (t : Ty) (f : Fmt),
         Issues (.frnd d a) s c { regs := dstRegs d ++ srcRegs a } → c.ty = some t → stdFloat t = some f →
         (modeRnd c.mode = 5 → exec (.frnd d a) s = .next (trapped s c (modeTrap c))) ∧
         (modeRnd c.mode ≠ 5 → ∃ e : Nat → Nat → ElemOut,
           (∀ l k, l < 32 → k < t.n →
             let x := floatArg c t f a false false false l k
             (∀ n q, x.v = .fin n q → ∃ r : Nat, (e l k).bits = f.encode (.fin n r) ∧ (e l k).flags = 0 ∧
               (modeRnd c.mode ≤ 4 → RoundsTo (modeRnd c.mode) n q 1 r) ∧ (e l k).bnd = (x.β.add (.fin (ratAbs (q - r)))).toB16) ∧
             (∀ n, x.v = .inf n → (e l k).bits = f.encode (.inf n) ∧ (e l k).flags = 0) ∧
             (x.v.isNan = true → (e l k).bits = f.canonicalNan ∧ (e l k).flags = flagIf x.snan flInvalid)) ∧
           Delivers (.frnd d a) s c true t.is64 (if t.is64 then 1 else 0) d c.lanes fun l => laneOut t c.untracked 0 (e l))) ∧
     ∀ (d : Dst) (a b : Src) (s : State) (c : Gang) (t : Ty) (f : Fmt),
       Issues (.fscale d a b) s c { regs := dstRegs d ++ srcRegs a ++ srcRegs b } → c.ty = some t → stdFloat t = some f →
       ∃ e : Nat → Nat → ElemOut,
         (∀ l k, l < 32 → k < t.n →
           let x := floatArg c t f a false false false l k
           let n : Int := max (-5000) (min 5000 (toInt true (min t.w 32) (elem ((c.opnd t b).at l) k (min t.w 32))))
           let ρ := (c.opnd t b).bndAt l
           let β : Bnd := if isUntracked ρ then .untr else if ρ = b16Exact then x.β.scale (pow2 n) else (x.β.scale (pow2 n)).add .unb
           (x.v.isNan = true → (e l k).bits = f.canonicalNan ∧ (e l k).flags = flagIf x.snan flInvalid) ∧
           (∀ sg, x.v = .inf sg → (e l k).bits = f.bitsOf (writeSpecial f (modeSat c.mode) (.inf sg)).1 true) ∧
           (x.v.isFinite = true → e l k = roundOut f (modeRnd c.mode) (modeSat c.mode) (modeFtz c.mode) (.real (x.v.real * pow2 n) x.v.neg) β 0)) ∧
         Delivers (.fscale d a b) s c true t.is64 (if t.is64 then 1 else 0) d c.lanes fun l => laneOut t c.untracked 0 (e l))

end

/-! ### Bounds, special functions, conversions (R149–R196) -/

namespace Sys2Proof.Machine

/-- A long-latency word's results p, judged at its issue from the lanes' results `out`: an enabled exception or a breach that traps leaves a trap in
place of the writes ws; else they wait with the flags, and with the card of a flagged breach (R46, R141, R146, R177, R180). -/
structure Waits (c : Gang) (kind : ResultKind) (tested : Bool) (lanes : BitVec 32) (out : Nat → LaneOut) (ws : List RegWrite) (p : Pending) : Prop where
  unit : p.kind = kind ∧ p.slices = c.run.slices ∧ p.quarter = c.g.quarter
  excepts : (∃ l < 32, bit lanes l = true ∧ enabledOf c out l ≠ 0) → p.writes = [] ∧ ∃ t, p.trap = some t ∧ t.code = 0x0B
  breachTraps : (∀ l < 32, bit lanes l = true → enabledOf c out l = 0) → tested = true → (∃ l, breaches c lanes out l) → modeBnd c.mode = 2 →
    p.writes = [] ∧ ∃ t, p.trap = some t ∧ t.code = 0x08
  breachFlags : (∀ l < 32, bit lanes l = true → enabledOf c out l = 0) → tested = true → (∃ l, breaches c lanes out l) → modeBnd c.mode = 1 →
    p.writes = ws ∧ p.trap = none ∧ p.sticky = allFlags lanes (fun l => (out l).flags) ||| flBreach ∧ p.card.isSome = true
  writes : (∀ l < 32, bit lanes l = true → enabledOf c out l = 0) → (tested = false ∨ (∀ l, ¬breaches c lanes out l) ∨ modeBnd c.mode = 0) →
    p.writes = ws ∧ p.trap = none ∧ p.sticky = allFlags lanes (fun l => (out l).flags) ∧ p.card = none

/-- From h to g the vector register writes ws have been made, and nothing else. -/
structure Wrote (score : Bool) (h g : Group) (ws : List RegWrite) : Prop where
  frame : Frame score h g (ws.filterMap fun w => match w with
    | .v r _ _ => some r
    | .u _ _ _ | .p _ _ _ => none) [] []
  lines : ∀ r L m, RegWrite.v r L m ∈ ws → (∀ L' m', RegWrite.v r L' m' ∈ ws → L' = L ∧ m' = m) → ∀ l : Fin 32,
    (g.line score r).val[l.val] = (if bit m l.val then L.val[l.val] else (h.line score r).val[l.val]) ∧
    (g.line score r).bnd[l.val] = (if bit m l.val then L.bnd[l.val] else (h.line score r).bnd[l.val])

/-- A conversion comes to the results `outs` of its destinations: through the conversion unit where a type of 8 bits or less takes part, else in
the clocks of its issue (R46, R189, R487). -/
structure Converts (i : Instr) (s : State) (c : Gang) (n : Nat) (long wide discard : Bool) (outs : List (Dst × (Nat → LaneOut))) : Prop where
  judged : ∃ all : Nat → LaneOut,
    (∀ l, (all l).flags = outs.foldl (fun a o => a ||| (o.2 l).flags) 0 ∧
      (all l).bnd = outs.foldl (fun a o => maxB16 a (o.2 l).bnd) (if c.untracked then b16Untracked else b16Exact)) ∧
    let ws := outs.flatMap fun o => dstWrites wide o.1 (outOpnd o.2) c.lanes
    let quiet := ∀ l < 32, bit c.lanes l = true → enabledOf c all l = 0
    let fl := allFlags c.lanes fun l => (all l).flags
    (long = true → (discard = false → flagFree c) → ∃ p, Waits c .conv true c.lanes all ws p ∧
      Launches i s c n p (!discard) (discard || decide (modeBnd c.mode = 2) || decide (c.g.fpEnable ≠ 0))) ∧
    (long = false → ¬quiet → ∃ t : TrapInfo, t.code = 0x0B ∧ exec i s = .next (trapped s c t)) ∧
    (long = false → quiet → (∃ l, breaches c c.lanes all l) → modeBnd c.mode = 2 → ∃ t : TrapInfo, t.code = 0x08 ∧ exec i s = .next (trapped s c t)) ∧
    (long = false → quiet → (∃ l, breaches c c.lanes all l) → modeBnd c.mode = 1 → ∃ (g : Group) (words : List W64),
      exec i s = .next (tick (advance (writeCard (spend (s.setGroup c.gid g) n) c.gid words) c.gid c.words 0 false)) ∧
      Wrote c.view.score (c.g.stick (fl ||| flBreach)) g ws) ∧
    (long = false → quiet → (∀ l, ¬breaches c c.lanes all l) ∨ modeBnd c.mode = 0 →
      Completes i s c n fun g => Wrote c.view.score (c.g.stick fl) g ws)

/-- The largest of the bound terms, rounded up (R124, R188). -/
def maxTerms (terms : List Bnd) : B16 := (terms.foldl Bnd.max (.fin 0)).toB16

/-- A lane put together from the converted sub-elements f j (R190, R194). -/
def PackedLane (c : Gang) (t : Ty) (f : Nat → Nat × Bnd × BitVec 9) (o : LaneOut) : Prop :=
  (∀ j < t.n, elem o.val.toNat j t.w = (f j).1 % 2 ^ t.w) ∧ o.val.toNat < 2 ^ (t.n * t.w) ∧
  o.bnd = (if c.untracked then b16Untracked else maxTerms ((List.range t.n).map fun j => (f j).2.1)) ∧
  o.flags = (List.range t.n).foldl (fun a j => a ||| (f j).2.2) 0

/-- The special functions, their operands and their operations (R174). -/
def sfuForm : Instr → Option (Dst × Src × Src × SfOp)
  | .rcp d a => some (d, a, .zero, .rcp)
  | .rsq d a => some (d, a, .zero, .rsq)
  | .sqrt d a => some (d, a, .zero, .sqrt)
  | .exp2 d a => some (d, a, .zero, .exp2)
  | .log2 d a => some (d, a, .zero, .log2)
  | .sinpi d a => some (d, a, .zero, .sinpi)
  | .cospi d a => some (d, a, .zero, .cospi)
  | .tanh d a => some (d, a, .zero, .tanh)
  | .sigm d a => some (d, a, .zero, .sigm)
  | .fdivf d a b => some (d, a, b, .divf)
  | _ => none

/-- R174's special inputs, with the value and the flags that they give. -/
def sfTable (op : SfOp) (x y : Val) : Option (Val × BitVec 9) :=
  let nan : Val × BitVec 9 := (.nan false false, flInvalid)
  let neg := x.neg && !x.isZero
  match op with
  | .rcp => if x.isZero then some (.inf x.neg, flDivZero) else (infOf x).map fun n => (.fin n 0, 0)
  | .rsq => if x.isZero then some (.inf x.neg, flDivZero) else if neg then some nan else (infOf x).map fun _ => (.fin false 0, 0)
  | .sqrt => if x.isZero then some (x, 0) else if neg then some nan else (infOf x).map fun _ => (.inf false, 0)
  | .exp2 => if x.isZero then some (.fin false 1, 0) else (infOf x).map fun n => (if n then .fin false 0 else .inf false, 0)
  | .log2 =>
    if x.isZero then some (.inf true, flDivZero) else if neg then some nan
    else if x = .fin false 1 then some (.fin false 0, 0) else (infOf x).map fun _ => (.inf false, 0)
  | .sinpi => if (infOf x).isSome then some nan else if x.real.den = 1 then some (.fin x.neg 0, 0) else none
  | .cospi =>
    if (infOf x).isSome then some nan
    else if x.real.den = 1 then some (.fin (decide (x.real.num % 2 = 1)) 1, 0)
    else if x.real.den = 2 then some (.fin false 0, 0) else none
  | .tanh => if x.isZero then some (x, 0) else (infOf x).map fun n => (.fin n 1, 0)
  | .sigm => if x.isZero then some (.fin false (mkRat 1 2), 0) else (infOf x).map fun n => (.fin false (if n then 0 else 1), 0)
  | .divf =>
    if (x.isZero && y.isZero) || ((infOf x).isSome && (infOf y).isSome) then some nan
    else if x.isFinite && y.isZero then some (.inf (x.neg != y.neg), flDivZero)
    else if x.isFinite && (infOf y).isSome then some (.fin (x.neg != y.neg) 0, 0)
    else none

/-- The quotient that the rational special functions give. -/
def sfQuotient (op : SfOp) (x y : Val) : Option Rat := match op with
  | .rcp => some (1 / x.real)
  | .divf => some (x.real / y.real)
  | _ => none

/-- How a value converts into an integer type (R186): its bits read as the rounding of the value where that lies in the range, else as the
nearer end, with invalid alone. -/
def IntoInt (t : Ty) (rnd : Nat) (v : Val) (o : Conv) : Prop :=
  match v with
  | .nan _ _ => toInt t.signed t.w o.bits = 0 ∧ o.flags = flInvalid
  | .inf n => toInt t.signed t.w o.bits = (if n then intMin t.signed t.w else intMax t.signed t.w) ∧ o.flags = flInvalid
  | .fin n q => ∃ r : Nat, RoundsTo rnd n q 1 r ∧
    let x : Int := if n then -(r : Int) else r
    if x < intMin t.signed t.w then toInt t.signed t.w o.bits = intMin t.signed t.w ∧ o.flags = flInvalid
    else if intMax t.signed t.w < x then toInt t.signed t.w o.bits = intMax t.signed t.w ∧ o.flags = flInvalid
    else toInt t.signed t.w o.bits = x ∧ o.flags = (if (r : Rat) = q then 0 else flInexact)

/-- How a value converts into E8M0 (R187). -/
def IntoE8m0 (rnd : Nat) (v : Val) (o : Conv) : Prop :=
  match v with
  | .nan _ _ => o.bits = 0xFF ∧ o.flags = 0
  | .inf n => o.bits = (if n then 0xFF else 0xFE) ∧ o.flags = if n then flInvalid else flSaturate
  | .fin n q =>
    if q = 0 then o.bits = 0 ∧ o.flags = flUnderflow ||| flInexact
    else if n then o.bits = 0xFF ∧ o.flags = flInvalid
    else ∃ k lo : Int, pow2 lo ≤ q ∧ q < pow2 (lo + 1) ∧ (pow2 lo = q → k = lo) ∧
      (pow2 lo ≠ q → match rnd with
        | 2 => k = lo + 1
        | 1 | 3 => k = lo
        | _ => (q < 3 * pow2 (lo - 1) → k = lo) ∧ (3 * pow2 (lo - 1) < q → k = lo + 1) ∧
          (q = 3 * pow2 (lo - 1) → (k = lo ∨ k = lo + 1) ∧ (rnd = 4 → k = lo + 1) ∧ (rnd = 0 → (k + 127) % 2 = 0) ∧ (rnd = 5 → (k + 127) % 2 = 1))) ∧
      if 127 < k then o.bits = 0xFE ∧ o.flags = flSaturate ||| flInexact
      else if k < -127 then o.bits = 0 ∧ o.flags = flUnderflow ||| flInexact
      else (o.bits : Int) = k + 127 ∧ o.flags = if pow2 k = q then 0 else flInexact

/-- The sub-element of the source that `CVT` converts into sub-element j of the destination; `none` where j is not written (R188). -/
def cvtFrom (src dst : Ty) (p j : Nat) : Option Nat :=
  let k := min src.n dst.n
  if dst.n < src.n then (if p * k + j < src.n then some (p * k + j) else none)
  else if src.n < dst.n then (if p * k ≤ j ∧ j < p * k + k then some (j - p * k) else none)
  else some j

end Sys2Proof.Machine

section

open Sys2Proof Sys2Proof.Machine

/-- R149–R152, R154: `BGET`, `BSET`, `BADD` and `BCLR` read and write bounds (under B16x2 an untracked encoding as it is, the model's choice, log 112), and `BMAXR` gives the largest of the active lanes.
R155–R158: `SETB` writes the budget, `BCHK` tests lanes against it, `BREP` reads the last report card and `FLAGS` the sticky flags. -/
def Obligations.BoundsBudgetsAndReports : Prop :=
  (∀ (d : Dst) (a b : Src) (s : State) (c : Gang) (t : Ty), c.ty = some t →
       (t.kind = .b16 ∨ t.kind = .flt .f32 →
         (Issues (.bget d a) s c { regs := dstRegs d ++ srcRegs a } →
           Completes (.bget d a) s c 0 fun g => VecResult c g d false c.lanes
             (fun l v =>
               let β := (c.opnd t a).bndAt l.val
               if t.kind = .b16 then v = β.toNat
               else match Bnd.of β with
                 | .fin q => v < 2 ^ 32 ∧ Fmt.f32.decode v = .fin false q
                 | .unb => v = 0x7F800000
                 | .untr => v = 0x7FC00000)
             (fun _ => scoreB c.k.score b16Exact)) ∧
         (Issues (.bset d a b) s c { regs := dstRegs d ++ srcRegs a ++ srcRegs b } →
           Completes (.bset d a b) s c 0 fun g => VecResult c g d false c.lanes (fun l v => v = (c.opnd t a).at l.val % 2 ^ 32)
             (fun l => scoreB c.k.score (boundOf (decide (t.kind = .b16)) ((c.opnd t b).at l.val)))) ∧
         (Issues (.badd d a b) s c { regs := dstRegs d ++ srcRegs a ++ srcRegs b } →
           Completes (.badd d a b) s c 0 fun g => VecResult c g d false c.lanes (fun l v => v = (c.opnd t a).at l.val % 2 ^ 32)
             (fun l => scoreB c.k.score ((Bnd.of ((c.opnd t a).bndAt l.val)).add
               (Bnd.of (boundOf (decide (t.kind = .b16)) ((c.opnd t b).at l.val)))).toB16))) ∧
       (t.kind ≠ .b16 → t.kind ≠ .flt .f32 → ∀ (i : Instr) (u : Uses), (i = .bget d a ∧ u = { regs := dstRegs d ++ srcRegs a }) ∨
           ((i = .bset d a b ∨ i = .badd d a b) ∧ u = { regs := dstRegs d ++ srcRegs a ++ srcRegs b }) →
         Issues i s c u → exec i s = .next (trapped s c (modeTrap c))) ∧
       (Issues (.bclr d a) s c { regs := dstRegs d ++ srcRegs a } →
         Completes (.bclr d a) s c 0 fun g => VecResult c g d t.is64 c.lanes
           (fun l v => v = (c.opnd t a).at l.val % if t.is64 then 2 ^ 64 else 2 ^ 32) (fun _ => scoreB c.k.score b16Exact)) ∧
       ∀ u : UReg, Issues (.bmaxr u a) s c { regs := srcRegs a, u := [u] } →
         (c.lanes = 0 → exec (.bmaxr u a) s = .next (passed s c)) ∧
         (c.lanes ≠ 0 → ∃ m : B16,
           ((∃ l < 32, bit c.lanes l = true ∧ isUntracked ((c.opnd t a).bndAt l) = true) → m = b16Untracked) ∧
           ((∀ l < 32, bit c.lanes l = true → isUntracked ((c.opnd t a).bndAt l) = false) →
             (∀ l < 32, bit c.lanes l = true → ((c.opnd t a).bndAt l).toNat ≤ m.toNat) ∧ ∃ l < 32, bit c.lanes l = true ∧ m = (c.opnd t a).bndAt l) ∧
           Completes (.bmaxr u a) s c 0 fun g => UniResult c g u (m.setWidth 64) (scoreB c.k.score b16Exact))) ∧
  (∀ (s : State) (c : Gang),
       (∀ (src : SetbSrc) (u : Uses) (v : W64), (src = .imm (v.setWidth 16) ∧ v.toNat < 2 ^ 16 ∧ u = {}) ∨
           (∃ n, src = .reg n ∧ v = (c.view.uni n).1 ∧ u = { u := [n] }) → Issues (.setb src) s c u →
         (2 ^ 16 ≤ v.toNat ∨ isUntracked (v.setWidth 16) = true → exec (.setb src) s = .next (trapped s c (modeTrap c))) ∧
         (v.toNat < 2 ^ 16 → isUntracked (v.setWidth 16) = false → Completes (.setb src) s c 0 fun g =>
           g = { c.g with budget := v.setWidth 16, unsettled := keepOld c.g.unsettled (.budget c.g.budget) (c.view.clock + 6) c.view.run })) ∧
       (∀ (p : PReg) (a : Src) (t : Ty), c.ty = some t → Issues (.bchk p a) s c { regs := srcRegs a, p := [p] } →
         let out (l : Nat) : LaneOut := { LaneOut.none with bnd := (c.opnd t a).bndAt l }
         let within (l : Fin 32) : Bool := c.k.score || !exceeds ((c.opnd t a).bndAt l.val) (c.view.budget (l.val / c.k.perSlice))
         ((∃ l, breaches c c.lanes out l) → modeBnd c.mode = 2 → ∃ b : Breach, exec (.bchk p a) s = .next (trapped s c (trapBreach b)) ∧
           ∀ l < 32, b.mask.testBit l = true ↔ breaches c c.lanes out l) ∧
         ((∃ l, breaches c c.lanes out l) → modeBnd c.mode = 1 → ∃ (g : Group) (words : List W64),
           exec (.bchk p a) s = .next (tick (advance (writeCard (s.setGroup c.gid g) c.gid words) c.gid c.words 0 false)) ∧
           ∃ h, PredResult c h p c.lanes within ∧ g = h.stick flBreach) ∧
         ((∀ l, ¬breaches c c.lanes out l) ∨ modeBnd c.mode = 0 → Completes (.bchk p a) s c 0 fun g => PredResult c g p c.lanes within)) ∧
       (∀ (d : UReg) (k : BitVec 3), Issues (.brep d k) s c { u := [d] } →
         Completes (.brep d k) s c 0 fun g => UniResult c g d (c.g.cardCopy.getD k.toNat 0) (scoreB c.k.score b16Exact)) ∧
       ∀ (d : UReg) (clear : BitVec 9), Issues (.flags d clear) s c { u := [d] } →
         Completes (.flags d clear) s c 0 fun g =>
           UniResult { c with g := { c.g with sticky := c.g.sticky &&& ~~~clear } } g d (BitVec.ofNat 64 (c.g.sticky.toNat + min c.g.cards 65535 * 2 ^ 16))
             (scoreB c.k.score b16Exact))

/-- R174, R176, R177, R47: a special function traps under a type not its own, stalls where its quarter has four in progress or its completion flag is still
set, and else waits for its unit with the results of R174's table: the special inputs, the canonical NaN, and the quotients that the format represents exactly. -/
def Obligations.SpecialFunctionResults : Prop :=
  ∀ (i : Instr) (d : Dst) (a b : Src) (op : SfOp) (s : State) (c : Gang) (t : Ty), sfuForm i = some (d, a, b, op) →
    Issues i s c { regs := dstRegs d ++ srcRegs a ++ srcRegs b } → c.ty = some t →
    (sfuFloat t = none → exec i s = .next (trapped s c (modeTrap c))) ∧
    ((sfuFloat t).isSome = true → 4 ≤ sfuBusy s c.core c.g.quarter ∨ (d ≠ .discard ∧ ¬flagFree c) → Stalls i s c) ∧
    ∀ f : Fmt, sfuFloat t = some f →
      ∃ e : Nat → Nat → ElemOut,
        (∀ l k, l < 32 → k < t.n →
          let x := floatArg c t f a false false false l k
          let y := floatArg c t f b false false false l k
          let nan := x.v.isNan || (decide (op = .divf) && y.v.isNan)
          (nan = true → (e l k).bits = f.canonicalNan ∧ (e l k).flags = flagIf (x.snan || (decide (op = .divf) && y.snan)) flInvalid) ∧
          (nan = false → ∀ v fl, sfTable op x.v y.v = some (v, fl) →
            (e l k).bits = f.encode (writeSpecial f (modeSat c.mode) v).1 ∧ (e l k).flags = fl ||| (writeSpecial f (modeSat c.mode) v).2) ∧
          (nan = false → sfTable op x.v y.v = none → x.v.isFinite = true → y.v.isFinite = true → ∀ q, sfQuotient op x.v y.v = some q →
            pow2 f.emin ≤ ratAbs q → Representable f (ratAbs q) → (e l k).bits = f.encode (.fin (decide (q < 0)) (ratAbs q)) ∧ (e l k).flags = 0)) ∧
        let out (l : Nat) : LaneOut := laneOut t c.untracked 0 (e l)
        let hold : Bool := decide (d = .discard) || decide (modeBnd c.mode = 2) || decide (c.g.fpEnable ≠ 0)
        sfuBusy s c.core c.g.quarter < 4 → (d ≠ .discard → flagFree c) →
          ∃ p, Waits c .sfu true c.lanes out (dstWrites false d (outOpnd out) c.lanes) p ∧ Launches i s c 0 p (decide (d ≠ .discard)) hold

/-- R186, R187: the conversion of one value into an integer type, into E8M0, and from an integer; its bound term is the distance from the value
read to the value written (R189).
R184, R188, R190, R191: `CVT`, `PACK` and `UNPK` put each converted sub-element in its place, and keep those not written. -/
def Obligations.ConversionsOfElementsAndWords : Prop :=
  (∀ (src dst : Ty) (m m' rnd x : Nat) (sat ftz : Bool) (β : B16), tyOf m = some src → tyOf m' = some dst → rnd ≤ 5 → dst.kind ≠ .b16 → src.kind ≠ .b16 →
       let z := ftz && decide (dst.kind ≠ .flt .e8m0)
       let r := readElem src.kind src.w z x
       let o := writeElem dst.kind dst.w rnd sat ftz r
       (convElem src.kind dst.kind src.w dst.w rnd sat ftz β x).1 = o.bits ∧ (convElem src.kind dst.kind src.w dst.w rnd sat ftz β x).2.2 = o.flags ∧
       (∀ q, o.val = some q → r.val.isFinite = true →
         (convElem src.kind dst.kind src.w dst.w rnd sat ftz β x).2.1 = ((Bnd.of β).add (.fin r.flush)).add (.fin (ratAbs (r.val.real - q)))) ∧
       (∀ f, src.kind = .flt f → r.snan = (f.decode x).isSnan ∧ r.val = (flushIn f z (f.decode x)).1) ∧
       (src.isInt = true → r.val.real = toInt src.signed src.w x ∧ r.snan = false) ∧
       (src.isInt = true → dst.isInt = true → o.flags = 0 ∧
         if sat then toInt dst.signed dst.w o.bits = max (intMin dst.signed dst.w) (min (intMax dst.signed dst.w) (toInt src.signed src.w x))
         else (o.bits : Int) = toInt src.signed src.w x % 2 ^ dst.w) ∧
       (src.isInt = false → r.snan = false → dst.isInt = true → IntoInt dst rnd r.val o) ∧
       (r.snan = false → dst.kind = .flt .e8m0 → IntoE8m0 rnd r.val o) ∧
       (r.val.isFinite = true → ∀ f, f ≠ .e8m0 → dst.kind = .flt f →
         o.bits = f.bitsOf (roundFmt f rnd sat ftz r.val.neg (ratAbs r.val.real)).val true ∧ o.flags = (roundFmt f rnd sat ftz r.val.neg (ratAbs r.val.real)).flags)) ∧
  (∀ (s : State) (c : Gang) (t : Ty), c.ty = some t →
       (∀ (d : Dst) (a : Src) (part : BitVec 3) (code : BitVec 5) (src : Ty), tyOf code.toNat = some src → src.kind ≠ .b16 → t.kind ≠ .b16 →
         (src.is64 = true → a.even = true) →
         Issues (.cvt d a part code) s c { regs := dstRegs d, ranges := (srcRegs a).map fun r => (r, if src.is64 then 2 else 1) } →
         let k := min src.n t.n
         let parts := (max src.n t.n + k - 1) / k
         let x := c.opndRaw src.is64 a
         let old := c.opnd t (dstSrc d)
         (parts ≤ part.toNat → exec (.cvt d a part code) s = .next (trapped s c (illegalTrap c 1))) ∧
         (part.toNat < parts → ∃ out : Nat → LaneOut,
           (∀ l < 32,
             let f (n : Nat) := convElem src.kind t.kind src.w t.w (modeRnd c.mode) (modeSat c.mode) (modeFtz c.mode) (x.bndAt l) (elem (x.at l) n src.w)
             (∀ j < t.n, elem (out l).val.toNat j t.w = match cvtFrom src t part.toNat j with
               | some n => (f n).1 % 2 ^ t.w
               | none => elem (old.at l) j t.w) ∧
             (out l).bnd = (if c.untracked then b16Untracked else maxTerms (((List.range t.n).map fun j => match cvtFrom src t part.toNat j with
               | some n => (f n).2.1
               | none => Bnd.of (old.bndAt l)))) ∧
             (out l).flags = (List.range t.n).foldl (fun fl j => match cvtFrom src t part.toNat j with
               | some n => fl ||| (f n).2.2
               | none => fl) 0) ∧
           Converts (.cvt d a part code) s c (if src.is64 || t.is64 then 1 else 0) (decide (src.w ≤ 8) || decide (t.w ≤ 8)) t.is64 (decide (d = .discard)) [(d, out)])) ∧
       (∀ (d : Dst) (a : VFirst), Issues (.pack d a) s c { regs := dstRegs d, byMode := [(.v a, packCount packTy)] } →
         (packTy t = false → exec (.pack d a) s = .next (trapped s c (modeTrap c))) ∧
         (packTy t = true → ∃ out : Nat → LaneOut,
           (∀ l < 32, PackedLane c t (fun j =>
             let x := c.view.opnd false (rangeReg a j)
             convElem (wideOf t) t.kind 32 t.w (modeRnd c.mode) (modeSat c.mode) (modeFtz c.mode) (x.bndAt l) (x.at l)) (out l)) ∧
           Converts (.pack d a) s c (t.n - 1) (decide (t.w ≤ 8)) false (decide (d = .discard)) [(d, out)])) ∧
       ∀ (d : VFirst) (a : Src) (count first : BitVec 3), Issues (.unpk d a count first) s c { regs := srcRegs a, ranges := [(.v d, count.toNat + 1)] } →
         (packTy t = false → exec (.unpk d a count first) s = .next (trapped s c (modeTrap c))) ∧
         (packTy t = true → t.n < first.toNat + count.toNat + 1 → exec (.unpk d a count first) s = .next (trapped s c (illegalTrap c 1))) ∧
         (packTy t = true → first.toNat + count.toNat + 1 ≤ t.n → ∃ out : Nat → Nat → LaneOut,
           (∀ j l, l < 32 →
             let x := c.opnd t a
             let r := convElem t.kind (wideOf t) t.w 32 0 (modeSat c.mode) (modeFtz c.mode) (x.bndAt l) (elem (x.at l) (first.toNat + j) t.w)
             (out j l).val.toNat = r.1 % 2 ^ 64 ∧ (out j l).flags = r.2.2 ∧ (out j l).bnd = if c.untracked then b16Untracked else r.2.1.toB16) ∧
           Converts (.unpk d a count first) s c count.toNat (decide (t.w ≤ 8)) false false ((List.range (count.toNat + 1)).map fun j => (.reg (rangeReg d j), out j))))

/-- R192–R195: `QBLK` gives each block one scale, `QAPPLY` divides by it into sub-elements, and `DQ` multiplies back. -/
def Obligations.BlockQuantisation : Prop :=
  ∀ (s : State) (c : Gang) (t : Ty) (f : Fmt), c.ty = some t → blockFmt t = some f →
    (∀ (d : Dst) (a : VFirst) (fit b16 : Bool), Issues (.qblk d a fit b16) s c { regs := dstRegs d, byMode := [(.v a, packCount fun t => (blockFmt t).isSome)] } →
      let m := (if b16 then 16 else 32) / t.n
      let mag (j l : Nat) : Val := (flushIn .f32 (modeFtz c.mode) (Fmt.f32.decode ((c.view.opnd false (rangeReg a j)).at l))).1
      let shared := ∃ l k j : Nat, l < 32 ∧ k < 32 ∧ j < 8 ∧ bit c.lanes l = true ∧ k / m = l / m ∧ bit (c.g.liveSlices c.k) j = true ∧
        bit c.run.slices j = false ∧ k < 8 * c.k.perSlice ∧ k / c.k.perSlice = j
      (shared → exec (.qblk d a fit b16) s = .next (trapped s c (illegalTrap c 5))) ∧
      (¬shared → d = .discard → exec (.qblk d a fit b16) s = .next (passed (spend s (t.n - 1)) c)) ∧
      (¬shared → d ≠ .discard → flagFree c → ∃ (out : Nat → LaneOut) (p : Pending),
        (∀ l < 32, bit c.lanes l = true → (out l).bnd = scoreB c.k.score b16Exact ∧
          ((∃ k j, k < 32 ∧ j < t.n ∧ bit c.lanes k = true ∧ k / m = l / m ∧ (mag j k).isFinite = false) → (out l).val = 255) ∧
          ∀ M : Rat, (∀ k j, k < 32 → j < t.n → bit c.lanes k = true → k / m = l / m → (mag j k).isFinite = true ∧ ratAbs (mag j k).real ≤ M) →
            (∃ k j, k < 32 ∧ j < t.n ∧ bit c.lanes k = true ∧ k / m = l / m ∧ ratAbs (mag j k).real = M) →
            ((out l).val.toNat : Int) = if M = 0 then 0
              else max (-127) (min 127 (if fit then ceilLog2 (M / f.largest) else floorLog2 M - (match f with
                | .e4m3 => 8
                | .e5m2 => 15
                | _ => 2))) + 127) ∧
        p.kind = .conv ∧ p.writes = dstWrites false d (outOpnd out) c.lanes ∧ p.sticky = 0 ∧ p.trap = none ∧ p.card = none ∧
        Launches (.qblk d a fit b16) s c (t.n - 1) p true false)) ∧
    (∀ (d : Dst) (a : VFirst) (b : Src), Issues (.qapply d a b) s c { regs := dstRegs d ++ srcRegs b, byMode := [(.v a, packCount fun t => (blockFmt t).isSome)] } →
      ∃ out : Nat → LaneOut,
        (∀ l < 32,
          let e := (c.opnd t b).at l % 256
          let x (j : Nat) := readElem (.flt .f32) 32 (modeFtz c.mode) ((c.view.opnd false (rangeReg a j)).at l)
          let r (j : Nat) := convFloat f (modeRnd c.mode) (modeSat c.mode) (modeFtz c.mode) (match (x j).val with
            | .fin n q => .fin n (q * pow2 (127 - (e : Int)))
            | v => v)
          (∀ j < t.n, elem (out l).val.toNat j t.w = if e = 255 then f.canonicalNan else (r j).bits % 2 ^ t.w) ∧
          (out l).flags = (List.range t.n).foldl (fun a j => a ||| if e = 255 then flInvalid else (r j).flags ||| flagIf (x j).snan flInvalid) 0 ∧
          (c.untracked = false → e ≠ 255 → (c.opnd t b).bndAt l = b16Exact → (∀ j < t.n, (x j).val.isFinite = true ∧ ((r j).val).isSome = true) →
            (out l).bnd = maxTerms ((List.range t.n).map fun j => ((Bnd.of ((c.view.opnd false (rangeReg a j)).bndAt l)).add (.fin (x j).flush)).add
              (.fin (ratAbs ((x j).val.real - pow2 ((e : Int) - 127) * ((r j).val).getD 0)))))) ∧
        Converts (.qapply d a b) s c (t.n - 1) true false (decide (d = .discard)) [(d, out)]) ∧
    ∀ (d : VFirst) (a b : Src), Issues (.dq d a b) s c { regs := srcRegs a ++ srcRegs b, byMode := [(.v d, packCount fun t => (blockFmt t).isSome)] } →
      ∃ out : Nat → Nat → LaneOut,
        (∀ j l, j < t.n → l < 32 →
          let e := (c.opnd t b).at l % 256
          let v := f.decode (elem ((c.opnd t a).at l) j t.w)
          (e = 255 ∨ v.isNan = true → (out j l).val = 0x7FC00000) ∧
          (e ≠ 255 → ∀ n q, v = .fin n q →
            let r := roundFmt .f32 (modeRnd c.mode) (modeSat c.mode) (modeFtz c.mode) n (q * pow2 ((e : Int) - 127))
            (out j l).val.toNat = Fmt.f32.encode r.val ∧ (out j l).flags = r.flags ∧
            (c.untracked = false → r.val.isFinite = true → (out j l).bnd = ((Bnd.of ((c.opnd t a).bndAt l)).add
              (.fin (ratAbs ((if n then -(q * pow2 ((e : Int) - 127)) else q * pow2 ((e : Int) - 127)) - r.val.real)))).toB16))) ∧
        Converts (.dq d a b) s c (t.n - 1) true false false ((List.range t.n).map fun j => (.reg (rangeReg d j), out j))

end

/-! ### Cross-lane instructions and special registers (R115, R116, R212–R227) -/

namespace Sys2Proof.Machine

/-- The cross-lane instructions, with the registers that they name (R212). -/
def crossLane : Instr → Option Uses
  | .shfl d a b => some { regs := dstRegs d ++ srcRegs a ++ srcRegs b }
  | .shflx d a _ _ _ | .bcst d a _ => some { regs := dstRegs d ++ srcRegs a }
  | .vote p _ _ src => some { p := [p, src] }
  | .ballot d src => some { u := [d], p := [src] }
  | .segm p a _ => some { ranges := (srcRegs a).map fun r => (r, 1), p := [p] }
  | .redl d a _ _ sp | .scanl d a _ _ _ sp => some { regs := dstRegs d ++ srcRegs a, p := [sp] }
  | .rwalk d a b => some { ranges := (srcRegs a).map fun r => (r, 1), u := [d, uregNext d, b] }
  | .rnext d a b => some { ranges := (.v d, 2) :: (srcRegs b).map fun r => (r, 1), u := [a, uregNext a] }
  | _ => none

/-- Results p of the cross-lane network that no test judges: the writes ws alone. -/
def Carries (p : Pending) (ws : List RegWrite) : Prop :=
  p.kind = .xlane ∧ p.writes = ws ∧ p.sticky = 0 ∧ p.trap = none ∧ p.card = none

/-- A shuffle of gang c: each active lane l takes the value and bound of lane `pick l` of a (R217). -/
def Shuffles (i : Instr) (s : State) (c : Gang) (t : Ty) (d : Dst) (a : Src) (pick : Nat → Nat → Prop) : Prop :=
  (d = .discard → exec i s = .next (passed (spend s (if t.is64 then 1 else 0)) c)) ∧
  (d ≠ .discard → flagFree c → ∃ (o : Opnd) (p : Pending),
    (∀ l : Fin 32, bit c.lanes l.val = true → ∃ j, pick l.val j ∧ o.val[l.val].toNat = (c.opnd t a).at j ∧
      o.bnd[l.val] = scoreB c.k.score ((c.opnd t a).bndAt j)) ∧
    Carries p (dstWrites t.is64 d o c.lanes) ∧ Launches i s c (if t.is64 then 1 else 0) p true false)

/-- R217's source lane of `SHFLX`, for an offset k. -/
def shflxFrom (kind g k l : Nat) : Nat := match kind with
  | 0 => if k ≤ l then l - k else l
  | 1 => if l + k < g then l + k else l
  | 2 => l ^^^ k
  | _ => (l + k) % g

/-- Active lanes l and k lie in one segment: none between them, nor the upper of the two, begins one (R221). -/
def sameSegment (lanes heads : BitVec 32) (seg : Bool) (l k : Nat) : Bool :=
  bit lanes l && bit lanes k && (List.range 32).all fun r => !(decide (min l k < r) && decide (r ≤ max l k) && bit lanes r && seg && bit heads r)

/-- v is the combination of the integers xs, in their order, by an operation of R222. -/
def Combined (t : Ty) (op : Nat) (xs : List Nat) (v : Nat) : Prop := match op with
  | 0 => v = xs.foldl (· + ·) 0 % 2 ^ t.w
  | 1 => v ∈ xs ∧ ∀ x ∈ xs, toInt t.signed t.w v ≤ toInt t.signed t.w x
  | 2 => v ∈ xs ∧ ∀ x ∈ xs, toInt t.signed t.w x ≤ toInt t.signed t.w v
  | 3 => ∀ j < t.w, v.testBit j = xs.all fun x => x.testBit j
  | 4 => ∀ j < t.w, v.testBit j = xs.any fun x => x.testBit j
  | _ => ∀ j < t.w, v.testBit j = xs.foldl (fun y x => y != x.testBit j) false

/-- The identity of R223, of an integer type. -/
def intIdentity (t : Ty) (op : Nat) : Nat := match op with
  | 1 => lowBits t.w (intMax t.signed t.w)
  | 2 => lowBits t.w (intMin t.signed t.w)
  | 3 => 2 ^ t.w - 1
  | _ => 0

/-- What a lane of `REDL` or `SCANL` receives from the lanes ks, under an integer type: with the bound of R224. -/
def FoldsTo (c : Gang) (t : Ty) (a : Src) (op : Nat) (ks : List Nat) (o : LaneOut) : Prop :=
  o.flags = 0 ∧
  (ks = [] → o.val.toNat = intIdentity t op ∧ o.bnd = scoreB c.k.score b16Exact) ∧
  (ks ≠ [] → Combined t op (ks.map fun k => (c.opnd t a).at k) o.val.toNat) ∧
  (ks ≠ [] → o.bnd = intBound c.k.score (ks.map fun k => (c.opnd t a).bndAt k))

/-- The special registers of R116, by number, with what they hold. -/
def specialTable (s : State) (c : Gang) : List (Nat × Nat) :=
  let extent (n : Nat) : Nat := c.k.grid.getD n 1
  let team := s.team c.g.team
  [(0x0000, 0x0410), (0x0001, if c.k.prot then 16 else 32), (0x0002, c.k.score.toNat + 2 * c.k.prot.toNat + 4 * c.view.interlocked.toNat),
   (0x0010, c.g.number), (0x0011, c.g.role), (0x0012, c.k.teamGroups),
   (0x0013, team.number % extent 0), (0x0014, team.number / extent 0 % extent 1), (0x0015, team.number / extent 0 / extent 1)] ++
  [(0x0016, extent 0), (0x0017, extent 1), (0x0018, extent 2), (0x0019, team.cls), (0x0020, c.core), (0x0021, c.g.quarter),
   (0x0022, s.sysClock c.k.part), (0x0030, c.g.barst.toNat), (0x0031, (c.view.budget (firstSlice c.run.slices)).toNat)]

end Sys2Proof.Machine

section

open Sys2Proof Sys2Proof.Machine

/-- R212, R217–R221: a gang that lacks a slice traps; else the shuffles move values with their bounds, and `VOTE`, `BALLOT` and `SEGM` test the active
lanes.
R216, R222–R226: `REDL` and `SCANL` combine the lanes of each segment, and the ragged walk maps stream positions to rows and columns. -/
def Obligations.CrossLaneResults : Prop :=
  (∀ (s : State) (c : Gang),
       (∀ (i : Instr) (u : Uses), crossLane i = some u → Issues i s c u → (∃ j : Fin 8, bit (c.g.liveSlices c.k) j.val = true ∧ bit c.run.slices j.val = false) →
         exec i s = .next (trapped s c (illegalTrap c 5))) ∧
       ((∀ j : Fin 8, bit (c.g.liveSlices c.k) j.val = true → bit c.run.slices j.val = true) →
         (∀ (d : Dst) (a b : Src) (t : Ty), c.ty = some t → Issues (.shfl d a b) s c { regs := dstRegs d ++ srcRegs a ++ srcRegs b } →
           Shuffles (.shfl d a b) s c t d a fun l j => j = (c.opndRaw t.is64 b).at l % 2 ^ 32 % c.k.width) ∧
         (∀ (d : Dst) (a : Src) (kind : BitVec 2) (rel : Bool) (n : BitVec 5) (t : Ty), c.ty = some t →
           Issues (.shflx d a kind rel n) s c { regs := dstRegs d ++ srcRegs a } →
           let k := if rel then c.k.width / 2 ^ n.toNat else n.toNat
           let illegal := (rel = true ∧ (n = 0 ∨ k = 0)) ∨ (rel = false ∧ c.k.width ≤ n.toNat)
           (illegal → exec (.shflx d a kind rel n) s = .next (trapped s c (illegalTrap c 1))) ∧
           (¬illegal → Shuffles (.shflx d a kind rel n) s c t d a fun l j => j = shflxFrom kind.toNat c.k.width k l)) ∧
         (∀ (d : Dst) (a : Src) (lane : BitVec 8) (t : Ty), c.ty = some t → Issues (.bcst d a lane) s c { regs := dstRegs d ++ srcRegs a } →
           (lane ≠ 0xFF → c.k.width ≤ lane.toNat → exec (.bcst d a lane) s = .next (trapped s c (illegalTrap c 1))) ∧
           (lane = 0xFF ∨ lane.toNat < c.k.width → Shuffles (.bcst d a lane) s c t d a fun _ j =>
             if lane = 0xFF then bit c.lanes j = true ∧ ∀ k < j, bit c.lanes k = false else j = lane.toNat)) ∧
         (∀ (p : PReg) (comb kind : BitVec 2) (src : PReg), Issues (.vote p comb kind src) s c { p := [p, src] } → kind ≠ 3 → flagFree c →
           let all := ∀ l < 32, bit c.lanes l = true → bit (c.view.pred src) l = true
           let any := ∃ l < 32, bit c.lanes l = true ∧ bit (c.view.pred src) l = true
           ∃ (t : Bool) (v : BitVec 32) (q : Pending),
             (t = true ↔ (kind = 0 ∧ all) ∨ (kind = 1 ∧ any) ∨ (kind = 2 ∧ (all ∨ ¬any))) ∧
             (∀ l < 32, bit v l = cmpComb comb.toNat (bit (c.view.pred p) l) t) ∧
             Carries q [.p p v c.lanes] ∧ Launches (.vote p comb kind src) s c 0 q true false) ∧
         (∀ (d : UReg) (src : PReg), Issues (.ballot d src) s c { u := [d], p := [src] } → flagFree c →
           ∃ (v : BitVec 32) (q : Pending), (∀ l < 32, bit v l = (bit c.lanes l && bit (c.view.pred src) l)) ∧
             Carries q [.u d (v.setWidth 64) (scoreB c.k.score b16Exact)] ∧ Launches (.ballot d src) s c 0 q true false) ∧
         ∀ (p : PReg) (a : Src) (tail : Bool), Issues (.segm p a tail) s c { ranges := (srcRegs a).map fun r => (r, 1), p := [p] } → flagFree c →
           let adjacent (l k : Nat) : Prop := k < 32 ∧ bit c.lanes k = true ∧ (if tail then l < k else k < l) ∧
             ∀ r, min l k < r → r < max l k → bit c.lanes r = false
           ∃ (v : BitVec 32) (q : Pending),
             (∀ l < 32, bit c.lanes l = true → (bit v l = true ↔ ∀ k, adjacent l k → c.low32 a l ≠ c.low32 a k)) ∧
             Carries q [.p p v c.lanes] ∧ Launches (.segm p a tail) s c 0 q true false)) ∧
  (∀ (s : State) (c : Gang), (∀ j : Fin 8, bit (c.g.liveSlices c.k) j.val = true → bit c.run.slices j.val = true) →
       (∀ (i : Instr) (d : Dst) (a : Src) (op : BitVec 3) (seg excl : Bool) (sp : PReg) (t : Ty),
         i = .redl d a op seg sp ∨ i = .scanl d a op seg excl sp → c.ty = some t → i.wellFormed = true →
         Issues i s c { regs := dstRegs d ++ srcRegs a, p := [sp] } →
         (redlTy op.toNat t = false → exec i s = .next (trapped s c (modeTrap c))) ∧
         (redlTy op.toNat t = true → t.isInt = true → d = .discard →
           exec i s = .next (passed (spend s (if t.is64 then 1 else 0)) c)) ∧
         (redlTy op.toNat t = true → t.isInt = true → d ≠ .discard → flagFree c → ∃ (out : Nat → LaneOut) (p : Pending),
           (∀ l < 32, bit c.lanes l = true →
             let same (k : Nat) : Bool := sameSegment c.lanes (c.view.pred sp) seg l k
             (i = .redl d a op seg sp → FoldsTo c t a op.toNat ((List.range 32).filter same) (out l)) ∧
             (i = .scanl d a op seg excl sp →
               FoldsTo c t a op.toNat ((List.range 32).filter fun k => same k && (decide (k < l) || (decide (k = l) && !excl))) (out l))) ∧
           Carries p (dstWrites t.is64 d (outOpnd out) c.lanes) ∧ Launches i s c (if t.is64 then 1 else 0) p true false) ∧
         (redlTy op.toNat t = true → t.isInt = false → (d ≠ .discard → flagFree c) → ∃ (out : Nat → LaneOut) (p : Pending),
           (∀ l < 32, bit c.lanes l = true → i = .redl d a op seg sp →
             let part (k : Nat) : Part := { bits := (c.opnd t a).at k, bnd := scoreB c.k.score ((c.opnd t a).bndAt k), flags := 0 }
             ∃ x : Part, (out l).val.toNat = x.bits % 2 ^ 64 ∧ (out l).bnd = x.bnd ∧ (out l).flags = x.flags ∧
               redTree (combine c.k.score t c.mode op.toNat) c.k.width 6 1
                 (fun k => if sameSegment c.lanes (c.view.pred sp) seg l k then some (part k) else none) 0 = some x) ∧
           Waits c .xlane false (if i = .redl d a op seg sp then c.lanes else maskOf 32 fun l => decide (l < c.k.width)) out (dstWrites t.is64 d (outOpnd out) c.lanes) p ∧
           Launches i s c (if t.is64 then 1 else 0) p (decide (d ≠ .discard)) (decide (d = .discard) || decide (modeBnd c.mode = 2) || decide (c.g.fpEnable ≠ 0)))) ∧
       (∀ (d b : UReg) (a : Src), Issues (.rwalk d a b) s c { ranges := (srcRegs a).map fun r => (r, 1), u := [d, uregNext d, b] } → flagFree c →
         let total := ((List.range c.k.width).map fun l => (c.low32 a l).toNat).foldl (· + ·) 0
         ∃ q : Pending, Carries q [.u d (BitVec.ofNat 64 (min (c.view.uni b).1.toNat total)) (scoreB c.k.score b16Exact),
             .u (uregNext d) (BitVec.ofNat 64 total) (scoreB c.k.score b16Exact)] ∧ Launches (.rwalk d a b) s c 0 q true false) ∧
       ∀ (d : VFirst) (a : UReg) (b : Src), Issues (.rnext d a b) s c { ranges := (.v d, 2) :: (srcRegs b).map fun r => (r, 1), u := [a, uregNext a] } → flagFree c →
         let cur := (c.view.uni a).1.toNat
         let total := (c.view.uni (uregNext a)).1.toNat
         let len (r : Nat) : Nat := (c.low32 b r).toNat
         let start (r : Nat) : Nat := ((List.range r).map len).foldl (· + ·) 0
         let holds (e r : Nat) : Prop := r < c.k.width ∧ start r ≤ e ∧ e < start r + len r
         let ex := scoreB c.k.score b16Exact
         ∃ (L M : VLine) (q : Pending),
           (∀ l : Fin 32, bit c.lanes l.val = true → L.bnd[l.val] = ex ∧ M.bnd[l.val] = ex ∧
             (∀ r, cur + l.val < total → holds (cur + l.val) r → L.val[l.val].toNat = r ∧ M.val[l.val].toNat = cur + l.val - start r) ∧
             (total ≤ cur + l.val ∨ (∀ r, ¬holds (cur + l.val) r) → L.val[l.val] = 0xFFFFFFFF ∧ M.val[l.val] = 0)) ∧
           Carries q [.v (.v d) L c.lanes, .v (regNext (.v d)) M c.lanes, .u a (BitVec.ofNat 64 (min (cur + c.k.width) total)) ex] ∧
           Launches (.rnext d a b) s c 0 q true false)

/-- R115, R116: `SRDSR` reads each special register of the table, and a number that names none traps; `SWRSR` clears bits of SYS_BARST, all of it where bit
0 is written, and traps for every other register. -/
def Obligations.SpecialRegisterResults : Prop :=
  ∀ (n : BitVec 16) (s : State) (c : Gang),
    (∀ d : UReg, Issues (.srdsr d n) s c { u := [d] } →
      (∀ v, (n.toNat, v) ∈ specialTable s c → Completes (.srdsr d n) s c 0 fun g => UniResult c g d (BitVec.ofNat 64 v) (scoreB c.k.score b16Exact)) ∧
      ((∀ v, (n.toNat, v) ∉ specialTable s c) → exec (.srdsr d n) s = .next (trapped s c (illegalTrap c 2)))) ∧
    ∀ a : UReg, Issues (.swrsr a n) s c { u := [a] } →
      ((∀ v, (n.toNat, v) ∉ specialTable s c) → exec (.swrsr a n) s = .next (trapped s c (illegalTrap c 2))) ∧
      (∀ v, (n.toNat, v) ∈ specialTable s c → n ≠ 0x0030 → exec (.swrsr a n) s = .next (trapped s c (trapOf 0x05 [7, c.lanes.setWidth 64]))) ∧
      (n = 0x0030 → Completes (.swrsr a n) s c 0 fun g => g = { c.g with barst := g.barst } ∧
        ∀ j < 32, bit g.barst j = (bit c.g.barst j && !(bit (c.view.uni a).1 0) && !(bit (c.view.uni a).1 j)))

end

/-! ### Loads and stores (R228–R252, R266–R273) -/

namespace Sys2Proof.Machine

/-- The memory access that an instruction makes through a record or a pointer, whether the ld counter counts it, and the registers it names
(R244–R251, R316, R408); `none` for the other forms, and where the record's format does not go with the MODE type (R242). -/
def memAccess (c : Gang) (t : Ty) : Instr → Option (Access × Bool × Uses)
  | .ld d o (.record r) =>
    if recordFormat c.k t r then
      some (c.access .ld r.val c.lanes (c.opndRaw t.is64 o).val [] (some r) (dstRegs d).head? none, true, { regs := dstRegs d ++ srcRegs o })
    else none
  | .st x o (.record r) =>
    if recordFormat c.k t r then
      some (c.access (.st false) r.val c.lanes (c.opndRaw t.is64 o).val (captured (c.opnd t x)) (some r) none none, false, { regs := srcRegs x ++ srcRegs o })
    else none
  | .stsig x o (.record r) =>
    if recordFormat c.k t r then
      some (c.access (.st true) r.val c.lanes (c.opndRaw t.is64 o).val (captured (c.opnd t x)) (some r) none none, false, { regs := srcRegs x ++ srcRegs o })
    else none
  | .ldg d a unb =>
    some (c.access (.ldg unb) 0 c.lanes (c.opndRaw true a).val [] none (dstRegs d).head? none, true,
      { regs := dstRegs d, ranges := (srcRegs a).map fun r => (r, 2) })
  | .stg x a =>
    some (c.access .stg 0 c.lanes (c.opndRaw true a).val (captured (c.opnd t x)) none none none, false,
      { regs := srcRegs x, ranges := (srcRegs a).map fun r => (r, 2) })
  | .sst x o r =>
    some (c.access .sst r.val c.lowest (c.opndRaw t.is64 o).val (capturedU (c.view.uni x).1 (c.view.uni x).2) (some r) none none, false,
      { regs := srcRegs o, u := [x] })
  | .cctl op o r =>
    if recordFormat c.k t r then some (c.access (.cctl op) r.val c.lanes (c.opndRaw t.is64 o).val [] (some r) none none, false, { regs := srcRegs o }) else none
  | .semsig a b =>
    some (c.access .semsig 0 c.lowest (Vector.replicate 32 (c.view.uni a).1) (capturedU (c.view.uni b).1 (c.view.uni b).2) none none none, false,
      { u := [a, b] })
  | _ => none

/-- The record accesses whose format does not go with the MODE type (R242). -/
def formatRefused (c : Gang) (t : Ty) : Instr → Option Uses
  | .ld d o (.record r) => if recordFormat c.k t r then none else some { regs := dstRegs d ++ srcRegs o }
  | .st x o (.record r) | .stsig x o (.record r) => if recordFormat c.k t r then none else some { regs := srcRegs x ++ srcRegs o }
  | .cctl _ o r => if recordFormat c.k t r then none else some { regs := srcRegs o }
  | _ => none

/-- Nothing of gang c's group stands before an access: no counter is full, no release is in progress, and no earlier access is parked, buffered or
still to perform (R245–R247, R287, R297, R304, R328). -/
structure Unhindered (c : Gang) : Prop where
  ld : c.g.ld.length < 62
  st : c.g.st.length < 62
  release : c.g.release = none
  parks : c.g.parks = []
  red : c.g.red = []
  monitor : c.g.waita = none
  atomics : ∀ x ∈ c.g.ld, x.places = []

/-- The elements of an access, located. -/
def located (s : State) (c : Gang) (a : Access) : List (Spot × Found) := (locateAll s c.core c.g.kernel a a.spots).2

/-- Every element of an access is present and aligned, on pages that are no device's, name no peer's memory, and are alike in BC and SHR; no sector is poisoned,
another agent has taken no pool line, memory has its canonical form, and the core's copies hold bytes of their sectors, are of the access's context, not revoked, and leave
room for the lines that the access names. -/
structure Present (s : State) (c : Gang) (a : Access) (bc shr : Bool) : Prop where
  check : a.check = none
  found : ∀ x ∈ located s c a, ∃ at_ pa, x.2 = .at_ at_ pa ∧ at_.bound = bc ∧ decide (at_.type = 3) = shr ∧ at_.type ≠ 4 ∧ pa % x.1.n = 0 ∧ peerOf shr pa = 0
  clean : s.poison = []
  owned : s.dev.poolForeign = []
  room : (s.core c.core).l1.length + (located s c a).length ≤ l1Lines
  copies : ∀ e ∈ (s.core c.core).l1, e.revoked = false ∧ e.asid = c.k.asid ∧ KMap.wf e.bytes = true ∧ ∀ o b, (o, b) ∈ e.bytes → o < sectorSize e.sector
  memory : Memory.wf s.mem = true

/-- A byte as core's accesses on pages of one kind find it: in its copy of the sector, or at its point of coherence (R232, R324). -/
def seenByte (s : State) (core : Nat) (bc : Bool) (pa : Nat) : Nat :=
  let o := pa - sectorBase (sectorOf pa)
  match l1Free s core (sectorOf pa) with
  | some e => ((if (e.full && (e.side.isSome || !bc)) || bit e.dirty o then (KMap.get? e.bytes o).getD 0 else Memory.read s.mem pa)).toNat
  | none => (Memory.read s.mem pa).toNat

/-- n bytes, the lowest address least significant. -/
def seenBytes (s : State) (core : Nat) (bc : Bool) (pa n : Nat) : Nat :=
  (List.range n).foldr (fun i acc => seenByte s core bc (pa + i) + 256 * acc) 0

/-- Bit A of memory, by bit address. -/
def seenBit (s : State) (core : Nat) (bc : Bool) (A : Nat) : Bool := (seenByte s core bc (A / 8)).testBit (A % 8)

/-- The bits of a located element. -/
def seenElem (s : State) (c : Gang) (bc : Bool) (p : Spot) (pa : Nat) : Nat := seenBytes s c.core bc pa p.n / 2 ^ p.sh % 2 ^ p.w

/-- The scale that a sub-element's access reads, with some bound (R238). -/
def seenScale (s : State) (c : Gang) (a : Access) (bc : Bool) (β : B16) (l j : Nat) : ScaleRead :=
  match placeOf (located s c a) l j true with
  | some (q, _, pa) => some (seenElem s c bc q pa, β)
  | none => none

/-- The record of an access. -/
def recordOf (a : Access) : Rec := match a.record with
  | some (_, w) => recOf w
  | none => recOf []

/-- A step of the ld or st counter has been raised for gang c's instruction, which goes on; memory's points of coherence, other groups and the rest of the group
are as `same` says (R246, R304). -/
def Steps (i : Instr) (s : State) (c : Gang) (load : Bool) (P : State → CStep → Prop) : Prop :=
  ∃ (s' : State) (g : Group) (st : CStep), exec i s = .next (wentPast s' c) ∧ s'.group? c.gid = some g ∧
    (if load then (∃ q, g.ld = q ++ [st] ∧ q.length = c.g.ld.length) ∧ g.st = c.g.st else g.st = c.g.st ++ [st] ∧ g.ld.length = c.g.ld.length) ∧
    Frame c.view.score { c.g with ld := g.ld, st := g.st, stepSeq := c.g.stepSeq + 1 } g [] [] [] ∧
    st.id = c.g.stepSeq ∧ P s' st

/-- The bits that a store writes, in order: the bit address, the width and the bits of each element (R239, R247–R249). -/
def storedBits (s : State) (c : Gang) (a : Access) (bc : Bool) : List (Nat × Nat × Nat) :=
  (setBitsOf a.lanes).flatMap fun l => (List.range (match a.op with
      | .st _ => a.ty.n
      | _ => 1)).filterMap fun j =>
    (placeOf (located s c a) l j false).map fun (p, _, pa) => (8 * pa + p.sh, p.w, match a.op with
      | .st _ => (stageStore a.ty (recordOf a).ty a.mode (seenScale s c a bc 0 l j) 0 (elem (dataAt a.data a.ty.is64 l).1 j a.ty.w)).1
      | _ => (dataAt a.data (decide (p.n = 8)) l).1)

/-- Bit address A lies in an element. -/
def inElem (x : Nat × Nat × Nat) (A : Nat) : Prop := x.1 ≤ A ∧ A < x.1 + x.2.1

/-- Each clean byte of a core's copies is that at its point of coherence. -/
def CleanCopies (s : State) (core : Nat) : Prop :=
  ∀ e ∈ (s.core core).l1, ∀ o b, KMap.get? e.bytes o = some b → bit e.dirty o = false → b = Memory.read s.mem (sectorBase e.sector + o)

/-- Each of a core's copies holds its whole sector, or only bytes that the core has written. -/
def WholeOrDirty (s : State) (core : Nat) : Prop :=
  ∀ e ∈ (s.core core).l1, coversSector e.sector e.bytes = true ∨ ∀ o b, KMap.get? e.bytes o = some b → bit e.dirty o = true

/-- A byte once the core has written back its copy of the sector: its dirty byte, or that of memory (R292). -/
def ownByte (s : State) (core : Nat) (pa : Nat) : Nat :=
  let o := pa - sectorBase (sectorOf pa)
  (match l1Free s core (sectorOf pa) with
  | some e => if bit e.dirty o then (KMap.get? e.bytes o).getD (Memory.read s.mem pa) else Memory.read s.mem pa
  | none => Memory.read s.mem pa).toNat

/-- n such bytes, the lowest address least significant. -/
def ownBytes (s : State) (core : Nat) (pa n : Nat) : Nat := (List.range n).foldr (fun i acc => ownByte s core (pa + i) + 256 * acc) 0

/-- Gang c's run is held at its instruction by h, in state s'. -/
def Holds (i : Instr) (s s' : State) (c : Gang) (h : Hold) : Prop :=
  exec i s = .next (tick (s'.modGroup c.gid fun g => { g with hold := some h }))

/-- A store goes through to its point of coherence: a signalling one, and one that allocates no line (R233, R315). -/
def goesThrough (a : Access) : Bool := noAlloc a false || match a.op with
  | .st forced => forced || (recordOf a).sig
  | .sst => (recordOf a).sig
  | _ => false

end Sys2Proof.Machine

section

open Sys2Proof Sys2Proof.Machine

/-- R236, R242, R245, R248, R270, R304: what stops a memory access, in the order of R245: a full counter or a release in progress stalls it; a format that does not go with
MODE, a malformed record, an element outside its record, a misaligned address, and a page that does not permit it trap; an absent page parks the gang. -/
def Obligations.MemoryAccessChecks : Prop :=
  ∀ (i : Instr) (s : State) (c : Gang) (t : Ty), c.ty = some t →
    (∀ u, formatRefused c t i = some u → Issues i s c u → exec i s = .next (trapped s c (modeTrap c))) ∧
    ∀ (a : Access) (load : Bool) (u : Uses), memAccess c t i = some (a, load, u) → Issues i s c u →
      ((load = true ∧ 62 ≤ c.g.ld.length) ∨ (load = false ∧ (62 ≤ c.g.st.length ∨ c.g.release.isSome = true)) → Stalls i s c) ∧
      (Unhindered c →
        (a.recordless = false → a.record = none ∨ (∃ n w, a.record = some (n, w) ∧ recMalformed w = true) →
          exec i s = .next (trapped s c (trapMalformed a.lanes))) ∧
        (∀ n w, a.record = some (n, w) → recMalformed w = false → a.generic = false →
          (∃ p ∈ a.spots, (if p.scale then (recOf (w.drop 5)).len else (recOf w).len) < p.off + p.n) →
          ∃ e : TrapInfo, e.code = 0x03 ∧ exec i s = .next (trapped s c e)) ∧
        (∀ n w, a.record = some (n, w) → recMalformed w = false → a.generic = false →
          (∀ p ∈ a.spots, p.off + p.n ≤ if p.scale then (recOf (w.drop 5)).len else (recOf w).len) → a.spots ≠ [] →
          (recOf w).base % baseAlign a (recOf w).ty.w ≠ 0 → ∃ e : TrapInfo, e.code = 0x04 ∧ exec i s = .next (trapped s c e)) ∧
        (a.recordless = true → (∃ p ∈ a.spots, p.va % p.n ≠ 0) → ∃ e : TrapInfo, e.code = 0x04 ∧ exec i s = .next (trapped s c e)) ∧
        (a.check = none → (∃ x ∈ located s c a, ∃ n, x.2 = .bad n) → ∃ e : TrapInfo, e.code = 0x05 ∧ exec i s = .next (trapped s c e)) ∧
        (a.check = none → (∀ x ∈ located s c a, ∀ n, x.2 ≠ .bad n) → (∃ x ∈ located s c a, x.2 = .absent) → s.poison = [] →
          ∃ (r : State) (g : Group) (pk : Park), exec i s = .next r ∧ r.group? c.gid = some g ∧ g.run = none ∧ pk ∈ g.parks ∧ pk.cause = .fault ∧
            ∀ l < 32, bit pk.acc.lanes l = true ↔ bit a.lanes l = true ∧ ∃ x ∈ located s c a, x.1.lane = l ∧ (x.2 = .absent ∨ ∃ v, x.2 = .migrating v)))

/-- R238, R240, R244, R246, R248, R249: a load whose pages are present performs: its step, or for `SLD` its flag, holds the values of the bytes that the core sees, through the
conversion stage; nothing at a point of coherence changes. -/
def Obligations.LoadResults : Prop :=
  ∀ (s : State) (c : Gang) (t : Ty) (bc shr : Bool), c.ty = some t → Unhindered c →
    (∀ (i : Instr) (d : Dst) (o : Src) (r : RecNo) (a : Access) (u : Uses), i = .ld d o (.record r) → memAccess c t i = some (a, true, u) →
      Issues i s c u → Present s c a bc shr →
      Steps i s c true fun s' st => s'.mem = s.mem ∧ s'.side = s.side ∧ st.performed = true ∧ ∃ out : Nat → LaneOut,
        (∀ l < 32, bit c.lanes l = true → ∀ j < t.n, ∃ (p : Spot) (at_ : Attr) (pa : Nat) (β βs : B16),
          placeOf (located s c a) l j false = some (p, at_, pa) ∧ (bc = false → β = (recordOf a).bound) ∧
          let x := stageLoad (recordOf a).ty t c.mode (seenScale s c a bc βs l j) β (seenElem s c bc p pa)
          elem (out l).val.toNat j t.w = x.1 % 2 ^ t.w ∧ (c.k.score = false → ∀ q, x.2.1 = .fin q → isUntracked (out l).bnd = true ∨
            (roundUpB16 q).toNat ≤ (out l).bnd.toNat)) ∧
        st.writes = match d with
          | .reg r => dstWrites t.is64 (.reg r) (outOpnd fun l => if bit c.lanes l then out l else LaneOut.none) c.lanes
          | .discard => []) ∧
    (∀ (d : Dst) (b : Src) (unb : Bool) (a : Access) (u : Uses), memAccess c t (.ldg d b unb) = some (a, true, u) →
      Issues (.ldg d b unb) s c u → Present s c a bc shr →
      Steps (.ldg d b unb) s c true fun s' st => s'.mem = s.mem ∧ s'.side = s.side ∧ st.performed = true ∧ st.sticky = 0 ∧ ∃ out : Nat → LaneOut,
        (∀ l < 32, bit c.lanes l = true → ∃ (p : Spot) (at_ : Attr) (pa : Nat), placeOf (located s c a) l 0 false = some (p, at_, pa) ∧
          (out l).val.toNat = seenBytes s c.core bc pa (if t.is64 then 8 else 4) ∧
          (bc = false → (out l).bnd = scoreB c.k.score (if unb then b16Unbounded else b16Exact))) ∧
        st.writes = match d with
          | .reg r => dstWrites t.is64 (.reg r) (outOpnd fun l => if bit c.lanes l then out l else LaneOut.none) c.lanes
          | .discard => []) ∧
    ∀ (d : UReg) (o : Src) (r : RecNo), Issues (.sld d o r) s c { regs := srcRegs o, u := [d] } → c.lowest ≠ 0 → flagFree c →
      let a := c.access .sld r.val c.lowest (c.opndRaw t.is64 o).val [] (some r) none (some d)
      Present s c a bc shr → ∃ (s' : State) (g : Group) (p : Spot) (at_ : Attr) (pa : Nat) (β : B16) (q : Pending) (rest : List Pending),
        exec (.sld d o r) s = .next (wentPast s' c) ∧ s'.group? c.gid = some g ∧ s'.mem = s.mem ∧
        placeOf (located s c a) ((lowestBit c.all).getD 0) 0 false = some (p, at_, pa) ∧ (bc = false → β = scoreB c.k.score (recordOf a).bound) ∧
        g.pend = rest ++ [q] ∧ q.kind = .sld ∧ q.flag = c.nextFlag ∧ q.trap = none ∧
        q.writes = [.u d (BitVec.ofNat 64 (seenBytes s c.core bc pa 8)) β] ∧
        Frame c.view.score { c.g with unsettled := g.unsettled, cflags := g.cflags, run := g.run } g [] [] []

/-- R239, R240, R247–R249, R315: a store whose pages are present performs: each bit it names holds the last value stored to it, as the storing core sees memory, and every
other bit is as before; a store that does not go through to its point of coherence leaves all of memory there unchanged. -/
def Obligations.StoreResults : Prop :=
  ∀ (i : Instr) (s : State) (c : Gang) (t : Ty) (a : Access) (u : Uses) (bc : Bool), c.ty = some t → Unhindered c →
    (∃ x o r, i = .st x o (.record r) ∨ i = .stsig x o (.record r)) ∨ (∃ x b, i = .stg x b) ∨ (∃ x o r, i = .sst x o r) →
    memAccess c t i = some (a, false, u) → Issues i s c u → Present s c a bc false →
    let W := storedBits s c a bc
    Steps i s c false fun s' st => st.performed = true ∧ st.writes = [] ∧
      (goesThrough a = false → s'.mem = s.mem ∧ s'.poison = s.poison) ∧
      (∀ (n : Nat) (x : Nat × Nat × Nat) (A : Nat), W[n]? = some x → inElem x A → (∀ m y, n < m → W[m]? = some y → ¬inElem y A) →
        seenBit s' c.core bc A = x.2.2.testBit (A - x.1)) ∧
      ((goesThrough a = false ∧ WholeOrDirty s c.core) ∨ CleanCopies s c.core → ∀ A, (∀ x ∈ W, ¬inElem x A) → seenBit s' c.core bc A = seenBit s c.core bc A)

/-- R250–R252, R408: `PREF` changes no value; `CCTL` writes back the dirty bytes of the lines it names, and discards them unless told to keep them; `SEMSIG` raises its
semaphore; `RECSYNC` holds its run until the record is read. -/
def Obligations.CacheControlAndSignals : Prop :=
  ∀ (s : State) (c : Gang) (t : Ty), c.ty = some t →
    (∀ (hub : Bool) (o : Src) (r : RecNo), Issues (.pref hub o r) s c { regs := srcRegs o } →
      let a := c.access .pref r.val c.lanes (c.opndRaw t.is64 o).val [] (some r) none none
      let good := (setBitsOf c.lanes).filter fun l => ({ a with lanes := maskOf 32 fun i => decide (i = l) } : Access).check.isNone
      ∃ s', exec (.pref hub o r) s = .next (wentPast s' c) ∧ s'.groups = (entered s c).groups ∧ s'.teams = s.teams ∧ s'.kernels = s.kernels ∧
        s'.parts = s.parts ∧ s'.queues = s.queues ∧
        (s.dev.poolForeign = [] → (s.core c.core).l1.length + 128 ≤ l1Lines → (∀ e ∈ (s.core c.core).l1, e.asid = c.k.asid) →
          (∀ x ∈ (locateAll s c.core c.g.kernel a (good.flatMap a.laneSpots)).2, ∀ at_ pa, x.2 = .at_ at_ pa → at_.type ≠ 3) →
          s'.mem = s.mem ∧ s'.side = s.side)) ∧
    (∀ (op : BitVec 2) (o : Src) (r : RecNo) (a : Access) (u : Uses) (bc : Bool), memAccess c t (.cctl op o r) = some (a, false, u) →
      Issues (.cctl op o r) s c u → Unhindered c → Present s c a bc false →
      let named (pa : Nat) : Prop := ∃ x ∈ located s c a, ∃ at_ q, x.2 = .at_ at_ q ∧ lineOf q = lineOf pa
      Steps (.cctl op o r) s c false fun s' st => st.performed = true ∧
        (op ≠ 3 → ∀ pa, named pa → (Memory.read s'.mem pa).toNat = ownByte s c.core pa) ∧
        (∀ pa, op = 3 ∨ ¬named pa → Memory.read s'.mem pa = Memory.read s.mem pa ∧ seenByte s' c.core bc pa = seenByte s c.core bc pa) ∧
        (∀ pa, ¬named pa → l1Free s' c.core (sectorOf pa) = l1Free s c.core (sectorOf pa)) ∧
        (op = 1 ∨ op = 2 → ∀ pa, named pa → l1Free s' c.core (sectorOf pa) = none)) ∧
    (∀ (x y : UReg) (a : Access) (u : Uses) (bc : Bool), memAccess c t (.semsig x y) = some (a, false, u) → Issues (.semsig x y) s c u → c.lowest ≠ 0 → Unhindered c →
      Present s c a bc false → Steps (.semsig x y) s c false fun s' st => st.performed = true ∧ ∃ (p : Spot) (at_ : Attr) (pa : Nat),
        located s c a = [(p, .at_ at_ pa)] ∧
        Memory.readN s'.mem pa 8 = max (ownBytes s c.core pa 8) (c.view.uni y).1.toNat ∧
        ∀ q, q < pa ∨ pa + 8 ≤ q → (Memory.read s'.mem q).toNat = if sectorOf q = sectorOf pa then ownByte s c.core q else (Memory.read s.mem q).toNat) ∧
    ∀ r : Option RecNo, Issues (.recsync r) s c {} →
      ((∃ n, r = some n ∧ c.k.recCount ≤ n.val) → exec (.recsync r) s = .next (trapped s c (trapMalformed c.lanes))) ∧
      ((∀ n, r = some n → n.val < c.k.recCount) → ∃ a : Access, a.op = .recsync r ∧ Holds (.recsync r) s (entered s c) c (.recsync a))

end
/-! ### The machine: decoding, steps, reset, memory, traps (R5, R29–R52, R425–R434, R451, R457) -/

namespace Sys2Proof.Machine

/-- The frame of a trap (R426, R427). -/
structure FrameOf (g : Group) (site : TrapSite) (t : TrapInfo) (frame : List W64) : Prop where
  length : frame.length = 8
  pc : (wordAt frame 0).toNat = bits site.pc 59 0
  word : bits (wordAt frame 1) 63 32 = site.word.toNat
  zero : bits (wordAt frame 1) 31 29 = 0
  active : bit (wordAt frame 1) 28 = true
  async : bit (wordAt frame 1) 27 = t.async
  legacy : bit (wordAt frame 1) 26 = t.legacy
  step : bits (wordAt frame 1) 25 22 = t.step
  slices : bits (wordAt frame 1) 21 14 = site.slices.toNat
  inrun : bit (wordAt frame 1) 13 = (match site.run with
    | some r => r.begun
    | none => false)
  remaining : bits (wordAt frame 1) 12 8 = (match site.run with
    | some r => r.words.length
    | none => 0)
  code : bits (wordAt frame 1) 7 0 = t.code.toNat
  detail : ∀ i < 6, wordAt frame (i + 2) = wordAt t.detail i

/-- The saved copy holds what R430 lists of group g, the PC of the slices `m` being pc (R400, R429). -/
structure SavedOf (g : Group) (codeVa : Nat) (m : BitVec 8) (pc : W64) (saved : KMap W64) : Prop where
  uniforms : ∀ j : Fin 64, KMap.get? saved (8 * j.val) = some g.s[j.val]
  slices : ∀ j : Fin 8, ∃ a d, KMap.get? saved (0x2A0 + 16 * j.val) = some a ∧ KMap.get? saved (0x2A8 + 16 * j.val) = some d ∧
    bits a 31 0 = ((if bit m j.val then pc else g.slices[j.val].pc).toNat - codeVa) / 4 % 2 ^ 32 ∧
    bits a 55 32 = g.slices[j.val].mode.toNat ∧ bits a 59 56 = g.slices[j.val].act.toNat ∧ bits a 63 60 = g.slices[j.val].exited.toNat ∧
    (g.slices[j.val].stack.length ≤ 16 → bits d 4 0 = g.slices[j.val].stack.length ∧ bit d 5 = g.slices[j.val].parked)
  flags : ∃ b, KMap.get? saved 0x320 = some b ∧ bits b 15 0 = g.budget.toNat ∧ bits b 24 16 = g.sticky.toNat ∧ bits b 29 25 = g.fpEnable.toNat

/-- Words that are no events decode to the instructions that the encoding tables give them (R32–R42). -/
def decodedWords : List (List W32 × Instr) :=
  [([0x00000000], .nop), ([0x01000004], .bra 4), ([0x03000000], .join), ([0x08000000], .exit),
   ([0x2A060805], .lea64 (.reg (.v ⟨6, by decide⟩)) (.reg (.v ⟨8, by decide⟩)) (.reg (.v ⟨5, by decide⟩))),
   ([0xF41194C0], .setm 0x1194C0), ([0x100504FA], .iadd (.reg (.v ⟨5, by decide⟩)) (.reg (.v ⟨4, by decide⟩)) .lane),
   ([0x2D040406], .shi (.reg (.v ⟨4, by decide⟩)) (.reg (.v ⟨4, by decide⟩)) 0 6),
   ([0x40020001], .fadd (.reg (.v ⟨2, by decide⟩)) (.reg (.v ⟨0, by decide⟩)) (.reg (.v ⟨1, by decide⟩)) none)]

end Sys2Proof.Machine

section

open Sys2Proof Sys2Proof.Machine

/-- R32–R42, R50, R51: an encoded well-formed instruction decodes to itself, and the words after it are left. -/
def Obligations.DecodeEncode : Prop :=
  ∀ (i : Instr) (rest : List W32), i.wellFormed = true → decode (encode i ++ rest) = .ok (i, rest)

/-- R32, R34, R40, R75, R79, R95, R111: words of the manual's examples decode to their instructions. -/
def Obligations.DecodeWords : Prop := ∀ x ∈ decodedWords, decode x.1 = .ok (x.2, [])

/-- R87, R33: where no move of another agent comes first, a step runs the instruction that the words of the issuing group's run decode to; a
move that names a group runs that group's; a move that is an event is that event; and an instruction word goes by with its run. -/
def Obligations.StepRunsDecoded : Prop :=
  (∀ (s : State) (i : Instr) (rest : List W32), s.agenda = [] → s.dev.power = .d0 → withheld s = false → yields s = false →
    decode (issuable s s.focus) = .ok (i, rest) → step s = exec i s) ∧
  (∀ (s : State) (gid : Nat) (i : Instr) (rest : List W32), s.agenda = [] → turn s = some gid →
    decode (issueWords { s with focus := gid } gid) = .ok (i, rest) → step s = exec i { s with focus := gid }) ∧
  (∀ (s : State) (gid : Nat) (t : List Move) (i : Instr) (rest : List W32), s.agenda = .issue gid :: t →
    decode (issueWords { s with agenda := t, focus := gid } gid) = .ok (i, rest) → issueWords { s with agenda := t } gid ≠ [] →
    step s = exec i { s with agenda := t, focus := gid }) ∧
  (∀ (s : State) (i : Instr) (t : List Move), s.agenda = .event i :: t → i.isWord = false → step s = exec i { s with agenda := t }) ∧
  ∀ (s : State) (i : Instr) (rest : List W32) (c : Gang), gangOf i s = some c → decode (c.run.words) = .ok (i, rest) →
    c.words = c.run.words.length - rest.length

/-- R457, R451, R128: power-on reset leaves memory at 0 with exact sidebands, no group, kernel, context or queue, every partition at its reset
values, and the device registers at R451's. -/
def Obligations.ResetState : Prop :=
  let s := State.reset
  (∀ a, Memory.read s.mem a = 0) ∧ (∀ n, (KMap.get? s.side n).getD sideExact = sideExact) ∧ s.poison = [] ∧
  Memory.wf s.mem = true ∧ Memory.wf s.pool = true ∧
  (∀ n, s.group? n = none) ∧ s.teams = [] ∧ s.kernels = [] ∧ s.ctxs = [] ∧ s.queues = [] ∧ s.tlb = [] ∧ s.durWait = [] ∧ s.pbuf = [] ∧
  s.dev.devCfg = 0 ∧ s.dev.bootDone = false ∧ s.dev.recovery = false ∧ s.dev.pwLimit = 1800 ∧ s.dev.pwWatts = 0 ∧ s.dev.throttle = 0 ∧
  s.dev.pwGate = true ∧ s.dev.verified = [] ∧ (∀ w : Fin 16, s.dev.poolWin[w.val] = (0, 0)) ∧ (∀ f : Fin 64, s.dev.vfAsid[f.val] = 0) ∧
  (∀ p : Fin 16, s.dev.links[p.val].state = .down ∧ s.dev.links[p.val].peer = 0 ∧ s.dev.links[p.val].retrains = 0) ∧
  (∀ i : Fin 8, s.parts[i.val] = Partition.reset) ∧ Partition.reset.regs.fqSize = 6 ∧ Partition.reset.regs.hsSize = 6 ∧
  Partition.reset.regs.exSize = 12 ∧ Partition.reset.regs.elSize = 6 ∧ Partition.reset.regs.thBase = 0

/-- Every step keeps memory and the pools in their canonical form, so that equal contents are equal data, and a byte that a list does not hold
reads 0 (log entries 1 and 2). -/
def Obligations.MemoryInvariantStep : Prop :=
  ∀ s t : State, Memory.wf s.mem = true → Memory.wf s.pool = true → step s = .next t → Memory.wf t.mem = true ∧ Memory.wf t.pool = true

/-- R426–R431: a trap writes its frame and the saved copy and enters the handler, which finds every other register live; without a usable
handler, or in the handler, it kills the group with an error record. -/
def Obligations.TrapTaken : Prop :=
  ∀ (s : State) (gid : Nat) (g : Group) (site : TrapSite) (t : TrapInfo), s.group? gid = some g → t.step < 16 →
    (∀ r, site.run = some r → r.words.length < 32) →
    let k := s.kernel g.kernel
    (g.inHandler = true → takeTrap s gid site t = killGroup s gid fun g => groupRec s g 0x06 t.code.toNat site.pc.toNat) ∧
    (g.inHandler = false → handlerOf s k.part k.asid k.prot = none → ∃ g', FrameOf g site t g'.frame ∧
      takeTrap s gid site t = killGroup (s.setGroup gid g') gid fun g => groupRec s g 0x07 t.code.toNat site.pc.toNat) ∧
    (∀ h, g.inHandler = false → handlerOf s k.part k.asid k.prot = some h →
      ∃ g', (takeTrap s gid site t).group? gid = some g' ∧ OnlyGroup s (takeTrap s gid site t) gid ∧ FrameOf g site t g'.frame ∧
        SavedOf g k.code.va site.slices site.pc g'.saved ∧ g'.handler = some h ∧ g'.resume = site.run ∧ g'.run = none ∧ g'.hold = none ∧
        ((∃ r, site.run = some r ∧ r.begun = true) → g'.savedX = g.x) ∧
        (∀ j : Fin 8, bit (g.liveSlices k) j.val = true → g'.slices[j.val] =
          { pc := BitVec.ofNat 64 h.entry, mode := 0, oldMode := none, act := k.fullMask &&& ~~~g.slices[j.val].exited
            exited := g.slices[j.val].exited, stack := [], parked := false, notBefore := 0 }) ∧
        g' = { g with frame := g'.frame, savedX := g'.savedX, saved := g'.saved, resume := g'.resume, run := none, hold := none
                      handler := g'.handler, x := [], entryExited := g'.entryExited, slices := g'.slices })

/-- R430, R431, R434: outside handler mode `TRET` traps; in it, it kills where the saved copy fails its checks or it is told to; else it gives the
group back the saved copy, clears `active`, and resumes the trapping gang's run at the instruction, or after it. -/
def Obligations.ReturnFromTrap : Prop :=
  ∀ (m : BitVec 2) (s : State) (c : Gang), Issues (.tret m) s c {} → c.last = true →
    (c.lacksSlice = false → c.g.inHandler = false → exec (.tret m) s = .next (trapped s c (illegalTrap c 6))) ∧
    (c.lacksSlice = false → c.g.inHandler = true → savedOk s c.g = false ∨ m = 2 →
      exec (.tret m) s = .next (tick (killGroup (entered s c) c.gid fun g => groupRec s g 0x08 (bits (wordAt g.frame 1) 7 0) c.pc))) ∧
    (c.lacksSlice = false → c.g.inHandler = true → savedOk s c.g = true → m = 0 ∨ m = 1 →
      ∃ t g', exec (.tret m) s = .next t ∧ t.group? c.gid = some g' ∧ OnlyGroup s t c.gid ∧ g'.handler = none ∧
        let word (off : Nat) : W64 := (KMap.get? c.g.saved off).getD 0
        (∀ j : Fin 64, g'.s[j.val] = word (8 * j.val)) ∧
        g'.budget.toNat = bits (word 0x320) 15 0 ∧ g'.sticky.toNat = bits (word 0x320) 24 16 ∧ g'.fpEnable.toNat = bits (word 0x320) 29 25 ∧
        (∀ j : Fin 8, g'.slices[j.val].mode.toNat = bits (word (0x2A0 + 16 * j.val)) 55 32 ∧
          g'.slices[j.val].act = BitVec.ofNat 4 (bits (word (0x2A0 + 16 * j.val)) 59 56) &&& (s.kernel c.g.kernel).fullMask ∧ g'.slices[j.val].exited.toNat = bits (word (0x2A0 + 16 * j.val)) 63 60 ∧
          g'.slices[j.val].parked = bit (word (0x2A8 + 16 * j.val)) 5) ∧
        (c.g.inrun = true → g'.run ≠ none → g'.x = c.g.savedX) ∧
        (c.g.frame.length = 8 → bit (wordAt g'.frame 1) 28 = false ∧ ∀ j < 64, j ≠ 28 → bit (wordAt g'.frame 1) j = bit (wordAt c.g.frame 1) j) ∧
        g'.v = c.g.v ∧ g'.cflags = c.g.cflags ∧ g'.batchNo = c.g.batchNo ∧ g'.decStatus = c.g.decStatus ∧ g'.barst = c.g.barst ∧ g'.token = c.g.token ∧
        (∀ r, c.g.resume = some r →
          let pc := BitVec.ofNat 64 (bits (wordAt c.g.frame 0) 59 0)
          let at_ (j : Fin 8) : Prop := bit (BitVec.ofNat 8 (bits (wordAt c.g.frame 1) 21 14)) j.val = true ∧
            BitVec.ofNat 64 ((s.kernel c.g.kernel).code.va + 4 * bits (word (0x2A0 + 16 * j.val)) 31 0) = pc
          ((∀ j, ¬at_ j) → g'.run = none) ∧
          ((∃ j, at_ j) → m = 0 ∨ bit (wordAt c.g.frame 1) 27 = true → ∃ q, g'.run = some q ∧ q.words = r.words ∧ q.pc = r.pc ∧ q.trailer = r.trailer ∧
            ∀ j : Fin 8, bit q.slices j.val = true ↔ at_ j) ∧
          ((∃ j, at_ j) → m = 1 → bit (wordAt c.g.frame 1) 27 = false → headLen r.words < r.words.length →
            ∃ q, g'.run = some q ∧ q.words = r.words.drop (headLen r.words) ∧ q.pc = r.pc + BitVec.ofNat 64 (4 * headLen r.words) ∧
              ∀ j : Fin 8, bit q.slices j.val = true ↔ at_ j) ∧
          ((∃ j, at_ j) → m = 1 → bit (wordAt c.g.frame 1) 27 = false → r.words.length ≤ headLen r.words →
            g'.run = none ∧ ∀ j : Fin 8, at_ j → g'.slices[j.val].pc =
              r.pc + BitVec.ofNat 64 (4 * headLen r.words) + if r.trailer then 4 else 0)))

end
/-! ### Tiles (R244, R253–R260) -/

namespace Sys2Proof.Machine

/-- The tile that an access names, the element of lane l's sub-element j, and its registers (R244, R257). -/
def tileForm (c : Gang) (t : Ty) : Instr → Option (TileNo × (Tile → Nat → Nat → Nat × Nat) × Uses)
  | .tld d o h => some (h, fun _ l j => (offs o l / 2 ^ 16, offs o l % 2 ^ 16 + j), { regs := dstRegs d ++ srcRegs o })
  | .tldx d o h => some (h, fun _ l j => (offs o l / 2 ^ 16 + j, offs o l % 2 ^ 16), { regs := dstRegs d ++ srcRegs o })
  | .ld d o (.tile h) => some (h, fun x l j => ((offs o l + j) / max 1 (tileCols x.desc), (offs o l + j) % max 1 (tileCols x.desc)),
      { regs := dstRegs d ++ srcRegs o })
  | .tst v o h => some (h, fun _ l j => (offs o l / 2 ^ 16, offs o l % 2 ^ 16 + j), { regs := srcRegs v ++ srcRegs o })
  | .tstx v o h => some (h, fun _ l j => (offs o l / 2 ^ 16 + j, offs o l % 2 ^ 16), { regs := srcRegs v ++ srcRegs o })
  | .st v o (.tile h) => some (h, fun x l j => ((offs o l + j) / max 1 (tileCols x.desc), (offs o l + j) % max 1 (tileCols x.desc)),
      { regs := srcRegs v ++ srcRegs o })
  | .stsig v o (.tile h) => some (h, fun x l j => ((offs o l + j) / max 1 (tileCols x.desc), (offs o l + j) % max 1 (tileCols x.desc)),
      { regs := srcRegs v ++ srcRegs o })
  | _ => none
where
  offs (o : Src) (l : Nat) : Nat := (c.opndRaw t.is64 o).at l % 2 ^ 32

/-- The destination of a tile load, and the data of a tile store. -/
def tileDest : Instr → Option Dst
  | .tld d _ _ | .tldx d _ _ | .ld d _ (.tile _) => some d
  | _ => none
def tileData : Instr → Option Src
  | .tst v _ _ | .tstx v _ _ | .st v _ (.tile _) | .stsig v _ (.tile _) => some v
  | _ => none

/-- An element inside a tile. -/
def inTile (x : Tile) (p : Nat × Nat) : Prop := p.1 < tileRows x.desc ∧ p.2 < tileCols x.desc

/-- Tile y is tile x with the elements W written, in order: row, column and bits. -/
def TileWritten (x y : Tile) (W : List (Nat × Nat × Nat)) : Prop :=
  y.desc = x.desc ∧ y.base = x.base ∧ y.rows = x.rows ∧ ∀ r q, inTile x (r, q) →
    y.read r q = match (W.filter fun w => decide (w.1 = r ∧ w.2.1 = q)).getLast? with
      | some w => w.2.2 % 2 ^ (tileTy x.desc).w
      | none => x.read r q

/-- Every team's tiles but one are as before. -/
def OtherTiles (s s' : State) (team : Nat) (h : TileNo) : Prop :=
  (∀ n h', n ≠ team ∨ h' ≠ h → s'.tile n h' = s.tile n h') ∧ s'.mem = s.mem ∧ s'.side = s.side

/-- A new tile's bank rows at offset b are free of every tile of a list that shares a scratchpad with it (R254). -/
def RowsFree (c : Gang) (d : W64) (b : Nat) (tiles : List Tile) : Prop :=
  b + tileRowsPerCore d ≤ c.k.reservation ∧ ∀ x ∈ tiles, (tilePair d = true ∨ tilePair x.desc = true ∨ x.core = c.core) →
    b + tileRowsPerCore d ≤ x.base ∨ x.base + x.rows ≤ b

/-- The accesses of a team that were in flight when gang c's `TFREE` issued (R256): the marks it took then. -/
def freeMarks (s : State) (c : Gang) : KMap Nat := match c.g.freeing with
  | some (run, pc, m) => if run = c.run.id ∧ pc = c.run.pc then m else teamMarks s c.g.team
  | none => teamMarks s c.g.team

end Sys2Proof.Machine

section

open Sys2Proof Sys2Proof.Machine

/-- R253, R254, R256: `TALLOC` takes the lowest free run of bank rows for a legal shape, with every word 0, waits where a freed tile's rows are still in use, and traps with
code 0x0C otherwise; `TFREE` frees a tile that no access from before its issue uses, waits for one in use, and traps for none; `TINFO` reads the descriptor.
R242, R244, R245, R257: an access to a tile that is not allocated, or to an element outside it, traps with code 0x0C; a load's step holds the elements'
values through the conversion stage, and a store writes its elements, the last one standing, and no other.
R258, R259: `TLDT` loads a 4 by 16 block in column order over a register range, and `TFILL` writes one value to whole rows. -/
def Obligations.Tiles : Prop :=
  (∀ (s : State) (c : Gang) (h : TileNo),
       (∀ a : UReg, Issues (.talloc h a) s c { u := [a] } →
         let d := (c.view.uni a).1
         let legal := s.tile c.g.team h = none ∧ 1 ≤ tileRows d ∧ 1 ≤ tileCols d ∧ (tyOf (bits d 36 32)).isSome = true ∧ bits d 47 40 = 0 ∧ bit d 39 = false ∧
           (tilePair d = true → c.k.pair = true)
         let held := (s.team c.g.team).tiles.map (·.2)
         let taken := held ++ (lateInUse s c.g.team).map (·.tile)
         (¬legal ∨ (∀ b, ¬RowsFree c d b held) → exec (.talloc h a) s = .next (trapped s c (trapTile 2 c.lanes 0))) ∧
         (legal → (∃ b, RowsFree c d b held) → (∀ b, ¬RowsFree c d b taken) →
           Stays (.talloc h a) s c) ∧
         (∀ b, legal → RowsFree c d b taken → (∀ b' < b, ¬RowsFree c d b' taken) →
           exec (.talloc h a) s = .next (passed (s.setTile c.g.team h
             { desc := d, base := b, rows := tileRowsPerCore d, words := [], side := [], poison := [], core := c.core }) c))) ∧
       (Issues (.tfree h) s c {} →
         (s.tile c.g.team h = none → exec (.tfree h) s = .next (trapped s c (trapTile 0 c.lanes 0))) ∧
         (s.tile c.g.team h ≠ none → tileUsed s c.g.team h (beforeMarks (freeMarks s c)) = true →
           exec (.tfree h) s = .next (tick (((entered s c).modGroup c.gid fun g => { g with freeing := some (c.run.id, c.run.pc, freeMarks s c) }).modGroup c.gid
             fun g => { g with run := g.run.map fun r => { r with stalled := true } }))) ∧
         (s.tile c.g.team h ≠ none → tileUsed s c.g.team h (beforeMarks (freeMarks s c)) = false → KMap.wf (s.team c.g.team).tiles = true →
           (∀ n g, s.group? n = some g → g.red = []) →
           ∃ s', exec (.tfree h) s = .next (wentPast s' c) ∧ s'.tile c.g.team h = none ∧ OtherTiles s s' c.g.team h)) ∧
       ∀ d : UReg, Issues (.tinfo d h) s c { u := [d] } → Completes (.tinfo d h) s c 0 fun g =>
         UniResult c g d (match s.tile c.g.team h with
           | some x => x.desc ||| 0x8000000000
           | none => 0) (scoreB c.k.score b16Exact)) ∧
  ((∀ (i : Instr) (s : State) (c : Gang) (t : Ty) (h : TileNo) (at_ : Tile → Nat → Nat → Nat × Nat) (u : Uses), c.ty = some t →
          tileForm c t i = some (h, at_, u) → Issues i s c u → Unhindered c →
          (s.tile c.g.team h = none → exec i s = .next (trapped s c (trapTile 0 c.lanes 0))) ∧
          ∀ x, s.tile c.g.team h = some x →
            (decide (t.kind = .b16) ≠ decide ((tileTy x.desc).kind = .b16) → exec i s = .next (trapped s c (modeTrap c))) ∧
            (decide (t.kind = .b16) = decide ((tileTy x.desc).kind = .b16) →
              ((∃ l < 32, bit c.lanes l = true ∧ ∃ j < t.n, ¬inTile x (at_ x l j)) → ∃ e : TrapInfo, e.code = 0x0C ∧ exec i s = .next (trapped s c e)) ∧
              ((∀ l < 32, bit c.lanes l = true → ∀ j < t.n, inTile x (at_ x l j)) →
                (∀ d, tileDest i = some d → x.poison = [] →
                  Steps i s c true fun s' st => s'.teams = s.teams ∧ s'.mem = s.mem ∧ st.performed = true ∧ ∃ out : Nat → LaneOut,
                    (∀ l < 32, bit c.lanes l = true → ∀ j < t.n,
                      let e := stageLoad (tileTy x.desc) t c.mode none (x.bound (at_ x l j).1 (at_ x l j).2) (x.read (at_ x l j).1 (at_ x l j).2)
                      elem (out l).val.toNat j t.w = e.1 % 2 ^ t.w ∧ (c.k.score = false → ∀ q, e.2.1 = .fin q → isUntracked (out l).bnd = true ∨
                        (roundUpB16 q).toNat ≤ (out l).bnd.toNat)) ∧
                    st.writes = match d with
                      | .reg r => dstWrites t.is64 (.reg r) (outOpnd fun l => if bit c.lanes l then out l else LaneOut.none) c.lanes
                      | .discard => []) ∧
                (∀ v, tileData i = some v → KMap.wf x.words = true →
                  Steps i s c false fun s' st => st.performed = true ∧ st.writes = [] ∧ OtherTiles s s' c.g.team h ∧
                    ∃ y, s'.tile c.g.team h = some y ∧ TileWritten x y ((setBitsOf c.lanes).flatMap fun l => (List.range t.n).map fun j =>
                      ((at_ x l j).1, (at_ x l j).2,
                        (stageStore t (tileTy x.desc) c.mode none ((c.opnd t v).bndAt l) (elem ((c.opnd t v).at l) j t.w)).1)))))) ∧
     (∀ (s : State) (c : Gang) (t : Ty) (h : TileNo) (x : Tile) (o : Src), c.ty = some t → Unhindered c → s.tile c.g.team h = some x →
          decide (t.kind = .b16) = decide ((tileTy x.desc).kind = .b16) →
          (∀ d : VFirst, Issues (.tldt d o h) s c { regs := srcRegs o } → c.lacksSlice = false → t.is64 = false → x.poison = [] →
            let G := c.k.width * t.n
            let off := (c.opndRaw false o).at ((lowestBit c.all).getD 0) % 2 ^ 32
            let cell (k : Nat) : Nat × Nat := (off / 2 ^ 16 + k % 4, off % 2 ^ 16 + k / 4)
            d.val + (64 + G - 1) / G ≤ c.k.budgetOf c.g.role → c.view.interlocked = false → (∀ k < 64, inTile x (cell k)) →
            Steps (.tldt d o h) s c true fun s' st => s'.teams = s.teams ∧ s'.mem = s.mem ∧ st.performed = true ∧ st.writes.length = (64 + G - 1) / G ∧
              ∀ k < 64, ∃ (L : VLine) (m : BitVec 32), RegWrite.v (rangeReg d (k / G)) L m ∈ st.writes ∧ bit m (k / t.n % c.k.width) = true ∧
                elem (L.val.toList.getD (k / t.n % c.k.width) 0).toNat (k % t.n) t.w =
                  (stageLoad (tileTy x.desc) t c.mode none (x.bound (cell k).1 (cell k).2) (x.read (cell k).1 (cell k).2)).1 % 2 ^ t.w) ∧
          ∀ v : Src, Issues (.tfill v o h) s c { regs := srcRegs v ++ srcRegs o } → KMap.wf x.words = true →
            (lowestBit c.lanes = none → Steps (.tfill v o h) s c false fun s' st => s'.teams = s.teams ∧ s'.mem = s.mem ∧ st.performed = true) ∧
            ∀ l, lowestBit c.lanes = some l →
              let off := (c.opndRaw t.is64 o).at l % 2 ^ 32
              let row := off / 2 ^ 16
              let n := if off % 2 ^ 16 = 0 then tileRows x.desc - row else off % 2 ^ 16
              (tileRows x.desc ≤ row ∨ tileRows x.desc < row + n → ∃ e : TrapInfo, e.code = 0x0C ∧ exec (.tfill v o h) s = .next (trapped s c e)) ∧
              (row < tileRows x.desc → row + n ≤ tileRows x.desc → Steps (.tfill v o h) s c false fun s' st => st.performed = true ∧ OtherTiles s s' c.g.team h ∧
                ∃ y, s'.tile c.g.team h = some y ∧ y.desc = x.desc ∧ ∀ r q, inTile x (r, q) → y.read r q =
                  if row ≤ r ∧ r < row + n then
                    (stageStore t (tileTy x.desc) c.mode none ((c.opnd t v).bndAt l) (elem ((c.opnd t v).at l) 0 t.w)).1 % 2 ^ (tileTy x.desc).w
                  else x.read r q)))

end
/-! ### Atomics and buffered reductions (R282–R301) -/

namespace Sys2Proof.Machine

/-- A returning atomic: its operation, destination, offset, target, data as captured, and the registers it names (R284). -/
def atomicForm (c : Gang) (t : Ty) : Instr → Option (AtomicKind × Option VReg × Src × RT × List VLine × Uses)
  | .aadd d o rt => one .add d o rt
  | .aand d o rt => one .and d o rt
  | .aor d o rt => one .or d o rt
  | .axor d o rt => one .xor d o rt
  | .amin d o rt => one .min d o rt
  | .amax d o rt => one .max d o rt
  | .axchg d o rt => one .xchg d o rt
  | .aincw d o rt => one .incw d o rt
  | .afadd d o rt => one .fadd d o rt
  | .acas d o rt => two .cas d o rt
  | .aaddb d o rt => two .addb d o rt
  | _ => none
where
  one (k : AtomicKind) (d : Dst) (o : Src) (rt : RT) : Option (AtomicKind × Option VReg × Src × RT × List VLine × Uses) :=
    some (k, (dstRegs d).head?, o, rt, captured (c.opnd t (dstSrc d)), { regs := dstRegs d ++ srcRegs o })
  two (k : AtomicKind) (d : VFirst) (o : Src) (rt : RT) : Option (AtomicKind × Option VReg × Src × RT × List VLine × Uses) :=
    some (k, some (.v d), o, rt, captured (c.opnd t (.reg (.v d))) ++ captured (c.view.opnd t.is64 (rangeReg d (if t.is64 then 2 else 1))),
      { regs := .v d :: srcRegs o, byMode := [(.v d, fun m => if wideMode m then 4 else 2)] })

/-- The MODE types that an atomic accepts (R283). -/
def atomicAccepts (k : AtomicKind) (t : Ty) : Prop := match k with
  | .add | .and | .or | .xor | .min | .max | .semMax => t.isInt = true ∧ 32 ≤ t.w
  | .xchg | .cas => (t.isInt = true ∧ 32 ≤ t.w) ∨ t.kind = .flt .f32 ∨ t.kind = .flt .f64
  | .incw | .addb => t.kind = .uint ∧ 32 ≤ t.w
  | .fadd => t.kind = .flt .f32 ∨ t.kind = .flt .f64

/-- R288's new value of a target of w bits. -/
def AtomicTo (k : AtomicKind) (t : Ty) (mode : BitVec 24) (old v u new : Nat) : Prop := match k with
  | .add => new = (old + v) % 2 ^ t.w
  | .and => ∀ j < t.w, new.testBit j = (old.testBit j && v.testBit j)
  | .or => ∀ j < t.w, new.testBit j = (old.testBit j || v.testBit j)
  | .xor => ∀ j < t.w, new.testBit j = (old.testBit j != v.testBit j)
  | .min => new = if toInt t.signed t.w old ≤ toInt t.signed t.w v then old else v
  | .max => new = if toInt t.signed t.w old ≤ toInt t.signed t.w v then v else old
  | .xchg => new = v
  | .cas => new = if old = v then u else old
  | .incw => new = if v ≤ old then 0 else old + 1
  | .addb => new = if old ≤ u then min (old + v) u else old
  | .fadd => ∀ f, t.kind = .flt f → new = (roundOut f (modeRnd mode) (modeSat mode) (modeFtz mode)
      (addExact (modeRnd mode) (fArg f (modeFtz mode) false false false 0 old) (fArg f (modeFtz mode) false false false 0 v)) (.fin 0) 0).bits
  | .semMax => True

/-- A core's copies hold bytes of their sectors. -/
def CopiesInside (s : State) (core : Nat) : Prop :=
  ∀ e ∈ (s.core core).l1, KMap.wf e.bytes = true ∧ ∀ o b, (o, b) ∈ e.bytes → o < sectorSize e.sector

/-- Memory holds v in the n bytes at pa; the core has written back its copy of their sector, and no other byte has changed. -/
def Performed (s s' : State) (core pa n v : Nat) : Prop :=
  Memory.readN s'.mem pa n = v ∧ ∀ q, q < pa ∨ pa + n ≤ q →
    (Memory.read s'.mem q).toNat = if sectorOf q = sectorOf pa then ownByte s core q else (Memory.read s.mem q).toNat

/-- What a lane of an atomic leaves to be written: the old value to its destination, and `AADDB`'s grant to its predicate (R288). -/
def LaneWrites (a : Access) (k : AtomicKind) (lane old u : Nat) (ws : List RegWrite) : Prop :=
  ∃ β : B16, ws = (match a.dst with
    | some d => dstWrites a.ty.is64 (.reg d) (Opnd.const (BitVec.ofNat 64 old) β) (maskOf 32 fun i => decide (i = lane))
    | none => []) ++
    if k = .addb then [.p ⟨bits a.mode 13 11 % 8, Nat.mod_lt _ (by decide)⟩ (if old ≤ u then BitVec.allOnes 32 else 0) (maskOf 32 fun i => decide (i = lane))]
    else []

/-- The step st of group gid's ld counter has performed one more lane, with the writes ws. -/
def LanePassed (s' : State) (gid : Nat) (st : CStep) (a : Access) (ws : List RegWrite) : Prop :=
  ∃ g st', s'.group? gid = some g ∧ st' ∈ g.ld ∧ st'.id = st.id ∧ st'.places = st.places.tail ∧ st'.writes = st.writes ++ ws ∧
    st'.performed = (st.places.tail.isEmpty && decide (a.lanes = 0))

/-- A buffered reduction: its operation, data, offset and target. -/
def reduceForm : Instr → Option (RedKind × Src × Src × RT)
  | .redadd v o rt => some (.add, v, o, rt)
  | .redfadd v o rt => some (.fadd, v, o, rt)
  | .redmin v o rt => some (.min, v, o, rt)
  | .redmax v o rt => some (.max, v, o, rt)
  | _ => none

/-- R222's number of the integer operation of a reduction. -/
def redCode : RedKind → Nat
  | .add | .fadd => 0
  | .min => 1
  | .max => 2

/-- The MODE types that a reduction accepts (R283). -/
def reduceAccepts (k : RedKind) (t : Ty) : Prop := match k with
  | .add => t.isInt = true ∧ 32 ≤ t.w
  | .fadd => t.kind = .flt .f32 ∨ t.kind = .flt .f64
  | .min | .max => (t.isInt = true ∧ 32 ≤ t.w) ∨ t.kind = .flt .f32 ∨ t.kind = .flt .f64

/-- The group's entries after a reduction into free entries: one for each target that the lanes name, which combines its lanes' data in ascending order
(R295). -/
def Buffered (t : Ty) (k : RedKind) (targets : List (RedTarget × Nat)) (red : List RedEntry) : Prop :=
  red.length = (targets.map (·.1)).dedup.length ∧ ∀ x ∈ targets, ∃ e ∈ red, e.target = x.1 ∧ e.op = k ∧
    let xs := (targets.filter fun y => decide (y.1 = x.1)).map (·.2)
    (t.isInt = true → Combined t (redCode k) xs e.value.toNat) ∧ (xs.length = 1 → e.value.toNat = x.2)

/-- A step of the st counter has been raised, with the group's entries at `red`; nothing else of memory or the group has changed. -/
def Buffers (i : Instr) (s : State) (c : Gang) (P : List RedEntry → Prop) : Prop :=
  ∃ (s' : State) (g : Group) (st : CStep), exec i s = .next (wentPast s' c) ∧
    s'.group? c.gid = some g ∧ g.st = c.g.st ++ [st] ∧ st.id = c.g.stepSeq ∧ st.performed = true ∧ st.writes = [] ∧ s'.mem = s.mem ∧ s'.teams = s.teams ∧
    g = { c.g with st := g.st, stepSeq := c.g.stepSeq + 1, red := g.red } ∧ P g.red

end Sys2Proof.Machine

section

open Sys2Proof Sys2Proof.Machine

/-- R283–R287, R292: a returning atomic traps under a MODE type or a format not its own; else it raises a step of the ld counter that has each active lane's target
still to perform, in ascending lane order, and changes nothing else.
R287, R288, R292: each lane reads its target and writes R288's new value in one step, after its core's copy is written back; the old value is kept for its
destination register. -/
def Obligations.Atomics : Prop :=
  (∀ (i : Instr) (s : State) (c : Gang) (t : Ty) (k : AtomicKind) (dst : Option VReg) (o : Src) (rt : RT) (data : List VLine) (u : Uses),
       c.ty = some t → atomicForm c t i = some (k, dst, o, rt, data, u) → Issues i s c u → Unhindered c →
       (¬atomicAccepts k t → exec i s = .next (trapped s c (modeTrap c))) ∧
       (atomicAccepts k t →
         (∀ r, rt = .record r →
           (atomicRecord c.k t r = false → exec i s = .next (trapped s c (modeTrap c))) ∧
           (atomicRecord c.k t r = true → (isPointer c.k r = true → pointerPairOk c o = true) → ∀ bc shr,
             let a := c.access (.atomic k) r.val c.lanes (c.opndRaw (isPointer c.k r || t.is64) o).val data (some r) dst none
             Present s c a bc shr → Steps i s c true fun s' st => s'.mem = s.mem ∧ s'.side = s.side ∧ s'.teams = s.teams ∧ st.writes = [] ∧
               st.todo = some { a with lanes := 0 } ∧ st.places.map (·.1) = setBitsOf c.lanes ∧
               ∀ x ∈ st.places, ∃ p, placeOf (located s c a) x.1 0 false = some (p, x.2.1, x.2.2))) ∧
         ∀ h, rt = .tile h →
           let idx (l : Nat) : Nat := (c.opndRaw t.is64 o).at l % 2 ^ 32
           (s.tile c.g.team h = none → exec i s = .next (trapped s c (trapTile 0 c.lanes 0))) ∧
           ∀ x, s.tile c.g.team h = some x →
             (atomicFormat t (tileTy x.desc) 0 = false → exec i s = .next (trapped s c (modeTrap c))) ∧
             (atomicFormat t (tileTy x.desc) 0 = true →
               ((∃ l < 32, bit c.lanes l = true ∧ ¬inTile x (flatAt x.desc (idx l))) → ∃ e : TrapInfo, e.code = 0x0C ∧ exec i s = .next (trapped s c e)) ∧
               ((∀ l < 32, bit c.lanes l = true → inTile x (flatAt x.desc (idx l))) →
                 Steps i s c true fun s' st => s'.mem = s.mem ∧ s'.teams = s.teams ∧ st.writes = [] ∧
                   st.places.map (fun y => (y.1, y.2.2)) = (setBitsOf c.lanes).map (fun l => (l, idx l)) ∧
                   ∃ a, st.todo = some a ∧ a.op = .atomic k ∧ a.data = data ∧ a.dst = dst ∧ a.mode = c.mode ∧ a.lanes = 0 ∧ a.rtField.toNat = 224 + h.val)))) ∧
  (∀ (s : State) (gid : Nat) (g : Group) (st : CStep) (a : Access) (k : AtomicKind) (lane : Nat) (at_ : Attr) (pa : Nat) (rest : List (Nat × Attr × Nat)),
       s.group? gid = some g → (g.ld.find? fun x => !x.places.isEmpty) = some st → st.todo = some a → a.op = .atomic k → st.places = (lane, at_, pa) :: rest →
       lane < 32 → atomicAccepts k a.ty → k ≠ .semMax →
       let w := a.ty.w
       let v := (dataAt a.data a.ty.is64 lane).1
       let u := (dataAt (a.data.drop 2) a.ty.is64 lane).1
       v < 2 ^ w → u < 2 ^ w →
       (a.rtField.toNat < 224 → s.poison = [] → s.dev.poolForeign = [] → Memory.wf s.mem = true → CopiesInside s g.core → at_.type ≠ 3 → pa % (w / 8) = 0 →
         let old := ownBytes s g.core pa (w / 8)
         ∃ s' new ws, exec (.atomicLanePerform gid) s = .next s' ∧ AtomicTo k a.ty a.mode old v u new ∧ Performed s s' g.core pa (w / 8) new ∧
           LaneWrites a k lane old u ws ∧ LanePassed s' gid st a ws) ∧
       ∀ (h : TileNo) (x : Tile), a.rtField.toNat = 224 + h.val → (s.team g.team).late = [] → s.tile g.team h = some x → x.poison = [] → KMap.wf x.words = true → (tileTy x.desc).w = w →
         inTile x (flatAt x.desc pa) →
         let old := x.read (flatAt x.desc pa).1 (flatAt x.desc pa).2
         ∃ s' new ws y, exec (.atomicLanePerform gid) s = .next s' ∧ AtomicTo k a.ty a.mode old v u new ∧ s'.tile g.team h = some y ∧
           TileWritten x y [((flatAt x.desc pa).1, (flatAt x.desc pa).2, new)] ∧ OtherTiles s s' g.team h ∧ LaneWrites a k lane old u ws ∧ LanePassed s' gid st a ws)

/-- R283, R294–R296, R300: a buffered reduction combines its lanes, in ascending order, into entries of its group, one to a target, and leaves its targets as they
are; `RFLUSH` drains the entries, each one indivisible read and write.
R296, R297, R300: `RFLUSH` of a group that owns one entry for a memory target performs it there once. -/
def Obligations.ReductionsAndDrains : Prop :=
  (∀ (s : State) (c : Gang), Unhindered c →
       (∀ (i : Instr) (t : Ty) (k : RedKind) (v o : Src) (rt : RT), c.ty = some t → reduceForm i = some (k, v, o, rt) →
         Issues i s c { regs := srcRegs v ++ srcRegs o } →
         let x (l : Nat) : Nat := (c.opnd t v).at l
         (¬reduceAccepts k t → exec i s = .next (trapped s c (modeTrap c))) ∧
         (reduceAccepts k t →
           (∀ r bc shr, rt = .record r → atomicRecord c.k t r = true → (isPointer c.k r = true → pointerPairOk c o = true) →
             let a := c.access (.reduce k) r.val c.lanes (c.opndRaw (isPointer c.k r || t.is64) o).val (captured (c.opnd t v)) (some r) none none
             Present s c a bc shr →
             let targets := (presentPlaces c.lanes (located s c a)).map fun p => (RedTarget.mem p.2.2 p.2.1.asid p.2.1.vpage, x p.1)
             (targets.map (·.1)).dedup.length ≤ 4 → Buffers i s c (Buffered t k targets)) ∧
           ∀ h y, rt = .tile h → s.tile c.g.team h = some y → atomicFormat t (tileTy y.desc) 0 = true →
             let idx (l : Nat) : Nat := (c.opndRaw t.is64 o).at l % 2 ^ 32
             (∀ l < 32, bit c.lanes l = true → inTile y (flatAt y.desc (idx l))) →
             let targets := (setBitsOf c.lanes).map fun l => (RedTarget.tile h (idx l), x l)
             (targets.map (·.1)).dedup.length ≤ 4 → Buffers i s c (Buffered t k targets))) ∧
       (Issues .rflush s c {} → Buffers .rflush s c fun red => red = [])) ∧
  (∀ (s : State) (c : Gang) (e : RedEntry) (pa asid vpage : Nat), Issues .rflush s c {} → c.g.st.length < 62 → c.g.release = none →
       c.g.red = [e] → e.target = .mem pa asid vpage → e.page.type ≠ 3 → s.dev.poolForeign = [] →
       Memory.wf s.mem = true → CopiesInside s c.g.core → (redTy e).isInt = true → (redTy e).w = 32 ∨ (redTy e).w = 64 → pa % ((redTy e).w / 8) = 0 →
       e.value.toNat < 2 ^ (redTy e).w → e.op ≠ .fadd →
       ∃ s' g v, exec .rflush s = .next (wentPast s' c) ∧ s'.group? c.gid = some g ∧ g.red = [] ∧
         Combined (redTy e) (redCode e.op) [ownBytes s c.g.core pa ((redTy e).w / 8), e.value.toNat] v ∧ Performed s s' c.g.core pa ((redTy e).w / 8) v)

end
/-! ### Stream decodes (R197–R211) -/

namespace Sys2Proof.Machine

/-- The number that the bits of a stream from pos give, the first the most significant (R203). -/
def codeAt (str : Tile) (pos len : Nat) : Nat := (List.range len).foldl (fun v i => 2 * v + str.bitAt (pos + i)) 0

/-- A table's code of a length, and its symbol's index (R200, R203). -/
def IsCode (tab : Tile) (len code x : Nat) : Prop :=
  let first := tab.half (8 + 4 * (len - 1))
  first ≤ code ∧ code - first < tab.half (0x48 + 2 * (len - 1)) ∧ x = tab.half (8 + 4 * (len - 1) + 2) + code - first

/-- A stream holds codes of the symbols xs one after another from pos to e (R203). -/
def HuffSeq (tab str : Tile) (b1 : Nat) : Nat → List Nat → Nat → Prop
  | pos, [], e => e = pos
  | pos, x :: xs, e => ∃ len, 1 ≤ len ∧ len ≤ 16 ∧ len ≤ tab.byte 6 ∧ pos + len ≤ b1 ∧ IsCode tab len (codeAt str pos len) x ∧
      (∀ l, 1 ≤ l → l < len → ∀ y, ¬IsCode tab l (codeAt str pos l) y) ∧ HuffSeq tab str b1 (pos + len) xs e

/-- A stream holds tokens one after another from pos to e, which give the elements xs (R204). -/
def ZeroSeq (str : Tile) (w b1 : Nat) : Nat → List Nat → List Nat → Nat → Prop
  | pos, [], xs, e => xs = [] ∧ e = pos
  | pos, c :: ts, xs, e => str.byte (pos / 8) = c ∧ pos + 8 ≤ b1 ∧ ∃ run rest, xs = run ++ rest ∧ run.length = c % 128 + 1 ∧
      (c < 128 → (∀ y ∈ run, y = 0) ∧ ZeroSeq str w b1 (pos + 8) ts rest e) ∧
      (128 ≤ c →
        let len := if w = 6 then 4 * ((c % 128 + 5) / 5) else ((c % 128 + 1) * w + 7) / 8
        pos + 8 + 8 * len ≤ b1 ∧ (∀ i y, run[i]? = some y → y = literal str w (pos / 8 + 1) i) ∧ ZeroSeq str w b1 (pos + 8 + 8 * len) ts rest e)

/-- A decode job of kind 1 or 3 at its end: the elements that its stream holds, as values of w bits, and the position after them. -/
def Decodes (s : State) (c : Gang) (j : DecodeJob) (str : Tile) (w : Nat) (ys : List Nat) (e : Nat) : Prop :=
  (j.kind = 1 ∧ ∃ tab xs, s.tile c.g.team ⟨bits j.desc2 4 0 % 32, Nat.mod_lt _ (by decide)⟩ = some tab ∧ tab.poison = [] ∧
    HuffSeq tab str (decEnd j.desc) (decStart j.desc) xs e ∧ ys = xs.map fun x => tab.half (0x80 + 2 * x) % 2 ^ w) ∨
  (j.kind = 3 ∧ ∃ ts, ZeroSeq str w (decEnd j.desc) (decStart j.desc) ts ys e)

/-- A decode into registers: its kind, destination, descriptor registers and stream. -/
def decodeForm : Instr → Option (BitVec 2 × VFirst × UReg × TileNo)
  | .dech d a h => some (1, d, a, h)
  | .decz d a h => some (3, d, a, h)
  | _ => none

/-- The job that a decode gives its core's unit. -/
def jobOf (c : Gang) (kind : BitVec 2) (d : Nat) (a : UReg) (h : TileNo) (str : Tile) : DecodeJob :=
  { gid := c.gid, kind := kind, d := d, desc := (c.view.uni a).1, desc2 := (c.view.uni (uregNext a)).1, stream := h, mode := c.mode, slices := c.run.slices
    table := none, card := false, seq := c.g.stepSeq, old := str.words }

/-- A core's decode unit with a job at the end of its queue. -/
def queued (s : State) (core : Nat) (j : DecodeJob) : State := s.setCore core { s.core core with decodeQ := (s.core core).decodeQ ++ [j] }

/-- R199's checks of a descriptor, in order, for a stream and a table. -/
def descriptorFails (kind : Nat) (d d2 : W64) (str : Tile) (tab : Option Tile) (fits : Bool) : List (Bool × Nat) :=
  [(decide (bits d 63 60 ≠ 0 ∨ bits d2 63 48 ≠ 0 ∨ bits d2 15 13 ≠ 0 ∨ bits d2 7 5 ≠ 0), 0), (decide (bits d 59 48 = 0 ∨ 2048 < bits d 59 48), 1),
   (decide (bits d 47 24 < bits d 23 0), 2), (decide (8 * tileBytes str.desc < bits d 47 24), 3), (decide (kind = 3 ∧ bits d 23 0 % 8 ≠ 0), 4),
   (decide (kind = 2 ∧ 5 ≤ bits d2 10 8), 5), (!fits, 6), ((match tab with
      | some t => decide (t.half 0 ≠ 0xC7AB)
      | none => false), 7)]

end Sys2Proof.Machine

section

open Sys2Proof Sys2Proof.Machine

/-- R197–R200, R207, R208, R210: `DECH` and `DECZ` trap with code 0x09 at the first check of R199 that fails, and else hold their run with a job at the end of the decode unit's queue;
`DECHT` queues its job with a command on the copy counter; `DECST` reads the status; `CTAB` holds its run for the table that it has read.
R203–R206, R210: the decode unit ends a `DECH` or `DECZ` whose stream holds its elements: each lies in its place of the register range, and the status word gives the
position after them and their number. -/
def Obligations.StreamDecodes : Prop :=
  (∀ (s : State) (c : Gang),
       (∀ (i : Instr) (kind : BitVec 2) (d : VFirst) (a : UReg) (h : TileNo) (t : Ty), decodeForm i = some (kind, d, a, h) → c.ty = some t →
         Issues i s c { u := [a, uregNext a] } →
         let desc := (c.view.uni a).1
         let desc2 := (c.view.uni (uregNext a)).1
         let tabAt : TileNo := ⟨bits desc2 4 0 % 32, Nat.mod_lt _ (by decide)⟩
         let regs := (bits desc 59 48 + c.k.width * t.n - 1) / (c.k.width * t.n)
         (packTy t = false → exec i s = .next (trapped s c (modeTrap c))) ∧
         (packTy t = true → s.tile c.g.team h = none ∨ (kind = 1 ∧ s.tile c.g.team tabAt = none) → exec i s = .next (trapped s c (trapTile 0 c.lanes 0))) ∧
         (∀ (str : Tile) (tab : Option Tile), packTy t = true → s.tile c.g.team h = some str →
           (kind = 1 ∧ tab.isSome = true ∧ s.tile c.g.team tabAt = tab) ∨ (kind = 3 ∧ tab = none) →
           let fails := descriptorFails kind.toNat desc desc2 str tab (decide (d.val + regs ≤ c.k.budgetOf c.g.role))
           (∀ n : Fin 8, (fails.find? (·.1)) = some (true, n.val) →
             exec i s = .next (trapped s c (trapDecode n.val (BitVec.ofNat 64 (kind.toNat * 2 ^ 38))))) ∧
           (fails.find? (·.1) = none → c.view.interlocked = false → Holds i s (countStep (queued (entered s c) c.core (jobOf c kind d.val a h str)) c.gid) c .decode))) ∧
       (∀ (d : TileNo) (a : UReg) (h : TileNo) (str tab dst : Tile), Issues (.decht d a h) s c { u := [a, uregNext a] } →
         let j := jobOf c 2 d.val a h str
         s.tile c.g.team h = some str → s.tile c.g.team ⟨bits j.desc2 4 0 % 32, Nat.mod_lt _ (by decide)⟩ = some tab → s.tile c.g.team d = some dst →
         c.g.copies.length < 8 → c.g.release = none → (tileTy dst.desc).w = 4 ∨ (tileTy dst.desc).w = 8 ∨ (tileTy dst.desc).w = 16 →
         bits j.desc2 31 16 + (bits j.desc 59 48 + tileCols dst.desc - 1) / max 1 (tileCols dst.desc) ≤ tileRows dst.desc →
         (descriptorFails 2 j.desc j.desc2 str (some tab) true).find? (·.1) = none → modeBnd c.mode ≠ 2 →
         ∃ (s' : State) (g : Group) (cmd : CopyCmd), exec (.decht d a h) s = .next (wentPast s' c) ∧ (s'.core c.core).decodeQ = (s.core c.core).decodeQ ++ [j] ∧
           s'.group? c.gid = some g ∧ g = { c.g with copies := c.g.copies ++ [cmd], stepSeq := c.g.stepSeq + 1 } ∧ cmd.opcode = 0x77 ∧ cmd.destTile = d ∧ cmd.srcTile = h ∧
           s'.mem = s.mem ∧ s'.teams = s.teams) ∧
       (∀ d : UReg, Issues (.decst d) s c { u := [d] } → Completes (.decst d) s c 0 fun g => UniResult c g d c.g.decStatus (scoreB c.k.score b16Exact)) ∧
       ∀ (h : TileNo) (a : UReg) (r : RecNo) (x : Tile), Issues (.ctab h a r) s c { u := [a] } → s.tile c.g.team h = some x →
         let off := (c.view.uni a).1
         let acc := c.access (.ctab h off) r.val c.lowest (Vector.replicate 32 40) [] (some r) none none
         (tileBytes x.desc < 640 → exec (.ctab h a r) s = .next (trapped s c (trapTile 1 c.lanes 0))) ∧
         (640 ≤ tileBytes x.desc → acc.check = none → off.toNat % 8 = 0 → Unhindered c → ∀ s' b, readTable (entered s c) c.gid acc = (s', .table b) →
           b.length = 640 ∧ ∃ j, j.gid = c.gid ∧ j.stream = h ∧ j.table = some b ∧ j.kind = 0 ∧ Holds (.ctab h a r) s (queued (countStep s' c.gid) c.g.core j) c .decode)) ∧
  (∀ (s : State) (core : Nat) (j : DecodeJob) (rest : List DecodeJob) (c : Gang) (t : Ty) (str : Tile) (ys : List Nat) (e : Nat),
       (s.core core).decodeQ = j :: rest → j.table = none → heldGang (s.setCore core { s.core core with decodeQ := rest }) j.gid = some c → tyOf (modeType j.mode) = some t →
       t.w = 4 ∨ t.w = 6 ∨ t.w = 8 ∨ t.w = 16 ∨ t.w = 32 → t.n * t.w ≤ 32 → s.tile c.g.team j.stream = some str → str.poison = [] → j.old = str.words →
       (s.team c.g.team).late = [] →
       Decodes s c j str t.w ys e → ys.length = decLen j.desc → 0 < decLen j.desc → modeBnd j.mode = 0 →
       j.d + (decLen j.desc + c.k.width * t.n - 1) / (c.k.width * t.n) ≤ 240 →
       ∃ t' g, exec (.decodeUnitComplete core) s = .next t' ∧ t'.group? j.gid = some g ∧ t'.mem = s.mem ∧
         bits g.decStatus 23 0 = e % 2 ^ 24 ∧ (e < 2 ^ 24 → bits g.decStatus 35 24 = decLen j.desc ∧ bit g.decStatus 36 = false ∧ bits g.decStatus 39 38 = j.kind.toNat) ∧
         ∀ k < decLen j.desc, bit (lanesOf c.k.perSlice j.slices fun _ => c.k.fullMask) (k / t.n % c.k.width) = true →
           elem ((g.line c.k.score (rangeReg ⟨j.d % 240, Nat.mod_lt _ (by decide)⟩ (k / (c.k.width * t.n)))).val.toList.getD (k / t.n % c.k.width) 0).toNat (k % t.n) t.w =
             ys.getD k 0 % 2 ^ t.w)

end
/-! ### Barriers, waits, fences (R302–R318, R326–R343) -/

namespace Sys2Proof.Machine

/-- The run is held for the release of its group, which has begun. -/
def Awaits (i : Instr) (s : State) (c : Gang) (scope : Scope) (next : ReleaseThen) : Prop :=
  ∃ r : Release, exec i s = .next (tick ((entered s c).modGroup c.gid fun g => { g with stepSeq := g.stepSeq + 1, release := some r, hold := some .release })) ∧
    r.scope = scope ∧ r.next = next ∧ r.upto = c.g.stepSeq ∧ r.sent = false ∧ r.faulted = false ∧ r.markers = []

/-- The checks that barrier instructions share (R311, R431): the trap's cause, for the first that fails. -/
def barrierFails (s : State) (c : Gang) (grid : Bool) (num : Nat) (counted : Bool) : Option Nat :=
  if c.g.inHandler = true ∨ c.lacksSlice = true then some 0
  else if grid = true ∧ (7 < num ∨ c.k.gmask.toNat / 2 ^ (8 * num) % 256 / 2 ^ (s.team c.g.team).cls % 2 = 0) then some 1
  else if grid = true ∧ counted = true then some 2
  else none

/-- A barrier's state, found for a group. -/
def barrierAt (s : State) (c : Gang) (grid : Bool) (num : Nat) : Barrier := barrierOf s grid (if grid then c.k.asid else c.g.team) num

/-- An arriving barrier instruction: its barrier, its count, and the predicate that it waits for. -/
def arriveForm (c : Gang) : Instr → Option (Bool × Nat × Option Nat × Option PReg × Uses)
  | .bar p grid cnt num => some (grid, num.val, cnt.map fun r => (c.view.uni r).1.toNat, some p, { u := cnt.toList, p := [p] })
  | .bara grid cnt num => some (grid, num.val, cnt.map fun r => (c.view.uni r).1.toNat, none, { u := cnt.toList })
  | _ => none

/-- The completion of a phase recorded in group g's predicate, SYS_BARST and pending bit (R311). -/
structure Recorded (h g : Group) (i : Nat) (p : PReg) (lanes : BitVec 32) (abandoned : Bool) (k : Nat) : Prop where
  pred : p.val ≠ 7 → ∀ l < 32, bit (g.predNow p) l = if bit lanes l then !abandoned else bit (h.predNow p) l
  others : ∀ q, q ≠ p → g.predNow q = h.predNow q
  pending : (g.bar i).pending = false
  status : if abandoned then bit g.barst 0 = true ∧ bits g.barst 11 8 = i % 16 ∧ bit g.barst 13 = decide (16 ≤ i) ∧ bits g.barst 31 16 = k % 2 ^ 16 else g.barst = h.barst

/-- The scopes at which a release writes back and an acquire marks stale (R328, R329). -/
def crosses (k : Kernel) (scope : Scope) : Bool := match scope with
  | .grp => false
  | .team | .core => k.pair
  | .dev | .sys => true

/-- State s' is s with the acquire part of a fence carried out on a core: copies are stale, and what others have released counts as performed with
respect to the group (R329, R343). -/
def Acquires (s s' : State) (c : Gang) (scope : Scope) : Prop :=
  (s'.core c.core).l1.map (fun e => { e with readers := [] }) =
    ((s.core c.core).l1.map fun e => { e with readers := [], stale := e.stale || (crosses c.k scope && decide (e.asid = c.k.asid)) }) ∧
  (∀ e ∈ (s'.core c.core).l1, e.released = true → c.gid ∈ e.readers) ∧ (∀ w ∈ s'.durWait, w.released = true → c.gid ∈ w.seen) ∧
  (∀ n, n ≠ c.core → s'.core n = s.core n) ∧ s'.mem = s.mem ∧ s'.side = s.side ∧ s'.poison = s.poison ∧ s'.pool = s.pool ∧ s'.pbuf = s.pbuf

/-- A group's barrier arrivals, with one more of the mode that the phase has. -/
def Barrier.joined (b : Barrier) (gid : Nat) (cnt : Option Nat) : Barrier := { b with arrived := b.arrived ++ [gid], mode := some (b.mode.getD cnt) }

/-- What a release still covers of a group's accesses: counter steps, and gangs parked at their access, from before a point. -/
def before (g : Group) (upto : Nat) : Prop :=
  (∃ x ∈ g.ld ++ g.st, x.performed = false ∧ x.id < upto) ∨
    ∃ p ∈ g.parks, p.cause ≠ .done ∧ p.handler = g.inHandler ∧ p.acc.op ≠ .fetch ∧ p.acc.seq ≤ upto

/-- A `WAITA` is at its end: the register holds the word's value, and the run goes on. -/
def Leaves (i : Instr) (s : State) (c : Gang) (d : UReg) (v : Nat) : Prop :=
  ∃ (s' : State) (g : Group), exec i s = .next (wentPast s' c) ∧ s'.group? c.gid = some g ∧
    g.s[d.val] = BitVec.ofNat 64 v ∧ (∀ n : UReg, n ≠ d → g.s[n.val] = c.g.s[n.val]) ∧ g.v = c.g.v ∧ g.p = c.g.p ∧ g.waita = none ∧ g.hold = none

/-- A `WAITA` parks: its run is held, with a monitor where the core's table has room, and for the deadline that s[d + 1] gives. -/
def Parks (i : Instr) (s : State) (c : Gang) (d : UReg) (width v : Nat) : Prop :=
  let lim := (c.g.s.toList.getD (d.val + 1) 0).toNat
  ∃ (t : State) (g : Group) (w : WaitA), exec i s = .next t ∧ t.group? c.gid = some g ∧ g.hold = some .waita ∧ g.waita = some w ∧
    g.run = c.g.run ∧ g.s = c.g.s ∧ w.d = d ∧ w.width = width ∧ w.expected.toNat = c.g.s[d.val].toNat % 2 ^ (8 * width) ∧ w.last = BitVec.ofNat 64 v ∧
    w.deadline = (if 2 ^ 48 ≤ lim then none else some (s.clock + lim)) ∧ w.armed = decide (armedOn (entered s c) c.core < 256)

end Sys2Proof.Machine

section

open Sys2Proof Sys2Proof.Machine

/-- R302, R307–R311, R427, R431: a barrier instruction traps with code 0x0D by its checks, in order; `BAR` and `BARA` begin a release at the barrier's scope that ends in
the arrival; `BARW` holds its run for the phase, or the next one; `BART` records a phase that is over, and else writes false. -/
def Obligations.BarrierInstructions : Prop :=
  ∀ (s : State) (c : Gang),
    (∀ (i : Instr) (grid : Bool) (num : Nat) (cnt : Option Nat) (wait : Option PReg) (u : Uses), arriveForm c i = some (grid, num, cnt, wait, u) → Issues i s c u →
      let n := if grid then 16 + num else num
      let agrees := ∀ m, (barrierAt s c grid num).mode = some m → m = cnt
      let counts := ∀ x, cnt = some x → x ≠ 0 ∧ x ≤ c.k.teamGroups
      (∀ e, barrierFails s c grid num cnt.isSome = some e → exec i s = .next (trapped s c (trapBarrier e num grid))) ∧
      (barrierFails s c grid num cnt.isSome = none →
        ((c.g.bar n).pending = true → exec i s = .next (trapped s c (trapBarrier 3 num grid))) ∧
        ((c.g.bar n).pending = false → ¬counts → exec i s = .next (trapped s c (trapBarrier 2 num grid))) ∧
        ((c.g.bar n).pending = false → counts → ¬agrees → exec i s = .next (trapped s c (trapBarrier 4 num grid))) ∧
        ((c.g.bar n).pending = false → counts → agrees → c.g.release.isSome = true → Stays i s c) ∧
        ((c.g.bar n).pending = false → counts → agrees → c.g.release = none → c.g.red = [] →
          Awaits i s c (if grid then .dev else .team) (.arrive n cnt wait wait.isSome)))) ∧
    (∀ (p : PReg) (grid : Bool) (num : Fin 16), Issues (.barw p grid num) s c { p := [p] } →
      let n := if grid then 16 + num.val else num.val
      (∀ e, barrierFails s c grid num.val false = some e → exec (.barw p grid num) s = .next (trapped s c (trapBarrier e num.val grid))) ∧
      (barrierFails s c grid num.val false = none → c.g.release = none →
        ((c.g.bar n).pending = true → (c.g.bar n).completed = none → ∃ t g, exec (.barw p grid num) s = .next t ∧ t.group? c.gid = some g ∧
          g.hold = some (.barrier n p) ∧ g.bars = c.g.bars ∧ g.run = c.g.run) ∧
        ((c.g.bar n).pending = true → ∀ ab k, (c.g.bar n).completed = some (ab, k) → legacyHead c.run = false → c.g.ld = [] → ∃ s' g,
          exec (.barw p grid num) s = .next (wentPast s' c) ∧ s'.group? c.gid = some g ∧ Recorded c.g g n p c.all ab k) ∧
        ((c.g.bar n).pending = false → (grid = true → (KMap.get? s.ctxs c.k.asid).isSome = true) → ∃ t g, exec (.barw p grid num) s = .next t ∧ t.group? c.gid = some g ∧
          g.hold = some (.barrier n p) ∧ (g.bar n).token = (barrierAt s c grid num.val).phase ∧
          barrierOf t grid (if grid then c.k.asid else c.g.team) num.val =
            { barrierAt s c grid num.val with watchers := (barrierAt s c grid num.val).watchers ++ [c.gid] }))) ∧
    ∀ (p : PReg) (grid : Bool) (num : Fin 16), Issues (.bart p grid num) s c { p := [p] } →
      let n := if grid then 16 + num.val else num.val
      (∀ e, barrierFails s c grid num.val false = some e → exec (.bart p grid num) s = .next (trapped s c (trapBarrier e num.val grid))) ∧
      (barrierFails s c grid num.val false = none →
        ((c.g.bar n).pending = false → exec (.bart p grid num) s = .next (trapped s c (trapBarrier 5 num.val grid))) ∧
        ((c.g.bar n).pending = true → (c.g.bar n).completed = none → Completes (.bart p grid num) s c 0 fun g => PredResult c g p c.all fun _ => false) ∧
        ((c.g.bar n).pending = true → (c.g.bar n).completed ≠ none → c.g.loadsDone = false → Stays (.bart p grid num) s c) ∧
        ((c.g.bar n).pending = true → ∀ ab k, (c.g.bar n).completed = some (ab, k) → c.g.loadsDone = true → ∃ s' g,
          exec (.bart p grid num) s = .next (wentPast s' c) ∧ s'.group? c.gid = some g ∧ Recorded c.g g n p c.all ab k ∧ Acquires s s' c (if grid then .dev else .team)))

/-- R304–R306, R317: `WAIT` and `WAITR` stay until each counter is at or below its threshold; `MBATCH` closes and numbers the open batch; `WAITA` leaves at once with a word
that differs from the expected value, and else parks; of a tile of narrow elements it watches the data word of its flat index (log 102). -/
def Obligations.CounterAndWordWaits : Prop :=
  ∀ (s : State) (c : Gang),
    let steps (n : Nat) : Nat := match n with
      | 0 => c.g.ld.length
      | 1 => c.g.st.length
      | 2 => c.g.copies.length
      | _ => c.g.mx.length
    (∀ ld st cp mx : BitVec 6, Issues (.wait ld st cp mx) s c {} →
      let met (n : Nat) (t : BitVec 6) : Prop := t = 63 ∨ steps n ≤ t.toNat
      (met 0 ld ∧ met 1 st ∧ met 2 cp ∧ met 3 mx → exec (.wait ld st cp mx) s = .next (passed s c)) ∧
      (¬(met 0 ld ∧ met 1 st ∧ met 2 cp ∧ met 3 mx) → Stays (.wait ld st cp mx) s c)) ∧
    (∀ (n : BitVec 2) (a : UReg), Issues (.waitr n a) s c { u := [a] } →
      let met := 63 ≤ (c.view.uni a).1.toNat ∨ steps n.toNat ≤ (c.view.uni a).1.toNat
      (met → exec (.waitr n a) s = .next (passed s c)) ∧ (¬met → Stays (.waitr n a) s c)) ∧
    (∀ d : Option UReg, Issues (.mbatch d) s c { u := d.toList } → c.g.mx.length < 62 → Completes (.mbatch d) s c 0 fun g =>
      g.batchNo = c.g.batchNo + 1 ∧ g.openBatch.open_ = 0 ∧
      g.mx = (if c.g.openBatch.open_ = 0 ∧ c.g.openBatch.relNeeded = false ∧ c.g.mx = [] then [] else c.g.mx ++ [c.g.openBatch]) ∧
      (∀ r, d = some r → g.s[r.val] = ((c.g.batchNo + 1).setWidth 64) ∧ g.sb[r.val] = scoreB c.k.score b16Exact) ∧
      (∀ r : UReg, d ≠ some r → g.s[r.val] = c.g.s[r.val]) ∧ g.v = c.g.v ∧ g.p = c.g.p) ∧
    ∀ (d : UReg) (o : Src) (rt : RT) (t : Ty), c.ty = some t → Issues (.waita d o rt) s c { regs := srcRegs o, u := [d, uregNext d] } →
      (¬(t.isInt = true ∧ 32 ≤ t.w) → exec (.waita d o rt) s = .next (trapped s c (modeTrap c))) ∧
      (t.isInt = true ∧ 32 ≤ t.w → (∃ h, rt = .tile h) → c.lacksSlice = true → exec (.waita d o rt) s = .next (trapped s c (illegalTrap c 5))) ∧
      (t.isInt = true ∧ 32 ≤ t.w → ∀ r w, rt = .record r → snapRecord c.k r = some (r, w) → recMalformed w = false → (recOf w).ty.w < 32 →
        exec (.waita d o rt) s = .next (trapped s c (modeTrap c))) ∧
      (t.isInt = true ∧ 32 ≤ t.w → c.lacksSlice = false → ∀ r w, rt = .record r → snapRecord c.k r = some (r, w) → recMalformed w = false → 32 ≤ (recOf w).ty.w →
        (recOf w).pointer = true → ∃ e : TrapInfo, e.code = 0x03 ∧ exec (.waita d o rt) s = .next (trapped s c e)) ∧
      (t.isInt = true ∧ 32 ≤ t.w → c.lacksSlice = false → legacyHead c.run = false → Unhindered c →
        let leaves (v : Nat) : Prop := v ≠ c.g.s[d.val].toNat % 2 ^ t.w ∨ (c.g.s.toList.getD (d.val + 1) 0) = 0
        (∀ h x, rt = .tile h → s.tile c.g.team h = some x → c.lowest ≠ 0 → x.poison = [] →
          let idx := (c.opndRaw t.is64 o).at ((lowestBit c.all).getD 0) % 2 ^ 32
          (32 ≤ (tileTy x.desc).w → 1 ≤ tileCols x.desc → ¬inTile x (flatAt x.desc idx) → exec (.waita d o rt) s = .next (trapped s c (trapTile 1 c.lowest idx))) ∧
          (32 ≤ (tileTy x.desc).w → inTile x (flatAt x.desc idx) → (tileTy x.desc).w = t.w →
            let v := x.read (flatAt x.desc idx).1 (flatAt x.desc idx).2
            (leaves v → Leaves (.waita d o rt) s c d v) ∧ (¬leaves v → Parks (.waita d o rt) s c d (t.w / 8) v)) ∧
          ((tileTy x.desc).w < 32 → inTile x (waitElem x.desc idx) → t.w = 32 →
            (leaves (x.word idx) → Leaves (.waita d o rt) s c d (x.word idx)) ∧ (¬leaves (x.word idx) → Parks (.waita d o rt) s c d 4 (x.word idx)))) ∧
        ∀ r w, rt = .record r → snapRecord c.k r = some (r, w) → recMalformed w = false → (recOf w).pointer = false → (recOf w).ty.w = t.w → c.lowest ≠ 0 →
          let a := c.access .waita r.val c.lowest (c.opndRaw t.is64 o).val [] (some r) none (some d)
          ∀ bc, Present s c a bc false → ∃ (p : Spot) (at_ : Attr) (pa : Nat), located s c a = [(p, .at_ at_ pa)] ∧
            let v := ownBytes s c.core pa (t.w / 8)
            (leaves v → Leaves (.waita d o rt) s c d v) ∧ (¬leaves v → Parks (.waita d o rt) s c d (t.w / 8) v))

/-- R326–R330, R342: an acquire waits for the group's loads and marks its core's copies stale; a release begins and lets the run go on, but for sc and `PBAR`, which hold it;
`FENCE` and `PBAR` wait for a release in progress.
R309, R311, R328, R329, R342: `RELEASE_COMPLETE` waits for the group's earlier accesses, writes back what a release covers, and, with nothing left to acknowledge, ends the
release: a fence is over, an arrival counts and may complete its phase, and a held run goes on or waits for its barrier; `BARRIER_PHASE_COMPLETE` tells the groups of a phase
that has completed. -/
def Obligations.FencesAndReleases : Prop :=
  (∀ (s : State) (c : Gang),
       (∀ (kind : BitVec 2) (scope : Scope), Issues (.fence kind scope) s c {} →
         (kind ≠ 0 → c.g.release.isSome = true → Stays (.fence kind scope) s c) ∧
         (kind = 0 ∨ (kind = 2 ∧ c.g.release = none) → c.g.loadsDone = false → Stays (.fence kind scope) s c) ∧
         (kind = 0 → c.g.loadsDone = true → ∃ s', exec (.fence kind scope) s = .next (wentPast s' c) ∧ s'.groups = (entered s c).groups ∧ Acquires s s' c scope) ∧
         (kind = 1 ∨ (kind = 2 ∧ c.g.loadsDone = true) → c.g.release = none → c.g.red = [] → ∃ s' r,
           exec (.fence kind scope) s = .next (wentPast s' c) ∧ s'.group? c.gid = some { c.g with stepSeq := c.g.stepSeq + 1, release := some r } ∧ r.scope = scope ∧
             r.next = .fence false ∧ r.upto = c.g.stepSeq ∧ r.sent = false ∧ (kind = 2 → Acquires s s' c scope) ∧ (kind = 1 → s'.cores = s.cores ∧ s'.mem = s.mem)) ∧
         (kind = 3 → c.g.release = none → c.g.red = [] → Awaits (.fence kind scope) s c scope (.fence true))) ∧
       (c.g.loadsDone = true ↔ (∀ x ∈ c.g.ld, x.performed = true) ∧
         ∀ p ∈ c.g.parks, p.cause = .done ∨ p.handler ≠ c.g.inHandler ∨ p.acc.op = .fetch ∨ p.acc.reads = false) ∧
       ∀ cum : Bool, Issues (.pbar cum) s c {} → (c.g.release.isSome = true → Stays (.pbar cum) s c) ∧
         (c.g.release = none → c.g.red = [] → Awaits (.pbar cum) s c .sys (.pbar cum))) ∧
  (∀ s : State,
       (∀ (gid : Nat) (g : Group) (r : Release), s.group? gid = some g → g.release = some r → r.faulted = false →
         let marked := ∃ m ∈ s.dev.marks, m.id ∈ r.markers
         (before g r.upto → r.sent = false → exec (.releaseComplete gid) s = .next (tick s)) ∧
         (r.sent = true → marked → (∀ cum, r.next ≠ .pbar cum) → exec (.releaseComplete gid) s = .next (tick s)) ∧
         (∀ cum, r.sent = true → (∃ w ∈ s.durWait, w.seq ∈ r.markers) → r.next = .pbar cum → exec (.releaseComplete gid) s = .next (tick s)) ∧
         (r.sent = true → ¬marked → r.next = .fence false ∨ r.next = .groupEnd →
           exec (.releaseComplete gid) s = .next (tick (s.setGroup gid { g with release := none, hold := if g.hold = some .stopped then none else g.hold }))) ∧
         (∀ i cnt p, r.sent = true → ¬marked → r.next = .arrive i cnt (some p) true → (16 ≤ i → (KMap.get? s.ctxs (s.kernel g.kernel).asid).isSome = true) →
           let grid := decide (16 ≤ i)
           let owner := if grid then (s.kernel g.kernel).asid else g.team
           let b := barrierOf s grid owner (i % 16)
           ∃ t h, exec (.releaseComplete gid) s = .next t ∧ t.group? gid = some h ∧ h.release = none ∧ h.hold = some (.barrier i p) ∧
             (h.bar i).pending = true ∧ (h.bar i).token = b.phase ∧ (h.bar i).completed = none ∧
             let b' := barrierOf t grid owner (i % 16)
             if phaseDone (setBarrier s grid owner (i % 16) (b.joined gid cnt)) grid owner (i % 16) = true then
               b'.phase = b.phase + 1 ∧ b'.arrived = [] ∧ b'.mode = none ∧ b'.watchers = [] ∧
                 ∃ d, b'.due = b.due ++ [d] ∧ d.who = b.arrived ++ gid :: b.watchers
             else b' = b.joined gid cnt) ∧
         (r.sent = false → r.next = .fence false → ¬before g r.upto → g.red = [] → g.ioOut = false → s.dev.peerOut = [] → s.dev.poolForeign = [] → Memory.wf s.mem = true →
           CopiesInside s g.core → ((s.core g.core).l1.map (·.sector)).Nodup → (∀ e ∈ (s.core g.core).l1, e.revoked = false ∧ e.shr = false) →
           ∃ t h, exec (.releaseComplete gid) s = .next t ∧ t.group? gid = some h ∧ h.release = none ∧
             ∀ pa, (Memory.read t.mem pa).toNat = if crosses (s.kernel g.kernel) r.scope = true ∧ (∃ e, l1Free s g.core (sectorOf pa) = some e ∧ e.asid = (s.kernel g.kernel).asid)
               then ownByte s g.core pa else (Memory.read s.mem pa).toNat)) ∧
       ∀ (team : Nat) (num : Fin 16), KMap.wf s.groups = true →
         let b := barrierOf s false team num.val
         let members := s.groups.filter fun x => decide (x.2.team = team)
         let k := (members.filter fun x => decide (x.2.place = .killed)).length
         let alive (i : Nat) : Bool := s.groups.any fun x => decide (x.1 = i) && decide (x.2.place ≠ .killed)
         (b.mode = none → phaseDone s false team num.val = false) ∧
         (b.mode = some none → (phaseDone s false team num.val = true ↔
           ∀ x ∈ members, x.2.live = true → x.2.liveSlices (s.kernel x.2.kernel) ≠ 0 → x.1 ∈ b.arrived)) ∧
         (∀ n, b.mode = some (some n) → (phaseDone s false team num.val = true ↔ max 1 (n - k) ≤ (b.arrived.filter alive).length)) ∧
         (b.due = [] → exec (.barrierPhaseComplete false team num) s = .next (tick s)) ∧
         (∀ d rest, b.due = d :: rest → (∀ x ∈ members, x.2.red = []) → (∀ i ∈ d.who, ∀ g, s.group? i = some g → g.hold = none) →
           ∃ t, exec (.barrierPhaseComplete false team num) s = .next t ∧ barrierOf t false team num.val = { b with due := rest } ∧ t.mem = s.mem ∧
             ∀ i ∈ d.who, ∀ g, s.group? i = some g → g.live = true → ∃ h, t.group? i = some h ∧ (h.bar num.val).completed = some (decide (0 < d.killed), d.killed)))

end
/-! ### Copies (R347–R363) -/

namespace Sys2Proof.Machine

/-- A copy instruction that reads a descriptor: its opcode, the descriptor's register and the registers it names. -/
def copyForm : Instr → Option (Nat × UReg × Uses)
  | .cpy a => some (0xD0, a, { u := uRange a 3 })
  | .cpyo a b => some (0xD1, a, { regs := srcRegs b, u := uRange a 3 })
  | .cpyg a => some (0xD2, a, { u := uRange a 3 })
  | .cpys a => some (0xD3, a, { u := uRange a 3 })
  | .cpyt a => some (0xD4, a, { u := uRange a 3 })
  | _ => none

/-- A copy command as issued (R350, R351, R354, R362): its descriptor, what it takes of MODE, its rows' lanes and offsets, and where it starts. -/
structure CommandOf (c : Gang) (op : Nat) (desc : List W64) (rnd : Nat) (sat ftz acq : Bool) (n : Nat) (cmd : CopyCmd) : Prop where
  opcode : cmd.opcode = BitVec.ofNat 8 op
  words : cmd.words = desc
  round : cmd.rnd = BitVec.ofNat 3 rnd
  sat : cmd.sat = sat
  ftz : cmd.ftz = ftz
  acquired : cmd.acqdone = acq
  done : cmd.done = n
  pc : cmd.pc = c.run.pc
  after : cmd.seq = c.g.stepSeq
  running : cmd.faulted = false ∧ cmd.ended = false ∧ cmd.released = false
  records : op ≠ 0xD2 → (∀ r w, bits (wordAt desc 0) 63 56 = r → r < 224 → snapRecord c.k (fieldRecord r) = some (fieldRecord r, w) → cmd.srcRec = w) ∧
    (∀ r w, bits (wordAt desc 0) 55 48 = r → r < 224 → snapRecord c.k (fieldRecord r) = some (fieldRecord r, w) → cmd.dstRec = w)

/-- A descriptor's own fields and endpoints are as step 1 of R353 asks. -/
def DescriptorLegal (op : Nat) (w : List W64) : Prop :=
  let a := wordAt w 0
  let m := wordAt w 2
  let src := bits a 63 56
  let dst := bits a 55 48
  bits a 14 13 = 0 ∧ bits a 7 0 = 0 ∧ bits a 10 8 ≤ 4 ∧ 1 ≤ bits a 47 32 ∧ 1 ≤ bits a 31 16 ∧ (bit a 15 = true → op = 0xD4) ∧ bits m 55 32 = 0 ∧
  (op ≠ 0xD3 → bits m 63 56 = 0 ∧ bits m 31 0 = 0) ∧ (op = 0xD0 → src < 224 ∨ dst < 224) ∧ (op = 0xD4 → 224 ≤ src ∧ 224 ≤ dst) ∧
  (op = 0xD1 → (src < 224 ↔ 224 ≤ dst)) ∧ (op = 0xD3 → src < 224 ∧ 224 ≤ dst)

/-- The rows of a command, and the elements of one of its endpoints: n to a row, each with its column (R354). -/
def cellsOf (cmd : CopyCmd) (n : Nat) : List (Nat × Nat) := cmd.rowList.flatMap fun i => (List.range n).map fun j => (i, j)

/-- A tile endpoint is allocated and every element lies in it (R353 step 3). -/
def TileReady (s : State) (c : Gang) (cmd : CopyCmd) (field origin n : Nat) (tr : Bool) : Prop :=
  ∀ h, fieldTile field = some h → ∃ x, s.tile c.g.team h = some x ∧ ∀ p ∈ cellsOf cmd n, inTile x (if tr then tileEl origin p.2 p.1 else tileEl origin p.1 p.2)

/-- A record endpoint is whole, no pointer, holds every element, is aligned, and its extents permit the access (R353 steps 4 to 6). -/
def RecordReady (c : Gang) (cmd : CopyCmd) (field origin n : Nat) (write : Bool) : Prop :=
  field < 224 → ∃ w, snapRecord c.k (fieldRecord field) = some (fieldRecord field, w) ∧ recMalformed w = false ∧ (recOf w).pointer = false ∧
    let spots := (cellsOf cmd n).flatMap fun p => recSpots w (cmd.recPos w origin p.1 p.2 n)
    (∀ p ∈ spots, p.off + p.n ≤ if p.scale then (recOf (w.drop 5)).len else (recOf w).len) ∧
    (recOf w).base % (if (recOf w).ty.w = 6 then 4 else if (recOf w).ty.w = 4 then 1 else (recOf w).ty.w / 8) = 0 ∧
    extentCheck c.k (fieldRecord field) w write spots = none

/-- The format of an endpoint, and whether a block scale goes with it. -/
def formatAt (s : State) (c : Gang) (field : Nat) : Option (Ty × Nat) :=
  match fieldTile field with
  | some h => (s.tile c.g.team h).map fun x => (tileTy x.desc, 0)
  | none => (snapRecord c.k (fieldRecord field)).bind fun x => if recMalformed x.2 then none else some ((recOf x.2).ty, (recOf x.2).blk)

/-- Two formats that no copy joins: B16 with another, or a scaled record with one that is no floating-point format (R353 step 2). -/
def FormatsClash (x y : Ty × Nat) : Prop :=
  decide (x.1.kind = .b16) ≠ decide (y.1.kind = .b16) ∨ (x.2 ≠ 0 ∧ (y.1.isInt = true ∨ y.1.kind = .b16)) ∨ (y.2 ≠ 0 ∧ (x.1.isInt = true ∨ x.1.kind = .b16))

/-- The command joins the group's, under the next number, and nothing else changes. -/
def Commands (i : Instr) (s : State) (c : Gang) (cmd : CopyCmd) : Prop :=
  exec i s = .next (wentPast (s.setGroup c.gid { c.g with copies := c.g.copies ++ [cmd], stepSeq := c.g.stepSeq + 1 }) c)

/-- The oldest command of a group that is running, with elements left. -/
structure Moving (s : State) (gid : Nat) (g : Group) (cmd : CopyCmd) (rest : List CopyCmd) : Prop where
  group : s.group? gid = some g
  oldest : g.copies = cmd :: rest
  runs : engineStopped s g = false
  state : cmd.faulted = false ∧ cmd.ended = false ∧ cmd.released = false
  acquired : cmd.acq = false ∨ cmd.acqdone = true
  unbuffered : g.red = []

/-- A group's oldest command has performed n more elements. -/
def Advanced (t : State) (gid : Nat) (cmd : CopyCmd) (rest : List CopyCmd) (n : Nat) : Prop :=
  ∃ g cmd', t.group? gid = some g ∧ g.copies = cmd' :: rest ∧ cmd'.done = cmd.done + n ∧ cmd'.words = cmd.words ∧ cmd'.opcode = cmd.opcode

end Sys2Proof.Machine

section

open Sys2Proof Sys2Proof.Machine

/-- R348–R353, R362, R363: a copy instruction stalls at eight commands, traps by the steps of R353, and else makes one command with its descriptor, the MODE fields it takes and
its records, and changes nothing else; `ENGSV` takes the oldest command into four registers, and `ENGRS` makes one from its record. -/
def Obligations.CopyCommands : Prop :=
  ∀ (s : State) (c : Gang),
    (∀ (i : Instr) (op : Nat) (a : UReg) (u : Uses), copyForm i = some (op, a, u) → Issues i s c u →
      let w := c.three a
      let src := bits (wordAt w 0) 63 56
      let dst := bits (wordAt w 0) 55 48
      (8 ≤ c.g.copies.length → Stalls i s c) ∧
      (c.g.copies.length < 8 → c.g.release.isSome = true → Stays i s c) ∧
      (c.g.copies.length < 8 → c.g.release = none →
        (op ≠ 0xD2 → ¬DescriptorLegal op w → exec i s = .next (trapped s c (illegalTrap c 1))) ∧
        (op = 0xD0 ∨ op = 0xD4 → DescriptorLegal op w → ∃ cmd, CommandOf c op w (modeRnd c.mode) (modeSat c.mode) (modeFtz c.mode) false 0 cmd ∧
          (∀ x y, formatAt s c src = some x → formatAt s c dst = some y → FormatsClash x y → exec i s = .next (trapped s c (modeTrap c))) ∧
          ((∀ x y, formatAt s c src = some x → formatAt s c dst = some y → ¬FormatsClash x y) →
            (¬TileReady s c cmd src cmd.sorg cmd.cols false ∨ ¬TileReady s c cmd dst cmd.dorg cmd.cols cmd.tr → ∃ e : TrapInfo, e.code = 0x0C ∧ exec i s = .next (trapped s c e)) ∧
            (TileReady s c cmd src cmd.sorg cmd.cols false → TileReady s c cmd dst cmd.dorg cmd.cols cmd.tr → ¬RecordReady c cmd src cmd.sorg cmd.cols false ∨
                ¬RecordReady c cmd dst cmd.dorg cmd.cols true →
              ∃ e : TrapInfo, (e.code = 0x03 ∨ e.code = 0x04 ∨ e.code = 0x05) ∧ exec i s = .next (trapped s c e)) ∧
            (TileReady s c cmd src cmd.sorg cmd.cols false → TileReady s c cmd dst cmd.dorg cmd.cols cmd.tr → RecordReady c cmd src cmd.sorg cmd.cols false →
              RecordReady c cmd dst cmd.dorg cmd.cols true → Commands i s c cmd))) ∧
        (∀ b, i = .cpyo a b → DescriptorLegal 0xD1 w → ∃ cmd, CommandOf c 0xD1 w (modeRnd c.mode) (modeSat c.mode) (modeFtz c.mode) false 0 cmd ∧
          cmd.rowMask = c.lanes ∧ (∀ l < 32, (cmd.rowOffs.getD l 0).toNat = (c.opndRaw false b).at l % 2 ^ 32) ∧
          let here := ∀ j < 8, j * c.k.perSlice < cmd.rows → bit c.run.slices j = true ∨ (c.g.slice j).gone c.k.fullMask = true
          (c.k.width < cmd.rows → exec i s = .next (trapped s c (illegalTrap c 1))) ∧
          (cmd.rows ≤ c.k.width → ¬here → exec i s = .next (trapped s c (illegalTrap c 5))) ∧
          (cmd.rows ≤ c.k.width → here → (∀ x y, formatAt s c src = some x → formatAt s c dst = some y → ¬FormatsClash x y) → TileReady s c cmd src cmd.sorg cmd.cols false →
            TileReady s c cmd dst cmd.dorg cmd.cols false → RecordReady c cmd src cmd.sorg cmd.cols false → RecordReady c cmd dst cmd.dorg cmd.cols true → Commands i s c cmd)) ∧
        (op = 0xD3 → DescriptorLegal op w → ∃ cmd, CommandOf c op w (modeRnd c.mode) (modeSat c.mode) (modeFtz c.mode) false 0 cmd ∧
          let meta_ := bits (wordAt w 2) 63 56
          (bits (wordAt w 0) 31 16 % 4 ≠ 0 ∨ 224 ≤ meta_ → exec i s = .next (trapped s c (illegalTrap c 1))) ∧
          (bits (wordAt w 0) 31 16 % 4 = 0 → meta_ < 224 → snapRecord c.k (fieldRecord meta_) = some (fieldRecord meta_, cmd.metaRec) → (recOf cmd.metaRec).ty.kind = .uint →
            (recOf cmd.metaRec).ty.w = 4 → (∀ x y, formatAt s c src = some x → formatAt s c dst = some y → ¬FormatsClash x y) →
            TileReady s c cmd dst cmd.dorg cmd.cols false → RecordReady c cmd src cmd.sorg (cmd.cols / 2) false → RecordReady c cmd meta_ cmd.morg (cmd.cols / 4) false →
            Commands i s c cmd)) ∧
        (op = 0xD2 →
          let fields := bits (wordAt w 2) 31 16 = 0 ∧ bits (wordAt w 2) 14 13 = 0 ∧ bits (wordAt w 2) 7 0 = 0 ∧ bits (wordAt w 2) 10 8 ≤ 4
          let aligned := (wordAt w 0).toNat % 4 = 0 ∧ (wordAt w 1).toNat % 4 = 0 ∧ bits (wordAt w 2) 63 32 % 4 = 0 ∧ bits (wordAt w 0) 63 60 = 0 ∧ bits (wordAt w 1) 63 60 = 0
          (¬fields → exec i s = .next (trapped s c (illegalTrap c 1))) ∧
          (fields → ¬aligned → ∃ e : TrapInfo, e.code = 0x04 ∧ exec i s = .next (trapped s c e)) ∧
          (fields → aligned → ∃ cmd, CommandOf c op w 0 false false false 0 cmd ∧ Commands i s c cmd)))) ∧
    (∀ d : UReg, Issues (.engsv d) s c { u := uRange d 4 } →
      ((∃ cmd rest, c.g.copies = cmd :: rest ∧ (cmd.opcode = 0xD1 ∨ cmd.opcode = 0x77)) → Stays (.engsv d) s c) ∧
      (d.val ≤ 60 → ∀ l : List W64, (c.g.copies = [] ∧ l = [0, 0, 0, 0]) ∨ (∃ cmd rest, c.g.copies = cmd :: rest ∧ cmd.opcode ≠ 0xD1 ∧ cmd.opcode ≠ 0x77 ∧
          ∃ x : W64, l = [wordAt cmd.words 0, wordAt cmd.words 1, wordAt cmd.words 2, x] ∧ bits x 63 56 = cmd.opcode.toNat ∧ bits x 55 53 = cmd.rnd.toNat ∧ bit x 52 = cmd.sat ∧
            bit x 51 = cmd.ftz ∧ bit x 50 = cmd.acqdone ∧ bits x 49 48 = 0 ∧ bits x 47 0 = cmd.done % 2 ^ 48) →
        ∃ s' g, exec (.engsv d) s = .next (wentPast s' c) ∧ s'.group? c.gid = some g ∧ g.copies = c.g.copies.tail ∧ s'.mem = s.mem ∧
          (∀ n : UReg, g.s[n.val] = if d.val ≤ n.val ∧ n.val < d.val + 4 then wordAt l (n.val - d.val) else c.g.s[n.val]) ∧ g.v = c.g.v ∧ g.p = c.g.p)) ∧
    ∀ a : UReg, Issues (.engrs a) s c { u := uRange a 4 } → a.val ≤ 60 →
      let w := c.three a
      let x := (c.view.uni ⟨(a.val + 3) % 64, Nat.mod_lt _ (by decide)⟩).1
      (bits x 49 48 ≠ 0 → exec (.engrs a) s = .next (trapped s c (illegalTrap c 1))) ∧
      (bits x 49 48 = 0 → bits x 63 56 = 0 → exec (.engrs a) s = .next (passed s c)) ∧
      (bits x 49 48 = 0 → bits x 63 56 ∉ [0, 0xD0, 0xD2, 0xD3, 0xD4] → exec (.engrs a) s = .next (trapped s c (illegalTrap c 1))) ∧
      (bits x 49 48 = 0 → bits x 63 56 = 0xD2 → bits x 55 53 ≤ 5 → c.g.copies.length < 8 → c.g.release = none →
        bits (wordAt w 2) 31 16 = 0 → bits (wordAt w 2) 14 13 = 0 → bits (wordAt w 2) 7 0 = 0 → bits (wordAt w 2) 10 8 ≤ 4 →
        (wordAt w 0).toNat % 4 = 0 → (wordAt w 1).toNat % 4 = 0 → bits (wordAt w 2) 63 32 % 4 = 0 → bits (wordAt w 0) 63 60 = 0 → bits (wordAt w 1) 63 60 = 0 →
        ∃ cmd, CommandOf c 0xD2 w (bits x 55 53) (bit x 52) (bit x 51) (bit x 50) (bits x 47 0) cmd ∧ Commands (.engrs a) s c cmd)

/-- R354, R355, R358, R361, R208: the engine moves a tile's element, through the conversion of its formats, and a `CPYG`'s word as it is; a command at its end, or ended early,
leaves the counter; and a `DECHT` whose stream holds its elements writes them to its tile. -/
def Obligations.CopiesPerform : Prop :=
  ∀ (s : State) (gid : Nat) (g : Group) (cmd : CopyCmd) (rest : List CopyCmd), Moving s gid g cmd rest →
    (∀ (hs hd : TileNo) (x y : Tile), cmd.opcode = 0xD4 → bits (wordAt cmd.words 0) 63 56 = 224 + hs.val → bits (wordAt cmd.words 0) 55 48 = 224 + hd.val →
      cmd.done < cmd.rows * cmd.cols → (s.team g.team).late = [] → s.tile g.team hs = some x → s.tile g.team hd = some y → x.poison = [] → KMap.wf y.words = true →
      let i := cmd.done / cmd.cols
      let j := cmd.done % cmd.cols
      let p := tileEl cmd.sorg i j
      let q := if cmd.tr then tileEl cmd.dorg j i else tileEl cmd.dorg i j
      inTile x p → inTile y q →
      let v := (stageLoad (tileTy x.desc) (tileTy y.desc) cmd.mode none (x.bound p.1 p.2) (x.read p.1 p.2)).1
      ∃ t z, exec (.copyElement gid) s = .next t ∧ t.tile g.team hd = some z ∧ TileWritten y z [(q.1, q.2, v)] ∧ OtherTiles s t g.team hd ∧ Advanced t gid cmd rest 1) ∧
    (cmd.opcode = 0xD2 → cmd.done < bits (wordAt cmd.words 2) 63 32 / 4 → (s.team g.team).late = [] → s.dev.poolForeign = [] →
      let spot (va : Nat) : Spot := { lane := 0, j := 0, scale := false, off := va, va := va, n := 4, sh := 0, w := 32 }
      let from_ := spot (bits (wordAt cmd.words 0) 59 0 + 4 * cmd.done)
      let to_ := spot (bits (wordAt cmd.words 1) 59 0 + 4 * cmd.done)
      let decl := if bit (wordAt cmd.words 2) 15 then b16Unbounded else b16Exact
      ∀ (s0 s1 s2 : State) (ta tb : Attr) (pa pb x : Nat) (β : B16), locate s g.core g.kernel (engineAccess .fetch none) from_ = (s0, .at_ ta pa) →
        readReach s g (engineAccess .fetch none) decl from_ = (s1, .read x β false) → locate s1 g.core g.kernel (engineAccess .stg none) to_ = (s2, .at_ tb pb) →
        ta.type ≠ 4 → ta.type ≠ 3 → tb.type ≠ 4 → tb.type ≠ 3 → pa % 4 = 0 → pb % 4 = 0 → Memory.wf s2.mem = true → CopiesInside s2 g.core →
        (∀ e ∈ (s.core g.core).l1, e.revoked = false ∧ e.asid = (s.kernel g.kernel).asid ∧ KMap.wf e.bytes = true ∧ ∀ o b, (o, b) ∈ e.bytes → o < sectorSize e.sector) →
        (s.core g.core).l1.length < l1Lines →
        x = seenBytes s g.core ta.bound pa 4 ∧
        ∃ t, exec (.copyElement gid) s = .next t ∧ s2.mem = s.mem ∧ Performed s2 t g.core pb 4 x ∧ Advanced t gid cmd rest 1) ∧
    (cmd.opcode ≠ 0x77 → cmd.total ≤ cmd.done → cmd.rel = false → exec (.copyCommandEnd gid) s =
      .next (tick { s.setGroup gid { g with copies := rest } with durWait := s.durWait.map fun w => { w with engine := w.engine && !w.owners.contains gid } })) ∧
    ((cmd.opcode = 0x77 ∨ cmd.done < cmd.total) → exec (.copyCommandEnd gid) s = .next (tick s)) ∧
    (∀ (j : DecodeJob) (str tab dst : Tile) (xs : List Nat) (e : Nat), cmd.opcode = 0x77 → cmd.bnd ≠ 2 →
      (s.core g.core).decodeQ.head? = some j → j.gid = gid → j.kind = 2 → (s.team g.team).late = [] →
      s.tile g.team cmd.srcTile = some str → s.tile g.team ⟨bits j.desc2 4 0 % 32, Nat.mod_lt _ (by decide)⟩ = some tab → s.tile g.team cmd.destTile = some dst →
      j.old = str.words → str.poison = [] → tab.poison = [] → KMap.wf dst.words = true → HuffSeq tab str (decEnd j.desc) (decStart j.desc) xs e → xs.length = decLen j.desc → 0 < xs.length →
      let cols := max 1 (tileCols dst.desc)
      let row := bits j.desc2 31 16
      row + (xs.length + cols - 1) / cols ≤ tileRows dst.desc → 1 ≤ tileCols dst.desc →
      ∃ t h z, exec (.dechtComplete gid) s = .next t ∧ t.group? gid = some h ∧ bits h.decStatus 23 0 = e % 2 ^ 24 ∧ t.tile g.team cmd.destTile = some z ∧
        TileWritten dst z ((List.range xs.length).map fun k => (row + k / cols, k % cols, tab.half (0x80 + 2 * xs.getD k 0) % 2 ^ (tileTy dst.desc).w)) ∧
        OtherTiles s t g.team cmd.destTile) ∧
    ∀ c' : CopyCmd, c' = { cmd with ended := true } → ∀ s', s' = s.setGroup gid { g with copies := c' :: rest } →
      ∃ t h, exec (.copyCommandEnd gid) s' = .next t ∧ t.group? gid = some h ∧ h.copies = rest ∧ h.asyncTraps = g.asyncTraps ++ [trapCopy c']

end
/-! ### The matrix unit (R366–R396) -/

namespace Sys2Proof.Machine

/-- The matrix instructions and the registers they name. -/
def matrixForm : Instr → Option Uses
  | .mma _ _ _ _ _ _ _ _ _ | .accz _ | .msave _ | .mres _ => some {}
  | .mshape a | .mscale a => some { u := uRange a 3 }
  | .accrd d _ n b | .accwr d _ n b => some (accUses d n b)
  | _ => none

/-- Those that a release in progress holds up. -/
def queuedForm : Instr → Option Uses
  | .mma _ _ _ _ _ _ _ _ _ | .accz _ | .mres _ => some {}
  | .accwr d _ n b => some (accUses d n b)
  | _ => none

/-- An entry e has joined the queue of gang c's unit, and its group's open batch counts `batch` more; nothing else but the group changes, and the run goes on, or is
held for the unit. -/
def Enters (i : Instr) (s : State) (c : Gang) (batch : Nat) (hold : Bool) (e : MEntry) : Prop :=
  ∃ (s' : State) (g : Group), exec i s = .next (if hold then tick (s'.modGroup c.gid fun g => { g with hold := some .matrix }) else wentPast s' c) ∧
    e.holds = hold ∧ (s'.core (leader c.k c.g)).mq = (s.core (leader c.k c.g)).mq ++ [e] ∧ s'.group? c.gid = some g ∧
    g = { c.g with openBatch := g.openBatch, stepSeq := c.g.stepSeq + 1 } ∧ g.openBatch.open_ = c.g.openBatch.open_ + batch ∧ s'.mem = s.mem ∧ s'.teams = s.teams ∧
    ∀ n, (s'.core n).acc = (s.core n).acc ∧ (s'.core n).rowBound = (s.core n).rowBound ∧ (s'.core n).l1 = (s.core n).l1

/-- An entry as issued: what it keeps of the gang (R375, R384, R395). -/
structure EntryOf (c : Gang) (kind : MKind) (word : W32) (origin : W64) (d : Nat) (e : MEntry) : Prop where
  kind : e.kind = kind
  word : e.word = word
  gid : e.gid = c.gid
  mode : e.mode = c.mode
  budget : e.budget = c.view.budget (firstSlice c.run.slices)
  shape : e.shape = c.view.shape
  scale : e.scale = c.view.scale
  origin : e.origin = origin
  lanes : e.lanes = c.lanes
  d : e.d = d
  waits : e.started = false ∧ e.image = []

/-- The class of the two tiles of an `MMA`, where both are allocated. -/
def mmaClass (s : State) (c : Gang) (hA hB : TileNo) : Option MClass :=
  match s.tile c.g.team hA, s.tile c.g.team hB with
  | some a, some b => classOf (tileTy a.desc) (tileTy b.desc)
  | _, _ => none

/-- The scale tiles of an `MMA`, where scales apply. -/
def mmaScaled (s : State) (c : Gang) (hA hB : TileNo) : Bool := match mmaClass s c hA hB with
  | some k => decide (bits (wordAt c.view.scale 0) 1 0 ≠ 0) && (decide (k = .fp8) || decide (k = .fp4))
  | none => false

/-- Step 1 of R375. -/
def MmaFields (s : State) (c : Gang) (acc : Fin 16) (hA hB : TileNo) (p : BitVec 3) (pair : Bool) : Prop :=
  let w0 := wordAt c.view.shape 0
  p.toNat ≤ 4 ∧ (pair = true → c.k.pair = true ∧ c.k.prot = false) ∧ (pair = true ↔ bits w0 2 0 = 5) ∧
    (mmaClass s c hA hB = some .f64 → acc.val % 2 = 0) ∧ (bit w0 5 = true → ∀ k, mmaClass s c hA hB = some k → k = .f16)

/-- Step 2 of R375. -/
def MmaFormats (s : State) (c : Gang) (hA hB : TileNo) : Prop :=
  (∀ h, h = hA ∨ h = hB → ∀ x, s.tile c.g.team h = some x → (classOf (tileTy x.desc) (tileTy x.desc)).isSome = true) ∧
  (s.tile c.g.team hA ≠ none → s.tile c.g.team hB ≠ none → (mmaClass s c hA hB).isSome = true) ∧
  (mmaScaled s c hA hB = true → ∀ n, n = 1 ∨ n = 2 → ∀ x, s.tile c.g.team (scaleTile (wordAt c.view.scale n)) = some x → (tileTy x.desc).kind = .flt .e8m0)

/-- Step 3 of R375. -/
def MmaTiles (s : State) (c : Gang) (hA hB : TileNo) (pair : Bool) : Prop :=
  ∃ a b k, s.tile c.g.team hA = some a ∧ s.tile c.g.team hB = some b ∧ mmaClass s c hA hB = some k ∧
    let w0 := wordAt c.view.shape 0
    let M := 2 ^ (bits w0 2 0 + 3)
    let N := 2 ^ (bits w0 4 3 + 3)
    let K := classK k (bit w0 5)
    let mapA := wordAt c.view.shape 1
    let mapB := wordAt c.view.shape 2
    let blk := if bits (wordAt c.view.scale 0) 1 0 = 1 then 16 else 32
    let inside (x : Tile) (f : Nat) : Prop := f < tileRows x.desc * tileCols x.desc
    inside a (bits mapA 47 32 + (M - 1) * bits mapA 15 0 + (bits mapA 63 48 + (K - 1)) * bits mapA 31 16) ∧
    inside b (bits mapB 47 32 + (N - 1) * bits mapB 15 0 + (bits mapB 63 48 + (K - 1)) * bits mapB 31 16) ∧
    (mmaScaled s c hA hB = true → ∃ x y, s.tile c.g.team (scaleTile (wordAt c.view.scale 1)) = some x ∧ s.tile c.g.team (scaleTile (wordAt c.view.scale 2)) = some y ∧
      inside x (bits (wordAt c.view.scale 1) 47 16 + (M - 1) * bits (wordAt c.view.scale 1) 63 48 + (bits mapA 63 48 + (K - 1)) / blk) ∧
      inside y (bits (wordAt c.view.scale 2) 47 16 + (N - 1) * bits (wordAt c.view.scale 2) 63 48 + (bits mapB 63 48 + (K - 1)) / blk)) ∧
    (pair = true → tilePair a.desc = true ∧ tilePair b.desc = true)

/-- The origin, rows and accumulator that `ACCRD` and `ACCWR` accept (R384). -/
def RowsExist (c : Gang) (wide : Bool) (acc : Fin 16) (origin : W64) (n : Nat) : Prop :=
  (wide = true → acc.val % 2 = 0) ∧ bits origin 63 32 = 0 ∧ bits origin 31 16 ≤ 31 ∧
    bits origin 15 0 + n ≤ if c.k.pair = true ∧ c.k.prot = false then 256 else 128

/-- One k-step of an element of a float class (R376): the cell and the partial sum after k-step t. -/
def stepR376 (w kk pv : Nat) (sat : Bool) (x y : Nat → Rat) (t : Nat) (m : Nat × Rat) : Nat × Rat :=
  let s := (List.range 4).foldl (fun s q => cutSig w (s + x (4 * t + q) * y (4 * t + q))) m.2
  if (t + 1) % pv = 0 ∨ t + 1 = kk then ((promote .f32 sat false m.1 (.real s false)).1, 0) else (m.1, s)

/-- An element of the A or B operand of an unscaled `MMA` in the head entry e, by its flat index (R372, R377). -/
def opdAt (x : Tile) (e : MEntry) (neg : Bool) (f : Nat) : MOpd :=
  mOpd (tileTy x.desc) (modeFtz e.mode) neg none (x.read (flatAt x.desc f).1 (flatAt x.desc f).2) (x.bound (flatAt x.desc f).1 (flatAt x.desc f).2)

end Sys2Proof.Machine

section

open Sys2Proof Sys2Proof.Machine

/-- R366, R367, R371, R373, R375, R384–R386, R389, R392–R394: a matrix instruction without an active lane acts as `NOP`; `MSHAPE` and `MSCALE` write their records; `MMA`, `ACCZ`,
`ACCRD`, `ACCWR` and `MRES` stall at a full queue, trap by their checks in order, and else join the queue and the open batch; `MSAVE` writes its image, of
a started `MMA` with the whole blocks of rows and the k-steps that it has done. -/
def Obligations.MatrixInstructions : Prop :=
  ∀ (s : State) (c : Gang),
    let queue := (s.core (leader c.k c.g)).mq
    let word := c.run.words.headD 0
    (∀ i u, matrixForm i = some u → Issues i s c u → c.lanes = 0 → exec i s = .next (passed s c)) ∧
    (∀ i u, queuedForm i = some u → Issues i s c u → c.lanes ≠ 0 → c.g.release.isSome = true → (∃ t, exec i s = .next (trapped s c t)) ∨ Stays i s c) ∧
    (c.lanes ≠ 0 →
      (∀ a : UReg, Issues (.mshape a) s c { u := uRange a 3 } →
        let w0 := wordAt (c.three a) 0
        let legal := bits w0 63 11 = 0 ∧ bits w0 4 3 ≤ 2 ∧ bits w0 2 0 ≤ 5 ∧ bits w0 8 6 ≤ 4
        (¬legal → exec (.mshape a) s = .next (trapped s c (illegalTrap c 1))) ∧
        (legal → Completes (.mshape a) s c 0 fun g => g = { c.g with shape := c.three a, unsettled := g.unsettled })) ∧
      (∀ a : UReg, Issues (.mscale a) s c { u := uRange a 3 } →
        let w := c.three a
        let legal := bits (wordAt w 0) 63 2 = 0 ∧ bits (wordAt w 0) 1 0 ≠ 3 ∧ bits (wordAt w 1) 15 5 = 0 ∧ bits (wordAt w 2) 15 5 = 0
        (¬legal → exec (.mscale a) s = .next (trapped s c (illegalTrap c 1))) ∧
        (legal → Completes (.mscale a) s c 0 fun g => g = { c.g with scale := w, unsettled := g.unsettled })) ∧
      (∀ (acc : Fin 16) (hA hB : TileNo) (na nb z r : Bool) (p : BitVec 3) (pair : Bool),
        let i : Instr := .mma acc hA hB na nb z r p pair
        Issues i s c {} → word = encodeWord i → c.g.release = none →
        (16 ≤ queue.length → Stalls i s c) ∧
        (queue.length < 16 →
          (¬MmaFields s c acc hA hB p pair → ∃ e : TrapInfo, e.code = 0x01 ∧ exec i s = .next (trapped s c e)) ∧
          (MmaFields s c acc hA hB p pair → ¬MmaFormats s c hA hB → exec i s = .next (trapped s c (modeTrap c))) ∧
          (MmaFields s c acc hA hB p pair → MmaFormats s c hA hB → ¬MmaTiles s c hA hB pair → ∃ e : TrapInfo, e.code = 0x0C ∧ exec i s = .next (trapped s c e)) ∧
          (MmaFields s c acc hA hB p pair → MmaFormats s c hA hB → MmaTiles s c hA hB pair →
            ∃ e, EntryOf c .mma word 0 0 e ∧ Enters i s c 1 (decide (modeBnd c.mode = 2)) e))) ∧
      (∀ mask : BitVec 16, Issues (.accz mask) s c {} → c.g.release = none → (16 ≤ queue.length → Stalls (.accz mask) s c) ∧
        (queue.length < 16 → ∃ e, EntryOf c .accz word 0 mask.toNat e ∧ Enters (.accz mask) s c 1 false e)) ∧
      (∀ (d : VFirst) (acc : Fin 16) (n : BitVec 4) (b : UReg) (i : Instr) (rd : Bool), (i = .accrd d acc n b ∧ rd = true) ∨ (i = .accwr d acc n b ∧ rd = false) →
        Issues i s c (accUses d n b) → ∀ t, c.ty = some t →
        let wide := decide (t.kind = .flt .f64)
        let takes := t.kind = .flt .f64 ∨ t.kind = .flt .f32 ∨ (t.isInt = true ∧ t.w = 32)
        let origin := (c.view.uni b).1
        (¬takes → exec i s = .next (trapped s c (modeTrap c))) ∧
        (takes → ¬RowsExist c wide acc origin (n.toNat + 1) → ∃ e : TrapInfo, e.code = 0x01 ∧ exec i s = .next (trapped s c e)) ∧
        (takes → RowsExist c wide acc origin (n.toNat + 1) → rd = true ∨ c.g.release = none →
          (16 ≤ queue.length → Stalls i s c) ∧
          (queue.length < 16 → rd = false → ∃ e, EntryOf c .accwr word origin d.val e ∧ Enters i s c 1 true e) ∧
          (queue.length < 16 → rd = true → flagFree c → ∃ e g p, EntryOf c .accrd word origin d.val e ∧ e.flag = c.nextFlag ∧ p.kind = .accrd ∧ p.sticky = 0 ∧ p.known = false ∧
            Launched c g p true false ∧ exec i s = .next (wentPast (pushEntry (s.setGroup c.gid g) (leader c.k c.g) e) c)))) ∧
      (∀ h : TileNo, Issues (.msave h) s c {} →
        ((∀ x, s.tile c.g.team h = some x → tileBytes x.desc < 4864) → ∃ e : TrapInfo, e.code = 0x0C ∧ exec (.msave h) s = .next (trapped s c e)) ∧
        ∀ x, s.tile c.g.team h = some x → 4864 ≤ tileBytes x.desc →
          let own := queue.filter fun e => decide (e.gid = c.gid)
          (2 ≤ own.length ∨ (∃ e, own = [e] ∧ e.kind ≠ .mma) → Stays (.msave h) s c) ∧
          (own = [] → ∃ s' y, exec (.msave h) s = .next (wentPast s' c) ∧ s'.tile c.g.team h = some y ∧ y.desc = x.desc ∧ OtherTiles s s' c.g.team h ∧
            (KMap.wf x.words = true → ∀ n < 608, tileWord64 y n = 0)) ∧
          (∀ e, own = [e] → e.kind = .mma → e.image = [] → e.started = true → modeBnd e.mode ≠ 2 → (s.team c.g.team).late = [] → KMap.wf x.words = true → ∀ pl : MPlan,
            mmaCheck s c.g e.word e.shape e.scale e.mode e.lanes = .ok pl → (mmaStart (entered s c) (leader c.k c.g) c.g e pl).bad = false →
            ∃ s' y, exec (.msave h) s = .next (wentPast s' c) ∧ s'.tile c.g.team h = some y ∧ y.desc = x.desc ∧
              (s'.core (leader c.k c.g)).mq = queue.filter (fun e => decide (e.gid ≠ c.gid)) ∧ (s'.core (leader c.k c.g)).latch = none ∧
              bits (tileWord64 y 0) 31 0 = e.word.toNat ∧ bit (tileWord64 y 0) 34 = true ∧ bit (tileWord64 y 0) 35 = e.acqdone ∧ bits (tileWord64 y 0) 63 49 = 0 ∧
              bits (tileWord64 y 0) 44 36 % 8 = 0 ∧ bits (tileWord64 y 0) 44 36 < pl.m ∧ bits (tileWord64 y 0) 48 45 < max 1 (pl.k / 4)) ∧
          (∀ e, own = [e] → e.kind = .mma → e.image = [] → e.started = false → ∃ s' y, exec (.msave h) s = .next (wentPast s' c) ∧ s'.tile c.g.team h = some y ∧ y.desc = x.desc ∧
            OtherTiles s s' c.g.team h ∧ (s'.core (leader c.k c.g)).mq = queue.filter (fun e => decide (e.gid ≠ c.gid)) ∧ (s'.core (leader c.k c.g)).latch = none ∧
            (KMap.wf x.words = true →
              bits (tileWord64 y 0) 31 0 = e.word.toNat ∧ bits (tileWord64 y 0) 34 32 = 0 ∧ bit (tileWord64 y 0) 35 = e.acqdone ∧ bits (tileWord64 y 0) 63 36 = 0 ∧
              (∀ n < 3, tileWord64 y (1 + n) = wordAt e.shape n ∧ tileWord64 y (4 + n) = wordAt e.scale n) ∧
              bits (tileWord64 y 7) 23 0 = e.mode.toNat ∧ bits (tileWord64 y 7) 39 24 = e.budget.toNat ∧ ∀ n, 8 ≤ n → n < 608 → tileWord64 y n = 0))) ∧
      ∀ h : TileNo, Issues (.mres h) s c {} →
        ((∀ x, s.tile c.g.team h = some x → tileBytes x.desc < 4864) → ∃ e : TrapInfo, e.code = 0x0C ∧ exec (.mres h) s = .next (trapped s c e)) ∧
        ∀ x, s.tile c.g.team h = some x → 4864 ≤ tileBytes x.desc → c.g.release = none → (16 ≤ queue.length → Stalls (.mres h) s c) ∧
          (queue.length < 16 → ∃ e, EntryOf c .mres word 0 0 e ∧ e.tile = h ∧ Enters (.mres h) s c 1 true e))

/-- R366, R376–R378, R384–R386, R306: the entry at the head of a queue starts, an `ACCWR` writing its rows and an `ACCRD` reading its row; it retires: `ACCZ` clears its cells, an `ACCRD` writes what it read, and an
`MMA` computes its cells by R376 or, for INT8, exactly; and a closed batch whose entries have retired leaves the mx counter. -/
def Obligations.MatrixUnitPerforms : Prop :=
  ∀ (s : State) (core : Nat) (e : MEntry) (rest : List MEntry) (g : Group), (s.core core).mq = e :: rest → s.group? e.gid = some g →
    (s.kernel g.kernel).pair = false → (s.kernel g.kernel).prot = false → (∀ n, KMap.wf (s.core n).acc = true ∧ KMap.wf (s.core n).rowBound = true) →
    (s.team g.team).late = [] → slaved s core = false → followerBusy s core e = false →
    let k := s.kernel g.kernel
    let w0 := wordAt e.shape 0
    let acc := bits e.word 15 12
    let row0 := bits e.origin 15 0
    let col0 := bits e.origin 31 16
    let d : VReg := .v ⟨e.d % 240, Nat.mod_lt _ (by decide)⟩
    (e.started = false → e.kind = .accz ∨ (e.kind = .mma ∧ bit w0 9 = false ∧ ∀ x ∈ g.ld, x.places = []) →
      ∃ t old, exec (.matrixEntryStart core) s = .next t ∧ (t.core core).mq = { e with started := true, old := old } :: rest ∧ t.groups = s.groups ∧ t.mem = s.mem ∧
        (t.core core).acc = (s.core core).acc ∧
        ∀ h, e.kind = .mma → h = mmaA e.word ∨ h = mmaB e.word → KMap.get? old h.val = s.tile g.team h) ∧
    (e.started = false → e.kind = .accrd → wideMode e.mode = false → bits e.word 11 8 = 0 → row0 < 128 →
      ∀ (p : Pending) (L : VLine) (m : BitVec 32), (g.pend.find? fun p => decide (p.kind = ResultKind.accrd)) = some p → p.writes = [.v d L m] →
        ∃ t h L', exec (.matrixEntryStart core) s = .next t ∧ (t.core core).mq = { e with started := true } :: rest ∧ t.group? e.gid = some h ∧ h = { g with pend := h.pend } ∧
          (h.pend.find? fun p => decide (p.kind = ResultKind.accrd)) = some { p with writes := [.v d L' m], known := true } ∧
          ∀ l : Fin 32, col0 + l.val < 32 → L'.val[l.val].toNat = accCell s core acc row0 (col0 + l.val)) ∧
    (e.started = false → e.kind = .accwr → wideMode e.mode = false → row0 + (bits e.word 11 8 + 1) ≤ 128 → e.d + (bits e.word 11 8 + 1) ≤ 240 →
      ∃ t, exec (.matrixEntryStart core) s = .next t ∧ (t.core core).mq = { e with started := true } :: rest ∧
        ∀ n i j, n < 16 → i < 128 → j < 32 → accCell t core n i j =
          if n = acc ∧ row0 ≤ i ∧ i < row0 + (bits e.word 11 8 + 1) ∧ col0 ≤ j ∧ bit e.lanes (j - col0) = true then
            ((g.line k.score (.v ⟨(e.d + (i - row0)) % 240, Nat.mod_lt _ (by decide)⟩)).val.toList.getD (j - col0) 0).toNat
          else accCell s core n i j) ∧
    (e.started = false → exec (.matrixEntryRetire core) s = .next (tick s)) ∧
    (e.started = true → e.kind = .accz → ∃ t, exec (.matrixEntryRetire core) s = .next t ∧ (t.core core).mq = rest ∧
      ∀ n i, n < 16 → i < 128 → (∀ j < 32, accCell t core n i j = if e.d.testBit n then 0 else accCell s core n i j) ∧
        accBound t core n i = if e.d.testBit n then scoreB k.score b16Exact else accBound s core n i) ∧
    (e.started = true → e.kind = .accrd → (s.core core).accPoison = [] →
      ∀ (p : Pending) (L : VLine) (m : BitVec 32), (g.pend.find? fun p => decide (p.kind = ResultKind.accrd)) = some p → p.writes = [.v d L m] →
        ∃ t h, exec (.matrixEntryRetire core) s = .next t ∧ t.group? e.gid = some h ∧ (t.core core).mq = rest ∧ (∀ f, p.flag = some f → bit h.cflags f.val = false) ∧
          ∀ l : Fin 32, (h.line k.score d).val[l.val] = if bit m l.val then L.val[l.val] else (g.line k.score d).val[l.val]) ∧
    (e.started = true → e.kind = .mma → e.image = [] → (s.core core).latch = none → (s.core core).accPoison = [] → modeBnd e.mode ≠ 2 → modeFtz e.mode = false →
      ∀ (pl : MPlan) (a b : Tile), mmaCheck s g e.word e.shape e.scale e.mode e.lanes = .ok pl → scalesApply pl.cls (wordAt e.scale 0) = false →
        s.tile g.team (mmaA e.word) = some a → s.tile g.team (mmaB e.word) = some b → KMap.get? e.old (mmaA e.word).val = some a → KMap.get? e.old (mmaB e.word).val = some b → a.poison = [] → b.poison = [] → pl.m ≤ 128 →
        let A (i q : Nat) : MOpd := opdAt a e (bit e.word 9) (mapIndex (wordAt e.shape 1) i q)
        let B (q j : Nat) : MOpd := opdAt b e (bit e.word 8) (mapIndex (wordAt e.shape 2) j q)
        let start (i j : Nat) : Nat := if bit e.word 7 then 0 else accCell s core (mmaAcc e.word) i j
        ∃ t, exec (.matrixEntryRetire core) s = .next t ∧ (t.core core).mq = rest ∧
          (pl.cls ≠ .f64 → ∀ n i j, n < 16 → i < 128 → j < 32 → n ≠ mmaAcc e.word ∨ pl.m ≤ i ∨ pl.n ≤ j → accCell t core n i j = accCell s core n i j) ∧
          (pl.cls = .int8 → modeSat e.mode = false → ∀ i < pl.m, ∀ j < pl.n, (accCell t core (mmaAcc e.word) i j : Int) =
            (toInt true 32 (start i j) + ((List.range 32).map fun q => (A i q).int * (B q j).int).sum) % 2 ^ 32) ∧
          (pl.cls = .f32 ∨ pl.cls = .f16 ∨ pl.cls = .fp8 ∨ pl.cls = .fp4 → modeTier e.mode ≠ 0 → ∀ i < pl.m, ∀ j < pl.n,
            (∀ q < pl.k, (A i q).v.isFinite = true ∧ (B q j).v.isFinite = true) →
            accCell t core (mmaAcc e.word) i j = ((List.range (pl.k / 4)).foldl (fun m t => stepR376 (if modeTier e.mode = 1 then 34 else if modeTier e.mode = 2 then 24 else 16)
              (pl.k / 4) (2 ^ bits e.word 5 3) (modeSat e.mode) (fun q => (A i q).v.real) (fun q => (B q j).v.real) t m) (start i j, 0)).1)) ∧
    ∀ b bs, g.mx = b :: bs → (b.open_ ≠ 0 → exec (.batchComplete e.gid) s = .next (tick s)) ∧
      (b.open_ = 0 → b.faulted = false → b.relNeeded = false → exec (.batchComplete e.gid) s = .next (tick (s.setGroup e.gid { g with mx := bs })))

end
/-! ### Traps, context blocks, counters and the error log (R432–R436, R446, R447) -/

namespace Sys2Proof.Machine

/-- The instruction goes on with register d of its group at v, exact; its other registers and memory are as before. -/
def GivesUniform (i : Instr) (s : State) (c : Gang) (d : UReg) (v : W64) (P : State → Prop) : Prop :=
  ∃ s' g, exec i s = .next (wentPast s' c) ∧ s'.group? c.gid = some g ∧ g.s[d.val] = v ∧ g.sb[d.val] = scoreB c.k.score b16Exact ∧
    (∀ n : UReg, n ≠ d → g.s[n.val] = c.g.s[n.val] ∧ g.sb[n.val] = c.g.sb[n.val]) ∧ g.v = c.g.v ∧ g.p = c.g.p ∧ P s'

/-- An offset of the block whose word lies in the saved copy (R400, R436). -/
def SavedOffset (v off : Nat) : Prop := off < 0x320 ∨ (0x370 ≤ off ∧ off < 0x3A0) ∨ (blockTail v ≤ off ∧ off < blockTail v + 0x400)

/-- The register that gives the block offset of `RDCTX` and `WRCTX`, and the registers they name. -/
def blockForm : Instr → Option (UReg × Uses)
  | .rdctx d a => some (a, { u := [d, a] })
  | .wrctx a b => some (a, { u := [a, b] })
  | _ => none

/-- Gang c's group is left as P says, its run standing at the next micro-step of its legacy instruction (R437); memory and its registers are as before. -/
def MicroStepped (i : Instr) (s : State) (c : Gang) (P : State → Group → Prop) : Prop :=
  ∃ t g, exec i s = .next t ∧ t.group? c.gid = some g ∧ t.mem = s.mem ∧ g.hold = none ∧
    g.run = (c.g.run.map fun r => { r with micro := r.micro + 1, stalled := false }) ∧ g.s = c.g.s ∧ g.v = c.g.v ∧ g.p = c.g.p ∧ P t g

/-- Legacy accesses: the byte addresses of the active lanes are aligned and lie in the tile (R437). -/
def LegacyInside (c : Gang) (x : Tile) (a : Src) : Prop :=
  ∀ l < 32, bit c.lanes l = true → (c.low32 a l).toNat % 4 = 0 ∧ (c.low32 a l).toNat < tileBytes x.desc

end Sys2Proof.Machine

section

open Sys2Proof Sys2Proof.Machine

/-- R432, R435, R436, R446, R447: `RDTRAP` reads a word of the frame; `RDCTX` and `WRCTX` trap outside the handler and for an illegal offset, and else read and write the saved
copy and the register lines; `PMC` reads a counter, and 0 where there is none; `ERRLOG` appends its record to the partition's ring.
R403–R407, R411, R417: `CTXDEAD` makes registers dead, waiting for writes due to them; `CTXPIN` changes no value; `UNSEAT` gives its seat up where its team has a candidate; `ENQ` holds its
run for its command, which is appended to an enabled device queue that has room. -/
def Obligations.SystemAndContextInstructions : Prop :=
  (∀ (s : State) (c : Gang),
       let v := c.k.budgetOf c.g.role
       (∀ (d : UReg) (n : BitVec 3), Issues (.rdtrap d n) s c { u := [d] } → Completes (.rdtrap d n) s c 0 fun g =>
         UniResult c g d (wordAt c.g.frame n.toNat) (scoreB c.k.score b16Exact)) ∧
       (∀ (i : Instr) (a : UReg) (u : Uses), blockForm i = some (a, u) → Issues i s c u →
         let off := (c.view.uni a).1.toNat
         (c.g.inHandler = false → ∃ e : TrapInfo, e.code = 0x05 ∧ exec i s = .next (trapped s c e)) ∧
         (c.g.inHandler = true → off % 8 ≠ 0 → ∃ e : TrapInfo, e.code = 0x04 ∧ exec i s = .next (trapped s c e)) ∧
         (c.g.inHandler = true → off % 8 = 0 → blockTail v + 10752 ≤ off → ∃ e : TrapInfo, e.code = 0x05 ∧ exec i s = .next (trapped s c e))) ∧
       (∀ d a : UReg, Issues (.rdctx d a) s c { u := [d, a] } → c.g.inHandler = true → c.g.poison = [] →
         let off := (c.view.uni a).1.toNat
         off % 8 = 0 → off < blockTail v + 10752 → ∃ w, GivesUniform (.rdctx d a) s c d w (fun s' => s'.mem = s.mem) ∧
           (SavedOffset v off → w = (KMap.get? c.g.saved off).getD 0) ∧
           (0x3C0 ≤ off → off < 0x400 → w = wordAt c.g.frame ((off - 0x3C0) / 8)) ∧
           (0xA00 ≤ off → off < blockTail v → c.k.prot = false → (off - 0xA00) % 192 < 128 → ∀ r : Fin 240, r.val = (off - 0xA00) / 192 →
             let L := c.g.line c.k.score (.v r)
             let j := (off - 0xA00) % 192 / 8
             w.toNat = (L.val.toList.getD (2 * j) 0).toNat + 2 ^ 32 * (L.val.toList.getD (2 * j + 1) 0).toNat)) ∧
       (∀ a b : UReg, Issues (.wrctx a b) s c { u := [a, b] } → c.g.inHandler = true → c.g.poison = [] → c.k.score = false → c.k.prot = false →
         let off := (c.view.uni a).1.toNat
         let w := (c.view.uni b).1
         off % 8 = 0 → off < blockTail v + 10752 → ∃ s' g, exec (.wrctx a b) s = .next (wentPast s' c) ∧ s'.group? c.gid = some g ∧ s'.mem = s.mem ∧
           g.s = c.g.s ∧ g.p = c.g.p ∧ g.frame = c.g.frame ∧
           (SavedOffset v off → g.v = c.g.v ∧ KMap.get? g.saved off = some (keptWord c.k (blockTail v) off w) ∧
             (KMap.wf c.g.saved = true → ∀ o, o ≠ off → KMap.get? g.saved o = KMap.get? c.g.saved o)) ∧
           (off < 0x298 → keptWord c.k (blockTail v) off w = w) ∧ (blockTail v ≤ off → off < blockTail v + 0x400 → bits (keptWord c.k (blockTail v) off w) 60 36 = 0) ∧
           (0xA00 ≤ off → off < blockTail v → (off - 0xA00) % 192 < 128 → ∀ r : Fin 240, r.val = (off - 0xA00) / 192 → g.saved = c.g.saved ∧
             ∀ l : Fin 32, ((g.line false (.v r)).val[l.val]).toNat =
               if l.val / 2 = (off - 0xA00) % 192 / 8 then w.toNat / 2 ^ (32 * (l.val % 2)) % 2 ^ 32 else ((c.g.line false (.v r)).val[l.val]).toNat)) ∧
       (∀ (d : UReg) (n : BitVec 6), Issues (.pmc d n) s c { u := [d] } → ∃ x, Completes (.pmc d n) s c 0 (fun g => UniResult c g d x (scoreB c.k.score b16Exact)) ∧
         ((10 ≤ n.toNat ∧ n.toNat ≤ 15) ∨ n.toNat = 22 ∨ n.toNat = 23 ∨ 27 ≤ n.toNat → x = 0) ∧
         (19 ≤ n.toNat → n.toNat ≤ 21 → x.toNat = ((KMap.get? (s.part c.k.part).pmc (s.vfOf c.k.asid * 64 + n.toNat)).getD 0).toNat)) ∧
       ∀ d a b : UReg, Issues (.errlog d a b) s c { u := [d, a, b] } → c.k.part < 8 →
         let regs := (s.part c.k.part).regs
         let size := 2 ^ regs.elSize.toNat
         let slot := bits regs.elBase 51 6 * 64 + 64 * (regs.elProd.toNat % size)
         (size ≤ (regs.elProd - regs.elCons).toNat → GivesUniform (.errlog d a b) s c d (BitVec.allOnes 64) fun s' => s'.mem = s.mem ∧
           (s'.part c.k.part).regs = { regs with elDrop := regs.elDrop + 1 }) ∧
         ((regs.elProd - regs.elCons).toNat < size → Memory.wf s.mem = true → GivesUniform (.errlog d a b) s c d (BitVec.ofNat 64 regs.elProd.toNat) fun s' =>
           (s'.part c.k.part).regs = { regs with elProd := regs.elProd + 1 } ∧ (∀ q, q < slot ∨ slot + 64 ≤ q → Memory.read s'.mem q = Memory.read s.mem q) ∧
           bits (physWord s' slot) 31 0 = regs.elProd.toNat ∧ bits (physWord s' slot) 39 32 = 0x10 ∧ (physWord s' (slot + 8)).toNat = c.pc % 2 ^ 60 ∧
           physWord s' (slot + 32) = (c.view.uni a).1 ∧ physWord s' (slot + 40) = (c.view.uni b).1)) ∧
  (∀ (s : State) (c : Gang),
       (∀ (d : VFirst) (n : BitVec 8), Issues (.ctxdead d n) s c {} →
         let inside := n.toNat = 0 ∨ d.val + n.toNat ≤ c.k.budgetOf c.g.role
         let dead (r : VReg) : Prop := match r with
           | .v j => d.val ≤ j.val ∧ j.val < d.val + n.toNat
           | .x _ => False
         (d.val + n.toNat ≤ c.k.budgetOf c.g.role → c.lacksSlice = true → exec (.ctxdead d n) s = .next (trapped s c (illegalTrap c 5))) ∧
         (¬inside → exec (.ctxdead d n) s = .next (trapped s c (illegalTrap c 2))) ∧
         (d.val + n.toNat ≤ c.k.budgetOf c.g.role → c.lacksSlice = false → writesDue s c.gid c.g d.val n.toNat = true → Stalls (.ctxdead d n) s c) ∧
         (d.val + n.toNat ≤ c.k.budgetOf c.g.role → c.lacksSlice = false → writesDue s c.gid c.g d.val n.toNat = false → KMap.wf c.g.v = true →
           Completes (.ctxdead d n) s c 0 fun g => (∀ r, dead r → g.line c.k.score r = lineDead c.k.score) ∧ (∀ r, ¬dead r → g.line c.k.score r = c.g.line c.k.score r) ∧
             g = { c.g with v := g.v, unsettled := g.unsettled, pinned := g.pinned, absent := g.absent, poison := g.poison })) ∧
       (∀ (d : VFirst) (n : BitVec 8) (pin : Bool), Issues (.ctxpin d n pin) s c {} → d.val + n.toNat ≤ c.k.budgetOf c.g.role →
         Completes (.ctxpin d n pin) s c 0 fun g => g = { c.g with pinned := g.pinned, absent := g.absent } ∧
           (pin = false → g.absent = c.g.absent ∧ ∀ r, r ∈ g.pinned ↔ r ∈ c.g.pinned ∧ (r < d.val ∨ d.val + n.toNat ≤ r)) ∧
           (pin = true → g.pinned.length ≤ 64 ∧ (c.g.pinned.length + n.toNat ≤ 64 → ∀ r, r ∈ g.pinned ↔ r ∈ c.g.pinned ∨ (d.val ≤ r ∧ r < d.val + n.toNat)) ∧ ∀ r ∈ g.absent, r ∈ c.g.absent)) ∧
       (Issues .unseat s c {} → c.last = true →
         ((∀ x ∈ candidatesOn (entered s c) c.core, x.2.team ≠ c.g.team) → exec .unseat s = .next (wentOn s c { c.g with yieldDue := 15, yieldFor := none } 0)) ∧
         ((∃ x ∈ candidatesOn (entered s c) c.core, x.2.team = c.g.team) → c.g.inHandler = false → ∃ t g, exec .unseat s = .next t ∧ t.group? c.gid = some g ∧ g.place = .hall c.core ∧
           g.run = none ∧ g.pinned = [] ∧ g.s = c.g.s ∧ g.v = c.g.v ∧ g.p = c.g.p)) ∧
       (∀ (d a : UReg) (q : BitVec 6), Issues (.enq d a q) s c { u := [d, a] } →
         let va := (c.view.uni a).1
         let acc := c.access (.enq d q) q.toNat c.lowest (Vector.replicate 32 va) [] none none (some d)
         (c.g.release.isSome = true → Stays (.enq d a q) s c) ∧
         (c.g.release = none → va.toNat % 128 ≠ 0 → ∃ e : TrapInfo, e.code = 0x04 ∧ exec (.enq d a q) s = .next (trapped s c e)) ∧
         (va.toNat % 128 = 0 → Unhindered c → ∀ bc shr, Present s c acc bc shr → ∃ s', Holds (.enq d a q) s s' c (.enq acc) ∧ s'.mem = s.mem ∧ s'.groups = (entered s c).groups)) ∧
       ∀ (gid : Nat) (g : Group) (acc : Access) (d : UReg) (q : BitVec 6) (s1 : State) (ws : List W64) (r : Run), s.group? gid = some g → g.seated = true → g.hold = some (.enq acc) →
         acc.op = .enq d q → g.run = some r → enqRead s gid acc = (s1, .words ws) →
         let asid := (s.kernel g.kernel).asid
         let gives (w : W64) (t : State) : Prop := exec (.enqComplete gid) s = .next t ∧ ∃ h, t.group? gid = some h ∧ h.s[d.val] = w ∧ h.hold = none
         ((∀ x, queueEntry s1 asid q.toNat = some x → x.device = false ∨ x.enable = false) → ∃ t, gives (BitVec.allOnes 64) t ∧ t.mem = s1.mem) ∧
         ∀ x, queueEntry s1 asid q.toNat = some x → x.device = true → x.enable = true →
           ((x.wr - x.rd).toNat = 2 ^ x.size → ∃ t, gives (BitVec.allOnes 64 - 1) t ∧ t.mem = s1.mem) ∧
           ∀ at_ pa, s1.dev.poolForeign = [] → (x.wr - x.rd).toNat ≠ 2 ^ x.size → ctxPage s1 asid (x.ring + 128 * (x.wr.toNat % 2 ^ x.size)) = some (at_, pa) → at_.type ≠ 3 → pa % 128 = 0 →
             x.pa + 28 ≤ pa ∨ pa + 128 ≤ x.pa + 24 → Memory.wf s1.mem = true → CopiesInside s1 g.core →
             ∃ t, gives (BitVec.ofNat 64 x.wr.toNat) t ∧ Memory.readN t.mem (x.pa + 24) 4 = (x.wr.toNat + 1) % 2 ^ 32 ∧
               Memory.readN t.mem pa 8 = (wordAt ws 0).toNat % 2 ^ 56 ∧ ∀ n, 1 ≤ n → n < 16 → Memory.readN t.mem (pa + 8 * n) 8 = (wordAt ws n).toNat)

/-- R437, R438: the micro-steps of the Z3 instructions. `LMMA3` writes its shape record, issues its `MMA`, closes the batch and waits for it; `LLDS` and `LSTS` check their lanes, and then move
whole words of a tile; `LBAR` arrives and waits. -/
def Obligations.LegacyInstructions : Prop :=
  ∀ (s : State) (c : Gang),
    (∀ (d a b : BitVec 8), Issues (.lmma3 d a b) s c {} →
      (16 ≤ d.toNat ∨ a.toNat < 224 ∨ b.toNat < 224 → exec (.lmma3 d a b) s = .next (trapped s c (illegalTrap c 2))) ∧
      ∀ (acc : Fin 16) (hA hB : TileNo), d.toNat = acc.val → a.toNat = 224 + hA.val → b.toNat = 224 + hB.val →
        (c.run.micro = 0 → MicroStepped (.lmma3 d a b) s c fun _ g => g.shape = [BitVec.ofNat 64 (1 + 1 * 2 ^ 3), BitVec.ofNat 64 (16 + 1 * 2 ^ 16), BitVec.ofNat 64 (1 + 16 * 2 ^ 16)]) ∧
        (c.run.micro = 1 → c.lanes ≠ 0 → (∃ h x, (h = hA ∨ h = hB) ∧ s.tile c.g.team h = some x ∧ (tileTy x.desc).kind ≠ .flt .f16 ∧ (tileTy x.desc).kind ≠ .flt .bf16) →
          exec (.lmma3 d a b) s = .next (trapped s c (modeTrap c))) ∧
        (c.run.micro = 1 → c.lanes ≠ 0 → (∀ h x, h = hA ∨ h = hB → s.tile c.g.team h = some x → (tileTy x.desc).kind = .flt .f16 ∨ (tileTy x.desc).kind = .flt .bf16) →
          c.g.release = none → (s.core (leader c.k c.g)).mq.length < 16 → modeBnd c.mode ≠ 2 → MmaFields s c acc hA hB 0 false → MmaFormats s c hA hB → MmaTiles s c hA hB false →
          MicroStepped (.lmma3 d a b) s c fun t g => g.openBatch.open_ = c.g.openBatch.open_ + 1 ∧
            ∃ e, EntryOf c .mma (encodeWord (.mma acc hA hB false false false false 0 false)) 0 0 e ∧ (t.core (leader c.k c.g)).mq = (s.core (leader c.k c.g)).mq ++ [e]) ∧
        (c.run.micro = 1 → c.lanes = 0 → MicroStepped (.lmma3 d a b) s c fun t g => g.openBatch = c.g.openBatch ∧ ∀ n, (t.core n).mq = (s.core n).mq) ∧
        (c.run.micro = 2 → c.g.mx.length < 62 → MicroStepped (.lmma3 d a b) s c fun _ g => g.batchNo = c.g.batchNo + 1 ∧ g.openBatch.open_ = 0) ∧
        (3 ≤ c.run.micro → (c.g.mx = [] → exec (.lmma3 d a b) s = .next (passed s c)) ∧ (c.g.mx ≠ [] → Stays (.lmma3 d a b) s c))) ∧
    (∀ (d a b : BitVec 8) (D : Dst) (A : Src) (h : TileNo) (x : Tile), getDst d = .ok D → getSrc a = .ok A → b.toNat = 224 + h.val → s.tile c.g.team h = some x →
      Issues (.llds d a b) s c { ranges := (dstRegs D ++ srcRegs A).map fun r => (r, 1) } →
      ((∃ l < 32, bit c.lanes l = true ∧ (c.low32 A l).toNat % 4 ≠ 0) → ∃ e : TrapInfo, e.code = 0x04 ∧ exec (.llds d a b) s = .next (trapped s c e)) ∧
      ((∀ l < 32, bit c.lanes l = true → (c.low32 A l).toNat % 4 = 0) → ¬LegacyInside c x A → ∃ e : TrapInfo, e.code = 0x0C ∧ exec (.llds d a b) s = .next (trapped s c e)) ∧
      (LegacyInside c x A → c.run.micro = 0 → MicroStepped (.llds d a b) s c fun t g => g.ld = c.g.ld ∧ t.teams = s.teams) ∧
      (LegacyInside c x A → c.run.micro ≠ 0 → x.poison = [] → Unhindered c → ∃ s' g, exec (.llds d a b) s = .next (wentPast s' c) ∧ s'.group? c.gid = some g ∧
        s'.mem = s.mem ∧ s'.teams = s.teams ∧ g.s = c.g.s ∧ g.p = c.g.p ∧ (D = .discard → g.v = c.g.v) ∧
        ∀ r, D = .reg r → ∀ l : Fin 32, ((g.line c.k.score r).val[l.val]).toNat =
          if bit c.lanes l.val then x.word ((c.low32 A l.val).toNat / 4) % 2 ^ 32 else ((c.g.line c.k.score r).val[l.val]).toNat)) ∧
    (∀ (d a b : BitVec 8) (D A : Src) (h : TileNo) (x : Tile), getSrc d = .ok D → getSrc a = .ok A → b.toNat = 224 + h.val → s.tile c.g.team h = some x →
      Issues (.lsts d a b) s c { ranges := (srcRegs D ++ srcRegs A).map fun r => (r, 1) } →
      ((∃ l < 32, bit c.lanes l = true ∧ (c.low32 A l).toNat % 4 ≠ 0) → ∃ e : TrapInfo, e.code = 0x04 ∧ exec (.lsts d a b) s = .next (trapped s c e)) ∧
      (LegacyInside c x A → c.run.micro = 0 → MicroStepped (.lsts d a b) s c fun t g => g.st = c.g.st ∧ t.teams = s.teams) ∧
      (LegacyInside c x A → c.run.micro ≠ 0 → KMap.wf x.words = true → Unhindered c → ∃ s' y, exec (.lsts d a b) s = .next (wentPast s' c) ∧ OtherTiles s s' c.g.team h ∧
        s'.tile c.g.team h = some y ∧ y.desc = x.desc ∧ ∀ n, y.word n =
          match ((setBitsOf c.lanes).filter fun l => decide ((c.low32 A l).toNat / 4 = n)).getLast? with
          | some l => (c.opndRaw false D).at l % 2 ^ 32
          | none => x.word n)) ∧
    ∀ (d a b : BitVec 8), Issues (.lbar d a b) s c {} →
      (d ≠ 0 ∨ a ≠ 0 ∨ bits b 3 0 ≠ 0 → exec (.lbar d a b) s = .next (trapped s c (illegalTrap c 1))) ∧
      (d = 0 → a = 0 → bits b 3 0 = 0 →
        let n := bits b 7 4
        (c.run.micro = 0 → barrierFails s c false n false = none → (c.g.bar n).pending = false → (∀ m, (barrierAt s c false n).mode = some m → m = none) → c.g.release = none → c.g.red = [] →
          Awaits (.lbar d a b) s c .team (.arrive n none none false)) ∧
        (c.run.micro = 1 → barrierFails s c false n false = none → c.g.release = none → (c.g.bar n).pending = true → (c.g.bar n).completed = none →
          ∃ t g, exec (.lbar d a b) s = .next t ∧ t.group? c.gid = some g ∧ g.hold = some (.barrier n 7) ∧ g.bars = c.g.bars) ∧
        (2 ≤ c.run.micro → exec (.lbar d a b) s = .next (passed s c)))

end
/-! ### Results, counters and waits that complete (R46, R47, R252, R270–R276, R304, R317, R325, R338, R341) -/

namespace Sys2Proof.Machine

/-- The events that write a unit's oldest result of one kind. -/
def resultEvent : Instr → Option (Nat × ResultKind)
  | .sfuResult gid => some (gid, .sfu)
  | .xlaneResult gid => some (gid, .xlane)
  | .conversionResult gid => some (gid, .conv)
  | .sldComplete gid => some (gid, .sld)
  | _ => none

/-- From group g to h the late register writes ws of run `run` have been made in order, the later of two standing: no older version of what they
write is readable any more, a temporary is written in its own run alone, and nothing else changes but the poison that a full write clears. -/
structure Settled (score : Bool) (run : Nat) (g h : Group) (ws : List RegWrite) : Prop where
  vec : ∀ (r : VReg) (l : Fin 32), (isTemp r = false ∨ ∃ q, g.run = some q ∧ q.id = run) →
    ((h.line score r).val[l.val], (h.line score r).bnd[l.val]) = ws.foldl (fun x w => match w with
      | .v q L m => if q = r ∧ bit m l.val = true then (L.val[l.val], L.bnd[l.val]) else x
      | .u _ _ _ | .p _ _ _ => x) ((g.line score r).val[l.val], (g.line score r).bnd[l.val])
  temp : (∀ q, g.run = some q → q.id ≠ run) → h.x = g.x
  uni : ∀ n : UReg, (h.s[n.val], h.sb[n.val]) = ws.foldl (fun x w => match w with
    | .u q v b => if q = n then (v, b) else x
    | .v _ _ _ | .p _ _ _ => x) (g.s[n.val], g.sb[n.val])
  pred : ∀ (n : PReg) (l : Fin 32), n.val < 7 → bit (h.predNow n) l.val = ws.foldl (fun x w => match w with
    | .p q v m => if q = n ∧ bit m l.val = true then bit v l.val else x
    | .v _ _ _ | .u _ _ _ => x) (bit (g.predNow n) l.val)
  newest : ∀ u ∈ h.unsettled, ∀ w ∈ ws, match u.alt, w with
    | .v (.v n) _ m, .v (.v k) _ m' => n = k → m &&& m' = 0
    | .p n _ m, .p k _ m' => n = k → m &&& m' = 0
    | .u n _ _, .u k _ _ => n ≠ k
    | _, _ => True
  rest : h = { g with
    v := h.v, x := h.x, s := h.s, sb := h.sb, p := h.p, poison := h.poison, unsettled := h.unsettled, savedX := h.savedX, parks := h.parks }
  parks : h.parks.map (fun p => { p with x := [] }) = g.parks.map fun p => { p with x := [] }

/-- No live group whose cross-lane results the same quarter's network gives has one older than p (R227). -/
def OldestInQuarter (s : State) (g : Group) (p : Pending) : Prop :=
  ∀ j h q, (j, h) ∈ s.groups → h.core = g.core → h.live = true → (h.pend.find? fun x => decide (x.kind = .xlane)) = some q → q.quarter = p.quarter → p.issued ≤ q.issued

/-- The event re-reads the word of group g's wait w, finding v: it ends the wait where v is not the value waited on or the deadline has passed, and
else the group stays parked. -/
def Rereads (i : Instr) (s : State) (gid : Nat) (g : Group) (w : WaitA) (v polled : Nat) : Prop :=
  (v ≠ w.expected.toNat ∨ (∃ t, w.deadline = some t ∧ t ≤ s.clock) → ∃ h : Group, exec i s = .next (tick (goOn (s.setGroup gid h) gid)) ∧
    h = { g with s := h.s, sb := h.sb, waita := none, unsettled := h.unsettled } ∧ h.s[w.d.val] = BitVec.ofNat 64 v ∧ ∀ n : UReg, n ≠ w.d → h.s[n.val] = g.s[n.val] ∧ h.sb[n.val] = g.sb[n.val]) ∧
  (v = w.expected.toNat → (∀ t, w.deadline = some t → s.clock < t) → ∃ b : B16, exec i s = .next (tick (s.setGroup gid { g with
    waita := some { w with last := BitVec.ofNat 64 v, lastBound := b, woken := false, polled := polled }, hold := some .waita
    parkedSince := some (g.parkedSince.getD s.clock) })))

end Sys2Proof.Machine

section

open Sys2Proof Sys2Proof.Machine

/-- R46, R47, R227, R246, R304: a unit's oldest result appears: its flag clears, its writes and sticky flags are made, and a run held for it goes on; or its trap is taken. The oldest step of a counter,
once performed, writes its registers and is lowered. Without one, only the clock passes.
R317: a wake, a poll of a group without a monitor after 1,024 clocks, and the deadline each re-read the waited-for word; otherwise only the clock passes. -/
def Obligations.UnitsAndWaitsComplete : Prop :=
  (∀ (s : State) (gid : Nat) (g : Group), s.group? gid = some g →
       let score := (s.kernel g.kernel).score
       (∀ (i : Instr) (kind : ResultKind), resultEvent i = some (gid, kind) →
         ((∀ p ∈ g.pend, p.kind ≠ kind) → exec i s = .next (tick s)) ∧
         ∀ (a : List Pending) (p : Pending) (b : List Pending), g.pend = a ++ p :: b → (∀ q ∈ a, q.kind ≠ kind) → p.kind = kind →
           (kind = .xlane → ¬OldestInQuarter s g p → exec i s = .next (tick s)) ∧ ((kind = .xlane → OldestInQuarter s g p) → ∃ h : Group,
           (∀ f : Fin 12, bit h.cflags f.val = (bit g.cflags f.val && decide (p.flag ≠ some f))) ∧ h.pend = a ++ b ∧
           (p.trap = none → p.card = none → Settled score p.run { g with pend := a ++ b, cflags := h.cflags, sticky := g.sticky ||| p.sticky } h p.writes ∧
             exec i s = .next (tick (if p.holds then goOn (s.setGroup gid h) gid else s.setGroup gid h))) ∧
           ∀ t, p.trap = some t → h = { g with pend := a ++ b, cflags := h.cflags, run := h.run } ∧
             exec i s = .next (tick (trapHeld (s.setGroup gid h) gid t)) ∧
             ∀ r, g.run = some r → ∃ q, h.run = some q ∧ q = { r with trl := q.trl } ∧ ∀ f : Fin 12, bit q.trl f.val = (bit r.trl f.val || decide (p.flag = some f)))) ∧
       (∀ x rest, g.ld = x :: rest →
         (x.performed = false → exec (.ldStepComplete gid) s = .next (tick s)) ∧
         (x.performed = true → ∃ h, exec (.ldStepComplete gid) s = .next (tick (s.setGroup gid h)) ∧
           Settled score x.run { g with ld := rest, sticky := g.sticky ||| x.sticky } h x.writes)) ∧
       (g.ld = [] → exec (.ldStepComplete gid) s = .next (tick s)) ∧
       (∀ x rest, g.st = x :: rest → exec (.stStepComplete gid) s =
         .next (tick (if x.performed then s.setGroup gid { g with st := rest, sticky := g.sticky ||| x.sticky } else s))) ∧
       (g.st = [] → exec (.stStepComplete gid) s = .next (tick s)) ∧
       ((∀ acc, g.hold ≠ some (.recsync acc)) → exec (.recsyncComplete gid) s = .next (tick s)) ∧
       ∀ (acc : Access) (r : Option RecNo), g.hold = some (.recsync acc) → acc.op = .recsync r → g.seated = true →
         (recordQuiet s g.kernel r = false → exec (.recsyncComplete gid) s = .next (tick s)) ∧
         (recordQuiet s g.kernel r = true → g.run.isSome = true → s.poison = [] →
           (∀ x ∈ (locateAll s g.core g.kernel acc acc.spots).2, ∃ at_ pa, x.2 = .at_ at_ pa) →
           exec (.recsyncComplete gid) s = .next (tick s) ∨
           ∃ t h, exec (.recsyncComplete gid) s = .next t ∧ t.group? gid = some h ∧ h.hold = none ∧ h.v = g.v ∧ h.s = g.s ∧ h.p = g.p ∧
             (∀ n x, KMap.get? (s.kernel g.kernel).records n = some x → n < (match r with
               | some q => q.val
               | none => 0) → KMap.get? (t.kernel g.kernel).records n = some x))) ∧
  (∀ (s : State) (gid : Nat) (g : Group), s.group? gid = some g →
       (g.waita = none → ∀ i, i = .waitaWake gid ∨ i = .waitaPoll gid ∨ i = .waitaDeadline gid → exec i s = .next (tick s)) ∧
       ∀ w, g.waita = some w →
         (¬(g.seated = true ∧ w.woken = true) → exec (.waitaWake gid) s = .next (tick s)) ∧
         (¬(g.seated = true ∧ w.armed = false ∧ w.polled + 1024 ≤ s.clock) → exec (.waitaPoll gid) s = .next (tick s)) ∧
         (¬(g.seated = true ∧ ∃ t, w.deadline = some t ∧ t ≤ s.clock) → exec (.waitaDeadline gid) s = .next (tick s)) ∧
         ∀ (h : TileNo) (word : Nat) (x : Tile), w.target = .tile h word → s.tile g.team h = some x → x.poison = [] → g.run.isSome = true → g.seated = true →
           (∀ y ∈ g.ld, y.places = []) →
           let v := if w.width = 8 then x.word word + 2 ^ 32 * x.word (word + 1) else x.word word
           (w.woken = true → Rereads (.waitaWake gid) s gid g w v w.polled) ∧
           (w.armed = false → w.polled + 1024 ≤ s.clock → Rereads (.waitaPoll gid) s gid g w v s.clock) ∧
           (∀ t, w.deadline = some t → t ≤ s.clock → Rereads (.waitaDeadline gid) s gid g w v w.polled))

/-- R26, R264, R272–R276, R279: held entries enter the queue while it has room; a context-cache line arrives, or, its page absent, its group leaves its seat, migrating, it waits, and malformed, it traps; a posted word is consumed: a retry replays, a
protection status traps, at once or as the gang is next picked, and a kill kills. -/
def Obligations.FaultsAndRepliesResume : Prop :=
  (∀ (s : State) (part : Nat), part < 8 →
    let p := s.part part
    let size := 2 ^ p.regs.fqSize.toNat
    let used := (p.regs.fqProd - p.regs.fqCons).toNat
    (p.held = [] ∨ size ≤ used → exec (.heldFaultEntry part) s = .next (tick s)) ∧
    (p.regs.fqSize.toNat < 32 → used ≤ size → Memory.wf s.mem = true → ∃ t, exec (.heldFaultEntry part) s = .next t ∧
      (t.part part).held = p.held.drop (size - used) ∧ (t.part part).regs.fqProd.toNat = (p.regs.fqProd.toNat + min p.held.length (size - used)) % 2 ^ 32 ∧
      t.groups = s.groups ∧ (∀ e, p.held = [e] → used < size → e.words.length = 7 → ∀ n < 8,
        Memory.readN t.mem (bits p.regs.fqBase 51 6 * 64 + 64 * (p.regs.fqProd.toNat % size) + 8 * n) 8 =
          if n = 0 then p.regs.fqProd.toNat else (wordAt e.words (n - 1)).toNat))) ∧
  ∀ (s : State) (gid : Nat) (g : Group), s.group? gid = some g →
    (g.ctxMiss = none → exec (.contextCacheFill gid) s = .next (tick s)) ∧
    (∀ n, g.ctxMiss = some n →
      let va := s.blockVa g + 2560 + 192 * n
      let x := translate s g.core (s.kernel g.kernel).asid va
      let filled := { g with ctxMiss := none, absent := g.absent.filter fun i => decide (i ≠ n) }
      (g.ctxMoving.isSome = true → exec (.contextCacheFill gid) s = .next (tick s)) ∧
      (g.ctxMoving = none →
        (∀ f, KMap.get? g.blockFrames (va / 4096) = some f → exec (.contextCacheFill gid) s = .next (tick (fitContext (s.setGroup gid filled) g.core))) ∧
        (KMap.get? g.blockFrames (va / 4096) = none →
          (∀ a pa, x.2 = .page a pa → exec (.contextCacheFill gid) s = .next (tick (fitContext
            (x.1.setGroup gid { filled with blockFrames := KMap.set g.blockFrames (va / 4096) (pa / 4096) }) g.core))) ∧
          (∀ v, x.2 = .migrating v → exec (.contextCacheFill gid) s = .next (tick (x.1.setGroup gid { g with ctxMoving := some v }))) ∧
          (x.2 = .malformed → exec (.contextCacheFill gid) s = .next (tick (trapHeld (x.1.setGroup gid { g with ctxMiss := none }) gid
            (trapOf 0x05 [1, 0, BitVec.ofNat 64 va])))) ∧
          (x.2 = .absent → g.seated = true → g.inHandler = false → ∃ t h, exec (.contextCacheFill gid) s = .next t ∧ t.group? gid = some h ∧
            h.place = .hall g.core ∧ h.ctxToken = some (g.token + 1) ∧ h.ctxPosted = false ∧ h.ctxMiss = none ∧ h.s = g.s ∧ h.v = g.v)))) ∧
    (g.live = false → exec (.faultReplay gid) s = .next (tick s)) ∧
    (g.live = true → g.posted = false → (∀ p ∈ g.parks, p.cause ≠ .ready) → exec (.faultReplay gid) s = .next (tick s)) ∧
    (g.seated = true → g.posted = true → g.inHandler = false → (∀ c ∈ g.copies, c.faulted = false) → (∀ b ∈ g.mx, b.faulted = false) → g.release = none →
      let status := bits g.resWord 17 16
      (status = 0 → g.parks = [] → exec (.faultReplay gid) s = .next (tick (setResWord s gid (setBits g.resWord 63 62 0)))) ∧
      (∀ p, g.parks = [p] → p.cause = .fault → p.acc.op = .fetch → p.acc.record = none → status = 0 → ∃ t h, exec (.faultReplay gid) s = .next t ∧
        t.group? gid = some h ∧ h.parks = [] ∧ h.posted = false ∧ h.outstanding = false ∧ h.s = g.s ∧ h.v = g.v) ∧
      (∀ p, g.parks = [p] → p.cause = .fault → p.acc.op = .fetch → p.step = none → status = 1 → g.entryKind < 2 → g.run.isSome = true →
        ∃ t h q, exec (.faultReplay gid) s = .next t ∧ t.group? gid = some h ∧ h.run = g.run ∧ h.parks = [q] ∧ q.cause = .done ∧ q.run = p.run ∧
          ∃ e, q.trap = some e ∧ e.code = 0x05 ∧ e.async = false) ∧
      (∀ p hd, g.parks = [p] → p.cause = .fault → p.acc.op = .fetch → p.step = none → status = 1 → g.entryKind < 2 → g.run = none → handlerOf s (s.kernel g.kernel).part (s.kernel g.kernel).asid (s.kernel g.kernel).prot = some hd →
        (walkNow s (s.kernel g.kernel).asid (s.blockVa g + 0x348)).1 = .absent →
        ∃ t h, exec (.faultReplay gid) s = .next t ∧ t.group? gid = some h ∧ h.parks = [] ∧ h.inHandler = true ∧ bits (wordAt h.frame 1) 7 0 = 0x05 ∧
          wordAt h.frame 2 = 5 ∧ (wordAt h.frame 0).toNat = bits p.acc.pc 59 0) ∧
      (2 ≤ status → ∃ t h, exec (.faultReplay gid) s = .next t ∧ t.group? gid = some h ∧ h.place = .killed ∧ h.killCode = 6))

end
/-! ### Picks, seats and contexts (R82, R87–R91, R319, R409–R411, R421–R423) -/

section

open Sys2Proof Sys2Proof.Machine

/-- R87–R89, R91, R44: without an eligible group a quarter lets a clock pass; else it picks the one with the earliest stamp, the one seated first among equals, which resumes its run, goes on past a completed access, starts its next
gang's next run, or freezes the quarter until the instruction cache has its lines; `ICACHE_FILL` then starts that run, the cache keeping eight lines of each of its 128 sets. -/
def Obligations.PicksAndFetches : Prop :=
  ∀ (s : State) (core q : Nat), q < 4 →
    ((∀ x ∈ seatedIn s core q, eligible s x.2 = false) ∨ busyQuarter s core q = true ∨ (KMap.get? (s.core core).frozen q).isSome = true →
      exec (.pick (4 * core + q)) s = .next (tick s)) ∧
    (KMap.wf s.groups = true → (∀ x ∈ seatedIn s core q, x.2.yieldDue = 0 ∧ x.2.givewayDue = false) →
      (∀ x ∈ s.groups, x.1 < 2 ^ 32 ∧ x.2.stamp < 2 ^ 64 ∧ x.2.seatedAt < 2 ^ 64) → KMap.get? (s.core core).frozen q = none → busyQuarter s core q = false →
      ∀ (gid : Nat) (g : Group), (gid, g) ∈ seatedIn s core q → eligible s g = true →
        (∀ x ∈ seatedIn s core q, eligible s x.2 = true → x.1 ≠ gid → g.stamp < x.2.stamp ∨ (g.stamp = x.2.stamp ∧ (g.seatedAt < x.2.seatedAt ∨ (g.seatedAt = x.2.seatedAt ∧ gid < x.1)))) →
        (∀ r, g.run = some r → ∃ t h, exec (.pick (4 * core + q)) s = .next t ∧ t.clock = s.clock ∧ t.serial = s.serial + 1 ∧ t.focus = gid ∧ t.group? gid = some h ∧
          h = { g with stamp := s.clock, run := some { r with stalled := false } } ∧ KMap.get? (t.core core).current q = some gid ∧ (∀ n, n ≠ gid → t.group? n = s.group? n) ∧
          t.mem = s.mem) ∧
        (∀ (m : GangPick) (ms : List GangPick) (i : Nat) (p : Park), g.run = none → readyGangs s g = m :: ms → m.park = some i → g.parks[i]? = some p → p.trap = none →
          ∃ t h, exec (.pick (4 * core + q)) s = .next t ∧ t.focus = gid ∧ t.group? gid = some h ∧ h.parks = g.parks.take i ++ g.parks.drop (i + 1) ∧ h.stamp = s.clock ∧
            h.lastGang = firstSlice p.acc.slices ∧ h.v = g.v ∧ KMap.get? (t.core core).current q = some gid ∧ t.mem = s.mem) ∧
        (∀ (m : GangPick) (ms : List GangPick) (r : Run) (w : BitVec 12) (ls : List Nat), g.run = none → readyGangs s g = m :: ms → m.park = none →
          (fetchRun s g m.slices (g.slice (firstSlice m.slices)).pc.toNat).2 = .run r w ls →
          (r.slices = m.slices ∧ r.pc = BitVec.ofNat 64 ((g.slice (firstSlice m.slices)).pc.toNat + 4) ∧ 1 ≤ r.words.length ∧ r.words.length ≤ 23) ∧
          ((∀ l ∈ ls, l ∈ (s.core core).icache) → ∃ t h, exec (.pick (4 * core + q)) s = .next t ∧ t.clock = s.clock ∧ t.focus = gid ∧ t.group? gid = some h ∧
            h = { g with stamp := s.clock, run := some { r with early := m.early }, x := [], lastGang := firstSlice m.slices } ∧
            KMap.get? (t.core core).current q = some gid ∧ t.mem = s.mem) ∧
          ((∃ l ∈ ls, l ∉ (s.core core).icache) → ∃ t, exec (.pick (4 * core + q)) s = .next t ∧ t.clock = s.clock ∧ t.group? gid = some { g with stamp := s.clock } ∧
            KMap.get? (t.core core).frozen q = some (gid, m.slices, m.early) ∧ t.mem = s.mem))) ∧
    (KMap.get? (s.core core).frozen q = none → exec (.icacheFill (4 * core + q)) s = .next (tick s)) ∧
    ∀ (gid : Nat) (g : Group) (m : BitVec 8) (early : Bool), KMap.get? (s.core core).frozen q = some (gid, m, early) →
      KMap.wf (s.core core).frozen = true → s.group? gid = some g →
      let gone := g.place ≠ .seat core q ∨ g.run.isSome = true ∨ g.fetchParked = true ∨ m &&& ~~~g.freeSlices (s.kernel g.kernel) ≠ 0
      (gone → ∃ t, exec (.icacheFill (4 * core + q)) s = .next t ∧ t.groups = s.groups ∧ t.mem = s.mem ∧ KMap.get? (t.core core).frozen q = none) ∧
      ∀ (r : Run) (w : BitVec 12) (ls : List Nat), ¬gone → (fetchRun s g m (g.slice (firstSlice m)).pc.toNat).2 = .run r w ls →
        ∃ t h, exec (.icacheFill (4 * core + q)) s = .next t ∧ t.group? gid = some h ∧ h = { g with run := some { r with early := early }, x := [], lastGang := firstSlice m } ∧
          KMap.get? (t.core core).frozen q = none ∧
          (∀ l ∈ ls, l ∉ (s.core core).icache → (ls.filter fun x => decide (x % 128 = l % 128)).length ≤ 8 → l ∈ (t.core core).icache) ∧
          ∀ k < 128, ((t.core core).icache.filter fun x => decide (x % 128 = k)).length ≤ 8

/-- R82, R319, R401, R409–R411, R421–R423: a group that has ended and drained frees its seat; a free seat takes the candidate first by rank, then a satisfied park, then launch order; a context whose
seated groups have all been parked longer than its quantum is idle; a pre-emption halts a context of lower rank; a pre-empted context resumes, or is boosted and later not. -/
def Obligations.SeatsAndContexts : Prop :=
  ∀ s : State,
    (∀ (gid : Nat) (g : Group), s.group? gid = some g →
      let left (j : Fin 8) : Prop := (g.slice j.val).exited = (s.kernel g.kernel).fullMask ∨ ((g.slice j.val).act = 0 ∧ (g.slice j.val).stack = [])
      ((∃ j : Fin 8, ¬left j) ∨ g.ld ≠ [] ∨ g.st ≠ [] ∨ g.copies ≠ [] ∨ g.mx ≠ [] ∨ g.pend ≠ [] ∨ g.release.isSome = true ∨ g.red ≠ [] →
        exec (.groupEndSeatFree gid) s = .next (tick s)) ∧
      (g.live = true → (∀ j : Fin 8, left j) → g.ld = [] → g.st = [] → g.copies = [] → g.mx = [] → g.pend = [] → g.release = none → g.red = [] →
        g.openBatch.open_ = 0 → (∀ j ∈ (s.core g.core).decodeQ, j.gid ≠ gid) →
        ∃ t h, exec (.groupEndSeatFree gid) s = .next t ∧ t.group? gid = some h ∧ h = { g with place := .ended, pinned := [], absent := [] } ∧
          (∀ n, n ≠ gid → t.group? n = s.group? n) ∧ t.mem = s.mem)) ∧
    (∀ core : Nat,
      ((∀ x ∈ s.groups, hosts s core x.2 = true → candidate s x.2 = false) → exec (.seating core) s = .next (tick s)) ∧
      ∀ (q gid : Nat) (g : Group), freeQuarter s core = some q → KMap.wf s.groups = true → (gid, g) ∈ candidatesOn s core → g.poison = [] → g.blockWritten = false → g.core = core →
        g.inHandler = false → g.hold = none → g.waita = none →
        (∀ x ∈ candidatesOn s core, rankOf s x.2 ≤ 8 ∧ (s.kernel x.2.kernel).order < 2 ^ 64 ∧ s.teamNumber x.2 < 2 ^ 32 ∧ x.2.number < 2 ^ 16) →
        (∀ x ∈ candidatesOn s core, x.1 ≠ gid → rankOf s x.2 < rankOf s g ∨ (rankOf s x.2 = rankOf s g ∧
          ((g.parkSatisfied s = true ∧ x.2.parkSatisfied s = false) ∨ (g.parkSatisfied s = x.2.parkSatisfied s ∧
            ((s.kernel g.kernel).order < (s.kernel x.2.kernel).order ∨ ((s.kernel g.kernel).order = (s.kernel x.2.kernel).order ∧
              (s.teamNumber g < s.teamNumber x.2 ∨ (s.teamNumber g = s.teamNumber x.2 ∧ g.number < x.2.number)))))))) →
        ∃ t h, exec (.seating core) s = .next t ∧ t.group? gid = some h ∧ h.place = .seat core q ∧ h.stamp = s.clock ∧ h.seatedAt = s.clock ∧ h.v = g.v ∧ h.s = g.s ∧ h.p = g.p ∧
          h.slices = g.slices ∧ h.run = g.run ∧ ∀ n x, n ≠ gid → s.group? n = some x → ∃ l, t.group? n = some { x with absent := l }) ∧
    ∀ (asid : Nat) (c : Context), KMap.get? s.ctxs asid = some c →
      let seated (x : Nat × Group) : Prop := x ∈ s.groups ∧ x.2.seated = true ∧ (s.kernel x.2.kernel).asid = asid
      let becomes (i : Instr) (P : Context → Prop) : Prop := ∃ t d, exec i s = .next t ∧ KMap.get? t.ctxs asid = some d ∧ P d ∧ t.mem = s.mem ∧
        (∀ n, n ≠ asid → KMap.get? t.ctxs n = KMap.get? s.ctxs n)
      (c.state ≠ .runnable ∨ (∃ x, seated x ∧ x.2.waita = none ∧ x.2.atBarrier = none) ∨ (∀ x, ¬seated x) → exec (.stallQuantumExpiry asid) s = .next (tick s)) ∧
      (c.state = .runnable → (∃ x, seated x) → (∀ x, seated x → (x.2.waita.isSome = true ∨ x.2.atBarrier.isSome = true) ∧ x.2.parkSatisfied s = false ∧
          ∃ t, x.2.parkedSince = some t ∧ t + (if c.quantum = 0 then 20 else c.quantum) * 1800 < s.clock) →
        becomes (.stallQuantumExpiry asid) fun d => d.state = .idle ∧ d.prio = c.prio ∧ d.boosted = c.boosted) ∧
      (∀ core, (freeQuarter s core).isSome = true ∨ c.state = .preempted ∨ c.state = .empty → exec (.preemption asid core) s = .next (tick s)) ∧
      (∀ (core a : Nat) (d : Context), KMap.wf s.groups = true → KMap.wf s.ctxs = true → c.state = .runnable → needsSeatsOn s asid core = true → victim s asid core c = some (a, d) →
        d.rank < c.rank ∧ a ≠ asid ∧ ∃ t e, exec (.preemption asid core) s = .next t ∧ KMap.get? t.ctxs a = some e ∧ e.state = .preempted ∧
          ∀ n h, t.group? n = some h → (t.kernel h.kernel).asid = a → h.seated = false) ∧
      (c.state ≠ .preempted ∨ c.away = true → exec (.contextResume asid) s = .next (tick s)) ∧
      (c.state = .preempted → c.away = false → (c.boosted = true ∨ ∀ x ∈ s.ctxs, x.2.part = c.part → x.2.rank ≤ c.rank) →
        becomes (.contextResume asid) fun d => d.state = .runnable ∧ d.ran = (ranNow s c).ran) ∧
      (c.boosted = true ∨ c.away = true ∨ 1800000 ≤ (ranNow s c).ran → exec (.starvationBoost asid) s = .next (tick s)) ∧
      (c.boosted = false → c.away = false → c.state = .preempted ∨ c.state = .runnable → (ranNow s c).ran < 1800000 →
        180000000 - s.sysClock c.part % 180000000 ≤ 1800000 - (ranNow s c).ran →
        becomes (.starvationBoost asid) fun d => d.boosted = true ∧ d.rank = 8 ∧ d.state = c.state) ∧
      (c.boosted = false ∨ (ranNow s c).ran < 1800000 → exec (.starvationBoostEnd asid) s = .next (tick s)) ∧
      (c.boosted = true → 1800000 ≤ (ranNow s c).ran → becomes (.starvationBoostEnd asid) fun d => d.boosted = false ∧ d.rank = c.prio ∧ d.state = c.state)

end
/-! ### Queues, launches and shootdowns (R278, R279, R413–R420) -/

namespace Sys2Proof.Machine

/-- The state once a command has been dequeued. -/
def taken (s : State) (asid q : Nat) (e : QueueEntry) (va : Nat) (w : Option (List W64)) : State := (takeCmd s asid q e va (w.getD (List.replicate 16 0))).1

/-- The event completes the command of a queue whose entry is at va with a status, from the state s0: its status byte is written, no other byte of
memory has changed, and the queue is free for its next command. -/
def Closes (i : Instr) (s s0 : State) (asid q va status : Nat) (P : State → Prop) : Prop :=
  ∀ a pa, ctxPage s0 asid (va + 7) = some (a, pa) → KMap.wf s.queues = true → ∃ t, exec i s = .next t ∧ Memory.read t.mem pa = BitVec.ofNat 8 status ∧
    (∀ x, x ≠ pa → Memory.read t.mem x = Memory.read s0.mem x) ∧ KMap.get? t.queues (queueKey asid q) = none ∧ P t

/-- A group as a launch starts it (R420). -/
structure Starts (k : Kernel) (kid n : Nat) (h : Group) : Prop where
  kernel : h.kernel = kid
  number : h.number = n
  role : (k.roleGroups.take h.role).sum ≤ n ∧ n < (k.roleGroups.take (h.role + 1)).sum
  place : ∃ core, h.place = .hall core
  arg : h.s[0] = k.arg
  uni : ∀ n : UReg, n.val ≠ 0 → h.s[n.val] = 0
  bounds : ∀ n : UReg, h.sb[n.val] = scoreB k.score b16Exact
  vec : h.v = [] ∧ h.x = [] ∧ h.p = Vector.replicate 7 0
  slices : ∀ j : Fin 8, h.slices[j.val] = { pc := BitVec.ofNat 64 k.code.entry, mode := 0, oldMode := none, act := k.fullMask, exited := 0, stack := [], parked := false, notBefore := 0 }
  status : h.budget = k.budget ∧ h.fpEnable = k.fpEnable ∧ h.sticky = 0 ∧ h.cflags = 0 ∧ h.resWord = 0
  idle : h.run = none ∧ h.hold = none ∧ h.ld = [] ∧ h.st = [] ∧ h.parks = []

end Sys2Proof.Machine

section

open Sys2Proof Sys2Proof.Machine

/-- R413–R416, R420: a queue's next command is taken and its read pointer advances; a malformed one completes with status 0x80, one that cannot read its semaphore or slots with 0x84, a launch that fails a check
with that check's; a command waits for its semaphore, rereading it after a signal or 10 µs; a semaphore step completes with 0x01; a launch makes its kernel and starts its groups. -/
def Obligations.CommandsRun : Prop :=
  ∀ (s : State) (asid q : Nat),
    let key := queueKey asid q
    (nextCommand s asid q = none → exec (.semaphoreStep asid q) s = .next (tick s) ∧ (KMap.get? s.queues key = none → exec (.kernelLaunch asid q) s = .next (tick s))) ∧
    (KMap.get? s.queues key = none → exec (.semaphoreWaitRecheck asid q) s = .next (tick s)) ∧
    (∀ (e : QueueEntry) (va : Nat) (w : Option (List W64)), nextCommand s asid q = some (e, va, w) →
      let s0 := taken s asid q e va w
      (∀ l, w = some l → cmdKind l = 2 → exec (.kernelLaunch asid q) s = .next (tick s)) ∧
      (w = none ∨ (∃ l, w = some l ∧ cmdKind l = 1) → exec (.semaphoreStep asid q) s = .next (tick s)) ∧
      (w = none → Closes (.kernelLaunch asid q) s s0 asid q va 0x80 fun _ => True) ∧
      ∀ l, w = some l → wordAt l 13 = 0 → ∀ i, (i = .kernelLaunch asid q ∧ cmdKind l = 1) ∨ (i = .semaphoreStep asid q ∧ cmdKind l = 2) →
        let sem := bits (wordAt l 11) 59 0
        (cmdMalformed l = true → Closes i s s0 asid q va 0x80 fun t => t.kernels = s.kernels) ∧
        (cmdMalformed l = false → sem ≠ 0 → semRead s0 asid sem = none → Closes i s s0 asid q va 0x84 fun t => t.kernels = s.kernels) ∧
        (cmdMalformed l = false → ∀ v sec, sem ≠ 0 → semRead s0 asid sem = some (v, sec) → v < (wordAt l 12).toNat →
          ∃ t r, exec i s = .next t ∧ KMap.get? t.queues key = some r ∧ r.stage = .waiting ∧ r.words = l ∧ r.entryVa = va ∧ r.lastRead = s.clock ∧ r.woken = false ∧
            t.mem = s0.mem ∧ t.kernels = s.kernels ∧ (Memory.wf s.mem = true → Memory.readN t.mem (e.pa + 16) 4 = (e.rd + 1).toNat)) ∧
        (cmdMalformed l = false → sem = 0 → readIndirect s0 asid l = none → Closes i s s0 asid q va 0x84 fun t => t.kernels = s.kernels) ∧
        (cmdMalformed l = false → sem = 0 → cmdKind l = 2 → (readIndirect s0 asid l).isSome = true → Closes i s s0 asid q va 0x01 fun t => t.kernels = s.kernels) ∧
        ∀ (c : Context) (l1 : List W64), cmdMalformed l = false → sem = 0 → cmdKind l = 1 → readIndirect s0 asid l = some l1 → cmdKind l1 = 1 → KMap.get? s.ctxs asid = some c →
          (∀ n, (s.core n).l1 = []) →
          (∀ s1 n, checkLaunch s0 c.part asid q va s.nextId l1 = .status s1 n → Closes i s s1 asid q va n fun t => t.kernels = s.kernels) ∧
          ∀ s1 k, checkLaunch s0 c.part asid q va s.nextId l1 = .kernel s1 k → k.gmask = 0 → k.recCount = 0 → s.teams = [] → s.groups = [] → c.part < max 1 s.dev.partCount →
            s.dev.partCount ≤ 8 → c.away = false →
            ∃ t h, exec i s = .next t ∧ KMap.get? t.kernels s1.nextId = some h ∧ h = { k with placed := h.placed } ∧ 1 ≤ h.placed ∧
              ∀ n < k.teamGroups, ∃ g, t.group? (s1.nextId + 2 + n) = some g ∧ Starts k s1.nextId n g) ∧
    ∀ r, KMap.get? s.queues key = some r →
      exec (.semaphoreStep asid q) s = .next (tick s) ∧
      (r.stage ≠ .waiting ∨ ctxRuns s asid = false ∨ (r.woken = false ∧ s.clock < r.lastRead + 18000) → exec (.semaphoreWaitRecheck asid q) s = .next (tick s)) ∧
      (r.stage = .waiting → ctxRuns s asid = true → r.woken = true ∨ r.lastRead + 18000 ≤ s.clock → wordAt r.words 13 = 0 →
        let sem := bits (wordAt r.words 11) 59 0
        (sem ≠ 0 → semRead s asid sem = none → Closes (.semaphoreWaitRecheck asid q) s s asid q r.entryVa 0x84 fun t => t.kernels = s.kernels) ∧
        ∀ v sec, sem ≠ 0 → semRead s asid sem = some (v, sec) →
          (v < (wordAt r.words 12).toNat → exec (.semaphoreWaitRecheck asid q) s =
            .next (tick { s with queues := KMap.set s.queues key { r with waitSector := sec, lastRead := s.clock, woken := false } })) ∧
          ((wordAt r.words 12).toNat ≤ v → cmdKind r.words = 2 → (readIndirect s asid r.words).isSome = true →
            Closes (.semaphoreWaitRecheck asid q) s s asid q r.entryVa 0x01 fun t => t.kernels = s.kernels))

/-- R278, R279, R332, R416, R418, R420: a waiting team is placed on a core with room, its groups started; a launch whose groups have all ended completes with 0x01, or 0x02 after a kill, and leaves the machine, its signal following the release of its writes; a shootdown
of an unprivileged context or with a reserved bit completes with 0x86; else it drops the range's translations and clean copies and revokes dirty ones, or, with wake, readies gangs parked on its pages. -/
def Obligations.LaunchesAndShootdownsComplete : Prop :=
  ∀ s : State,
    (∀ (kid : Nat) (k : Kernel), KMap.get? s.kernels kid = some k →
      let key := queueKey k.asid k.queue
      (k.teamCount ≤ k.placed ∨ KMap.get? s.queues key = none ∨ ctxRuns s k.asid = false → exec (.teamPlacement kid) s = .next (tick s)) ∧
      (∀ r core, KMap.get? s.queues key = some r → r.stage = .placing kid → ctxRuns s k.asid = true → k.placed < k.teamCount → k.gmask = 0 → placeFor s k = some core →
        ∃ t T, exec (.teamPlacement kid) s = .next t ∧ KMap.get? t.kernels kid = some { k with placed := k.placed + 1 } ∧ KMap.get? t.teams s.nextId = some T ∧ T.kernel = kid ∧
          T.number = k.placed ∧ T.core = core ∧ T.cls = (k.cls + k.placed / max 1 (k.grid.getD 0 1 * k.grid.getD 1 1)) % 8 ∧
          ∀ n < k.teamGroups, ∃ g, t.group? (s.nextId + 1 + n) = some g ∧ g.team = s.nextId ∧ Starts k kid n g) ∧
      (k.placed < k.teamCount ∨ (∃ x ∈ s.groups, x.2.kernel = kid ∧ x.2.live = true) → exec (.launchComplete kid) s = .next (tick s)) ∧
      (k.teamCount ≤ k.placed → (∀ x ∈ s.groups, x.2.kernel = kid → x.2.live = false) → k.endMarks = none → k.sigVa = 0 → KMap.wf s.kernels = true → ∀ a pa, ctxPage s k.asid (k.entryVa + 7) = some (a, pa) →
        ∃ t, exec (.launchComplete kid) s = .next t ∧ Memory.read t.mem pa = (if k.killed then 0x02 else 0x01) ∧ (∀ x, x ≠ pa → Memory.read t.mem x = Memory.read s.mem x) ∧
          KMap.get? t.kernels kid = none ∧ t.groups = (s.groups.filter fun x => decide (x.2.kernel ≠ kid)) ∧ ∀ x ∈ t.teams, x.2.kernel ≠ kid) ∧
      (k.teamCount ≤ k.placed → (∀ x ∈ s.groups, x.2.kernel = kid → x.2.live = false) → k.sigVa ≠ 0 →
        (k.endMarks = none → (∀ x ∈ s.cores, x.2.l1 = []) → s.dev.peerOut = [] → (∀ x ∈ s.groups, x.2.kernel = kid → x.2.ioOut = false) →
          exec (.launchComplete kid) s = .next (tick (endKernel (writeStatus s k.asid k.entryVa (if k.killed then 0x02 else 0x01)) kid))) ∧
        ∀ l, k.endMarks = some l → ((∃ q ∈ l, ∃ m ∈ s.dev.marks, m.id = q) → exec (.launchComplete kid) s = .next (tick s)) ∧
          ((∀ q ∈ l, ∀ m ∈ s.dev.marks, m.id ≠ q) → (∀ x ∈ s.groups, x.2.kernel = kid → x.2.ioOut = false) →
            exec (.launchComplete kid) s = .next (tick (endKernel s kid))))) ∧
    ∀ (asid q : Nat) (c : Context), KMap.get? s.ctxs asid = some c →
      (nextCommand s asid q = none → ∀ i, i = .xshoot asid q ∨ i = .xshootWake asid q → exec i s = .next (tick s)) ∧
      ∀ (e : QueueEntry) (va : Nat) (w : List W64) (wake : Bool) (i : Instr), nextCommand s asid q = some (e, va, some w) → i = (if wake then .xshootWake asid q else .xshoot asid q) →
        let s0 := taken s asid q e va (some w)
        let first := bits (wordAt w 1) 59 12
        let count := bits (wordAt w 2) 39 0
        let id := bits (wordAt w 0) 23 16
        let page (v : Nat) : Prop := count = 0 ∨ (first ≤ v ∧ v < first + count)
        (cmdKind w ≠ 0x30 ∨ bit (wordAt w 0) 10 ≠ wake → exec i s = .next (tick s)) ∧
        (cmdKind w = 0x30 → bit (wordAt w 0) 10 = wake →
          (c.privileged = false ∨ q ≠ 0 ∨ bits (wordAt w 0) 15 11 ≠ 0 ∨ bits (wordAt w 0) 63 24 ≠ 0 ∨ bits (wordAt w 1) 11 0 ≠ 0 ∨ bits (wordAt w 2) 63 40 ≠ 0 → Closes i s s0 asid q va 0x86 fun t => t.groups = s.groups ∧ t.tlb = s.tlb) ∧
          (shootBad c q w = false → wordAt w 3 = 0 → bit (wordAt w 0) 9 = false →
            (wake = true → Closes i s s0 asid q va 0x01 fun t => t.tlb = s.tlb ∧ ∀ gid g, s.group? gid = some g → ∃ h, t.group? gid = some h ∧ h.parks.length = g.parks.length ∧
              ((s.kernel g.kernel).asid ≠ id → h = g) ∧
              ((s.kernel g.kernel).asid = id → ∀ (n : Nat) (p : Park) (v : Nat), g.parks[n]? = some p → p.cause = .migration v → page (v / 4096) → h.parks[n]? = some { p with cause := .ready })) ∧
            (wake = false → bit (wordAt w 0) 8 = false → (∀ x ∈ s.kernels, x.2.part ≠ c.part) → (∀ x ∈ s.groups, x.2.red = [] ∧ ∀ y ∈ x.2.ld, y.places = []) →
              Closes i s s0 asid q va 0x01 fun t =>
                (∀ y ∈ t.tlb, y ∈ s.tlb ∧ ¬(y.core ∈ coresOf s c.part ∧ y.asid = id ∧
                  (count = 0 ∨ (y.vpage * 2 ^ levelShift y.level < (first + count) * 4096 ∧ first * 4096 < (y.vpage + 1) * 2 ^ levelShift y.level)))) ∧
                ∀ core ∈ coresOf s c.part, ∀ y ∈ (t.core core).l1, y.asid = id → page y.vpage → y.revoked = true ∧ y.dirty ≠ 0)))

end
/-! ### The host (R274, R276, R280, R397, R424, R443, R449–R454, R457, R461, R463) -/

namespace Sys2Proof.Machine

/-- The host's stimuli that reach the device through its windows (R449, R450). -/
def hostEvent : Instr → Bool
  | .devRst _ | .secAdv _ | .ctLoad _ _ | .frPost _ _ | .doorbellWrite _ _ _ _ | .registerWrite _ _ | .hostHdmAccess _ _ _ | .swapOut _ | .swapIn _ | .leaveReset => true
  | _ => false

/-- The registers of a partition that hold an aligned base address: offset, lowest bit and value (R280, R398, R424, R428, R443). -/
def baseRegs : List (Nat × Nat × (PartRegs → W64)) :=
  [(0x100, 6, PartRegs.fqBase), (0x148, 5, PartRegs.hsBase), (0x1C0, 12, PartRegs.swBase), (0x200, 14, PartRegs.ctBase), (0x220, 12, PartRegs.thBase), (0x240, 6, PartRegs.elBase)]

/-- The registers of a partition that hold a log2 size: offset, least and greatest value. -/
def sizeRegs : List (Nat × Nat × Nat × (PartRegs → W64)) :=
  [(0x108, 6, 16, PartRegs.fqSize), (0x150, 6, 20, PartRegs.hsSize), (0x248, 6, 16, PartRegs.elSize)]

/-- No swap or reset is in progress in a partition of the device. -/
def inOperation (s : State) (part : Nat) : Prop := part < 8 ∧ partThere s part = true ∧ (s.part part).inReset = false ∧ (s.part part).swapping = none

end Sys2Proof.Machine

section

open Sys2Proof Sys2Proof.Machine

/-- R5, R449–R452, R461: a device that is not booted or not in D0 ignores the host; a fuse advance counts up to 64; a doorbell takes a pointer that fits and else sets its status; the host reads and writes HBM; register writes
keep the writable bits, which the host reads back, or act as their own stimuli do. -/
def Obligations.HostWindows : Prop :=
  ∀ s : State,
    (∀ i, hostEvent i = true → hostReaches s = false → exec i s = .next (tick s)) ∧
    (hostReaches s = true →
      (∀ v : BitVec 64, exec (.secAdv v) s = .next (tick (if s.dev.secFuse < v.toNat ∧ v.toNat ≤ 64 then
        { s with dev := { s.dev with secAdv := v, secFuse := v.toNat, verified := s.dev.verified.filter fun x => decide (v.toNat ≤ x.version) } }
        else { s with dev := { s.dev with secAdv := v } }))) ∧
      (∀ (vf : Option (Fin 64)) (asid q : Nat) (v : BitVec 32),
        let i : Instr := .doorbellWrite vf asid q v
        let stat (t : State) : BitVec 2 := (KMap.get? t.dbStat asid).getD 0
        (256 ≤ asid ∨ (∃ f, vf = some f ∧ bit s.dev.vfAsid[f.val] asid = false) → exec i s = .next (tick s)) ∧
        (asid < 256 → (∀ f, vf = some f → bit s.dev.vfAsid[f.val] asid = true) →
          (q = 64 → KMap.wf s.dbStat = true → ∃ t, exec i s = .next t ∧ stat t = (stat s &&& ~~~(BitVec.ofNat 2 v.toNat)) ∧ t.mem = s.mem ∧ t.doorbells = s.doorbells) ∧
          ∀ e, q < 64 → queueEntry s asid q = some e →
            (e.device = true → ∃ t, exec i s = .next t ∧ stat t = (stat s ||| 2) ∧ t.doorbells = s.doorbells ∧ t.mem = s.mem) ∧
            (e.device = false → (v - e.rd).toNat ≤ 2 ^ e.size → exec i s = .next (tick { s with doorbells := KMap.set s.doorbells (queueKey asid q) v })) ∧
            (e.device = false → 2 ^ e.size < (v - e.rd).toNat → ∃ t, exec i s = .next t ∧ stat t = (stat s ||| 1) ∧ t.doorbells = s.doorbells ∧ t.mem = s.mem))) ∧
      (∀ (pa : Nat) (write : Bool) (data : List (BitVec 8)),
        (inHbm s pa = false ∨ inHbm s (pa + (data.length - 1)) = false → exec (.hostHdmAccess pa write data) s = .next (tick s)) ∧
        (inHbm s pa = true → inHbm s (pa + (data.length - 1)) = true → s.dev.poolForeign = [] →
          (write = false → ∃ t, exec (.hostHdmAccess pa write data) s = .next t ∧ t.mem = s.mem ∧ t.groups = s.groups ∧
            t.dev.replies = .hostRead (Memory.bytes s.mem pa data.length) (bytesPoisoned s pa data.length) :: s.dev.replies) ∧
          (write = true → Memory.wf s.mem = true → ∃ t, exec (.hostHdmAccess pa write data) s = .next t ∧
            (∀ n, Memory.read t.mem n = if pa ≤ n ∧ n < pa + data.length then data.getD (n - pa) 0 else Memory.read s.mem n) ∧ t.side = s.side ∧ t.cores = s.cores ∧ t.groups = s.groups))) ∧
      (∀ v : BitVec 64, exec (.registerWrite 0x18 v) s = exec (.devRst v) s ∧ exec (.registerWrite 0x28 v) s = exec (.secAdv v) s ∧
        exec (.registerWrite 0x40 v) s = .next (tick { s with dev := { s.dev with pwLimit := BitVec.ofNat 11 v.toNat } }) ∧
        exec (.registerWrite 0x50 v) s = .next (tick { s with dev := { s.dev with pwGate := bit v 0 } }) ∧
        (allHeld s = false ∨ bit s.dev.devCfg 63 = true → exec (.registerWrite 0x08 v) s = .next (tick s)) ∧
        (allHeld s = true → bit s.dev.devCfg 63 = false → ∃ t, exec (.registerWrite 0x08 v) s = .next t ∧ ∀ n < 64, bit t.dev.devCfg n = (bit v n && decide (n < 2 ∨ n = 63)))) ∧
      ∀ (part : Nat) (v : BitVec 64), part < 8 → partThere s part = true →
        let reg (off : Nat) : Instr := .registerWrite (0x100000 + part * 0x10000 + off) v
        exec (reg 0x128) s = exec (.frPost part v) s ∧ exec (reg 0x208) s = exec (.ctLoad part v) s ∧
        (let kept := s.modRegs part fun r => { r with swCtl := BitVec.ofNat 64 (bits v 1 0) }
        (bits v 1 0 = 1 → exec (reg 0x1C8) s = exec (.swapOut part) kept) ∧ (bits v 1 0 = 2 → exec (reg 0x1C8) s = exec (.swapIn part) kept)) ∧
        (∀ x ∈ baseRegs, ∃ t, exec (reg x.1) s = .next t ∧ (x.2.2 (t.part part).regs).toNat = bits v 51 x.2.1 * 2 ^ x.2.1 ∧ t.mem = s.mem ∧ (∀ n, n ≠ part → t.part n = s.part n) ∧
          (s.dev.power = .d0 → readRegister t (0x100000 + part * 0x10000 + x.1) = some (x.2.2 (t.part part).regs))) ∧
        (∀ x ∈ sizeRegs, ∃ t, exec (reg x.1) s = .next t ∧ x.2.2.2 (t.part part).regs = if x.2.1 ≤ v.toNat ∧ v.toNat ≤ x.2.2.1 then v else x.2.2.2 (s.part part).regs) ∧
        (∃ t, exec (reg 0x130) s = .next t ∧ (t.part part).regs.frStat = ((s.part part).regs.frStat &&& ~~~(BitVec.ofNat 3 v.toNat))) ∧
        ∃ t, exec (reg 0x210) s = .next t ∧ (t.part part).regs.ctStat = ((s.part part).regs.ctStat &&& ~~~(BitVec.ofNat 1 v.toNat)))

/-- R274, R276, R397, R424, R454, R457, R463: a post reaches the group whose block it names, or sets FR_STAT; a descriptor is loaded or refused; a swap takes a partition's contexts and stores away and brings them back; a
reset empties partitions, which leave it with a new count; the reset of a virtual function stops its groups. -/
def Obligations.HostControlsPartitions : Prop :=
  ∀ s : State,
    (hostReaches s = true → ∀ (part : Nat) (v : BitVec 64), part < 8 → partThere s part = true →
      let va := bits v 59 10 * 1024
      let stat (n : Nat) : Prop := ∃ t, exec (.frPost part v) s = .next t ∧ (t.part part).regs.frStat = ((s.part part).regs.frStat ||| BitVec.ofNat 3 (2 ^ n)) ∧ t.groups = s.groups ∧ t.mem = s.mem
      (bits v 63 61 ≠ 0 → stat 2) ∧ (bits v 63 61 = 0 → groupAtBlock s part va = none → stat 0) ∧
      (∀ gid g, bits v 63 61 = 0 → groupAtBlock s part va = some (gid, g) → KMap.wf s.groups = true →
        (bit v 60 = false → blockNow s g 0 = none → stat 1) ∧
        (bit v 60 = false → blockNow s g 0 ≠ none → (bit g.resWord 62 = false ∨ g.posted = true ∨ bits g.resWord 7 0 ≠ bits v 7 0) → stat 0) ∧
        (bit v 60 = false → blockNow s g 0 ≠ none → bit g.resWord 62 = true → g.posted = false → bits g.resWord 7 0 = bits v 7 0 →
          ∃ t h, exec (.frPost part v) s = .next t ∧ t.group? gid = some h ∧ h = { g with resWord := h.resWord } ∧ h.posted = true ∧ bit h.resWord 62 = true ∧
            bits h.resWord 17 16 = bits v 9 8 ∧ bits h.resWord 7 0 = bits v 7 0 ∧ ∀ n, n ≠ gid → t.group? n = s.group? n) ∧
        (bit v 60 = true → (bits v 9 8 = 1 ∨ bits v 9 8 = 3) → stat 2) ∧
        (bit v 60 = true → (bits v 9 8 = 0 ∨ bits v 9 8 = 2) → g.ctxToken ≠ some (BitVec.ofNat 8 (bits v 7 0)) →
          ∃ t, exec (.frPost part v) s = .next t ∧ t.groups = s.groups ∧ (t.part part).regs.frStat = (s.part part).regs.frStat) ∧
        (bit v 60 = true → g.ctxToken = some (BitVec.ofNat 8 (bits v 7 0)) → bits v 9 8 = 0 → ∃ t, exec (.frPost part v) s = .next t ∧ t.group? gid = some { g with ctxPosted := true }) ∧
        (bit v 60 = true → g.ctxToken = some (BitVec.ofNat 8 (bits v 7 0)) → bits v 9 8 = 2 → ∃ t h, exec (.frPost part v) s = .next t ∧ t.group? gid = some h ∧ h.place = .killed ∧ h.killCode = 7)) ∧
      let w := descWords s (bits (s.part part).regs.ctBase 51 14 * 2 ^ 14 + 64 * bits v 7 0)
      (descBad s part w = true → ∃ t, exec (.ctLoad part v) s = .next t ∧ (t.part part).regs.ctStat = 1 ∧ t.ctxs = s.ctxs ∧ t.mem = s.mem) ∧
      (descBad s part w = false → ∃ t d, exec (.ctLoad part v) s = .next t ∧ KMap.get? t.ctxs (bits (wordAt w 0) 7 0) = some d ∧ d.part = part ∧ d.index = bits v 7 0 ∧ d.prio = bits (wordAt w 0) 10 8 ∧
        d.privileged = bit (wordAt w 0) 11 ∧ d.enable = bit (wordAt w 0) 12 ∧ d.root = bits (wordAt w 1) 51 15 * 2 ^ 15 ∧ d.qtable = bits (wordAt w 2) 59 11 * 2 ^ 11 ∧
        d.cardBase = bits (wordAt w 3) 59 6 * 64 ∧ d.cardLog = bits (wordAt w 3) 4 0 ∧ d.quantum = bits (wordAt w 4) 15 0 ∧
        (∀ n, n ≠ bits (wordAt w 0) 7 0 → KMap.get? t.ctxs n = KMap.get? s.ctxs n) ∧ t.mem = s.mem)) ∧
    (∀ part : Nat, hostReaches s = true → inOperation s part →
      (∃ t, exec (.swapIn part) s = .next t ∧ (t.part part).swapping = some false ∧ (t.part part).regs.swBusy = true ∧ (t.part part).swapArea = bits (s.part part).regs.swBase 51 12 * 4096 ∧
        t.mem = s.mem ∧ t.groups = s.groups) ∧
      (KMap.wf s.groups = true → KMap.wf s.ctxs = true → ∃ t, exec (.swapOut part) s = .next t ∧ (t.part part).swapping = some true ∧ (t.part part).regs.swBusy = true ∧
        (∀ a c, KMap.get? s.ctxs a = some c → c.part = part → c.away = false → (∃ d, KMap.get? t.ctxs a = some d ∧ d.state = .preempted) ∧
          ∀ n h, t.group? n = some h → (t.kernel h.kernel).asid = a → h.seated = false) ∧
        ∀ core ∈ coresOf s part, ∀ e ∈ (t.core core).l1, e.stale = true)) ∧
    (∀ part : Nat, part < 8 →
      let ended (t : State) (ok : Bool) : Prop := exec (.swapComplete part) s = .next t ∧ (t.part part).swapping = none ∧ (t.part part).regs.swBusy = false ∧ (t.part part).regs.swDone = ok ∧
        (t.part part).regs.swFailed = !ok
      let area := (s.part part).swapArea
      ((s.part part).swapping = none → exec (.swapComplete part) s = .next (tick s)) ∧
      ((s.part part).swapping = some true → ∃ t i, ended t true ∧ KMap.get? t.swapAreas area = some i ∧ i.part = part ∧
        (∀ a c, KMap.get? s.ctxs a = some c → c.part = part → ∃ d, KMap.get? t.ctxs a = some d ∧ d.away = true) ∧ ∀ n ∈ coresOf s part, (t.core n).acc = [] ∧ (t.core n).rowBound = []) ∧
      ((s.part part).swapping = some false → (∀ i, KMap.get? s.swapAreas area = some i → i.part ≠ part) → ∃ t, ended t false ∧ t.ctxs = s.ctxs ∧ t.cores = s.cores) ∧
      (∀ i, (s.part part).swapping = some false → KMap.get? s.swapAreas area = some i → i.part = part → KMap.wf i.cores = true →
        ∃ t, ended t true ∧ (∀ n x, KMap.get? i.cores n = some x → (t.core n).acc = x.acc ∧ (t.core n).rowBound = x.rowBound) ∧
          ∀ a ∈ i.ctxs, ∀ d, KMap.get? t.ctxs a = some d → d.away = false ∧ d.state = .runnable)) ∧
    (∀ v : BitVec 64, hostReaches s = true → ∃ t, exec (.devRst v) s = .next t ∧ ∀ part < 8,
      (bit v part = true → partThere s part = true → (t.part part).inReset = true ∧ (t.part part).clockBase = s.clock ∧ (t.part part).swapping = none ∧
        (t.part part).regs = drainRegs s.dev PartRegs.reset ∧ (∀ x ∈ t.ctxs, x.2.part ≠ part) ∧ (∀ x ∈ t.kernels, x.2.part ≠ part)) ∧
      (bit v part = false ∨ partThere s part = false → t.part part = s.part part)) ∧
    (hostReaches s = true →
      ((∀ n < 8, (s.part n).inReset = false) → exec .leaveReset s = .next (tick s)) ∧
      ((∃ n < 8, (s.part n).inReset = true) → windowsBad s = true → exec .leaveReset s = .next (tick { s with dev := { s.dev with windowsBad := true } })) ∧
      ((∃ n < 8, (s.part n).inReset = true) → windowsBad s = false → ∃ t, exec .leaveReset s = .next t ∧ (∀ n < 8, (t.part n).inReset = false ∧
          (t.part n).clockBase = if (s.part n).inReset then s.clock else (s.part n).clockBase) ∧
        t.dev.partCount = (if allHeld s then 2 ^ bits s.dev.devCfg 1 0 else s.dev.partCount) ∧ t.mem = s.mem)) ∧
    ∀ vf : Fin 64, KMap.wf s.groups = true → ∃ t, exec (.vfFunctionLevelReset vf) s = .next t ∧ t.mem = s.mem ∧
      (∀ a c, KMap.get? s.ctxs a = some c → ∃ d, KMap.get? t.ctxs a = some d ∧ d.enable = (c.enable && !bit s.dev.vfAsid[vf.val] a)) ∧
      ∀ gid g, s.group? gid = some g → g.live = true →
        (bit s.dev.vfAsid[vf.val] (s.kernel g.kernel).asid = true → ∃ h, t.group? gid = some h ∧ h.place = .killed ∧ h.killCode = 0) ∧
        (bit s.dev.vfAsid[vf.val] (s.kernel g.kernel).asid = false → t.group? gid = some g)

end
/-! ### Links, peers, caches and the durable tier (R281, R325, R337–R346, R462) -/

namespace Sys2Proof.Machine

/-- The stimuli of the Falan links that a device without power ignores (R462). -/
def linkEvent (port : Fin 16) : Instr → Prop
  | .linkTrainingStart p | .linkTrained p _ | .linkRetrain p | .falanWriteArrival p _ _ | .falanReadArrival p _ _ | .flushMarker p => p = port
  | _ => False

/-- The whole machine but the pools, host memory, accepted writes and fuses has its reset values, in a power state (R457). -/
structure Wiped (s t : State) (power : PowerState) : Prop where
  empty : t.groups = [] ∧ t.ctxs = [] ∧ t.kernels = [] ∧ t.teams = [] ∧ t.cores = [] ∧ t.queues = [] ∧ t.tlb = [] ∧ t.durWait = []
  dev : t.dev.power = power ∧ t.dev.bootDone = false ∧ t.dev.partCount = 1 ∧ t.dev.secFuse = s.dev.secFuse ∧ t.dev.verified = []
  parts : ∀ n < 8, (t.part n).regs = PartRegs.reset ∧ (t.part n).clockBase = s.clock

end Sys2Proof.Machine

section

open Sys2Proof Sys2Proof.Machine

/-- R320, R337–R339, R462: a link trains, joins the spray set, retrains and goes down after 10 ms; a peer's writes, reads and atomics perform at their home; markers gathered from every path are acknowledged, an
acknowledged round takes with it the writes that it followed, and a release without a path for 100 ms kills its group. -/
def Obligations.LinksAndPeers : Prop :=
  ∀ s : State,
    (∀ (port : Fin 16) (i : Instr), linkEvent port i → powered s = false → exec i s = .next (tick s)) ∧
    (∀ port : Fin 16, powered s = true →
      let l := s.link port
      (l.state = .down → exec (.linkTrainingStart port) s = .next (tick (s.setLink port { l with state := .training, since := s.clock }))) ∧
      (l.state ≠ .down → exec (.linkTrainingStart port) s = .next (tick s)) ∧
      (∀ peer, l.state = .training ∨ l.state = .retraining → s.clock < l.since + 18000000 → ∃ t q, exec (.linkTrained port peer) s = .next t ∧
        q = (if l.state = .training then peer else l.peer) ∧ t.link port = { l with state := .up, since := s.clock, peer := q } ∧ t.mem = s.mem ∧
        (∀ p, p ≠ port → t.link p = s.link p) ∧ t.dev.peerOut.length = s.dev.peerOut.length ∧ ∀ x ∈ t.dev.peerOut, x.dest = q.toNat → x.path.isSome = true) ∧
      (∀ peer, (l.state = .training ∨ l.state = .retraining) → l.since + 18000000 ≤ s.clock → exec (.linkTrained port peer) s = .next (tick s)) ∧
      (∀ peer, l.state = .down ∨ l.state = .up → exec (.linkTrained port peer) s = .next (tick s)) ∧
      (l.state ≠ .up → (∀ i, linkEvent port i → (∀ q, i ≠ .linkTrainingStart q) → (∀ q x, i ≠ .linkTrained q x) → exec i s = .next (tick s))) ∧
      (l.state = .up →
        (∃ t, exec (.linkRetrain port) s = .next t ∧ t.link port = { l with state := .retraining, since := s.clock, lostAt := s.clock, retrains := l.retrains + 1 } ∧
          t.dev.fabricRetrains = s.dev.fabricRetrains + 1 ∧ t.mem = s.mem ∧ ∀ p, p ≠ port → t.link p = s.link p) ∧
        (∀ (pa : Nat) (data : List (BitVec 8)), peerReaches s pa data.length = true → Memory.wf s.mem = true → s.dev.poolForeign = [] → ∃ t, exec (.falanWriteArrival port pa data) s = .next t ∧ (t.link port).carried = true ∧
          ∀ n, Memory.read t.mem n = if pa ≤ n ∧ n < pa + data.length then data.getD (n - pa) 0 else Memory.read s.mem n) ∧
        (∀ (pa : Nat) (data : List (BitVec 8)), peerReaches s pa data.length = false → exec (.falanWriteArrival port pa data) s = .next (tick (s.setLink port { l with carried := true }))) ∧
        (∀ pa n, peerReaches s pa n = true → s.dev.poolForeign = [] → ∃ t, exec (.falanReadArrival port pa (.read n)) s = .next t ∧ t.mem = s.mem ∧ t.groups = s.groups ∧
          t.dev.replies = .peerRead port.val (Memory.bytes s.mem pa n) (bytesPoisoned s pa n) :: s.dev.replies) ∧
        (∀ (pa : Nat) (req : PeerRead), pa % 8 = 0 → peerReaches s pa 8 = true → Memory.wf s.mem = true → s.dev.poolForeign = [] → (∀ n, req ≠ .read n) →
          let old := Memory.readN s.mem pa 8
          ∃ t, exec (.falanReadArrival port pa req) s = .next t ∧ t.dev.replies = .peerAtomic port.val (BitVec.ofNat 64 old) (bytesPoisoned s pa 8) :: s.dev.replies ∧
            (∀ n, n < pa ∨ pa + 8 ≤ n → Memory.read t.mem n = Memory.read s.mem n) ∧ Memory.readN t.mem pa 8 = match req with
              | .add v => (old + v.toNat) % 2 ^ 64
              | .exchange v => v.toNat
              | .compareSwap c n => if old = c.toNat then n.toNat else old
              | .read _ => old) ∧
        (let due (p : Fin 16) : Prop := (s.link p).peer = l.peer ∧ ((s.link p).isUp = true ∨ (s.link p).carried = true)
        ((∃ p, p ≠ port ∧ due p ∧ (s.link p).markerSeen = false) → exec (.flushMarker port) s = .next (tick (s.setLink port { l with markerSeen := true }))) ∧
        ((∀ p, p ≠ port → due p → (s.link p).markerSeen = true) → ∃ t, exec (.flushMarker port) s = .next t ∧ t.dev.replies = .markers l.peer.toNat :: s.dev.replies ∧
          ∀ p, (due p → t.link p = { s.link p with markerSeen := false, carried := false }) ∧ (¬due p → t.link p = s.link p))))) ∧
    (∀ port : Fin 16,
      let l := s.link port
      (l.trains = false ∨ s.clock < l.since + 18000000 → exec (.linkDown port) s = .next (tick s)) ∧
      (l.trains = true → l.since + 18000000 ≤ s.clock → ∃ t, exec (.linkDown port) s = .next t ∧ t.link port = { l with state := .down, since := s.clock } ∧ (∀ p, p ≠ port → t.link p = s.link p) ∧
        (l.state = .training → t.dev.peerOut = s.dev.peerOut ∧ t.parts = s.parts) ∧
        (l.state = .retraining → t.dev.peerOut.length = s.dev.peerOut.length ∧ (∀ x ∈ t.dev.peerOut, x.dest = l.peer.toNat → x.path = some port.val → ∀ p, (s.link p).isUp = true → (s.link p).peer.toNat ≠ x.dest) ∧
          ∀ n < 8, n < max 1 s.dev.partCount → ((s.part n).regs.elProd - (s.part n).regs.elCons).toNat < 2 ^ (s.part n).regs.elSize.toNat →
            (t.part n).regs.elProd = (s.part n).regs.elProd + 1))) ∧
    (∀ (gid : Nat) (g : Group), s.group? gid = some g →
      (g.release = none → g.copies = [] → g.mx = [] → exec (.noPathKill gid) s = .next (tick s)) ∧
      ∀ (r : Release) (dest : Nat), g.release = some r → r.next = .fence true → (∃ m ∈ s.dev.marks, m.id ∈ r.markers ∧ m.dest = dest) → g.live = true →
        (∀ p, (s.link p).isUp = true → (s.link p).peer.toNat ≠ dest) → 180000000 ≤ s.clock → (∀ p, (s.link p).peer.toNat = dest → (s.link p).lostAt + 180000000 ≤ s.clock) →
        ∃ t h, exec (.noPathKill gid) s = .next t ∧ t.group? gid = some h ∧ h.place = .killed ∧ h.killCode = 0x20) ∧
    ∀ dest : Nat,
      ((∀ m ∈ s.dev.marks, m.dest ≠ dest) → exec (.markerAcknowledgement dest) s = .next (tick s)) ∧
      ∀ m, (s.dev.marks.find? fun m => decide (m.dest = dest)) = some m →
        let arrived := m.paths ≠ [] ∧ (∀ p ∈ m.paths, ∃ q : Fin 16, q.val = p ∧ (s.link q).isUp = true ∧ (s.link q).peer.toNat = dest) ∧
          ∀ w ∈ s.dev.peerOut, w.dest = dest → w.path.isSome = true ∨ w.mark = none ∨ ∃ r, w.mark = some r ∧ m.id < r
        (¬arrived → exec (.markerAcknowledgement dest) s = .next (tick s)) ∧
        (arrived → ∃ t, exec (.markerAcknowledgement dest) s = .next t ∧ t.mem = s.mem ∧ t.groups = s.groups ∧
          t.dev.marks = (s.dev.marks.filter fun x => decide (x.id ≠ m.id)) ∧
          ∀ w, w ∈ t.dev.peerOut ↔ w ∈ s.dev.peerOut ∧ ¬(w.dest = dest ∧ ∃ r, w.mark = some r ∧ r ≤ m.id))

/-- R281, R325, R337, R341, R344–R346: writes enter the persist buffer while it has room and drain to their pools in order; a pool port takes a line back; an eviction writes its line back; samples enter their ring or are
dropped; at a loss of power the accepted writes reach their pools, the rest is lost, and the drain is on record. -/
def Obligations.CachesAndPersistence : Prop :=
  ∀ s : State,
    (s.durWait = [] ∨ 524288 ≤ s.pbuf.length → exec .persistBufferAcceptance s = .next (tick s)) ∧
    (∀ w rest, s.durWait = w :: rest → s.pbuf.length < 524288 → ∃ t, exec .persistBufferAcceptance s = .next t ∧ t.durWait = rest ∧ t.pbuf = s.pbuf ++ [w] ∧ t.mem = s.mem ∧ t.pool = s.pool ∧
      t.groups = s.groups) ∧
    (s.pbuf = [] → exec .persistBufferDrain s = .next (tick s)) ∧
    (∀ w rest, s.pbuf = w :: rest → Memory.wf s.pool = true → KMap.wf w.bytes = true → ∃ t, exec .persistBufferDrain s = .next t ∧ t.pbuf = rest ∧ t.mem = s.mem ∧
      (∀ a, Memory.read t.pool a = match (if sectorBase w.sector ≤ a then KMap.get? w.bytes (a - sectorBase w.sector) else none) with
        | some b => b
        | none => Memory.read s.pool a) ∧ (w.side = none → t.poolSide = s.poolSide)) ∧
    (∀ (port : Fin 3) (line : Nat),
      ((∀ p part, poolWindow s (lineBase line) = some (p, part) → p ≠ port.val) → exec (.backInvalidation port line) s = .next (tick s)) ∧
      (∀ part, poolWindow s (lineBase line) = some (port.val, part) → Memory.wf s.pool = true → (∀ w ∈ s.durWait ++ s.pbuf, w.sector ∉ sectorsOfLine line) →
        ∃ t, exec (.backInvalidation port line) s = .next t ∧ (port.val, line) ∉ t.dev.poolOwned ∧ line ∈ t.dev.poolForeign ∧ t.pbuf = s.pbuf ∧ t.mem = s.mem ∧
          ∀ a, Memory.read t.pool a = if sectorOf a ∈ sectorsOfLine line then Memory.read s.mem a else Memory.read s.pool a)) ∧
    (∀ core line : Nat, Memory.wf s.mem = true → s.dev.poolForeign = [] → CopiesInside s core → ((s.core core).l1.map (·.sector)).Nodup → (∀ e ∈ (s.core core).l1, e.revoked = false ∧ e.shr = false) →
      ∃ t, exec (.l1Eviction core line) s = .next t ∧ (∀ e ∈ (t.core core).l1, lineOfSector e.sector ≠ line) ∧
        ∀ pa, (Memory.read t.mem pa).toNat = if lineOfSector (sectorOf pa) = line then ownByte s core pa else (Memory.read s.mem pa).toNat) ∧
    (∀ core : Nat, (s.core core).samples = [] → exec (.hotnessSample core) s = .next (tick s)) ∧
    (∀ (core : Nat) (x : Sample) (rest : List Sample), (s.core core).samples = x :: rest → partOfCore s core < 8 →
      let r := (s.part (partOfCore s core)).regs
      (2 ^ r.hsSize.toNat ≤ (r.hsProd - r.hsCons).toNat → ∃ t, exec (.hotnessSample core) s = .next t ∧ (t.core core).samples = rest ∧ (t.part (partOfCore s core)).regs.hsDrop = r.hsDrop + 1 ∧
        (t.part (partOfCore s core)).regs.hsProd = r.hsProd ∧ t.mem = s.mem) ∧
      ((r.hsProd - r.hsCons).toNat < 2 ^ r.hsSize.toNat → Memory.wf s.mem = true → x.asid < 256 → core < 256 → x.clock < 2 ^ 48 → x.kind < 8 → x.type < 8 → x.size < 4 →
        let at_ := bits r.hsBase 51 5 * 32 + 32 * (r.hsProd.toNat % 2 ^ r.hsSize.toNat)
        ∃ t, exec (.hotnessSample core) s = .next t ∧ (t.core core).samples = rest ∧ (t.part (partOfCore s core)).regs.hsProd = r.hsProd + 1 ∧
          Memory.readN t.mem at_ 8 = x.va % 2 ^ 60 ∧ Memory.readN t.mem (at_ + 8) 8 = x.clock + x.asid * 2 ^ 48 + core * 2 ^ 56 ∧
          Memory.readN t.mem (at_ + 16) 8 = x.kind + x.type * 8 + (if x.bc then 64 else 0) + x.size * 128 ∧ Memory.readN t.mem (at_ + 24) 8 = 0 ∧
          ∀ a, a < at_ ∨ at_ + 32 ≤ a → Memory.read t.mem a = Memory.read s.mem a)) ∧
    (powered s = false → exec .powerLoss s = .next (tick s)) ∧
    (powered s = true → ∃ t, exec .powerLoss s = .next t ∧ Wiped s t .lost ∧ t.pbuf = [] ∧ t.dev.gpfDone = false ∧
      (Config.portFails s.serial = 0 → t.dev.drainClean = true ∧ t.dev.drainIncomplete = false ∧ t.dev.drainCount = BitVec.ofNat 32 s.pbuf.length ∧
        ∀ w o b, s.pbuf = [w] → Memory.wf s.pool = true → KMap.wf w.bytes = true → KMap.get? w.bytes o = some b → Memory.read s.mem (sectorBase w.sector + o) = b →
          persistentAt s (sectorBase w.sector + o) = true → Memory.read t.pool (sectorBase w.sector + o) = b)) ∧
    (s.dev.power ≠ .lost ∨ s.dev.gpfDone = true → exec .globalPersistentFlush s = .next (tick s)) ∧
    (s.dev.power = .lost → s.dev.gpfDone = false → exec .globalPersistentFlush s = .next (tick { s with dev := { s.dev with
      gpfDone := true, drainFail := s.dev.drainFail ||| Config.portFails s.serial, drainIncomplete := s.dev.drainIncomplete || decide (Config.portFails s.serial ≠ 0) } }))

end
/-! ### Resets, power and management (R441–R445, R455–R458, R464–R466) -/

section

open Sys2Proof Sys2Proof.Machine

/-- R457, R458: power-on reset, the reset of the device and the management reset complete, and leave everything but the pools, host memory, accepted writes and fuses with its reset values; a verified boot completes
with the staged firmware and the drain record, a failed one with recovery mode. Where power, an earlier boot or the due time is not as these need, nothing happens. -/
def Obligations.ResetsAndBootComplete : Prop :=
  ∀ s : State,
    (powered s = false → ∃ t, exec .powerOnReset s = .next t ∧ Wiped s t .d0 ∧ t.pool = s.pool ∧ t.pbuf = s.pbuf ∧ t.dev.drainClean = s.dev.drainClean ∧ t.dev.drainCount = s.dev.drainCount) ∧
    (powered s = true → ∃ t, exec .deviceReset s = .next t ∧ Wiped s t .d0 ∧ t.pbuf = s.pbuf ∧ t.dev.stagedFw = s.dev.stagedFw) ∧
    (∀ n, powered s = true → s.dev.resetAt = some n → n ≤ s.clock → ∃ t, exec .managementReset s = .next t ∧ Wiped s t .d0 ∧ t.pbuf = s.pbuf ∧ t.dev.stagedFw = s.dev.stagedFw ∧
      t.dev.resetAt = none) ∧
    (s.dev.power = .d0 → s.dev.bootDone = false → s.dev.recovery = false →
      (∃ t, exec (.boot true) s = .next t ∧ t.dev.bootDone = true ∧ t.dev.stagedFw = none ∧ (∀ f, s.dev.stagedFw = some f → t.dev.activeFw = some f) ∧
        (s.dev.stagedFw = none → t.dev.activeFw = s.dev.activeFw) ∧ t.mem = s.mem ∧ ∀ n < 8, (t.part n).regs = drainRegs s.dev (s.part n).regs) ∧
      ∃ t, exec (.boot false) s = .next t ∧ t = tick { s with dev := { s.dev with recovery := true } }) ∧
    (powered s = true → exec .powerOnReset s = .next (tick s)) ∧
    (powered s = false → exec .deviceReset s = .next (tick s)) ∧
    ((∀ n, s.dev.resetAt = some n → s.clock < n) → exec .managementReset s = .next (tick s)) ∧
    ∀ v : Bool, s.dev.power ≠ .d0 ∨ s.dev.bootDone = true ∨ s.dev.recovery = true → exec (.boot v) s = .next (tick s)

/-- R464: D3hot completes from D0: every context is pre-empted, its groups without seats, and no dirty byte is left in an L1; D0 completes from D3hot and resumes the contexts; D3cold completes from D3hot: the persist
buffer drains and the rest is lost. From another state each changes nothing. -/
def Obligations.PowerStatesComplete : Prop :=
  ∀ s : State,
    (s.dev.power = .d0 → KMap.wf s.groups = true → KMap.wf s.ctxs = true → ∃ t, exec .d3hot s = .next t ∧ t.dev.power = .d3hot ∧
      (∀ a c, KMap.get? s.ctxs a = some c → (∃ d, KMap.get? t.ctxs a = some d ∧ d.state = .preempted) ∧ ∀ n h, t.group? n = some h → (t.kernel h.kernel).asid = a → h.seated = false) ∧
      (KMap.wf s.cores = true → (∀ x ∈ s.groups, x.2.live = false) →
        (∀ n, ((s.core n).l1.map (·.sector)).Nodup ∧ ∀ e ∈ (s.core n).l1, e.revoked = false ∧ ∀ x ∈ (s.core n).l1, lineOfSector x.sector = lineOfSector e.sector → x.asid = e.asid) →
        ∀ n, ∀ e ∈ (t.core n).l1, e.dirty = 0)) ∧
    (s.dev.power = .d3hot → KMap.wf s.ctxs = true → ∃ t, exec .d0 s = .next t ∧ t.dev.power = .d0 ∧ t.mem = s.mem ∧ ∀ a c, KMap.get? s.ctxs a = some c →
      ∃ d, KMap.get? t.ctxs a = some d ∧ d.state = if c.state = .preempted ∧ c.away = false then .runnable else c.state) ∧
    (s.dev.power = .d3hot → ∃ t, exec .d3cold s = .next t ∧ Wiped s t .d3cold ∧ t.pbuf = []) ∧
    (s.dev.power ≠ .d0 → exec .d3hot s = .next (tick s)) ∧
    (s.dev.power ≠ .d3hot → exec .d0 s = .next (tick s) ∧ exec .d3cold s = .next (tick s))

/-- R441–R445, R455, R456, R465, R466: measurements and limits are taken; gates close on idle quarters, cores and stacks; the management port is answered and its reset announced; corrected errors are counted and recorded
at most each millisecond; an uncorrectable one poisons its granule, with a record. -/
def Obligations.ManagementAndErrors : Prop :=
  ∀ s : State,
    (∀ (w : BitVec 11) (l : BitVec 3), exec (.throttleUpdate w l) s =
      .next (tick (if s.dev.power = .d0 then { s with dev := { s.dev with
        pwWatts := w
        throttle := if min 1800 (min s.dev.pwLimit.toNat s.dev.mgmtLimit.toNat) < w.toNat then BitVec.ofNat 3 (min 7 (max l.toNat (s.dev.throttle.toNat + 1))) else l } } else s))) ∧
    (∀ core q : Nat, q < 4 →
      (192 ≤ core ∨ (∃ x ∈ s.groups, x.2.place = .seat core q) ∨ q ∈ (s.core core).gatedQuarters → exec (.quarterClockGate (4 * core + q)) s = .next (tick s)) ∧
      (core < 192 → (∀ x ∈ s.groups, x.2.place ≠ .seat core q) → q ∉ (s.core core).gatedQuarters → (KMap.get? (s.core core).seatedUntil q).getD 0 + 1800 ≤ s.clock →
        exec (.quarterClockGate (4 * core + q)) s = .next (tick (s.setCore core { s.core core with gatedQuarters := q :: (s.core core).gatedQuarters })))) ∧
    (∀ core : Nat,
      (s.dev.pwGate = false ∨ (s.core core).gated = true ∨ 192 ≤ core ∨ (s.core core).mq ≠ [] ∨ (s.core core).decodeQ ≠ [] ∨ (∃ x ∈ s.groups, x.2.core = core ∧ x.2.seated = true) →
        exec (.coreClockGate core) s = .next (tick s)) ∧
      (s.dev.pwGate = true → (s.core core).gated = false → core < 192 → (s.core core).mq = [] → (s.core core).decodeQ = [] →
        (∀ x ∈ s.groups, x.2.core = core → x.2.live = true → x.2.seated = false ∧ x.2.copies = []) → (∀ x ∈ (s.core core).seatedUntil, x.2 + 18000 ≤ s.clock) →
        exec (.coreClockGate core) s = .next (tick (s.setCore core { s.core core with gated := true })))) ∧
    (∀ stack : Fin 8,
      let cores := coresOf s (stack.val * max 1 s.dev.partCount / 8)
      ((∃ c ∈ cores, s.clock < (s.core c).accessAt + 1800000) → exec (.hbmSelfRefresh stack) s = .next (tick s)) ∧
      ((∀ c ∈ cores, (s.core c).accessAt + 1800000 ≤ s.clock) → KMap.get? s.dev.selfRefreshAt stack.val = none →
        exec (.hbmSelfRefresh stack) s = .next (tick { s with dev := { s.dev with selfRefreshAt := KMap.set s.dev.selfRefreshAt stack.val s.clock } }))) ∧
    (powered s = false → ∀ i, i = .pldmMonitoring ∨ (∃ d v, i = .pldmFirmwareUpdate d v) ∨ i = .spdmAttestation ∨ (∃ w, i = .managementPowerLimit w) ∨ i = .managementResetRequest →
      exec i s = .next (tick s)) ∧
    (powered s = true →
      (∃ l, 17 ≤ l.length ∧ exec .pldmMonitoring s = .next (tick { s with dev := { s.dev with replies := .monitoring l s.dev.errCounts :: s.dev.replies } })) ∧
      (∀ (d : BitVec 384) (v : Bool), exec (.pldmFirmwareUpdate d v) s = .next (tick (if v then { s with dev := { s.dev with stagedFw := some d } } else s))) ∧
      (∃ l, exec .spdmAttestation s = .next (tick { s with dev := { s.dev with replies := .attestation (BitVec.ofNat 64 s.dev.secFuse :: l) :: s.dev.replies } })) ∧
      (∀ w : BitVec 11, exec (.managementPowerLimit w) s = .next (tick { s with dev := { s.dev with mgmtLimit := w } })) ∧
      (s.dev.resetAt = none → exec .managementResetRequest s = .next (tick { s with dev := { s.dev with errSignal := true, resetAt := some (s.clock + 180000000) } })) ∧
      (s.dev.resetAt ≠ none → exec .managementResetRequest s = .next (tick s))) ∧
    (∀ (unit : Nat) (pa : BitVec 52) (core : Option Nat),
      let part := match core with
        | some c => partOfCore s c
        | none => partOfPa s pa.toNat
      let r := (s.part part).regs
      let n := (KMap.get? s.dev.correctedCount unit).getD 0 + 1
      part < 8 →
        ((∃ x, KMap.get? s.dev.lastCorrected unit = some x ∧ s.clock < x + 1800000) → ∃ t, exec (.correctedError unit pa core) s = .next t ∧ KMap.get? t.dev.correctedCount unit = some n ∧
          t.mem = s.mem ∧ (t.part part).regs = r) ∧
        ((∀ x, KMap.get? s.dev.lastCorrected unit = some x → x + 1800000 ≤ s.clock) → KMap.wf s.dev.correctedCount = true →
          ∃ t, exec (.correctedError unit pa core) s = .next t ∧ KMap.get? t.dev.lastCorrected unit = some s.clock ∧ KMap.get? t.dev.correctedCount unit = none ∧
            (2 ^ r.elSize.toNat ≤ (r.elProd - r.elCons).toNat → (t.part part).regs = { r with elDrop := r.elDrop + 1 } ∧ t.mem = s.mem) ∧
            ((r.elProd - r.elCons).toNat < 2 ^ r.elSize.toNat → Memory.wf s.mem = true → (∀ c, core = some c → c < 256) →
              let at_ := bits r.elBase 51 6 * 64 + 64 * (r.elProd.toNat % 2 ^ r.elSize.toNat)
              (t.part part).regs = { r with elProd := r.elProd + 1 } ∧
              Memory.readN t.mem at_ 8 = r.elProd.toNat + 0x01 * 2 ^ 32 + core.getD 0xFF * 2 ^ 56 ∧ Memory.readN t.mem (at_ + 16) 8 = pa.toNat + 2 ^ 63 ∧
              Memory.readN t.mem (at_ + 24) 8 = 0xFFFFFFFF + n % 2 ^ 32 * 2 ^ 32 ∧ Memory.readN t.mem (at_ + 48) 8 = s.sysClock part % 2 ^ 48))) ∧
    (∀ pa : Nat, ∃ t, exec (.uncorrectableError (.sector pa)) s = .next t ∧ sectorOf pa ∈ t.poison ∧ (∀ x ∈ s.poison, x ∈ t.poison) ∧ (∀ x ∈ t.poison, x = sectorOf pa ∨ x ∈ s.poison) ∧ t.groups = s.groups) ∧
    (∀ (team : Nat) (h : TileNo) (word : Nat),
      (s.tile team h = none → exec (.uncorrectableError (.tileWord team h word)) s = .next (tick s)) ∧
      ∀ x, s.tile team h = some x → ∃ t y, exec (.uncorrectableError (.tileWord team h word)) s = .next t ∧ t.tile team h = some y ∧ y = { x with poison := y.poison } ∧ word ∈ y.poison) ∧
    (∀ (gid : Nat) (v : VReg) (g : Group), s.group? gid = some g → ∃ t h, exec (.uncorrectableError (.blockLine gid v)) s = .next t ∧ t.group? gid = some h ∧ h = { g with poison := h.poison } ∧
      ∀ n < 24, 64 * regSlot v + n ∈ h.poison) ∧
    ∀ (core row : Nat) (acc : Fin 16), core < 192 → row < 128 → ∃ t, exec (.uncorrectableError (.accRow core acc row)) s = .next t ∧ acc.val * 128 + row ∈ (t.core core).accPoison ∧
      (t.core core).acc = (s.core core).acc

end
end

