-- ==== Sys2Proof/Laws/Maps.lean ====
section
/-! SUPPORT. Maps and byte memory: reading back, other keys, and the canonical form. -/

namespace Sys2Proof.Laws

open Sys2Proof.Machine

variable {α : Type}

/-- Reading back the key set. -/
@[simp] theorem get_set_same (m : KMap α) (n : Nat) (x : α) : KMap.get? (KMap.set m n x) n = some x := by
  induction m with
  | nil => simp [KMap.set, KMap.get?]
  | cons h t ih =>
    obtain ⟨k, v⟩ := h
    simp only [KMap.set]
    split
    · simp [KMap.get?]
    · split
      · simp [KMap.get?]
      · simp_all [KMap.get?]

/-- Other keys read as before. -/
theorem get_set_other (m : KMap α) (n a : Nat) (x : α) (h : a ≠ n) : KMap.get? (KMap.set m n x) a = KMap.get? m a := by
  induction m with
  | nil => simp only [KMap.set, KMap.get?]; split <;> [rfl; split <;> [omega; rfl]]
  | cons hd t ih =>
    obtain ⟨k, v⟩ := hd
    simp only [KMap.set]
    split
    · simp only [KMap.get?]
      split
      · split <;> [rfl; omega]
      · split <;> [omega; rfl]
    · split
      · subst_vars; simp only [KMap.get?]; split <;> [rfl; split <;> [omega; rfl]]
      · simp only [KMap.get?, ih]

/-- Every key of a canonical map's tail is above its head. -/
theorem wf_tail {k : Nat} {v : α} {t : KMap α} (h : KMap.wf ((k, v) :: t) = true) : KMap.wf t = true := by
  cases t with
  | nil => rfl
  | cons x t => simp_all [KMap.wf]

theorem get_below {k a : Nat} {v : α} {t : KMap α} (h : KMap.wf ((k, v) :: t) = true) (ha : a ≤ k) : KMap.get? t a = none := by
  cases t with
  | nil => rfl
  | cons x t =>
    obtain ⟨l, w⟩ := x
    simp only [KMap.wf, Bool.and_eq_true, decide_eq_true_eq] at h
    simp only [KMap.get?]
    rw [if_pos (by omega)]

theorem wf_cons {k : Nat} {v : α} {t : KMap α} (h : KMap.wf t = true) (hk : ∀ l w, (l, w) ∈ t → k < l) :
    KMap.wf ((k, v) :: t) = true := by
  cases t with
  | nil => rfl
  | cons x t =>
    obtain ⟨l, w⟩ := x
    simp only [KMap.wf, Bool.and_eq_true, decide_eq_true_eq]
    exact ⟨hk l w (by simp), h⟩

theorem wf_above {k : Nat} {v : α} {t : KMap α} (h : KMap.wf ((k, v) :: t) = true) : ∀ l w, (l, w) ∈ t → k < l := by
  induction t generalizing k v with
  | nil => simp
  | cons x t ih =>
    obtain ⟨l, w⟩ := x
    simp only [KMap.wf, Bool.and_eq_true, decide_eq_true_eq] at h
    intro a b hm
    simp only [List.mem_cons, Prod.mk.injEq] at hm
    rcases hm with ⟨rfl, rfl⟩ | hm
    · exact h.1
    · exact Nat.lt_trans h.1 (ih h.2 a b hm)

theorem mem_set {m : KMap α} {n a : Nat} {x y : α} (h : (a, y) ∈ KMap.set m n x) : (a, y) ∈ m ∨ (a = n ∧ y = x) := by
  induction m with
  | nil => simp_all [KMap.set]
  | cons hd t ih =>
    obtain ⟨k, v⟩ := hd
    simp only [KMap.set] at h
    split at h
    · simp at h ⊢; tauto
    · split at h
      · simp at h ⊢; tauto
      · simp at h
        rcases h with h | h
        · simp; tauto
        · rcases ih h with h | h <;> simp <;> tauto

/-- Setting a key keeps the canonical form. -/
theorem set_wf (m : KMap α) (n : Nat) (x : α) (h : KMap.wf m = true) : KMap.wf (KMap.set m n x) = true := by
  induction m with
  | nil => rfl
  | cons hd t ih =>
    obtain ⟨k, v⟩ := hd
    simp only [KMap.set]
    split
    · simp_all [KMap.wf]
    · split
      · subst_vars; exact wf_cons (wf_tail h) (wf_above h)
      · refine wf_cons (ih (wf_tail h)) fun l w hm => ?_
        rcases mem_set hm with hm | ⟨rfl, -⟩
        · exact wf_above h l w hm
        · omega

theorem mem_erase {m : KMap α} {n a : Nat} {y : α} (h : (a, y) ∈ KMap.erase m n) : (a, y) ∈ m := by
  induction m with
  | nil => simp_all [KMap.erase]
  | cons hd t ih =>
    obtain ⟨k, v⟩ := hd
    simp only [KMap.erase] at h
    split at h
    · exact h
    · split at h
      · exact List.mem_cons_of_mem _ h
      · simp only [List.mem_cons] at h ⊢
        exact h.imp_right ih

/-- Erasing a key keeps the canonical form. -/
theorem erase_wf (m : KMap α) (n : Nat) (h : KMap.wf m = true) : KMap.wf (KMap.erase m n) = true := by
  induction m with
  | nil => rfl
  | cons hd t ih =>
    obtain ⟨k, v⟩ := hd
    simp only [KMap.erase]
    split
    · exact h
    · split
      · exact wf_tail h
      · exact wf_cons (ih (wf_tail h)) fun l w hm => wf_above h l w (mem_erase hm)

/-- An erased key is not listed. -/
theorem get_erase_same (m : KMap α) (n : Nat) (h : KMap.wf m = true) : KMap.get? (KMap.erase m n) n = none := by
  induction m with
  | nil => rfl
  | cons hd t ih =>
    obtain ⟨k, v⟩ := hd
    simp only [KMap.erase]
    split
    · simp only [KMap.get?]; rw [if_pos ‹_›]
    · split
      · subst_vars; exact get_below h (Nat.le_refl _)
      · simp only [KMap.get?]
        rw [if_neg ‹_›, if_neg ‹_›]
        exact ih (wf_tail h)

/-- Other keys read as before an erasure. -/
theorem get_erase_other (m : KMap α) (n a : Nat) (h : KMap.wf m = true) (ha : a ≠ n) :
    KMap.get? (KMap.erase m n) a = KMap.get? m a := by
  induction m with
  | nil => rfl
  | cons hd t ih =>
    obtain ⟨k, v⟩ := hd
    simp only [KMap.erase]
    split
    · rfl
    · split
      · subst_vars
        simp only [KMap.get?]
        split
        · exact get_below h (by omega)
        · rw [if_neg (by omega)]
      · simp only [KMap.get?, ih (wf_tail h)]

/-! ### Byte memory -/

theorem memory_wf_iff (m : Memory) : m.wf = true ↔ KMap.wf m = true ∧ ∀ c ∈ m, c.2 ≠ 0 := by
  simp [Memory.wf]

/-- A write keeps the canonical form. -/
theorem write_wf (m : Memory) (a : Nat) (b : Byte) (h : m.wf = true) : (m.write a b).wf = true := by
  rw [memory_wf_iff] at h ⊢
  simp only [Memory.write]
  split
  · exact ⟨erase_wf m a h.1, fun c hc => h.2 c (mem_erase hc)⟩
  · refine ⟨set_wf m a b h.1, fun c hc => ?_⟩
    rcases mem_set (y := c.2) (a := c.1) hc with hc | ⟨-, hc⟩
    · exact h.2 c hc
    · rw [hc]; assumption

/-- A byte written reads back. -/
theorem read_write_same (m : Memory) (a : Nat) (b : Byte) (h : m.wf = true) : (m.write a b).read a = b := by
  rw [memory_wf_iff] at h
  simp only [Memory.write, Memory.read]
  split
  · rw [get_erase_same m a h.1]; subst_vars; rfl
  · rw [get_set_same]; rfl

/-- A write leaves every other byte alone. -/
theorem read_write_other (m : Memory) (a x : Nat) (b : Byte) (h : m.wf = true) (hx : x ≠ a) :
    (m.write a b).read x = m.read x := by
  rw [memory_wf_iff] at h
  simp only [Memory.write, Memory.read]
  split
  · rw [get_erase_other m a x h.1 hx]
  · rw [get_set_other m a x b hx]

theorem writeN_wf (m : Memory) (a n v : Nat) (h : m.wf = true) : (m.writeN a n v).wf = true := by
  induction n generalizing m a v with
  | zero => exact h
  | succ n ih => exact ih _ _ _ (write_wf m a _ h)

/-- A number's write leaves the bytes outside it alone. -/
theorem read_writeN_other (m : Memory) (a n v x : Nat) (h : m.wf = true) (hx : x < a ∨ a + n ≤ x) :
    (m.writeN a n v).read x = m.read x := by
  induction n generalizing m a v with
  | zero => rfl
  | succ n ih =>
    simp only [Memory.writeN]
    rw [ih _ _ _ (write_wf m a _ h) (by omega), read_write_other m a x _ h (by omega)]

theorem writeBytes_wf (m : Memory) (a : Nat) (l : List Byte) (h : m.wf = true) : (m.writeBytes a l).wf = true := by
  induction l generalizing m a with
  | nil => exact h
  | cons b l ih => exact ih _ _ (write_wf m a b h)

theorem writePairs_wf (m : Memory) (a : Nat) (l : KMap Byte) (h : m.wf = true) : (m.writePairs a l).wf = true := by
  induction l generalizing m with
  | nil => exact h
  | cons c l ih => exact ih _ (write_wf m _ _ h)

theorem read_writeBytes_other (m : Memory) (a x : Nat) (l : List Byte) (h : m.wf = true) (hx : x < a ∨ a + l.length ≤ x) :
    (m.writeBytes a l).read x = m.read x := by
  induction l generalizing m a with
  | nil => rfl
  | cons b l ih =>
    simp only [List.length_cons] at hx
    simp only [Memory.writeBytes]
    rw [ih _ _ (write_wf m a b h) (by omega), read_write_other m a x b h (by omega)]

end Sys2Proof.Laws
end

