-- ==== Sys2Proof/Laws/State.lean ====
section
/-! SUPPORT. The fields of the state after each update, field by field. -/

namespace Sys2Proof.Laws

open Sys2Proof.Machine

/-! ### `setGroup` -/

@[simp] theorem setGroup_clock (s : State) (n : Nat) (g : Group) : (s.setGroup n g).clock = s.clock := rfl
@[simp] theorem setGroup_serial (s : State) (n : Nat) (g : Group) : (s.setGroup n g).serial = s.serial := rfl
@[simp] theorem setGroup_agenda (s : State) (n : Nat) (g : Group) : (s.setGroup n g).agenda = s.agenda := rfl
@[simp] theorem setGroup_focus (s : State) (n : Nat) (g : Group) : (s.setGroup n g).focus = s.focus := rfl
@[simp] theorem setGroup_mem (s : State) (n : Nat) (g : Group) : (s.setGroup n g).mem = s.mem := rfl
@[simp] theorem setGroup_side (s : State) (n : Nat) (g : Group) : (s.setGroup n g).side = s.side := rfl
@[simp] theorem setGroup_poison (s : State) (n : Nat) (g : Group) : (s.setGroup n g).poison = s.poison := rfl
@[simp] theorem setGroup_pool (s : State) (n : Nat) (g : Group) : (s.setGroup n g).pool = s.pool := rfl
@[simp] theorem setGroup_poolSide (s : State) (n : Nat) (g : Group) : (s.setGroup n g).poolSide = s.poolSide := rfl
@[simp] theorem setGroup_durWait (s : State) (n : Nat) (g : Group) : (s.setGroup n g).durWait = s.durWait := rfl
@[simp] theorem setGroup_pbuf (s : State) (n : Nat) (g : Group) : (s.setGroup n g).pbuf = s.pbuf := rfl
@[simp] theorem setGroup_hub (s : State) (n : Nat) (g : Group) : (s.setGroup n g).hub = s.hub := rfl
@[simp] theorem setGroup_tlb (s : State) (n : Nat) (g : Group) : (s.setGroup n g).tlb = s.tlb := rfl
@[simp] theorem setGroup_cores (s : State) (n : Nat) (g : Group) : (s.setGroup n g).cores = s.cores := rfl
@[simp] theorem setGroup_teams (s : State) (n : Nat) (g : Group) : (s.setGroup n g).teams = s.teams := rfl
@[simp] theorem setGroup_kernels (s : State) (n : Nat) (g : Group) : (s.setGroup n g).kernels = s.kernels := rfl
@[simp] theorem setGroup_nextId (s : State) (n : Nat) (g : Group) : (s.setGroup n g).nextId = s.nextId := rfl
@[simp] theorem setGroup_ctxs (s : State) (n : Nat) (g : Group) : (s.setGroup n g).ctxs = s.ctxs := rfl
@[simp] theorem setGroup_doorbells (s : State) (n : Nat) (g : Group) : (s.setGroup n g).doorbells = s.doorbells := rfl
@[simp] theorem setGroup_dbStat (s : State) (n : Nat) (g : Group) : (s.setGroup n g).dbStat = s.dbStat := rfl
@[simp] theorem setGroup_queues (s : State) (n : Nat) (g : Group) : (s.setGroup n g).queues = s.queues := rfl
@[simp] theorem setGroup_parts (s : State) (n : Nat) (g : Group) : (s.setGroup n g).parts = s.parts := rfl
@[simp] theorem setGroup_swapAreas (s : State) (n : Nat) (g : Group) : (s.setGroup n g).swapAreas = s.swapAreas := rfl
@[simp] theorem setGroup_dev (s : State) (n : Nat) (g : Group) : (s.setGroup n g).dev = s.dev := rfl

/-! ### `modGroup` -/

@[simp] theorem modGroup_clock (s : State) (n : Nat) (f : Group → Group) : (s.modGroup n f).clock = s.clock := rfl
@[simp] theorem modGroup_serial (s : State) (n : Nat) (f : Group → Group) : (s.modGroup n f).serial = s.serial := rfl
@[simp] theorem modGroup_agenda (s : State) (n : Nat) (f : Group → Group) : (s.modGroup n f).agenda = s.agenda := rfl
@[simp] theorem modGroup_focus (s : State) (n : Nat) (f : Group → Group) : (s.modGroup n f).focus = s.focus := rfl
@[simp] theorem modGroup_mem (s : State) (n : Nat) (f : Group → Group) : (s.modGroup n f).mem = s.mem := rfl
@[simp] theorem modGroup_side (s : State) (n : Nat) (f : Group → Group) : (s.modGroup n f).side = s.side := rfl
@[simp] theorem modGroup_poison (s : State) (n : Nat) (f : Group → Group) : (s.modGroup n f).poison = s.poison := rfl
@[simp] theorem modGroup_pool (s : State) (n : Nat) (f : Group → Group) : (s.modGroup n f).pool = s.pool := rfl
@[simp] theorem modGroup_poolSide (s : State) (n : Nat) (f : Group → Group) : (s.modGroup n f).poolSide = s.poolSide := rfl
@[simp] theorem modGroup_durWait (s : State) (n : Nat) (f : Group → Group) : (s.modGroup n f).durWait = s.durWait := rfl
@[simp] theorem modGroup_pbuf (s : State) (n : Nat) (f : Group → Group) : (s.modGroup n f).pbuf = s.pbuf := rfl
@[simp] theorem modGroup_hub (s : State) (n : Nat) (f : Group → Group) : (s.modGroup n f).hub = s.hub := rfl
@[simp] theorem modGroup_tlb (s : State) (n : Nat) (f : Group → Group) : (s.modGroup n f).tlb = s.tlb := rfl
@[simp] theorem modGroup_cores (s : State) (n : Nat) (f : Group → Group) : (s.modGroup n f).cores = s.cores := rfl
@[simp] theorem modGroup_teams (s : State) (n : Nat) (f : Group → Group) : (s.modGroup n f).teams = s.teams := rfl
@[simp] theorem modGroup_kernels (s : State) (n : Nat) (f : Group → Group) : (s.modGroup n f).kernels = s.kernels := rfl
@[simp] theorem modGroup_nextId (s : State) (n : Nat) (f : Group → Group) : (s.modGroup n f).nextId = s.nextId := rfl
@[simp] theorem modGroup_ctxs (s : State) (n : Nat) (f : Group → Group) : (s.modGroup n f).ctxs = s.ctxs := rfl
@[simp] theorem modGroup_doorbells (s : State) (n : Nat) (f : Group → Group) : (s.modGroup n f).doorbells = s.doorbells := rfl
@[simp] theorem modGroup_dbStat (s : State) (n : Nat) (f : Group → Group) : (s.modGroup n f).dbStat = s.dbStat := rfl
@[simp] theorem modGroup_queues (s : State) (n : Nat) (f : Group → Group) : (s.modGroup n f).queues = s.queues := rfl
@[simp] theorem modGroup_parts (s : State) (n : Nat) (f : Group → Group) : (s.modGroup n f).parts = s.parts := rfl
@[simp] theorem modGroup_swapAreas (s : State) (n : Nat) (f : Group → Group) : (s.modGroup n f).swapAreas = s.swapAreas := rfl
@[simp] theorem modGroup_dev (s : State) (n : Nat) (f : Group → Group) : (s.modGroup n f).dev = s.dev := rfl

/-! ### `setTeam` -/

@[simp] theorem setTeam_clock (s : State) (n : Nat) (t : Team) : (s.setTeam n t).clock = s.clock := rfl
@[simp] theorem setTeam_serial (s : State) (n : Nat) (t : Team) : (s.setTeam n t).serial = s.serial := rfl
@[simp] theorem setTeam_agenda (s : State) (n : Nat) (t : Team) : (s.setTeam n t).agenda = s.agenda := rfl
@[simp] theorem setTeam_focus (s : State) (n : Nat) (t : Team) : (s.setTeam n t).focus = s.focus := rfl
@[simp] theorem setTeam_mem (s : State) (n : Nat) (t : Team) : (s.setTeam n t).mem = s.mem := rfl
@[simp] theorem setTeam_side (s : State) (n : Nat) (t : Team) : (s.setTeam n t).side = s.side := rfl
@[simp] theorem setTeam_poison (s : State) (n : Nat) (t : Team) : (s.setTeam n t).poison = s.poison := rfl
@[simp] theorem setTeam_pool (s : State) (n : Nat) (t : Team) : (s.setTeam n t).pool = s.pool := rfl
@[simp] theorem setTeam_poolSide (s : State) (n : Nat) (t : Team) : (s.setTeam n t).poolSide = s.poolSide := rfl
@[simp] theorem setTeam_durWait (s : State) (n : Nat) (t : Team) : (s.setTeam n t).durWait = s.durWait := rfl
@[simp] theorem setTeam_pbuf (s : State) (n : Nat) (t : Team) : (s.setTeam n t).pbuf = s.pbuf := rfl
@[simp] theorem setTeam_hub (s : State) (n : Nat) (t : Team) : (s.setTeam n t).hub = s.hub := rfl
@[simp] theorem setTeam_tlb (s : State) (n : Nat) (t : Team) : (s.setTeam n t).tlb = s.tlb := rfl
@[simp] theorem setTeam_cores (s : State) (n : Nat) (t : Team) : (s.setTeam n t).cores = s.cores := rfl
@[simp] theorem setTeam_groups (s : State) (n : Nat) (t : Team) : (s.setTeam n t).groups = s.groups := rfl
@[simp] theorem setTeam_kernels (s : State) (n : Nat) (t : Team) : (s.setTeam n t).kernels = s.kernels := rfl
@[simp] theorem setTeam_nextId (s : State) (n : Nat) (t : Team) : (s.setTeam n t).nextId = s.nextId := rfl
@[simp] theorem setTeam_ctxs (s : State) (n : Nat) (t : Team) : (s.setTeam n t).ctxs = s.ctxs := rfl
@[simp] theorem setTeam_doorbells (s : State) (n : Nat) (t : Team) : (s.setTeam n t).doorbells = s.doorbells := rfl
@[simp] theorem setTeam_dbStat (s : State) (n : Nat) (t : Team) : (s.setTeam n t).dbStat = s.dbStat := rfl
@[simp] theorem setTeam_queues (s : State) (n : Nat) (t : Team) : (s.setTeam n t).queues = s.queues := rfl
@[simp] theorem setTeam_parts (s : State) (n : Nat) (t : Team) : (s.setTeam n t).parts = s.parts := rfl
@[simp] theorem setTeam_swapAreas (s : State) (n : Nat) (t : Team) : (s.setTeam n t).swapAreas = s.swapAreas := rfl
@[simp] theorem setTeam_dev (s : State) (n : Nat) (t : Team) : (s.setTeam n t).dev = s.dev := rfl

/-! ### `setKernel` -/

@[simp] theorem setKernel_clock (s : State) (n : Nat) (k : Kernel) : (s.setKernel n k).clock = s.clock := rfl
@[simp] theorem setKernel_serial (s : State) (n : Nat) (k : Kernel) : (s.setKernel n k).serial = s.serial := rfl
@[simp] theorem setKernel_agenda (s : State) (n : Nat) (k : Kernel) : (s.setKernel n k).agenda = s.agenda := rfl
@[simp] theorem setKernel_focus (s : State) (n : Nat) (k : Kernel) : (s.setKernel n k).focus = s.focus := rfl
@[simp] theorem setKernel_mem (s : State) (n : Nat) (k : Kernel) : (s.setKernel n k).mem = s.mem := rfl
@[simp] theorem setKernel_side (s : State) (n : Nat) (k : Kernel) : (s.setKernel n k).side = s.side := rfl
@[simp] theorem setKernel_poison (s : State) (n : Nat) (k : Kernel) : (s.setKernel n k).poison = s.poison := rfl
@[simp] theorem setKernel_pool (s : State) (n : Nat) (k : Kernel) : (s.setKernel n k).pool = s.pool := rfl
@[simp] theorem setKernel_poolSide (s : State) (n : Nat) (k : Kernel) : (s.setKernel n k).poolSide = s.poolSide := rfl
@[simp] theorem setKernel_durWait (s : State) (n : Nat) (k : Kernel) : (s.setKernel n k).durWait = s.durWait := rfl
@[simp] theorem setKernel_pbuf (s : State) (n : Nat) (k : Kernel) : (s.setKernel n k).pbuf = s.pbuf := rfl
@[simp] theorem setKernel_hub (s : State) (n : Nat) (k : Kernel) : (s.setKernel n k).hub = s.hub := rfl
@[simp] theorem setKernel_tlb (s : State) (n : Nat) (k : Kernel) : (s.setKernel n k).tlb = s.tlb := rfl
@[simp] theorem setKernel_cores (s : State) (n : Nat) (k : Kernel) : (s.setKernel n k).cores = s.cores := rfl
@[simp] theorem setKernel_groups (s : State) (n : Nat) (k : Kernel) : (s.setKernel n k).groups = s.groups := rfl
@[simp] theorem setKernel_teams (s : State) (n : Nat) (k : Kernel) : (s.setKernel n k).teams = s.teams := rfl
@[simp] theorem setKernel_nextId (s : State) (n : Nat) (k : Kernel) : (s.setKernel n k).nextId = s.nextId := rfl
@[simp] theorem setKernel_ctxs (s : State) (n : Nat) (k : Kernel) : (s.setKernel n k).ctxs = s.ctxs := rfl
@[simp] theorem setKernel_doorbells (s : State) (n : Nat) (k : Kernel) : (s.setKernel n k).doorbells = s.doorbells := rfl
@[simp] theorem setKernel_dbStat (s : State) (n : Nat) (k : Kernel) : (s.setKernel n k).dbStat = s.dbStat := rfl
@[simp] theorem setKernel_queues (s : State) (n : Nat) (k : Kernel) : (s.setKernel n k).queues = s.queues := rfl
@[simp] theorem setKernel_parts (s : State) (n : Nat) (k : Kernel) : (s.setKernel n k).parts = s.parts := rfl
@[simp] theorem setKernel_swapAreas (s : State) (n : Nat) (k : Kernel) : (s.setKernel n k).swapAreas = s.swapAreas := rfl
@[simp] theorem setKernel_dev (s : State) (n : Nat) (k : Kernel) : (s.setKernel n k).dev = s.dev := rfl

/-! ### `setCore` -/

@[simp] theorem setCore_clock (s : State) (n : Nat) (c : Core) : (s.setCore n c).clock = s.clock := rfl
@[simp] theorem setCore_serial (s : State) (n : Nat) (c : Core) : (s.setCore n c).serial = s.serial := rfl
@[simp] theorem setCore_agenda (s : State) (n : Nat) (c : Core) : (s.setCore n c).agenda = s.agenda := rfl
@[simp] theorem setCore_focus (s : State) (n : Nat) (c : Core) : (s.setCore n c).focus = s.focus := rfl
@[simp] theorem setCore_mem (s : State) (n : Nat) (c : Core) : (s.setCore n c).mem = s.mem := rfl
@[simp] theorem setCore_side (s : State) (n : Nat) (c : Core) : (s.setCore n c).side = s.side := rfl
@[simp] theorem setCore_poison (s : State) (n : Nat) (c : Core) : (s.setCore n c).poison = s.poison := rfl
@[simp] theorem setCore_pool (s : State) (n : Nat) (c : Core) : (s.setCore n c).pool = s.pool := rfl
@[simp] theorem setCore_poolSide (s : State) (n : Nat) (c : Core) : (s.setCore n c).poolSide = s.poolSide := rfl
@[simp] theorem setCore_durWait (s : State) (n : Nat) (c : Core) : (s.setCore n c).durWait = s.durWait := rfl
@[simp] theorem setCore_pbuf (s : State) (n : Nat) (c : Core) : (s.setCore n c).pbuf = s.pbuf := rfl
@[simp] theorem setCore_hub (s : State) (n : Nat) (c : Core) : (s.setCore n c).hub = s.hub := rfl
@[simp] theorem setCore_tlb (s : State) (n : Nat) (c : Core) : (s.setCore n c).tlb = s.tlb := rfl
@[simp] theorem setCore_groups (s : State) (n : Nat) (c : Core) : (s.setCore n c).groups = s.groups := rfl
@[simp] theorem setCore_teams (s : State) (n : Nat) (c : Core) : (s.setCore n c).teams = s.teams := rfl
@[simp] theorem setCore_kernels (s : State) (n : Nat) (c : Core) : (s.setCore n c).kernels = s.kernels := rfl
@[simp] theorem setCore_nextId (s : State) (n : Nat) (c : Core) : (s.setCore n c).nextId = s.nextId := rfl
@[simp] theorem setCore_ctxs (s : State) (n : Nat) (c : Core) : (s.setCore n c).ctxs = s.ctxs := rfl
@[simp] theorem setCore_doorbells (s : State) (n : Nat) (c : Core) : (s.setCore n c).doorbells = s.doorbells := rfl
@[simp] theorem setCore_dbStat (s : State) (n : Nat) (c : Core) : (s.setCore n c).dbStat = s.dbStat := rfl
@[simp] theorem setCore_queues (s : State) (n : Nat) (c : Core) : (s.setCore n c).queues = s.queues := rfl
@[simp] theorem setCore_parts (s : State) (n : Nat) (c : Core) : (s.setCore n c).parts = s.parts := rfl
@[simp] theorem setCore_swapAreas (s : State) (n : Nat) (c : Core) : (s.setCore n c).swapAreas = s.swapAreas := rfl
@[simp] theorem setCore_dev (s : State) (n : Nat) (c : Core) : (s.setCore n c).dev = s.dev := rfl

/-! ### `tick` -/

@[simp] theorem tick_agenda (s : State) : (tick s).agenda = s.agenda := rfl
@[simp] theorem tick_focus (s : State) : (tick s).focus = s.focus := rfl
@[simp] theorem tick_mem (s : State) : (tick s).mem = s.mem := rfl
@[simp] theorem tick_side (s : State) : (tick s).side = s.side := rfl
@[simp] theorem tick_poison (s : State) : (tick s).poison = s.poison := rfl
@[simp] theorem tick_pool (s : State) : (tick s).pool = s.pool := rfl
@[simp] theorem tick_poolSide (s : State) : (tick s).poolSide = s.poolSide := rfl
@[simp] theorem tick_durWait (s : State) : (tick s).durWait = s.durWait := rfl
@[simp] theorem tick_pbuf (s : State) : (tick s).pbuf = s.pbuf := rfl
@[simp] theorem tick_hub (s : State) : (tick s).hub = s.hub := rfl
@[simp] theorem tick_tlb (s : State) : (tick s).tlb = s.tlb := rfl
@[simp] theorem tick_cores (s : State) : (tick s).cores = s.cores := rfl
@[simp] theorem tick_groups (s : State) : (tick s).groups = s.groups := rfl
@[simp] theorem tick_teams (s : State) : (tick s).teams = s.teams := rfl
@[simp] theorem tick_kernels (s : State) : (tick s).kernels = s.kernels := rfl
@[simp] theorem tick_nextId (s : State) : (tick s).nextId = s.nextId := rfl
@[simp] theorem tick_ctxs (s : State) : (tick s).ctxs = s.ctxs := rfl
@[simp] theorem tick_doorbells (s : State) : (tick s).doorbells = s.doorbells := rfl
@[simp] theorem tick_dbStat (s : State) : (tick s).dbStat = s.dbStat := rfl
@[simp] theorem tick_queues (s : State) : (tick s).queues = s.queues := rfl
@[simp] theorem tick_parts (s : State) : (tick s).parts = s.parts := rfl
@[simp] theorem tick_swapAreas (s : State) : (tick s).swapAreas = s.swapAreas := rfl
@[simp] theorem tick_dev (s : State) : (tick s).dev = s.dev := rfl

/-! ### `spend` -/

@[simp] theorem spend_serial (s : State) (k : Nat) : (spend s k).serial = s.serial := rfl
@[simp] theorem spend_agenda (s : State) (k : Nat) : (spend s k).agenda = s.agenda := rfl
@[simp] theorem spend_focus (s : State) (k : Nat) : (spend s k).focus = s.focus := rfl
@[simp] theorem spend_mem (s : State) (k : Nat) : (spend s k).mem = s.mem := rfl
@[simp] theorem spend_side (s : State) (k : Nat) : (spend s k).side = s.side := rfl
@[simp] theorem spend_poison (s : State) (k : Nat) : (spend s k).poison = s.poison := rfl
@[simp] theorem spend_pool (s : State) (k : Nat) : (spend s k).pool = s.pool := rfl
@[simp] theorem spend_poolSide (s : State) (k : Nat) : (spend s k).poolSide = s.poolSide := rfl
@[simp] theorem spend_durWait (s : State) (k : Nat) : (spend s k).durWait = s.durWait := rfl
@[simp] theorem spend_pbuf (s : State) (k : Nat) : (spend s k).pbuf = s.pbuf := rfl
@[simp] theorem spend_hub (s : State) (k : Nat) : (spend s k).hub = s.hub := rfl
@[simp] theorem spend_tlb (s : State) (k : Nat) : (spend s k).tlb = s.tlb := rfl
@[simp] theorem spend_cores (s : State) (k : Nat) : (spend s k).cores = s.cores := rfl
@[simp] theorem spend_groups (s : State) (k : Nat) : (spend s k).groups = s.groups := rfl
@[simp] theorem spend_teams (s : State) (k : Nat) : (spend s k).teams = s.teams := rfl
@[simp] theorem spend_kernels (s : State) (k : Nat) : (spend s k).kernels = s.kernels := rfl
@[simp] theorem spend_nextId (s : State) (k : Nat) : (spend s k).nextId = s.nextId := rfl
@[simp] theorem spend_ctxs (s : State) (k : Nat) : (spend s k).ctxs = s.ctxs := rfl
@[simp] theorem spend_doorbells (s : State) (k : Nat) : (spend s k).doorbells = s.doorbells := rfl
@[simp] theorem spend_dbStat (s : State) (k : Nat) : (spend s k).dbStat = s.dbStat := rfl
@[simp] theorem spend_queues (s : State) (k : Nat) : (spend s k).queues = s.queues := rfl
@[simp] theorem spend_parts (s : State) (k : Nat) : (spend s k).parts = s.parts := rfl
@[simp] theorem spend_swapAreas (s : State) (k : Nat) : (spend s k).swapAreas = s.swapAreas := rfl
@[simp] theorem spend_dev (s : State) (k : Nat) : (spend s k).dev = s.dev := rfl

@[simp] theorem setGroup_groups (s : State) (n : Nat) (g : Group) : (s.setGroup n g).groups = KMap.set s.groups n g := rfl
@[simp] theorem setTeam_teams (s : State) (n : Nat) (t : Team) : (s.setTeam n t).teams = KMap.set s.teams n t := rfl
@[simp] theorem setKernel_kernels (s : State) (n : Nat) (k : Kernel) : (s.setKernel n k).kernels = KMap.set s.kernels n k := rfl
@[simp] theorem setCore_cores (s : State) (n : Nat) (c : Core) : (s.setCore n c).cores = KMap.set s.cores n c := rfl
@[simp] theorem tick_clock (s : State) : (tick s).clock = s.clock + 1 := rfl
@[simp] theorem tick_serial (s : State) : (tick s).serial = s.serial + 1 := rfl
@[simp] theorem spend_clock (s : State) (k : Nat) : (spend s k).clock = s.clock + k := rfl

end Sys2Proof.Laws
end

