-- ==== Sys2Proof/Laws/Issue.lean ====
section
/-! SUPPORT. The issue of an instruction word: what it comes to where nothing stands in its way, and what going on past it
leaves alone. -/

namespace Sys2Proof.Laws

open Sys2Proof.Machine

@[simp] theorem group_setGroup (s : State) (n : Nat) (g : Group) : (s.setGroup n g).group? n = some g := get_set_same _ _ _

theorem group_setGroup_other (s : State) (n a : Nat) (g : Group) (h : a ≠ n) : (s.setGroup n g).group? a = s.group? a :=
  get_set_other _ _ _ _ h

/-- An instruction word that issues comes to what its meaning comes to. -/
theorem issue_next {i : Instr} {s : State} {c : Gang} {u : Uses} (h : Issues i s c u) (body : Gang → Result) :
    issue i s u body = .next (finish (s.setGroup c.gid c.g) c (body c)) := by
  have hn := h.notBusy
  simp only [issue, h.gang, h.noTrapDue, ite_self, setGroup_clock, hn, h.present, h.clean, h.legal, Bool.not_true,
    Option.isSome_none, Bool.false_eq_true, ↓reduceIte]

/-- A word that is done goes on. -/
theorem issue_done {i : Instr} {s s' : State} {c : Gang} {u : Uses} {body : Gang → Result} (h : Issues i s c u)
    (hb : body c = .done s') : issue i s u body = .next (tick (advance s' c.gid c.words 0 false)) := by
  rw [issue_next h, hb]; rfl

/-- A word that traps at itself. -/
theorem issue_trap {i : Instr} {s : State} {c : Gang} {u : Uses} {body : Gang → Result} {t : TrapInfo} (h : Issues i s c u)
    (hb : body c = .trap t) :
    issue i s u body = .next (tick (takeTrap (s.setGroup c.gid c.g) c.gid c.site (legacyTrap c.run t))) := by
  rw [issue_next h, hb]; rfl

theorem issueLast_done {i : Instr} {s s' : State} {c : Gang} {u : Uses} {body : Gang → Result} (h : Issues i s c u)
    (hl : c.last = true) (hb : body c = .done s') :
    issueLast i s u body = .next (tick (advance s' c.gid c.words 0 false)) := by
  refine issue_done h ?_
  simp [hl, hb]

theorem issueLast_next {i : Instr} {s : State} {c : Gang} {u : Uses} (body : Gang → Result) (h : Issues i s c u)
    (hl : c.last = true) : issueLast i s u body = .next (finish (s.setGroup c.gid c.g) c (body c)) := by
  rw [issueLast, issue_next h]; simp [hl]

/-! ### What a gang is -/

theorem gangOf_gid {i : Instr} {s : State} {c : Gang} (h : gangOf i s = some c) : c.gid = s.focus := by
  unfold gangOf at h
  split at h
  · cases h
  · split at h
    · split at h
      · cases h; rfl
      · cases h
    · cases h

theorem gangOf_instr {i : Instr} {s : State} {c : Gang} (h : gangOf i s = some c) : c.i = i := by
  unfold gangOf at h
  split at h
  · cases h
  · split at h
    · split at h
      · cases h; rfl
      · cases h
    · cases h

/-! ### Counters and going on -/

@[simp] theorem core_setCore (s : State) (n : Nat) (c : Core) : (s.setCore n c).core n = c := by
  simp [State.core, State.setCore]

theorem core_setCore_other (s : State) (n a : Nat) (c : Core) (h : a ≠ n) : (s.setCore n c).core a = s.core a := by
  simp [State.core, State.setCore, get_set_other _ _ _ _ h]

theorem pmcCore_eq (s : State) (core vf n k : Nat) :
    ∃ p, pmcCore s core vf n k = s.setCore core { s.core core with pmc := p } := ⟨_, rfl⟩

/-- What advancing a group changes: its group and one core's counters. -/
theorem advance_eq (s : State) (gid n : Nat) (m : BitVec 8) (taken : Bool) :
    advance s gid n m taken = s ∨ ∃ core vf g, advance s gid n m taken = (pmcCore s core vf 2 1).setGroup gid g := by
  unfold advance
  split
  · exact .inl rfl
  · split
    · exact .inl rfl
    · dsimp only
      split
      · exact .inr ⟨_, _, _, rfl⟩
      · exact .inr ⟨_, _, _, rfl⟩

theorem core_pmcCore (s : State) (core vf n k m : Nat) :
    ∃ p, (pmcCore s core vf n k).core m = { s.core m with pmc := p } := by
  by_cases h : m = core
  · subst h; exact ⟨_, by rw [pmcCore]; exact core_setCore _ _ _⟩
  · exact ⟨(s.core m).pmc, by rw [pmcCore]; exact core_setCore_other _ _ _ _ h⟩

/-- Going on past an instruction changes nothing but its group, the clock and the counters. -/
theorem wentOn_onlyGroup (s : State) (c : Gang) (g : Group) (n : Nat) : OnlyGroup s (wentOn s c g n) c.gid := by
  rcases advance_eq (spend (s.setGroup c.gid g) n) c.gid c.words 0 false with e | ⟨core, vf, h, e⟩
  · unfold wentOn
    rw [e]
    exact { memory := fun _ => rfl, sidebands := rfl, poison := rfl, pool := rfl, durable := ⟨rfl, rfl⟩, hub := rfl, caches := fun _ => rfl
            accumulators := fun _ => ⟨rfl, rfl, rfl⟩, groups := fun m hm => group_setGroup_other s c.gid m g hm
            teams := rfl, kernels := rfl, contexts := rfl, partitions := rfl, queues := rfl, device := rfl }
  · unfold wentOn
    rw [e]
    have hc : ∀ m, ∃ p, (tick ((pmcCore (spend (s.setGroup c.gid g) n) core vf 2 1).setGroup c.gid h)).core m =
        { s.core m with pmc := p } := fun m => core_pmcCore (spend (s.setGroup c.gid g) n) core vf 2 1 m
    exact { memory := fun _ => rfl, sidebands := rfl, poison := rfl, pool := rfl, durable := ⟨rfl, rfl⟩, hub := rfl
            caches := fun m => by obtain ⟨p, e⟩ := hc m; rw [e]
            accumulators := fun m => by obtain ⟨p, e⟩ := hc m; rw [e]; exact ⟨rfl, rfl, rfl⟩
            groups := fun m hm => by
              show (State.setGroup _ _ _).group? m = _
              rw [group_setGroup_other _ _ _ _ hm]
              exact group_setGroup_other s c.gid m g hm
            teams := rfl, kernels := rfl, contexts := rfl, partitions := rfl, queues := rfl, device := rfl }

end Sys2Proof.Laws
end

