-- ==== Sys2Proof/Laws/Registers.lean ====
section
/-! SUPPORT. Register writes: what each changes and what it leaves alone. -/

namespace Sys2Proof.Laws

open Sys2Proof.Machine

theorem frame_refl (score : Bool) (g : Group) (vs : List VReg) (us : List UReg) (ps : List PReg) : Frame score g g vs us ps :=
  ⟨fun _ _ => rfl, fun _ _ => ⟨rfl, rfl⟩, fun _ _ => rfl, rfl⟩

theorem frame_trans {score : Bool} {g h k : Group} {vs : List VReg} {us : List UReg} {ps : List PReg}
    (a : Frame score g h vs us ps) (b : Frame score h k vs us ps) : Frame score g k vs us ps := by
  refine ⟨fun r hr => (b.vec r hr).trans (a.vec r hr), fun n hn => ⟨(b.uni n hn).1.trans (a.uni n hn).1, (b.uni n hn).2.trans (a.uni n hn).2⟩,
    fun n hn => (b.pred n hn).trans (a.pred n hn), ?_⟩
  have h1 := a.rest
  have h2 := b.rest
  rw [h1] at h2
  exact h2

/-! ### Lines -/

@[simp] theorem line_setLine_same (g : Group) (score : Bool) (r : VReg) (l : VLine) : (g.setLine r l).line score r = l := by
  cases r <;> simp [Group.setLine, Group.line]

theorem line_setLine_other (g : Group) (score : Bool) (r q : VReg) (l : VLine) (h : q ≠ r) :
    (g.setLine r l).line score q = g.line score q := by
  cases r <;> cases q <;> simp only [Group.setLine, Group.line]
  · rename_i a b
    rw [get_set_other]
    intro e
    exact h (by rw [Fin.ext e])
  · rename_i a b
    rw [get_set_other]
    intro e
    exact h (by rw [Fin.ext e])

theorem mixLines_zero (new old : VLine) : mixLines new old 0 = old := by
  cases old
  simp only [mixLines, VLine.mk.injEq]
  constructor <;> (ext i; simp [bit])

/-! ### One write -/

/-- The vector register that a write names, if any, and so on for the other classes. -/
def wV : RegWrite → List VReg
  | .v r _ _ => [r]
  | .u _ _ _ | .p _ _ _ => []
def wU : RegWrite → List UReg
  | .u n _ _ => [n]
  | .v _ _ _ | .p _ _ _ => []
def wP : RegWrite → List PReg
  | .p n _ _ => [n]
  | .v _ _ _ | .u _ _ _ => []

/-- A vector write reads back lane by lane. -/
theorem line_apply_same (g : Group) (score : Bool) (r : VReg) (l : VLine) (m : BitVec 32) :
    (g.apply score (.v r l m)).line score r = mixLines l (g.line score r) m := by
  simp only [Group.apply]
  split
  · subst_vars; rw [mixLines_zero]
  · have h : ∀ (x : Group) (q : List Nat), ({ x with poison := q } : Group).line score r = x.line score r := by
      intro x q; cases r <;> rfl
    split
    · rw [h]; simp
    · simp

theorem uni_apply_same (g : Group) (score : Bool) (n : UReg) (v : W64) (b : B16) :
    (g.apply score (.u n v b)).s[n.val] = v ∧ (g.apply score (.u n v b)).sb[n.val] = b := by
  simp [Group.apply]

theorem pred_apply_same (g : Group) (score : Bool) (n : PReg) (v m : BitVec 32) (h : n.val < 7) :
    (g.apply score (.p n v m)).predNow n = ((v &&& m) ||| (g.predNow n &&& ~~~m)) := by
  simp [Group.apply, Group.predNow, h]

theorem line_other_fields (score : Bool) (g g' : Group) (hv : g'.v = g.v) (hx : g'.x = g.x) (r : VReg) :
    g'.line score r = g.line score r := by
  cases r <;> simp [Group.line, hv, hx]

/-- One write changes only what it names. -/
theorem frame_apply (g : Group) (score : Bool) (w : RegWrite) : Frame score g (g.apply score w) (wV w) (wU w) (wP w) := by
  cases w with
  | v r l m =>
    simp only [Group.apply, wV, wU, wP]
    have key : ∀ q, q ∉ [r] → (g.setLine r (mixLines l (g.line score r) m)).line score q = g.line score q :=
      fun q hq => line_setLine_other g score r q _ (by simpa using hq)
    split
    · exact frame_refl _ _ _ _ _
    · split
      · refine ⟨fun q hq => (line_other_fields score _ _ rfl rfl q).trans (key q hq), ?_, ?_, ?_⟩ <;> cases r <;> first | rfl | (intros; trivial)
      · refine ⟨key, ?_, ?_, ?_⟩ <;> cases r <;> first | rfl | (intros; trivial)
  | u n v b =>
    refine ⟨fun r _ => line_other_fields _ _ _ rfl rfl r, fun k hk => ?_, fun _ _ => rfl, rfl⟩
    have hk : k.val ≠ n.val := fun e => hk (by simp [wU, Fin.ext e])
    simp [Group.apply, Ne.symm hk]
  | p n v m =>
    simp only [Group.apply]
    split
    · refine ⟨fun r _ => line_other_fields _ _ _ rfl rfl r, fun _ _ => ⟨rfl, rfl⟩, fun k hk => ?_, rfl⟩
      have hk : k.val ≠ n.val := fun e => hk (by simp [wP, Fin.ext e])
      simp only [Group.predNow]
      split
      · simp [Ne.symm hk]
      · rfl
    · exact frame_refl _ _ _ _ _

theorem frame_mono {score : Bool} {g g' : Group} {vs vs' : List VReg} {us us' : List UReg} {ps ps' : List PReg}
    (h : Frame score g g' vs us ps) (hv : vs ⊆ vs') (hu : us ⊆ us') (hp : ps ⊆ ps') : Frame score g g' vs' us' ps' :=
  ⟨fun r hr => h.vec r fun m => hr (hv m), fun n hn => h.uni n fun m => hn (hu m), fun n hn => h.pred n fun m => hn (hp m), h.rest⟩

theorem frame_overtake (g : Group) (score : Bool) (n run : Nat) (w : RegWrite) : Frame score g (g.overtake n run w) [] [] [] := by
  unfold Group.overtake
  split
  · exact frame_refl _ _ _ _ _
  · exact ⟨fun r _ => line_other_fields _ _ _ rfl rfl r, fun _ _ => ⟨rfl, rfl⟩, fun _ _ => rfl, rfl⟩

theorem frame_unsettled (g : Group) (score : Bool) (u : List Unsettled) : Frame score g { g with unsettled := u } [] [] [] :=
  ⟨fun r _ => line_other_fields _ _ _ rfl rfl r, fun _ _ => ⟨rfl, rfl⟩, fun _ _ => rfl, rfl⟩

/-- A write at issue is the write, with the older version kept for early readers. -/
theorem write_eq (g : Group) (v : View) (w : Nat) (r : RegWrite) :
    ∃ u, g.write v w r = { (g.overtake v.serial v.run r).apply v.score r with unsettled := u } := ⟨_, rfl⟩

theorem frame_write (g : Group) (v : View) (w : Nat) (r : RegWrite) : Frame v.score g (g.write v w r) (wV r) (wU r) (wP r) := by
  obtain ⟨u, e⟩ := write_eq g v w r
  rw [e]
  refine frame_trans (frame_mono (frame_overtake g v.score v.serial v.run r) (by simp) (by simp) (by simp)) ?_
  exact frame_trans (frame_apply _ _ r) (frame_mono (frame_unsettled _ _ u) (by simp) (by simp) (by simp))

theorem line_unsettled (g : Group) (u : List Unsettled) (score : Bool) (r : VReg) :
    ({ g with unsettled := u } : Group).line score r = g.line score r := line_other_fields _ _ _ rfl rfl r

theorem line_write_same (g : Group) (v : View) (w : Nat) (r : VReg) (l : VLine) (m : BitVec 32) :
    (g.write v w (.v r l m)).line v.score r = mixLines l (g.line v.score r) m := by
  obtain ⟨u, e⟩ := write_eq g v w (.v r l m)
  rw [e, line_unsettled, line_apply_same, (frame_overtake g v.score v.serial v.run (.v r l m)).vec r (by simp)]

theorem uni_write_same (g : Group) (v : View) (w : Nat) (n : UReg) (x : W64) (b : B16) :
    (g.write v w (.u n x b)).s[n.val] = x ∧ (g.write v w (.u n x b)).sb[n.val] = b :=
  uni_apply_same (g.overtake v.serial v.run (.u n x b)) v.score n x b

theorem pred_write_same (g : Group) (v : View) (w : Nat) (n : PReg) (x m : BitVec 32) (h : n.val < 7) :
    (g.write v w (.p n x m)).predNow n = ((x &&& m) ||| (g.predNow n &&& ~~~m)) := by
  obtain ⟨u, e⟩ := write_eq g v w (.p n x m)
  rw [e]
  have h1 := pred_apply_same (g.overtake v.serial v.run (.p n x m)) v.score n x m h
  rw [(frame_overtake g v.score v.serial v.run (.p n x m)).pred n (by simp)] at h1
  exact h1

/-- The writes of a list change only what they name. -/
theorem frame_put (c : Gang) (g : Group) (w : Nat) (l : List RegWrite) :
    Frame c.view.score g (c.put g w l) (l.flatMap wV) (l.flatMap wU) (l.flatMap wP) := by
  induction l generalizing g with
  | nil => exact frame_refl _ _ _ _ _
  | cons x l ih =>
    have h1 := frame_write g c.view w x
    have h2 := ih (g.write c.view w x)
    simp only [Gang.put, List.foldl_cons] at h2 ⊢
    simp only [List.flatMap_cons]
    exact frame_trans (frame_mono h1 (by simp) (by simp) (by simp)) (frame_mono h2 (by simp) (by simp) (by simp))

end Sys2Proof.Laws
end

