-- ==== Sys2Proof/Laws/Results.lean ====
section
/-! SUPPORT. The results of vector instructions: what a destination's writes leave in its lanes. -/

namespace Sys2Proof.Laws

open Sys2Proof.Machine

/-- The gang's view and its kernel agree on SCORE. -/
theorem gangOf_score {i : Instr} {s : State} {c : Gang} (h : gangOf i s = some c) : c.view.score = c.k.score := by
  unfold gangOf at h
  split at h
  · cases h
  · split at h
    · split at h
      · cases h; rfl
      · cases h
    · cases h

/-- A word whose meaning writes registers and goes on completes. -/
theorem completes_issue {i : Instr} {s : State} {c : Gang} {u : Uses} {body : Gang → Result} {g : Group} {n : Nat} {P : Group → Prop}
    (he : exec i s = issue i s u body) (h : Issues i s c u) (hb : body c = .done (spend (s.setGroup c.gid g) n)) (hp : P g) :
    Completes i s c n P :=
  ⟨g, by rw [he, issue_done h hb]; rfl, wentOn_onlyGroup s c g n, hp⟩

/-- The same for a word that must end its run. -/
theorem completes_issueLast {i : Instr} {s : State} {c : Gang} {u : Uses} {body : Gang → Result} {g : Group} {n : Nat} {P : Group → Prop}
    (he : exec i s = issueLast i s u body) (h : Issues i s c u) (hl : c.last = true)
    (hb : body c = .done (spend (s.setGroup c.gid g) n)) (hp : P g) : Completes i s c n P :=
  ⟨g, by rw [he, issueLast_done h hl hb]; rfl, wentOn_onlyGroup s c g n, hp⟩

@[simp] theorem spend_zero (s : State) : spend s 0 = s := rfl

theorem mixLines_val (a b : VLine) (m : BitVec 32) (l : Fin 32) :
    (mixLines a b m).val[l.val] = if bit m l.val then a.val[l.val] else b.val[l.val] := by
  simp [mixLines]

theorem mixLines_bnd (a b : VLine) (m : BitVec 32) (l : Fin 32) :
    (mixLines a b m).bnd[l.val] = if bit m l.val then a.bnd[l.val] else b.bnd[l.val] := by
  simp [mixLines]

theorem dstWrites_regs (wide : Bool) (d : Dst) (o : Opnd) (m : BitVec 32) :
    (dstWrites wide d o m).flatMap wV = destRegs wide d ∧ (dstWrites wide d o m).flatMap wU = [] ∧
      (dstWrites wide d o m).flatMap wP = [] := by
  cases d <;> cases wide <;> simp [dstWrites, destRegs, wV, wU, wP]

/-- The writes of a vector destination. -/
theorem vecResult_put (c : Gang) (w : Nat) (d : Dst) (wide : Bool) (o : Opnd) (m : BitVec 32)
    (hne : ∀ r, d = .reg r → wide = true → regNext r ≠ r) :
    VecResult c (c.put c.g w (dstWrites wide d o m)) d wide m
      (fun l v => v = if wide then o.val[l.val].toNat else o.val[l.val].toNat % 2 ^ 32) (fun l => o.bnd[l.val]) := by
  obtain ⟨e1, e2, e3⟩ := dstWrites_regs wide d o m
  have hf := frame_put c c.g w (dstWrites wide d o m)
  rw [e1, e2, e3] at hf
  cases d with
  | discard => refine ⟨hf, ?_, ?_⟩ <;> (intro r h; cases h)
  | reg r =>
    cases wide with
    | false =>
      have hl : (c.put c.g w (dstWrites false (.reg r) o m)).line c.view.score r = _ :=
        line_write_same c.g c.view w r _ m
      refine ⟨hf, fun q hq l hm => ?_, fun q hq l hm => ?_⟩
      · cases hq
        simp only [laneAt, boundAt, hl, mixLines_val, mixLines_bnd, hm]
        simp
      · cases hq
        simp only [laneAt, boundAt, hl, mixLines_val, mixLines_bnd, hm]
        simp
    | true =>
      have hn := hne r rfl rfl
      have hl0 (L : VLine) : (c.g.write c.view w (.v r L m)).line c.view.score (regNext r) = c.g.line c.view.score (regNext r) :=
        (frame_write c.g c.view w (.v r L m)).vec (regNext r) (by simpa [wV] using hn)
      have hlow (L M : VLine) : ((c.g.write c.view w (.v r L m)).write c.view w (.v (regNext r) M m)).line c.view.score r =
          mixLines L (c.g.line c.view.score r) m :=
        ((frame_write (c.g.write c.view w (.v r L m)) c.view w (.v (regNext r) M m)).vec r (by simpa [wV] using Ne.symm hn)).trans
          (line_write_same c.g c.view w r L m)
      have hl1 : (c.put c.g w (dstWrites true (.reg r) o m)).line c.view.score (regNext r) = _ :=
        line_write_same _ c.view w (regNext r) _ m
      have hl : (c.put c.g w (dstWrites true (.reg r) o m)).line c.view.score r = _ := hlow _ _
      refine ⟨hf, fun q hq l hm => ?_, fun q hq l hm => ?_⟩
      · cases hq
        simp only [laneAt, boundAt, hl, hl1, mixLines_val, mixLines_bnd, hm]
        simp
        omega
      · cases hq
        simp only [laneAt, boundAt, hl, hl1, hl0, mixLines_val, mixLines_bnd, hm]
        simp

end Sys2Proof.Laws
end

