-- ==== Sys2Proof/Laws/Control.lean ====
section
/-! SUPPORT. Control that acts on each slice of a gang. -/

namespace Sys2Proof.Laws

open Sys2Proof.Machine

theorem bit_maskOf_lt (w : Nat) (f : Nat → Bool) (n : Nat) (h : n < w) : bit (maskOf w f) n = f n := by
  have key : ∀ w, maskNat f w < 2 ^ w ∧ ∀ n < w, (maskNat f w).testBit n = f n := by
    intro w
    induction w with
    | zero => exact ⟨by simp [maskNat], fun n h => by omega⟩
    | succ w ih =>
      obtain ⟨h1, h2⟩ := ih
      constructor
      · simp only [maskNat]; split <;> rw [Nat.pow_succ] <;> omega
      · intro n hn
        simp only [maskNat]
        by_cases e : n = w
        · subst e
          cases hf : f n
          · simp [Nat.testBit_lt_two_pow h1]
          · simp only [if_true]
            rw [Nat.add_comm, Nat.testBit_two_pow_add_eq, Nat.testBit_lt_two_pow h1]
            rfl
        · have hlt : n < w := by omega
          cases hf : f w
          · simp [h2 n hlt]
          · simp only [if_true]
            rw [Nat.add_comm, Nat.testBit_two_pow_add_gt hlt]
            exact h2 n hlt
  simp only [bit, maskOf, BitVec.getLsbD_ofNat, h, decide_true, Bool.true_and]
  exact (key w).2 n h

theorem slice_eq (g : Group) (j : Fin 8) : g.slice j.val = g.slices[j.val] := by
  simp [Group.slice, j.isLt]

theorem mapSlices_get (g : Group) (m : BitVec 8) (f : Nat → Slice → Slice) (j : Fin 8) :
    (g.mapSlices m f).slices[j.val] = if bit m j.val then f j.val g.slices[j.val] else g.slices[j.val] := by
  simp [Group.mapSlices]

/-- Control that no slice refuses acts on each slice of the gang by itself. -/
theorem eachSlice_ok (c : Gang) (f : Nat → Slice → Except TrapInfo (Slice × Bool)) (r : Fin 8 → Slice × Bool)
    (h : ∀ j : Fin 8, bit c.run.slices j.val = true → f j.val c.g.slices[j.val] = .ok (r j)) :
    ∃ g m, c.eachSlice f = .ok (g, m) ∧ SliceResult c g m r := by
  have key : ∀ (l : List Nat), l.Nodup → (∀ i ∈ l, i < 8 ∧ bit c.run.slices i = true) → ∀ (g : Group) (m : BitVec 8),
      g = { c.g with slices := g.slices } → (∀ j : Fin 8, j.val ∈ l → g.slices[j.val] = c.g.slices[j.val] ∧ bit m j.val = false) →
      ∃ g' m', (l.foldl (fun acc i => match acc with
        | .error t => .error t
        | .ok (g, m) => match f i (g.slice i) with
          | .error t => .error t
          | .ok (sl, leave) => .ok (g.mapSlices (maskOf 8 fun j => decide (j = i)) (fun _ _ => sl),
              if leave then m ||| maskOf 8 fun j => decide (j = i) else m)) (.ok (g, m)) : Except TrapInfo (Group × BitVec 8)) = .ok (g', m') ∧
        g' = { c.g with slices := g'.slices } ∧ (∀ j : Fin 8, j.val ∈ l → g'.slices[j.val] = (r j).1 ∧ bit m' j.val = (r j).2) ∧
        ∀ j : Fin 8, j.val ∉ l → g'.slices[j.val] = g.slices[j.val] ∧ bit m' j.val = bit m j.val := by
    intro l
    induction l with
    | nil => exact fun _ _ g m hg _ => ⟨g, m, rfl, hg, by simp, fun j _ => ⟨rfl, rfl⟩⟩
    | cons i l ih =>
      intro hn hl g m hg hj
      obtain ⟨hi, hb⟩ := hl i (by simp)
      have hnot : i ∉ l := (List.nodup_cons.mp hn).1
      have h0 := hj ⟨i, hi⟩ (by simp)
      have hf := h ⟨i, hi⟩ hb
      have hs : f i (g.slice i) = .ok (r ⟨i, hi⟩) := by
        rw [← hf, ← h0.1]; exact congrArg (f i) (slice_eq g ⟨i, hi⟩)
      have hm : ∀ j : Fin 8, bit (if (r ⟨i, hi⟩).2 then m ||| maskOf 8 fun j => decide (j = i) else m) j.val =
          if j.val = i then (bit m j.val || (r ⟨i, hi⟩).2) else bit m j.val := by
        intro j
        have e : bit (m ||| maskOf 8 fun j => decide (j = i)) j.val = (bit m j.val || decide (j.val = i)) := by
          rw [← bit_maskOf_lt 8 (fun j => decide (j = i)) j.val j.isLt]; simp [bit]
        cases (r ⟨i, hi⟩).2
        · simp
        · simp only [if_true, e]
          by_cases hji : j.val = i <;> simp [hji]
      have hg1 : ∀ j : Fin 8, (g.mapSlices (maskOf 8 fun j => decide (j = i)) (fun _ _ => (r ⟨i, hi⟩).1)).slices[j.val] =
          if j.val = i then (r ⟨i, hi⟩).1 else g.slices[j.val] := by
        intro j
        rw [mapSlices_get, bit_maskOf_lt 8 _ _ j.isLt]
        by_cases hji : j.val = i <;> simp [hji]
      obtain ⟨g', m', e1, e2, e3, e4⟩ := ih (List.nodup_cons.mp hn).2 (fun k hk => hl k (by simp [hk]))
        (g.mapSlices (maskOf 8 fun j => decide (j = i)) (fun _ _ => (r ⟨i, hi⟩).1))
        (if (r ⟨i, hi⟩).2 then m ||| maskOf 8 fun j => decide (j = i) else m)
        (by rw [Group.mapSlices]; conv => lhs; rw [hg])
        (fun j hjl => by
          have hne : j.val ≠ i := fun e => hnot (e ▸ hjl)
          rw [hg1, hm, if_neg hne, if_neg hne]
          exact hj j (by simp [hjl]))
      refine ⟨g', m', ?_, e2, ?_, ?_⟩
      · rw [List.foldl_cons]
        simp only [hs]
        exact e1
      · intro j hjl
        by_cases hji : j.val = i
        · have e5 := e4 j (by rw [hji]; exact hnot)
          rw [hg1, hm, if_pos hji, if_pos hji] at e5
          have hjj : j = ⟨i, hi⟩ := Fin.ext hji
          have hbm : bit m j.val = false := by rw [hjj]; exact h0.2
          rw [hbm, Bool.false_or] at e5
          rw [← hjj] at e5
          exact e5
        · exact e3 j (by simpa [hji] using hjl)
      · intro j hjl
        have hji : j.val ≠ i := fun e => hjl (by simp [e])
        have e5 := e4 j (fun hk => hjl (by simp [hk]))
        rw [hg1, hm, if_neg hji, if_neg hji] at e5
        exact e5
  have hset : ∀ j : Fin 8, j.val ∈ setBitsOf c.run.slices ↔ bit c.run.slices j.val = true := by
    intro j; simp [setBitsOf, j.isLt]
  obtain ⟨g, m, e1, e2, e3, e4⟩ := key (setBitsOf c.run.slices) (List.Nodup.filter _ List.nodup_range)
    (fun i hi => by simpa [setBitsOf] using hi) c.g 0 rfl (fun j _ => ⟨rfl, by simp [bit]⟩)
  refine ⟨g, m, e1, e2, fun j hj => e3 j ((hset j).mpr hj), fun j hj => ?_⟩
  have := e4 j (fun hk => by rw [(hset j).mp hk] at hj; cases hj)
  exact ⟨this.1, by rw [this.2]; simp [bit]⟩

/-- The first slice that refuses stops the control of them all. -/
theorem eachSlice_error (c : Gang) (f : Nat → Slice → Except TrapInfo (Slice × Bool)) (t : TrapInfo)
    (h : ∀ i sl t', f i sl = .error t' → t' = t) (j : Fin 8) (hb : bit c.run.slices j.val = true)
    (hj : ∀ sl, sl = c.g.slices[j.val] → f j.val sl = .error t) : c.eachSlice f = .error t := by
  cases he : c.eachSlice f with
  | error t' =>
    have key : ∀ (l : List Nat) (acc : Except TrapInfo (Group × BitVec 8)), (∀ t', acc = .error t' → t' = t) →
        ∀ t', (l.foldl (fun acc i => match acc with
          | .error t => .error t
          | .ok (g, m) => match f i (g.slice i) with
            | .error t => .error t
            | .ok (sl, leave) => .ok (g.mapSlices (maskOf 8 fun j => decide (j = i)) (fun _ _ => sl),
                if leave then m ||| maskOf 8 fun j => decide (j = i) else m)) acc) = .error t' → t' = t := by
      intro l
      induction l with
      | nil => exact fun acc ha => ha
      | cons i l ih =>
        intro acc ha
        refine ih _ ?_
        intro t' ht'
        cases acc with
        | error t0 => exact ha t' ht'
        | ok p =>
          obtain ⟨g, m⟩ := p
          simp only at ht'
          split at ht'
          · rename_i t1 e1; cases ht'; exact h _ _ _ e1
          · cases ht'
    rw [key _ _ (fun t' e => by cases e) t' he]
  | ok p =>
    exfalso
    have key : ∀ (l : List Nat), l.Nodup → j.val ∈ l → ∀ (g : Group) (m : BitVec 8), g.slices[j.val] = c.g.slices[j.val] →
        ∀ p, (l.foldl (fun acc i => match acc with
          | .error t => .error t
          | .ok (g, m) => match f i (g.slice i) with
            | .error t => .error t
            | .ok (sl, leave) => .ok (g.mapSlices (maskOf 8 fun j => decide (j = i)) (fun _ _ => sl),
                if leave then m ||| maskOf 8 fun j => decide (j = i) else m)) (.ok (g, m)) : Except TrapInfo (Group × BitVec 8)) ≠ .ok p := by
      have err : ∀ (l : List Nat) (t0 : TrapInfo) p, (l.foldl (fun acc i => match acc with
          | .error t => .error t
          | .ok (g, m) => match f i (g.slice i) with
            | .error t => .error t
            | .ok (sl, leave) => .ok (g.mapSlices (maskOf 8 fun j => decide (j = i)) (fun _ _ => sl),
                if leave then m ||| maskOf 8 fun j => decide (j = i) else m)) (.error t0) : Except TrapInfo (Group × BitVec 8)) ≠ .ok p := by
        intro l
        induction l with
        | nil => intro t0 p e; cases e
        | cons i l ih => intro t0 p; exact ih t0 p
      intro l
      induction l with
      | nil => intro _ hm; cases hm
      | cons i l ih =>
        intro hn hm g m hg p
        rw [List.foldl_cons]
        by_cases hi : j.val = i
        · subst hi
          have : f j.val (g.slice j.val) = .error t := hj _ (by rw [slice_eq, hg])
          simp only [this]
          exact err _ _ _
        · have hjl : j.val ∈ l := by simpa [hi] using hm
          simp only
          split
          · exact err _ _ _
          · refine ih (List.nodup_cons.mp hn).2 hjl _ _ ?_ p
            rw [mapSlices_get, bit_maskOf_lt 8 _ _ j.isLt]
            simp [hi, hg]
    refine key (setBitsOf c.run.slices) (List.Nodup.filter _ List.nodup_range) ?_ c.g 0 rfl p he
    simp [setBitsOf, hb, j.isLt]

end Sys2Proof.Laws
end

