-- ==== Sys2Proof/Laws/Delivery.lean ====
section
/-! SUPPORT. What computed and long-latency results come to. -/

namespace Sys2Proof.Laws

open Sys2Proof.Machine

theorem vecResult_base (c : Gang) (h : Group) (w : Nat) (d : Dst) (wide : Bool) (o : Opnd) (m : BitVec 32)
    (hne : ∀ r, d = .reg r → wide = true → regNext r ≠ r) :
    VecResult { c with g := h } (c.put h w (dstWrites wide d o m)) d wide m
      (fun l v => v = if wide then o.val[l.val].toNat else o.val[l.val].toNat % 2 ^ 32) (fun l => o.bnd[l.val]) :=
  vecResult_put { c with g := h } w d wide o m hne

theorem mem_setBitsOf (m : BitVec 32) (l : Nat) : l ∈ setBitsOf m ↔ l < 32 ∧ bit m l = true := by
  simp [setBitsOf]

theorem bit_and_mask (m : BitVec 32) (f : Nat → Bool) (l : Nat) (h : l < 32) : bit (m &&& maskOf 32 f) l = (bit m l && f l) := by
  rw [← bit_maskOf_lt 32 f l h]; simp [bit]

theorem eq_zero_iff_bits (m : BitVec 32) : m = 0 ↔ ∀ l < 32, bit m l = false := by
  constructor
  · rintro rfl l _; simp [bit]
  · intro h
    apply BitVec.eq_of_getLsbD_eq
    intro i hi
    simpa [bit] using h i hi

theorem orFold_getLsbD {w : Nat} (l : List Nat) (f : Nat → BitVec w) (a : BitVec w) (j : Nat) :
    (l.foldl (fun a i => a ||| f i) a).getLsbD j = true ↔ a.getLsbD j = true ∨ ∃ i ∈ l, (f i).getLsbD j = true := by
  induction l generalizing a with
  | nil => simp
  | cons x l ih => rw [List.foldl_cons, ih]; simp [or_assoc]

/-- The gang's test of its lanes for enabled exceptions. -/
theorem raised_spec (c : Gang) (lanes : BitVec 32) (out : Nat → LaneOut) :
    (∀ l < 32, bit (raised c.g.fpEnable lanes fun l => (out l).flags).1 l = (bit lanes l && decide (enabledOf c out l ≠ 0))) ∧
    ∀ j, (raised c.g.fpEnable lanes fun l => (out l).flags).2.getLsbD j = true ↔
      ∃ l < 32, bit lanes l = true ∧ (enabledOf c out l).getLsbD j = true := by
  refine ⟨fun l hl => ?_, fun j => ?_⟩
  · simp only [raised]
    rw [bit_and_mask _ _ _ hl]
    rfl
  · simp only [raised]
    rw [orFold_getLsbD]
    simp [mem_setBitsOf, enabledOf, and_assoc]

theorem raised_none {c : Gang} {lanes : BitVec 32} {out : Nat → LaneOut} (h : ∀ l < 32, bit lanes l = true → enabledOf c out l = 0) :
    (raised c.g.fpEnable lanes fun l => (out l).flags).1 = 0 := by
  rw [eq_zero_iff_bits]
  intro l hl
  rw [(raised_spec c lanes out).1 l hl]
  cases hb : bit lanes l
  · rfl
  · simp [h l hl hb]

theorem lowestBit_none {m : BitVec 32} (h : lowestBit m = none) : m = 0 := by
  rw [eq_zero_iff_bits]
  intro l hl
  by_contra hb
  have : l ∈ setBitsOf m := (mem_setBitsOf m l).mpr ⟨hl, by simpa using hb⟩
  simp only [lowestBit, List.head?_eq_none_iff] at h
  rw [h] at this
  cases this

/-- The gang's test of its lanes for breaches of the budget. -/
theorem breach_spec (c : Gang) (s : State) (kind : Nat) (lanes : BitVec 32) (out : Nat → LaneOut) :
    (c.breach s kind lanes out = none ↔ ∀ l, ¬breaches c lanes out l) ∧
    ∀ b, c.breach s kind lanes out = some b → ∀ l < 32, b.mask.testBit l = true ↔ breaches c lanes out l := by
  unfold Gang.breach
  split
  · rename_i hu
    exact ⟨⟨fun _ l h => (by rw [h.1] at hu; cases hu), fun _ => rfl⟩, fun b h => by cases h⟩
  · rename_i hu
    simp only
    have hb : ∀ l < 32, bit (lanes &&& maskOf 32 fun l => exceeds (out l).bnd (c.view.budget (l / c.k.perSlice))) l = true ↔ breaches c lanes out l := by
      intro l hl
      rw [bit_and_mask _ _ _ hl]
      simp [breaches, hl, hu]
    split
    · rename_i hn
      have h0 := (eq_zero_iff_bits _).mp (lowestBit_none hn)
      refine ⟨⟨fun _ l h => ?_, fun _ => rfl⟩, fun b h => by cases h⟩
      have := h0 l h.2.1
      rw [(hb l h.2.1).mpr h] at this
      cases this
    · rename_i l hl
      have hmem : l ∈ setBitsOf (lanes &&& maskOf 32 fun l => exceeds (out l).bnd (c.view.budget (l / c.k.perSlice))) := by
        simp only [lowestBit] at hl
        exact List.mem_of_mem_head? hl
      obtain ⟨h1, h2⟩ := (mem_setBitsOf _ _).mp hmem
      refine ⟨⟨fun h => (by cases h), fun h => absurd ((hb l h1).mp h2) (h l)⟩, fun b h k hk => ?_⟩
      cases h
      rw [← hb k hk]
      rfl

/-- An instruction whose meaning delivers its results. -/
theorem deliver_delivers {i : Instr} {s : State} {c : Gang} {u : Uses} {body : Gang → Result} {tested wide : Bool} {w n : Nat} {d : Dst}
    {lanes : BitVec 32} {out : Nat → LaneOut} (he : exec i s = issue i s u body) (h : Issues i s c u)
    (hb : body c = c.deliver (spend s n) tested wide w d lanes out) (hne : ∀ r, d = .reg r → wide = true → regNext r ≠ r) :
    Delivers i s c tested wide n d lanes out := by
  have hcomp : ∀ fl, Computed c (c.put (c.g.stick fl) w (dstWrites wide d (outOpnd out) lanes)) d wide lanes out fl := by
    intro fl
    have hv := vecResult_base c (c.g.stick fl) w d wide (outOpnd out) lanes hne
    refine ⟨hv.frame, fun r hr l hm => ?_, hv.kept⟩
    obtain ⟨h1, h2, h3⟩ := hv.written r hr l hm
    refine ⟨?_, h2.trans (by simp [outOpnd]), fun hw => (h3 hw).trans (by simp [outOpnd])⟩
    rw [h1]
    cases wide
    · simp [outOpnd]
    · simp only [outOpnd, Vector.getElem_ofFn, ↓reduceIte]
      exact (Nat.mod_eq_of_lt (BitVec.isLt _)).symm
  have hr := raised_spec c lanes out
  refine ⟨?_, ?_, ?_, ?_⟩
  · rintro ⟨l, hl, hlm, hle⟩
    refine ⟨_, _, ?_, hr.1, fun j _ => hr.2 j⟩
    have hne0 : (raised c.g.fpEnable lanes fun l => (out l).flags).1 ≠ 0 := by
      intro e
      have := (eq_zero_iff_bits _).mp e l hl
      rw [hr.1 l hl, hlm] at this
      exact hle (by simpa using this)
    rw [he, issue_next h, hb]
    simp only [Gang.deliver, Gang.judge, hne0, ne_eq, not_false_eq_true, ↓reduceIte]
    rfl
  · intro hq ht hex hm
    have h0 := raised_none hq
    obtain ⟨l, hl⟩ := hex
    cases hbr : c.breach (spend s n) 0 lanes out with
    | none => exact absurd hl ((breach_spec c (spend s n) 0 lanes out).1.mp hbr l)
    | some b =>
      refine ⟨b, ?_, (breach_spec c (spend s n) 0 lanes out).2 b hbr⟩
      rw [he, issue_next h, hb]
      simp only [Gang.deliver, Gang.judge, h0, ne_eq, not_true_eq_false, ↓reduceIte, ht, hbr, hm]
      rfl
  · intro hq ht hex hm
    have h0 := raised_none hq
    obtain ⟨l, hl⟩ := hex
    cases hbr : c.breach (spend s n) 0 lanes out with
    | none => exact absurd hl ((breach_spec c (spend s n) 0 lanes out).1.mp hbr l)
    | some b =>
      refine ⟨_, b.card, ?_, hcomp _⟩
      rw [he, issue_next h, hb]
      simp only [Gang.deliver, Gang.judge, h0, ne_eq, not_true_eq_false, ↓reduceIte, ht, hbr, hm, OfNat.one_ne_ofNat]
      rfl
  · intro hq hor
    have h0 := raised_none hq
    refine completes_issue (g := c.put (c.g.stick (allFlags lanes fun l => (out l).flags)) w (dstWrites wide d (outOpnd out) lanes)) he h ?_ (hcomp _)
    have key : c.judge (spend s n) tested lanes out = .ok (allFlags lanes fun l => (out l).flags, none) := by
      simp only [Gang.judge, h0, ne_eq, not_true_eq_false, ↓reduceIte]
      rcases hor with rfl | hnb | hm
      · rfl
      · rw [(breach_spec c (spend s n) 0 lanes out).1.mpr hnb]; cases tested <;> rfl
      · cases tested
        · rfl
        · cases hbr : c.breach (spend s n) 0 lanes out <;> simp [hm]
    rw [hb, Gang.deliver, key]
    rfl

theorem overtake_pend_length (g : Group) (n run : Nat) (w : RegWrite) : (g.overtake n run w).pend.length = g.pend.length := by
  unfold Group.overtake
  split
  · rfl
  · simp

theorem frame_overtakeAll (score : Bool) (n run : Nat) (l : List RegWrite) (g : Group) :
    Frame score g (overtakeAll g n run l) [] [] [] ∧ (overtakeAll g n run l).pend.length = g.pend.length ∧
      (overtakeAll g n run l).cflags = g.cflags ∧ (overtakeAll g n run l).run = g.run := by
  induction l generalizing g with
  | nil => exact ⟨frame_refl _ _ _ _ _, rfl, rfl, rfl⟩
  | cons w l ih =>
    obtain ⟨h1, h2, h3, h4⟩ := ih (g.overtake n run w)
    have e3 : (g.overtake n run w).cflags = g.cflags := by unfold Group.overtake; split <;> rfl
    have e4 : (g.overtake n run w).run = g.run := by unfold Group.overtake; split <;> rfl
    exact ⟨frame_trans (frame_overtake g score n run w) h1, h2.trans (overtake_pend_length g n run w), h3.trans e3, h4.trans e4⟩

theorem bit_flagBit (f : Fin 12) (j : Fin 12) : bit (flagBit f) j.val = decide (f = j) := by
  revert f j; decide

/-- The completion flags with one more set. -/
def withFlag (cf : BitVec 12) : Option (Fin 12) → BitVec 12
  | some n => cf ||| flagBit n
  | none => cf

/-- A long-latency word whose flag is free issues. -/
theorem launch_launches {i : Instr} {s : State} {c : Gang} {u : Uses} {body : Gang → Result} {n : Nat} {p : Pending} {takes hold : Bool}
    (he : exec i s = issue i s u body) (h : Issues i s c u) (hb : body c = c.launch (spend s n) c.g p takes hold)
    (hf : takes = true → flagFree c) : Launches i s c n p takes hold := by
  have hgo : ∀ f, f = (if takes then c.nextFlag else none) → c.launch (spend s n) c.g p takes hold = Gang.launch.go c (spend s n) c.g p hold f := by
    intro f e
    subst e
    cases takes
    · rfl
    · simp only [Gang.launch, ↓reduceIte]
      split
      · rename_i m hm
        rw [if_neg (by simp [hf rfl m hm])]
      · rename_i hm; rw [hm]
  obtain ⟨f, hfe⟩ : ∃ f, f = (if takes then c.nextFlag else none) := ⟨_, rfl⟩
  have e := hgo f hfe
  obtain ⟨h1, h2, h3, h4⟩ := frame_overtakeAll c.view.score c.view.serial c.run.id p.writes c.g
  obtain ⟨k, hk⟩ : ∃ k, k = overtakeAll c.g c.view.serial c.run.id p.writes := ⟨_, rfl⟩
  rw [← hk] at h1 h2 h3 h4
  refine ⟨{ k with cflags := withFlag c.g.cflags f, pend := k.pend ++ [{ p with flag := f, holds := hold }], run := k.run.map fun r => takeFlag r f }, ⟨⟨k.pend, by rw [hfe], h2⟩, ?_, ?_⟩, ?_⟩
  · intro j
    cases takes
    · subst hfe; simp [withFlag]
    · simp only [↓reduceIte] at hfe
      subst hfe
      cases hn : c.nextFlag with
      | none => simp [withFlag]
      | some m =>
        have e2 : bit (c.g.cflags ||| flagBit m) j.val = (bit c.g.cflags j.val || bit (flagBit m) j.val) := BitVec.getLsbD_or
        simp only [withFlag, e2, bit_flagBit, Bool.true_and, Option.some.injEq]
  · have e1 := h1.rest
    refine ⟨fun r hr => (line_other_fields _ _ _ rfl rfl r).trans (h1.vec r hr), fun n hn => h1.uni n hn, fun n hn => h1.pred n hn, ?_⟩
    conv => lhs; rw [e1]
  · rw [he, issue_next h, hb, e]
    subst hk
    cases f <;> cases hold <;> rfl

end Sys2Proof.Laws
end

