-- ==== Sys2Proof/Laws/Dispatch.lean ====
section
/-! SUPPORT. The meaning of each constructor, one equation each. -/

namespace Sys2Proof.Laws

open Sys2Proof.Machine

theorem exec_nop (s : State) : exec .nop s = execNop s := rfl
theorem exec_bra (off : BitVec 24) (s : State) : exec (.bra off) s = execBra off s := rfl
theorem exec_brx (a : Src) (s : State) : exec (.brx a) s = execBrx a s := rfl
theorem exec_join (s : State) : exec .join s = execJoin s := rfl
theorem exec_call (off : BitVec 24) (s : State) : exec (.call off) s = execCall off s := rfl
theorem exec_ret (s : State) : exec .ret s = execRet s := rfl
theorem exec_regang (s : State) : exec .regang s = execRegang s := rfl
theorem exec_loops (d : UReg) (off : BitVec 16) (s : State) : exec (.loops d off) s = execLoops d off s := rfl
theorem exec_exit (s : State) : exec .exit s = execExit s := rfl
theorem exec_yield (s : State) : exec .yield s = execYield s := rfl
theorem exec_brkp (n : BitVec 16) (s : State) : exec (.brkp n) s = execBrkp n s := rfl
theorem exec_setm (m : BitVec 24) (s : State) : exec (.setm m) s = execSetm m s := rfl
theorem exec_setmr (a : UReg) (s : State) : exec (.setmr a) s = execSetmr a s := rfl
theorem exec_ipref (count : BitVec 4) (off : BitVec 20) (s : State) : exec (.ipref count off) s = execIpref count off s := rfl
theorem exec_iadd (d : Dst) (a : Src) (b : Src) (s : State) : exec (.iadd d a b) s = execIadd d a b s := rfl
theorem exec_isub (d : Dst) (a : Src) (b : Src) (s : State) : exec (.isub d a b) s = execIsub d a b s := rfl
theorem exec_imul (d : Dst) (a : Src) (b : Src) (s : State) : exec (.imul d a b) s = execImul d a b s := rfl
theorem exec_imulh (d : Dst) (a : Src) (b : Src) (s : State) : exec (.imulh d a b) s = execImulh d a b s := rfl
theorem exec_imad (d : Dst) (a : Src) (b : Src) (s : State) : exec (.imad d a b) s = execImad d a b s := rfl
theorem exec_imin (d : Dst) (a : Src) (b : Src) (s : State) : exec (.imin d a b) s = execImin d a b s := rfl
theorem exec_imax (d : Dst) (a : Src) (b : Src) (s : State) : exec (.imax d a b) s = execImax d a b s := rfl
theorem exec_iabs (d : Dst) (a : Src) (s : State) : exec (.iabs d a) s = execIabs d a s := rfl
theorem exec_and (d : Dst) (a : Src) (b : Src) (s : State) : exec (.and d a b) s = execAnd d a b s := rfl
theorem exec_or (d : Dst) (a : Src) (b : Src) (s : State) : exec (.or d a b) s = execOr d a b s := rfl
theorem exec_xor (d : Dst) (a : Src) (b : Src) (s : State) : exec (.xor d a b) s = execXor d a b s := rfl
theorem exec_andn (d : Dst) (a : Src) (b : Src) (s : State) : exec (.andn d a b) s = execAndn d a b s := rfl
theorem exec_shl (d : Dst) (a : Src) (b : Src) (s : State) : exec (.shl d a b) s = execShl d a b s := rfl
theorem exec_shr (d : Dst) (a : Src) (b : Src) (s : State) : exec (.shr d a b) s = execShr d a b s := rfl
theorem exec_sar (d : Dst) (a : Src) (b : Src) (s : State) : exec (.sar d a b) s = execSar d a b s := rfl
theorem exec_rotl (d : Dst) (a : Src) (b : Src) (s : State) : exec (.rotl d a b) s = execRotl d a b s := rfl
theorem exec_bfe (d : Dst) (a : Src) (b : Src) (s : State) : exec (.bfe d a b) s = execBfe d a b s := rfl
theorem exec_bfi (d : Dst) (a : Src) (b : Src) (s : State) : exec (.bfi d a b) s = execBfi d a b s := rfl
theorem exec_clz (d : Dst) (a : Src) (s : State) : exec (.clz d a) s = execClz d a s := rfl
theorem exec_popc (d : Dst) (a : Src) (s : State) : exec (.popc d a) s = execPopc d a s := rfl
theorem exec_brev (d : Dst) (a : Src) (s : State) : exec (.brev d a) s = execBrev d a s := rfl
theorem exec_icmp (p : PReg) (cond : BitVec 5) (a : Src) (b : Src) (s : State) : exec (.icmp p cond a b) s = execIcmp p cond a b s := rfl
theorem exec_sel (d : Dst) (a : Src) (b : Src) (s : State) : exec (.sel d a b) s = execSel d a b s := rfl
theorem exec_mov (d : Dst) (a : Src) (s : State) : exec (.mov d a) s = execMov d a s := rfl
theorem exec_movi (d : Dst) (imm : BitVec 16) (pfx : Option (BitVec 24)) (s : State) : exec (.movi d imm pfx) s = execMovi d imm pfx s := rfl
theorem exec_iaddi (d : Dst) (a : Src) (imm : BitVec 8) (pfx : Option (BitVec 24)) (s : State) : exec (.iaddi d a imm pfx) s = execIaddi d a imm pfx s := rfl
theorem exec_lea64 (d : Dst) (a : Src) (b : Src) (s : State) : exec (.lea64 d a b) s = execLea64 d a b s := rfl
theorem exec_iadd64 (d : Dst) (a : Src) (b : Src) (s : State) : exec (.iadd64 d a b) s = execIadd64 d a b s := rfl
theorem exec_pset (p : PReg) (f : BitVec 4) (pa : PReg) (pb : PReg) (s : State) : exec (.pset p f pa pb) s = execPset p f pa pb s := rfl
theorem exec_shi (d : Dst) (a : Src) (kind : BitVec 2) (amount : BitVec 6) (s : State) : exec (.shi d a kind amount) s = execShi d a kind amount s := rfl
theorem exec_sadd (d : UReg) (a : UReg) (b : UReg) (s : State) : exec (.sadd d a b) s = execSadd d a b s := rfl
theorem exec_ssub (d : UReg) (a : UReg) (b : UReg) (s : State) : exec (.ssub d a b) s = execSsub d a b s := rfl
theorem exec_smul (d : UReg) (a : UReg) (b : UReg) (s : State) : exec (.smul d a b) s = execSmul d a b s := rfl
theorem exec_sand (d : UReg) (a : UReg) (b : UReg) (s : State) : exec (.sand d a b) s = execSand d a b s := rfl
theorem exec_sor (d : UReg) (a : UReg) (b : UReg) (s : State) : exec (.sor d a b) s = execSor d a b s := rfl
theorem exec_sxor (d : UReg) (a : UReg) (b : UReg) (s : State) : exec (.sxor d a b) s = execSxor d a b s := rfl
theorem exec_sshl (d : UReg) (a : UReg) (b : UReg) (s : State) : exec (.sshl d a b) s = execSshl d a b s := rfl
theorem exec_sshr (d : UReg) (a : UReg) (b : UReg) (s : State) : exec (.sshr d a b) s = execSshr d a b s := rfl
theorem exec_smovi (d : UReg) (imm : BitVec 16) (pfx : Option (BitVec 24)) (s : State) : exec (.smovi d imm pfx) s = execSmovi d imm pfx s := rfl
theorem exec_smov (d : UReg) (a : UReg) (s : State) : exec (.smov d a) s = execSmov d a s := rfl
theorem exec_scmp (p : PReg) (cond : BitVec 5) (a : UReg) (b : UReg) (s : State) : exec (.scmp p cond a b) s = execScmp p cond a b s := rfl
theorem exec_srdsr (d : UReg) (number : BitVec 16) (s : State) : exec (.srdsr d number) s = execSrdsr d number s := rfl
theorem exec_swrsr (a : UReg) (number : BitVec 16) (s : State) : exec (.swrsr a number) s = execSwrsr a number s := rfl
theorem exec_vtos (d : UReg) (a : Src) (lane : BitVec 8) (s : State) : exec (.vtos d a lane) s = execVtos d a lane s := rfl
theorem exec_stov (d : Dst) (a : UReg) (s : State) : exec (.stov d a) s = execStov d a s := rfl
theorem exec_sminmax (d : UReg) (a : UReg) (b : UReg) (s : State) : exec (.sminmax d a b) s = execSminmax d a b s := rfl
theorem exec_fadd (d : Dst) (a : Src) (b : Src) (m : Option Cxp) (s : State) : exec (.fadd d a b m) s = execFadd d a b m s := rfl
theorem exec_fsub (d : Dst) (a : Src) (b : Src) (m : Option Cxp) (s : State) : exec (.fsub d a b m) s = execFsub d a b m s := rfl
theorem exec_fmul (d : Dst) (a : Src) (b : Src) (m : Option Cxp) (s : State) : exec (.fmul d a b m) s = execFmul d a b m s := rfl
theorem exec_fma (d : Dst) (a : Src) (b : Src) (m : Option Cxp) (s : State) : exec (.fma d a b m) s = execFma d a b m s := rfl
theorem exec_ffma (d : Dst) (a : Src) (b : Src) (m : Option Cxp) (s : State) : exec (.ffma d a b m) s = execFfma d a b m s := rfl
theorem exec_fmin (d : Dst) (a : Src) (b : Src) (m : Option Cxp) (s : State) : exec (.fmin d a b m) s = execFmin d a b m s := rfl
theorem exec_fmax (d : Dst) (a : Src) (b : Src) (m : Option Cxp) (s : State) : exec (.fmax d a b m) s = execFmax d a b m s := rfl
theorem exec_fcmp (p : PReg) (cond : BitVec 5) (a : Src) (b : Src) (m : Option Cxp) (s : State) : exec (.fcmp p cond a b m) s = execFcmp p cond a b m s := rfl
theorem exec_fclass (d : Dst) (a : Src) (mask : BitVec 8) (s : State) : exec (.fclass d a mask) s = execFclass d a mask s := rfl
theorem exec_frnd (d : Dst) (a : Src) (s : State) : exec (.frnd d a) s = execFrnd d a s := rfl
theorem exec_fscale (d : Dst) (a : Src) (b : Src) (s : State) : exec (.fscale d a b) s = execFscale d a b s := rfl
theorem exec_fdot2 (d : Dst) (a : Src) (b : Src) (m : Option Cxp) (s : State) : exec (.fdot2 d a b m) s = execFdot2 d a b m s := rfl
theorem exec_fdot4 (d : Dst) (a : Src) (b : Src) (m : Option Cxp) (s : State) : exec (.fdot4 d a b m) s = execFdot4 d a b m s := rfl
theorem exec_fcpys (d : Dst) (a : Src) (b : Src) (s : State) : exec (.fcpys d a b) s = execFcpys d a b s := rfl
theorem exec_bget (d : Dst) (a : Src) (s : State) : exec (.bget d a) s = execBget d a s := rfl
theorem exec_bset (d : Dst) (a : Src) (b : Src) (s : State) : exec (.bset d a b) s = execBset d a b s := rfl
theorem exec_badd (d : Dst) (a : Src) (b : Src) (s : State) : exec (.badd d a b) s = execBadd d a b s := rfl
theorem exec_bclr (d : Dst) (a : Src) (s : State) : exec (.bclr d a) s = execBclr d a s := rfl
theorem exec_bmaxr (d : UReg) (a : Src) (s : State) : exec (.bmaxr d a) s = execBmaxr d a s := rfl
theorem exec_setb (src : SetbSrc) (s : State) : exec (.setb src) s = execSetb src s := rfl
theorem exec_bchk (p : PReg) (a : Src) (s : State) : exec (.bchk p a) s = execBchk p a s := rfl
theorem exec_brep (d : UReg) (k : BitVec 3) (s : State) : exec (.brep d k) s = execBrep d k s := rfl
theorem exec_flags (d : UReg) (clear : BitVec 9) (s : State) : exec (.flags d clear) s = execFlags d clear s := rfl
theorem exec_rcp (d : Dst) (a : Src) (s : State) : exec (.rcp d a) s = execRcp d a s := rfl
theorem exec_rsq (d : Dst) (a : Src) (s : State) : exec (.rsq d a) s = execRsq d a s := rfl
theorem exec_sqrt (d : Dst) (a : Src) (s : State) : exec (.sqrt d a) s = execSqrt d a s := rfl
theorem exec_exp2 (d : Dst) (a : Src) (s : State) : exec (.exp2 d a) s = execExp2 d a s := rfl
theorem exec_log2 (d : Dst) (a : Src) (s : State) : exec (.log2 d a) s = execLog2 d a s := rfl
theorem exec_sinpi (d : Dst) (a : Src) (s : State) : exec (.sinpi d a) s = execSinpi d a s := rfl
theorem exec_cospi (d : Dst) (a : Src) (s : State) : exec (.cospi d a) s = execCospi d a s := rfl
theorem exec_tanh (d : Dst) (a : Src) (s : State) : exec (.tanh d a) s = execTanh d a s := rfl
theorem exec_sigm (d : Dst) (a : Src) (s : State) : exec (.sigm d a) s = execSigm d a s := rfl
theorem exec_fdivf (d : Dst) (a : Src) (b : Src) (s : State) : exec (.fdivf d a b) s = execFdivf d a b s := rfl
theorem exec_cvt (d : Dst) (a : Src) (part : BitVec 3) (src : BitVec 5) (s : State) : exec (.cvt d a part src) s = execCvt d a part src s := rfl
theorem exec_pack (d : Dst) (a : VFirst) (s : State) : exec (.pack d a) s = execPack d a s := rfl
theorem exec_unpk (d : VFirst) (a : Src) (count : BitVec 3) (first : BitVec 3) (s : State) : exec (.unpk d a count first) s = execUnpk d a count first s := rfl
theorem exec_qblk (d : Dst) (a : VFirst) (fit : Bool) (b16 : Bool) (s : State) : exec (.qblk d a fit b16) s = execQblk d a fit b16 s := rfl
theorem exec_qapply (d : Dst) (a : VFirst) (b : Src) (s : State) : exec (.qapply d a b) s = execQapply d a b s := rfl
theorem exec_dq (d : VFirst) (a : Src) (b : Src) (s : State) : exec (.dq d a b) s = execDq d a b s := rfl
theorem exec_dech (d : VFirst) (a : UReg) (t : TileNo) (s : State) : exec (.dech d a t) s = execDech d a t s := rfl
theorem exec_decht (d : TileNo) (a : UReg) (t : TileNo) (s : State) : exec (.decht d a t) s = execDecht d a t s := rfl
theorem exec_decz (d : VFirst) (a : UReg) (t : TileNo) (s : State) : exec (.decz d a t) s = execDecz d a t s := rfl
theorem exec_decst (d : UReg) (s : State) : exec (.decst d) s = execDecst d s := rfl
theorem exec_ctab (t : TileNo) (a : UReg) (r : RecNo) (s : State) : exec (.ctab t a r) s = execCtab t a r s := rfl
theorem exec_shfl (d : Dst) (a : Src) (b : Src) (s : State) : exec (.shfl d a b) s = execShfl d a b s := rfl
theorem exec_shflx (d : Dst) (a : Src) (kind : BitVec 2) (rel : Bool) (n : BitVec 5) (s : State) : exec (.shflx d a kind rel n) s = execShflx d a kind rel n s := rfl
theorem exec_bcst (d : Dst) (a : Src) (lane : BitVec 8) (s : State) : exec (.bcst d a lane) s = execBcst d a lane s := rfl
theorem exec_vote (p : PReg) (comb : BitVec 2) (kind : BitVec 2) (src : PReg) (s : State) : exec (.vote p comb kind src) s = execVote p comb kind src s := rfl
theorem exec_ballot (d : UReg) (src : PReg) (s : State) : exec (.ballot d src) s = execBallot d src s := rfl
theorem exec_redl (d : Dst) (a : Src) (op : BitVec 3) (seg : Bool) (sp : PReg) (s : State) : exec (.redl d a op seg sp) s = execRedl d a op seg sp s := rfl
theorem exec_scanl (d : Dst) (a : Src) (op : BitVec 3) (seg : Bool) (excl : Bool) (sp : PReg) (s : State) : exec (.scanl d a op seg excl sp) s = execScanl d a op seg excl sp s := rfl
theorem exec_rwalk (d : UReg) (a : Src) (b : UReg) (s : State) : exec (.rwalk d a b) s = execRwalk d a b s := rfl
theorem exec_rnext (d : VFirst) (a : UReg) (b : Src) (s : State) : exec (.rnext d a b) s = execRnext d a b s := rfl
theorem exec_segm (p : PReg) (a : Src) (tail : Bool) (s : State) : exec (.segm p a tail) s = execSegm p a tail s := rfl
theorem exec_ld (d : Dst) (o : Src) (rt : RT) (s : State) : exec (.ld d o rt) s = execLd d o rt s := rfl
theorem exec_st (data : Src) (o : Src) (rt : RT) (s : State) : exec (.st data o rt) s = execSt data o rt s := rfl
theorem exec_ldg (d : Dst) (a : Src) (decl : Bool) (s : State) : exec (.ldg d a decl) s = execLdg d a decl s := rfl
theorem exec_stg (data : Src) (a : Src) (s : State) : exec (.stg data a) s = execStg data a s := rfl
theorem exec_sld (d : UReg) (o : Src) (r : RecNo) (s : State) : exec (.sld d o r) s = execSld d o r s := rfl
theorem exec_sst (data : UReg) (o : Src) (r : RecNo) (s : State) : exec (.sst data o r) s = execSst data o r s := rfl
theorem exec_pref (hub : Bool) (o : Src) (r : RecNo) (s : State) : exec (.pref hub o r) s = execPref hub o r s := rfl
theorem exec_cctl (op : BitVec 2) (o : Src) (r : RecNo) (s : State) : exec (.cctl op o r) s = execCctl op o r s := rfl
theorem exec_talloc (h : TileNo) (a : UReg) (s : State) : exec (.talloc h a) s = execTalloc h a s := rfl
theorem exec_tfree (h : TileNo) (s : State) : exec (.tfree h) s = execTfree h s := rfl
theorem exec_tinfo (d : UReg) (h : TileNo) (s : State) : exec (.tinfo d h) s = execTinfo d h s := rfl
theorem exec_tld (d : Dst) (o : Src) (h : TileNo) (s : State) : exec (.tld d o h) s = execTld d o h s := rfl
theorem exec_tst (data : Src) (o : Src) (h : TileNo) (s : State) : exec (.tst data o h) s = execTst data o h s := rfl
theorem exec_tldt (d : VFirst) (o : Src) (h : TileNo) (s : State) : exec (.tldt d o h) s = execTldt d o h s := rfl
theorem exec_tfill (data : Src) (o : Src) (h : TileNo) (s : State) : exec (.tfill data o h) s = execTfill data o h s := rfl
theorem exec_tldx (d : Dst) (o : Src) (h : TileNo) (s : State) : exec (.tldx d o h) s = execTldx d o h s := rfl
theorem exec_tstx (data : Src) (o : Src) (h : TileNo) (s : State) : exec (.tstx data o h) s = execTstx data o h s := rfl
theorem exec_recsync (r : Option RecNo) (s : State) : exec (.recsync r) s = execRecsync r s := rfl
theorem exec_aadd (d : Dst) (o : Src) (rt : RT) (s : State) : exec (.aadd d o rt) s = execAadd d o rt s := rfl
theorem exec_aand (d : Dst) (o : Src) (rt : RT) (s : State) : exec (.aand d o rt) s = execAand d o rt s := rfl
theorem exec_aor (d : Dst) (o : Src) (rt : RT) (s : State) : exec (.aor d o rt) s = execAor d o rt s := rfl
theorem exec_axor (d : Dst) (o : Src) (rt : RT) (s : State) : exec (.axor d o rt) s = execAxor d o rt s := rfl
theorem exec_amin (d : Dst) (o : Src) (rt : RT) (s : State) : exec (.amin d o rt) s = execAmin d o rt s := rfl
theorem exec_amax (d : Dst) (o : Src) (rt : RT) (s : State) : exec (.amax d o rt) s = execAmax d o rt s := rfl
theorem exec_axchg (d : Dst) (o : Src) (rt : RT) (s : State) : exec (.axchg d o rt) s = execAxchg d o rt s := rfl
theorem exec_acas (d : VFirst) (o : Src) (rt : RT) (s : State) : exec (.acas d o rt) s = execAcas d o rt s := rfl
theorem exec_aincw (d : Dst) (o : Src) (rt : RT) (s : State) : exec (.aincw d o rt) s = execAincw d o rt s := rfl
theorem exec_aaddb (d : VFirst) (o : Src) (rt : RT) (s : State) : exec (.aaddb d o rt) s = execAaddb d o rt s := rfl
theorem exec_afadd (d : Dst) (o : Src) (rt : RT) (s : State) : exec (.afadd d o rt) s = execAfadd d o rt s := rfl
theorem exec_redadd (data : Src) (o : Src) (rt : RT) (s : State) : exec (.redadd data o rt) s = execRedadd data o rt s := rfl
theorem exec_redfadd (data : Src) (o : Src) (rt : RT) (s : State) : exec (.redfadd data o rt) s = execRedfadd data o rt s := rfl
theorem exec_redmin (data : Src) (o : Src) (rt : RT) (s : State) : exec (.redmin data o rt) s = execRedmin data o rt s := rfl
theorem exec_redmax (data : Src) (o : Src) (rt : RT) (s : State) : exec (.redmax data o rt) s = execRedmax data o rt s := rfl
theorem exec_rflush (s : State) : exec .rflush s = execRflush s := rfl
theorem exec_bar (p : PReg) (grid : Bool) (cnt : Option UReg) (num : Fin 16) (s : State) : exec (.bar p grid cnt num) s = execBar p grid cnt num s := rfl
theorem exec_bara (grid : Bool) (cnt : Option UReg) (num : Fin 16) (s : State) : exec (.bara grid cnt num) s = execBara grid cnt num s := rfl
theorem exec_barw (p : PReg) (grid : Bool) (num : Fin 16) (s : State) : exec (.barw p grid num) s = execBarw p grid num s := rfl
theorem exec_bart (p : PReg) (grid : Bool) (num : Fin 16) (s : State) : exec (.bart p grid num) s = execBart p grid num s := rfl
theorem exec_wait (ld : BitVec 6) (st : BitVec 6) (cp : BitVec 6) (mx : BitVec 6) (s : State) : exec (.wait ld st cp mx) s = execWait ld st cp mx s := rfl
theorem exec_waitr (counter : BitVec 2) (a : UReg) (s : State) : exec (.waitr counter a) s = execWaitr counter a s := rfl
theorem exec_waita (d : UReg) (o : Src) (rt : RT) (s : State) : exec (.waita d o rt) s = execWaita d o rt s := rfl
theorem exec_mbatch (d : Option UReg) (s : State) : exec (.mbatch d) s = execMbatch d s := rfl
theorem exec_fence (kind : BitVec 2) (scope : Scope) (s : State) : exec (.fence kind scope) s = execFence kind scope s := rfl
theorem exec_pbar (cum : Bool) (s : State) : exec (.pbar cum) s = execPbar cum s := rfl
theorem exec_stsig (data : Src) (o : Src) (rt : RT) (s : State) : exec (.stsig data o rt) s = execStsig data o rt s := rfl
theorem exec_cpy (a : UReg) (s : State) : exec (.cpy a) s = execCpy a s := rfl
theorem exec_cpyo (a : UReg) (b : Src) (s : State) : exec (.cpyo a b) s = execCpyo a b s := rfl
theorem exec_cpyg (a : UReg) (s : State) : exec (.cpyg a) s = execCpyg a s := rfl
theorem exec_cpys (a : UReg) (s : State) : exec (.cpys a) s = execCpys a s := rfl
theorem exec_cpyt (a : UReg) (s : State) : exec (.cpyt a) s = execCpyt a s := rfl
theorem exec_engsv (d : UReg) (s : State) : exec (.engsv d) s = execEngsv d s := rfl
theorem exec_engrs (a : UReg) (s : State) : exec (.engrs a) s = execEngrs a s := rfl
theorem exec_mma (acc : Fin 16) (hA : TileNo) (hB : TileNo) (na : Bool) (nb : Bool) (z : Bool) (r : Bool) (p : BitVec 3) (pair : Bool) (s : State) : exec (.mma acc hA hB na nb z r p pair) s = execMma acc hA hB na nb z r p pair s := rfl
theorem exec_mshape (a : UReg) (s : State) : exec (.mshape a) s = execMshape a s := rfl
theorem exec_accz (mask : BitVec 16) (s : State) : exec (.accz mask) s = execAccz mask s := rfl
theorem exec_accrd (d : VFirst) (acc : Fin 16) (count : BitVec 4) (b : UReg) (s : State) : exec (.accrd d acc count b) s = execAccrd d acc count b s := rfl
theorem exec_accwr (d : VFirst) (acc : Fin 16) (count : BitVec 4) (b : UReg) (s : State) : exec (.accwr d acc count b) s = execAccwr d acc count b s := rfl
theorem exec_msave (t : TileNo) (s : State) : exec (.msave t) s = execMsave t s := rfl
theorem exec_mres (t : TileNo) (s : State) : exec (.mres t) s = execMres t s := rfl
theorem exec_mscale (a : UReg) (s : State) : exec (.mscale a) s = execMscale a s := rfl
theorem exec_enq (d : UReg) (a : UReg) (q : BitVec 6) (s : State) : exec (.enq d a q) s = execEnq d a q s := rfl
theorem exec_ctxdead (first : VFirst) (count : BitVec 8) (s : State) : exec (.ctxdead first count) s = execCtxdead first count s := rfl
theorem exec_ctxpin (first : VFirst) (count : BitVec 8) (pin : Bool) (s : State) : exec (.ctxpin first count pin) s = execCtxpin first count pin s := rfl
theorem exec_unseat (s : State) : exec .unseat s = execUnseat s := rfl
theorem exec_semsig (a : UReg) (b : UReg) (s : State) : exec (.semsig a b) s = execSemsig a b s := rfl
theorem exec_trap (n : BitVec 16) (s : State) : exec (.trap n) s = execTrap n s := rfl
theorem exec_tret (mode : BitVec 2) (s : State) : exec (.tret mode) s = execTret mode s := rfl
theorem exec_rdtrap (d : UReg) (k : BitVec 3) (s : State) : exec (.rdtrap d k) s = execRdtrap d k s := rfl
theorem exec_rdctx (d : UReg) (a : UReg) (s : State) : exec (.rdctx d a) s = execRdctx d a s := rfl
theorem exec_wrctx (a : UReg) (b : UReg) (s : State) : exec (.wrctx a b) s = execWrctx a b s := rfl
theorem exec_pmc (d : UReg) (counter : BitVec 6) (s : State) : exec (.pmc d counter) s = execPmc d counter s := rfl
theorem exec_errlog (d : UReg) (a : UReg) (b : UReg) (s : State) : exec (.errlog d a b) s = execErrlog d a b s := rfl
theorem exec_lmma3 (d : BitVec 8) (a : BitVec 8) (b : BitVec 8) (s : State) : exec (.lmma3 d a b) s = execLmma3 d a b s := rfl
theorem exec_llds (d : BitVec 8) (a : BitVec 8) (b : BitVec 8) (s : State) : exec (.llds d a b) s = execLlds d a b s := rfl
theorem exec_lsts (d : BitVec 8) (a : BitVec 8) (b : BitVec 8) (s : State) : exec (.lsts d a b) s = execLsts d a b s := rfl
theorem exec_lbar (d : BitVec 8) (a : BitVec 8) (b : BitVec 8) (s : State) : exec (.lbar d a b) s = execLbar d a b s := rfl
theorem exec_hintFd (x : BitVec 24) (s : State) : exec (.hintFd x) s = execHintFd x s := rfl
theorem exec_hintFe (x : BitVec 24) (s : State) : exec (.hintFe x) s = execHintFe x s := rfl
theorem exec_illegalOpcode (x : BitVec 24) (s : State) : exec (.illegalOpcode x) s = execIllegalOpcode x s := rfl
theorem exec_reservedOpcode (op : BitVec 8) (x : BitVec 24) (s : State) : exec (.reservedOpcode op x) s = execReservedOpcode op x s := rfl
theorem exec_pick (quarter : Nat) (s : State) : exec (.pick quarter) s = execPick quarter s := rfl
theorem exec_icacheFill (quarter : Nat) (s : State) : exec (.icacheFill quarter) s = execIcacheFill quarter s := rfl
theorem exec_sfuResult (gid : Nat) (s : State) : exec (.sfuResult gid) s = execSfuResult gid s := rfl
theorem exec_xlaneResult (gid : Nat) (s : State) : exec (.xlaneResult gid) s = execXlaneResult gid s := rfl
theorem exec_conversionResult (gid : Nat) (s : State) : exec (.conversionResult gid) s = execConversionResult gid s := rfl
theorem exec_ldStepComplete (gid : Nat) (s : State) : exec (.ldStepComplete gid) s = execLdStepComplete gid s := rfl
theorem exec_stStepComplete (gid : Nat) (s : State) : exec (.stStepComplete gid) s = execStStepComplete gid s := rfl
theorem exec_atomicLanePerform (gid : Nat) (s : State) : exec (.atomicLanePerform gid) s = execAtomicLanePerform gid s := rfl
theorem exec_heldFaultEntry (part : Nat) (s : State) : exec (.heldFaultEntry part) s = execHeldFaultEntry part s := rfl
theorem exec_faultReplay (gid : Nat) (s : State) : exec (.faultReplay gid) s = execFaultReplay gid s := rfl
theorem exec_contextCacheFill (gid : Nat) (s : State) : exec (.contextCacheFill gid) s = execContextCacheFill gid s := rfl
theorem exec_decodeUnitComplete (core : Nat) (s : State) : exec (.decodeUnitComplete core) s = execDecodeUnitComplete core s := rfl
theorem exec_dechtComplete (gid : Nat) (s : State) : exec (.dechtComplete gid) s = execDechtComplete gid s := rfl
theorem exec_copyElement (gid : Nat) (s : State) : exec (.copyElement gid) s = execCopyElement gid s := rfl
theorem exec_copyCommandEnd (gid : Nat) (s : State) : exec (.copyCommandEnd gid) s = execCopyCommandEnd gid s := rfl
theorem exec_matrixEntryStart (core : Nat) (s : State) : exec (.matrixEntryStart core) s = execMatrixEntryStart core s := rfl
theorem exec_matrixEntryRetire (core : Nat) (s : State) : exec (.matrixEntryRetire core) s = execMatrixEntryRetire core s := rfl
theorem exec_batchComplete (gid : Nat) (s : State) : exec (.batchComplete gid) s = execBatchComplete gid s := rfl
theorem exec_barrierPhaseComplete (grid : Bool) (owner : Nat) (num : Fin 16) (s : State) : exec (.barrierPhaseComplete grid owner num) s = execBarrierPhaseComplete grid owner num s := rfl
theorem exec_waitaWake (gid : Nat) (s : State) : exec (.waitaWake gid) s = execWaitaWake gid s := rfl
theorem exec_waitaPoll (gid : Nat) (s : State) : exec (.waitaPoll gid) s = execWaitaPoll gid s := rfl
theorem exec_waitaDeadline (gid : Nat) (s : State) : exec (.waitaDeadline gid) s = execWaitaDeadline gid s := rfl
theorem exec_stallQuantumExpiry (asid : Nat) (s : State) : exec (.stallQuantumExpiry asid) s = execStallQuantumExpiry asid s := rfl
theorem exec_groupEndSeatFree (gid : Nat) (s : State) : exec (.groupEndSeatFree gid) s = execGroupEndSeatFree gid s := rfl
theorem exec_seating (core : Nat) (s : State) : exec (.seating core) s = execSeating core s := rfl
theorem exec_preemption (asid : Nat) (core : Nat) (s : State) : exec (.preemption asid core) s = execPreemption asid core s := rfl
theorem exec_contextResume (asid : Nat) (s : State) : exec (.contextResume asid) s = execContextResume asid s := rfl
theorem exec_starvationBoost (asid : Nat) (s : State) : exec (.starvationBoost asid) s = execStarvationBoost asid s := rfl
theorem exec_l1Eviction (core : Nat) (line : Nat) (s : State) : exec (.l1Eviction core line) s = execL1Eviction core line s := rfl
theorem exec_persistBufferDrain (s : State) : exec .persistBufferDrain s = execPersistBufferDrain s := rfl
theorem exec_hotnessSample (core : Nat) (s : State) : exec (.hotnessSample core) s = execHotnessSample core s := rfl
theorem exec_kernelLaunch (asid : Nat) (queue : Nat) (s : State) : exec (.kernelLaunch asid queue) s = execKernelLaunch asid queue s := rfl
theorem exec_semaphoreStep (asid : Nat) (queue : Nat) (s : State) : exec (.semaphoreStep asid queue) s = execSemaphoreStep asid queue s := rfl
theorem exec_xshoot (asid : Nat) (queue : Nat) (s : State) : exec (.xshoot asid queue) s = execXshoot asid queue s := rfl
theorem exec_xshootWake (asid : Nat) (queue : Nat) (s : State) : exec (.xshootWake asid queue) s = execXshootWake asid queue s := rfl
theorem exec_semaphoreWaitRecheck (asid : Nat) (queue : Nat) (s : State) : exec (.semaphoreWaitRecheck asid queue) s = execSemaphoreWaitRecheck asid queue s := rfl
theorem exec_teamPlacement (kernel : Nat) (s : State) : exec (.teamPlacement kernel) s = execTeamPlacement kernel s := rfl
theorem exec_launchComplete (kernel : Nat) (s : State) : exec (.launchComplete kernel) s = execLaunchComplete kernel s := rfl
theorem exec_frPost (part : Nat) (value : BitVec 64) (s : State) : exec (.frPost part value) s = execFrPost part value s := rfl
theorem exec_ctLoad (part : Nat) (value : BitVec 64) (s : State) : exec (.ctLoad part value) s = execCtLoad part value s := rfl
theorem exec_swapOut (part : Nat) (s : State) : exec (.swapOut part) s = execSwapOut part s := rfl
theorem exec_swapIn (part : Nat) (s : State) : exec (.swapIn part) s = execSwapIn part s := rfl
theorem exec_swapComplete (part : Nat) (s : State) : exec (.swapComplete part) s = execSwapComplete part s := rfl
theorem exec_devRst (value : BitVec 64) (s : State) : exec (.devRst value) s = execDevRst value s := rfl
theorem exec_secAdv (value : BitVec 64) (s : State) : exec (.secAdv value) s = execSecAdv value s := rfl
theorem exec_doorbellWrite (vf : Option (Fin 64)) (asid : Nat) (queue : Nat) (value : BitVec 32) (s : State) : exec (.doorbellWrite vf asid queue value) s = execDoorbellWrite vf asid queue value s := rfl
theorem exec_registerWrite (offset : Nat) (value : BitVec 64) (s : State) : exec (.registerWrite offset value) s = execRegisterWrite offset value s := rfl
theorem exec_hostHdmAccess (pa : Nat) (write : Bool) (data : List (BitVec 8)) (s : State) : exec (.hostHdmAccess pa write data) s = execHostHdmAccess pa write data s := rfl
theorem exec_falanWriteArrival (port : Fin 16) (pa : Nat) (data : List (BitVec 8)) (s : State) : exec (.falanWriteArrival port pa data) s = execFalanWriteArrival port pa data s := rfl
theorem exec_flushMarker (port : Fin 16) (s : State) : exec (.flushMarker port) s = execFlushMarker port s := rfl
theorem exec_linkTrained (port : Fin 16) (peer : BitVec 8) (s : State) : exec (.linkTrained port peer) s = execLinkTrained port peer s := rfl
theorem exec_linkRetrain (port : Fin 16) (s : State) : exec (.linkRetrain port) s = execLinkRetrain port s := rfl
theorem exec_linkDown (port : Fin 16) (s : State) : exec (.linkDown port) s = execLinkDown port s := rfl
theorem exec_noPathKill (gid : Nat) (s : State) : exec (.noPathKill gid) s = execNoPathKill gid s := rfl
theorem exec_powerLoss (s : State) : exec .powerLoss s = execPowerLoss s := rfl
theorem exec_globalPersistentFlush (s : State) : exec .globalPersistentFlush s = execGlobalPersistentFlush s := rfl
theorem exec_powerOnReset (s : State) : exec .powerOnReset s = execPowerOnReset s := rfl
theorem exec_deviceReset (s : State) : exec .deviceReset s = execDeviceReset s := rfl
theorem exec_boot (verified : Bool) (s : State) : exec (.boot verified) s = execBoot verified s := rfl
theorem exec_vfFunctionLevelReset (vf : Fin 64) (s : State) : exec (.vfFunctionLevelReset vf) s = execVfFunctionLevelReset vf s := rfl
theorem exec_d3hot (s : State) : exec .d3hot s = execD3hot s := rfl
theorem exec_d0 (s : State) : exec .d0 s = execD0 s := rfl
theorem exec_d3cold (s : State) : exec .d3cold s = execD3cold s := rfl
theorem exec_throttleUpdate (watts : BitVec 11) (level : BitVec 3) (s : State) : exec (.throttleUpdate watts level) s = execThrottleUpdate watts level s := rfl
theorem exec_quarterClockGate (quarter : Nat) (s : State) : exec (.quarterClockGate quarter) s = execQuarterClockGate quarter s := rfl
theorem exec_coreClockGate (core : Nat) (s : State) : exec (.coreClockGate core) s = execCoreClockGate core s := rfl
theorem exec_hbmSelfRefresh (stack : Fin 8) (s : State) : exec (.hbmSelfRefresh stack) s = execHbmSelfRefresh stack s := rfl
theorem exec_pldmMonitoring (s : State) : exec .pldmMonitoring s = execPldmMonitoring s := rfl
theorem exec_pldmFirmwareUpdate (digest : BitVec 384) (verified : Bool) (s : State) : exec (.pldmFirmwareUpdate digest verified) s = execPldmFirmwareUpdate digest verified s := rfl
theorem exec_spdmAttestation (s : State) : exec .spdmAttestation s = execSpdmAttestation s := rfl
theorem exec_managementPowerLimit (watts : BitVec 11) (s : State) : exec (.managementPowerLimit watts) s = execManagementPowerLimit watts s := rfl
theorem exec_managementResetRequest (s : State) : exec .managementResetRequest s = execManagementResetRequest s := rfl
theorem exec_managementReset (s : State) : exec .managementReset s = execManagementReset s := rfl
theorem exec_correctedError (unit : Nat) (pa : BitVec 52) (core : Option Nat) (s : State) : exec (.correctedError unit pa core) s = execCorrectedError unit pa core s := rfl
theorem exec_uncorrectableError (site : ErrSite) (s : State) : exec (.uncorrectableError site) s = execUncorrectableError site s := rfl
theorem exec_sldComplete (gid : Nat) (s : State) : exec (.sldComplete gid) s = execSldComplete gid s := rfl
theorem exec_recsyncComplete (gid : Nat) (s : State) : exec (.recsyncComplete gid) s = execRecsyncComplete gid s := rfl
theorem exec_enqComplete (gid : Nat) (s : State) : exec (.enqComplete gid) s = execEnqComplete gid s := rfl
theorem exec_releaseComplete (gid : Nat) (s : State) : exec (.releaseComplete gid) s = execReleaseComplete gid s := rfl
theorem exec_persistBufferAcceptance (s : State) : exec .persistBufferAcceptance s = execPersistBufferAcceptance s := rfl
theorem exec_markerAcknowledgement (dest : Nat) (s : State) : exec (.markerAcknowledgement dest) s = execMarkerAcknowledgement dest s := rfl
theorem exec_falanReadArrival (port : Fin 16) (pa : Nat) (req : PeerRead) (s : State) : exec (.falanReadArrival port pa req) s = execFalanReadArrival port pa req s := rfl
theorem exec_backInvalidation (port : Fin 3) (line : Nat) (s : State) : exec (.backInvalidation port line) s = execBackInvalidation port line s := rfl
theorem exec_linkTrainingStart (port : Fin 16) (s : State) : exec (.linkTrainingStart port) s = execLinkTrainingStart port s := rfl
theorem exec_starvationBoostEnd (asid : Nat) (s : State) : exec (.starvationBoostEnd asid) s = execStarvationBoostEnd asid s := rfl
theorem exec_leaveReset (s : State) : exec .leaveReset s = execLeaveReset s := rfl

end Sys2Proof.Laws
end

