-- ==== Sys2Proof/Laws/Elements.lean ====
section
/-! SUPPORT. Packed lanes: what the sub-elements of a computed lane are, and what a vector instruction over sub-elements
leaves. -/

namespace Sys2Proof.Laws

open Sys2Proof.Machine

/-- n fields of w bits side by side. -/
def fields (w : Nat) (g : Nat → Nat) (n : Nat) : Nat := (List.range n).foldl (fun a i => a + g i % 2 ^ w * 2 ^ (i * w)) 0

theorem fields_succ (w : Nat) (g : Nat → Nat) (n : Nat) : fields w g (n + 1) = fields w g n + g n % 2 ^ w * 2 ^ (n * w) := by
  simp [fields, List.range_succ]

theorem fields_lt (w : Nat) (g : Nat → Nat) (n : Nat) : fields w g n < 2 ^ (n * w) := by
  induction n with
  | zero => simp [fields]
  | succ n ih =>
    rw [fields_succ, Nat.add_mul, Nat.one_mul, Nat.pow_add]
    have h : g n % 2 ^ w < 2 ^ w := Nat.mod_lt _ (by positivity)
    have h2 : g n % 2 ^ w * 2 ^ (n * w) + 2 ^ (n * w) ≤ 2 ^ w * 2 ^ (n * w) := by
      calc g n % 2 ^ w * 2 ^ (n * w) + 2 ^ (n * w) = (g n % 2 ^ w + 1) * 2 ^ (n * w) := by ring
        _ ≤ 2 ^ w * 2 ^ (n * w) := Nat.mul_le_mul_right _ h
    rw [Nat.mul_comm (2 ^ (n * w)) (2 ^ w)]
    omega

theorem elem_fields (w : Nat) (g : Nat → Nat) (n k : Nat) (h : k < n) : elem (fields w g n) k w = g k % 2 ^ w := by
  induction n with
  | zero => omega
  | succ n ih =>
    rw [fields_succ, elem]
    by_cases e : k = n
    · subst e
      rw [Nat.add_mul_div_right _ _ (by positivity), Nat.div_eq_of_lt (fields_lt w g k)]
      simp
    · have hk : k < n := by omega
      obtain ⟨m, rfl⟩ : ∃ m, n = k + 1 + m := ⟨n - (k + 1), by omega⟩
      have e2 : g (k + 1 + m) % 2 ^ w * 2 ^ ((k + 1 + m) * w) = 2 ^ (k * w) * (2 ^ w * (2 ^ (m * w) * (g (k + 1 + m) % 2 ^ w))) := by
        rw [show (k + 1 + m) * w = k * w + (w + m * w) by ring, Nat.pow_add, Nat.pow_add]; ring
      rw [e2, Nat.add_mul_div_left _ _ (by positivity), Nat.add_mul_mod_self_left]
      exact ih hk

theorem mapElems_eq (t : Ty) (f : Nat → Nat → Nat → Nat) (x y z : Nat) :
    mapElems t f x y z = fields t.w (fun i => f (elem x i t.w) (elem y i t.w) (elem z i t.w)) t.n := rfl

/-- Each sub-element is the function of the operands' sub-elements. -/
theorem elem_mapElems (t : Ty) (f : Nat → Nat → Nat → Nat) (x y z k : Nat) (h : k < t.n) :
    elem (mapElems t f x y z) k t.w = f (elem x k t.w) (elem y k t.w) (elem z k t.w) % 2 ^ t.w := by
  rw [mapElems_eq, elem_fields _ _ _ _ h]

/-- The widths of the types. -/
theorem tyOf_width {m : Nat} {t : Ty} (h : tyOf m = some t) :
    (t.is64 = true → t.n = 1 ∧ t.w = 64) ∧ (t.is64 = false → t.n * t.w ≤ 32) ∧ 0 < t.n ∧ 4 ≤ t.w := by
  unfold tyOf at h
  split at h <;> cases h <;> decide

theorem rawTy_is64 (t : Ty) : (rawTy t).is64 = t.is64 := by
  unfold rawTy
  split
  · rename_i h; simp [Ty.is64, h]
  · rfl

theorem rawTy_fits {m : Nat} {t : Ty} (h : tyOf m = some t) : (rawTy t).n * (rawTy t).w ≤ if t.is64 then 64 else 32 := by
  unfold tyOf at h
  split at h <;> cases h <;> decide

/-- An even register of a pair is not its own successor. -/
theorem regNext_ne {r : VReg} (h : regNum r % 2 = 0) : regNext r ≠ r := by
  cases r with
  | v n =>
    simp only [regNum] at h
    have := n.isLt
    have h2 : n.val + 1 < 240 := by omega
    simp [regNext, h2, Fin.ext_iff]
  | x n =>
    simp only [regNum] at h
    have := n.isLt
    have h2 : n.val + 1 < 8 := by omega
    simp [regNext, h2, Fin.ext_iff]

theorem wide_even {u : Uses} {v : Nat} {mode : BitVec 24} (h : u.ok v mode = true) (hw : wideMode mode = true) {r : VReg}
    (hr : r ∈ u.regs) : regNext r ≠ r := by
  simp only [Uses.ok, hw, Bool.and_eq_true, List.all_eq_true] at h
  have := h.1 r hr
  simp at this
  exact regNext_ne this.1

theorem wideMode_eq {c : Gang} {t : Ty} (h : c.ty = some t) : wideMode c.mode = t.is64 := by
  unfold Gang.ty at h
  simp [wideMode, h]

theorem at_eq (o : Opnd) (l : Fin 32) : o.at l.val = (o.val[l.val]).toNat := by
  simp [Opnd.at, l.isLt]

theorem bndAt_eq (o : Opnd) (l : Fin 32) : o.bndAt l.val = o.bnd[l.val] := by
  simp [Opnd.bndAt, l.isLt]

/-- A vector instruction over sub-elements completes: every sub-element of its destination is the function of the
operands' sub-elements, and the bound is that of integer results. -/
theorem elemOp_completes {i : Instr} {s : State} {c : Gang} {d : Dst} {a b : Src} {accepts : Ty → Bool} {readsD : Bool} {w64 : Nat}
    {f : Ty → Bool → Nat → Nat → Nat → Nat} {t : Ty}
    (he : exec i s = elemOp i accepts d a b readsD w64 f s)
    (h : Issues i s c { regs := dstRegs d ++ srcRegs a ++ srcRegs b }) (ht : c.ty = some t) (ha : accepts t = true) :
    Completes i s c (if t.is64 then 1 else 0) fun g => VecResult c g d t.is64 c.lanes
      (fun l v => v = mapElems (rawTy t) (f (rawTy t) (modeSat c.mode)) ((c.opnd t a).at l.val) ((c.opnd t b).at l.val)
        ((c.opnd t (dstSrc d)).at l.val))
      (fun l => intBound c.k.score (if readsD then [(c.opnd t a).bndAt l.val, (c.opnd t b).bndAt l.val, (c.opnd t (dstSrc d)).bndAt l.val]
        else [(c.opnd t a).bndAt l.val, (c.opnd t b).bndAt l.val])) := by
  have hl := h.legal
  have hne : ∀ r, d = .reg r → t.is64 = true → regNext r ≠ r := by
    intro r hd hw
    exact wide_even hl (by rw [wideMode_eq ht, hw]) (by simp [hd, dstRegs])
  have hfit := rawTy_fits ht
  obtain ⟨o, ho⟩ : ∃ o, o = intLanes c.k.score (if readsD then [c.opnd t a, c.opnd t b, c.opnd t (dstSrc d)] else [c.opnd t a, c.opnd t b])
      fun l => mapElems (rawTy t) (f (rawTy t) (modeSat c.mode)) ((c.opnd t a).at l) ((c.opnd t b).at l) ((c.opnd t (dstSrc d)).at l) :=
    ⟨_, rfl⟩
  refine completes_issue (g := c.put c.g (if t.is64 then w64 else 4) (dstWrites t.is64 d o c.lanes)) he h ?_ ?_
  · simp only [ht, ha, Bool.not_true, Bool.false_eq_true, ↓reduceIte, rawTy_is64, ho]
  · have hv := vecResult_put c (if t.is64 then w64 else 4) d t.is64 o c.lanes hne
    refine ⟨hv.frame, fun r hr l hm => ?_, fun r hr l hm => hv.kept r hr l hm⟩
    obtain ⟨h1, h2, h3⟩ := hv.written r hr l hm
    have hb : o.bnd[l.val] =
        intBound c.k.score (if readsD then [(c.opnd t a).bndAt l.val, (c.opnd t b).bndAt l.val, (c.opnd t (dstSrc d)).bndAt l.val]
        else [(c.opnd t a).bndAt l.val, (c.opnd t b).bndAt l.val]) := by
      subst ho
      cases readsD <;> simp [intLanes, bndAt_eq]
    have hlt := fields_lt (rawTy t).w (fun i => f (rawTy t) (modeSat c.mode) (elem ((c.opnd t a).at l.val) i (rawTy t).w)
      (elem ((c.opnd t b).at l.val) i (rawTy t).w) (elem ((c.opnd t (dstSrc d)).at l.val) i (rawTy t).w)) (rawTy t).n
    rw [← mapElems_eq] at hlt
    have hlt2 := hlt.trans_le (Nat.pow_le_pow_right (by norm_num) hfit)
    refine ⟨?_, h2.trans hb, fun hw => (h3 hw).trans hb⟩
    rw [h1, ho]
    simp only [intLanes, Vector.getElem_ofFn]
    cases hw : t.is64
    · rw [hw] at hlt2
      simp only [Bool.false_eq_true, ↓reduceIte] at hlt2 ⊢
      rw [BitVec.toNat_ofNat, Nat.mod_eq_of_lt (a := _) (b := 2 ^ 64) (by omega), Nat.mod_eq_of_lt hlt2]
    · rw [hw] at hlt2
      simp only [↓reduceIte] at hlt2 ⊢
      rw [BitVec.toNat_ofNat, Nat.mod_eq_of_lt hlt2]

end Sys2Proof.Laws
end

