-- ==== Sys2Proof/Laws/Encode.lean ====
section
/-! SUPPORT. The decoder's fields read back what the encoder's fields write: one lemma for each kind of operand byte. -/

namespace Sys2Proof.Laws

/-- A source byte reads back as its operand. -/
theorem getSrc_toByte (a : Src) : getSrc a.toByte = .ok a := by
  rcases a with (r | _ | _ | _ | _)
  · rcases r with n | n
    · have := n.isLt
      have h : (BitVec.ofNat 8 n.val).toNat = n.val := by simp; omega
      simp [Src.toByte, VReg.toNat, getSrc, VReg.ofNat, h, this]
    · have := n.isLt
      have h : (BitVec.ofNat 8 (240 + n.val)).toNat = 240 + n.val := by simp; omega
      simp [Src.toByte, VReg.toNat, getSrc, VReg.ofNat, h]
  all_goals rfl

/-- A destination byte reads back. -/
theorem getDst_toByte (a : Dst) : getDst a.toByte = .ok a := by
  rcases a with (r | _)
  · rcases r with n | n
    · have := n.isLt
      have h : (BitVec.ofNat 8 n.val).toNat = n.val := by simp; omega
      simp [Dst.toByte, VReg.toNat, getDst, VReg.ofNat, h, this]
    · have := n.isLt
      have h : (BitVec.ofNat 8 (240 + n.val)).toNat = 240 + n.val := by simp; omega
      simp [Dst.toByte, VReg.toNat, getDst, VReg.ofNat, h]
  all_goals rfl

/-- A uniform register byte reads back. -/
theorem getU_uByte (n : UReg) : getU (uByte n) = .ok n := by
  have h : (BitVec.ofNat 8 n.val).toNat = n.val := by simp; omega
  simp [getU, uByte, h]

/-- The byte of a tile transfer's first register reads back. -/
theorem getVFirst_vfByte (n : VFirst) : getVFirst (vfByte n) = .ok n := by
  have h : (BitVec.ofNat 8 n.val).toNat = n.val := by simp; omega
  simp [getVFirst, vfByte, h]

/-- A tile byte reads back. -/
theorem getTile_tileByte (n : TileNo) : getTile (tileByte n) = .ok n := by
  have h : (BitVec.ofNat 8 (224 + n.val)).toNat = 224 + n.val := by simp; omega
  simp [getTile, tileByte, h]

/-- A record byte reads back. -/
theorem getRec_recByte (n : RecNo) : getRec (recByte n) = .ok n := by
  have h : (BitVec.ofNat 8 n.val).toNat = n.val := by simp; omega
  simp [getRec, recByte, h]

/-- A byte that names a record or a tile reads back. -/
theorem getRT_toByte (r : RT) : getRT r.toByte = .ok r := by
  rcases r with n | n
  · have h : (BitVec.ofNat 8 n.val).toNat = n.val := by simp; omega
    simp [getRT, RT.toByte, recByte, h]
  · have h : (BitVec.ofNat 8 (224 + n.val)).toNat = 224 + n.val := by simp; omega
    simp [getRT, RT.toByte, tileByte, h]

/-- A byte that names a record, or every record, reads back. -/
theorem getRecAll_recAllByte (r : Option RecNo) : getRecAll (recAllByte r) = .ok r := by
  rcases r with _ | n
  · rfl
  · have h : (BitVec.ofNat 8 n.val).toNat = n.val := by simp; omega
    have h2 : (recByte n) ≠ 0xFF := by
      intro e; have := congrArg BitVec.toNat e; simp [recByte, h] at this; omega
    rw [getRecAll, recAllByte, if_neg h2]; simp [recByte, h]

/-- A byte that names a count register, or none, reads back. -/
theorem getCnt_cntByte (r : Option UReg) : getCnt (cntByte r) = .ok r := by
  rcases r with _ | n
  · rfl
  · have h : (BitVec.ofNat 8 n.val).toNat = n.val := by simp; omega
    have h2 : (uByte n) ≠ 0xFF := by
      intro e; have := congrArg BitVec.toNat e; simp [uByte, h] at this; omega
    rw [getCnt, cntByte, if_neg h2]; simp [uByte, h]

/-- A byte that names an optional uniform register reads back. -/
theorem getOptU_optUByte (r : Option UReg) : getOptU (optUByte r) = .ok r := by
  rcases r with _ | n
  · rfl
  · have h : (BitVec.ofNat 8 (0x80 + n.val)).toNat = 0x80 + n.val := by have := n.isLt; rw [BitVec.toNat_ofNat]; omega
    have h2 : (BitVec.ofNat 8 (0x80 + n.val)) ≠ 0 := by
      intro e; have := congrArg BitVec.toNat e; rw [h] at this; simp at this
    rw [getOptU, optUByte, if_neg h2]; simp [h]

/-- A scope code reads back. -/
theorem getScope_code (s : Scope) : getScope s.code = .ok s := by cases s <;> rfl

/-- Byte 3 of a word and its two hexadecimal digits. -/
theorem op_bits (w : W32) : bits w 31 28 = (w.extractLsb' 24 8).toNat / 16 ∧ bits w 27 24 = (w.extractLsb' 24 8).toNat % 16 ∧
   bits w 31 24 = (w.extractLsb' 24 8).toNat := by
  have := w.isLt
  simp only [bits, BitVec.extractLsb'_toNat, Nat.shiftRight_eq_div_pow]
  norm_num
  omega

/-- A bit vector is its own whole slice. -/
theorem ex_self {n : Nat} (x : BitVec n) (k : Nat) (h : k = 0) : x.extractLsb' k n = x := by subst h; exact BitVec.extractLsb'_eq_self

/-- A predicate number in three bits. -/
theorem pByte3_fin (p : PReg) : (pByte3 p).toFin = p := rfl

/-- A number in four bits. -/
theorem nib_fin (p : Fin 16) : (nib p).toFin = p := rfl

/-- A number in five bits. -/
theorem h5_fin (p : Fin 32) : (h5 p).toFin = p := rfl

/-- A bit of a word is the slice of one bit. -/
theorem lsb_ofBool {m : Nat} (x : BitVec m) (k : Nat) : x.getLsbD k = (x.extractLsb' k 1).getLsbD 0 := by simp

/-- The bit of a truth value. -/
theorem ofBool0 (b : Bool) : (BitVec.ofBool b).getLsbD 0 = b := by cases b <;> rfl

end Sys2Proof.Laws
end

