-- ==== Sys2Proof/Tests/Slice0.lean ====
section
/-! SUPPORT. The package's own tests: a term that each check of well-formedness refuses, words written out from the spec's encoding tables, states
that meet the statements' hypotheses, and single steps whose results the spec gives. -/

namespace Sys2Proof.Machine

/-- v n as a source. -/
def rs (n : Nat) (h : n < 240 := by decide) : Src := .reg (.v ⟨n, h⟩)

/-- v n as a destination. -/
def rd (n : Nat) (h : n < 240 := by decide) : Dst := .reg (.v ⟨n, h⟩)

/-- The modifiers of a `CXP` with only its c. -/
def cxpOf (c : Src) : Cxp := ⟨c, false, false, false, false, false, false⟩

/-! ### Terms that have no encoding -/

/-- R36, R110, R111: a pair starts at an even register, a discarded pair anywhere. -/
theorem test_wf_pairs : Instr.wellFormed (.lea64 (rd 5) (rs 4) (rs 3)) = false ∧ Instr.wellFormed (.lea64 (rd 4) (rs 5) (rs 3)) = false ∧
    Instr.wellFormed (.iadd64 (rd 4) (rs 6) (rs 9)) = false ∧ Instr.wellFormed (.iadd64 (rd 4) (rs 6) .zero) = true ∧
    Instr.wellFormed (.ldg (rd 1) (rs 3) false) = false ∧ Instr.wellFormed (.stg (rs 1) (rs 3)) = false ∧
    Instr.wellFormed (.ldg .discard (.reg (.x 2)) true) = true := by decide

/-- R101, R183, R215, R302: pairs of uniform registers start at an even one. -/
theorem test_wf_uniform_pairs : Instr.wellFormed (.sminmax 3 0 0) = false ∧ Instr.wellFormed (.dech 0 1 0) = false ∧
    Instr.wellFormed (.decht 0 1 0) = false ∧ Instr.wellFormed (.decz 0 1 0) = false ∧ Instr.wellFormed (.rwalk 63 .zero 0) = false ∧
    Instr.wellFormed (.rnext 0 1 .zero) = false ∧ Instr.wellFormed (.waita 1 .zero (.tile 0)) = false ∧ Instr.wellFormed (.sminmax 62 0 0) = true := by decide

/-- R51: c of a `CXP` is a source before `FFMA` alone. -/
theorem test_wf_cxp : Instr.wellFormed (.fadd (rd 0) (rs 1) (rs 2) (some (cxpOf (rs 3)))) = false ∧
    Instr.wellFormed (.fcmp 0 0 (rs 1) (rs 2) (some (cxpOf .one))) = false ∧ Instr.wellFormed (.fma (rd 0) (rs 1) (rs 2) (some (cxpOf .zero))) = true ∧
    Instr.wellFormed (.ffma (rd 0) (rs 1) (rs 2) (some (cxpOf (rs 3)))) = true := by decide

/-- R188, R215, R374, R432: codes outside their ranges. -/
theorem test_wf_codes : Instr.wellFormed (.cvt (rd 0) (rs 1) 0 0x0A) = false ∧ Instr.wellFormed (.cvt (rd 0) (rs 1) 0 0x0B) = false ∧
    Instr.wellFormed (.cvt (rd 0) (rs 1) 0 0x1A) = false ∧ Instr.wellFormed (.cvt (rd 0) (rs 1) 0 0x19) = true ∧
    Instr.wellFormed (.vote 0 0 3 0) = false ∧ Instr.wellFormed (.redl (rd 0) (rs 1) 6 false 0) = false ∧
    Instr.wellFormed (.scanl (rd 0) (rs 1) 7 false false 0) = false ∧ Instr.wellFormed (.mma 0 0 0 false false false false 5 false) = false ∧
    Instr.wellFormed (.tret 3) = false := by decide

/-- R349, R374, R404: register ranges that pass s63, and counts of no register or too many. -/
theorem test_wf_ranges : Instr.wellFormed (.cpy 62) = false ∧ Instr.wellFormed (.cpyo 62 .zero) = false ∧ Instr.wellFormed (.cpyg 62) = false ∧
    Instr.wellFormed (.cpys 63) = false ∧ Instr.wellFormed (.cpyt 62) = false ∧ Instr.wellFormed (.engsv 61) = false ∧
    Instr.wellFormed (.engrs 61) = false ∧ Instr.wellFormed (.mshape 62) = false ∧ Instr.wellFormed (.mscale 62) = false ∧
    Instr.wellFormed (.ctxdead 0 0) = false ∧ Instr.wellFormed (.ctxpin 0 241 true) = false ∧ Instr.wellFormed (.ctxdead 0 240) = true ∧
    Instr.wellFormed (.cpy 61) = true ∧ Instr.wellFormed (.engsv 60) = true := by decide

/-- R40, R33: an opcode in use is no reserved one, and a step of a unit has no word. -/
theorem test_wf_no_word : Instr.wellFormed (.reservedOpcode 0x10 0) = false ∧ Instr.wellFormed (.reservedOpcode 0x0B 7) = true ∧
    Instr.wellFormed (.pick 0) = false := by decide

/-! ### Words -/

/-- R75: control and issue. -/
def wordsControl : List (List W32 × Instr) :=
  [([0x00000000], .nop), ([0x01FFFFFC], .bra (-4)), ([0x02000600], .brx (rs 6)), ([0x03000000], .join), ([0x04000010], .call 16),
   ([0x05000000], .ret), ([0x06000000], .regang), ([0x0703FFF0], .loops 3 (-16)), ([0x08000000], .exit), ([0x09000000], .yield),
   ([0x0A00BEEF], .brkp 0xBEEF), ([0xF41194C0], .setm 0x1194C0), ([0xF5000900], .setmr 9), ([0xFC300005], .ipref 3 5),
   ([0xFD123456], .hintFd 0x123456), ([0xFE000001], .hintFe 1), ([0xFF000000], .illegalOpcode 0), ([0x0B000007], .reservedOpcode 0x0B 7)]

/-- R101: integer, logic and address. -/
def wordsInteger : List (List W32 × Instr) :=
  [([0x10050607], .iadd (rd 5) (rs 6) (rs 7)), ([0x11050607], .isub (rd 5) (rs 6) (rs 7)), ([0x12050607], .imul (rd 5) (rs 6) (rs 7)),
   ([0x13050607], .imulh (rd 5) (rs 6) (rs 7)), ([0x14050607], .imad (rd 5) (rs 6) (rs 7)), ([0x15050607], .imin (rd 5) (rs 6) (rs 7)),
   ([0x16050607], .imax (rd 5) (rs 6) (rs 7)), ([0x17050600], .iabs (rd 5) (rs 6)), ([0x18050607], .and (rd 5) (rs 6) (rs 7)),
   ([0x19050607], .or (rd 5) (rs 6) (rs 7)), ([0x1A050607], .xor (rd 5) (rs 6) (rs 7)), ([0x1B050607], .andn (rd 5) (rs 6) (rs 7)),
   ([0x1C050607], .shl (rd 5) (rs 6) (rs 7)), ([0x1D050607], .shr (rd 5) (rs 6) (rs 7)), ([0x1E050607], .sar (rd 5) (rs 6) (rs 7)),
   ([0x1F050607], .rotl (rd 5) (rs 6) (rs 7)), ([0x20050607], .bfe (rd 5) (rs 6) (rs 7)), ([0x21050607], .bfi (rd 5) (rs 6) (rs 7))] ++
  [([0x22050600], .clz (rd 5) (rs 6)), ([0x23050600], .popc (rd 5) (rs 6)), ([0x24050600], .brev (rd 5) (rs 6)),
   ([0x254A0607], .icmp 2 0x0A (rs 6) (rs 7)), ([0x26050607], .sel (rd 5) (rs 6) (rs 7)), ([0x27F8EF00], .mov .discard (rs 239)), ([0x28058001], .movi (rd 5) 0x8001 none), ([0xF2ABCDEF, 0x28051234], .movi (rd 5) 0x1234 (some 0xABCDEF)),
   ([0x290506FF], .iaddi (rd 5) (rs 6) 0xFF none), ([0xF2000001, 0x29050680], .iaddi (rd 5) (rs 6) 0x80 (some 1)),
   ([0x2A060805], .lea64 (rd 6) (rs 8) (rs 5)), ([0x2B0608FA], .iadd64 (rd 6) (rs 8) .lane), ([0x2CEE0102], .pset 7 0xE 1 2),
   ([0x2D040486], .shi (rd 4) (rs 4) 2 6), ([0x10F0F7FB], .iadd (.reg (.x 0)) (.reg (.x 7)) .slice), ([0x1000F9F8], .iadd (rd 0) .one .zero)]

/-- R101: uniform registers. -/
def wordsUniform : List (List W32 × Instr) :=
  [([0x30010203], .sadd 1 2 3), ([0x31010203], .ssub 1 2 3), ([0x32010203], .smul 1 2 3), ([0x33010203], .sand 1 2 3), ([0x34010203], .sor 1 2 3),
   ([0x35010203], .sxor 1 2 3), ([0x36010203], .sshl 1 2 3), ([0x37010203], .sshr 1 2 3), ([0x3801FFFF], .smovi 1 0xFFFF none),
   ([0xF2800000, 0x38010002], .smovi 1 2 (some 0x800000)), ([0x39013F00], .smov 1 63), ([0x3A3F0203], .scmp 1 0x1F 2 3), ([0x3B010030], .srdsr 1 0x0030),
   ([0x3C020030], .swrsr 2 0x0030), ([0x3D0106FF], .vtos 1 (rs 6) 0xFF), ([0x3E050200], .stov (rd 5) 2), ([0x3F3E0203], .sminmax 62 2 3)]

/-- R163, R51: floating point and special functions. -/
def wordsFloat : List (List W32 × Instr) :=
  [([0x40050607], .fadd (rd 5) (rs 6) (rs 7) none), ([0x41050607], .fsub (rd 5) (rs 6) (rs 7) none), ([0x42050607], .fmul (rd 5) (rs 6) (rs 7) none),
   ([0x43050607], .fma (rd 5) (rs 6) (rs 7) none), ([0xF3088000, 0x44050607], .ffma (rd 5) (rs 6) (rs 7) (some ⟨rs 8, true, false, false, false, false, false⟩)),
   ([0xF3F82400, 0x43050607], .fma (rd 5) (rs 6) (rs 7) (some ⟨.zero, false, false, true, false, false, true⟩)),
   ([0xF3F85800, 0x40050607], .fadd (rd 5) (rs 6) (rs 7) (some ⟨.zero, false, true, false, true, true, false⟩)),
   ([0x44050607], .ffma (rd 5) (rs 6) (rs 7) none), ([0x45050607], .fmin (rd 5) (rs 6) (rs 7) none), ([0x46050607], .fmax (rd 5) (rs 6) (rs 7) none),
   ([0x47420607], .fcmp 2 2 (rs 6) (rs 7) none), ([0x480506C3], .fclass (rd 5) (rs 6) 0xC3), ([0x49050600], .frnd (rd 5) (rs 6)),
   ([0x4A050607], .fscale (rd 5) (rs 6) (rs 7)), ([0x4B050607], .fdot2 (rd 5) (rs 6) (rs 7) none), ([0x4C050607], .fdot4 (rd 5) (rs 6) (rs 7) none),
   ([0x4D050607], .fcpys (rd 5) (rs 6) (rs 7)), ([0x60050600], .rcp (rd 5) (rs 6)), ([0x61050600], .rsq (rd 5) (rs 6)), ([0x62050600], .sqrt (rd 5) (rs 6)),
   ([0x63050600], .exp2 (rd 5) (rs 6)), ([0x64050600], .log2 (rd 5) (rs 6)), ([0x65050600], .sinpi (rd 5) (rs 6)), ([0x66050600], .cospi (rd 5) (rs 6)),
   ([0x67050600], .tanh (rd 5) (rs 6)), ([0x68050600], .sigm (rd 5) (rs 6)), ([0x69050607], .fdivf (rd 5) (rs 6) (rs 7))]

/-- R149: bounds. -/
def wordsBounds : List (List W32 × Instr) :=
  [([0x50050600], .bget (rd 5) (rs 6)), ([0x51050607], .bset (rd 5) (rs 6) (rs 7)), ([0x52050607], .badd (rd 5) (rs 6) (rs 7)), ([0x53050600], .bclr (rd 5) (rs 6)),
   ([0x54010600], .bmaxr 1 (rs 6)), ([0x55007500], .setb (.imm 0x7500)), ([0x55BF0000], .setb (.reg 63)), ([0x56030600], .bchk 3 (rs 6)),
   ([0x57010007], .brep 1 7), ([0x580101FF], .flags 1 0x1FF)]

/-- R183: conversion and stream decode. -/
def wordsConvert : List (List W32 × Instr) :=
  [([0x70050642], .cvt (rd 5) (rs 6) 2 2), ([0x71050600], .pack (rd 5) 6), ([0x72050619], .unpk 5 (rs 6) 3 1), ([0x73050602], .qblk (rd 5) 6 true false),
   ([0x73050601], .qblk (rd 5) 6 false true), ([0x74050607], .qapply (rd 5) 6 (rs 7)), ([0x75050607], .dq 5 (rs 6) (rs 7)), ([0x760502E3], .dech 5 2 3),
   ([0x77FF02E3], .decht 31 2 3), ([0x780502E3], .decz 5 2 3), ([0x79010000], .decst 1), ([0x7AE003DF], .ctab 0 3 223)]

/-- R215: between lanes. -/
def wordsLanes : List (List W32 × Instr) :=
  [([0x80050607], .shfl (rd 5) (rs 6) (rs 7)), ([0x810506A3], .shflx (rd 5) (rs 6) 2 true 3), ([0x820506FF], .bcst (rd 5) (rs 6) 0xFF), ([0x834A0300], .vote 2 1 2 3),
   ([0x84010300], .ballot 1 3), ([0x850506B5], .redl (rd 5) (rs 6) 5 true 5), ([0x8605062D], .scanl (rd 5) (rs 6) 1 false true 5), ([0x87020603], .rwalk 2 (rs 6) 3),
   ([0x88050207], .rnext 5 2 (rs 7)), ([0x89020601], .segm 2 (rs 6) true)]

/-- R243: memory and tiles. -/
def wordsMemory : List (List W32 × Instr) :=
  [([0x900506DF], .ld (rd 5) (rs 6) (.record 223)), ([0x910506E0], .st (rs 5) (rs 6) (.tile 0)), ([0x92050601], .ldg (rd 5) (rs 6) true),
   ([0x93050600], .stg (rs 5) (rs 6)), ([0x94010602], .sld 1 (rs 6) 2), ([0x95010602], .sst 1 (rs 6) 2), ([0x96010602], .pref true (rs 6) 2),
   ([0x97030602], .cctl 3 (rs 6) 2), ([0x98E10200], .talloc 1 2), ([0x99E10000], .tfree 1), ([0x9A01E200], .tinfo 1 2), ([0x9B0506E1], .tld (rd 5) (rs 6) 1),
   ([0x9C0506E1], .tst (rs 5) (rs 6) 1), ([0x9D0506E1], .tldt 5 (rs 6) 1), ([0x9E0506E1], .tfill (rs 5) (rs 6) 1), ([0x9F0506E1], .tldx (rd 5) (rs 6) 1),
   ([0xA00506E1], .tstx (rs 5) (rs 6) 1), ([0xA100FF00], .recsync none), ([0xA1000500], .recsync (some 5))]

/-- R282: atomics and reductions. -/
def wordsAtomics : List (List W32 × Instr) :=
  [([0xB0050602], .aadd (rd 5) (rs 6) (.record 2)), ([0xB1050602], .aand (rd 5) (rs 6) (.record 2)), ([0xB2050602], .aor (rd 5) (rs 6) (.record 2)),
   ([0xB3050602], .axor (rd 5) (rs 6) (.record 2)), ([0xB4050602], .amin (rd 5) (rs 6) (.record 2)), ([0xB5050602], .amax (rd 5) (rs 6) (.record 2)),
   ([0xB6050602], .axchg (rd 5) (rs 6) (.record 2)), ([0xB7050602], .acas 5 (rs 6) (.record 2)), ([0xB8050602], .aincw (rd 5) (rs 6) (.record 2)),
   ([0xB9050602], .aaddb 5 (rs 6) (.record 2)), ([0xBA0506E2], .afadd (rd 5) (rs 6) (.tile 2)), ([0xBB050602], .redadd (rs 5) (rs 6) (.record 2)),
   ([0xBC050602], .redfadd (rs 5) (rs 6) (.record 2)), ([0xBD050602], .redmin (rs 5) (rs 6) (.record 2)), ([0xBE050602], .redmax (rs 5) (rs 6) (.record 2)),
   ([0xBF000000], .rflush)]

/-- R302, R326, R342: barriers, waits and ordering. -/
def wordsSync : List (List W32 × Instr) :=
  [([0xC020FF30], .bar 1 false none 3), ([0xC050FF10], .bar 2 true none 1), ([0xC1000530], .bara false (some 5) 3), ([0xC230FFF0], .barw 1 true 15),
   ([0xC320FF30], .bart 1 false 3), ([0xC403FFFF], .wait 0 63 63 63), ([0xC5020400], .waitr 2 4), ([0xC6020602], .waita 2 (rs 6) (.record 2)),
   ([0xC7000000], .mbatch none), ([0xC7BF0000], .mbatch (some 63)), ([0xC8000013], .fence 1 .dev), ([0xC8000033], .fence 3 .dev), ([0xC8000024], .fence 2 .sys),
   ([0xC9000000], .pbar false), ([0xC9000001], .pbar true), ([0xCA050602], .stsig (rs 5) (rs 6) (.record 2))]

/-- R349, R374: copies and the matrix unit. -/
def wordsEngines : List (List W32 × Instr) :=
  [([0xD0003D00], .cpy 61), ([0xD1000406], .cpyo 4 (rs 6)), ([0xD2000400], .cpyg 4), ([0xD3000400], .cpys 4), ([0xD4000400], .cpyt 4), ([0xD53C0000], .engsv 60),
   ([0xD6003C00], .engrs 60), ([0xD8008880], .mma 0 1 2 false false true false 0 false), ([0xD8FFFF64], .mma 15 31 31 true true false true 4 true),
   ([0xD9003D00], .mshape 61), ([0xDA800001], .accz 0x8001), ([0xDB05F203], .accrd 5 15 2 3), ([0xDC052F03], .accwr 5 2 15 3), ([0xDD00E400], .msave 4),
   ([0xDE00E400], .mres 4), ([0xDF000400], .mscale 4)]

/-- R404, R432, R437: contexts, traps and the Z3 instructions. -/
def wordsSystem : List (List W32 × Instr) :=
  [([0xE001023F], .enq 1 2 63), ([0xE1100800], .ctxdead 16 8), ([0xE2100801], .ctxpin 16 8 true), ([0xE3000000], .unseat), ([0xE4000405], .semsig 4 5),
   ([0xE8001234], .trap 0x1234), ([0xE9000002], .tret 2), ([0xEA010007], .rdtrap 1 7), ([0xEB010200], .rdctx 1 2), ([0xEC000203], .wrctx 2 3),
   ([0xED01003F], .pmc 1 63), ([0xEE010203], .errlog 1 2 3), ([0xF80FE1E2], .lmma3 15 225 226), ([0xF90506E1], .llds 5 6 225), ([0xFA0506E1], .lsts 5 6 225),
   ([0xFB000030], .lbar 0 0 0x30)]

/-- The words decode to their instructions, each with nothing left. -/
def decodesAll (l : List (List W32 × Instr)) : Bool := l.all fun x => match decode x.1 with
  | .ok (i, rest) => decide (i = x.2) && rest.isEmpty && decide (encode i = x.1)
  | .error _ => false

theorem test_words_control : decodesAll wordsControl = true := by decide +kernel

theorem test_words_integer : decodesAll wordsInteger = true := by decide +kernel

theorem test_words_uniform : decodesAll wordsUniform = true := by decide +kernel

theorem test_words_float : decodesAll wordsFloat = true := by decide +kernel

theorem test_words_bounds : decodesAll wordsBounds = true := by decide +kernel

theorem test_words_convert : decodesAll wordsConvert = true := by decide +kernel

theorem test_words_lanes : decodesAll wordsLanes = true := by decide +kernel

theorem test_words_memory : decodesAll wordsMemory = true := by decide +kernel

theorem test_words_atomics : decodesAll wordsAtomics = true := by decide +kernel

theorem test_words_sync : decodesAll wordsSync = true := by decide +kernel

theorem test_words_engines : decodesAll wordsEngines = true := by decide +kernel

theorem test_words_system : decodesAll wordsSystem = true := by decide +kernel

/-- R33, R34, R36, R50, R51, R42: words that name no instruction, each with the reason. -/
theorem test_words_refused : decode [0x00000001] = .error .reservedField ∧ decode [0x10F90607] = .error .register ∧ decode [0x100506FC] = .error .register ∧
    decode [0x30400203] = .error .register ∧ (decode [0xF2000001, 0x10050607]).isOk = false ∧ (decode [0xF2000001]).isOk = false ∧
    (decode [0xF3080000, 0x40050607]).isOk = false ∧ (decode [0xC8000015]).isOk = false := by decide +kernel

/-- R32: the row of `BRA` from the table's own bits, and after reset with the instruction placed. -/
theorem test_table_word : decodeTableWord 32 0x01000004 = some (.bra 4) := by decide +kernel

/-! ### A small machine -/

/-- Page tables that map the first gigabyte of identifier 1 to itself, a handler-table entry, the handler's code object, and two queues: 0 a device queue
and 1 a host queue. -/
def demoMem : Memory :=
  [(0x12, 0x02), (0x1A, 0x01), (0x8000, 0x01), (0x8001, 0x90), (0x9000, 0x01), (0x9001, 0xA0), (0xA000, 0x03), (0xA007, 0xE0),
   (0x20000, 0x4A), (0x20001, 0x4C), (0x20002, 0x50), (0x20003, 0x4B), (0x20004, 0x01), (0x20006, 0x10), (0x20007, 0x04), (0x20011, 0x10),
   (0x20019, 0x01), (0x20020, 0x01), (0x20024, 0x80), (0x20039, 0x20), (0x30001, 0x10), (0x30002, 0x03), (0x30008, 0x02), (0x30009, 0x03),
   (0x30021, 0x20), (0x30022, 0x03), (0x30028, 0x02), (0x30029, 0x02)]

/-- Identifier 1, with all its pages. -/
def demoCtx : Context :=
  { part := 0, index := 1, prio := 3, privileged := true, enable := true, root := 0x8000, qtable := 0x30000, cardBase := 0, cardLog := 0, quantum := 0
    dropped := 0, cardSeq := 0, state := .runnable, away := false, boosted := false, ran := 0, ranAt := 0, gridBars := [], gridHolder := none }

/-- A record of 4 KB at address base, of an element type, one element apart, and the extent of its pages. -/
def demoRecord (base type : Nat) : List W64 := [BitVec.ofNat 64 base, BitVec.ofNat 64 (0x1000 + type * 2 ^ 40), 1, 0, 0]
def demoExtent (base : Nat) : List Extent := [{ kind := 0, size := 0, type := 0, bc := false, w := true, rd := true, x := true, lo := 0, hi := 0x1000, pa := base }]

/-- A tile's descriptor of rows, columns and a type; and the tile. -/
def demoDesc (rows cols type : Nat) : W64 := BitVec.ofNat 64 (rows + cols * 2 ^ 16 + type * 2 ^ 32)
def demoTile (rows cols type base n : Nat) : Tile :=
  { desc := demoDesc rows cols type, base := base, rows := n, words := [], side := [], poison := [], core := 0 }

/-- The small machine: a group whose run holds the given words, every slice under the given MODE; records 0, 1 and 2 of F32, I32 and I64, record 3 a
pointer record of I32; tiles h0 of F32, h1 of I32, h2 and h3 of F16, h4 for images, and h5 of N8. -/
def demoOf (mode : BitVec 24) (ws : List W32) (f : Group → Group) (k : Kernel → Kernel) : State :=
  let s := placeWords State.reset ws
  let n := s.focus
  { s with
    mem := demoMem, ctxs := [(1, demoCtx)]
    groups := s.groups.map fun x => (x.1, f { x.2 with slices := x.2.slices.map fun sl => { sl with mode := mode } })
    kernels := [(n, k { s.kernel n with
      asid := 1, recCount := 4, records := [(0, demoRecord 0x100000 0x00), (1, demoRecord 0x101000 0x10), (2, demoRecord 0x102000 0x18), (3, [0, 0x100000000000, 1, 0, 0])]
      extents := [(0, demoExtent 0x100000), (1, demoExtent 0x101000), (2, demoExtent 0x102000)], reservation := 1024, arena := 0x200000, stride := 0x10000 })]
    teams := [(n, { s.team n with
      tiles := [(0, demoTile 4 16 0x00 0 2), (1, demoTile 4 8 0x10 2 1), (2, demoTile 16 16 0x02 3 3), (3, demoTile 16 16 0x02 6 3), (4, demoTile 32 64 0x00 9 43),
        (5, demoTile 4 64 0x15 52 2)] })] }

def demo (mode : BitVec 24) (i : Instr) : State := demoOf mode (encode i) id id

/-- MODE with a type code, and with one and further bits. -/
def ty_ (code : Nat) : BitVec 24 := BitVec.ofNat 24 (code * 2 ^ 19)
def tyAnd (code low : Nat) : BitVec 24 := BitVec.ofNat 24 (code * 2 ^ 19 + low)

/-! ### States that meet the statements' hypotheses -/

/-- The tests of `Issues`, and one more. -/
def issuesIn (i : Instr) (s : State) (u : Uses) (p : Gang → Bool) : Bool := match gangOf i s with
  | none => false
  | some c => c.g.asyncTraps.isEmpty && !(c.view.interlocked && busy c.g s.clock c.run.id c.mode u) &&
      (missingLine c.g u c.mode).isNone && !(readsPoison c.g i u c.mode) && u.ok (c.k.budgetOf c.g.role) c.mode && p c

theorem issues_of {i : Instr} {s : State} {u : Uses} {p : Gang → Bool} (h : issuesIn i s u p = true) : ∃ c, Issues i s c u ∧ p c = true := by
  unfold issuesIn at h
  split at h
  · cases h
  · rename_i c hc
    simp only [Bool.and_eq_true, Option.isNone_iff_eq_none, List.isEmpty_iff, Bool.not_eq_true'] at h
    obtain ⟨⟨⟨⟨⟨h1, h2⟩, h3⟩, h4⟩, h5⟩, h6⟩ := h
    exact ⟨c, ⟨hc, h1, h2, h3, h4, h5⟩, h6⟩

/-- A gang issues the instruction in the state, and meets P. -/
def Meets (i : Instr) (s : State) (u : Uses) (P : Gang → Prop) : Prop := ∃ c, Issues i s c u ∧ P c

theorem meets {i : Instr} {s : State} {u : Uses} {P : Gang → Prop} [DecidablePred P] (h : issuesIn i s u (fun c => decide (P c)) = true) : Meets i s u P := by
  obtain ⟨c, h1, h2⟩ := issues_of h
  exact ⟨c, h1, of_decide_eq_true h2⟩

/-- Every instruction of a list issues, with the registers that it names, under a MODE whose type passes a test. -/
def issuesAll (mode : BitVec 24) (q : Ty → Bool) (l : List (Instr × Uses)) : Bool := l.all fun x => issuesIn x.1 (demo mode x.1) x.2 fun c => c.ty.any q

theorem meets_all {mode : BitVec 24} {q : Ty → Bool} {l : List (Instr × Uses)} (h : issuesAll mode q l = true) :
    ∀ x ∈ l, Meets x.1 (demo mode x.1) x.2 fun c => ∃ t, c.ty = some t ∧ q t = true := by
  intro x hx
  obtain ⟨c, h1, h2⟩ := issues_of (List.all_eq_true.mp h x hx)
  cases h3 : c.ty with
  | none => rw [h3] at h2; cases h2
  | some t => exact ⟨c, h1, t, h3, by rw [h3] at h2; exact h2⟩

/-- Registers of the tests: in the middle and at the end of the file, in the temporaries, discarded, and the special sources. -/
def trips : List (Dst × Src × Src) := [(rd 5, rs 7, rs 9), (rd 239, rs 239, rs 0), (.reg (.x 7), .reg (.x 0), .one), (.discard, .lane, .slice)]
/-- The same where a pair starts at each (R36). -/
def tripsEven : List (Dst × Src × Src) := [(rd 4, rs 6, rs 8), (rd 238, rs 238, rs 0), (.reg (.x 6), .reg (.x 0), .one), (.discard, .lane, .slice)]
def three (l : List (Dst × Src × Src)) (f : Dst → Src → Src → Instr) : List (Instr × Uses) :=
  l.map fun (d, a, b) => (f d a b, { regs := dstRegs d ++ srcRegs a ++ srcRegs b })
def two (l : List (Dst × Src × Src)) (f : Dst → Src → Instr) : List (Instr × Uses) :=
  l.map fun (d, a, _) => (f d a, { regs := dstRegs d ++ srcRegs a })
/-- The listed instructions all issue under a MODE type that passes a test. -/
def AllMeet (mode : BitVec 24) (q : Ty → Bool) (l : List (Instr × Uses)) : Prop :=
  ∀ x ∈ l, Meets x.1 (demo mode x.1) x.2 fun c => ∃ t, c.ty = some t ∧ q t = true

def arithmetic (l : List (Dst × Src × Src)) : List (Instr × Uses) :=
  three l .iadd ++ three l .isub ++ three l .imul ++ three l .imulh ++ three l .imad ++ three l .imin ++ three l .imax ++ two l .iabs ++
    two l (fun d a => .iaddi d a 0x80 none) ++ two l (fun d a => .iaddi d a 0xFF (some 0x7FFFFF))
theorem test_meets_IntegerArithmeticResults : AllMeet (ty_ 0x10) Ty.isInt (arithmetic trips) ∧ AllMeet (ty_ 0x17) Ty.isInt (arithmetic trips) ∧
    AllMeet (ty_ 0x18) Ty.isInt (arithmetic tripsEven) ∧ ∀ x ∈ arithmetic trips, (arithForm x.1).isSome = true :=
  ⟨meets_all (by decide +kernel), meets_all (by decide +kernel), meets_all (by decide +kernel), by decide +kernel⟩

def bitwise (l : List (Dst × Src × Src)) : List (Instr × Uses) := three l .and ++ three l .or ++ three l .xor ++ three l .andn
theorem test_meets_BitwiseResults : AllMeet (ty_ 0x06) Ty.isFloat (bitwise trips) ∧ AllMeet (ty_ 0x01) Ty.is64 (bitwise tripsEven) :=
  ⟨meets_all (by decide +kernel), meets_all (by decide +kernel)⟩

def shifts (l : List (Dst × Src × Src)) : List (Instr × Uses) :=
  three l .shl ++ three l .shr ++ three l .sar ++ three l .rotl ++ two l (fun d a => .shi d a 3 63)
theorem test_meets_ShiftResults : AllMeet (ty_ 0x13) Ty.isInt (shifts trips) ∧ AllMeet (ty_ 0x19) Ty.isInt (shifts tripsEven) :=
  ⟨meets_all (by decide +kernel), meets_all (by decide +kernel)⟩

theorem test_meets_BitFieldAndCountResults : AllMeet (ty_ 0x11) (fun t => t.isInt && decide (32 ≤ t.w)) (three trips .bfe ++ three trips .bfi) ∧
    AllMeet (ty_ 0x18) (fun t => t.isInt && decide (32 ≤ t.w)) (three tripsEven .bfe ++ three tripsEven .bfi) ∧
    AllMeet (ty_ 0x15) Ty.isInt (two trips .clz ++ two trips .popc ++ two trips .brev) ∧
    AllMeet (ty_ 0x19) Ty.isInt (two tripsEven .clz ++ two tripsEven .popc ++ two tripsEven .brev) :=
  ⟨meets_all (by decide +kernel), meets_all (by decide +kernel), meets_all (by decide +kernel), meets_all (by decide +kernel)⟩

theorem test_meets_PredicateResults : AllMeet (ty_ 0x12) Ty.isInt (trips.map fun (_, a, b) => (.icmp 7 31 a b, { regs := srcRegs a ++ srcRegs b, p := [7] })) ∧
    AllMeet (ty_ 0x18) Ty.isInt (tripsEven.map fun (_, a, b) => (.icmp 0 0 a b, { regs := srcRegs a ++ srcRegs b, p := [0] })) ∧
    AllMeet (ty_ 0x00) Ty.isFloat [(.pset 7 15 0 7, { p := [7, 0, 7] }), (.pset 0 0 6 0, { p := [0, 6, 0] })] :=
  ⟨meets_all (by decide +kernel), meets_all (by decide +kernel), meets_all (by decide +kernel)⟩

def moves (l : List (Dst × Src × Src)) : List (Instr × Uses) :=
  two l .mov ++ three l .sel ++ l.flatMap fun (d, _, _) => [(.movi d 0x8000 none, { regs := dstRegs d }), (.movi d 0xFFFF (some 0xFFFFFF), { regs := dstRegs d })]
theorem test_meets_MoveResults : AllMeet (ty_ 0x08) Ty.isFloat (moves trips) ∧ AllMeet (ty_ 0x01) Ty.is64 (moves tripsEven) :=
  ⟨meets_all (by decide +kernel), meets_all (by decide +kernel)⟩

def addresses : List (Instr × Uses) := tripsEven.flatMap fun (d, a, b) =>
  [(.lea64 d a b, { regs := srcRegs b, ranges := (dstRegs d ++ srcRegs a).map fun r => (r, 2) }),
   (.iadd64 d a b, { ranges := (dstRegs d ++ srcRegs a ++ srcRegs b).map fun r => (r, 2) })]
def uniforms : List (Instr × Uses) :=
  [.sadd, .ssub, .smul, .sand, .sor, .sxor, .sshl, .sshr].map (fun f : UReg → UReg → UReg → Instr => (f 0 63 0, { u := [0, 63, 0] })) ++
    [(.smov 63 0, { u := [63, 0] }), (.smovi 0 0x8000 none, { u := [0] }), (.smovi 63 1 (some 0x800000), { u := [63] }),
     (.sminmax 62 62 0, { u := [62, uregNext 62, 62, 0] }), (.scmp 7 31 0 63, { u := [0, 63], p := [7] }), (.vtos 0 (rs 238) 0xFF, { regs := [.v 238], u := [0] }),
     (.vtos 63 .lane 31, { u := [63] }), (.stov (rd 238) 63, { regs := [.v 238], u := [63] }), (.stov .discard 0, { u := [0] })]
theorem test_meets_AddressAndUniformResults : AllMeet (ty_ 0x01) Ty.is64 addresses ∧ AllMeet (ty_ 0x04) Ty.isFloat addresses ∧ AllMeet (ty_ 0x18) Ty.is64 uniforms ∧
    AllMeet (ty_ 0x0A) (fun t => decide (t.kind = .b16)) uniforms ∧ ∀ x ∈ addresses, x.1.wellFormed = true :=
  ⟨meets_all (by decide +kernel), meets_all (by decide +kernel), meets_all (by decide +kernel), meets_all (by decide +kernel), by decide +kernel⟩

/-- The small machine with its group changed. -/
def demoG (mode : BitVec 24) (i : Instr) (f : Group → Group) : State := demoOf mode (encode i) f id
/-- Another word follows the instruction in its run. -/
def notLast (g : Group) : Group := { g with run := g.run.map fun r => { r with words := r.words ++ [0] } }
/-- Every slice has this stack. -/
def withStack (l : List StackEntry) (g : Group) : Group := { g with slices := g.slices.map fun sl => { sl with stack := l } }
def entryOf (k : StackKind) : StackEntry := { kind := k, jv := false, mask := 3, pc := 8 }

theorem test_meets_RunsHintsAndModes :
    (∀ i ∈ ([.brx (rs 239), .join, .call (-1), .ret, .regang, .yield, .tret 0, .unseat, .loops 63 1] : List Instr), ∃ u, endsRun i = some u ∧
      Meets i (demoG 0 i notLast) u fun c => c.last = false) ∧
    AllMeet 0 (fun _ => true) [(.nop, {}), (.hintFd 0xFFFFFF, {}), (.hintFe 0, {}), (.ipref 15 0xFFFFF, {}), (.setm 0x1194C0, {}), (.setm 1, {}), (.setmr 63, { u := [63] })] ∧
    Meets .yield (demo 0 .yield) {} (fun c => c.last = true) :=
  ⟨by
    have h : ∀ i ∈ ([.brx (rs 239), .join, .call (-1), .ret, .regang, .yield, .tret 0, .unseat, .loops 63 1] : List Instr), ∃ u, endsRun i = some u ∧
        issuesIn i (demoG 0 i notLast) u (fun c => decide (c.last = false)) = true := by
      simp only [List.forall_mem_cons, List.not_mem_nil, false_implies, implies_true, and_true]
      exact ⟨⟨_, rfl, by decide +kernel⟩, ⟨_, rfl, by decide +kernel⟩, ⟨_, rfl, by decide +kernel⟩, ⟨_, rfl, by decide +kernel⟩, ⟨_, rfl, by decide +kernel⟩,
        ⟨_, rfl, by decide +kernel⟩, ⟨_, rfl, by decide +kernel⟩, ⟨_, rfl, by decide +kernel⟩, ⟨_, rfl, by decide +kernel⟩⟩
    intro i hi
    obtain ⟨u, h1, h2⟩ := h i hi
    exact ⟨u, h1, meets h2⟩, meets_all (by decide +kernel), meets (by decide +kernel)⟩

theorem test_meets_BranchesAndJoins :
    Meets (.bra (-1)) (demo 0 (.bra (-1))) {} (fun c => bit c.mode 15 = false) ∧
    Meets (.bra 5) (demoG (tyAnd 0 0x8000) (.bra 5) (withStack (List.replicate 15 (entryOf .call)))) {} (fun c => bit c.mode 15 = true ∧
      ∀ j : Fin 8, bit c.run.slices j.val = true → c.g.slices[j.val].stack.length + 1 ≤ 16 ∧ c.g.slices[j.val].act &&& guardLanes c j.val = 0) ∧
    Meets (.bra 5) (demoG (tyAnd 0 0x8000) (.bra 5) (withStack (List.replicate 16 (entryOf .call)))) {} (fun c => bit c.mode 15 = true ∧
      ∃ j : Fin 8, bit c.run.slices j.val = true ∧ 16 < c.g.slices[j.val].stack.length + 1) ∧
    Meets (.brx .lane) (demo 0 (.brx .lane)) {} (fun c => c.last = true ∧ ¬∀ l < 32, bit c.lanes l = true → (c.low32 .lane l).toNat % 4 = 0) ∧
    Meets (.brx (rs 239)) (demoG 0 (.brx (rs 239)) (withStack (List.replicate 15 (entryOf .call)))) { regs := [.v 239] } (fun c => c.last = true ∧
      (∀ l < 32, bit c.lanes l = true → (c.low32 (rs 239) l).toNat % 4 = 0) ∧
      ∀ j : Fin 8, bit c.run.slices j.val = true → c.g.slices[j.val].stack.length + brxNeed c (rs 239) j.val c.g.slices[j.val] ≤ 16) ∧
    (∀ k, k = StackKind.rejoin ∨ k = StackKind.pending → Meets .join (demoG 0 .join (withStack [entryOf k, entryOf .rejoin])) {} fun c => c.last = true ∧
      ∀ j : Fin 8, bit c.run.slices j.val = true → c.g.slices[j.val].stack = [entryOf k, entryOf .rejoin]) ∧
    Meets .join (demo 0 .join) {} (fun c => c.last = true ∧ ∃ j : Fin 8, bit c.run.slices j.val = true ∧ c.g.slices[j.val].stack = []) :=
  ⟨meets (by decide +kernel), meets (by decide +kernel), meets (by decide +kernel), meets (by decide +kernel), meets (by decide +kernel),
    by rintro k (rfl | rfl) <;> exact meets (by decide +kernel), meets (by decide +kernel)⟩

theorem test_meets_CallsLoopsAndExits :
    Meets (.call 4) (demoG 0 (.call 4) (withStack (List.replicate 15 (entryOf .call)))) {} (fun c => c.last = true ∧
      ∀ j : Fin 8, bit c.run.slices j.val = true → c.g.slices[j.val].stack.length < 16) ∧
    Meets (.call 4) (demoG 0 (.call 4) (withStack (List.replicate 16 (entryOf .call)))) {} (fun c => c.last = true ∧
      ∃ j : Fin 8, bit c.run.slices j.val = true ∧ 16 ≤ c.g.slices[j.val].stack.length) ∧
    Meets .ret (demoG 0 .ret (withStack [entryOf .call])) {} (fun c => c.last = true ∧ ∀ j : Fin 8, bit c.run.slices j.val = true → c.g.slices[j.val].stack = [entryOf .call]) ∧
    Meets .ret (demo 0 .ret) {} (fun c => c.last = true ∧ ∃ j : Fin 8, bit c.run.slices j.val = true ∧ c.g.slices[j.val].stack = []) ∧
    (∀ n : Fin 3, Meets (.loops 63 1) (demoG 0 (.loops 63 1) fun g => { g with s := g.s.set 63 (BitVec.ofNat 64 n.val) }) { u := [63] } fun c =>
      c.last = true ∧ c.run.slices ≠ 0 ∧ (c.view.uni 63).1.toNat = n.val) ∧
    Meets .exit (demo 0 .exit) {} (fun c => c.g.release = none ∧ c.g.mx.length < 62) ∧ Meets .regang (demo 0 .regang) {} (fun c => c.last = true) :=
  ⟨meets (by decide +kernel), meets (by decide +kernel), meets (by decide +kernel), meets (by decide +kernel), fun n => by
    have h : ∀ n : Fin 3, issuesIn (.loops 63 1) (demoG 0 (.loops 63 1) fun g => { g with s := g.s.set 63 (BitVec.ofNat 64 n.val) }) { u := [63] }
      (fun c => decide (c.last = true ∧ c.run.slices ≠ 0 ∧ (c.view.uni 63).1.toNat = n.val)) = true := by decide +kernel
    exact meets (h n), meets (by decide +kernel), meets (by decide +kernel)⟩

theorem test_meets_SoftwareTraps : AllMeet 0 (fun _ => true) [(.trap 0xFFFF, {}), (.brkp 0, {}), (.illegalOpcode 1, {}), (.reservedOpcode 0xF7 0, {})] ∧
    Meets (.trap 1) (demo 0 (.trap 1)) {} (fun c => c.lanes ≠ 0) ∧ Meets (.brkp 1) (demo (tyAnd 0 0x8000) (.brkp 1)) {} (fun c => c.lanes = 0) :=
  ⟨meets_all (by decide +kernel), meets (by decide +kernel), meets (by decide +kernel)⟩

/-! Numbers, floating point, bounds and conversions. -/

theorem test_meets_FormatsAndRounding : (0x7F800001 : Nat) < 2 ^ Fmt.f32.width ∧ (Fmt.f32.decode 0x7F800001).isSnan = true ∧ (Fmt.f32.decode 0x3FC00000).isNan = false ∧
    Fmt.f32 ≠ .e8m0 ∧ (0 : Rat) < 3 / 2 ∧ (0 : Rat) ≤ 0 ∧ tyOf 0 = some tyF32 := by decide +kernel

theorem test_meets_BoundsAndPackedResults : (0 : Rat) ≤ 1 / 3 ∧ tyOf 0x08 = some ⟨.flt .e2m1, 4, 8⟩ ∧ tyOf 0x19 = some ⟨.uint, 64, 1⟩ ∧
    (∀ k < 8, isUntracked ((fun _ => b16Exact) k) = false) := by decide +kernel

def isStd (t : Ty) : Bool := (stdFloat t).isSome
def allMods (c : Src) : Cxp := ⟨c, true, true, true, true, true, true⟩
def floats (l : List (Dst × Src × Src)) : List (Instr × Uses) :=
  l.flatMap fun (d, a, b) => [none, some (allMods .zero)].flatMap fun m =>
    let u : Uses := { regs := dstRegs d ++ srcRegs a ++ srcRegs b ++ srcRegs .zero }
    [(.fadd d a b m, u), (.fsub d a b m, u), (.fmul d a b m, u), (.fma d a b m, { regs := dstRegs d ++ srcRegs a ++ srcRegs b ++ srcRegs (dstSrc d) }),
     (.ffma d a b (some (allMods a)), { regs := dstRegs d ++ srcRegs a ++ srcRegs b ++ srcRegs a })]
theorem test_meets_FloatArithmeticAndDotProducts : AllMeet (ty_ 0x00) isStd (floats trips) ∧ AllMeet (ty_ 0x01) isStd (floats tripsEven) ∧
    AllMeet (ty_ 0x03) isStd (floats trips) ∧ AllMeet (ty_ 0x10) (fun t => !isStd t) (floats trips) ∧ (∀ x ∈ floats trips, (floatForm x.1).isSome = true) ∧
    AllMeet (ty_ 0x00) isStd [(.ffma (rd 1) (rs 2) (rs 3) none, {})] ∧ AllMeet (ty_ 0x03) (fun t => decide (t.kind = .flt .bf16)) (three trips fun d a b => .fdot2 d a b none) ∧
    AllMeet (ty_ 0x04) (fun t => decide (t.kind = .flt .e4m3)) (three trips fun d a b => .fdot4 d a b (some (allMods .zero))) :=
  ⟨meets_all (by decide +kernel), meets_all (by decide +kernel), meets_all (by decide +kernel), meets_all (by decide +kernel), by decide +kernel,
    meets_all (by decide +kernel), meets_all (by decide +kernel), meets_all (by decide +kernel)⟩

theorem test_meets_FloatMinMaxResults : AllMeet (ty_ 0x02) isStd (three trips (fun d a b => .fmin d a b none) ++ three trips fun d a b => .fmax d a b (some (allMods .zero))) ∧
    AllMeet (ty_ 0x01) isStd (three tripsEven (fun d a b => .fmin d a b none) ++ three tripsEven fun d a b => .fmax d a b none) :=
  ⟨meets_all (by decide +kernel), meets_all (by decide +kernel)⟩

/-- A group whose v6 holds a signalling NaN in every lane, and that enables the exceptions e. -/
def withNan (e : BitVec 5) (g : Group) : Group :=
  { g with v := [(6, { val := Vector.replicate 32 0x7F800001, bnd := Vector.replicate 32 0 })], fpEnable := e }
def fcmpRun : Instr := .fcmp 1 2 (rs 6) (rs 7) none
def fcmpUses : Uses := { regs := srcRegs (rs 6) ++ srcRegs (rs 7), p := [1] }
theorem test_meets_FloatCompareResults : AllMeet (ty_ 0x00) isStd (trips.map fun (_, a, b) => (.fcmp 7 31 a b (some (allMods .zero)), { regs := srcRegs a ++ srcRegs b, p := [7] })) ∧
    (∀ e : BitVec 5, e = 0 ∨ e = 1 → Meets fcmpRun (demoG 0 fcmpRun (withNan e)) fcmpUses fun c => c.ty = some tyF32 ∧ bit c.g.fpEnable 0 = decide (e = 1) ∧
      bit c.lanes 31 = true ∧ fcmpInvalid 2 (floatArg c tyF32 .f32 (rs 6) false false false 31 0) (floatArg c tyF32 .f32 (rs 7) false false false 31 0) = true) :=
  ⟨meets_all (by decide +kernel), by rintro e (rfl | rfl) <;> exact meets (by decide +kernel)⟩

theorem test_meets_FloatClassSignRoundAndScale :
    AllMeet (ty_ 0x00) isStd (two trips (fun d a => .fclass d a 0xFF) ++ two trips .frnd ++ three trips .fscale ++ three trips .fcpys) ∧
    AllMeet (ty_ 0x01) isStd (two tripsEven (fun d a => .fclass d a 1) ++ two tripsEven .frnd ++ three tripsEven .fscale ++ three tripsEven .fcpys) ∧
    Meets (.frnd (rd 1) (rs 2)) (demo (tyAnd 0 (5 * 2 ^ 16)) (.frnd (rd 1) (rs 2))) { regs := dstRegs (rd 1) ++ srcRegs (rs 2) } (fun c => c.ty = some tyF32 ∧ modeRnd c.mode = 5) :=
  ⟨meets_all (by decide +kernel), meets_all (by decide +kernel), meets (by decide +kernel)⟩

def isBnd (t : Ty) : Bool := decide (t.kind = .b16) || decide (t.kind = .flt .f32)
def boundInstrs : List (Instr × Uses) := two trips .bget ++ three trips .bset ++ three trips .badd
/-- A group whose v6 has the bound b in every lane, with a budget. -/
def withBound (b budget : B16) (g : Group) : Group :=
  { g with v := [(6, { val := Vector.replicate 32 0, bnd := Vector.replicate 32 b })], budget := budget }
def bchkUses : Uses := { regs := srcRegs (rs 6), p := [1] }
theorem test_meets_BoundsBudgetsAndReports : AllMeet (ty_ 0x0A) isBnd boundInstrs ∧ AllMeet (ty_ 0x00) isBnd boundInstrs ∧ AllMeet (ty_ 0x10) (fun t => !isBnd t) boundInstrs ∧
    AllMeet (ty_ 0x01) (fun _ => true) (two tripsEven .bclr) ∧ Meets (.bmaxr 63 (rs 5)) (demo 0 (.bmaxr 63 (rs 5))) { regs := srcRegs (rs 5), u := [63] } (fun c => c.lanes ≠ 0) ∧
    Meets (.bmaxr 0 (rs 5)) (demo (tyAnd 0 0x8000) (.bmaxr 0 (rs 5))) { regs := srcRegs (rs 5), u := [0] } (fun c => c.lanes = 0) ∧
    AllMeet 0 (fun _ => true) [(.setb (.imm 0xFFFE), {}), (.setb (.imm 0xFFFF), {}), (.setb (.reg 63), { u := [63] }), (.brep 63 7, { u := [63] }), (.flags 0 0x1FF, { u := [0] })] ∧
    (∀ m : Fin 3, Meets (.bchk 1 (rs 6)) (demoG (tyAnd 0 (m.val * 2 ^ 7)) (.bchk 1 (rs 6)) (withBound 0x7F00 0x0100)) bchkUses fun c => c.untracked = false ∧ modeBnd c.mode = m.val ∧
      bit c.lanes 31 = true ∧ exceeds ((c.opnd tyF32 (rs 6)).bndAt 31) (c.view.budget (31 / c.k.perSlice)) = true) :=
  ⟨meets_all (by decide +kernel), meets_all (by decide +kernel), meets_all (by decide +kernel), meets_all (by decide +kernel), meets (by decide +kernel), meets (by decide +kernel),
    meets_all (by decide +kernel), fun m => by
      have h : ∀ m : Fin 3, issuesIn (.bchk 1 (rs 6)) (demoG (tyAnd 0 (m.val * 2 ^ 7)) (.bchk 1 (rs 6)) (withBound 0x7F00 0x0100)) bchkUses (fun c => decide (c.untracked = false ∧
        modeBnd c.mode = m.val ∧ bit c.lanes 31 = true ∧ exceeds ((c.opnd tyF32 (rs 6)).bndAt 31) (c.view.budget (31 / c.k.perSlice)) = true)) = true := by decide +kernel
      exact meets (h m)⟩

/-- The registers are the destination and the sources; four results of special functions are in progress in the quarter. -/
def fourResults (g : Group) : Group :=
  let p : Pending := { kind := .sfu, flag := none, writes := [], sticky := 0, card := none, holds := false, trap := none, quarter := 0, slices := 255, run := 0, issued := 0, known := true }
  { g with pend := [p, p, p, p] }
def special (l : List (Dst × Src × Src)) : List (Instr × Uses) :=
  two l .rcp ++ two l .rsq ++ two l .sqrt ++ two l .exp2 ++ two l .log2 ++ two l .sinpi ++ two l .cospi ++ two l .tanh ++ two l .sigm
theorem test_meets_SpecialFunctionResults : AllMeet (ty_ 0x00) (fun t => (sfuFloat t).isSome) (special trips ++ three trips .fdivf) ∧
    AllMeet (ty_ 0x02) (fun t => (sfuFloat t).isSome) (special trips ++ three trips .fdivf) ∧ AllMeet (ty_ 0x01) (fun t => (sfuFloat t).isNone) (special tripsEven ++ three tripsEven .fdivf) ∧
    sfuBusy (demo 0 (.rcp (rd 1) (rs 2))) 0 0 < 4 ∧ sfuBusy (demoG 0 (.rcp (rd 1) (rs 2)) fourResults) 0 0 = 4 ∧
    ∀ x ∈ special trips ++ three trips .fdivf, (sfuForm x.1).isSome = true :=
  ⟨meets_all (by decide +kernel), meets_all (by decide +kernel), meets_all (by decide +kernel), by decide +kernel, by decide +kernel, by decide +kernel⟩

def cvts (l : List (Dst × Src × Src)) (w n : Nat) (parts : List (BitVec 3)) (code : BitVec 5) : List (Instr × Uses) :=
  l.flatMap fun (d, a, _) => parts.map fun p => (.cvt d a p code, { regs := dstRegs d, ranges := (srcRegs a).map fun r => (r, if w = 64 then 2 else n) })
def packs : List (Instr × Uses) :=
  [(.pack (rd 5) 232, { regs := dstRegs (rd 5), byMode := [(.v 232, packCount packTy)] }), (.pack .discard 0, { byMode := [(.v 0, packCount packTy)] }),
   (.unpk 232 (rs 5) 7 0, { regs := srcRegs (rs 5), ranges := [(.v 232, 8)] }), (.unpk 238 (rs 5) 1 2, { regs := srcRegs (rs 5), ranges := [(.v 238, 2)] })]
theorem test_meets_ConversionsOfElementsAndWords : AllMeet (ty_ 0x08) (fun t => decide (t.kind ≠ .b16)) (cvts trips 32 1 [0, 7] 0x00) ∧
    AllMeet (ty_ 0x10) (fun t => decide (t.kind ≠ .b16)) (cvts tripsEven 64 2 [0, 1] 0x01) ∧ AllMeet (ty_ 0x01) (fun t => decide (t.kind ≠ .b16)) (cvts tripsEven 32 1 [0, 7] 0x02) ∧
    AllMeet (ty_ 0x08) packTy packs ∧ AllMeet (ty_ 0x02) packTy packs ∧ AllMeet (ty_ 0x00) (fun t => !packTy t) packs :=
  ⟨meets_all (by decide +kernel), meets_all (by decide +kernel), meets_all (by decide +kernel), meets_all (by decide +kernel), meets_all (by decide +kernel), meets_all (by decide +kernel)⟩

def isBlock (t : Ty) : Bool := (blockFmt t).isSome
def blocks : List (Instr × Uses) :=
  let m : List (VReg × (BitVec 24 → Nat)) := [(.v 232, packCount fun t => (blockFmt t).isSome)]
  [(.qblk (rd 5) 232 true false, { regs := dstRegs (rd 5), byMode := m }), (.qblk .discard 232 false true, { byMode := m }),
   (.qapply (rd 5) 232 (rs 6), { regs := dstRegs (rd 5) ++ srcRegs (rs 6), byMode := m }), (.dq 232 (rs 5) .one, { regs := srcRegs (rs 5), byMode := m })]
theorem test_meets_BlockQuantisation : AllMeet (ty_ 0x08) isBlock blocks ∧ AllMeet (ty_ 0x04) isBlock blocks :=
  ⟨meets_all (by decide +kernel), meets_all (by decide +kernel)⟩

/-- Half of the gang has left for another run. -/
def halfRun (g : Group) : Group := { g with run := g.run.map fun r => { r with slices := 15 } }
def lanesOver (l : List (Dst × Src × Src)) : List (Instr × Uses) :=
  three l .shfl ++ two l (fun d a => .shflx d a 3 false 31) ++ two l (fun d a => .shflx d a 0 true 5) ++ two l (fun d a => .shflx d a 2 true 0) ++
    two l (fun d a => .bcst d a 0xFF) ++ two l (fun d a => .bcst d a 31) ++ two l fun d a => .bcst d a 32
def foldsOver (l : List (Dst × Src × Src)) : List (Instr × Uses) := l.flatMap fun (d, a, _) =>
  [(.redl d a 0 false 0, { regs := dstRegs d ++ srcRegs a, p := [0] }), (.redl d a 5 true 7, { regs := dstRegs d ++ srcRegs a, p := [7] }),
   (.scanl d a 1 true true 7, { regs := dstRegs d ++ srcRegs a, p := [7] })]
def laneOthers : List (Instr × Uses) :=
  [(.vote 7 3 2 0, { p := [7, 0] }), (.vote 0 0 0 7, { p := [0, 7] }), (.ballot 63 7, { u := [63], p := [7] }), (.segm 7 (rs 239) true, { ranges := [(.v 239, 1)], p := [7] }),
   (.rwalk 62 (rs 239) 0, { ranges := [(.v 239, 1)], u := [62, uregNext 62, 0] }), (.rnext 238 62 (rs 0), { ranges := [(.v 238, 2), (.v 0, 1)], u := [62, uregNext 62] })]
theorem test_meets_CrossLaneResults : AllMeet (ty_ 0x10) Ty.isInt (lanesOver trips ++ foldsOver trips ++ laneOthers) ∧ AllMeet (ty_ 0x01) Ty.is64 (lanesOver tripsEven ++ foldsOver tripsEven ++ laneOthers) ∧
    AllMeet (ty_ 0x02) (fun t => !redlTy 5 t) (foldsOver trips) ∧ redlTy 0 tyF32 = true ∧ redlTy 5 ⟨.sint, 32, 1⟩ = true ∧
    Meets (.ballot 1 0) (demo 0 (.ballot 1 0)) { u := [1], p := [0] } (fun c => ∀ j : Fin 8, bit (c.g.liveSlices c.k) j.val = true → bit c.run.slices j.val = true) ∧
    Meets (.ballot 1 0) (demoG 0 (.ballot 1 0) halfRun) { u := [1], p := [0] } (fun c => ∃ j : Fin 8, bit (c.g.liveSlices c.k) j.val = true ∧ bit c.run.slices j.val = false) :=
  ⟨meets_all (by decide +kernel), meets_all (by decide +kernel), meets_all (by decide +kernel), by decide +kernel, by decide +kernel, meets (by decide +kernel), meets (by decide +kernel)⟩

theorem test_meets_SpecialRegisterResults : AllMeet 0 (fun _ => true) [(.srdsr 0 0, { u := [0] }), (.srdsr 63 0x31, { u := [63] }), (.srdsr 63 0x03, { u := [63] }), (.srdsr 1 0xFFFF, { u := [1] }),
      (.swrsr 0 0x30, { u := [0] }), (.swrsr 63 0x31, { u := [63] }), (.swrsr 1 0x32, { u := [1] })] ∧
    Meets (.srdsr 0 0x31) (demo 0 (.srdsr 0 0x31)) { u := [0] } (fun c => (0x0000, 0x0410) ∈ specialTable (demo 0 (.srdsr 0 0x31)) c ∧ (0x0031, 0) ∈ specialTable (demo 0 (.srdsr 0 0x31)) c) ∧
    Meets (.srdsr 0 3) (demo 0 (.srdsr 0 3)) { u := [0] } (fun c => ∀ x ∈ specialTable (demo 0 (.srdsr 0 3)) c, x.1 ≠ 3) :=
  ⟨meets_all (by decide +kernel), meets (by decide +kernel), meets (by decide +kernel)⟩

/-! Memory. -/

def unhindered (c : Gang) : Bool := decide (c.g.ld.length < 62) && decide (c.g.st.length < 62) && c.g.release.isNone && c.g.parks.isEmpty && c.g.red.isEmpty &&
  c.g.waita.isNone && c.g.ld.all fun x => x.places.isEmpty
theorem unhindered_of {c : Gang} (h : unhindered c = true) : Unhindered c := by
  simp only [unhindered, Bool.and_eq_true, decide_eq_true_eq, Option.isNone_iff_eq_none, List.isEmpty_iff, List.all_eq_true] at h
  obtain ⟨⟨⟨⟨⟨⟨h1, h2⟩, h3⟩, h4⟩, h5⟩, h6⟩, h7⟩ := h
  exact ⟨h1, h2, h3, h4, h5, h6, h7⟩

def present (s : State) (c : Gang) (a : Access) (bc shr : Bool) : Bool :=
  a.check.isNone && ((located s c a).all fun x => match x.2 with
    | .at_ t pa => decide (t.bound = bc) && decide (decide (t.type = 3) = shr) && decide (t.type ≠ 4) && decide (pa % x.1.n = 0) && decide (peerOf shr pa = 0)
    | .bad _ | .absent | .migrating _ => false) && s.poison.isEmpty && s.dev.poolForeign.isEmpty && decide ((located s c a).length ≤ l1Lines) && (s.core c.core).l1.isEmpty && Memory.wf s.mem
theorem present_of {s : State} {c : Gang} {a : Access} {bc shr : Bool} (h : present s c a bc shr = true) : Present s c a bc shr := by
  simp only [present, Bool.and_eq_true, Option.isNone_iff_eq_none, List.isEmpty_iff, List.all_eq_true] at h
  obtain ⟨⟨⟨⟨⟨⟨h1, h2⟩, h3⟩, h6⟩, h7⟩, h4⟩, h5⟩ := h
  refine ⟨h1, fun x hx => ?_, h3, h6, by simpa [h4] using h7, by simp [h4], h5⟩
  have hx := h2 x hx
  split at hx
  · rename_i t pa hf
    simp only [Bool.and_eq_true, decide_eq_true_eq] at hx
    obtain ⟨⟨⟨⟨h6, h7⟩, h8⟩, h9⟩, h10⟩ := hx
    exact ⟨t, pa, hf, h6, h7, h8, h9, h10⟩
  all_goals cases hx

/-- A gang issues an access, and with it meets P. -/
def MeetsAccess (i : Instr) (s : State) (load : Bool) (P : Gang → Access → Prop) : Prop :=
  ∃ c t a u, c.ty = some t ∧ memAccess c t i = some (a, load, u) ∧ Issues i s c u ∧ P c a

/-- The test of it. -/
def accessIn (i : Instr) (s : State) (load : Bool) (p : Gang → Access → Bool) : Bool := match gangOf i s with
  | none => false
  | some c => match c.ty with
    | none => false
    | some t => match memAccess c t i with
      | none => false
      | some (a, l, u) => decide (l = load) && issuesIn i s u fun _ => p c a
theorem accessIn_of {i : Instr} {s : State} {load : Bool} {p : Gang → Access → Bool} {P : Gang → Access → Prop} (hp : ∀ c a, p c a = true → P c a)
    (h : accessIn i s load p = true) : MeetsAccess i s load P := by
  unfold accessIn at h
  split at h
  · cases h
  rename_i c hc
  split at h
  · cases h
  rename_i t ht
  split at h
  · cases h
  rename_i a l u ha
  simp only [Bool.and_eq_true, decide_eq_true_eq] at h
  obtain ⟨rfl, h⟩ := h
  obtain ⟨c', h1, h2⟩ := issues_of h
  cases h1.gang.symm.trans hc
  exact ⟨c, t, a, u, ht, ha, h1, hp c a h2⟩

/-- The access issues with nothing before it, and its pages are present. -/
theorem presentAccess {i : Instr} {s : State} {load : Bool} (h : accessIn i s load (fun c a => unhindered c && present s c a false false) = true) :
    MeetsAccess i s load fun c a => Unhindered c ∧ Present s c a false false :=
  accessIn_of (fun _ _ h => by simp only [Bool.and_eq_true] at h; exact ⟨unhindered_of h.1, present_of h.2⟩) h
theorem accessWith {i : Instr} {s : State} {load : Bool} {P : Gang → Access → Prop} [∀ c a, Decidable (P c a)]
    (h : accessIn i s load (fun c a => unhindered c && decide (P c a)) = true) : MeetsAccess i s load fun c a => Unhindered c ∧ P c a :=
  accessIn_of (fun _ _ h => by simp only [Bool.and_eq_true, decide_eq_true_eq] at h; exact ⟨unhindered_of h.1, h.2⟩) h

/-- The small machine with its kernel changed. -/
def demoK (mode : BitVec 24) (i : Instr) (k : Kernel → Kernel) : State := demoOf mode (encode i) id k
/-- Record 0 with other words, or with another extent. -/
def withRecord (w : List W64) (k : Kernel) : Kernel := { k with records := [(0, w)] }
def withExtent (e : Extent) (k : Kernel) : Kernel := { k with extents := [(0, [e])] }
def anExtent : Extent := { kind := 0, size := 0, type := 0, bc := false, w := true, rd := true, x := true, lo := 0, hi := 0x1000, pa := 0x100000 }
def someStep : CStep := { id := 0, performed := true, writes := [], sticky := 0, todo := none, places := [], run := 0 }
def ldRun : Instr := .ld (rd 5) .lane (.record 0)
def stRun : Instr := .st (rs 5) .lane (.record 0)
def ldUses : Uses := { regs := dstRegs (rd 5) ++ srcRegs .lane }

theorem test_meets_MemoryAccessChecks :
    MeetsAccess ldRun (demoG 0 ldRun fun g => { g with ld := List.replicate 62 someStep }) true (fun c _ => 62 ≤ c.g.ld.length) ∧
    MeetsAccess stRun (demoG 0 stRun fun g => { g with st := List.replicate 62 someStep }) false (fun c _ => 62 ≤ c.g.st.length) ∧
    Meets ldRun (demo (ty_ 0x0A) ldRun) ldUses (fun c => ∃ t, c.ty = some t ∧ (formatRefused c t ldRun).isSome = true) ∧
    MeetsAccess ldRun (demoK 0 ldRun fun k => { k with recCount := 0 }) true (fun c a => Unhindered c ∧ a.recordless = false ∧ a.record = none) ∧
    MeetsAccess ldRun (demoK 0 ldRun (withRecord [0x100000, 0x0F0000001000, 1, 0, 0])) true (fun c a => Unhindered c ∧ a.recordless = false ∧ a.record.any (fun x => recMalformed x.2) = true) ∧
    MeetsAccess ldRun (demoK 0 ldRun (withRecord [0x100000, 0x7F, 1, 0, 0])) true (fun c a => Unhindered c ∧ a.generic = false ∧ a.record.any (fun x => !recMalformed x.2) = true ∧
      ∃ p ∈ a.spots, 0x7F < p.off + p.n) ∧
    MeetsAccess ldRun (demoK 0 ldRun (withRecord [0x100002, 0x80, 1, 0, 0])) true (fun c a => Unhindered c ∧ a.generic = false ∧ (∀ p ∈ a.spots, p.off + p.n ≤ 0x80) ∧ 0x100002 % baseAlign a 32 ≠ 0) ∧
    MeetsAccess (.ldg (rd 5) .one true) (demo (ty_ 0x10) (.ldg (rd 5) .one true)) true (fun c a => Unhindered c ∧ a.recordless = true ∧ ∃ p ∈ a.spots, p.va % p.n ≠ 0) ∧
    MeetsAccess ldRun (demoK 0 ldRun (withExtent { anExtent with rd := false })) true (fun c a => Unhindered c ∧ a.check.isNone = true ∧
      ∃ x ∈ located (demoK 0 ldRun (withExtent { anExtent with rd := false })) c a, x.2 = .bad 0) ∧
    MeetsAccess stRun (demoK 0 stRun (withExtent { anExtent with kind := 1 })) false (fun c a => Unhindered c ∧ a.check.isNone = true ∧
      ∀ x ∈ located (demoK 0 stRun (withExtent { anExtent with kind := 1 })) c a, x.2 = .absent) := by
  refine ⟨accessIn_of (p := fun c _ => decide (62 ≤ c.g.ld.length)) (fun _ _ h => of_decide_eq_true h) (by decide +kernel),
    accessIn_of (p := fun c _ => decide (62 ≤ c.g.st.length)) (fun _ _ h => of_decide_eq_true h) (by decide +kernel), ?_, accessWith (by decide +kernel), accessWith (by decide +kernel),
    accessWith (by decide +kernel), accessWith (by decide +kernel), accessWith (by decide +kernel), accessWith (by decide +kernel), accessWith (by decide +kernel)⟩
  obtain ⟨c, h1, h2⟩ := issues_of (i := ldRun) (s := demo (ty_ 0x0A) ldRun) (u := ldUses) (p := fun c => c.ty.any fun t => (formatRefused c t ldRun).isSome) (by decide +kernel)
  cases h3 : c.ty with
  | none => rw [h3] at h2; cases h2
  | some t => exact ⟨c, h1, t, h3, by rw [h3] at h2; exact h2⟩

theorem test_meets_LoadResults :
    MeetsAccess ldRun (demo 0 ldRun) true (fun c a => Unhindered c ∧ Present (demo 0 ldRun) c a false false) ∧
    MeetsAccess (.ld .discard .zero (.record 2)) (demo (ty_ 0x18) (.ld .discard .zero (.record 2))) true
      (fun c a => Unhindered c ∧ Present (demo (ty_ 0x18) (.ld .discard .zero (.record 2))) c a false false) ∧
    MeetsAccess (.ldg (rd 238) (rs 238) true) (demo (ty_ 0x01) (.ldg (rd 238) (rs 238) true)) true
      (fun c a => Unhindered c ∧ Present (demo (ty_ 0x01) (.ldg (rd 238) (rs 238) true)) c a false false) ∧
    Meets (.sld 63 .zero 2) (demo 0 (.sld 63 .zero 2)) { u := [63] } (fun c => c.ty = some tyF32 ∧ c.lowest ≠ 0 ∧ (∀ f, c.nextFlag = some f → bit c.g.cflags f.val = false) ∧
      unhindered c = true ∧ present (demo 0 (.sld 63 .zero 2)) c (c.access .sld 2 c.lowest (c.opndRaw false .zero).val [] (some 2) none (some 63)) false false = true) :=
  ⟨presentAccess (by decide +kernel), presentAccess (by decide +kernel), presentAccess (by decide +kernel), meets (by decide +kernel)⟩

theorem test_meets_StoreResults :
    (∀ i ∈ ([stRun, .stsig (rs 5) .lane (.record 0), .stg (rs 5) .zero, .sst 63 .zero 2] : List Instr),
      MeetsAccess i (demo 0 i) false fun c a => Unhindered c ∧ Present (demo 0 i) c a false false) ∧
    (∀ i ∈ ([.st (rs 238) .lane (.record 2), .stg (rs 238) (rs 238)] : List Instr), MeetsAccess i (demo (ty_ 0x18) i) false fun c a =>
      Unhindered c ∧ Present (demo (ty_ 0x18) i) c a false false) ∧
    (MeetsAccess stRun (demo 0 stRun) false fun c a => Unhindered c ∧ goesThrough a = false) ∧
    (MeetsAccess (.stsig (rs 5) .lane (.record 0)) (demo 0 (.stsig (rs 5) .lane (.record 0))) false fun c a => Unhindered c ∧ goesThrough a = true) := by
  refine ⟨?_, ?_, accessWith (by decide +kernel), accessWith (by decide +kernel)⟩ <;>
    simp only [List.forall_mem_cons, List.not_mem_nil, false_implies, implies_true, and_true]
  · exact ⟨presentAccess (by decide +kernel), presentAccess (by decide +kernel), presentAccess (by decide +kernel), presentAccess (by decide +kernel)⟩
  · exact ⟨presentAccess (by decide +kernel), presentAccess (by decide +kernel)⟩

def prefAccess (c : Gang) : Access := c.access .pref 0 c.lanes (c.opndRaw false .lane).val [] (some 0) none none

theorem test_meets_CacheControlAndSignals : AllMeet 0 (fun _ => true) [(.pref true .lane 0, {}), (.pref false (rs 239) 223, { regs := [.v 239] }), (.recsync none, {}), (.recsync (some 3), {}), (.recsync (some 4), {})] ∧
    (∀ op : BitVec 2, op = 2 ∨ op = 3 → MeetsAccess (.cctl op .lane 0) (demo 0 (.cctl op .lane 0)) false fun c a => Unhindered c ∧ Present (demo 0 (.cctl op .lane 0)) c a false false) ∧
    (MeetsAccess (.semsig 62 63) (demo 0 (.semsig 62 63)) false fun c a => Unhindered c ∧ Present (demo 0 (.semsig 62 63)) c a false false) ∧
    Meets (.recsync none) (demo 0 (.recsync none)) {} (fun c => c.k.recCount = 4 ∧ c.lowest ≠ 0) ∧
    Meets (.pref true .lane 0) (demo 0 (.pref true .lane 0)) {} (fun c => c.ty = some tyF32 ∧ (demo 0 (.pref true .lane 0)).dev.poolForeign = [] ∧
      ((demo 0 (.pref true .lane 0)).core c.core).l1 = [] ∧ 128 ≤ l1Lines ∧
      ((locateAll (demo 0 (.pref true .lane 0)) c.core c.g.kernel (prefAccess c) ((setBitsOf c.lanes).flatMap (prefAccess c).laneSpots)).2.all fun x => match x.2 with
        | .at_ at_ _ => decide (at_.type ≠ 3)
        | .bad _ | .absent | .migrating _ => true) = true) :=
  ⟨meets_all (by decide +kernel), by rintro op (rfl | rfl) <;> exact presentAccess (by decide +kernel), presentAccess (by decide +kernel), meets (by decide +kernel),
    meets (by decide +kernel)⟩

/-! Decoding, steps and traps. -/

theorem test_meets_DecodeEncode : Instr.wellFormed (.movi (rd 0) 0xFFFF (some 0xFFFFFF)) = true ∧ Instr.wellFormed (.fcmp 7 31 (rs 239) .slice (some (allMods .zero))) = true ∧
    Instr.wellFormed (.mma 15 31 31 true true true true 4 true) = true ∧ Instr.wellFormed (.reservedOpcode 0xF7 0xFFFFFF) = true := by decide +kernel

def isNext (x : Host.Outcome State Fault Refusal) (p : State → Bool) : Bool := match x with
  | .next t => p t
  | .fault _ | .refused _ => false
theorem next_of {x : Host.Outcome State Fault Refusal} {p : State → Bool} (h : isNext x p = true) : ∃ t, x = .next t ∧ p t = true := by
  unfold isNext at h
  split at h
  · exact ⟨_, rfl, h⟩
  all_goals cases h

def nopDemo : State := demo 0 .nop
theorem test_meets_StepRunsDecoded :
    (nopDemo.agenda = [] ∧ nopDemo.dev.power = .d0 ∧ withheld nopDemo = false ∧ yields nopDemo = false ∧ decode (issuable nopDemo nopDemo.focus) = .ok (.nop, [])) ∧
    (turn nopDemo = some 1 ∧ decode (issueWords { nopDemo with focus := 1 } 1) = .ok (.nop, [])) ∧ issueWords { nopDemo with agenda := [] } 1 ≠ [] ∧
    Instr.isWord (.pick 0) = false ∧ ∃ c, gangOf .nop nopDemo = some c ∧ decode c.run.words = .ok (.nop, []) := by
  refine ⟨by decide +kernel, by decide +kernel, by decide +kernel, rfl, ?_⟩
  obtain ⟨c, h1, h2⟩ := issues_of (i := .nop) (s := nopDemo) (u := {}) (p := fun c => decide (c.run.words = [0])) (by decide +kernel)
  refine ⟨c, h1.gang, ?_⟩
  rw [of_decide_eq_true h2]
  decide +kernel

theorem test_meets_MemoryInvariantStep : Memory.wf nopDemo.mem = true ∧ Memory.wf nopDemo.pool = true ∧ ∃ t, step nopDemo = .next t ∧ (fun t => decide (t.serial = 1)) t = true :=
  ⟨by decide +kernel, by decide +kernel, next_of (by decide +kernel)⟩

def trapDemo (f : Group → Group) : State := demoG 0 (.trap 7) f
def inHandler (g : Group) : Group := { g with handler := some ⟨0x21000, 0x100, 0x21000, false⟩ }
theorem test_meets_TrapTaken :
    (∃ g, (trapDemo id).group? 1 = some g ∧ g.inHandler = false) ∧ (handlerOf (trapDemo id) 0 1 false) = some ⟨0x21000, 0x100, 0x21000, false⟩ ∧
    handlerOf { trapDemo id with mem := [] } 0 1 false = none ∧ (∃ g, (trapDemo inHandler).group? 1 = some g ∧ g.inHandler = true) ∧
    ∀ g, (trapDemo id).group? 1 = some g → (∃ r, g.run = some r) → (trapOf 0x10 [7]).step < 16 := by
  have h : ∀ f : Group → Group, ((trapDemo f).group? 1).isSome = true := by
    intro f
    rfl
  refine ⟨?_, by decide +kernel, by decide +kernel, ?_, fun _ _ _ => by decide⟩
  · exact ⟨_, rfl, by decide +kernel⟩
  · exact ⟨_, rfl, by decide +kernel⟩

/-- A group in its handler after a trap, with the saved copy of its registers. -/
def savedGroup (g : Group) : Group :=
  { inHandler g with saved := savedCopy g 0 240, entryExited := List.replicate 8 0, frame := frameWords }
where
  frameWords : List W64 := [4, 0x103FC001, 0, 0, 0, 0, 0, 0]
/-- The saved budget is untracked. -/
def badGroup (g : Group) : Group := { inHandler g with saved := [(0x320, 0xFFFF)] }
theorem test_meets_ReturnFromTrap :
    Meets (.tret 0) (demo 0 (.tret 0)) {} (fun c => c.last = true ∧ c.lacksSlice = false ∧ c.g.inHandler = false) ∧
    Meets (.tret 2) (demoG 0 (.tret 2) savedGroup) {} (fun c => c.last = true ∧ c.lacksSlice = false ∧ c.g.inHandler = true) ∧
    Meets (.tret 1) (demoG 0 (.tret 1) badGroup) {} (fun c => c.lacksSlice = false ∧ c.g.inHandler = true ∧ savedOk (demoG 0 (.tret 1) badGroup) c.g = false) ∧
    (∀ m : BitVec 2, m = 0 ∨ m = 1 → Meets (.tret m) (demoG 0 (.tret m) savedGroup) {} fun c => c.last = true ∧ c.lacksSlice = false ∧ c.g.inHandler = true ∧
      savedOk (demoG 0 (.tret m) savedGroup) c.g = true ∧ c.g.frame.length = 8) :=
  ⟨meets (by decide +kernel), meets (by decide +kernel), meets (by decide +kernel), by rintro m (rfl | rfl) <;> exact meets (by decide +kernel)⟩

/-! Tiles, atomics and reductions. -/

def allocDesc : W64 := demoDesc 4 16 0x00
def reg0 (w : W64) (g : Group) : Group := { g with s := g.s.set 0 w }
def inside (x : Tile) (p : Nat × Nat) : Bool := decide (p.1 < tileRows x.desc) && decide (p.2 < tileCols x.desc)
theorem inside_iff {x : Tile} {p : Nat × Nat} : inside x p = true ↔ inTile x p := by simp [inside, inTile]
def rowsFree (c : Gang) (d : W64) (l : List Tile) (b : Nat) : Bool := decide (b + tileRowsPerCore d ≤ c.k.reservation ∧
  ∀ x ∈ l, (tilePair d = true ∨ tilePair x.desc = true ∨ x.core = c.core) → b + tileRowsPerCore d ≤ x.base ∨ x.base + x.rows ≤ b)
theorem rowsFree_iff {c : Gang} {d : W64} {l : List Tile} {b : Nat} : rowsFree c d l b = true ↔ RowsFree c d b l := decide_eq_true_iff

def tile5 : Tile := demoTile 4 64 0x15 52 2
/-- The instruction accesses tile h5 of the small machine, its lanes' elements inside. -/
def tileIn (i : Instr) (mode : BitVec 24) : Bool := match gangOf i (demo mode i) with
  | none => false
  | some c => match c.ty with
    | none => false
    | some t => match tileForm c t i with
      | none => false
      | some (h, at_, u) => decide (h = 5) && issuesIn i (demo mode i) u (fun c => unhindered c) && (setBitsOf c.lanes).all fun l => (List.range t.n).all fun j => inside tile5 (at_ tile5 l j)
theorem tileIn_of {i : Instr} {mode : BitVec 24} (h : tileIn i mode = true) :
    ∃ c t at_ u, c.ty = some t ∧ tileForm c t i = some (5, at_, u) ∧ Issues i (demo mode i) c u ∧ Unhindered c ∧ ∀ l ∈ setBitsOf c.lanes, ∀ j < t.n, inTile tile5 (at_ tile5 l j) := by
  unfold tileIn at h
  split at h
  · cases h
  rename_i c hc
  split at h
  · cases h
  rename_i t ht
  split at h
  · cases h
  rename_i n at_ u ha
  simp only [Bool.and_eq_true, decide_eq_true_eq, List.all_eq_true, List.mem_range] at h
  obtain ⟨⟨rfl, h1⟩, h2⟩ := h
  obtain ⟨c', h3, h4⟩ := issues_of h1
  cases h3.gang.symm.trans hc
  exact ⟨c, t, at_, u, ht, ha, h3, unhindered_of h4, fun l hl j hj => inside_iff.mp (h2 l hl j hj)⟩

def allocRun : Instr := .talloc 9 0
def allocDemo : State := demoG 0 allocRun fun g => { g with s := g.s.set 0 (demoDesc 4 16 0x00) }
/-- A team whose kernel's scratchpad has room only where a freed tile is still read by a copy. -/
def lateDemo : State :=
  let s := demoOf 0 (encode allocRun) (fun g => { g with s := g.s.set 0 (demoDesc 4 16 0x00), copies := [lateCopy], stepSeq := 1 }) fun k => { k with reservation := 56 }
  { s with teams := s.teams.map fun x => (x.1, { x.2 with late := [{ handle := 6, tile := demoTile 4 16 0x00 54 2, marks := [(s.focus, 1)] }] }) }
where
  lateCopy : CopyCmd :=
    { opcode := 0xD0, words := [BitVec.ofNat 64 (230 * 2 ^ 56), 0, 0], rnd := 0, sat := false, ftz := false, bnd := 0, acqdone := false, done := 0, rowMask := 0
      rowOffs := [], srcRec := [], dstRec := [], metaRec := [], destTile := 0, srcTile := 0, pc := 0, faulted := false, ended := false, released := false, marks := none
      seq := 0, part := [], endDetail := (0, 0) }
/-- A tile that a copy reads. -/
def busyDemo : State :=
  let s := demoG 0 (.tfree 6) fun g => { g with copies := [lateDemo.lateCopy], stepSeq := 1 }
  { s with teams := s.teams.map fun x => (x.1, { x.2 with tiles := [(6, demoTile 4 16 0x00 54 2)] }) }
def heldTiles (s : State) (c : Gang) : List Tile := (s.team c.g.team).tiles.map (·.2)
def takenTiles (s : State) (c : Gang) : List Tile := heldTiles s c ++ (lateInUse s c.g.team).map (·.tile)
theorem test_meets_Tiles :
    (∃ c, Issues allocRun allocDemo c { u := [0] } ∧ (c.view.uni 0).1 = demoDesc 4 16 0x00 ∧ allocDemo.tile c.g.team 9 = none ∧
      RowsFree c (demoDesc 4 16 0x00) 54 (takenTiles allocDemo c) ∧ ∀ b < 54, ¬RowsFree c (demoDesc 4 16 0x00) b (takenTiles allocDemo c)) ∧
    (∃ c, Issues allocRun lateDemo c { u := [0] } ∧ (c.view.uni 0).1 = demoDesc 4 16 0x00 ∧ lateDemo.tile c.g.team 9 = none ∧
      RowsFree c (demoDesc 4 16 0x00) 54 (heldTiles lateDemo c) ∧ ∀ b, ¬RowsFree c (demoDesc 4 16 0x00) b (takenTiles lateDemo c)) ∧
    Meets allocRun (demo 0 allocRun) { u := [0] } (fun c => ¬1 ≤ tileRows (c.view.uni 0).1) ∧
    Meets (.tfree 31) (demo 0 (.tfree 31)) {} (fun c => (demo 0 (.tfree 31)).tile c.g.team 31 = none) ∧
    Meets (.tfree 0) (demo 0 (.tfree 0)) {} (fun c => (demo 0 (.tfree 0)).tile c.g.team 0 ≠ none ∧ tileUsed (demo 0 (.tfree 0)) c.g.team 0 (beforeMarks (freeMarks (demo 0 (.tfree 0)) c)) = false ∧
      KMap.wf ((demo 0 (.tfree 0)).team c.g.team).tiles = true) ∧
    Meets (.tfree 6) busyDemo {} (fun c => busyDemo.tile c.g.team 6 ≠ none ∧ tileUsed busyDemo c.g.team 6 (beforeMarks (freeMarks busyDemo c)) = true) ∧
    Meets (.tinfo 63 31) (demo 0 (.tinfo 63 31)) { u := [63] } (fun c => c.lanes ≠ 0) ∧
    (∀ i ∈ ([.ld (rd 5) .lane (.tile 5), .tld (rd 5) .lane 5, .st (rs 5) .lane (.tile 5), .tst (rs 5) .lane 5, .stsig (rs 5) .lane (.tile 5), .tldx (rd 5) .zero 5, .tstx (rs 5) .zero 5] : List Instr),
      ∃ c t at_ u, c.ty = some t ∧ tileForm c t i = some (5, at_, u) ∧ Issues i (demo (ty_ 0x10) i) c u ∧ Unhindered c ∧ ∀ l ∈ setBitsOf c.lanes, ∀ j < t.n, inTile tile5 (at_ tile5 l j)) ∧
    (∃ c, Issues (.tld (rd 5) .lane 0) (demo 0 (.tld (rd 5) .lane 0)) c { regs := [.v 5] } ∧ bit c.lanes 31 = true ∧ ¬inTile (demoTile 4 16 0x00 0 2) (0, 31)) ∧
    (∃ c, Issues (.tldt 238 .zero 5) (demo (ty_ 0x11) (.tldt 238 .zero 5)) c {} ∧ c.lacksSlice = false ∧ c.view.interlocked = false ∧
      238 + (64 + c.k.width * 1 - 1) / (c.k.width * 1) ≤ c.k.budgetOf c.g.role ∧ ∀ k < 64, inTile tile5 (k % 4, k / 4)) ∧
    Meets (.tfill (rs 5) .zero 5) (demo 0 (.tfill (rs 5) .zero 5)) { regs := [.v 5] } (fun c => unhindered c = true ∧ lowestBit c.lanes = some 0) ∧
    Meets (.tfill (rs 5) .zero 5) (demo (tyAnd 0 0x8000) (.tfill (rs 5) .zero 5)) { regs := [.v 5] } (fun c => unhindered c = true ∧ lowestBit c.lanes = none) := by
  refine ⟨?_, ?_, meets (by decide +kernel), meets (by decide +kernel), meets (by decide +kernel), meets (by decide +kernel), meets (by decide +kernel), ?_, ?_, ?_,
    meets (by decide +kernel), meets (by decide +kernel)⟩
  · obtain ⟨c, h, h1, h2, h3, h4⟩ := meets (i := allocRun) (s := allocDemo) (u := { u := [0] }) (P := fun c => (c.view.uni 0).1 = demoDesc 4 16 0x00 ∧ allocDemo.tile c.g.team 9 = none ∧
      rowsFree c (demoDesc 4 16 0x00) (takenTiles allocDemo c) 54 = true ∧ ((List.range 54).all fun b => !rowsFree c (demoDesc 4 16 0x00) (takenTiles allocDemo c) b) = true) (by decide +kernel)
    simp only [List.all_eq_true, List.mem_range, Bool.not_eq_true'] at h4
    exact ⟨c, h, h1, h2, rowsFree_iff.mp h3, fun b hb h5 => by rw [← rowsFree_iff, h4 b hb] at h5; cases h5⟩
  · obtain ⟨c, h, h1, h2, h3, h4, h5, h6⟩ := meets (i := allocRun) (s := lateDemo) (u := { u := [0] }) (P := fun c => (c.view.uni 0).1 = demoDesc 4 16 0x00 ∧ lateDemo.tile c.g.team 9 = none ∧
      rowsFree c (demoDesc 4 16 0x00) (heldTiles lateDemo c) 54 = true ∧ ((List.range 55).all fun b => !rowsFree c (demoDesc 4 16 0x00) (takenTiles lateDemo c) b) = true ∧
      c.k.reservation = 56 ∧ tileRowsPerCore (demoDesc 4 16 0x00) = 2) (by decide +kernel)
    simp only [List.all_eq_true, List.mem_range, Bool.not_eq_true'] at h4
    refine ⟨c, h, h1, h2, rowsFree_iff.mp h3, fun b hb => ?_⟩
    have : b < 55 := by have := hb.1; omega
    have h7 := h4 b this
    rw [← rowsFree_iff, h7] at hb
    cases hb
  · simp only [List.forall_mem_cons, List.not_mem_nil, false_implies, implies_true, and_true]
    exact ⟨tileIn_of (by decide +kernel), tileIn_of (by decide +kernel), tileIn_of (by decide +kernel), tileIn_of (by decide +kernel), tileIn_of (by decide +kernel),
      tileIn_of (by decide +kernel), tileIn_of (by decide +kernel)⟩
  · obtain ⟨c, h, h1⟩ := meets (i := .tld (rd 5) .lane 0) (s := demo 0 (.tld (rd 5) .lane 0)) (u := { regs := [.v 5] }) (P := fun c => bit c.lanes 31 = true) (by decide +kernel)
    exact ⟨c, h, h1, fun h => by rw [← inside_iff] at h; exact absurd h (by decide)⟩
  · obtain ⟨c, h, h1, h2, h3⟩ := meets (i := .tldt 238 .zero 5) (s := demo (ty_ 0x11) (.tldt 238 .zero 5)) (u := {}) (P := fun c => c.lacksSlice = false ∧ c.view.interlocked = false ∧
      238 + (64 + c.k.width * 1 - 1) / (c.k.width * 1) ≤ c.k.budgetOf c.g.role) (by decide +kernel)
    exact ⟨c, h, h1, h2, h3, fun k hk => inside_iff.mp ((by decide : ∀ k < 64, inside tile5 (k % 4, k / 4) = true) k hk)⟩

/-- A returning atomic issues on a record with nothing before it, its type and format accepted and its pages present. -/
def atomicIn (mode : BitVec 24) (i : Instr) : Bool :=
  let s := demo mode i
  match gangOf i s with
  | none => false
  | some c => match c.ty with
    | none => false
    | some t => match atomicForm c t i with
      | some (k, dst, o, .record r, data, u) => issuesIn i s u (fun c => unhindered c) && atomicTy k t && atomicRecord c.k t r && (!isPointer c.k r || pointerPairOk c o) &&
          present s c (c.access (.atomic k) r.val c.lanes (c.opndRaw (isPointer c.k r || t.is64) o).val data (some r) dst none) false false
      | some (k, _, o, .tile h, _, u) => issuesIn i s u (fun c => unhindered c) && atomicTy k t && decide (h = 1) && atomicFormat t (tileTy (demoTile 4 8 0x10 2 1).desc) 0 &&
          (setBitsOf c.lanes).all fun l => inside (demoTile 4 8 0x10 2 1) (flatAt (demoTile 4 8 0x10 2 1).desc ((c.opndRaw t.is64 o).at l % 2 ^ 32))
      | none => false
def atomicList (rt : RT) : List Instr :=
  [.aadd (rd 5) .lane rt, .aand (rd 5) .lane rt, .aor (rd 5) .lane rt, .axor (rd 5) .lane rt, .amin (rd 5) .lane rt, .amax (rd 5) .lane rt, .axchg .discard .lane rt, .acas 5 .lane rt]
/-- The oldest atomic of group 1 stands at lane 0, with its operands inside its width and a target in memory. -/
def laneDue (s : State) : Bool := (s.group? 1).any fun g => match g.ld.find? fun x => !x.places.isEmpty with
  | some st => (match st.todo, st.places with
    | some a, (lane, at_, pa) :: _ => decide (a.op = .atomic .add) && decide (lane = 0) && atomicTy .add a.ty && decide ((dataAt a.data a.ty.is64 lane).1 < 2 ^ a.ty.w) &&
        decide ((dataAt (a.data.drop 2) a.ty.is64 lane).1 < 2 ^ a.ty.w) && s.poison.isEmpty && s.dev.poolForeign.isEmpty && (s.team g.team).late.isEmpty && Memory.wf s.mem &&
        (if a.rtField.toNat < 224 then decide (at_.type ≠ 3) && decide (pa % (a.ty.w / 8) = 0) && (s.core g.core).l1.isEmpty
         else decide (a.rtField = 225) && inside (demoTile 4 8 0x10 2 1) (flatAt (demoTile 4 8 0x10 2 1).desc pa))
    | _, _ => false)
  | none => false
theorem test_meets_Atomics : (atomicList (.record 1)).all (atomicIn (ty_ 0x10)) = true ∧ (atomicList (.tile 1)).all (atomicIn (ty_ 0x10)) = true ∧
    [Instr.aincw (rd 5) .lane (.record 1), .aaddb 5 .lane (.record 1), .aaddb 5 .lane (.tile 1)].all (atomicIn (ty_ 0x11)) = true ∧
    atomicIn (ty_ 0x10) (.aadd (rd 5) .zero (.record 3)) = true ∧ atomicIn 0 (.afadd (rd 5) .lane (.record 0)) = true ∧ atomicTy .add tyF32 = false ∧
    (∃ t, exec (.aadd (rd 5) .lane (.record 1)) (demo (ty_ 0x10) (.aadd (rd 5) .lane (.record 1))) = .next t ∧ laneDue t = true) ∧
    ∃ t, exec (.aadd (rd 5) .lane (.tile 1)) (demo (ty_ 0x10) (.aadd (rd 5) .lane (.tile 1))) = .next t ∧ laneDue t = true :=
  ⟨by decide +kernel, by decide +kernel, by decide +kernel, by decide +kernel, by decide +kernel, by decide +kernel, next_of (by decide +kernel), next_of (by decide +kernel)⟩

/-- A reduction whose lanes name at most four targets. -/
def reduceIn (mode : BitVec 24) (i : Instr) : Bool :=
  let s := demo mode i
  match gangOf i s, reduceForm i with
  | some c, some (k, v, o, .record r) => c.ty.any fun t => issuesIn i s { regs := srcRegs v ++ srcRegs o } (fun c => unhindered c) && atomicRecord c.k t r &&
      let a := c.access (.reduce k) r.val c.lanes (c.opndRaw (isPointer c.k r || t.is64) o).val (captured (c.opnd t v)) (some r) none none
      present s c a false false && decide (((presentPlaces c.lanes (located s c a)).map fun p => RedTarget.mem p.2.2 p.2.1.asid p.2.1.vpage).dedup.length ≤ 4)
  | some c, some (_, v, o, .tile _) => c.ty.any fun t => issuesIn i s { regs := srcRegs v ++ srcRegs o } (fun c => unhindered c) &&
      decide (((setBitsOf c.lanes).map fun l => (c.opndRaw t.is64 o).at l % 2 ^ 32).dedup.length ≤ 4)
  | _, _ => false
def redEntry : RedEntry :=
  { target := .mem 0x101000 1 0x101, op := .add, type := 0x10, rnd := 0, ftz := false, sig := false, page := ⟨0, true, true, true, false, 3, 1, 0x101, 0⟩, value := 7, bound := 0 }
theorem test_meets_ReductionsAndDrains :
    [Instr.redadd (rs 5) .slice (.tile 1), .redmin (rs 5) .zero (.record 1), .redmax (rs 5) .zero (.record 1), .redadd .lane .zero (.record 3)].all (reduceIn (ty_ 0x10)) = false ∧
    [Instr.redadd (rs 5) .zero (.tile 1), .redmin (rs 5) .zero (.record 1), .redmax (rs 5) .zero (.record 1), .redadd .lane .zero (.record 3)].all (reduceIn (ty_ 0x10)) = true ∧
    reduceIn 0 (.redfadd (rs 5) .zero (.record 0)) = true ∧
    Meets .rflush (demoG 0 .rflush fun g => { g with red := [redEntry] }) {} (fun c => c.g.red = [redEntry] ∧ c.g.st.length < 62 ∧ c.g.release = none) ∧
    redEntry.page.type ≠ 3 ∧ (demo 0 .rflush).dev.poolForeign = [] ∧ Memory.wf (demo 0 .rflush).mem = true ∧ (redTy redEntry).isInt = true ∧ (redTy redEntry).w = 32 ∧
    0x101000 % ((redTy redEntry).w / 8) = 0 ∧ redEntry.value.toNat < 2 ^ 32 :=
  ⟨by decide +kernel, by decide +kernel, by decide +kernel, meets (by decide +kernel), by decide +kernel, by decide +kernel, by decide +kernel, by decide +kernel, by decide +kernel,
    by decide +kernel, by decide +kernel⟩

/-! Stream decodes, barriers and waits. -/

/-- The small machine with its team's tiles changed, and its s0 and s1. -/
def demoT (mode : BitVec 24) (i : Instr) (f : KMap Tile → KMap Tile) (g : Group → Group) : State :=
  let s := demoG mode i g
  { s with teams := s.teams.map fun x => (x.1, { x.2 with tiles := f x.2.tiles }) }
def regs01 (a b : Nat) (g : Group) : Group := { g with s := (g.s.set 0 (BitVec.ofNat 64 a)).set 1 (BitVec.ofNat 64 b) }

/-- A decode table of one code of one bit, whose symbol is 5 (R200). -/
def tableTile : Tile := { demoTile 32 64 0x00 9 43 with words := [(0, 0xC7AB), (1, 0x10000), (18, 1), (32, 5)] }
def withTable (l : KMap Tile) : KMap Tile := l.map fun x => if x.1 = 4 then (4, tableTile) else x
/-- The descriptor of four elements in the first 32 bits of a stream. -/
def desc4 : Nat := 4 * 2 ^ 48 + 32 * 2 ^ 24

/-- A decode into registers whose descriptor fails R199's check n first, or (none) passes. -/
def decodeIn (i : Instr) (kind : BitVec 2) (d d2 : Nat) (table : Bool) (n : Option Nat) : Bool :=
  let s := demoT (ty_ 0x15) i withTable (regs01 d d2)
  issuesIn i s { u := [0, 1] } fun c =>
    let fails := descriptorFails kind.toNat (c.view.uni 0).1 (c.view.uni 1).1 tile5 (if table then some tableTile else none) (decide (239 + 1 ≤ c.k.budgetOf c.g.role))
    decide (c.ty.any packTy = true) && (s.tile c.g.team 5 == some tile5) && decide (fails.find? (·.1) = n.map fun n => (true, n)) && !c.view.interlocked
def decz5 : Instr := .decz 239 0 5
def dech5 : Instr := .dech 239 0 5
def decht5 : Instr := .decht 5 0 5

/-- The job of a decode of the small machine waits at the head of core 0's decode unit, its group held. -/
def jobDue (kind : BitVec 2) (t : State) : Bool := match (t.core 0).decodeQ with
  | [j] => (match heldGang (t.setCore 0 { t.core 0 with decodeQ := [] }) j.gid with
    | some c => decide (j.table = none) && decide (j.kind = kind) && decide (j.d = 239) && (tyOf (modeType j.mode)).any (fun t => decide (t.w = 8) && decide (t.n = 4)) && decide (j.old = tile5.words) && (t.team c.g.team).late.isEmpty && (t.tile c.g.team j.stream == some tile5) &&
      (t.tile c.g.team 4 == some tableTile) && decide (bits j.desc2 4 0 % 32 = 4) && decide (decLen j.desc = 4) && decide (decStart j.desc = 0) && decide (decEnd j.desc = 32) &&
      decide (modeBnd j.mode = 0) && decide (c.k.width = 32)
    | none => false)
  | _ => false

/-- A description of the same table, at the base of record 0 (R200). -/
def ctabDemo : State := { demo 0 (.ctab 4 0 0) with mem := demoMem ++ [(0x100000, 0xAB), (0x100001, 0xC7), (0x100002, 1), (0x100006, 1), (0x100008, 1), (0x100028, 5)] }

theorem zeroSeq4 : ZeroSeq tile5 8 32 0 [0, 0, 0, 0] [0, 0, 0, 0] 32 := by
  refine ⟨by decide, by decide, [0], [0, 0, 0], rfl, rfl, fun _ => ⟨by decide, ?_⟩, fun h => absurd h (by decide)⟩
  refine ⟨by decide, by decide, [0], [0, 0], rfl, rfl, fun _ => ⟨by decide, ?_⟩, fun h => absurd h (by decide)⟩
  refine ⟨by decide, by decide, [0], [0], rfl, rfl, fun _ => ⟨by decide, ?_⟩, fun h => absurd h (by decide)⟩
  exact ⟨by decide, by decide, [0], [], rfl, rfl, fun _ => ⟨by decide, rfl, rfl⟩, fun h => absurd h (by decide)⟩
theorem huffCode0 (pos : Nat) (h : pos < 4) : (1 ≤ 1 ∧ 1 ≤ 16 ∧ 1 ≤ tableTile.byte 6 ∧ pos + 1 ≤ 32 ∧ IsCode tableTile 1 (codeAt tile5 pos 1) 0) ∧
    ∀ l, 1 ≤ l → l < 1 → ∀ y, ¬IsCode tableTile l (codeAt tile5 pos l) y := by
  refine ⟨?_, fun l h1 h2 => absurd h1 (by omega)⟩
  unfold IsCode
  exact (by decide +kernel : ∀ pos < 4, 1 ≤ 1 ∧ 1 ≤ 16 ∧ 1 ≤ tableTile.byte 6 ∧ pos + 1 ≤ 32 ∧ tableTile.half (8 + 4 * (1 - 1)) ≤ codeAt tile5 pos 1 ∧
    codeAt tile5 pos 1 - tableTile.half (8 + 4 * (1 - 1)) < tableTile.half (0x48 + 2 * (1 - 1)) ∧
    0 = tableTile.half (8 + 4 * (1 - 1) + 2) + codeAt tile5 pos 1 - tableTile.half (8 + 4 * (1 - 1))) pos h
theorem huffSeq4 : HuffSeq tableTile tile5 32 0 [0, 0, 0, 0] 4 := by
  have h := huffCode0
  obtain ⟨⟨a1, a2, a3, a4, a5⟩, a6⟩ := h 0 (by decide)
  obtain ⟨⟨b1, b2, b3, b4, b5⟩, b6⟩ := h 1 (by decide)
  obtain ⟨⟨c1, c2, c3, c4, c5⟩, c6⟩ := h 2 (by decide)
  obtain ⟨⟨d1, d2, d3, d4, d5⟩, d6⟩ := h 3 (by decide)
  exact ⟨1, a1, a2, a3, a4, a5, a6, 1, b1, b2, b3, b4, b5, b6, 1, c1, c2, c3, c4, c5, c6, 1, d1, d2, d3, d4, d5, d6, rfl⟩

theorem test_meets_StreamDecodes :
    [(2 ^ 60 + desc4, 4, some 0), (desc4 + 1, 4, some 4), (2049 * 2 ^ 48, 4, some 1), (4 * 2 ^ 48 + 8, 4, some 2), (4 * 2 ^ 48 + 2049 * 2 ^ 24, 4, some 3),
      (129 * 2 ^ 48 + 2048 * 2 ^ 24, 4, some 6), (desc4, 4, none), (desc4, 2 ^ 48 + 4, some 0)].all
      (fun x => issuesIn decz5 (demoT (ty_ 0x15) decz5 withTable (regs01 x.1 x.2.1)) { u := [0, 1] } fun c =>
        decide ((descriptorFails 3 (c.view.uni 0).1 (c.view.uni 1).1 tile5 none (decide (239 + (bits (c.view.uni 0).1 59 48 + 127) / 128 ≤ c.k.budgetOf c.g.role))).find? (·.1) =
          x.2.2.map fun n => (true, n))) = true ∧
    decodeIn decz5 3 desc4 4 false none = true ∧ decodeIn dech5 1 desc4 4 true none = true ∧
    Meets decz5 (demo 0 decz5) { u := [0, 1] } (fun c => ∃ t, c.ty = some t ∧ packTy t = false) ∧
    Meets (.decz 239 0 31) (demo (ty_ 0x15) (.decz 239 0 31)) { u := [0, 1] } (fun c => (demo (ty_ 0x15) (.decz 239 0 31)).tile c.g.team 31 = none) ∧
    Meets decht5 (demoT 0 decht5 withTable (regs01 desc4 4)) { u := [0, 1] } (fun c => c.g.copies.length < 8 ∧ c.g.release = none ∧
      bits (c.view.uni 1).1 31 16 + (bits (c.view.uni 0).1 59 48 + 63) / max 1 64 ≤ tileRows tile5.desc ∧ (tileTy tile5.desc).w = 8 ∧ tileCols tile5.desc = 64 ∧ modeBnd c.mode ≠ 2 ∧
      (descriptorFails 2 (c.view.uni 0).1 (c.view.uni 1).1 tile5 (some tableTile) true).find? (·.1) = none) ∧
    Meets (.decst 63) (demo 0 (.decst 63)) { u := [63] } (fun c => c.lanes ≠ 0) ∧
    Meets (.ctab 4 0 0) ctabDemo { u := [0] } (fun c => unhindered c = true ∧ (c.access (.ctab 4 (c.view.uni 0).1) 0 c.lowest (Vector.replicate 32 40) [] (some 0) none none).check = none ∧
      640 ≤ tileBytes (demoTile 32 64 0x00 9 43).desc ∧ (c.view.uni 0).1.toNat % 8 = 0 ∧ (match readTable ctabDemo c.gid
        (c.access (.ctab 4 (c.view.uni 0).1) 0 c.lowest (Vector.replicate 32 40) [] (some 0) none none) with
        | (_, .table b) => b.length = 640
        | _ => False)) ∧
    Meets (.ctab 5 0 0) (demo 0 (.ctab 5 0 0)) { u := [0] } (fun c => tileBytes tile5.desc < 640 ∧ c.lanes ≠ 0) ∧
    (∃ t, exec decz5 (demoT (ty_ 0x15) decz5 withTable (regs01 desc4 4)) = .next t ∧ jobDue 3 t = true) ∧ ZeroSeq tile5 8 32 0 [0, 0, 0, 0] [0, 0, 0, 0] 32 ∧
    (∃ t, exec dech5 (demoT (ty_ 0x15) dech5 withTable (regs01 desc4 4)) = .next t ∧ jobDue 1 t = true) ∧ HuffSeq tableTile tile5 32 0 [0, 0, 0, 0] 4 ∧ tableTile.half 0x80 = 5 := by
  refine ⟨by decide +kernel, by decide +kernel, by decide +kernel, ?_, meets (by decide +kernel), meets (by decide +kernel), meets (by decide +kernel), ?_, meets (by decide +kernel),
    next_of (by decide +kernel), ?_, next_of (by decide +kernel), ?_, by decide +kernel⟩
  · obtain ⟨c, h1, h2⟩ := issues_of (i := decz5) (s := demo 0 decz5) (u := { u := [0, 1] }) (p := fun c => c.ty.any fun t => !packTy t) (by decide +kernel)
    cases h3 : c.ty with
    | none => rw [h3] at h2; cases h2
    | some t => exact ⟨c, h1, t, h3, by rw [h3] at h2; simpa using h2⟩
  · obtain ⟨c, h1, h2⟩ := issues_of (i := .ctab 4 0 0) (s := ctabDemo) (u := { u := [0] }) (p := fun c => unhindered c &&
      decide ((c.access (.ctab 4 (c.view.uni 0).1) 0 c.lowest (Vector.replicate 32 40) [] (some 0) none none).check = none ∧
      640 ≤ tileBytes (demoTile 32 64 0x00 9 43).desc ∧ (c.view.uni 0).1.toNat % 8 = 0) && (match readTable ctabDemo c.gid
        (c.access (.ctab 4 (c.view.uni 0).1) 0 c.lowest (Vector.replicate 32 40) [] (some 0) none none) with
        | (_, .table b) => decide (b.length = 640)
        | _ => false)) (by decide +kernel)
    simp only [Bool.and_eq_true, decide_eq_true_eq] at h2
    refine ⟨c, h1, h2.1.1, h2.1.2.1, h2.1.2.2.1, h2.1.2.2.2, ?_⟩
    have h4 := h2.2
    generalize readTable ctabDemo c.gid (c.access (.ctab 4 (c.view.uni 0).1) 0 c.lowest (Vector.replicate 32 40) [] (some 0) none none) = y at h4 ⊢
    obtain ⟨_, _ | _ | _ | _⟩ := y <;> exact of_decide_eq_true h4
  · exact zeroSeq4
  · exact huffSeq4

/-- The small machine of a team of two groups that may use grid barrier 0, with its group changed and barrier 3's state. -/
def demoB (i : Instr) (f : Group → Group) (b : KMap Barrier) : State :=
  let s := demoOf 0 (encode i) f fun k => { k with roleGroups := [2], gmask := 1 }
  { s with teams := s.teams.map fun x => (x.1, { x.2 with bars := b }) }
def aRelease (scope : Scope) (next : ReleaseThen) (sent : Bool) : Release :=
  { scope := scope, upto := 0, markers := [], next := next, pc := 0, opcode := 0, sent := sent, faulted := false }
def releasing (g : Group) : Group := { g with release := some (aRelease .dev (.fence false) false) }
def pendingBar (n : Nat) (c : Option (Bool × Nat)) (g : Group) : Group := { g with bars := [(n, { token := 0, pending := true, completed := c })] }
def aBarrier (m : Option (Option Nat)) (arrived : List Nat) : Barrier := { phase := 0, arrived := arrived, mode := m, watchers := [], due := [] }
def handling (g : Group) : Group := { g with handler := some ⟨0x21000, 0x100, 0x21000, false⟩ }
/-- Barrier 16 has completed for the group, one of whose loads has not performed. -/
def loading (g : Group) : Group := pendingBar 16 (some (false, 0)) { g with ld := [{ someStep with performed := false }] }
def countReg (n : Nat) (g : Group) : Group := { g with s := g.s.set 0 (BitVec.ofNat 64 n) }

/-- An arriving instruction of barrier num, in the states that each clause asks for. -/
def arrivesIn (i : Instr) (f : Group → Group) (b : KMap Barrier) (p : State → Gang → Option Nat → Bool) : Bool :=
  let s := demoB i f b
  match gangOf i s with
  | none => false
  | some c => match arriveForm c i with
    | some (grid, num, cnt, _, u) => issuesIn i s u fun c => (if grid then decide (num = 0) else decide (num = 3)) && p s c cnt
    | none => false
def barList : List Instr := [.bar 7 false none 3, .bara false none 3]
def barCounted : List Instr := [.bar 0 false (some 0) 3, .bara false (some 0) 3]
def gridList : List Instr := [.bar 7 true none 0, .bara true none 0]
theorem test_meets_BarrierInstructions :
    (barList ++ barCounted ++ gridList).all (fun i => arrivesIn i handling [] fun s c _ => decide (barrierFails s c false 3 false = some 0)) = true ∧
    Meets (.bar 0 true none 1) (demoB (.bar 0 true none 1) id []) { p := [0] } (fun c => barrierFails (demoB (.bar 0 true none 1) id []) c true 1 false = some 1) ∧
    Meets (.bara true (some 0) 0) (demoB (.bara true (some 0) 0) id []) { u := [0] } (fun c => barrierFails (demoB (.bara true (some 0) 0) id []) c true 0 true = some 2) ∧
    gridList.all (fun i => arrivesIn i id [] fun s c _ => decide (barrierFails s c true 0 false = none) && decide ((c.g.bar 16).pending = false) && c.g.release.isNone && c.g.red.isEmpty &&
      decide ((barrierAt s c true 0).mode = none)) = true ∧
    barList.all (fun i => arrivesIn i (pendingBar 3 none) [] fun s c _ => decide (barrierFails s c false 3 false = none) && (c.g.bar 3).pending) = true ∧
    barCounted.all (fun i => arrivesIn i id [] fun _ c cnt => decide ((c.g.bar 3).pending = false) && decide (cnt = some 0)) = true ∧
    barCounted.all (fun i => arrivesIn i (countReg 2) [(3, aBarrier (some none) [2])] fun s c cnt => decide (cnt = some 2) && decide (2 ≤ c.k.teamGroups) &&
      decide ((barrierAt s c false 3).mode = some none)) = true ∧
    barCounted.all (fun i => arrivesIn i (fun g => releasing (countReg 1 g)) [(3, aBarrier (some (some 1)) [2])] fun s c cnt => decide (cnt = some 1) && decide (1 ≤ c.k.teamGroups) &&
      decide ((barrierAt s c false 3).mode = some (some 1)) && c.g.release.isSome) = true ∧
    (∀ p ∈ ([0, 7] : List PReg), Meets (.barw p false 3) (demoB (.barw p false 3) (pendingBar 3 none) []) { p := [p] } fun c =>
      barrierFails (demoB (.barw p false 3) (pendingBar 3 none) []) c false 3 false = none ∧ c.g.release = none ∧ (c.g.bar 3).pending = true ∧ (c.g.bar 3).completed = none) ∧
    Meets (.barw 7 false 3) (demoB (.barw 7 false 3) (pendingBar 3 (some (true, 65535))) []) { p := [7] } (fun c => legacyHead c.run = false ∧ c.g.ld = [] ∧
      (c.g.bar 3).completed = some (true, 65535)) ∧
    Meets (.barw 0 true 0) (demoB (.barw 0 true 0) id []) { p := [0] } (fun c => barrierFails (demoB (.barw 0 true 0) id []) c true 0 false = none ∧ (c.g.bar 16).pending = false ∧
      (KMap.get? (demoB (.barw 0 true 0) id []).ctxs c.k.asid).isSome = true) ∧
    Meets (.bart 0 false 15) (demoB (.bart 0 false 15) id []) { p := [0] } (fun c => barrierFails (demoB (.bart 0 false 15) id []) c false 15 false = none ∧ (c.g.bar 15).pending = false) ∧
    (∀ x ∈ ([none, some (false, 0), some (true, 1)] : List (Option (Bool × Nat))), Meets (.bart 6 true 0) (demoB (.bart 6 true 0) (pendingBar 16 x) []) { p := [6] } fun c =>
      barrierFails (demoB (.bart 6 true 0) (pendingBar 16 x) []) c true 0 false = none ∧ (c.g.bar 16).pending = true ∧ (c.g.bar 16).completed = x ∧ c.g.loadsDone = true) ∧
    Meets (.bart 6 true 0) (demoB (.bart 6 true 0) handling []) { p := [6] } (fun c => barrierFails (demoB (.bart 6 true 0) handling []) c true 0 false = some 0) ∧
    Meets (.bart 6 true 0) (demoB (.bart 6 true 0) loading []) { p := [6] } (fun c => barrierFails (demoB (.bart 6 true 0) loading []) c true 0 false = none ∧ (c.g.bar 16).pending = true ∧
      (c.g.bar 16).completed ≠ none ∧ c.g.loadsDone = false) := by
  refine ⟨by decide +kernel, meets (by decide +kernel), meets (by decide +kernel), by decide +kernel, by decide +kernel, by decide +kernel, by decide +kernel, by decide +kernel, ?_,
    meets (by decide +kernel), meets (by decide +kernel), meets (by decide +kernel), ?_, meets (by decide +kernel), meets (by decide +kernel)⟩ <;>
    simp only [List.forall_mem_cons, List.not_mem_nil, false_implies, implies_true, and_true]
  · exact ⟨meets (by decide +kernel), meets (by decide +kernel)⟩
  · exact ⟨meets (by decide +kernel), meets (by decide +kernel), meets (by decide +kernel)⟩

/-- A `WAITA` on the word of tile h1 or of record 1, with its expected value and deadline. -/
def waitaIn (rt : RT) (a b : Nat) (leaves : Bool) : Bool :=
  let i : Instr := .waita 0 .zero rt
  let s := demoG (ty_ 0x10) i (regs01 a b)
  issuesIn i s { u := [0, 1] } fun c => unhindered c && !c.lacksSlice && !legacyHead c.run && decide (c.lowest ≠ 0) && c.ty.any (fun t => t.isInt && decide (t.w = 32)) &&
    decide ((decide (0 ≠ c.g.s[0].toNat % 2 ^ 32) || decide (c.g.s[1] = 0)) = leaves) && match rt with
    | .tile h => decide (h = 1) && decide ((tileTy (demoTile 4 8 0x10 2 1).desc).w = 32) && inside (demoTile 4 8 0x10 2 1) (flatAt (demoTile 4 8 0x10 2 1).desc ((c.opndRaw false .zero).at ((lowestBit c.all).getD 0) % 2 ^ 32))
    | .record r => decide (snapRecord c.k r = some (r, demoRecord 0x101000 0x10 ++ [0, 0, 0, 0, 0]) ∨ (snapRecord c.k r).isSome) && (snapRecord c.k r).any fun x =>
      !recMalformed x.2 && !(recOf x.2).pointer && decide ((recOf x.2).ty.w = 32) &&
        present s c (c.access .waita r.val c.lowest (c.opndRaw false .zero).val [] (some r) none (some 0)) false false
theorem test_meets_CounterAndWordWaits :
    (∀ n : Fin 3, Meets (.wait n.val 63 0 0) (demoG 0 (.wait n.val 63 0 0) fun g => { g with ld := [someStep], st := List.replicate 62 someStep }) {} fun c =>
      c.g.ld.length = 1 ∧ c.g.st.length = 62 ∧ c.g.copies.length = 0 ∧ c.g.mx.length = 0) ∧
    (∀ n ∈ ([0, 62, 63, 2 ^ 63] : List Nat), ∀ k : Fin 4, Meets (.waitr k.val 0) (demoG 0 (.waitr k.val 0) fun g => regs01 n 0 { g with st := List.replicate 62 someStep }) { u := [0] } fun c =>
      (c.view.uni 0).1.toNat = n ∧ c.g.st.length = 62) ∧
    Meets (.mbatch (some 63)) (demo 0 (.mbatch (some 63))) { u := [63] } (fun c => c.g.mx.length < 62 ∧ c.lanes ≠ 0) ∧ Meets (.mbatch none) (demo 0 (.mbatch none)) {} (fun c => c.g.mx.length < 62) ∧
    (∀ rt ∈ ([.tile 1, .record 1] : List RT), waitaIn rt 0 10 false = true ∧ waitaIn rt 5 10 true = true ∧ waitaIn rt 0 0 true = true) ∧
    Meets (.waita 0 .one (.tile 1)) (demoG 0 (.waita 0 .one (.tile 1)) id) { u := [0, 1] } (fun c => c.ty.any (fun t => !(t.isInt && decide (32 ≤ t.w))) = true) ∧
    (∀ x ∈ ([(0, 10, false), (5, 10, true), (0, 0, true)] : List (Nat × Nat × Bool)), Meets (.waita 0 .zero (.tile 5)) (demoG (ty_ 0x10) (.waita 0 .zero (.tile 5)) (regs01 x.1 x.2.1)) { u := [0, 1] } fun c =>
      c.lowest ≠ 0 ∧ c.lacksSlice = false ∧ legacyHead c.run = false ∧ unhindered c = true ∧ (tileTy tile5.desc).w < 32 ∧ inside tile5 (waitElem tile5.desc 0) = true ∧ tile5.word 0 = 0 ∧
      (decide (0 ≠ c.g.s[0].toNat % 2 ^ 32) || decide (c.g.s[1] = 0)) = x.2.2) ∧
    Meets (.waita 0 .zero (.record 1)) (demoK (ty_ 0x10) (.waita 0 .zero (.record 1)) (fun k => { k with records := k.records.map fun x => if x.1 = 1 then (1, demoRecord 0x101000 0x15) else x })) { u := [0, 1] } (fun c =>
      (snapRecord c.k 1).any (fun x => decide (x.1 = 1) && !recMalformed x.2 && decide ((recOf x.2).ty.w < 32)) = true) ∧
    (∃ h, RT.tile 1 = RT.tile h) ∧
    Meets (.waita 0 .lane (.tile 1)) (demo (ty_ 0x10) (.waita 0 .lane (.tile 1))) { u := [0, 1] } (fun c => c.lowest ≠ 0 ∧ inside (demoTile 4 8 0x10 2 1) (flatAt (demoTile 4 8 0x10 2 1).desc 32) = false) := by
  refine ⟨?_, ?_, meets (by decide +kernel), meets (by decide +kernel), by decide +kernel, meets (by decide +kernel), ?_, meets (by decide +kernel), ⟨1, rfl⟩, meets (by decide +kernel)⟩
  · have h : ∀ n : Fin 3, issuesIn (.wait n.val 63 0 0) (demoG 0 (.wait n.val 63 0 0) fun g => { g with ld := [someStep], st := List.replicate 62 someStep }) {} (fun c =>
      decide (c.g.ld.length = 1 ∧ c.g.st.length = 62 ∧ c.g.copies.length = 0 ∧ c.g.mx.length = 0)) = true := by decide +kernel
    exact fun n => meets (h n)
  · have h : ∀ n ∈ ([0, 62, 63, 2 ^ 63] : List Nat), ∀ k : Fin 4, issuesIn (.waitr k.val 0) (demoG 0 (.waitr k.val 0) fun g => regs01 n 0 { g with st := List.replicate 62 someStep }) { u := [0] }
      (fun c => decide ((c.view.uni 0).1.toNat = n ∧ c.g.st.length = 62)) = true := by decide +kernel
    exact fun n hn k => meets (h n hn k)
  · simp only [List.forall_mem_cons, List.not_mem_nil, false_implies, implies_true, and_true]
    exact ⟨meets (by decide +kernel), meets (by decide +kernel), meets (by decide +kernel)⟩

/-- Group 1 of the small machine, with a release due. -/
def releaseDemo (r : Release) (f : Group → Group) : State := demoG 0 .nop fun g => f { g with release := some r }
def performedStep (b : Bool) : CStep := { someStep with performed := b }
theorem test_meets_FencesAndReleases :
    (∀ k ∈ ([1, 2, 3] : List (BitVec 2)), Meets (.fence k .team) (demoG 0 (.fence k .team) releasing) {} fun c => c.g.release.isSome = true) ∧
    (∀ k ∈ ([0, 2] : List (BitVec 2)), Meets (.fence k .sys) (demoG 0 (.fence k .sys) fun g => { g with ld := [performedStep false] }) {} fun c =>
      c.g.release = none ∧ c.g.loadsDone = false) ∧
    (∀ k ∈ ([0, 1, 2, 3] : List (BitVec 2)), Meets (.fence k .dev) (demoG 0 (.fence k .dev) fun g => { g with ld := [performedStep true] }) {} fun c =>
      c.g.release = none ∧ c.g.red = [] ∧ c.g.loadsDone = true) ∧
    Meets (.pbar true) (demoG 0 (.pbar true) releasing) {} (fun c => c.g.release.isSome = true) ∧ Meets (.pbar false) (demo 0 (.pbar false)) {} (fun c => c.g.release = none ∧ c.g.red = []) ∧
    (∃ g, (releaseDemo { aRelease .dev (.fence false) false with upto := 1 } fun g => { g with ld := [performedStep false] }).group? 1 = some g ∧ before g 1) ∧
    (let s := releaseDemo { aRelease .dev (.fence false) true with markers := [7] } id
     let s := { s with dev := { s.dev with marks := [⟨7, 0, [0]⟩] } }
     (∃ g, s.group? 1 = some g ∧ g.release = some { aRelease .dev (.fence false) true with markers := [7] }) ∧ ∃ m ∈ s.dev.marks, m.id ∈ [7]) ∧
    (let s := releaseDemo { aRelease .sys (.pbar true) true with markers := [7] } id
     let s := { s with durWait := [⟨0, 0x8000, [], none, [1], false, [], false, 7⟩] }
     (∃ g, s.group? 1 = some g ∧ g.release = some { aRelease .sys (.pbar true) true with markers := [7] }) ∧ ∃ w ∈ s.durWait, w.seq ∈ [7]) ∧
    (∃ g, (releaseDemo (aRelease .dev (.fence false) true) id).group? 1 = some g ∧ g.release = some (aRelease .dev (.fence false) true) ∧
      (releaseDemo (aRelease .dev (.fence false) true) id).dev.marks = []) ∧
    (∃ g, (releaseDemo (aRelease .dev (.arrive 23 none (some 7) true) true) id).group? 1 = some g ∧ g.release = some (aRelease .dev (.arrive 23 none (some 7) true) true) ∧
      (KMap.get? (releaseDemo (aRelease .dev (.arrive 23 none (some 7) true) true) id).ctxs ((releaseDemo (aRelease .dev (.arrive 23 none (some 7) true) true) id).kernel g.kernel).asid).isSome = true) ∧
    (let s := releaseDemo (aRelease .dev (.fence false) false) id
     (∃ g, s.group? 1 = some g ∧ g.release = some (aRelease .dev (.fence false) false) ∧ g.red = [] ∧ g.ld ++ g.st = [] ∧ g.parks = [] ∧ g.ioOut = false ∧ (s.core g.core).l1 = []) ∧
       s.dev.peerOut = [] ∧ s.dev.poolForeign = [] ∧ Memory.wf s.mem = true) ∧
    (let s := demoB .nop id [(3, { aBarrier none [] with phase := 1, due := [⟨[1], 0⟩] })]
     (barrierOf s false 1 3).due = [⟨[1], 0⟩] ∧ KMap.wf s.groups = true ∧ (∀ x ∈ s.groups.filter fun x => decide (x.2.team = 1), x.2.place ≠ .killed ∧ x.2.red = [] ∧ x.2.hold = none) ∧
       (∃ g, s.group? 1 = some g ∧ g.live = true)) ∧ (barrierOf (demo 0 .nop) false 1 15).due = [] ∧
    (barrierOf (demo 0 .nop) false 1 15).mode = none ∧
    (let s := demoB .nop id [(3, aBarrier (some none) [1])]
     (barrierOf s false 1 3).mode = some none ∧ phaseDone s false 1 3 = true) ∧
    let s := demoB .nop id [(3, aBarrier (some (some 2)) [1])]
    (barrierOf s false 1 3).mode = some (some 2) ∧ phaseDone s false 1 3 = false := by
  refine ⟨?_, ?_, ?_, meets (by decide +kernel), meets (by decide +kernel), ⟨_, rfl, .inl (by decide +kernel)⟩, ⟨⟨_, rfl, by decide +kernel⟩, by decide +kernel⟩,
    ⟨⟨_, rfl, by decide +kernel⟩, by decide +kernel⟩, ⟨_, rfl, by decide +kernel⟩, ⟨_, rfl, by decide +kernel⟩, ⟨⟨_, rfl, by decide +kernel⟩, by decide +kernel⟩,
    ⟨by decide +kernel, by decide +kernel, by decide +kernel, _, rfl, by decide +kernel⟩, by decide +kernel, by decide +kernel, by decide +kernel, by decide +kernel⟩ <;>
    simp only [List.forall_mem_cons, List.not_mem_nil, false_implies, implies_true, and_true]
  · exact ⟨meets (by decide +kernel), meets (by decide +kernel), meets (by decide +kernel)⟩
  · exact ⟨meets (by decide +kernel), meets (by decide +kernel)⟩
  · exact ⟨meets (by decide +kernel), meets (by decide +kernel), meets (by decide +kernel), meets (by decide +kernel)⟩

/-! Copies. -/

def regs4 (w : List Nat) (g : Group) : Group :=
  { g with s := (((g.s.set 0 (BitVec.ofNat 64 (w.getD 0 0))).set 1 (BitVec.ofNat 64 (w.getD 1 0))).set 2 (BitVec.ofNat 64 (w.getD 2 0))).set 3 (BitVec.ofNat 64 (w.getD 3 0)) }
def demoCpy (i : Instr) (w : List Nat) : State := demoOf 0 (encode i) (regs4 w) fun k => { k with
  records := k.records.map fun x => if x.1 = 1 then (1, demoRecord 0x101000 0x17) else x
  extents := k.extents }
/-- A descriptor of 2 rows of 4 elements between two endpoints. -/
def cpyDesc (src dst : Nat) : Nat := src * 2 ^ 56 + dst * 2 ^ 48 + 2 * 2 ^ 32 + 4 * 2 ^ 16

def tileReady (s : State) (c : Gang) (cmd : CopyCmd) (field origin n : Nat) (tr : Bool) : Bool := match fieldTile field with
  | none => true
  | some h => match s.tile c.g.team h with
    | none => false
    | some x => (cellsOf cmd n).all fun p => inside x (if tr then tileEl origin p.2 p.1 else tileEl origin p.1 p.2)
theorem tileReady_of {s : State} {c : Gang} {cmd : CopyCmd} {f o n : Nat} {tr : Bool} (h : tileReady s c cmd f o n tr = true) : TileReady s c cmd f o n tr := by
  intro h' hf
  unfold tileReady at h
  rw [hf] at h
  dsimp only at h
  split at h
  · cases h
  · rename_i x hx
    exact ⟨x, hx, fun p hp => inside_iff.mp (List.all_eq_true.mp h p hp)⟩
def recordReady (c : Gang) (cmd : CopyCmd) (field origin n : Nat) (write : Bool) : Bool := decide (224 ≤ field) || match snapRecord c.k (fieldRecord field) with
  | none => false
  | some (r, w) =>
    let spots := (cellsOf cmd n).flatMap fun p => recSpots w (cmd.recPos w origin p.1 p.2 n)
    decide (r = fieldRecord field) && !recMalformed w && !(recOf w).pointer && (spots.all fun p => decide (p.off + p.n ≤ if p.scale then (recOf (w.drop 5)).len else (recOf w).len)) &&
      decide ((recOf w).base % (if (recOf w).ty.w = 6 then 4 else if (recOf w).ty.w = 4 then 1 else (recOf w).ty.w / 8) = 0) &&
      (extentCheck c.k (fieldRecord field) w write spots).isNone
theorem recordReady_of {c : Gang} {cmd : CopyCmd} {f o n : Nat} {wr : Bool} (h : recordReady c cmd f o n wr = true) : RecordReady c cmd f o n wr := by
  intro hf
  unfold recordReady at h
  rw [Bool.or_eq_true] at h
  obtain h | h := h
  · exact absurd (of_decide_eq_true h) (by omega)
  split at h
  · cases h
  · rename_i r w hx
    simp only [Bool.and_eq_true, decide_eq_true_eq, Bool.not_eq_true', Option.isNone_iff_eq_none, List.all_eq_true] at h
    obtain ⟨⟨⟨⟨⟨rfl, h1⟩, h2⟩, h3⟩, h4⟩, h5⟩ := h
    exact ⟨w, hx, h1, h2, h3, h4, h5⟩
def clash (x y : Ty × Nat) : Bool := decide (decide (x.1.kind = .b16) ≠ decide (y.1.kind = .b16) ∨ (x.2 ≠ 0 ∧ (y.1.isInt = true ∨ y.1.kind = .b16)) ∨ (y.2 ≠ 0 ∧ (x.1.isInt = true ∨ x.1.kind = .b16)))
theorem clash_iff {x y : Ty × Nat} : clash x y = true ↔ FormatsClash x y := by simp [clash, FormatsClash]
def legal (op : Nat) (w : List W64) : Bool :=
  let a := wordAt w 0
  let m := wordAt w 2
  decide (bits a 14 13 = 0 ∧ bits a 7 0 = 0 ∧ bits a 10 8 ≤ 4 ∧ 1 ≤ bits a 47 32 ∧ 1 ≤ bits a 31 16 ∧ (bit a 15 = true → op = 0xD4) ∧ bits m 55 32 = 0 ∧
    (op ≠ 0xD3 → bits m 63 56 = 0 ∧ bits m 31 0 = 0) ∧ (op = 0xD0 → bits a 63 56 < 224 ∨ bits a 55 48 < 224) ∧ (op = 0xD4 → 224 ≤ bits a 63 56 ∧ 224 ≤ bits a 55 48) ∧
    (op = 0xD1 → (bits a 63 56 < 224 ↔ 224 ≤ bits a 55 48)) ∧ (op = 0xD3 → bits a 63 56 < 224 ∧ 224 ≤ bits a 55 48))
theorem legal_iff {op : Nat} {w : List W64} : legal op w = true ↔ DescriptorLegal op w := decide_eq_true_iff

/-- A copy instruction issues with a descriptor, and, where it makes a command, its endpoints are ready (R353). -/
def copyIn (i : Instr) (w : List Nat) (good : Bool) (p : State → Gang → Option CopyCmd → Bool) : Bool := match copyForm i with
  | none => false
  | some (op, a, u) =>
    let s := demoCpy i w
    issuesIn i s u fun c => decide (legal op (c.three a) = good) && decide (c.g.copies.length < 8) && c.g.release.isNone && match exec i s with
      | .next t => (t.group? c.gid).any fun g => p s c g.copies.getLast?
      | .fault _ | .refused _ => false
def endsReady (tr : Bool) (half : Nat) (s : State) (c : Gang) (x : Option CopyCmd) : Bool := x.any fun cmd =>
  let src := bits (wordAt (c.three 0) 0) 63 56
  let dst := bits (wordAt (c.three 0) 0) 55 48
  tileReady s c cmd src cmd.sorg cmd.cols false && tileReady s c cmd dst cmd.dorg cmd.cols (tr && cmd.tr) && recordReady c cmd src cmd.sorg (cmd.cols / half) false &&
    (decide (half = 2) || recordReady c cmd dst cmd.dorg cmd.cols true) && (formatAt s c src).any fun x => (formatAt s c dst).any fun y => !clash x y

/-- A command of an opcode and descriptor, at its first element. -/
def cmdOf (op : Nat) (w : List Nat) : CopyCmd :=
  { opcode := BitVec.ofNat 8 op, words := w.map (BitVec.ofNat 64), rnd := 0, sat := false, ftz := false, bnd := 0, acqdone := false, done := 0, rowMask := 0, rowOffs := [], srcRec := []
    dstRec := [], metaRec := [], destTile := 5, srcTile := 5, pc := 4, faulted := false, ended := false, released := false, marks := none, seq := 0, part := [], endDetail := (0, 0) }

theorem test_meets_CopyCommands :
    ([.cpy 0, .cpyo 0 .lane, .cpyg 0, .cpys 0, .cpyt 0] : List Instr).all (fun i => (copyForm i).any fun x =>
      issuesIn i (demoG 0 i fun g => { g with copies := List.replicate 8 (cmdOf 0xD4 []) }) x.2.2 (fun c => decide (8 ≤ c.g.copies.length)) &&
      issuesIn i (demoG 0 i releasing) x.2.2 (fun c => decide (c.g.copies.length < 8) && c.g.release.isSome) &&
      (decide (x.1 = 0xD2) || copyIn i [] false fun _ _ x => x.isNone)) = true ∧
    copyIn (.cpy 0) [cpyDesc 0 0xE0] true (endsReady true 1) = true ∧ copyIn (.cpy 0) [cpyDesc 0xE1 0] true (endsReady true 1) = true ∧
    copyIn (.cpyt 0) [cpyDesc 0xE0 0xE1 + 2 ^ 15, 4 + 2 * 2 ^ 16] true (endsReady true 1) = true ∧ copyIn (.cpyo 0 .lane) [cpyDesc 0 0xE0] true (endsReady false 1) = true ∧
    copyIn (.cpyo 0 .lane) [0xE0 * 2 ^ 48 + 33 * 2 ^ 32 + 2 ^ 16] true (fun _ c x => x.isNone && decide (c.k.width < 33)) = true ∧
    copyIn (.cpy 0) [cpyDesc 0 0xFF] true (fun s c x => x.isNone && (s.tile c.g.team 31).isNone) = true ∧
    copyIn (.cpy 0) [cpyDesc 223 0xE0] true (fun _ c x => x.isNone && (snapRecord c.k 223).isNone) = true ∧
    copyIn (.cpys 0) [cpyDesc 0 0xE0, 0, 2 ^ 56] true (fun s c x => endsReady false 2 s c x && x.any fun cmd => recordReady c cmd 1 cmd.morg (cmd.cols / 4) false &&
      decide ((recOf cmd.metaRec).ty.kind = .uint) && decide ((recOf cmd.metaRec).ty.w = 4)) = true ∧
    copyIn (.cpys 0) [cpyDesc 0 0xE0, 0, 224 * 2 ^ 56] true (fun _ _ x => x.isNone) = true ∧
    copyIn (.cpyt 0) [cpyDesc 0xE0 0xE1, 2 ^ 64 - 1] true (fun s c x => x.isNone && !tileReady s c (cmdOf 0xD4 [cpyDesc 0xE0 0xE1, 2 ^ 64 - 1]) 0xE0 (cmdOf 0xD4 [0, 2 ^ 64 - 1]).sorg 4 false) = true ∧
    copyIn (.cpy 0) [cpyDesc 0 0xE0, 0xFFFFFFFF] true (fun _ c x => x.isNone && !recordReady c (cmdOf 0xD0 [cpyDesc 0 0xE0, 0xFFFFFFFF]) 0 (cmdOf 0xD0 [0, 0xFFFFFFFF]).sorg 4 false) = true ∧
    (let s := demoOf 0 (encode (.cpy 0)) (regs4 [cpyDesc 1 0xE0]) fun k => { k with records := k.records.map fun x => if x.1 = 1 then (1, demoRecord 0x101000 0x0A) else x }
     issuesIn (.cpy 0) s { u := [0, 1, 2] } fun c => legal 0xD0 (c.three 0) && (formatAt s c 1).any fun x => (formatAt s c 0xE0).any fun y => clash x y) = true ∧
    Meets (.cpyg 0) (demoCpy (.cpyg 0) [4, 8, 16 * 2 ^ 32]) { u := [0, 1, 2] } (fun c => let w := c.three 0
      bits (wordAt w 2) 31 16 = 0 ∧ bits (wordAt w 2) 14 13 = 0 ∧ bits (wordAt w 2) 7 0 = 0 ∧ bits (wordAt w 2) 10 8 ≤ 4 ∧ (wordAt w 0).toNat % 4 = 0 ∧ (wordAt w 1).toNat % 4 = 0 ∧
        bits (wordAt w 2) 63 32 % 4 = 0 ∧ bits (wordAt w 0) 63 60 = 0 ∧ bits (wordAt w 1) 63 60 = 0) ∧
    Meets (.cpyg 0) (demoCpy (.cpyg 0) [4, 8, 1]) { u := [0, 1, 2] } (fun c => bits (wordAt (c.three 0) 2) 7 0 ≠ 0) ∧
    Meets (.cpyg 0) (demoCpy (.cpyg 0) [4, 7, 0]) { u := [0, 1, 2] } (fun c => (wordAt (c.three 0) 1).toNat % 4 ≠ 0 ∧ bits (wordAt (c.three 0) 2) 31 0 = 0) ∧
    Meets (.engsv 60) (demo 0 (.engsv 60)) { u := uRange 60 4 } (fun c => c.g.copies = []) ∧
    Meets (.engsv 0) (demoG 0 (.engsv 0) fun g => { g with copies := [cmdOf 0xD4 [1, 2, 3]] }) { u := uRange 0 4 } (fun c => c.g.copies = [cmdOf 0xD4 [1, 2, 3]] ∧
      (let x : W64 := BitVec.ofNat 64 (0xD4 * 2 ^ 56)
       bits x 63 56 = 0xD4 ∧ bits x 55 53 = 0 ∧ bit x 52 = false ∧ bit x 51 = false ∧ bit x 50 = false ∧ bits x 49 48 = 0 ∧ bits x 47 0 = 0)) ∧
    Meets (.engsv 0) (demoG 0 (.engsv 0) fun g => { g with copies := [cmdOf 0xD1 []] }) { u := uRange 0 4 } (fun c => c.g.copies = [cmdOf 0xD1 []]) ∧
    (∀ n ∈ ([2 ^ 48, 0, 0xD1 * 2 ^ 56, 0xD2 * 2 ^ 56 + 5 * 2 ^ 53] : List Nat), Meets (.engrs 0) (demoCpy (.engrs 0) [4, 8, 0, n]) { u := uRange 0 4 } fun c =>
      (c.view.uni 3).1.toNat = n ∧ c.g.copies.length < 8 ∧ c.g.release = none) := by
  refine ⟨by decide +kernel, by decide +kernel, by decide +kernel, by decide +kernel, by decide +kernel, by decide +kernel, by decide +kernel, by decide +kernel, by decide +kernel, by decide +kernel, by decide +kernel, by decide +kernel, by decide +kernel,
    meets (by decide +kernel), meets (by decide +kernel), meets (by decide +kernel), meets (by decide +kernel), meets (by decide +kernel), meets (by decide +kernel), ?_⟩
  have h : ∀ n ∈ ([2 ^ 48, 0, 0xD1 * 2 ^ 56, 0xD2 * 2 ^ 56 + 5 * 2 ^ 53] : List Nat), issuesIn (.engrs 0) (demoCpy (.engrs 0) [4, 8, 0, n]) { u := uRange 0 4 } (fun c =>
    decide ((c.view.uni 3).1.toNat = n ∧ c.g.copies.length < 8 ∧ c.g.release = none)) = true := by decide +kernel
  exact fun n hn => meets (h n hn)

/-- The small machine whose group has one command, oldest. -/
def movingDemo (cmd : CopyCmd) : State := demoT 0 .nop withTable fun g => { g with copies := [cmd] }
def moving (cmd : CopyCmd) : Bool := match (movingDemo cmd).group? 1 with
  | none => false
  | some g => decide (g.copies = [cmd]) && !engineStopped (movingDemo cmd) g && g.red.isEmpty && !cmd.faulted && !cmd.ended && !cmd.released && !cmd.acq
theorem moving_of {cmd : CopyCmd} (h : moving cmd = true) : ∃ g, Moving (movingDemo cmd) 1 g cmd [] := by
  unfold moving at h
  split at h
  · cases h
  · rename_i g hg
    simp only [Bool.and_eq_true, decide_eq_true_eq, Bool.not_eq_true', List.isEmpty_iff] at h
    obtain ⟨⟨⟨⟨⟨⟨h1, h2⟩, h3⟩, h4⟩, h5⟩, h6⟩, h7⟩ := h
    exact ⟨g, hg, h1, h2, ⟨h4, h5, h6⟩, .inl h7, h3⟩
def cpytCmd : CopyCmd := cmdOf 0xD4 [cpyDesc 0xE0 0xE1 + 2 ^ 15, 4 * 2 ^ 32]
def cpygCmd : CopyCmd := cmdOf 0xD2 [0x100000, 0x101000, 16 * 2 ^ 32]
def dechtCmd : CopyCmd := cmdOf 0x77 [desc4, 4]
def dechtWait : DecodeJob :=
  { gid := 1, kind := 2, d := 5, desc := BitVec.ofNat 64 desc4, desc2 := 4, stream := 5, mode := 0, slices := 255, table := none, card := false, seq := 0, old := tile5.words }
def cpygSpot (va : Nat) : Spot := { lane := 0, j := 0, scale := false, off := va, va := va, n := 4, sh := 0, w := 32 }
theorem test_meets_CopiesPerform : (∀ cmd ∈ [cpytCmd, cpygCmd, dechtCmd, { cpytCmd with done := 8 }], ∃ g, Moving (movingDemo cmd) 1 g cmd []) ∧
    (cpytCmd.opcode = 0xD4 ∧ bits (wordAt cpytCmd.words 0) 63 56 = 224 + 0 ∧ bits (wordAt cpytCmd.words 0) 55 48 = 224 + 1 ∧ cpytCmd.done < cpytCmd.rows * cpytCmd.cols ∧
      ((movingDemo cpytCmd).team 1).late = [] ∧ (movingDemo cpytCmd).tile 1 0 = some (demoTile 4 16 0x00 0 2) ∧ (movingDemo cpytCmd).tile 1 1 = some (demoTile 4 8 0x10 2 1) ∧
      inside (demoTile 4 16 0x00 0 2) (tileEl cpytCmd.sorg 0 0) = true ∧ inside (demoTile 4 8 0x10 2 1) (tileEl cpytCmd.dorg 0 0) = true) ∧
    (cpygCmd.opcode = 0xD2 ∧ cpygCmd.done < bits (wordAt cpygCmd.words 2) 63 32 / 4 ∧ ∃ g, (movingDemo cpygCmd).group? 1 = some g ∧
      (match locate (movingDemo cpygCmd) g.core g.kernel (engineAccess .fetch none) (cpygSpot 0x100000), readReach (movingDemo cpygCmd) g (engineAccess .fetch none) b16Exact (cpygSpot 0x100000) with
        | (_, .at_ ta pa), (s1, .read _ _ false) => (match locate s1 g.core g.kernel (engineAccess .stg none) (cpygSpot 0x101000) with
          | (s2, .at_ tb pb) => decide (ta.type ≠ 4) && decide (ta.type ≠ 3) && (movingDemo cpygCmd).dev.poolForeign.isEmpty && ((movingDemo cpygCmd).core g.core).l1.isEmpty && ((movingDemo cpygCmd).team g.team).late.isEmpty && decide (tb.type ≠ 4) && decide (tb.type ≠ 3) && decide (pa = 0x100000) && decide (pb = 0x101000) && Memory.wf s2.mem &&
            (s2.core g.core).l1.all fun e => KMap.wf e.bytes && e.bytes.all fun x => decide (x.1 < sectorSize e.sector)
          | _ => false)
        | _, _ => false) = true) ∧
    ({ cpytCmd with done := 8 }.total ≤ 8 ∧ { cpytCmd with done := 8 }.rel = false) ∧ cpytCmd.done < cpytCmd.total ∧
    (let s := (movingDemo dechtCmd).setCore 0 { (movingDemo dechtCmd).core 0 with decodeQ := [dechtWait] }
     (s.core 0).decodeQ.head? = some dechtWait ∧ dechtWait.gid = 1 ∧ dechtWait.kind = 2 ∧ dechtCmd.bnd ≠ 2 ∧ (s.team 1).late = [] ∧ dechtWait.old = tile5.words ∧ tile5.poison = [] ∧ s.tile 1 dechtCmd.srcTile = some tile5 ∧ s.tile 1 4 = some tableTile ∧
       tableTile.poison = [] ∧ KMap.wf tile5.words = true ∧ 0 + (4 + 64 - 1) / 64 ≤ tileRows tile5.desc ∧ 1 ≤ tileCols tile5.desc ∧ decLen dechtWait.desc = 4 ∧
       decEnd dechtWait.desc = 32 ∧ decStart dechtWait.desc = 0) := by
  refine ⟨?_, by decide +kernel, ⟨by decide +kernel, by decide +kernel, _, rfl, by decide +kernel⟩, by decide +kernel, by decide +kernel, by decide +kernel⟩
  simp only [List.forall_mem_cons, List.not_mem_nil, false_implies, implies_true, and_true]
  exact ⟨moving_of (by decide +kernel), moving_of (by decide +kernel), moving_of (by decide +kernel), moving_of (by decide +kernel)⟩

/-! The matrix unit. -/

/-- The small machine with shape and scale records, and entries in its core's queue. -/
def demoM (mode : BitVec 24) (i : Instr) (shape scale : List Nat) (q : List MEntry) (f : Group → Group) : State :=
  let s := demoG mode i fun g => f { g with shape := shape.map (BitVec.ofNat 64), scale := scale.map (BitVec.ofNat 64) }
  s.setCore 0 { s.core 0 with mq := q }
/-- An entry of group 1 of a kind. -/
def entry (kind : MKind) (i : Instr) : MEntry :=
  { gid := 1, kind := kind, word := encodeWord i, pc := 4, slices := 255, mode := 0, budget := 0, shape := [0, 0, 0], scale := [0, 0, 0], origin := 0, lanes := 0xFFFFFFFF, d := 0, tile := 0, flag := none
    holds := false, started := false, acqdone := false, seq := 0, image := [], old := [] }
def mma2 : Instr := .mma 0 2 3 false false false false 0 false
def mma5 : Instr := .mma 15 5 5 false false true false 4 false
/-- The shapes of 16 by 16 by 16 on F16 tiles, and of 8 by 8 by 32 on N8 tiles. -/
def shape2 : List Nat := [9, 16 + 2 ^ 16, 1 + 16 * 2 ^ 16]
def shape5 : List Nat := [0, 32 + 2 ^ 16, 32 + 2 ^ 16]
def mmaReady (s : State) (c : Gang) (hA hB : TileNo) (k : MClass) : Bool := match s.tile c.g.team hA, s.tile c.g.team hB with
  | some a, some b =>
    let w0 := wordAt c.view.shape 0
    let mapA := wordAt c.view.shape 1
    let mapB := wordAt c.view.shape 2
    decide (classOf (tileTy a.desc) (tileTy b.desc) = some k) && (classOf (tileTy a.desc) (tileTy a.desc)).isSome && (classOf (tileTy b.desc) (tileTy b.desc)).isSome &&
      decide (k ≠ .f64) && !bit w0 5 && decide (bits w0 2 0 ≠ 5) && decide (bits (wordAt c.view.scale 0) 1 0 = 0) &&
      decide (bits mapA 47 32 + (2 ^ (bits w0 2 0 + 3) - 1) * bits mapA 15 0 + (bits mapA 63 48 + (classK k (bit w0 5) - 1)) * bits mapA 31 16 < tileRows a.desc * tileCols a.desc) &&
      decide (bits mapB 47 32 + (2 ^ (bits w0 4 3 + 3) - 1) * bits mapB 15 0 + (bits mapB 63 48 + (classK k (bit w0 5) - 1)) * bits mapB 31 16 < tileRows b.desc * tileCols b.desc)
  | _, _ => false
theorem mmaReady_of {s : State} {c : Gang} {hA hB : TileNo} {k : MClass} {p : BitVec 3} {acc : Fin 16} (h : mmaReady s c hA hB k = true) (hp : p.toNat ≤ 4) :
    MmaFields s c acc hA hB p false ∧ MmaFormats s c hA hB ∧ MmaTiles s c hA hB false := by
  unfold mmaReady at h
  split at h
  · rename_i a b ha hb
    simp only [Bool.and_eq_true, decide_eq_true_eq, Bool.not_eq_true'] at h
    obtain ⟨⟨⟨⟨⟨⟨⟨⟨h1, h2⟩, h3⟩, h4⟩, h5⟩, h6⟩, h7⟩, h8⟩, h9⟩ := h
    have hc : mmaClass s c hA hB = some k := by simp [mmaClass, ha, hb, h1]
    have hs : mmaScaled s c hA hB = false := by simp [mmaScaled, hc, h7]
    have f1 : MmaFields s c acc hA hB p false := by
      simp only [MmaFields, hp, h5, h6, hc, true_and, Bool.false_eq_true, false_implies, and_true]
      exact fun h => absurd (Option.some.inj h) h4
    refine ⟨f1, ⟨?_, fun _ _ => by simp [hc], fun h => by rw [hs] at h; cases h⟩, a, b, k, ha, hb, hc, h8, h9, fun h => absurd (hs.symm.trans h) (by decide), fun h => by cases h⟩
    rintro h (rfl | rfl) x hx
    · rw [ha] at hx; cases hx; exact h2
    · rw [hb] at hx; cases hx; exact h3
  · cases h
def accSrc (b : Nat) (g : Group) : Group := { g with s := g.s.set 63 (BitVec.ofNat 64 b) }
def fullQueue : List MEntry := List.replicate 16 (entry .accz (.accz 1))
/-- `MSAVE` with a started `MMA` of its group, alone in the queue. -/
def savesStarted : Bool :=
  let e : MEntry := { entry .mma mma2 with started := true, shape := shape2.map (BitVec.ofNat 64), mode := tyAnd 0 0x200 }
  let s := demoM (tyAnd 0 0x200) (.msave 4) shape2 [0, 0, 0] [e] id
  issuesIn (.msave 4) s {} fun c => decide (c.lanes ≠ 0) && (s.tile c.g.team 4 == some (demoTile 32 64 0x00 9 43)) && decide (leader c.k c.g = 0) && decide (modeBnd e.mode ≠ 2) &&
    (s.team c.g.team).late.isEmpty && KMap.wf (demoTile 32 64 0x00 9 43).words && match mmaCheck s c.g e.word e.shape e.scale e.mode e.lanes with
      | .ok pl => !(mmaStart (entered s c) (leader c.k c.g) c.g e pl).bad
      | .error _ => false
theorem test_meets_MatrixInstructions :
    ([mma2, .accz 1, .msave 4, .mres 4, .mshape 62, .mscale 0, .accrd 239 0 0 63, .accwr 239 0 0 63] : List Instr).all (fun i => (matrixForm i).any fun u =>
      issuesIn i (demo (tyAnd 0 0x8000) i) u fun c => decide (c.lanes = 0)) = true ∧
    (∀ n ∈ ([0, 1, 0x19, 6, 0x140, 0x800] : List Nat), Meets (.mshape 62) (demoG 0 (.mshape 62) fun g => { g with s := g.s.set 62 (BitVec.ofNat 64 n) }) { u := uRange 62 3 } fun c =>
      c.lanes ≠ 0 ∧ (wordAt (c.three 62) 0).toNat = n) ∧
    (∀ n ∈ ([0, 1, 2, 3, 4] : List Nat), Meets (.mscale 62) (demoG 0 (.mscale 62) fun g => { g with s := g.s.set 62 (BitVec.ofNat 64 n) }) { u := uRange 62 3 } fun c =>
      c.lanes ≠ 0 ∧ (wordAt (c.three 62) 0).toNat = n ∧ bits (wordAt (c.three 62) 1) 15 5 = 0 ∧ bits (wordAt (c.three 62) 2) 15 5 = 0) ∧
    (∃ c, Issues mma2 (demoM 0 mma2 shape2 [0, 0, 0] [] id) c {} ∧ c.lanes ≠ 0 ∧ c.run.words.headD 0 = encodeWord mma2 ∧ ((demoM 0 mma2 shape2 [0, 0, 0] [] id).core (leader c.k c.g)).mq = [] ∧
      MmaFields (demoM 0 mma2 shape2 [0, 0, 0] [] id) c 0 2 3 0 false ∧ MmaFormats (demoM 0 mma2 shape2 [0, 0, 0] [] id) c 2 3 ∧ MmaTiles (demoM 0 mma2 shape2 [0, 0, 0] [] id) c 2 3 false) ∧
    (∃ c, Issues mma5 (demoM (tyAnd 0 0x100) mma5 shape5 [0, 0, 0] [] id) c {} ∧ c.lanes ≠ 0 ∧ c.run.words.headD 0 = encodeWord mma5 ∧ ((demoM (tyAnd 0 0x100) mma5 shape5 [0, 0, 0] [] id).core (leader c.k c.g)).mq = [] ∧
      MmaFields (demoM (tyAnd 0 0x100) mma5 shape5 [0, 0, 0] [] id) c 15 5 5 4 false ∧ MmaFormats (demoM (tyAnd 0 0x100) mma5 shape5 [0, 0, 0] [] id) c 5 5 ∧
      MmaTiles (demoM (tyAnd 0 0x100) mma5 shape5 [0, 0, 0] [] id) c 5 5 false) ∧
    (∀ i ∈ ([mma2, .accz 1, .accrd 239 0 0 63, .accwr 239 0 0 63, .mres 4] : List Instr), ∃ u, matrixForm i = some u ∧
      Meets i (demoM 0 i shape2 [0, 0, 0] fullQueue id) u fun c => c.lanes ≠ 0 ∧ 16 ≤ ((demoM 0 i shape2 [0, 0, 0] fullQueue id).core (leader c.k c.g)).mq.length) ∧
    Meets mma2 (demoM 0 mma2 [13, 0, 0] [0, 0, 0] [] id) {} (fun c => c.lanes ≠ 0 ∧ bits (wordAt c.view.shape 0) 2 0 = 5) ∧
    Meets (.mma 0 2 5 false false false false 0 false) (demoM 0 (.mma 0 2 5 false false false false 0 false) shape5 [0, 0, 0] [] id) {} (fun c => c.lanes ≠ 0 ∧
      mmaClass (demoM 0 (.mma 0 2 5 false false false false 0 false) shape5 [0, 0, 0] [] id) c 2 5 = none) ∧
    Meets (.mma 0 2 31 false false false false 0 false) (demoM 0 (.mma 0 2 31 false false false false 0 false) shape5 [0, 0, 0] [] id) {} (fun c => c.lanes ≠ 0 ∧
      (demoM 0 (.mma 0 2 31 false false false false 0 false) shape5 [0, 0, 0] [] id).tile c.g.team 31 = none) ∧
    (∀ n ∈ ([0, 127, 31 * 2 ^ 16, 128, 32 * 2 ^ 16, 2 ^ 32] : List Nat), Meets (.accrd 239 1 0 63) (demoG 0 (.accrd 239 1 0 63) (accSrc n)) (accUses 239 0 63) fun c =>
      c.lanes ≠ 0 ∧ (c.view.uni 63).1.toNat = n ∧ c.ty = some tyF32 ∧ (∀ f, c.nextFlag = some f → bit c.g.cflags f.val = false)) ∧
    Meets (.accwr 238 1 0 63) (demo (ty_ 0x01) (.accwr 238 1 0 63)) (accUses 238 0 63) (fun c => c.ty.any (fun t => decide (t.kind = .flt .f64)) = true ∧ c.lanes ≠ 0) ∧
    Meets (.accwr 238 1 0 63) (demo (ty_ 0x02) (.accwr 238 1 0 63)) (accUses 238 0 63) (fun c => c.ty.any (fun t => decide (t.kind = .flt .f64 ∨ t.kind = .flt .f32 ∨ (t.isInt = true ∧ t.w = 32))) = false ∧ c.lanes ≠ 0) ∧
    (∀ q ∈ ([[], [entry .mma mma2], [entry .accz (.accz 1)], [entry .mma mma2, entry .mma mma2]] : List (List MEntry)), ∀ i ∈ ([.msave 4, .mres 4] : List Instr),
      Meets i (demoM 0 i shape2 [0, 0, 0] q id) {} fun c => c.lanes ≠ 0 ∧ (demoM 0 i shape2 [0, 0, 0] q id).tile c.g.team 4 = some (demoTile 32 64 0x00 9 43) ∧
        4864 ≤ tileBytes (demoTile 32 64 0x00 9 43).desc ∧ (((demoM 0 i shape2 [0, 0, 0] q id).core (leader c.k c.g)).mq.filter fun e => decide (e.gid = c.gid)) = q) ∧
    savesStarted = true ∧
    (∀ i ∈ ([.msave 5, .mres 5] : List Instr), Meets i (demo 0 i) {} fun c => c.lanes ≠ 0 ∧ (demo 0 i).tile c.g.team 5 = some tile5 ∧ tileBytes tile5.desc < 4864) := by
  refine ⟨by decide +kernel, ?_, ?_, ?_, ?_, ?_, meets (by decide +kernel), meets (by decide +kernel), meets (by decide +kernel), ?_, meets (by decide +kernel), meets (by decide +kernel), ?_, by decide +kernel, ?_⟩
  · have h : ∀ n ∈ ([0, 1, 0x19, 6, 0x140, 0x800] : List Nat), issuesIn (.mshape 62) (demoG 0 (.mshape 62) fun g => { g with s := g.s.set 62 (BitVec.ofNat 64 n) }) { u := uRange 62 3 }
      (fun c => decide (c.lanes ≠ 0 ∧ (wordAt (c.three 62) 0).toNat = n)) = true := by decide +kernel
    exact fun n hn => meets (h n hn)
  · have h : ∀ n ∈ ([0, 1, 2, 3, 4] : List Nat), issuesIn (.mscale 62) (demoG 0 (.mscale 62) fun g => { g with s := g.s.set 62 (BitVec.ofNat 64 n) }) { u := uRange 62 3 }
      (fun c => decide (c.lanes ≠ 0 ∧ (wordAt (c.three 62) 0).toNat = n ∧ bits (wordAt (c.three 62) 1) 15 5 = 0 ∧ bits (wordAt (c.three 62) 2) 15 5 = 0)) = true := by decide +kernel
    exact fun n hn => meets (h n hn)
  · obtain ⟨c, h1, h2, h3, h4, h5⟩ := meets (i := mma2) (s := demoM 0 mma2 shape2 [0, 0, 0] [] id) (u := {}) (P := fun c => c.lanes ≠ 0 ∧ c.run.words.headD 0 = encodeWord mma2 ∧
      ((demoM 0 mma2 shape2 [0, 0, 0] [] id).core (leader c.k c.g)).mq = [] ∧ mmaReady (demoM 0 mma2 shape2 [0, 0, 0] [] id) c 2 3 .f16 = true) (by decide +kernel)
    exact ⟨c, h1, h2, h3, h4, mmaReady_of h5 (by decide)⟩
  · obtain ⟨c, h1, h2, h3, h4, h5⟩ := meets (i := mma5) (s := demoM (tyAnd 0 0x100) mma5 shape5 [0, 0, 0] [] id) (u := {}) (P := fun c => c.lanes ≠ 0 ∧ c.run.words.headD 0 = encodeWord mma5 ∧
      ((demoM (tyAnd 0 0x100) mma5 shape5 [0, 0, 0] [] id).core (leader c.k c.g)).mq = [] ∧ mmaReady (demoM (tyAnd 0 0x100) mma5 shape5 [0, 0, 0] [] id) c 5 5 .int8 = true) (by decide +kernel)
    exact ⟨c, h1, h2, h3, h4, mmaReady_of h5 (by decide)⟩
  · simp only [List.forall_mem_cons, List.not_mem_nil, false_implies, implies_true, and_true]
    exact ⟨⟨_, rfl, meets (by decide +kernel)⟩, ⟨_, rfl, meets (by decide +kernel)⟩, ⟨_, rfl, meets (by decide +kernel)⟩, ⟨_, rfl, meets (by decide +kernel)⟩, ⟨_, rfl, meets (by decide +kernel)⟩⟩
  · have h : ∀ n ∈ ([0, 127, 31 * 2 ^ 16, 128, 32 * 2 ^ 16, 2 ^ 32] : List Nat), issuesIn (.accrd 239 1 0 63) (demoG 0 (.accrd 239 1 0 63) (accSrc n)) (accUses 239 0 63) (fun c =>
      decide (c.lanes ≠ 0 ∧ (c.view.uni 63).1.toNat = n ∧ c.ty = some tyF32 ∧ (∀ f, c.nextFlag = some f → bit c.g.cflags f.val = false))) = true := by decide +kernel
    exact fun n hn => meets (h n hn)
  · simp only [List.forall_mem_cons, List.not_mem_nil, false_implies, implies_true, and_true]
    exact ⟨⟨meets (by decide +kernel), meets (by decide +kernel)⟩, ⟨meets (by decide +kernel), meets (by decide +kernel)⟩, ⟨meets (by decide +kernel), meets (by decide +kernel)⟩,
      meets (by decide +kernel), meets (by decide +kernel)⟩
  · simp only [List.forall_mem_cons, List.not_mem_nil, false_implies, implies_true, and_true]
    exact ⟨meets (by decide +kernel), meets (by decide +kernel)⟩

/-- What a queue with one entry, whose unit is free to take it, must be. -/
def headIs (t : State) (started : Bool) (p : MEntry → Group → Bool) : Bool := match (t.core 0).mq, t.group? 1 with
  | [e], some g => decide (e.gid = 1) && decide (e.started = started) && !(t.kernel g.kernel).pair && !(t.kernel g.kernel).prot &&
      (t.cores.all fun x => KMap.wf x.2.acc && KMap.wf x.2.rowBound) && decide (t.cores.length = 1) && (t.team g.team).late.isEmpty && !slaved t 0 && !followerBusy t 0 e && p e g
  | _, _ => false
/-- The state after an instruction that enters the queue, its entry waiting; and after its entry has started. -/
def headDue (mode : BitVec 24) (i : Instr) (shape : List Nat) (p : State → MEntry → Group → Bool) : Bool :=
  isNext (exec i (demoM mode i shape [0, 0, 0] [] id)) fun t => headIs t false (p t)
def headStarted (mode : BitVec 24) (i : Instr) (shape : List Nat) (p : State → MEntry → Group → Bool) : Bool :=
  isNext (exec i (demoM mode i shape [0, 0, 0] [] id)) fun t => isNext (exec (.matrixEntryStart 0) t) fun t => headIs t true (p t)
/-- A started `MMA` whose tiles are as when it started, on an empty latch. -/
def mmaDue (t : State) (e : MEntry) (g : Group) (q : MPlan → Bool) : Bool := decide (e.kind = .mma) && decide (e.image = []) && (t.core 0).latch.isNone && (t.core 0).accPoison.isEmpty &&
  decide (modeBnd e.mode ≠ 2) && !modeFtz e.mode && ([mmaA e.word, mmaB e.word].all fun h => (t.tile g.team h).any (fun x => x.poison.isEmpty) && (KMap.get? e.old h.val == t.tile g.team h)) &&
  match mmaCheck t g e.word e.shape e.scale e.mode e.lanes with
    | .ok pl => !scalesApply pl.cls (wordAt e.scale 0) && decide (pl.m ≤ 128) && q pl
    | .error _ => false
/-- The group waits for an `ACCRD` of one row into v239. -/
def accrdDue (e : MEntry) (g : Group) : Bool := decide (e.kind = .accrd) && !wideMode e.mode && decide (bits e.word 11 8 = 0) && decide (e.d = 239) && decide (bits e.origin 31 0 = 0) &&
  match g.pend.find? fun p => decide (p.kind = ResultKind.accrd) with
    | some p => (match p.writes with
      | [.v r _ m] => decide (r = .v 239) && decide (m = e.lanes)
      | _ => false)
    | none => false
theorem test_meets_MatrixUnitPerforms :
    headDue (tyAnd 0 0x200) mma2 shape2 (fun _ e g => decide (e.kind = .mma) && !bit (wordAt e.shape 0) 9 && g.ld.isEmpty) = true ∧
    headDue 0 (.accz 0x8001) shape2 (fun _ e _ => decide (e.kind = .accz)) = true ∧
    headDue 0 (.accwr 239 1 0 63) shape2 (fun _ e _ => decide (e.kind = .accwr) && !wideMode e.mode && decide (bits e.origin 15 0 + (bits e.word 11 8 + 1) ≤ 128) && decide (e.d = 239) &&
      decide (bits e.word 11 8 = 0)) = true ∧
    headDue 0 (.accrd 239 1 0 63) shape2 (fun _ e g => accrdDue e g) = true ∧
    headStarted (tyAnd 0 0x200) mma2 shape2 (fun t e g => decide (modeTier e.mode ≠ 0) && mmaDue t e g fun pl => decide (pl.cls = .f16) && decide (pl.m = 16) &&
      ((List.range 16).all fun i => (List.range 16).all fun q => (opdAt (demoTile 16 16 0x02 3 3) e false (mapIndex (wordAt e.shape 1) i q)).v.isFinite)) = true ∧
    headStarted 0 mma5 shape5 (fun t e g => !modeSat e.mode && mmaDue t e g fun pl => decide (pl.cls = .int8) && decide (pl.m = 8) && (t.tile g.team (mmaA e.word) == some tile5)) = true ∧
    headStarted 0 (.accz 0x8001) shape2 (fun _ e _ => decide (e.kind = .accz)) = true ∧
    headStarted 0 (.accrd 239 1 0 63) shape2 (fun t e g => (t.core 0).accPoison.isEmpty && accrdDue e g) = true ∧
    (∀ n : Fin 2, ∃ g, (demoG 0 .nop fun g => { g with mx := [⟨n.val, false, .grp, 0, 0, false, none⟩] }).group? 1 = some g ∧ g.mx = [⟨n.val, false, .grp, 0, 0, false, none⟩]) :=
  ⟨by decide +kernel, by decide +kernel, by decide +kernel, by decide +kernel, by decide +kernel, by decide +kernel, by decide +kernel, by decide +kernel, fun _ => ⟨_, rfl, rfl⟩⟩

/-! System and context instructions. -/

def reg0u (n : Nat) (g : Group) : Group := { g with s := g.s.set 0 (BitVec.ofNat 64 n) }
/-- Queue 0's descriptor lies in record 0; its producer count is n. -/
def enqDemo (n : Nat) : State :=
  { demoG 0 (.enq 0 1 0) fun g => { g with s := g.s.set 1 0x100000 } with mem := (demoMem.filter fun c => decide (c.1 < 0x30018)) ++ (if n = 0 then [] else [(0x30018, BitVec.ofNat 8 n)]) ++
    (demoMem.filter fun c => decide (0x30018 < c.1)) }
def errDemo (n : Nat) : State := { demo 0 (.errlog 0 1 2) with parts := State.reset.parts.set 0 { Partition.reset with regs := { PartRegs.reset with elBase := 0x40000, elProd := BitVec.ofNat 32 n } } }
/-- Another group of the team waits in the core's hall. -/
def pairDemo (i : Instr) : State :=
  let s := demo 0 i
  { s with groups := s.groups ++ s.groups.map fun x => (2, { x.2 with number := 1, place := .hall 0, run := none }) }
theorem test_meets_SystemAndContextInstructions :
    AllMeet 0 (fun _ => true) ([(.rdtrap 63 7, { u := [63] }), (.rdtrap 0 0, { u := [0] })] ++ [0, 9, 10, 15, 18, 19, 21, 22, 26, 27, 63].map fun n => (.pmc 63 (BitVec.ofNat 6 n), { u := [63] })) ∧
    (∀ i ∈ ([.rdctx 1 0, .wrctx 0 1] : List Instr), ∀ n ∈ ([0, 0x31F, 0x320, 0x370, 0x3C0, 0x3F8, 0xA00, 0xA78, blockTail 240 - 8, blockTail 240, blockTail 240 + 10744, blockTail 240 + 10752] : List Nat),
      ∀ h ∈ ([id, handling] : List (Group → Group)), (blockForm i).any (fun x => issuesIn i (demoG 0 i fun g => reg0u n (h g)) x.2 fun c => decide ((c.view.uni 0).1.toNat = n) &&
        c.g.poison.isEmpty && !c.k.score && !c.k.prot && decide (c.k.budgetOf c.g.role = 240) && KMap.wf c.g.saved) = true) ∧
    Meets (.errlog 0 1 2) (errDemo 64) { u := [0, 1, 2] } (fun c => c.k.part < 8 ∧ ((errDemo 64).part c.k.part).regs.elProd = 64 ∧ ((errDemo 64).part c.k.part).regs.elSize = 6) ∧
    Meets (.errlog 0 1 2) (errDemo 63) { u := [0, 1, 2] } (fun c => c.k.part < 8 ∧ ((errDemo 63).part c.k.part).regs.elProd = 63 ∧ Memory.wf (errDemo 63).mem = true) ∧
    (∀ n ∈ ([0, 1, 2] : List (BitVec 8)), Meets (.ctxdead 238 n) (demo 0 (.ctxdead 238 n)) {} fun c => 238 + n.toNat ≤ c.k.budgetOf c.g.role ∧ c.lacksSlice = false ∧
      writesDue (demo 0 (.ctxdead 238 n)) c.gid c.g 238 n.toNat = false ∧ KMap.wf c.g.v = true) ∧
    Meets (.ctxdead 238 3) (demo 0 (.ctxdead 238 3)) {} (fun c => c.k.budgetOf c.g.role = 240) ∧
    Meets (.ctxdead 238 2) (demoG 0 (.ctxdead 238 2) fun g => { g with run := g.run.map fun r => { r with slices := 1 } }) {} (fun c => c.lacksSlice = true ∧ 240 ≤ c.k.budgetOf c.g.role) ∧
    Meets (.ctxdead 238 2) (demoG 0 (.ctxdead 238 2) fun g => { g with ld := [{ someStep with writes := [.v (.v 239) VLine.zero 1] }] }) {} (fun c => c.lacksSlice = false ∧
      writesDue (demoG 0 (.ctxdead 238 2) fun g => { g with ld := [{ someStep with writes := [.v (.v 239) VLine.zero 1] }] }) c.gid c.g 238 2 = true) ∧
    (∀ pin ∈ [true, false], Meets (.ctxpin 176 64 pin) (demo 0 (.ctxpin 176 64 pin)) {} fun c => 176 + 64 ≤ c.k.budgetOf c.g.role ∧ c.g.pinned.length + 64 ≤ 64) ∧
    Meets .unseat (demo 0 .unseat) {} (fun c => c.last = true ∧ ∀ x ∈ candidatesOn (entered (demo 0 .unseat) c) c.core, x.2.team ≠ c.g.team) ∧
    Meets .unseat (pairDemo .unseat) {} (fun c => c.last = true ∧ c.g.inHandler = false ∧ ∃ x ∈ candidatesOn (entered (pairDemo .unseat) c) c.core, x.2.team = c.g.team) ∧
    Meets (.enq 0 1 0) (demoG 0 (.enq 0 1 0) fun g => { g with s := g.s.set 1 64 }) { u := [0, 1] } (fun c => (c.view.uni 1).1.toNat % 128 ≠ 0) ∧
    Meets (.enq 0 1 0) (enqDemo 0) { u := [0, 1] } (fun c => (c.view.uni 1).1 = 0x100000 ∧ unhindered c = true ∧
      present (enqDemo 0) c (c.access (.enq 0 0) 0 c.lowest (Vector.replicate 32 0x100000) [] none none (some 0)) false false = true) ∧
    (∀ n ∈ ([0, 4] : List Nat), ∃ t, exec (.enq 0 1 0) (enqDemo n) = .next t ∧ (t.group? 1).any (fun g => g.seated && g.run.isSome && match g.hold with
      | some (.enq acc) => decide (acc.op = .enq 0 0) && (match enqRead t 1 acc with
        | (s1, .words _) => (queueEntry s1 (s1.kernel g.kernel).asid 0).any fun x => x.device && x.enable && decide ((x.wr - x.rd).toNat = n) && decide (x.size = 2) &&
            (ctxPage s1 (s1.kernel g.kernel).asid (x.ring + 128 * (x.wr.toNat % 4))).any (fun y => decide (y.1.type ≠ 3) && decide (y.2 % 128 = 0) && decide (y.2 + 128 ≤ x.pa + 24 ∨ x.pa + 28 ≤ y.2)) &&
            Memory.wf s1.mem && s1.dev.poolForeign.isEmpty && (s1.core g.core).l1.all fun e => KMap.wf e.bytes && e.bytes.all fun x => decide (x.1 < sectorSize e.sector)
        | _ => false)
      | _ => false) = true) ∧
    (∀ x, queueEntry (enqDemo 0) 1 1 = some x → x.device = false) ∧ (queueEntry (enqDemo 0) 1 1).isSome = true := by
  refine ⟨meets_all (by decide +kernel), ?_, meets (by decide +kernel), meets (by decide +kernel), ?_, meets (by decide +kernel), meets (by decide +kernel), meets (by decide +kernel), ?_,
    meets (by decide +kernel), meets (by decide +kernel), meets (by decide +kernel), meets (by decide +kernel), ?_, ?_, by decide +kernel⟩
  · simp only [List.forall_mem_cons, List.not_mem_nil, false_implies, implies_true, and_true]
    decide +kernel
  · have h : ∀ n ∈ ([0, 1, 2] : List (BitVec 8)), issuesIn (.ctxdead 238 n) (demo 0 (.ctxdead 238 n)) {} (fun c => decide (238 + n.toNat ≤ c.k.budgetOf c.g.role ∧ c.lacksSlice = false ∧
      writesDue (demo 0 (.ctxdead 238 n)) c.gid c.g 238 n.toNat = false ∧ KMap.wf c.g.v = true)) = true := by decide +kernel
    exact fun n hn => meets (h n hn)
  · have h : ∀ pin ∈ [true, false], issuesIn (.ctxpin 176 64 pin) (demo 0 (.ctxpin 176 64 pin)) {} (fun c => decide (176 + 64 ≤ c.k.budgetOf c.g.role ∧ c.g.pinned.length + 64 ≤ 64)) = true := by
      decide +kernel
    exact fun n hn => meets (h n hn)
  · simp only [List.forall_mem_cons, List.not_mem_nil, false_implies, implies_true, and_true]
    exact ⟨next_of (by decide +kernel), next_of (by decide +kernel)⟩
  · have h : (queueEntry (enqDemo 0) 1 1).all (fun x => decide (x.device = false)) = true := by decide +kernel
    intro x hx
    rw [hx] at h
    exact of_decide_eq_true h

/-! Legacy instructions, results and waits that complete. -/

/-- The run stands at a micro-step. -/
def atMicro (n : Nat) (g : Group) : Group := { g with run := g.run.map fun r => { r with micro := n } }
/-- Register v6 holds one value in every lane. -/
def v6Is (x : W32) (g : Group) : Group := { g with v := [(6, ⟨Vector.replicate 32 x, Vector.replicate 32 0⟩)] }
def legacyIn (i : Instr) (ranges : List (VReg × Nat)) (micro : Nat) (x : W32) (p : Gang → Bool) : Bool :=
  let s := demoG 0 i fun g => v6Is x (atMicro micro g)
  issuesIn i s { ranges := ranges } fun c => (s.tile c.g.team 1 == some (demoTile 4 8 0x10 2 1)) && unhindered c && decide (c.run.micro = micro) && p c
def insideLegacy (c : Gang) (a : Src) : Bool := (List.range 32).all fun l => !bit c.lanes l || (decide ((c.low32 a l).toNat % 4 = 0) && decide ((c.low32 a l).toNat < tileBytes (demoTile 4 8 0x10 2 1).desc))
theorem insideLegacy_of {c : Gang} {a : Src} (h : insideLegacy c a = true) : LegacyInside c (demoTile 4 8 0x10 2 1) a := by
  intro l hl hb
  have := List.all_eq_true.mp h l (List.mem_range.mpr hl)
  simpa [hb] using this
def lldsRun : Instr := .llds 5 6 225
def lstsRun : Instr := .lsts 5 6 225
def lmmaRun : Instr := .lmma3 15 226 227
theorem test_meets_LegacyInstructions :
    (∀ i ∈ ([.lmma3 16 226 227, .lmma3 0 223 227, .lmma3 0 226 0] : List Instr), Meets i (demo 0 i) {} fun c => c.run.micro = 0) ∧
    (∀ n ∈ ([0, 1, 2, 3] : List Nat), ∃ c, Issues lmmaRun (demoM 0 lmmaRun shape2 [0, 0, 0] [] (atMicro n)) c {} ∧ c.run.micro = n ∧ c.lanes ≠ 0 ∧ c.g.mx = [] ∧ modeBnd c.mode ≠ 2 ∧
      ((demoM 0 lmmaRun shape2 [0, 0, 0] [] (atMicro n)).core (leader c.k c.g)).mq = [] ∧
      MmaFields (demoM 0 lmmaRun shape2 [0, 0, 0] [] (atMicro n)) c 15 2 3 0 false ∧ MmaFormats (demoM 0 lmmaRun shape2 [0, 0, 0] [] (atMicro n)) c 2 3 ∧
      MmaTiles (demoM 0 lmmaRun shape2 [0, 0, 0] [] (atMicro n)) c 2 3 false ∧
      ∀ h, h = 2 ∨ h = 3 → (((demoM 0 lmmaRun shape2 [0, 0, 0] [] (atMicro n)).tile c.g.team h).all fun x => decide ((tileTy x.desc).kind = .flt .f16)) = true) ∧
    Meets (.lmma3 0 229 227) (demoG 0 (.lmma3 0 229 227) (atMicro 1)) {} (fun c => c.run.micro = 1 ∧ c.lanes ≠ 0 ∧ ((demoG 0 (.lmma3 0 229 227) (atMicro 1)).tile c.g.team 5 = some tile5) ∧
      (tileTy tile5.desc).kind ≠ .flt .f16) ∧
    (getDst 5 = .ok (rd 5) ∧ getSrc 5 = .ok (rs 5) ∧ getSrc 6 = .ok (rs 6) ∧ (225 : BitVec 8).toNat = 224 + 1) ∧
    (∀ n ∈ ([0, 1] : List Nat), ([0, 124] : List W32).all (fun x => legacyIn lldsRun [(.v 5, 1), (.v 6, 1)] n x (fun c => insideLegacy c (rs 6)) &&
      legacyIn lstsRun [(.v 5, 1), (.v 6, 1)] n x (fun c => insideLegacy c (rs 6))) = true) ∧
    (∀ i ∈ [lldsRun, lstsRun], legacyIn i [(.v 5, 1), (.v 6, 1)] 0 2 (fun c => bit c.lanes 0 && decide ((c.low32 (rs 6) 0).toNat % 4 ≠ 0)) = true) ∧
    legacyIn lldsRun [(.v 5, 1), (.v 6, 1)] 0 128 (fun c => bit c.lanes 0 && decide ((c.low32 (rs 6) 0).toNat = tileBytes (demoTile 4 8 0x10 2 1).desc)) = true ∧
    (∀ i ∈ ([.lbar 1 0 0, .lbar 0 1 0, .lbar 0 0 1] : List Instr), Meets i (demo 0 i) {} fun c => c.run.micro = 0) ∧
    (∀ n ∈ ([0, 2] : List Nat), Meets (.lbar 0 0 0xF0) (demoB (.lbar 0 0 0xF0) (atMicro n) []) {} fun c => c.run.micro = n ∧ (c.g.bar 15).pending = false ∧ c.g.release = none ∧ c.g.red = [] ∧
      (barrierAt (demoB (.lbar 0 0 0xF0) (atMicro n) []) c false 15).mode = none ∧ barrierFails (demoB (.lbar 0 0 0xF0) (atMicro n) []) c false 15 false = none) ∧
    Meets (.lbar 0 0 0xF0) (demoB (.lbar 0 0 0xF0) (fun g => atMicro 1 (pendingBar 15 none g)) []) {} (fun c => c.run.micro = 1 ∧ (c.g.bar 15).pending = true ∧ (c.g.bar 15).completed = none ∧ c.g.release = none) := by
  refine ⟨?_, ?_, meets (by decide +kernel), by decide, by decide +kernel, by decide +kernel, by decide +kernel, ?_, ?_, meets (by decide +kernel)⟩
  · have h : ∀ i ∈ ([.lmma3 16 226 227, .lmma3 0 223 227, .lmma3 0 226 0] : List Instr), issuesIn i (demo 0 i) {} (fun c => decide (c.run.micro = 0)) = true := by decide +kernel
    exact fun i hi => meets (h i hi)
  · intro n hn
    have h : ∀ n ∈ ([0, 1, 2, 3] : List Nat), issuesIn lmmaRun (demoM 0 lmmaRun shape2 [0, 0, 0] [] (atMicro n)) {} (fun c => decide (c.run.micro = n ∧ c.lanes ≠ 0 ∧ c.g.mx = [] ∧ modeBnd c.mode ≠ 2 ∧
      ((demoM 0 lmmaRun shape2 [0, 0, 0] [] (atMicro n)).core (leader c.k c.g)).mq = [] ∧ mmaReady (demoM 0 lmmaRun shape2 [0, 0, 0] [] (atMicro n)) c 2 3 .f16 = true ∧
      (([2, 3] : List TileNo).all fun h => ((demoM 0 lmmaRun shape2 [0, 0, 0] [] (atMicro n)).tile c.g.team h).all fun x => decide ((tileTy x.desc).kind = .flt .f16)) = true)) = true := by decide +kernel
    obtain ⟨c, h1, h2⟩ := issues_of (h n hn)
    obtain ⟨h2, h3, h4, h5, h6, h7, h8⟩ := of_decide_eq_true h2
    obtain ⟨h9, h10, h11⟩ := mmaReady_of (acc := 15) (p := 0) h7 (by decide)
    refine ⟨c, h1, h2, h3, h4, h5, h6, h9, h10, h11, ?_⟩
    have h8 := List.all_eq_true.mp h8
    rintro h (rfl | rfl)
    · exact h8 2 (by simp)
    · exact h8 3 (by simp)
  · have h : ∀ i ∈ ([.lbar 1 0 0, .lbar 0 1 0, .lbar 0 0 1] : List Instr), issuesIn i (demo 0 i) {} (fun c => decide (c.run.micro = 0)) = true := by decide +kernel
    exact fun i hi => meets (h i hi)
  · have h : ∀ n ∈ ([0, 2] : List Nat), issuesIn (.lbar 0 0 0xF0) (demoB (.lbar 0 0 0xF0) (atMicro n) []) {} (fun c => decide (c.run.micro = n ∧ (c.g.bar 15).pending = false ∧ c.g.release = none ∧ c.g.red = [] ∧
      (barrierAt (demoB (.lbar 0 0 0xF0) (atMicro n) []) c false 15).mode = none ∧ barrierFails (demoB (.lbar 0 0 0xF0) (atMicro n) []) c false 15 false = none)) = true := by decide +kernel
    exact fun i hi => meets (h i hi)

/-- Group 1 of a state, as given. -/
def pendOf (kind : ResultKind) (t : Option TrapInfo) : Pending :=
  { kind := kind, flag := some 3, writes := [.v (.v 5) VLine.zero 1], sticky := 1, holds := false, trap := t, card := none, quarter := 0, slices := 255, run := 0, issued := 0, known := true }
def groupDemo (f : Group → Group) : State := demoG 0 .nop f
def aWait (woken armed : Bool) (deadline : Option Nat) : WaitA :=
  { d := 0, width := 4, expected := 0, last := 0, lastBound := 0, deadline := deadline, target := .tile 1 0, armed := armed, woken := woken, slices := 255, page := none, declared := 0, polled := 0 }
def waitDemo (woken armed : Bool) (deadline : Option Nat) (clock : Nat) : State :=
  { groupDemo (fun g => { g with hold := some .waita, waita := some (aWait woken armed deadline) }) with clock := clock }
def waitMeets (s : State) (p : WaitA → Bool) : Bool := (s.group? 1).any fun g => g.seated && g.run.isSome && g.ld.isEmpty && (s.tile g.team 1 == some (demoTile 4 8 0x10 2 1)) &&
  g.waita.any fun w => decide (w.target = .tile 1 0) && p w
/-- Two groups of a quarter wait for a cross-lane result, the other's the older. -/
def twoXlane : State :=
  let s := groupDemo fun g => { g with pend := [{ pendOf .xlane none with issued := 5 }] }
  { s with groups := s.groups ++ s.groups.map fun x => (2, { x.2 with pend := [pendOf .xlane none] }) }
theorem test_meets_UnitsAndWaitsComplete :
    (∀ k ∈ ([.sfu, .xlane, .conv, .sld] : List ResultKind), ∀ t ∈ ([none, some (trapOf 0x0B [1])] : List (Option TrapInfo)),
      ∃ g, (groupDemo fun g => { g with pend := [pendOf .accrd none, pendOf k t, pendOf k none] }).group? 1 = some g ∧ g.pend = [pendOf .accrd none] ++ pendOf k t :: [pendOf k none] ∧
        (∀ q ∈ [pendOf .accrd none], q.kind ≠ k) ∧ OldestInQuarter (groupDemo fun g => { g with pend := [pendOf .accrd none, pendOf k t, pendOf k none] }) g (pendOf k t)) ∧
    (∃ g, twoXlane.group? 1 = some g ∧ g.pend = [] ++ { pendOf .xlane none with issued := 5 } :: [] ∧ ¬OldestInQuarter twoXlane g { pendOf .xlane none with issued := 5 }) ∧
    (∃ g, (groupDemo id).group? 1 = some g ∧ g.ld = [] ∧ g.st = [] ∧ g.waita = none ∧ ∀ k ∈ ([.sfu, .xlane, .conv, .sld] : List ResultKind), ∀ p ∈ g.pend, p.kind ≠ k) ∧
    (∀ b, ∃ g, (groupDemo fun g => { g with ld := [performedStep b], st := [performedStep b] }).group? 1 = some g ∧ g.ld = [performedStep b] ∧ g.st = [performedStep b]) ∧
    (isNext (exec (.recsync none) (demo 0 (.recsync none))) fun t => (t.group? 1).any fun g => g.seated && g.run.isSome && t.poison.isEmpty && match g.hold with
      | some (.recsync acc) => decide (acc.op = .recsync none) && recordQuiet t g.kernel none && (locateAll t g.core g.kernel acc acc.spots).2.all fun x => match x.2 with
        | .at_ _ _ => true
        | _ => false
      | _ => false) = true ∧
    waitMeets (waitDemo true false none 0) (fun w => w.woken) = true ∧ waitMeets (waitDemo false false none 1024) (fun w => !w.armed && decide (w.polled + 1024 ≤ 1024)) = true ∧
    waitMeets (waitDemo false true (some 10) 10) (fun w => w.deadline.any fun t => decide (t ≤ 10)) = true ∧ waitMeets (waitDemo false true (some 10) 9) (fun w => !w.woken && w.armed && w.deadline.all fun t => decide (9 < t)) = true := by
  refine ⟨?_, ⟨_, rfl, rfl, fun h => ?_⟩, ⟨_, rfl, by decide +kernel⟩, fun b => ⟨_, rfl, rfl, rfl⟩, by decide +kernel, by decide +kernel, by decide +kernel, by decide +kernel, by decide +kernel⟩
  · simp only [List.forall_mem_cons, List.not_mem_nil, false_implies, implies_true, and_true]
    refine ⟨⟨?_, ?_⟩, ⟨?_, ?_⟩, ⟨?_, ?_⟩, ?_, ?_⟩ <;> exact ⟨_, rfl, rfl, by decide +kernel, fun _ _ _ _ _ _ _ _ => Nat.zero_le _⟩
  · have h := h 2 _ (pendOf .xlane none) (List.mem_cons_of_mem _ (List.mem_cons_self ..)) rfl (by decide +kernel) rfl rfl
    exact absurd h (by decide)

/-! Faults, picks, seats and contexts. -/

/-- The small machine with a partition 0 of other registers and held entries. -/
def heldDemo (prod : Nat) (l : List HeldEntry) : State :=
  { demo 0 .nop with parts := State.reset.parts.set 0 { Partition.reset with held := l, regs := { PartRegs.reset with fqProd := BitVec.ofNat 32 prod, fqBase := 0x50000 } } }
def aHeld : HeldEntry := ⟨[1, 2, 3, 4, 5, 6, 7]⟩
/-- A fetch that found no page. -/
def fetchPark : Park := { cause := .fault, acc := engineAccess .fetch none, step := none, run := none, handler := false, x := [], trap := none }
/-- A group whose word holds a posted status, with parked gangs. -/
def postedDemo (status : Nat) (l : List Park) (arena : Nat) : State :=
  demoOf 0 (encode .nop) (fun g => { g with resWord := BitVec.ofNat 64 (2 ^ 63 + status * 2 ^ 16), parks := l, run := none }) fun k => { k with arena := arena }
def postedOk (s : State) (status : Nat) (l : List Park) : Bool := (s.group? 1).any fun g => g.seated && g.posted && !g.inHandler && g.copies.isEmpty && g.mx.isEmpty && g.release.isNone &&
  decide (bits g.resWord 17 16 = status) && decide (g.parks = l) && decide (g.entryKind < 2)
/-- A group whose register line is to come from a memory; and what its translation is. -/
def missDemo (n : Nat) (m : Memory) (f : Group → Group) : State := { groupDemo fun g => f { g with ctxMiss := some n } with mem := m }
def missMeets (s : State) (n : Nat) (p : Group → Xlat → Bool) : Bool := (s.group? 1).any fun g => decide (g.ctxMiss = some n) && g.ctxMoving.isNone &&
  p g (translate s g.core (s.kernel g.kernel).asid (s.blockVa g + 2560 + 192 * n)).2
theorem test_meets_FaultsAndRepliesResume :
    ((heldDemo 0 []).part 0).held = [] ∧ ((heldDemo 64 [aHeld]).part 0).held = [aHeld] ∧ 2 ^ 6 ≤ (((heldDemo 64 [aHeld]).part 0).regs.fqProd - ((heldDemo 64 [aHeld]).part 0).regs.fqCons).toNat ∧
    ((heldDemo 63 [aHeld]).part 0).held = [aHeld] ∧ (((heldDemo 63 [aHeld]).part 0).regs.fqProd - ((heldDemo 63 [aHeld]).part 0).regs.fqCons).toNat < 2 ^ 6 ∧ aHeld.words.length = 7 ∧
    missMeets (missDemo 239 demoMem id) 239 (fun _ x => match x with
      | .page _ _ => true
      | _ => false) = true ∧
    missMeets (missDemo 239 demoMem fun g => { g with blockFrames := [((0x200000 + 2560 + 192 * 239) / 4096, 5)] }) 239 (fun g _ => (KMap.get? g.blockFrames ((0x200000 + 2560 + 192 * 239) / 4096)).isSome) = true ∧
    missMeets (demoOf 0 [0] (fun g => { g with ctxMiss := some 0 }) fun k => { k with arena := 2 ^ 40 }) 0 (fun g x => g.seated && !g.inHandler && match x with
      | .absent => true
      | _ => false) = true ∧
    missMeets (missDemo 0 (Memory.writeN demoMem 0xA000 8 0x0080000000000002) id) 0 (fun _ x => match x with
      | .migrating _ => true
      | _ => false) = true ∧
    missMeets (missDemo 0 (Memory.writeN demoMem 0xA000 8 0xE010000000000003) id) 0 (fun _ x => match x with
      | .malformed => true
      | _ => false) = true ∧
    (∃ g, (groupDemo fun g => { g with ctxMiss := some 0, ctxMoving := some 5 }).group? 1 = some g ∧ g.ctxMiss = some 0 ∧ g.ctxMoving.isSome = true) ∧
    (∃ g, (groupDemo fun g => { g with place := .ended }).group? 1 = some g ∧ g.live = false) ∧ (∃ g, (groupDemo id).group? 1 = some g ∧ g.live = true ∧ g.posted = false ∧ g.parks = [] ∧ g.ctxMiss = none) ∧
    postedOk (postedDemo 0 [] 0x200000) 0 [] = true ∧ postedOk (postedDemo 0 [fetchPark] 0x200000) 0 [fetchPark] = true ∧
    (let s := demoOf 0 (encode .nop) (fun g => { g with resWord := BitVec.ofNat 64 (2 ^ 63 + 2 ^ 16), parks := [fetchPark] }) id
     postedOk s 1 [fetchPark] = true ∧ (s.group? 1).any (fun g => g.run.isSome) = true) ∧
    fetchPark.cause = .fault ∧ fetchPark.acc.op = .fetch ∧ fetchPark.acc.record = none ∧ fetchPark.step = none ∧
    (postedOk (postedDemo 1 [fetchPark] (2 ^ 40)) 1 [fetchPark] = true ∧ (handlerOf (postedDemo 1 [fetchPark] (2 ^ 40)) 0 1 false).isSome = true ∧
      (walkNow (postedDemo 1 [fetchPark] (2 ^ 40)) 1 (2 ^ 40 + 0x348)).1 = .absent) ∧
    postedOk (postedDemo 2 [] 0x200000) 2 [] = true ∧ postedOk (postedDemo 3 [fetchPark] 0x200000) 3 [fetchPark] = true := by
  refine ⟨by decide +kernel, by decide +kernel, by decide +kernel, by decide +kernel, by decide +kernel, rfl, by decide +kernel, by decide +kernel, by decide +kernel, by decide +kernel,
    by decide +kernel, ⟨_, rfl, by decide +kernel⟩, ⟨_, rfl, by decide +kernel⟩,
    ⟨_, rfl, by decide +kernel⟩, by decide +kernel, by decide +kernel, by decide +kernel, rfl, rfl, rfl, rfl, by decide +kernel, by decide +kernel, by decide +kernel⟩

/-- The code of the small machine holds a run of one word at its first PC; the group starts it at its pick. -/
def pickDemo (icache : List Nat) (frozen : KMap (Nat × BitVec 8 × Bool)) (f : Group → Group) : State :=
  let s := { groupDemo f with mem := (6, 0x08) :: (7, 0xF0) :: demoMem }
  s.setCore 0 { s.core 0 with icache := icache, frozen := frozen }
/-- A group is the only one seated in quarter 0, eligible, with none in progress. -/
def pickable (s : State) (p : Group → Bool) : Bool := match seatedIn s 0 0 with
  | [(1, g)] => KMap.wf s.groups && decide (g.yieldDue = 0) && !g.givewayDue && decide (s.groups.length = 1) && decide (g.stamp < 2 ^ 64) && decide (g.seatedAt < 2 ^ 64) &&
      (KMap.get? (s.core 0).frozen 0).isNone && !busyQuarter s 0 0 && eligible s g && p g
  | _ => false
def fetches (s : State) (g : Group) (p : Run → List Nat → Bool) : Bool := match readyGangs s g with
  | m :: _ => m.park.isNone && (match (fetchRun s g m.slices (g.slice (firstSlice m.slices)).pc.toNat).2 with
    | .run r _ ls => p r ls
    | _ => false)
  | [] => false
/-- A group whose gang is parked at an access that has completed. -/
def donePark (g : Group) : Group := { g with run := none, parks := [{ fetchPark with cause := .done, acc := { engineAccess .stg none with slices := 255 }, run := g.run }] }
theorem test_meets_PicksAndFetches :
    (∀ q < 4, q ≠ 0 → seatedIn (pickDemo [] [] id) 47 q = [] ∧ seatedIn (pickDemo [] [] id) 0 q = []) ∧ busyQuarter (pickDemo [] [] id) 0 0 = true ∧
    (KMap.get? ((pickDemo [] [(0, (1, 255, false))] id).core 0).frozen 0).isSome = true ∧
    pickable (pickDemo [] [] fun g => { g with run := g.run.map fun r => { r with stalled := true } }) (fun g => g.run.isSome) = true ∧
    pickable (pickDemo [] [] fun g => { g with run := none }) (fun g => g.run.isNone && fetches (pickDemo [] [] fun g => { g with run := none }) g fun r ls =>
      decide (r.words = [0]) && !ls.isEmpty) = true ∧
    pickable (pickDemo [0] [] fun g => { g with run := none }) (fun g => g.run.isNone && fetches (pickDemo [0] [] fun g => { g with run := none }) g fun r ls =>
      decide (r.words = [0]) && ls.all fun l => decide (l = 0)) = true ∧
    (match readyGangs (pickDemo [] [] donePark) (((pickDemo [] [] donePark).group? 1).getD Group.blank) with
      | m :: _ => decide (m.park = some 0)
      | [] => false) = true ∧ pickable (pickDemo [] [] donePark) (fun g => g.run.isNone && (g.parks[0]?).any fun p => p.trap.isNone) = true ∧
    (KMap.get? ((pickDemo [] [] id).core 0).frozen 0 = none) ∧
    (∃ g, (pickDemo [] [(0, (1, 255, false))] id).group? 1 = some g ∧ g.run.isSome = true) ∧
    (∃ g, (pickDemo [] [(0, (1, 255, false))] fun g => { g with run := none }).group? 1 = some g ∧ g.place = .seat 0 0 ∧
      g.fetchParked = false ∧ 255 &&& ~~~g.freeSlices ((pickDemo [] [(0, (1, 255, false))] fun g => { g with run := none }).kernel g.kernel) = 0 ∧
      fetches (pickDemo [] [(0, (1, 255, false))] fun g => { g with run := none }) g (fun _ ls => decide (ls.length ≤ 8)) = true ∧ KMap.wf ((pickDemo [] [(0, (1, 255, false))] fun g => { g with run := none }).core 0).frozen = true) := by
  refine ⟨by decide +kernel, by decide +kernel, by decide +kernel, by decide +kernel, by decide +kernel, by decide +kernel, by decide +kernel, by decide +kernel, by decide +kernel, ⟨_, rfl, by decide +kernel⟩, _, rfl, by decide +kernel⟩

def waitingDemo : State :=
  { groupDemo (fun g => { g with hold := some .waita, waita := some (aWait false true none), parkedSince := some 0 }) with clock := 36001 }
/-- Every seat of core 0 is held by a group of identifier 1, and a group of identifier 2, of higher priority, waits in its hall. -/
def fullDemo : State :=
  let s := demo 0 .nop
  let g := s.groups.headD (1, Group.blank)
  { s with
    groups := ((List.range (4 * seatsPerQuarter)).map fun i => (i + 1, { g.2 with place := .seat 0 (i / seatsPerQuarter) })) ++ [(1000, { g.2 with kernel := 2, place := .hall 0 })]
    kernels := s.kernels ++ [(2, { s.kernel 1 with asid := 2 })], ctxs := [(1, demoCtx), (2, { demoCtx with prio := 5 })] }
/-- The small machine with its context changed, at a clock. -/
def ctxDemo (clock : Nat) (f : Context → Context) : State := { demo 0 .nop with ctxs := [(1, f demoCtx)], clock := clock }
theorem test_meets_SeatsAndContexts :
    (∃ g, (groupDemo id).group? 1 = some g ∧ (g.slice 0).exited ≠ ((groupDemo id).kernel g.kernel).fullMask) ∧
    (∃ g, (groupDemo fun g => { g with slices := g.slices.map fun x => { x with exited := 15 } }).group? 1 = some g ∧ g.live = true ∧ (∀ j : Fin 8, (g.slice j.val).exited = 15) ∧ g.ld = [] ∧ g.st = [] ∧
      g.copies = [] ∧ g.mx = [] ∧ g.pend = [] ∧ g.release = none ∧ g.red = [] ∧ g.openBatch.open_ = 0 ∧ ((groupDemo id).core g.core).decodeQ = [] ∧ ((groupDemo id).kernel g.kernel).fullMask = 15) ∧
    (∀ x ∈ (groupDemo id).groups, hosts (groupDemo id) 0 x.2 = false) ∧
    (freeQuarter (groupDemo fun g => { g with place := .hall 0 }) 0 = some 0 ∧ KMap.wf (groupDemo fun g => { g with place := .hall 0 }).groups = true ∧ ∃ g,
      candidatesOn (groupDemo fun g => { g with place := .hall 0 }) 0 = [(1, g)] ∧ g.poison = [] ∧ g.blockWritten = false ∧ g.core = 0 ∧ g.inHandler = false ∧ g.hold = none ∧ g.waita = none ∧
      rankOf (groupDemo fun g => { g with place := .hall 0 }) g = 3) ∧
    (KMap.get? waitingDemo.ctxs 1 = some demoCtx ∧ demoCtx.state = .runnable ∧ waitingDemo.groups.length = 1 ∧ ∀ x ∈ waitingDemo.groups, x.2.seated = true ∧ (waitingDemo.kernel x.2.kernel).asid = 1 ∧
      x.2.waita.isSome = true ∧ x.2.parkSatisfied waitingDemo = false ∧ x.2.parkedSince = some 0 ∧ 0 + 20 * 1800 < waitingDemo.clock) ∧
    (∀ x ∈ (groupDemo id).groups, x.2.seated = true ∧ x.2.waita = none ∧ x.2.atBarrier = none) ∧
    ((freeQuarter (groupDemo id) 0).isSome = true ∧ KMap.wf fullDemo.groups = true ∧ KMap.wf fullDemo.ctxs = true ∧ needsSeatsOn fullDemo 2 0 = true ∧
      victim fullDemo 2 0 { demoCtx with prio := 5 } = some (1, demoCtx)) ∧
    (KMap.get? (ctxDemo 0 fun c => { c with state := .preempted }).ctxs 1 = some { demoCtx with state := .preempted } ∧ ∀ x ∈ (ctxDemo 0 fun c => { c with state := .preempted }).ctxs, x.2.rank ≤ demoCtx.rank) ∧
    ((ranNow (ctxDemo 179000000 fun c => { c with state := .preempted }) { demoCtx with state := .preempted }).ran < 1800000 ∧
      180000000 - (ctxDemo 179000000 fun c => { c with state := .preempted }).sysClock 0 % 180000000 ≤
        1800000 - (ranNow (ctxDemo 179000000 fun c => { c with state := .preempted }) { demoCtx with state := .preempted }).ran) ∧
    1800000 ≤ (ranNow (ctxDemo 1800000 fun c => { c with boosted := true }) { demoCtx with boosted := true }).ran ∧
    (ranNow (ctxDemo 1799999 fun c => { c with boosted := true }) { demoCtx with boosted := true }).ran < 1800000 := by
  refine ⟨⟨_, rfl, by decide +kernel⟩, ⟨_, rfl, by decide +kernel⟩, by decide +kernel, ⟨by decide +kernel, by decide +kernel, _, rfl, by decide +kernel⟩, by decide +kernel, by decide +kernel,
    by decide +kernel, by decide +kernel, by decide +kernel, by decide +kernel, by decide +kernel⟩

/-! Queues, launches and shootdowns. -/

/-- Memory of the small machine with 64-bit words written. -/
def memWith (l : List (Nat × Nat)) : Memory := l.foldl (fun m x => Memory.writeN m x.1 8 x.2) demoMem
/-- The small machine without groups, whose queue 1 has one command. -/
def queueDemo (words : List (Nat × Nat)) (mem : List (Nat × Nat)) : State :=
  { demo 0 .nop with
    mem := memWith (words.map (fun x => (0x32000 + 8 * x.1, x.2)) ++ mem), groups := [], teams := [], kernels := [], cores := [], focus := 0, doorbells := [(65, 1)] }
def commandIs (s : State) (q : Nat) (p : QueueEntry → Nat → List W64 → Bool) : Bool := match nextCommand s 1 q with
  | some (e, va, some w) => p e va w
  | _ => false
theorem commandIs_of {s : State} {q : Nat} {p : QueueEntry → Nat → List W64 → Bool} (h : commandIs s q p = true) : ∃ e va w, nextCommand s 1 q = some (e, va, some w) ∧ p e va w = true := by
  unfold commandIs at h
  split at h
  · exact ⟨_, _, _, by assumption, h⟩
  · cases h
/-- The ring entry's status byte can be written, and the command has no signal. -/
def closable (s : State) (q : Nat) (e : QueueEntry) (va : Nat) (w : List W64) : Bool :=
  decide (wordAt w 13 = 0) && (ctxPage (taken s 1 q e va (some w)) 1 (va + 7)).isSome && KMap.wf s.queues
def stageDemo (stage : CmdStage) (words : List Nat) (clock last : Nat) (woken : Bool) (mem : List (Nat × Nat)) : State :=
  { demo 0 .nop with
    mem := memWith mem, clock := clock, queues := [(65, { entryVa := 0x32000, words := words.map (BitVec.ofNat 64), stage := stage, order := 0, waitSector := 0, lastRead := last, woken := woken })] }
/-- A semaphore step that waits at VA 0x60000 for the value 5. -/
def semWords : List Nat := [2, 0, 0, 0, 0, 0, 0, 0, 0, 0, 0, 0x60000, 5]
/-- A code object of one kernel, at VA 0x60000 (R55, R58). -/
def codeWords : List (Nat × Nat) := [(0x60000, 0x041000014B504C4A), (0x60018, 64), (0x60020, 0x4000000001), (0x60048, 0xF00100)]
def launchWords : List (Nat × Nat) := [(0, 1), (1, 0x60000), (3, 0x200000), (4, 1), (5, 1), (6, 1), (7, 1), (8, 240)]
/-- The code object's digest is in the verified-code cache. -/
def launchDemo : State := let s := queueDemo launchWords codeWords; { s with dev := { s.dev with verified := [⟨Config.sha384 [], 0⟩] } }
def launchTaken : State := match nextCommand launchDemo 1 1 with
  | some (e, va, w) => taken launchDemo 1 1 e va w
  | none => launchDemo
def launchCommand : List W64 := (List.range 16).map fun n => BitVec.ofNat 64 ((launchWords.find? fun x => decide (x.1 = n)).map (·.2) |>.getD 0)
def codeDemo : CodeObj :=
  { stepping := 0x0410, secver := 0, flags := 0, codeOff := 0, codeSize := 64, kcount := 1, ktab := 0x40, dataOff := 0, dataSize := 0, sigOff := 0 }

theorem mapM_isSome {α β : Type} {f : α → Option β} : ∀ l : List α, (∀ x ∈ l, (f x).isSome = true) → (l.mapM f).isSome = true
  | [], _ => rfl
  | a :: l, h => by
    obtain ⟨b, hb⟩ := Option.isSome_iff_exists.mp (h a (by simp))
    obtain ⟨c, hc⟩ := Option.isSome_iff_exists.mp (mapM_isSome l fun x hx => h x (by simp [hx]))
    simp [List.mapM_cons, hb, hc]

/-- The small machine's page tables map the first gigabyte to itself. -/
theorem walk_low {s : State} {c : Context} {va : Nat} (hc : KMap.get? s.ctxs 1 = some c) (hr : c.root = 0x8000) (h1 : Memory.readN s.mem 0x8000 8 = 0x9001)
    (h2 : Memory.readN s.mem 0x9000 8 = 0xA001) (h3 : Memory.readN s.mem 0xA000 8 = 0xE000000000000003) (hp : s.dev.partCount ≤ 1) (hv : va < 2 ^ 30) :
    (walkNow s 1 va).1 = .page (leafAttr 0xE000000000000003 3 1 va) va := by
  have i0 : levelIndex 0 va = 0 := by simp only [levelIndex, if_true]; omega
  have i1 : levelIndex 1 va = 0 := by simp only [levelIndex, levelShift, if_false, one_ne_zero]; omega
  have i2 : levelIndex 2 va = 0 := by simp only [levelIndex, levelShift, OfNat.ofNat_ne_zero, if_false]; omega
  have hf (p b : Nat) : foreignFrame s p b = false := by simp [foreignFrame, Nat.not_lt.mpr hp]
  have m1 : pteMalformed s c.part 0 0x9001#64 = false := by
    simp only [pteMalformed, (by decide : decide (bits 0x9001#64 59 57 = 2) = false), Bool.and_false, Bool.false_and, Bool.or_false, hf]
    decide
  have m2 : pteMalformed s c.part 1 0xA001#64 = false := by
    simp only [pteMalformed, (by decide : decide (bits 0xA001#64 59 57 = 2) = false), Bool.and_false, Bool.false_and, Bool.or_false, hf]
    decide
  have m3 : pteMalformed s c.part 2 0xE000000000000003#64 = false := by
    simp only [pteMalformed, (by decide : decide (bits 0xE000000000000003#64 59 57 = 2) = false), Bool.and_false, Bool.false_and, Bool.or_false, hf]
    decide
  have b1 : bits 0x9001#64 51 12 * 4096 = 0x9000 := by decide
  have b2 : bits 0xA001#64 51 12 * 4096 = 0xA000 := by decide
  have b3 : bits 0xE000000000000003#64 51 12 * 4096 = 0 := by decide
  unfold walkNow
  rw [hc]
  simp [walkFrom, hr, i0, i1, i2, h1, h2, h3, m1, m2, m3, b1, b2, b3, levelShift, show bit 0x9001#64 0 = true from by decide, show bit 0x9001#64 1 = false from by decide,
    show bit 0xA001#64 0 = true from by decide, show bit 0xA001#64 1 = false from by decide, show bit 0xE000000000000003#64 0 = true from by decide,
    show bit 0xE000000000000003#64 1 = true from by decide]
  omega
theorem readVirtBytes_low {s : State} {c : Context} {va n : Nat} (hc : KMap.get? s.ctxs 1 = some c) (hr : c.root = 0x8000) (h1 : Memory.readN s.mem 0x8000 8 = 0x9001)
    (h2 : Memory.readN s.mem 0x9000 8 = 0xA001) (h3 : Memory.readN s.mem 0xA000 8 = 0xE000000000000003) (hp : s.dev.partCount ≤ 1) (hv : va + n ≤ 2 ^ 30) : (readVirtBytes s 1 va n).isSome = true := by
  apply mapM_isSome
  intro i hi
  have hi := List.mem_range.mp hi
  have h := walk_low (va := va + i) hc hr h1 h2 h3 hp (by omega)
  have a1 : (leafAttr 0xE000000000000003#64 3 1 (va + i)).rd = true := (by decide : bit 0xE000000000000003#64 61 = true)
  have a2 : (leafAttr 0xE000000000000003#64 3 1 (va + i)).type = 0 := (by decide : bits 0xE000000000000003#64 59 57 = 0)
  simp [readVirt, h, a1, a2]
theorem taken_dev (s : State) (asid q : Nat) (e : QueueEntry) (va : Nat) (w : Option (List W64)) : (taken s asid q e va w).dev = s.dev := by
  unfold taken takeCmd settleContext
  dsimp only
  split <;> (try split) <;> (try split) <;> rfl
theorem launchTaken_dev : launchTaken.dev = launchDemo.dev := by
  unfold launchTaken
  split
  · exact taken_dev _ _ _ _ _ _
  · rfl
theorem taken_low : KMap.get? launchTaken.ctxs 1 = some demoCtx ∧ Memory.readN launchTaken.mem 0x8000 8 = 0x9001 ∧ Memory.readN launchTaken.mem 0x9000 8 = 0xA001 ∧
    Memory.readN launchTaken.mem 0xA000 8 = 0xE000000000000003 ∧ launchTaken.dev.partCount ≤ 1 := by decide +kernel
theorem no_bytes (s : State) (asid va : Nat) : readVirtBytes s asid va 0 = some [] := rfl
theorem verify_of {s : State} {o : CodeObj} {va : Nat} {body sig : List Byte} (h0 : readVirtBytes s 1 va o.sigOff = some body) (h1 : readVirtBytes s 1 (va + o.sigOff) 17056 = some sig)
    (hv : s.dev.verified = [⟨Config.sha384 body, 0⟩]) : verifyObject s 1 va o = some { s with dev := { s.dev with verified := [⟨Config.sha384 body, 0⟩] } } := by
  unfold verifyObject
  rw [h0, h1]
  simp only [hv]
  simp [verifiedEntries]
theorem verify_demo : verifyObject launchTaken 1 0x60000 codeDemo = some { launchTaken with dev := { launchTaken.dev with verified := [⟨Config.sha384 [], 0⟩] } } := by
  have hs := readVirtBytes_low (va := 0x60000) (n := 17056) taken_low.1 rfl taken_low.2.1 taken_low.2.2.1 taken_low.2.2.2.1 taken_low.2.2.2.2 (by decide)
  have hv : launchTaken.dev.verified = [⟨Config.sha384 [], 0⟩] := by rw [launchTaken_dev]; rfl
  generalize launchTaken = s at hs hv ⊢
  exact verify_of (no_bytes _ _ _) (Option.some_get hs).symm hv
def isKernel (x : Checked) (p : Kernel → Bool) : Bool := match x with
  | .kernel _ k => p k
  | .status _ _ => false
/-- The launch passes its checks, and its kernel has neither grid barriers nor records. -/
theorem launch_demo : isKernel (checkLaunch launchTaken 0 1 1 0x32000 launchDemo.nextId launchCommand) (fun k => decide (k.gmask = 0) && decide (k.recCount = 0)) = true := by
  suffices h : ∀ (s : State) (n : Nat) (w : List W64), readCodeObj s 1 0x60000 = some codeDemo → bits (wordAt w 1) 59 0 = 0x60000 →
      verifyObject s 1 0x60000 codeDemo = some { launchTaken with dev := { launchTaken.dev with verified := [⟨Config.sha384 [], 0⟩] } } → n = launchDemo.nextId → w = launchCommand →
      isKernel (checkLaunch s 0 1 1 0x32000 n w) (fun k => decide (k.gmask = 0) && decide (k.recCount = 0)) = true from
    h _ _ _ (by decide +kernel) (by decide +kernel) verify_demo rfl rfl
  intro s n w h1 h2 h3 h4 h5
  unfold checkLaunch
  simp only [h2, h1, h3, show steppingMode codeDemo.stepping = some false from rfl]
  subst h4 h5
  decide +kernel
/-- The next command of queue 1 is as p says, and its status byte can be written. -/
def next1 (words mem : List (Nat × Nat)) (p : State → QueueEntry → Nat → List W64 → Bool) : Bool :=
  let s := queueDemo words mem
  commandIs s 1 fun e va w => closable s 1 e va w && (s.cores.all fun x => x.2.l1.isEmpty) && p (taken s 1 1 e va (some w)) e va w
/-- A waiting command of queue 1, whose semaphore reads as given. -/
def waits1 (clock last : Nat) (woken : Bool) (mem : List (Nat × Nat)) (words : List Nat) (p : State → QueueRun → Option (Nat × Nat) → Bool) : Bool :=
  let s := stageDemo .waiting words clock last woken mem
  (KMap.get? s.queues (queueKey 1 1)).any fun r => decide (r.stage = .waiting) && ctxRuns s 1 && decide (wordAt r.words 13 = 0) && decide (bits (wordAt r.words 11) 59 0 ≠ 0) && KMap.wf s.queues &&
    (ctxPage s 1 (r.entryVa + 7)).isSome && p s r (semRead s 1 (bits (wordAt r.words 11) 59 0))
theorem test_meets_CommandsRun :
    (nextCommand (demo 0 .nop) 1 1).isNone = true ∧ KMap.get? (demo 0 .nop).queues (queueKey 1 1) = none ∧
    (match nextCommand (queueDemo [(0, 2)] [(0xA000, 0xC000000000000003)]) 1 1 with
      | some (e, va, none) => (ctxPage (taken (queueDemo [(0, 2)] [(0xA000, 0xC000000000000003)]) 1 1 e va none) 1 (va + 7)).isSome
      | _ => false) = true ∧
    next1 [(0, 1), (1, 2 ^ 63)] [] (fun _ _ _ w => decide (cmdKind w = 1) && cmdMalformed w) = true ∧ next1 [(0, 2), (13, 0), (11, 1)] [] (fun _ _ _ w => decide (cmdKind w = 2) && cmdMalformed w) = true :=
  ⟨by decide +kernel, by decide +kernel, by decide +kernel, by decide +kernel, by decide +kernel⟩
theorem test_meets_CommandsRun_semaphores :
    (∀ k ∈ [1, 2], next1 [(0, k), (11, 0x40000000)] [] (fun s _ _ w => decide (cmdKind w = k) && !cmdMalformed w && (semRead s 1 (bits (wordAt w 11) 59 0)).isNone) = true) ∧
    (∀ k ∈ [1, 2], next1 [(0, k), (11, 0x60000), (12, 5)] [(0x60000, 4)] (fun s _ _ w => decide (cmdKind w = k) && !cmdMalformed w && (semRead s 1 (bits (wordAt w 11) 59 0)).any fun x =>
      decide (x.1 = 4) && decide (x.1 < (wordAt w 12).toNat)) = true) ∧
    (∀ k ∈ [1, 2], next1 [(0, k + 2 ^ 12), (4, 1)] [] (fun s _ _ w => decide (cmdKind w = k) && !cmdMalformed w && decide (bits (wordAt w 11) 59 0 = 0) && (readIndirect s 1 w).isNone) = true) :=
  ⟨by decide +kernel, by decide +kernel, by decide +kernel⟩
theorem test_meets_CommandsRun_checks :
    next1 [(0, 2)] [] (fun s _ _ w => decide (cmdKind w = 2) && !cmdMalformed w && decide (bits (wordAt w 11) 59 0 = 0) && (readIndirect s 1 w).isSome) = true ∧
    next1 [(0, 1), (1, 0x61000)] [] (fun s _ va w => !cmdMalformed w && decide (bits (wordAt w 11) 59 0 = 0) && (readIndirect s 1 w == some w) && decide (KMap.get? s.ctxs 1 = some demoCtx) &&
      match checkLaunch s 0 1 1 va s.nextId w with
        | .status s1 _ => (ctxPage s1 1 (va + 7)).isSome
        | .kernel _ _ => false) = true :=
  ⟨by decide +kernel, by decide +kernel⟩
theorem test_meets_CommandsRun_launch :
    ((KMap.get? launchDemo.ctxs 1 == some demoCtx) && launchDemo.teams.isEmpty && launchDemo.groups.isEmpty && launchDemo.cores.isEmpty && decide (launchDemo.dev.partCount ≤ 1) && decide (demoCtx.part = 0) &&
      !demoCtx.away) = true ∧
    (∃ e w s1 k, nextCommand launchDemo 1 1 = some (e, 0x32000, some w) ∧ wordAt w 13 = 0 ∧ cmdKind w = 1 ∧ cmdMalformed w = false ∧ bits (wordAt w 11) 59 0 = 0 ∧
      readIndirect (taken launchDemo 1 1 e 0x32000 (some w)) 1 w = some w ∧
      checkLaunch (taken launchDemo 1 1 e 0x32000 (some w)) 0 1 1 0x32000 launchDemo.nextId w = .kernel s1 k ∧ k.gmask = 0 ∧ k.recCount = 0) := by
  refine ⟨by decide +kernel, ?_⟩
  obtain ⟨e, va, w, h, hp⟩ := commandIs_of (s := launchDemo) (q := 1) (p := fun e va w => decide (va = 0x32000) && decide (w = launchCommand) && decide (wordAt w 13 = 0) && decide (cmdKind w = 1) &&
    !cmdMalformed w && decide (bits (wordAt w 11) 59 0 = 0) && decide (readIndirect (taken launchDemo 1 1 e va (some w)) 1 w = some w)) (by decide +kernel)
  simp only [Bool.and_eq_true, decide_eq_true_eq, Bool.not_eq_true'] at hp
  obtain ⟨⟨⟨⟨⟨⟨rfl, hw⟩, h1⟩, h2⟩, h3⟩, h4⟩, h5⟩ := hp
  have ht : launchTaken = taken launchDemo 1 1 e 0x32000 (some w) := by
    unfold launchTaken
    rw [h]
  have hk := launch_demo
  rw [ht, ← hw] at hk
  unfold isKernel at hk
  split at hk
  · rename_i s1 k hc
    simp only [Bool.and_eq_true, decide_eq_true_eq] at hk
    exact ⟨e, w, s1, k, h, h1, h2, h3, h4, h5, hc, hk⟩
  · cases hk
theorem test_meets_CommandsRun_waiting :
    waits1 17999 0 false [] semWords (fun s r _ => !r.woken && decide (s.clock < r.lastRead + 18000)) = true ∧
    ([(18000, false), (5, true)].all fun x => waits1 x.1 0 x.2 [] semWords (fun s r v => (r.woken || decide (r.lastRead + 18000 ≤ s.clock)) && v.any fun v => decide (v.1 < (wordAt r.words 12).toNat)) &&
      waits1 x.1 0 x.2 [(0x60000, 5)] semWords (fun s r v => (r.woken || decide (r.lastRead + 18000 ≤ s.clock)) && (v.any fun v => decide ((wordAt r.words 12).toNat ≤ v.1)) && decide (cmdKind r.words = 2) &&
        (readIndirect s 1 r.words).isSome) &&
      waits1 x.1 0 x.2 [] (semWords.set 11 0x40000000) (fun s r v => (r.woken || decide (r.lastRead + 18000 ≤ s.clock)) && v.isNone)) = true ∧
    (KMap.get? (stageDemo (.placing 7) semWords 0 0 false []).queues (queueKey 1 1)).any (fun r => decide (r.stage ≠ .waiting)) = true :=
  ⟨by decide +kernel, by decide +kernel, by decide +kernel⟩

/-- The small machine whose kernel has one more team to place, its command in progress; and with its only team placed. -/
def placingDemo (k : Kernel → Kernel) : State :=
  let s := demoOf 0 [0] id fun x => k { x with placed := 0 }
  { s with groups := [], teams := [], cores := [], queues := [(queueKey 1 (s.kernel s.focus).queue, { entryVa := 0x32000, words := [], stage := .placing s.focus, order := 0, waitSector := 0, lastRead := 0, woken := false })] }
def endedDemo (g : Group → Group) (k : Kernel → Kernel) : State := demoOf 0 [0] (fun x => g { x with place := .ended }) fun x => k { x with entryVa := 0x32000, placed := 1 }
/-- Its group's kernel has ended. -/
def ended (s : State) (p : Kernel → Bool) : Bool := (KMap.get? s.kernels 1).any fun k => decide (k.teamCount ≤ k.placed) && (s.groups.all fun x => decide (x.2.kernel = 1) && !x.2.live) && KMap.wf s.kernels &&
  (ctxPage s 1 (k.entryVa + 7)).isSome && decide (k.asid = 1) && p k
theorem test_meets_LaunchesComplete :
    (let s := placingDemo id
     (KMap.get? s.kernels 1).any fun k => decide (k.placed < k.teamCount) && ctxRuns s k.asid && decide (k.gmask = 0) && (placeFor s k == some 0) &&
       ((KMap.get? s.queues (queueKey k.asid k.queue)).any fun r => decide (r.stage = .placing 1))) = true ∧
    ((KMap.get? (placingDemo fun k => { k with gmask := 0 }).kernels 1).any fun k => decide (k.placed < k.teamCount)) = true ∧
    (let s := demoK 0 .nop fun k => { k with placed := 1 }
     (KMap.get? s.kernels 1).any fun k => decide (k.teamCount ≤ k.placed) && s.groups.any fun x => decide (x.2.kernel = 1) && x.2.live) = true ∧
    ([true, false].all fun b => ended (endedDemo id fun k => { k with killed := b }) fun k => decide (k.killed = b) && k.endMarks.isNone && decide (k.sigVa = 0)) = true ∧
    ended (endedDemo id fun k => { k with sigVa := 0x60000, sigVal := 1 }) (fun k => k.endMarks.isNone && decide (k.sigVa ≠ 0) && (endedDemo id id).dev.peerOut.isEmpty && (endedDemo id id).dev.marks.isEmpty &&
      ((endedDemo id id).cores.all fun x => x.2.l1.isEmpty) && (endedDemo id id).groups.all fun x => !x.2.ioOut) = true ∧
    ended (endedDemo id fun k => { k with sigVa := 0x60000, endMarks := some [3] }) (fun k => k.endMarks == some [3]) = true ∧
    (∃ m ∈ ({ (endedDemo id fun k => { k with sigVa := 0x60000, endMarks := some [3] }) with dev := { State.reset.dev with marks := [⟨3, 0, [0]⟩] } } : State).dev.marks, m.id = 3) ∧
    (∀ m ∈ (endedDemo id fun k => { k with sigVa := 0x60000, endMarks := some [3] }).dev.marks, m.id ≠ 3) := by
  refine ⟨by decide +kernel, by decide +kernel, by decide +kernel, by decide +kernel, by decide +kernel, by decide +kernel, ⟨_, List.mem_cons_self .., rfl⟩, by decide +kernel⟩

/-- The small machine whose queue 0, of the host, has one shootdown. -/
def shootDemo (words : List (Nat × Nat)) (l1 : List L1Sector) (gs : List (Nat × Group)) (ks : List (Nat × Kernel)) : State :=
  let s := { demo 0 .nop with
    mem := memWith ((0x30008, 0x202) :: words.map fun (x : Nat × Nat) => (0x31000 + 8 * x.1, x.2)), groups := gs, teams := [], kernels := ks, focus := 0, doorbells := [(64, 1)]
    tlb := [{ core := 0, asid := 1, level := 4, vpage := 5, pte := 0xE000000000005003 }] }
  s.setCore 0 { s.core 0 with l1 := l1 }
def shoots (s : State) (p : List W64 → Bool) : Bool := match nextCommand s 1 0 with
  | some (e, va, some w) => (ctxPage (taken s 1 0 e va (some w)) 1 (va + 7)).isSome && KMap.wf s.queues && p w
  | _ => false
def aSector (dirty : BitVec 48) : L1Sector :=
  { sector := 0x5000 / 32, asid := 1, vpage := 5, cache := 0, owners := [], readers := [], released := false, bytes := [], dirty := dirty, side := none, stale := false, revoked := false, dur := false, shr := false }
def movingPark : Park := { fetchPark with cause := .migration 0x5000 }
def movingGroups : List (Nat × Group) := (demo 0 .nop).groups.map fun x => (x.1, { x.2 with parks := [movingPark] })
theorem test_meets_Shootdowns : (nextCommand (demo 0 .nop) 1 0).isNone = true ∧ demoCtx.privileged = true ∧
    shoots (shootDemo [(0, 0x10030)] [] [] []) (fun w => decide (cmdKind w = 0x30) && !bit (wordAt w 0) 10) = true ∧
    shoots (shootDemo [(0, 0x20)] [] [] []) (fun w => decide (cmdKind w ≠ 0x30)) = true ∧
    ([(0, 0x01010030), (0, 0x010830), (1, 0x5001), (2, 2 ^ 40)].all fun x => shoots (shootDemo (if x.1 = 0 then [x] else [(0, 0x10030), x]) [] [] []) fun w => decide (cmdKind w = 0x30) &&
      decide (bits (wordAt w 0) 15 11 ≠ 0 ∨ bits (wordAt w 0) 63 24 ≠ 0 ∨ bits (wordAt w 1) 11 0 ≠ 0 ∨ bits (wordAt w 2) 63 40 ≠ 0)) = true ∧
    shoots (shootDemo [(0, 0x10030), (1, 0x5000), (2, 1)] [aSector 0, { aSector 1 with sector := 0x5020 / 32 }] [] []) (fun w => !shootBad demoCtx 0 w && decide (wordAt w 3 = 0) && !bit (wordAt w 0) 9 &&
      !bit (wordAt w 0) 8 && decide (bits (wordAt w 0) 23 16 = 1) && decide (bits (wordAt w 1) 59 12 = 5) && decide (bits (wordAt w 2) 39 0 = 1)) = true ∧
    shoots (shootDemo [(0, 0x10430), (1, 0x5000), (2, 1)] [] movingGroups (demo 0 .nop).kernels) (fun w => !shootBad demoCtx 0 w && decide (wordAt w 3 = 0) && !bit (wordAt w 0) 9 && bit (wordAt w 0) 10) = true ∧
    ∃ g, (shootDemo [(0, 0x10430), (1, 0x5000), (2, 1)] [] movingGroups (demo 0 .nop).kernels).group? 1 = some g ∧ g.parks[0]? = some movingPark ∧ movingPark.cause = .migration 0x5000 := by
  refine ⟨by decide +kernel, by decide +kernel, by decide +kernel, by decide +kernel, by decide +kernel, by decide +kernel, by decide +kernel, _, rfl, by decide +kernel⟩

/-! The host. -/

/-- A machine whose device is booted and in D0; and one with partition 0 changed. -/
def up (s : State) : State := { s with dev := { s.dev with bootDone := true, recovery := false, power := .d0 } }
def withPart (s : State) (f : Partition → Partition) : State := { s with parts := s.parts.set 0 (f (s.part 0)) }
def upDemo : State := up (demo 0 .nop)
def vfDemo : State := { upDemo with dev := { upDemo.dev with vfAsid := upDemo.dev.vfAsid.set 63 2 } }
/-- Which addresses lie in HBM is a free value of the model (log 27); the other hypotheses of a host access hold at every address. -/
theorem test_meets_HostWindows : hostEvent .leaveReset = true ∧ hostReaches (demo 0 .nop) = false ∧ hostReaches upDemo = true ∧
    bit upDemo.dev.vfAsid[(63 : Fin 64)] 1 = false ∧ bit vfDemo.dev.vfAsid[(63 : Fin 64)] 1 = true ∧ hostReaches vfDemo = true ∧ KMap.wf upDemo.dbStat = true ∧
    (match queueEntry upDemo 1 0, queueEntry upDemo 1 1 with
      | some x, some y => x.device && !y.device && decide (((4 : BitVec 32) - y.rd).toNat ≤ 2 ^ y.size) && decide (2 ^ y.size < ((5 : BitVec 32) - y.rd).toNat)
      | _, _ => false) = true ∧
    upDemo.dev.poolForeign = [] ∧ Memory.wf upDemo.mem = true ∧ (∀ pa, inHbm upDemo pa = true ∨ inHbm upDemo pa = false) ∧
    allHeld upDemo = false ∧ bit { upDemo.dev with devCfg := 2 ^ 63 }.devCfg 63 = true ∧
    (let s := withPart upDemo fun p => { p with inReset := true }
     hostReaches s = true ∧ allHeld s = true ∧ bit s.dev.devCfg 63 = false) ∧
    partThere upDemo 0 = true ∧ upDemo.dev.power = .d0 := by
  refine ⟨by decide, by decide +kernel, by decide +kernel, by decide +kernel, by decide +kernel, by decide +kernel, by decide +kernel, by decide +kernel, by decide +kernel, by decide +kernel,
    fun pa => by cases inHbm upDemo pa <;> simp, by decide +kernel, by decide +kernel, by decide +kernel, by decide +kernel, by decide +kernel⟩

/-- A post to group 1 of the small machine, its word as given. -/
def postDemo (f : Group → Group) : State := up (groupDemo f)
def postMeets (s : State) (v : BitVec 64) (p : Group → Bool) : Bool := hostReaches s && partThere s 0 && KMap.wf s.groups && match groupAtBlock s 0 (bits v 59 10 * 1024) with
  | some (1, g) => decide (bits v 63 61 = 0) && p g
  | _ => false
def armed (tok : Nat) (g : Group) : Group := { g with resWord := BitVec.ofNat 64 (2 ^ 62 + tok) }
/-- A descriptor of identifier 2 at the start of the context table at 0x40000. -/
def descDemo (w0 : Nat) : State := withPart { upDemo with mem := memWith [(0x40000, w0), (0x40008, 0x8000), (0x40010, 0x30000)] } fun p => { p with regs := { p.regs with ctBase := 0x40000 } }
theorem test_meets_HostControlsPartitions :
    groupAtBlock upDemo 0 0x300000 = none ∧
    postMeets (up (demoOf 0 [0] id fun k => { k with arena := 2 ^ 40 })) (2 ^ 40) (fun g => !bit (2 ^ 40 : BitVec 64) 60 &&
      (blockNow (up (demoOf 0 [0] id fun k => { k with arena := 2 ^ 40 })) g 0).isNone) = true ∧
    postMeets upDemo 0x200000 (fun g => (blockNow upDemo g 0).isSome && !bit g.resWord 62) = true ∧
    postMeets (postDemo (armed 7)) 0x200107 (fun g => (blockNow (postDemo (armed 7)) g 0).isSome && bit g.resWord 62 && !g.posted && decide (bits g.resWord 7 0 = bits (0x200107 : BitVec 64) 7 0)) = true ∧
    ([0, 2].all fun n => postMeets (postDemo fun g => { g with ctxToken := some 5 }) (BitVec.ofNat 64 (2 ^ 60 + 0x200005 + 256 * n)) (fun g =>
      decide (g.ctxToken = some 5) && decide (bits (BitVec.ofNat 64 (2 ^ 60 + 0x200005 + 256 * n)) 9 8 = n) && bit (BitVec.ofNat 64 (2 ^ 60 + 0x200005 + 256 * n)) 60)) = true ∧
    postMeets upDemo (2 ^ 60 + 0x200105) (fun _ => decide (bits (2 ^ 60 + 0x200105 : BitVec 64) 9 8 = 1)) = true ∧
    postMeets upDemo (2 ^ 60 + 0x200005) (fun g => decide (g.ctxToken ≠ some 5)) = true ∧
    descBad (descDemo (2 + 2 ^ 12)) 0 (descWords (descDemo (2 + 2 ^ 12)) 0x40000) = false ∧ descBad (descDemo (2 + 2 ^ 13)) 0 (descWords (descDemo (2 + 2 ^ 13)) 0x40000) = true := by
  refine ⟨by decide +kernel, by decide +kernel, by decide +kernel, by decide +kernel, by decide +kernel, by decide +kernel, by decide +kernel, by decide +kernel, by decide +kernel⟩
theorem test_meets_HostControlsPartitions_swaps :
    ((upDemo.part 0).inReset = false ∧ (upDemo.part 0).swapping = none) ∧ KMap.wf upDemo.groups = true ∧ KMap.wf upDemo.ctxs = true ∧ KMap.get? upDemo.ctxs 1 = some demoCtx ∧
    ((withPart upDemo fun p => { p with swapping := some true }).part 0).swapping = some true ∧
    (let s := withPart upDemo fun p => { p with swapping := some false, swapArea := 0x700000 }
     (s.part 0).swapping = some false ∧ KMap.get? s.swapAreas (s.part 0).swapArea = none) ∧
    (let s := withPart { upDemo with swapAreas := [(0x700000, ⟨0, [1], []⟩)] } fun p => { p with swapping := some false, swapArea := 0x700000 }
     (s.part 0).swapping = some false ∧ KMap.get? s.swapAreas (s.part 0).swapArea = some ⟨0, [1], []⟩) ∧
    ((List.range 8).all fun n => !(upDemo.part n).inReset) = true ∧
    (let s := withPart upDemo fun p => { p with inReset := true }
     hostReaches s = true ∧ (s.part 0).inReset = true ∧ windowsBad s = false) ∧
    (let s := withPart { upDemo with dev := { upDemo.dev with poolWin := upDemo.dev.poolWin.set 0 (2 ^ 52, 2 ^ 6 + 3) } } fun p => { p with inReset := true }
     hostReaches s = true ∧ (s.part 0).inReset = true ∧ windowsBad s = true) ∧
    ((vfDemo.group? 1).any fun g => g.live && bit vfDemo.dev.vfAsid[(63 : Fin 64)] (vfDemo.kernel g.kernel).asid) = true ∧
    ((upDemo.group? 1).any fun g => g.live && !bit upDemo.dev.vfAsid[(63 : Fin 64)] (upDemo.kernel g.kernel).asid) = true := by
  refine ⟨by decide +kernel, by decide +kernel, by decide +kernel, by decide +kernel, by decide +kernel, by decide +kernel, by decide +kernel, by decide +kernel, by decide +kernel, by decide +kernel,
    by decide +kernel, by decide +kernel⟩

/-! Links, caches, power and management. -/

/-- The small machine with a pool window over its first gigabyte, and port 3's link in a state since clock 0. -/
def linkDemo (st : LinkState) (clock : Nat) : State :=
  let s := { upDemo with clock := clock, dev := { upDemo.dev with poolWin := upDemo.dev.poolWin.set 0 (2 ^ 52, 2 ^ 6) } }
  s.setLink 3 { s.link 3 with state := st, peer := 9 }
def cold (s : State) : State := { s with dev := { s.dev with power := .d3cold } }
/-- A machine whose release waits for markers to peer 9; and one of its rounds, of id 7. -/
def roundDemo (paths : List Nat) (w : List PeerWrite) : State :=
  let s := linkDemo .up 0
  { s with dev := { s.dev with marks := [⟨7, 9, paths⟩], peerOut := w } }
def strandedDemo : State :=
  let s := up (releaseDemo { aRelease .sys (.fence true) true with markers := [7] } id)
  { s with clock := 180000000, dev := { s.dev with marks := [⟨7, 9, []⟩] } }
theorem test_meets_LinksAndPeers : linkEvent 3 (.flushMarker 3) ∧ powered (cold upDemo) = false ∧
    ([LinkState.down, .training, .retraining, .up].all fun st => powered (linkDemo st 17999999) && decide (((linkDemo st 17999999).link 3).state = st) && decide (((linkDemo st 17999999).link 3).since = 0)) = true ∧
    ([LinkState.training, .retraining].all fun st => ((linkDemo st 18000000).link 3).trains && decide (((linkDemo st 18000000).link 3).since + 18000000 ≤ (linkDemo st 18000000).clock)) = true ∧
    (peerReaches (linkDemo .up 0) 0x100000 8 = true ∧ Memory.wf (linkDemo .up 0).mem = true ∧ (linkDemo .up 0).dev.poolForeign = [] ∧ 0x100000 % 8 = 0) ∧
    (∀ pa n, peerReaches (linkDemo .up 0) pa n = true ∨ peerReaches (linkDemo .up 0) pa n = false) ∧
    (let s := (linkDemo .up 0).setLink 4 { (linkDemo .up 0).link 4 with state := .up, peer := 9 }
     (s.link 4).peer = (s.link 3).peer ∧ (s.link 4).isUp = true ∧ (s.link 4).markerSeen = false) ∧
    ((List.finRange 16).all fun p => decide (p = 3) || !(decide (((linkDemo .up 0).link p).peer = 9) && (((linkDemo .up 0).link p).isUp || ((linkDemo .up 0).link p).carried))) = true ∧
    (∃ g, upDemo.group? 1 = some g ∧ g.release = none ∧ g.copies = [] ∧ g.mx = []) ∧
    (∃ g, strandedDemo.group? 1 = some g ∧ g.release = some { aRelease .sys (.fence true) true with markers := [7] } ∧ g.live = true ∧ (∃ m ∈ strandedDemo.dev.marks, m.id ∈ [7] ∧ m.dest = 9) ∧
      ((List.finRange 16).all fun p => !(strandedDemo.link p).isUp && decide ((strandedDemo.link p).lostAt + 180000000 ≤ strandedDemo.clock)) = true) ∧
    upDemo.dev.marks = [] ∧
    ((roundDemo [3] [⟨9, some 3, 5, 0, some 7⟩]).dev.marks.find? fun m => decide (m.dest = 9)) = some ⟨7, 9, [3]⟩ ∧
    (((roundDemo [3] [⟨9, some 3, 5, 0, some 7⟩]).link 3).isUp = true ∧ ((roundDemo [3] [⟨9, some 3, 5, 0, some 7⟩]).link 3).peer.toNat = 9) ∧
    ((roundDemo [] []).dev.marks.find? fun m => decide (m.dest = 9)) = some ⟨7, 9, []⟩ := by
  refine ⟨rfl, by decide +kernel, by decide +kernel, by decide +kernel, by decide +kernel, fun pa n => by cases peerReaches (linkDemo .up 0) pa n <;> simp, by decide +kernel, by decide +kernel,
    ⟨_, rfl, by decide +kernel⟩, ⟨_, rfl, by decide +kernel⟩, by decide +kernel, by decide +kernel, by decide +kernel, by decide +kernel⟩

def aDurWrite : DurWrite := ⟨0, 0x8000, [(0, 5)], none, [1], false, [], false, 7⟩
/-- The small machine with a dirty byte of line 0 in core 0's L1, a hotness sample, and a ring of 64 records of which n are taken. -/
def cacheDemo (n : Nat) : State :=
  let s := withPart { upDemo with durWait := [aDurWrite], pbuf := [{ aDurWrite with sector := 1 }] } fun p =>
    { p with regs := { p.regs with hsBase := 0x40000, hsSize := 6, hsProd := BitVec.ofNat 32 n } }
  s.setCore 0 { s.core 0 with l1 := [{ aSector 1 with sector := 0, bytes := [(0, 5)] }], samples := [{ va := 5, clock := 0, asid := 1, kind := 0, type := 0, bc := false, size := 0 }] }
theorem test_meets_CachesAndPersistence : upDemo.durWait = [] ∧ upDemo.pbuf = [] ∧ (cacheDemo 0).durWait = [aDurWrite] ∧ (cacheDemo 0).pbuf = [{ aDurWrite with sector := 1 }] ∧
    Memory.wf (cacheDemo 0).pool = true ∧ KMap.wf aDurWrite.bytes = true ∧ poolWindow upDemo (lineBase 0) = none ∧ poolWindow (linkDemo .up 0) (lineBase 0) = some (0, 0) ∧
    Memory.wf (cacheDemo 0).mem = true ∧ (cacheDemo 0).dev.poolForeign = [] ∧
    (((cacheDemo 0).core 0).l1.all fun e => KMap.wf e.bytes && (e.bytes.all fun x => decide (x.1 < sectorSize e.sector)) && !e.revoked && !e.shr) = true ∧
    (upDemo.core 0).samples = [] ∧ partOfCore upDemo 0 = 0 ∧
    ([0, 63, 64].all fun n => let r := ((cacheDemo n).part (partOfCore (cacheDemo n) 0)).regs
      decide ((r.hsProd - r.hsCons).toNat = n) && decide (r.hsSize.toNat = 6)) = true ∧
    powered (cold upDemo) = false ∧ powered upDemo = true ∧ persistentAt { upDemo with pbuf := [aDurWrite] } (sectorBase 0x8000) = true ∧ KMap.get? aDurWrite.bytes 0 = some 5 ∧
    Memory.read (Memory.write upDemo.mem (sectorBase 0x8000) 5) (sectorBase 0x8000) = 5 ∧ upDemo.dev.power ≠ .lost ∧ ({ upDemo.dev with power := .lost } : Device).gpfDone = false := by
  refine ⟨by decide +kernel, by decide +kernel, by decide +kernel, by decide +kernel, by decide +kernel, by decide +kernel, by decide +kernel, by decide +kernel, by decide +kernel, by decide +kernel,
    by decide +kernel, by decide +kernel, by decide +kernel, by decide +kernel, by decide +kernel, by decide +kernel, by decide +kernel, by decide +kernel, by decide +kernel, by decide +kernel, by decide +kernel⟩

theorem test_meets_ResetsAndPower : powered (cold upDemo) = false ∧ powered upDemo = true ∧ ({ upDemo.dev with resetAt := some 0 } : Device).resetAt = some 0 ∧
    (State.reset.dev.power = .d0 ∧ State.reset.dev.bootDone = false ∧ State.reset.dev.recovery = false) ∧ upDemo.dev.resetAt = none ∧ upDemo.dev.bootDone = true ∧
    (upDemo.dev.power = .d0 ∧ KMap.wf upDemo.groups = true ∧ KMap.wf upDemo.ctxs = true ∧ KMap.get? upDemo.ctxs 1 = some demoCtx) ∧
    (let s := up (endedDemo id id)
     s.dev.power = .d0 ∧ KMap.wf s.cores = true ∧ (∀ x ∈ s.groups, x.2.live = false) ∧ ∀ x ∈ s.cores, x.2.l1 = []) ∧
    ({ upDemo with dev := { upDemo.dev with power := .d3hot } } : State).dev.power = .d3hot := by
  refine ⟨by decide +kernel, by decide +kernel, by decide +kernel, by decide +kernel, by decide +kernel, by decide +kernel, by decide +kernel, by decide +kernel, rfl⟩

theorem test_meets_ManagementAndErrors : (upDemo.dev.power = .d0 ∧ min 1800 (min upDemo.dev.pwLimit.toNat upDemo.dev.mgmtLimit.toNat) = 1800) ∧
    ((∃ x ∈ upDemo.groups, x.2.place = .seat 0 0) ∧ (∀ x ∈ upDemo.groups, x.2.place ≠ .seat 5 1) ∧ (upDemo.core 5).gatedQuarters = [] ∧
      (KMap.get? (upDemo.core 5).seatedUntil 1).getD 0 + 1800 ≤ ({ upDemo with clock := 1800 } : State).clock) ∧
    (upDemo.dev.pwGate = true ∧ (upDemo.core 5).gated = false ∧ (upDemo.core 5).mq = [] ∧ (upDemo.core 5).decodeQ = [] ∧ (∀ x ∈ upDemo.groups, x.2.core ≠ 5) ∧ (upDemo.core 5).seatedUntil = []) ∧
    (((coresOf upDemo (0 * max 1 upDemo.dev.partCount / 8)).all fun c => decide ((upDemo.core c).accessAt + 1800000 ≤ ({ upDemo with clock := 1800000 } : State).clock)) = true ∧
      KMap.get? upDemo.dev.selfRefreshAt 0 = none) ∧
    (powered (cold upDemo) = false ∧ powered upDemo = true ∧ upDemo.dev.resetAt = none) ∧
    (partOfCore upDemo 0 < 8 ∧ KMap.get? upDemo.dev.lastCorrected 3 = none ∧ KMap.wf upDemo.dev.correctedCount = true ∧
      (let r := (upDemo.part 0).regs; (r.elProd - r.elCons).toNat < 2 ^ r.elSize.toNat) ∧ (let r := ((errDemo 64).part 0).regs; 2 ^ r.elSize.toNat ≤ (r.elProd - r.elCons).toNat) ∧
      KMap.get? ({ upDemo.dev with lastCorrected := [(3, 0)] } : Device).lastCorrected 3 = some 0) ∧
    (upDemo.tile 1 31 = none ∧ upDemo.tile 1 5 = some tile5 ∧ (upDemo.group? 1).isSome = true) := by
  refine ⟨by decide +kernel, by decide +kernel, by decide +kernel, by decide +kernel, by decide +kernel, by decide +kernel, by decide +kernel⟩

/-! The places of R255's examples. -/

/-- An 8 by 8 tile of F16, and one of 128 by 64, at a base; the second tile's rows are 32 words long. -/
theorem test_tile_places : ((List.range 8).all fun r => (List.range 4).all fun c => decide ((demoTile 8 8 0x02 0 1).placeOf r c = (0, 0, 4 * r + c))) = true ∧
    (demoTile 128 64 0x02 10 86).placeOf 3 0 = (0, 12, 2) := by decide +kernel

end Sys2Proof.Machine
end

section
/-! # Canonical memory (O32)

Memory and the pools are lists of (address, byte) pairs in canonical form (`Memory.wf`), and every change to either goes through the write operations of
`Memory`, which keep that form (`Laws.write_wf` and its companions). So each operation of the model that returns a state keeps both memories canonical:
there is one lemma for each, in the order of the model's files, and a step is made of nothing else. Where an operation leaves both memories as they are,
its lemma is the hypothesis itself. -/

namespace Sys2Proof.Machine

/-- The state that a try at a release leaves. -/
def Released.state : Released → State
  | .waiting s | .refused s _ | .sent s _ => s

/-- The state that a copy's next element leaves. -/
def Moved.state : Moved → State
  | .done s _ | .wait s | .fault s _ _ _ | .ended s _ => s

/-- The state that a group's move between cores leaves. -/
def Mover.state : Mover → State
  | .stays s | .goes s => s

/-- The state that the check of a launch leaves. -/
def Checked.state : Checked → State
  | .status s _ | .kernel s _ => s

end Sys2Proof.Machine

namespace Sys2Proof.Proofs

open Sys2Proof.Machine

/-- Memory and the pools are in canonical form. -/
def Canonical (s : State) : Prop := Memory.wf s.mem = true ∧ Memory.wf s.pool = true

/-- The state of an outcome, where it has one, is canonical. -/
def NextCanonical : Host.Outcome State Fault Refusal → Prop
  | .next t => Canonical t
  | .fault _ | .refused _ => True

/-- The state of a gang's result, where it has one, is canonical. -/
def ResultCanonical : Result → Prop
  | .done s | .stay s _ | .held s _ | .leave s _ _ | .gone s => Canonical s
  | .trap _ => True

variable {s : State} {gid core quarter asid kid part lead va pa sec line vf queue : Nat}
  {g : Group} {c : Gang} {i : Instr} {rt : RT} {o : Src} {cmd : CopyCmd} {lanes : BitVec 32} {e : MEntry}

/-! ### Case distinctions, folds and results -/

theorem canonical_ite {c : Prop} [Decidable c] {s t : State} (hs : Canonical s) (ht : Canonical t) : Canonical (if c then s else t) := by
  split
  · exact hs
  · exact ht

/-- The same for what carries a state. -/
theorem canonical_ite_state {α : Type} (state : α → State) {c : Prop} [Decidable c] {x y : α} (hx : Canonical (state x)) (hy : Canonical (state y)) :
    Canonical (state (if c then x else y)) := by
  split
  · exact hx
  · exact hy

theorem fst_canonical_ite {β : Type} {c : Prop} [Decidable c] {p q : State × β} (hp : Canonical p.1) (hq : Canonical q.1) :
    Canonical (if c then p else q).1 :=
  canonical_ite_state Prod.fst hp hq

theorem perf_canonical_ite {c : Prop} [Decidable c] {p q : Perf} (hp : Canonical p.s) (hq : Canonical q.s) : Canonical (if c then p else q).s :=
  canonical_ite_state Perf.s hp hq

theorem nextCanonical_ite {c : Prop} [Decidable c] {a b : Host.Outcome State Fault Refusal} (ha : NextCanonical a) (hb : NextCanonical b) :
    NextCanonical (if c then a else b) := by
  split
  · exact ha
  · exact hb

theorem resultCanonical_ite {c : Prop} [Decidable c] {a b : Result} (ha : ResultCanonical a) (hb : ResultCanonical b) :
    ResultCanonical (if c then a else b) := by
  split
  · exact ha
  · exact hb

/-- What an equation with a call's result gives of the state that the result carries. -/
theorem canonical_of_eq {α : Type} (state : α → State) {x y : α} (e : x = y) (h : Canonical (state x)) : Canonical (state y) := e ▸ h

theorem fst_canonical {β : Type} {p : State × β} {b : β} (e : p = (s, b)) (h : Canonical p.1) : Canonical s := canonical_of_eq Prod.fst e h

theorem done_canonical {r : Result} (e : r = .done s) (h : ResultCanonical r) : Canonical s := by
  rw [e] at h
  exact h

theorem foldl_canonical {α : Type} {f : State → α → State} {l : List α} (hf : ∀ s a, Canonical s → Canonical (f s a)) (h : Canonical s) :
    Canonical (l.foldl f s) :=
  List.foldlRecOn l f h fun s hs a _ => hf s a hs

theorem foldl_fst_canonical {α β : Type} {f : State × β → α → State × β} {l : List α} {p : State × β}
    (hf : ∀ p a, Canonical p.1 → Canonical (f p a).1) (h : Canonical p.1) : Canonical (l.foldl f p).1 :=
  List.foldlRecOn (motive := fun p : State × β => Canonical p.1) l f h fun p hp a _ => hf p a hp

/-- A fold whose steps may fail. -/
theorem foldl_bind_canonical {α : Type} {f : State → α → Option State} {l : List α} {o : Option State} {t : State}
    (hf : ∀ s a t, Canonical s → f s a = some t → Canonical t) (h : ∀ s, o = some s → Canonical s)
    (e : l.foldl (fun acc a => acc.bind fun s => f s a) o = some t) : Canonical t := by
  induction l generalizing o with
  | nil => exact h t e
  | cons a l ih =>
    refine ih (fun s hs => ?_) e
    obtain ⟨s', ho, hs⟩ := Option.bind_eq_some_iff.mp hs
    exact hf s' a s (h s' ho) hs

theorem writeMem_canonical {m : Memory} (h : Canonical s) (hm : Memory.wf s.mem = true → Memory.wf m = true) : Canonical { s with mem := m } :=
  And.intro (hm h.left) h.right

theorem focus_canonical (h : Canonical s) : Canonical { s with focus := gid } := h

/-! ### Memories built by folds of writes -/

theorem foldl_wf {α : Type} {f : Memory → α → Memory} {l : List α} {m : Memory} (hf : ∀ m a, Memory.wf m = true → Memory.wf (f m a) = true)
    (h : Memory.wf m = true) : Memory.wf (l.foldl f m) = true :=
  List.foldlRecOn (motive := fun m => Memory.wf m = true) l f h fun m hm a _ => hf m a hm

theorem sectorFrom_wf {src m : Memory} {sec : Nat} (h : Memory.wf m = true) : Memory.wf (sectorFrom src m sec) = true :=
  Laws.writeBytes_wf _ _ _ h

theorem outsideSector_wf {s : State} {m : Memory} {sec : Nat} (h : Memory.wf m = true) : Memory.wf (outsideSector s m sec) = true := by
  refine foldl_wf (fun m o hm => ?_) h
  split
  · exact Laws.write_wf _ _ _ hm
  · exact hm

theorem overlay_wf {l : List DurWrite} {m : Memory} (h : Memory.wf m = true) : Memory.wf (overlay l m) = true :=
  foldl_wf (fun m _ hm => Laws.writePairs_wf m _ _ hm) h

theorem keptMemory_wf {s : State} (h : Memory.wf s.pool = true) : Memory.wf (keptMemory s) = true :=
  foldl_wf (fun m _ hm => Laws.write_wf m _ _ hm) (overlay_wf h)

/-! ### The caches, the hub and the pools (`Machine/Mem.lean`) -/

theorem poolSync_canonical {secs : List Nat} (h : Canonical s) : Canonical (poolSync s secs) :=
  And.intro h.left (foldl_wf (fun _ _ => sectorFrom_wf) h.right)

theorem toBacking_canonical {secs : List Nat} (h : Canonical s) : Canonical (toBacking s secs) := poolSync_canonical h

theorem poolOwn_canonical {port : Nat} (h : Canonical s) : Canonical (poolOwn s port line) := by
  refine canonical_ite h ?_
  split
  · exact And.intro (foldl_wf (fun _ _ => outsideSector_wf) h.left) (foldl_wf (fun _ _ => sectorFrom_wf) h.right)
  · exact h

theorem hubClean_canonical (h : Canonical s) : Canonical (hubClean s line) := by
  unfold hubClean
  split
  · exact h
  · exact toBacking_canonical h

theorem hubRoom_canonical (h : Canonical s) : Canonical (hubRoom s line) := by
  refine canonical_ite h (canonical_ite h ?_)
  split
  · exact hubClean_canonical h
  · exact h

theorem hubUse_canonical {x : Nat} {dirty : Bool} (h : Canonical s) : Canonical (hubUse s part sec x dirty) := by
  unfold hubUse
  dsimp only
  split
  · exact h
  · exact canonical_ite h (hubRoom_canonical h)

theorem passHome_canonical {cache : Nat} {shr dirty : Bool} (h : Canonical s) : Canonical (passHome s core sec cache shr dirty) := by
  refine canonical_ite (canonical_ite h h) (hubUse_canonical ?_)
  split
  · exact poolOwn_canonical (canonical_ite h h)
  · exact canonical_ite h h

theorem passL1_canonical {cache : Nat} {shr : Bool} (h : Canonical s) : Canonical (passL1 s core sec cache shr) := by
  refine passHome_canonical ?_
  split
  · exact And.intro (outsideSector_wf h.left) h.right
  · exact h

theorem hubWrite_canonical {w : HomeWrite} (h : Canonical s) : Canonical (hubWrite s core w) := by
  have hp : Canonical (passHome s core w.sector w.cache w.shr !w.dur) := passHome_canonical h
  have hw := And.intro (Laws.writePairs_wf _ (sectorBase w.sector) w.bytes hp.left) hp.right
  exact canonical_ite h (canonical_ite hw (canonical_ite hw (canonical_ite (toBacking_canonical hw) hw)))

theorem setCore_canonical {c : Nat} {x : Core} (h : Canonical s) : Canonical (State.setCore s c x) := h

theorem pmcCore_canonical {n k : Nat} (h : Canonical s) : Canonical (pmcCore s core vf n k) := h

theorem l1Drop_canonical {e : L1Sector} (h : Canonical s) : Canonical (l1Drop s core e) := h

theorem l1WriteBack_canonical (h : Canonical s) : Canonical (l1WriteBack s core sec) := by
  unfold l1WriteBack
  split
  · exact canonical_ite h (hubWrite_canonical h)
  · exact h

theorem l1Flush_canonical (h : Canonical s) : Canonical (l1Flush s core sec) := by
  unfold l1Flush
  dsimp only
  split <;> exact l1WriteBack_canonical h

theorem l1FlushLine_canonical (h : Canonical s) : Canonical (l1FlushLine s core line) := foldl_canonical (fun _ _ => l1Flush_canonical) h

theorem l1MarkStale_canonical {p : L1Sector → Bool} (h : Canonical s) : Canonical (l1MarkStale s core p) := h

theorem l1Fit_canonical (h : Canonical s) : Canonical (l1Fit s core) := by
  refine canonical_ite h (canonical_ite h ?_)
  split
  · exact l1FlushLine_canonical h
  · exact h

theorem l1Claim_canonical (h : Canonical s) : Canonical (l1Claim s core asid sec) := canonical_ite (l1FlushLine_canonical h) h

theorem l1Fill_canonical {a : Attr} (h : Canonical s) : Canonical (l1Fill s core sec a) := by
  unfold l1Fill
  dsimp only
  split
  · exact canonical_ite (l1Claim_canonical h) (l1Fit_canonical (passL1_canonical (l1Claim_canonical h)))
  · exact l1Fit_canonical (passL1_canonical (l1Claim_canonical h))

theorem l1Read_canonical {a : Attr} {noalloc : Bool} {n : Nat} (h : Canonical s) : Canonical (l1Read s core a noalloc pa n).1 :=
  fst_canonical_ite (passL1_canonical h) (l1Fill_canonical h)

theorem l1Store_canonical {w : SectorWrite} (h : Canonical s) : Canonical (l1Store s core gid sec w) :=
  l1Fit_canonical (canonical_ite (l1Fill_canonical h) (l1Claim_canonical h))

theorem throughStore_canonical {w : SectorWrite} (h : Canonical s) : Canonical (throughStore s core gid sec w) :=
  hubWrite_canonical (l1Flush_canonical h)

theorem sawSectors_canonical {secs : List Nat} (h : Canonical s) : Canonical (sawSectors s core gid secs) := h

theorem releasedBy_canonical (h : Canonical s) : Canonical (releasedBy s core gid) := h

theorem acquiredBy_canonical (h : Canonical s) : Canonical (acquiredBy s core gid) := h

/-! ### Translation (`Machine/Translate.lean`) -/

theorem translate_canonical (h : Canonical s) : Canonical (Machine.translate s core asid va).1 := by
  refine fst_canonical_ite h ?_
  split
  · exact h
  · exact fst_canonical_ite (canonical_ite h h) (canonical_ite h h)

theorem translateRecord_canonical {base : Nat} {exts : List Extent} {off : Nat} (h : Canonical s) :
    Canonical (translateRecord s core asid base exts off).1 := by
  unfold translateRecord
  split
  · exact fst_canonical_ite h (fst_canonical_ite h (fst_canonical_ite (translate_canonical h) h))
  · exact h

/-! ### Setters, records, traps and the frame of an instruction (`Machine/Ops.lean`) -/

theorem setGroup_canonical {n : Nat} (h : Canonical s) : Canonical (State.setGroup s n g) := h

theorem modGroup_canonical {n : Nat} {f : Group → Group} (h : Canonical s) : Canonical (State.modGroup s n f) := h

theorem setTeam_canonical {n : Nat} {t : Team} (h : Canonical s) : Canonical (State.setTeam s n t) := h

theorem setKernel_canonical {n : Nat} {k : Kernel} (h : Canonical s) : Canonical (State.setKernel s n k) := h

theorem setPart_canonical {i : Nat} {p : Partition} (h : Canonical s) : Canonical (State.setPart s i p) := by
  unfold State.setPart
  split <;> exact h

theorem modRegs_canonical {i : Nat} {f : PartRegs → PartRegs} (h : Canonical s) : Canonical (State.modRegs s i f) := setPart_canonical h

theorem physWords_canonical {x : List W64} (h : Canonical s) : Canonical (physWords s pa x) := by
  induction x generalizing s pa with
  | nil => exact h
  | cons w t ih => exact ih (And.intro (Laws.writeN_wf _ _ _ _ h.left) h.right)

theorem pmcPart_canonical {n k : Nat} (h : Canonical s) : Canonical (pmcPart s part vf n k) := setPart_canonical h

theorem countError_canonical {kind : Nat} (h : Canonical s) : Canonical (countError s kind) := canonical_ite h h

theorem errorRecord_canonical {r : ErrRec} (h : Canonical s) : Canonical (errorRecord s part r).1 :=
  fst_canonical_ite (modRegs_canonical (countError_canonical h)) (modRegs_canonical (physWords_canonical (countError_canonical h)))

theorem account_canonical (h : Canonical s) : Canonical (account s core) := h

theorem setBarrier_canonical {grid : Bool} {owner num : Nat} {b : Barrier} (h : Canonical s) : Canonical (setBarrier s grid owner num b) :=
  canonical_ite h h

theorem settleBarrier_canonical {grid : Bool} {owner num : Nat} (h : Canonical s) : Canonical (settleBarrier s grid owner num) :=
  canonical_ite (setBarrier_canonical h) h

theorem settleBarriers_canonical (h : Canonical s) : Canonical (settleBarriers s g) := by
  unfold settleBarriers
  dsimp only
  split
  · exact foldl_canonical (fun _ _ => settleBarrier_canonical) (foldl_canonical (fun _ _ => settleBarrier_canonical) h)
  · exact foldl_canonical (fun _ _ => settleBarrier_canonical) h

theorem stopGroup_canonical {code : Nat} (h : Canonical s) : Canonical (stopGroup s gid code) := by
  unfold stopGroup
  split
  · exact h
  · exact canonical_ite h (settleBarriers_canonical (pmcPart_canonical (account_canonical h)))

theorem killGroup_canonical {r : Group → ErrRec} (h : Canonical s) : Canonical (killGroup s gid r) := by
  unfold killGroup
  split
  · exact h
  · exact canonical_ite (stopGroup_canonical (errorRecord_canonical h)) h

theorem killPoison_canonical (h : Canonical s) : Canonical (killPoison s gid) := killGroup_canonical h

theorem writeHeld_canonical {x : Nat} (h : Canonical s) : Canonical (writeHeld s part x) := by
  induction x generalizing s with
  | zero => exact h
  | succ n ih =>
    unfold writeHeld
    dsimp only
    split
    · exact h
    · exact canonical_ite h (ih (setPart_canonical (physWords_canonical h)))

theorem setResWord_canonical {w : W64} (h : Canonical s) : Canonical (setResWord s gid w) := by
  unfold setResWord
  dsimp only
  split
  · exact h
  · split
    · exact physWords_canonical h
    all_goals exact h

theorem raiseEntry_canonical {f : FaultInfo} (h : Canonical s) : Canonical (raiseEntry s gid f) := by
  unfold raiseEntry
  split
  · exact h
  · exact canonical_ite h (writeHeld_canonical (setPart_canonical (canonical_ite h (setResWord_canonical h))))

theorem takeTrap_canonical {site : TrapSite} {t : TrapInfo} (h : Canonical s) : Canonical (takeTrap s gid site t) := by
  unfold takeTrap
  dsimp only
  split
  · exact h
  · refine canonical_ite (killGroup_canonical h) ?_
    split
    · exact killGroup_canonical h
    · exact h

theorem reenterHandler_canonical (h : Canonical s) : Canonical (reenterHandler s gid) := by
  unfold reenterHandler
  split
  · exact h
  · split <;> exact h

theorem illegal_canonical {cause : Nat} : ResultCanonical (Gang.illegal c cause) := trivial

theorem badMode_canonical : ResultCanonical (Gang.badMode c) := trivial

theorem advance_canonical {n : Nat} {leave : BitVec 8} {taken : Bool} (h : Canonical s) : Canonical (advance s gid n leave taken) := by
  unfold advance
  split
  · exact h
  · split
    · exact h
    · exact canonical_ite h h

theorem tick_canonical (h : Canonical s) : Canonical (tick s) := h

theorem finish_canonical {r : Result} (h : Canonical s) (hr : ResultCanonical r) : Canonical (finish s c r) := by
  cases r with
  | done s => exact advance_canonical hr
  | stay s slip => exact canonical_ite hr hr
  | held s x => exact hr
  | leave s m taken => exact advance_canonical hr
  | trap t => exact takeTrap_canonical h
  | gone s => exact hr

theorem issue_canonical {uses : Uses} {body : Gang → Result} (h : Canonical s) (hb : ∀ c, ResultCanonical (body c)) :
    NextCanonical (issue i s uses body) := by
  unfold issue
  split
  · trivial
  · next c _ =>
    split
    · exact takeTrap_canonical h
    · refine finish_canonical h (resultCanonical_ite h (resultCanonical_ite (canonical_ite h h) ?_))
      exact resultCanonical_ite (killPoison_canonical h) (resultCanonical_ite trivial (hb c))

theorem goOn_canonical (h : Canonical s) : Canonical (goOn s gid) := by
  unfold goOn
  split
  · exact h
  · split
    · exact h
    · exact canonical_ite h (advance_canonical h)

theorem trapHeld_canonical {t : TrapInfo} (h : Canonical s) : Canonical (trapHeld s gid t) := by
  unfold trapHeld
  split
  · exact takeTrap_canonical h
  · exact h

theorem badWord_canonical {e : DecodeError} (h : Canonical s) : Canonical (badWord e s) := by
  unfold badWord
  split
  · exact h
  · split <;> exact takeTrap_canonical h

theorem issueLast_canonical {uses : Uses} {body : Gang → Result} (h : Canonical s) (hb : ∀ c, ResultCanonical (body c)) :
    NextCanonical (issueLast i s uses body) :=
  issue_canonical h fun c => resultCanonical_ite (hb c) trivial

/-! ### Operands (`Machine/Operands.lean`) -/

theorem spend_canonical {n : Nat} (h : Canonical s) : Canonical (spend s n) := h

/-! ### Delivery of results and flag cards (`Machine/Flags.lean`) -/

theorem storeRange_canonical {a : Attr} {exact : B16} {bytes : List Byte} (h : Canonical s) : Canonical (storeRange s core gid a exact pa bytes) :=
  foldl_canonical (fun _ _ => l1Store_canonical) h

theorem writeCard_canonical {words : List W64} (h : Canonical s) : Canonical (writeCard s gid words) := by
  unfold writeCard
  split
  · exact h
  · dsimp only
    split
    · exact h
    · split
      · next hq =>
        have hs := fst_canonical hq (translate_canonical h)
        exact canonical_ite (storeRange_canonical hs) (writeMem_canonical hs fun hm => Laws.writeN_wf _ _ _ _ hm)
      · next hq =>
        have hs := fst_canonical hq (translate_canonical h)
        exact writeMem_canonical hs fun hm => Laws.writeN_wf _ _ _ _ hm

theorem deliver_canonical {tested wide : Bool} {w : Nat} {d : Dst} {out : Nat → LaneOut} (h : Canonical s) :
    ResultCanonical (Gang.deliver c s tested wide w d lanes out) := by
  unfold Gang.deliver
  split
  · trivial
  · split
    · exact writeCard_canonical h
    · exact h

theorem launch_canonical {p : Pending} {writes hold : Bool} (h : Canonical s) : ResultCanonical (Gang.launch c s g p writes hold) := by
  have hgo (f : Option (Fin 12)) : ResultCanonical (Gang.launch.go c s g p hold f) := resultCanonical_ite h h
  unfold Gang.launch
  dsimp only
  split
  · exact resultCanonical_ite h (hgo _)
  · exact hgo _

/-! ### Integer instructions (`Machine/Integer.lean`) -/

theorem elemOp_canonical {accepts : Ty → Bool} {d : Dst} {a b : Src} {readsD : Bool} {w64 : Nat} {f : Ty → Bool → Nat → Nat → Nat → Nat}
    (h : Canonical s) : NextCanonical (elemOp i accepts d a b readsD w64 f s) := by
  refine issue_canonical h fun _ => ?_
  split
  · exact badMode_canonical
  · exact resultCanonical_ite badMode_canonical h

theorem execIcmp_canonical {p : PReg} {cond : BitVec 5} {a b : Src} (h : Canonical s) : NextCanonical (execIcmp p cond a b s) := by
  refine issue_canonical h fun _ => ?_
  split
  · exact badMode_canonical
  · exact resultCanonical_ite badMode_canonical h

theorem execSel_canonical {d : Dst} {a b : Src} (h : Canonical s) : NextCanonical (execSel d a b s) := by
  refine issue_canonical h fun _ => ?_
  split
  · exact badMode_canonical
  · exact h

theorem execMov_canonical {d : Dst} {a : Src} (h : Canonical s) : NextCanonical (execMov d a s) := by
  refine issue_canonical h fun _ => ?_
  split
  · exact badMode_canonical
  · exact h

theorem execLea64_canonical {d : Dst} {a b : Src} (h : Canonical s) : NextCanonical (execLea64 d a b s) := by
  refine issue_canonical h fun _ => ?_
  split
  · exact badMode_canonical
  · exact h

/-! ### Floating point instructions (`Machine/Float.lean`) -/

theorem deliverF_canonical {tested wide : Bool} {d : Dst} {out : Nat → LaneOut} (h : Canonical s) :
    ResultCanonical (Gang.deliverF c s tested wide d out) :=
  deliver_canonical h

theorem floatArith_canonical {d : Dst} {a b : Src} {z : Option Src} {m : Option Cxp} {tiered : Bool}
    {op : Fmt → Nat → Nat → FArg → FArg → FArg → FCalc} (h : Canonical s) : NextCanonical (floatArith i d a b z m tiered op s) := by
  refine issue_canonical h fun _ => ?_
  split
  · exact badMode_canonical
  · exact deliverF_canonical h

theorem execFfma_canonical {d : Dst} {a b : Src} {m : Option Cxp} (h : Canonical s) : NextCanonical (execFfma d a b m s) := by
  unfold execFfma
  split
  · exact issue_canonical h fun _ => illegal_canonical
  · exact floatArith_canonical h

theorem floatPure_canonical {d : Dst} {a b : Src} {m : Option Cxp} {f : Fmt → FArg → FArg → ElemOut} (h : Canonical s) :
    NextCanonical (floatPure i d a b m f s) := by
  refine issue_canonical h fun _ => ?_
  split
  · exact badMode_canonical
  · exact deliverF_canonical h

theorem execFcmp_canonical {p : PReg} {cond : BitVec 5} {a b : Src} {m : Option Cxp} (h : Canonical s) : NextCanonical (execFcmp p cond a b m s) := by
  refine issue_canonical h fun _ => ?_
  split
  · exact badMode_canonical
  · exact resultCanonical_ite trivial h

theorem execFclass_canonical {d : Dst} {a : Src} {mask : BitVec 8} (h : Canonical s) : NextCanonical (execFclass d a mask s) := by
  refine issue_canonical h fun _ => ?_
  split
  · exact badMode_canonical
  · exact h

theorem execFrnd_canonical {d : Dst} {a : Src} (h : Canonical s) : NextCanonical (execFrnd d a s) := by
  refine issue_canonical h fun _ => ?_
  split
  · exact badMode_canonical
  · exact resultCanonical_ite badMode_canonical (deliverF_canonical h)

theorem execFscale_canonical {d : Dst} {a b : Src} (h : Canonical s) : NextCanonical (execFscale d a b s) := by
  refine issue_canonical h fun _ => ?_
  split
  · exact badMode_canonical
  · exact deliverF_canonical h

theorem dotOp_canonical {d : Dst} {a b : Src} {m : Option Cxp} {ok : Fmt → Bool} (h : Canonical s) : NextCanonical (dotOp i d a b m ok s) := by
  refine issue_canonical h fun _ => ?_
  split
  · exact badMode_canonical
  · exact deliverF_canonical h

theorem execFcpys_canonical {d : Dst} {a b : Src} (h : Canonical s) : NextCanonical (execFcpys d a b s) := by
  refine issue_canonical h fun _ => ?_
  split
  · exact badMode_canonical
  · exact deliverF_canonical h

/-! ### Conversions (`Machine/Convert.lean`) -/

theorem deliverConv_canonical {long wide discard : Bool} {outs : List (Dst × (Nat → LaneOut))} (h : Canonical s) :
    ResultCanonical (Gang.deliverConv c s long wide discard outs) := by
  refine resultCanonical_ite (launch_canonical h) ?_
  split
  · trivial
  · split
    · exact writeCard_canonical h
    · exact h

theorem execCvt_canonical {d : Dst} {a : Src} {part : BitVec 3} {src : BitVec 5} (h : Canonical s) : NextCanonical (execCvt d a part src s) := by
  refine issue_canonical h fun _ => ?_
  split
  · exact badMode_canonical
  · refine resultCanonical_ite badMode_canonical ?_
    exact resultCanonical_ite illegal_canonical (resultCanonical_ite illegal_canonical (deliverConv_canonical h))

theorem execPack_canonical {d : Dst} {a : VFirst} (h : Canonical s) : NextCanonical (execPack d a s) := by
  refine issue_canonical h fun _ => ?_
  split
  · exact badMode_canonical
  · exact resultCanonical_ite badMode_canonical (deliverConv_canonical h)

theorem execUnpk_canonical {d : VFirst} {a : Src} {count first : BitVec 3} (h : Canonical s) : NextCanonical (execUnpk d a count first s) := by
  refine issue_canonical h fun _ => ?_
  split
  · exact badMode_canonical
  · exact resultCanonical_ite badMode_canonical (resultCanonical_ite illegal_canonical (deliverConv_canonical h))

theorem execQblk_canonical {d : Dst} {a : VFirst} {fit b16 : Bool} (h : Canonical s) : NextCanonical (execQblk d a fit b16 s) := by
  refine issue_canonical h fun _ => ?_
  split
  · exact badMode_canonical
  · exact resultCanonical_ite illegal_canonical (resultCanonical_ite h (launch_canonical h))

theorem execQapply_canonical {d : Dst} {a : VFirst} {b : Src} (h : Canonical s) : NextCanonical (execQapply d a b s) := by
  refine issue_canonical h fun _ => ?_
  split
  · exact badMode_canonical
  · exact deliverConv_canonical h

theorem execDq_canonical {d : VFirst} {a b : Src} (h : Canonical s) : NextCanonical (execDq d a b s) := by
  refine issue_canonical h fun _ => ?_
  split
  · exact badMode_canonical
  · exact deliverConv_canonical h

/-! ### Tiles and late effects (`Machine/TileOps.lean`) -/

theorem setTile_canonical {team : Nat} {x : TileNo} {t : Tile} (h : Canonical s) : Canonical (State.setTile s team x t) := h

theorem lateIn_canonical {seq : Nat} (h : Canonical s) : Canonical (lateIn s gid seq) := by
  unfold lateIn
  split
  · exact h
  · exact canonical_ite h h

theorem lateOut_canonical {s0 : State} {seq : Nat} (h : Canonical s) : Canonical (lateOut s0 s gid seq) := by
  unfold lateOut
  split
  · exact h
  · exact canonical_ite h h

theorem underLate_canonical {seq : Nat} {f : State → State} (h : Canonical s) (hf : ∀ s, Canonical s → Canonical (f s)) :
    Canonical (underLate s gid seq f) :=
  lateOut_canonical (hf _ (lateIn_canonical h))

/-! ### Performing accesses (`Machine/MemAcc.lean`) -/

theorem wakeContext_canonical (h : Canonical s) : Canonical (wakeContext s asid) := h

theorem wakeGroups_canonical {p : Group → WaitA → Bool} (h : Canonical s) : Canonical (wakeGroups s p) :=
  foldl_canonical (fun _ _ hs => hs) (foldl_canonical (fun _ _ => wakeContext_canonical) h)

theorem wakeSector_canonical (h : Canonical s) : Canonical (wakeSector s sec) := wakeGroups_canonical h

theorem wakeTile_canonical {team : Nat} {x : TileNo} {word : Nat} (h : Canonical s) : Canonical (wakeTile s team x word) := wakeGroups_canonical h

theorem locate_canonical {a : Access} {p : Spot} (h : Canonical s) : Canonical (locate s core kid a p).1 := by
  unfold locate
  split
  · exact fst_canonical_ite h (translate_canonical h)
  · split
    · exact translateRecord_canonical h
    · exact h

theorem locateAll_canonical {a : Access} {x : List Spot} (h : Canonical s) : Canonical (locateAll s core kid a x).1 := by
  induction x generalizing s with
  | nil => exact h
  | cons p t ih => exact ih (locate_canonical h)

theorem sampleAccess_canonical {kind : Nat} {a : Attr} (h : Canonical s) : Canonical (sampleAccess s core part asid va kind a) := canonical_ite h h

theorem sampleAll_canonical {kind : Nat} {l : List (Spot × Attr × Nat)} (h : Canonical s) : Canonical (sampleAll s core part asid kind l) :=
  foldl_canonical (fun _ _ => sampleAccess_canonical) h

theorem countMiss_canonical {a : Attr} (h : Canonical s) : Canonical (countMiss s core vf a pa) := canonical_ite h h

theorem readSpot_canonical {noalloc : Bool} {declared : B16} {p : Spot} {a : Attr} (h : Canonical s) :
    Canonical (readSpot s core vf noalloc declared p a pa).1 :=
  fst_canonical_ite h (l1Read_canonical (countMiss_canonical h))

theorem writeSector_canonical {score : Bool} {way : StoreWay} {ws : List ElemWrite} (h : Canonical s) :
    Canonical (writeSector s core gid score way sec ws) := by
  unfold writeSector
  split
  · exact h
  · refine canonical_ite (canonical_ite ?_ ?_) (l1Store_canonical (canonical_ite (l1Fill_canonical h) h))
    · exact wakeSector_canonical (throughStore_canonical (canonical_ite (l1Fill_canonical h) h))
    · exact throughStore_canonical (canonical_ite (l1Fill_canonical h) h)

theorem writeElems_canonical {score : Bool} {way : StoreWay} {ws : List ElemWrite} (h : Canonical s) : Canonical (writeElems s core gid score way ws) :=
  foldl_canonical (fun _ _ => writeSector_canonical) (canonical_ite h h)

theorem toHome_canonical {a : Attr} (h : Canonical s) : Canonical (toHome s core a pa) := passL1_canonical (l1Flush_canonical h)

theorem homeWrite_canonical {a : Attr} {n v : Nat} {b : B16} {signal : Bool} (h : Canonical s) : Canonical (homeWrite s core gid a pa n v b signal) :=
  canonical_ite (wakeSector_canonical (hubWrite_canonical h)) (hubWrite_canonical h)

theorem drainEntry_canonical {e : RedEntry} (h : Canonical s) : Canonical (drainEntry s gid e) := by
  unfold drainEntry
  split
  · exact h
  · split
    · exact homeWrite_canonical (toHome_canonical h)
    · split
      · exact h
      · exact canonical_ite (wakeTile_canonical (setTile_canonical h)) (setTile_canonical h)

theorem drainWhere_canonical {p : RedEntry → Bool} (h : Canonical s) : Canonical (drainWhere s gid p) := by
  unfold drainWhere
  split
  · exact h
  · exact foldl_canonical (fun _ _ => drainEntry_canonical) h

theorem drainTargets_canonical {l : List (Nat × Nat)} (h : Canonical s) : Canonical (drainTargets s gid l) := drainWhere_canonical h

theorem drainTileTargets_canonical {x : TileNo} {l : List Nat} (h : Canonical s) : Canonical (drainTileTargets s gid x l) := drainWhere_canonical h

theorem perfNothing_canonical (h : Canonical s) : Canonical (Perf.nothing s).s := h

/-- A read of an element that may have no place. -/
theorem readPlaced_canonical {x : Option (Spot × Attr × Nat)} {noalloc : Bool} {declared : B16} (h : Canonical s) :
    Canonical (match x with
      | some (p, a, pa) => ((readSpot s core vf noalloc declared p a pa).1, some (readSpot s core vf noalloc declared p a pa).2)
      | none => (s, none)).1 := by
  split
  · exact readSpot_canonical h
  · exact h

theorem performLoad_canonical {a : Access} {l : List (Spot × Found)} (h : Canonical s) : Canonical (performLoad s gid g a lanes l).s := by
  refine canonical_ite (killPoison_canonical (canonical_ite (sampleAll_canonical ?_) (sawSectors_canonical (sampleAll_canonical ?_))))
    (canonical_ite (sampleAll_canonical ?_) (sawSectors_canonical (sampleAll_canonical ?_)))
  all_goals
    refine foldl_fst_canonical (fun p lane hp => ?_) h
    dsimp only
    split
    · refine foldl_fst_canonical (fun q j hq => ?_) hp
      split <;> exact fst_canonical_ite (readPlaced_canonical hq) (readPlaced_canonical (readPlaced_canonical hq))
    · split <;> exact readPlaced_canonical hp

theorem storeElems_canonical {a : Access} {l : List (Spot × Found)} (h : Canonical s) : Canonical (storeElems s g a lanes l).1 := by
  refine foldl_fst_canonical (fun p lane hp => ?_) h
  dsimp only
  split
  · refine foldl_fst_canonical (fun p j hp => ?_) hp
    split
    · exact hp
    · split
      · exact readSpot_canonical hp
      · exact hp
  · split <;> exact hp

theorem performStore_canonical {a : Access} {l : List (Spot × Found)} (h : Canonical s) : Canonical (performStore s gid g a lanes l).s :=
  have hs : Canonical (storeElems s g a lanes l).1 := storeElems_canonical h
  perf_canonical_ite (killPoison_canonical hs) (sampleAll_canonical (sampleAll_canonical (writeElems_canonical (drainTargets_canonical hs))))

theorem raiseSem_canonical {score : Bool} {a : Attr} {v : Nat} {β : B16} (h : Canonical s) : Canonical (raiseSem s core gid score a pa v β) :=
  canonical_ite (homeWrite_canonical (toHome_canonical h)) (toHome_canonical h)

theorem performSem_canonical {a : Access} {l : List (Spot × Found)} (h : Canonical s) : Canonical (performSem s gid g a l).s := by
  unfold performSem
  split
  · refine perf_canonical_ite (killPoison_canonical (l1Flush_canonical h)) ?_
    exact sampleAccess_canonical (raiseSem_canonical (drainTargets_canonical (l1Flush_canonical h)))
  · exact h

theorem lowerLine_canonical (h : Canonical s) : Canonical (lowerLine s core line) := h

theorem performCctl_canonical {op : Nat} {l : List (Spot × Found)} (h : Canonical s) : Canonical (performCctl s g op lanes l).s := by
  refine perfNothing_canonical ?_
  split
  · exact foldl_canonical (fun _ _ => l1WriteBack_canonical) h
  · exact foldl_canonical (fun _ _ => l1Flush_canonical) h
  · exact foldl_canonical (fun _ _ => hubClean_canonical) (foldl_canonical (fun _ _ => l1Flush_canonical) h)
  · exact foldl_canonical (fun _ _ => lowerLine_canonical) h

theorem contribute_canonical {new : RedEntry} (h : Canonical s) : Canonical (contribute s gid new).1 := by
  unfold contribute
  split
  · exact h
  · split
    · exact fst_canonical_ite h (modGroup_canonical (drainWhere_canonical h))
    · refine modGroup_canonical (canonical_ite ?_ h)
      split
      · exact drainWhere_canonical h
      · exact h

theorem performReduce_canonical {op : RedKind} {a : Access} {l : List (Spot × Found)} (h : Canonical s) :
    Canonical (performReduce s gid g op a lanes l).s := by
  unfold performReduce
  split <;> exact perfNothing_canonical (sampleAll_canonical (foldl_fst_canonical (fun _ _ hs => contribute_canonical hs) h))

theorem performAccess_canonical {a : Access} (h : Canonical s) : Canonical (performAccess s gid a).s := by
  unfold performAccess
  split
  · exact h
  · next g _ =>
    have hl : Canonical (locateAll s g.core g.kernel a a.spots).1 := locateAll_canonical h
    dsimp only
    split
    · exact hl
    · cases a.op with
      | ld | ldg | sld => exact performLoad_canonical hl
      | st | stg | sst => exact performStore_canonical hl
      | semsig => exact performSem_canonical hl
      | cctl => exact performCctl_canonical hl
      | reduce => exact performReduce_canonical hl
      | _ => exact hl

theorem parkGang_canonical {a : Access} {cause : ParkCause} {step : Option Nat} {run : Option Run} {faults : List Spot} (h : Canonical s) :
    Canonical (parkGang s gid a cause step run faults) :=
  canonical_ite (raiseEntry_canonical h) h

/-! ### Atomic lanes (`Machine/AtomicOps.lean`) -/

theorem atomicMem_canonical {a : Access} {op : AtomicKind} {lane : Nat} {at_ : Attr} (h : Canonical s) :
    Canonical (atomicMem s gid g a op lane at_ pa).1 := by
  unfold atomicMem
  dsimp only
  split
  · exact sawSectors_canonical (sampleAccess_canonical (canonical_ite (toHome_canonical h) (homeWrite_canonical (toHome_canonical h))))
  · exact sampleAccess_canonical (canonical_ite (toHome_canonical h) (homeWrite_canonical (toHome_canonical h)))

theorem atomicTile_canonical {a : Access} {op : AtomicKind} {lane : Nat} {x : TileNo} {idx : Nat} (h : Canonical s) :
    Canonical (atomicTile s g a op lane x idx).1 := by
  unfold atomicTile
  split
  · exact h
  · exact canonical_ite h (setTile_canonical h)

theorem atomicLane_canonical {st : CStep} (h : Canonical s) : Canonical (atomicLane s gid st).1 := by
  have hs {g a op lane x idx} : Canonical (lateOut s (atomicTile (lateIn s gid st.id) g a op lane x idx).1 gid st.id) :=
    lateOut_canonical (atomicTile_canonical (lateIn_canonical h))
  unfold atomicLane
  split
  · split
    · dsimp only
      split
      · exact canonical_ite (killPoison_canonical hs) hs
      · exact canonical_ite (killPoison_canonical (atomicMem_canonical h)) (atomicMem_canonical h)
    · exact h
  · exact h

theorem atomicLanes_canonical {x : Nat} {x' : CStep} (h : Canonical s) : Canonical (atomicLanes s gid x x').1 := by
  induction x generalizing s x' with
  | zero => exact h
  | succ n ih => exact fst_canonical_ite h (ih (atomicLane_canonical h))

theorem setLdStep_canonical {st : CStep} (h : Canonical s) : Canonical (setLdStep s gid st) := h

theorem flushAtomics_canonical (h : Canonical s) : Canonical (flushAtomics s gid) := by
  unfold flushAtomics
  split
  · exact h
  · exact foldl_canonical (fun _ _ hs => setLdStep_canonical (atomicLanes_canonical (x := 33) hs)) h

theorem settleAtomics_canonical {l : List (Nat × Nat)} (h : Canonical s) : Canonical (settleAtomics s gid l) := by
  unfold settleAtomics
  split
  · exact h
  · exact canonical_ite (flushAtomics_canonical h) h

theorem settleTile_canonical {x : TileNo} (h : Canonical s) : Canonical (settleTile s gid x) := by
  unfold settleTile
  split
  · exact h
  · exact canonical_ite (flushAtomics_canonical h) h

/-! ### Memory instructions (`Machine/Memory.lean`) -/

theorem memIssue_canonical {a : Access} {load : Bool} (h : Canonical s) : ResultCanonical (Gang.memIssue c s a load) := by
  refine resultCanonical_ite h (resultCanonical_ite h ?_)
  dsimp only
  split
  · trivial
  · refine resultCanonical_ite (parkGang_canonical h) ?_
    have hs {l b} : Canonical (performAccess (settleAtomics s c.gid l) c.gid b).s := performAccess_canonical (settleAtomics_canonical h)
    split
    · trivial
    · exact resultCanonical_ite hs (resultCanonical_ite (drainTargets_canonical hs) (parkGang_canonical (drainTargets_canonical hs)))

theorem tileRead_canonical {x : TileNo} {d : Dst} {at_ : Tile → Nat → List (Nat × Nat)} (h : Canonical s) :
    ResultCanonical (Gang.tileRead c s x lanes d at_) := by
  unfold Gang.tileRead
  dsimp only
  split
  · exact badMode_canonical
  · refine resultCanonical_ite h (resultCanonical_ite badMode_canonical ?_)
    split
    · trivial
    · split
      · exact settleTile_canonical h
      · exact resultCanonical_ite (killPoison_canonical (settleTile_canonical h)) (settleTile_canonical h)

theorem tileWrite_canonical {x : TileNo} {data : Src} {signal : Bool} {at_ : Tile → Nat → List (Nat × Nat)} (h : Canonical s) :
    ResultCanonical (Gang.tileWrite c s x lanes data signal at_) := by
  unfold Gang.tileWrite
  split
  · exact badMode_canonical
  · refine resultCanonical_ite h (resultCanonical_ite badMode_canonical ?_)
    split
    · trivial
    · refine canonical_ite (foldl_canonical (fun _ _ => wakeTile_canonical) ?_) ?_
      all_goals
        split
        · exact drainTileTargets_canonical (settleTile_canonical h)
        · exact setTile_canonical (drainTileTargets_canonical (settleTile_canonical h))

theorem execLd_canonical {d : Dst} (h : Canonical s) : NextCanonical (execLd d o rt s) := by
  refine issue_canonical h fun _ => ?_
  split
  · exact badMode_canonical
  · split
    · exact tileRead_canonical h
    · exact resultCanonical_ite badMode_canonical (memIssue_canonical h)

theorem storeOp_canonical {signal : Bool} {data : Src} (h : Canonical s) : NextCanonical (storeOp i signal data o rt s) := by
  refine issue_canonical h fun _ => ?_
  split
  · exact badMode_canonical
  · split
    · exact tileWrite_canonical h
    · exact resultCanonical_ite badMode_canonical (memIssue_canonical h)

theorem execStg_canonical {data a : Src} (h : Canonical s) : NextCanonical (execStg data a s) := by
  refine issue_canonical h fun _ => ?_
  split
  · exact badMode_canonical
  · exact memIssue_canonical h

theorem execSld_canonical {d : UReg} {r : RecNo} (h : Canonical s) : NextCanonical (execSld d o r s) := by
  refine issue_canonical h fun c => ?_
  dsimp only
  split
  · trivial
  · refine resultCanonical_ite h (resultCanonical_ite (parkGang_canonical h) ?_)
    have hs {l b} : Canonical (performAccess (settleAtomics s c.gid l) c.gid b).s := performAccess_canonical (settleAtomics_canonical h)
    split
    · trivial
    · exact resultCanonical_ite hs (resultCanonical_ite (parkGang_canonical hs) (launch_canonical hs))

theorem execPref_canonical {hub : Bool} {r : RecNo} (h : Canonical s) : NextCanonical (execPref hub o r s) := by
  refine issue_canonical h fun c => foldl_canonical (fun s x hs => ?_) (locateAll_canonical h)
  dsimp only
  split
  · exact foldl_canonical (fun s sec hs => canonical_ite (passL1_canonical hs) (l1Fill_canonical hs)) hs
  all_goals exact hs

theorem execCctl_canonical {op : BitVec 2} {r : RecNo} (h : Canonical s) : NextCanonical (execCctl op o r s) := by
  refine issue_canonical h fun _ => ?_
  split
  · exact badMode_canonical
  · exact resultCanonical_ite badMode_canonical (memIssue_canonical h)

/-! ### Uniform instructions (`Machine/Uniform.lean`) -/

theorem uniOp_canonical {d a b : UReg} {f : W64 → W64 → W64} (h : Canonical s) : NextCanonical (uniOp i d a b f s) := issue_canonical h fun _ => h

theorem execVtos_canonical {d : UReg} {a : Src} {lane : BitVec 8} (h : Canonical s) : NextCanonical (execVtos d a lane s) := by
  refine issue_canonical h fun _ => ?_
  split
  · exact badMode_canonical
  · refine resultCanonical_ite illegal_canonical ?_
    split <;> exact h

theorem execSrdsr_canonical {d : UReg} {number : BitVec 16} (h : Canonical s) : NextCanonical (execSrdsr d number s) := by
  refine issue_canonical h fun _ => ?_
  split
  · exact illegal_canonical
  · exact h

theorem execSwrsr_canonical {a : UReg} {number : BitVec 16} (h : Canonical s) : NextCanonical (execSwrsr a number s) := by
  refine issue_canonical h fun _ => ?_
  split
  · exact illegal_canonical
  · exact resultCanonical_ite h trivial

/-! ### Tile instructions (`Machine/Tiles.lean`) -/

theorem execTalloc_canonical {x : TileNo} {a : UReg} (h : Canonical s) : NextCanonical (execTalloc x a s) := by
  refine issue_canonical h fun _ => resultCanonical_ite trivial ?_
  dsimp only
  split
  · exact resultCanonical_ite h trivial
  · exact setTile_canonical h

theorem freeTile_canonical {team : Nat} {x : TileNo} (h : Canonical s) : Canonical (freeTile s team x) :=
  foldl_canonical (fun _ _ => drainWhere_canonical) h

theorem execTfree_canonical {x : TileNo} (h : Canonical s) : NextCanonical (execTfree x s) := by
  refine issue_canonical h fun _ => ?_
  split
  · trivial
  · exact resultCanonical_ite h (freeTile_canonical h)

theorem execTldt_canonical {d : VFirst} {x : TileNo} (h : Canonical s) : NextCanonical (execTldt d o x s) := by
  refine issue_canonical h fun _ => resultCanonical_ite illegal_canonical ?_
  dsimp only
  split
  · exact badMode_canonical
  · refine resultCanonical_ite badMode_canonical (resultCanonical_ite illegal_canonical ?_)
    refine resultCanonical_ite h (resultCanonical_ite h (resultCanonical_ite badMode_canonical ?_))
    split
    · trivial
    · split
      · exact settleTile_canonical h
      · exact resultCanonical_ite (killPoison_canonical (settleTile_canonical h)) (settleTile_canonical h)

theorem execTfill_canonical {data : Src} {x : TileNo} (h : Canonical s) : NextCanonical (execTfill data o x s) := by
  refine issue_canonical h fun _ => ?_
  split
  · exact badMode_canonical
  · refine resultCanonical_ite h (resultCanonical_ite badMode_canonical ?_)
    split
    · trivial
    · exact h
    · refine resultCanonical_ite trivial (modGroup_canonical ?_)
      split
      · exact drainTileTargets_canonical (settleTile_canonical h)
      · exact setTile_canonical (drainTileTargets_canonical (settleTile_canonical h))

/-! ### Atomics and reductions (`Machine/Atomics.lean`) -/

theorem atomicIssue_canonical {t : Ty} {op : AccessOp} {data : List VLine} {dst : Option VReg} {load : Bool}
    {tile : State → Access → TileNo → (Nat → Nat) → Result} (h : Canonical s)
    (hb : ∀ s a x f, Canonical s → ResultCanonical (tile s a x f)) : ResultCanonical (Gang.atomicIssue c s t op o rt data dst load tile) := by
  refine resultCanonical_ite h ?_
  cases rt with
  | record r => exact resultCanonical_ite trivial (resultCanonical_ite trivial (memIssue_canonical (spend_canonical h)))
  | tile t =>
    refine resultCanonical_ite trivial (resultCanonical_ite h ?_)
    split
    · trivial
    · exact hb _ _ _ _ (spend_canonical h)

theorem atomicOp_canonical {op : AtomicKind} {uses : Uses} {dst : Option VReg} {data : Gang → Ty → List VLine} (h : Canonical s) :
    NextCanonical (atomicOp i op uses dst o rt data s) := by
  refine issue_canonical h fun _ => ?_
  split
  · exact badMode_canonical
  · exact resultCanonical_ite badMode_canonical (atomicIssue_canonical h (fun _ _ _ _ hs => drainTileTargets_canonical hs))

theorem atomicOne_canonical {op : AtomicKind} {d : Dst} (h : Canonical s) : NextCanonical (atomicOne i op d o rt s) := atomicOp_canonical h

theorem atomicTwo_canonical {op : AtomicKind} {d : VFirst} (h : Canonical s) : NextCanonical (atomicTwo i op d o rt s) := atomicOp_canonical h

theorem execAtomicLanePerform_canonical (h : Canonical s) : NextCanonical (execAtomicLanePerform gid s) := by
  refine tick_canonical ?_
  split
  · split
    · exact setLdStep_canonical (atomicLane_canonical h)
    · exact h
  · exact h

theorem reduceOp_canonical {op : RedKind} {data : Src} (h : Canonical s) : NextCanonical (reduceOp i op data o rt s) := by
  refine issue_canonical h fun _ => ?_
  split
  · exact badMode_canonical
  · refine resultCanonical_ite badMode_canonical ?_
    exact atomicIssue_canonical h fun _ _ _ _ hs => modGroup_canonical (foldl_fst_canonical (fun _ _ => contribute_canonical) (settleTile_canonical hs))

/-! ### Bounds (`Machine/Bounds.lean`) -/

theorem boundMove_canonical {d : Dst} {a b : Src} {f : Bool → Nat → B16 → Nat → Nat × B16} (h : Canonical s) :
    NextCanonical (boundMove i d a b f s) := by
  refine issue_canonical h fun _ => ?_
  split
  · exact badMode_canonical
  · exact h

theorem execBclr_canonical {d : Dst} {a : Src} (h : Canonical s) : NextCanonical (execBclr d a s) := by
  refine issue_canonical h fun _ => ?_
  split
  · exact badMode_canonical
  · exact h

theorem execBmaxr_canonical {d : UReg} {a : Src} (h : Canonical s) : NextCanonical (execBmaxr d a s) := by
  refine issue_canonical h fun _ => ?_
  split
  · exact badMode_canonical
  · exact resultCanonical_ite h h

theorem execSetb_canonical {src : SetbSrc} (h : Canonical s) : NextCanonical (execSetb src s) := by
  refine issue_canonical h fun _ => ?_
  split
  · exact badMode_canonical
  · exact h

theorem execBchk_canonical {p : PReg} {a : Src} (h : Canonical s) : NextCanonical (execBchk p a s) := by
  refine issue_canonical h fun _ => ?_
  dsimp only
  split
  · exact badMode_canonical
  · split
    · trivial
    · exact writeCard_canonical h
    · exact h

/-! ### Control flow (`Machine/Control.lean`) -/

theorem control_canonical {taken : Bool} {r : Except TrapInfo (Group × BitVec 8)} (h : Canonical s) : ResultCanonical (Gang.control c s taken r) := by
  unfold Gang.control
  split
  · trivial
  · exact h

theorem execExit_canonical (h : Canonical s) : NextCanonical (execExit s) := by
  refine issue_canonical h fun _ => ?_
  split
  · trivial
  · exact resultCanonical_ite (resultCanonical_ite h (resultCanonical_ite h (settleBarriers_canonical h))) h

/-! ### Acquires, releases and durable writes (`Machine/Release.lean`) -/

theorem acquire_canonical {scope : Scope} (h : Canonical s) : Canonical (acquire s gid scope) := by
  unfold acquire
  split
  · exact h
  · exact canonical_ite (l1MarkStale_canonical (acquiredBy_canonical h)) (acquiredBy_canonical h)

theorem writeRevoked_canonical {score : Bool} {e : L1Sector} (h : Canonical s) : Canonical (writeRevoked s core score e).1 := by
  unfold writeRevoked
  split
  · next hq =>
    have hs := fst_canonical hq (translate_canonical h)
    exact fst_canonical_ite (l1Drop_canonical (hubWrite_canonical hs)) hs
  all_goals next hq => exact fst_canonical hq (translate_canonical h)

theorem writeBackFor_canonical {score : Bool} {p : L1Sector → Bool} (h : Canonical s) : Canonical (writeBackFor s core score p).1 := by
  refine foldl_fst_canonical (fun _ _ hs => ?_) h
  refine fst_canonical_ite ?_ (l1WriteBack_canonical hs)
  split
  next hq => exact fst_canonical hq (writeRevoked_canonical hs)

theorem sendMarkers_canonical {dest : Nat} (h : Canonical s) : Canonical (sendMarkers s dest) := h

theorem markPeers_canonical (h : Canonical s) : Canonical (markPeers s).1 :=
  foldl_fst_canonical (fun _ _ => sendMarkers_canonical) h

theorem releaseWork_canonical {scope : Scope} {upto : Nat} (h : Canonical s) : Canonical (releaseWork s gid scope upto).state := by
  unfold releaseWork
  split
  · exact h
  · refine canonical_ite_state Released.state h (canonical_ite_state Released.state ?_ (canonical_ite_state Released.state ?_ (fst_canonical_ite
      (markPeers_canonical (releasedBy_canonical (canonical_ite (modGroup_canonical ?_) ?_)))
      (releasedBy_canonical (canonical_ite (modGroup_canonical ?_) ?_)))))
    all_goals exact fst_canonical_ite (writeBackFor_canonical (canonical_ite (drainWhere_canonical h) h)) (canonical_ite (drainWhere_canonical h) h)

theorem pbarWork_canonical {cum : Bool} {upto : Nat} (h : Canonical s) : Canonical (pbarWork s gid cum upto).state := by
  unfold pbarWork
  split
  · exact h
  · refine canonical_ite_state Released.state h (canonical_ite_state Released.state (writeBackFor_canonical (drainWhere_canonical h)) ?_)
    exact writeBackFor_canonical (drainWhere_canonical h)

theorem faultRelease_canonical {secs : List L1Sector} (h : Canonical s) : Canonical (faultRelease s gid secs) := by
  unfold faultRelease
  split
  · exact h
  · split
    · exact h
    · exact raiseEntry_canonical h

theorem discardRefused_canonical {pc : Nat} (h : Canonical s) : Canonical (discardRefused s gid pc).1 := by
  unfold discardRefused
  split
  · exact h
  · exact errorRecord_canonical h

theorem startRelease_canonical {scope : Scope} {next : ReleaseThen} {pc : W64} {opcode : Nat} (h : Canonical s) :
    Canonical (startRelease s gid scope next pc opcode) := by
  unfold startRelease
  split
  · exact drainWhere_canonical h
  all_goals exact canonical_ite (drainWhere_canonical h) h

theorem execFence_canonical {kind : BitVec 2} {scope : Scope} (h : Canonical s) : NextCanonical (execFence kind scope s) := by
  refine issue_canonical h fun c => ?_
  have ha {c : Prop} [Decidable c] {gid} : Canonical (if c then acquire s gid scope else s) := canonical_ite (acquire_canonical h) h
  exact resultCanonical_ite h (resultCanonical_ite h (resultCanonical_ite ha
    (resultCanonical_ite (startRelease_canonical ha) (startRelease_canonical ha))))

theorem execPersistBufferAcceptance_canonical (h : Canonical s) : NextCanonical (execPersistBufferAcceptance s) := by
  unfold execPersistBufferAcceptance
  dsimp only
  split
  · refine canonical_ite h ?_
    split
    · split
      · exact pmcPart_canonical h
      · exact h
    · exact h
  · exact h

theorem drainWrite_canonical {w : DurWrite} (h : Canonical s) : Canonical (drainWrite s w) :=
  And.intro h.left (Laws.writePairs_wf _ _ _ h.right)

theorem execPersistBufferDrain_canonical (h : Canonical s) : NextCanonical (execPersistBufferDrain s) := by
  unfold execPersistBufferDrain
  split
  · exact drainWrite_canonical h
  · exact h

theorem execMarkerAcknowledgement_canonical {dest : Nat} (h : Canonical s) : NextCanonical (execMarkerAcknowledgement dest s) := by
  unfold execMarkerAcknowledgement
  split
  · exact h
  · exact canonical_ite h h

/-! ### The stream decoder (`Machine/StreamDecode.lean`) -/

theorem countStep_canonical (h : Canonical s) : Canonical (countStep s gid) := h

theorem decodeOp_canonical {kind : BitVec 2} {d : VFirst} {a : UReg} {x : TileNo} (h : Canonical s) : NextCanonical (decodeOp i kind d a x s) := by
  refine issue_canonical h fun _ => ?_
  dsimp only
  split
  · exact badMode_canonical
  · refine resultCanonical_ite badMode_canonical ?_
    split
    · trivial
    · trivial
    · split
      · trivial
      · exact resultCanonical_ite h (countStep_canonical h)

theorem execDecht_canonical {d : TileNo} {a : UReg} {t : TileNo} (h : Canonical s) : NextCanonical (execDecht d a t s) := by
  refine issue_canonical h fun _ => resultCanonical_ite h ?_
  split
  · refine resultCanonical_ite trivial (resultCanonical_ite trivial ?_)
    split
    · trivial
    · exact resultCanonical_ite h h
  · trivial

theorem tablePart_canonical {a : Access} (h : Canonical s) : Canonical (tablePart s g a).1 := by
  unfold tablePart
  split
  · exact h
  · have hl : Canonical (locateAll s g.core g.kernel a a.spots).1 := locateAll_canonical h
    dsimp only
    split
    · exact hl
    · refine fst_canonical_ite hl ?_
      split
      on_goal 1 => refine sampleAccess_canonical ?_
      all_goals
        refine foldl_fst_canonical (fun _ _ hs => ?_) hl
        split
        · exact readSpot_canonical hs
        all_goals exact hs

theorem readTable_canonical {a : Access} (h : Canonical s) : Canonical (readTable s gid a).1 := by
  unfold readTable
  split
  · split
    · next hq => exact fst_canonical hq (tablePart_canonical h)
    · next hq =>
      have hs := fst_canonical hq (tablePart_canonical h)
      split
      · exact hs
      · split <;> next hq2 => exact fst_canonical hq2 (tablePart_canonical hs)
  · exact h

theorem queueTable_canonical {a : Access} {x : TileNo} {b : List Byte} (h : Canonical s) : Canonical (queueTable s gid g a x b) := h

theorem execCtab_canonical {t : TileNo} {a : UReg} {r : RecNo} (h : Canonical s) : NextCanonical (execCtab t a r s) := by
  refine issue_canonical h fun _ => ?_
  dsimp only
  split
  · trivial
  · refine resultCanonical_ite trivial ?_
    split
    · trivial
    · refine resultCanonical_ite trivial (resultCanonical_ite (parkGang_canonical (countStep_canonical h)) ?_)
      split
      · trivial
      · next hq => exact killPoison_canonical (fst_canonical hq (readTable_canonical (settleAtomics_canonical h)))
      · next hq => exact parkGang_canonical (countStep_canonical (fst_canonical hq (readTable_canonical (settleAtomics_canonical h))))
      · next hq => exact queueTable_canonical (countStep_canonical (fst_canonical hq (readTable_canonical (settleAtomics_canonical h))))

theorem finishDecode_canonical {j : DecodeJob} (h : Canonical s) : Canonical (finishDecode s j) := by
  unfold finishDecode
  dsimp only
  split
  · exact h
  · split
    · refine canonical_ite (killPoison_canonical h) (canonical_ite (trapHeld_canonical h) ?_)
      split
      · exact trapHeld_canonical h
      · refine goOn_canonical ?_
        split
        · exact writeCard_canonical h
        · exact h
    · exact h

theorem decodeHead_canonical (h : Canonical s) : Canonical (decodeHead core s) := by
  unfold decodeHead
  dsimp only
  split
  · refine canonical_ite h ?_
    split
    · refine underLate_canonical h fun _ hs => ?_
      split
      · split
        · exact goOn_canonical (setTile_canonical hs)
        · exact goOn_canonical hs
      · exact hs
    · exact underLate_canonical h fun _ hs => finishDecode_canonical hs
  · exact h

theorem execDecodeUnitComplete_canonical (h : Canonical s) : NextCanonical (execDecodeUnitComplete core s) := decodeHead_canonical h

/-! ### Barriers, waits and monitors (`Machine/Sync.lean`) -/

theorem barrierLeave_canonical (h : Canonical s) : Canonical (barrierLeave s gid) := by
  unfold barrierLeave
  dsimp only
  split
  · exact h
  · split
    · split
      · exact canonical_ite (goOn_canonical (acquire_canonical (flushAtomics_canonical h))) h
      · exact h
    · exact h

theorem drainGroups_canonical {l : List Nat} (h : Canonical s) : Canonical (drainGroups s l) := foldl_canonical (fun _ _ => drainWhere_canonical) h

theorem execBarrierPhaseComplete_canonical {grid : Bool} {owner : Nat} {num : Fin 16} (h : Canonical s) :
    NextCanonical (execBarrierPhaseComplete grid owner num s) := by
  unfold execBarrierPhaseComplete
  dsimp only
  split
  · exact h
  · refine foldl_canonical (fun _ _ => barrierLeave_canonical) (foldl_canonical (fun _ _ hs => ?_) (setBarrier_canonical (drainGroups_canonical h)))
    split
    · exact canonical_ite (wakeContext_canonical hs) hs
    · exact hs

theorem arrive_canonical {grid : Bool} {cnt : Option Nat} {num : Nat} {wait : Option PReg} (h : Canonical s) :
    ResultCanonical (Gang.arrive c s grid cnt num wait) := by
  unfold Gang.arrive
  split
  · trivial
  · exact resultCanonical_ite trivial (resultCanonical_ite trivial (resultCanonical_ite trivial (resultCanonical_ite h (startRelease_canonical h))))

theorem arriveNow_canonical {i : Nat} {cnt : Option Nat} (h : Canonical s) : Canonical (arriveNow s gid i cnt) := by
  unfold arriveNow
  split
  · exact h
  · exact settleBarrier_canonical (setBarrier_canonical h)

theorem barWait_canonical {grid : Bool} {num : Nat} {pred : PReg} (h : Canonical s) : ResultCanonical (Gang.barWait c s grid num pred) := by
  unfold Gang.barWait
  split
  · trivial
  · exact resultCanonical_ite h (resultCanonical_ite (resultCanonical_ite (barrierLeave_canonical h) h) (setBarrier_canonical h))

theorem execBart_canonical {p : PReg} {grid : Bool} {num : Fin 16} (h : Canonical s) : NextCanonical (execBart p grid num s) := by
  refine issue_canonical h fun _ => ?_
  split
  · trivial
  · refine resultCanonical_ite trivial ?_
    split
    · exact resultCanonical_ite h (acquire_canonical h)
    · exact h

theorem readWait_canonical {w : WaitA} (h : Canonical s) : Canonical (readWait s gid g w).1 := by
  unfold readWait
  dsimp only
  split
  · have hs {l a pa} : Canonical (toHome (settleAtomics s gid l) g.core a pa) := toHome_canonical (settleAtomics_canonical h)
    exact canonical_ite (sawSectors_canonical hs) hs
  · split <;> exact settleTile_canonical h

theorem rereadWait_canonical (h : Canonical s) : Canonical (rereadWait s gid) := by
  unfold rereadWait
  split
  · exact h
  · next g _ =>
    have hr {w} : Canonical (readWait s gid g w).1 := readWait_canonical h
    split
    · exact canonical_ite (killPoison_canonical hr) (canonical_ite (goOn_canonical hr) hr)
    · exact h

theorem beginWait_canonical {d : UReg} {width : Nat} {target : WaitTarget} {page : Option Attr} {declared : B16} {slices : BitVec 8} (h : Canonical s) :
    Canonical (beginWait s gid d width target page declared slices) := by
  unfold beginWait
  split
  · exact h
  · exact rereadWait_canonical h

theorem waitAccess_canonical {a : Access} (h : Canonical s) : Canonical (waitAccess s gid a).1 := by
  unfold waitAccess
  split
  · dsimp only
    split
    · exact locateAll_canonical h
    · split
      · exact beginWait_canonical (locateAll_canonical h)
      · exact locateAll_canonical h
  · exact h

theorem execWaita_canonical {d : UReg} (h : Canonical s) : NextCanonical (execWaita d o rt s) := by
  refine issue_canonical h fun _ => ?_
  split
  · exact badMode_canonical
  · refine resultCanonical_ite badMode_canonical ?_
    split
    · refine resultCanonical_ite illegal_canonical ?_
      split
      · trivial
      · exact beginWait_canonical h
    · refine resultCanonical_ite badMode_canonical (resultCanonical_ite illegal_canonical (resultCanonical_ite trivial ?_))
      split
      · trivial
      · refine resultCanonical_ite (parkGang_canonical h) ?_
        split
        · next hq => exact fst_canonical hq (waitAccess_canonical h)
        · trivial
        · next hq => exact parkGang_canonical (fst_canonical hq (waitAccess_canonical h))
        · next hq => exact fst_canonical hq (waitAccess_canonical h)
        · next hq => exact fst_canonical hq (waitAccess_canonical h)

theorem execWaitaWake_canonical (h : Canonical s) : NextCanonical (execWaitaWake gid s) := by
  unfold execWaitaWake
  split
  · split
    · exact canonical_ite (rereadWait_canonical h) h
    · exact h
  · exact h

theorem execWaitaPoll_canonical (h : Canonical s) : NextCanonical (execWaitaPoll gid s) := by
  unfold execWaitaPoll
  split
  · split
    · exact canonical_ite (rereadWait_canonical h) h
    · exact h
  · exact h

theorem execWaitaDeadline_canonical (h : Canonical s) : NextCanonical (execWaitaDeadline gid s) := by
  unfold execWaitaDeadline
  split
  · split
    · split
      · exact canonical_ite (rereadWait_canonical h) h
      · exact h
    · exact h
  · exact h

theorem releaseNext_canonical {r : Release} (h : Canonical s) : Canonical (releaseNext s gid r) := by
  unfold releaseNext
  split
  · exact h
  · exact goOn_canonical (acquire_canonical h)
  · exact goOn_canonical h
  · exact h
  · split
    · exact arriveNow_canonical h
    · exact goOn_canonical (arriveNow_canonical h)

theorem execReleaseComplete_canonical (h : Canonical s) : NextCanonical (execReleaseComplete gid s) := by
  refine tick_canonical ?_
  split
  · exact h
  · split
    · exact h
    · next r _ =>
      have hw : Canonical (match r.next with
          | .pbar cum => pbarWork s gid cum r.upto
          | .fence _ | .arrive _ _ _ _ | .groupEnd => releaseWork s gid r.scope r.upto).state := by
        split
        · exact pbarWork_canonical h
        all_goals exact releaseWork_canonical h
      refine canonical_ite h (canonical_ite (canonical_ite h (releaseNext_canonical h)) ?_)
      dsimp only
      split
      · next hq => exact canonical_of_eq Released.state hq hw
      · next hq => exact faultRelease_canonical (canonical_of_eq Released.state hq hw)
      · next hq =>
        have hs := canonical_of_eq Released.state hq hw
        exact canonical_ite (releaseNext_canonical hs) hs

/-! ### The copy engine (`Machine/Copy.lean`) -/

theorem reachSpot_canonical {a : Access} {p : Spot} (h : Canonical s) : Canonical (reachSpot s g a p).1 := by
  unfold reachSpot
  split <;> next hq => exact fst_canonical hq (locate_canonical h)

theorem readReach_canonical {a : Access} {declared : B16} {p : Spot} (h : Canonical s) : Canonical (readReach s g a declared p).1 := by
  unfold readReach
  split
  · next hq => exact sampleAccess_canonical (readSpot_canonical (fst_canonical hq (reachSpot_canonical h)))
  · exact reachSpot_canonical h

theorem readEnd_canonical {e : Endpoint} {pos : Nat} {cell : Nat × Nat} (h : Canonical s) : Canonical (readEnd s g e pos cell).1 := by
  unfold readEnd
  dsimp only
  split
  · exact h
  · split
    · split
      · next hq => split <;> next hq2 => exact fst_canonical hq2 (readReach_canonical (fst_canonical hq (readReach_canonical h)))
      · next hq => exact fst_canonical hq (readReach_canonical h)
    · exact readReach_canonical h
    · exact h

theorem reachEnd_canonical {e : Endpoint} {pos : Nat} {cell : Nat × Nat} (h : Canonical s) : Canonical (reachEnd s g e pos cell).1 := by
  unfold reachEnd
  dsimp only
  split
  · exact h
  · split
    · split
      · next hq => split <;> next hq2 => exact fst_canonical hq2 (readReach_canonical (fst_canonical hq (reachSpot_canonical h)))
      · next hq => exact fst_canonical hq (reachSpot_canonical h)
    · exact reachSpot_canonical h
    · exact h

theorem copyToMem_canonical {p : Spot} {t : Attr} {v : Nat} {β : B16} {bad : Bool} (h : Canonical s) :
    Canonical (copyToMem s gid g cmd p t pa v β bad).1 := by
  have hw {l t pa w} : Canonical (hubWrite (toHome (drainTargets s gid l) g.core t pa) g.core w) :=
    hubWrite_canonical (toHome_canonical (drainTargets_canonical h))
  unfold copyToMem
  split <;> exact sampleAccess_canonical (canonical_ite hw hw)

theorem copyToTile_canonical {x : TileNo} {row col v : Nat} {β : B16} {bad : Bool} (h : Canonical s) :
    Canonical (copyToTile s gid g cmd x row col v β bad).1 := by
  unfold copyToTile
  split
  · exact h
  · exact fst_canonical_ite (setTile_canonical (drainTileTargets_canonical h)) (setTile_canonical (drainTileTargets_canonical h))

theorem copyWrite_canonical {x : Option TileNo} {r : Reach} {v : Nat} {b : Bnd} {fl : BitVec 9} {bad : Bool} (h : Canonical s) :
    Canonical (copyWrite s gid g cmd x r v b fl bad).1 := by
  unfold copyWrite
  split
  · exact copyToMem_canonical h
  · exact copyToTile_canonical h
  · exact h

theorem notReached_canonical {r : Reach} {row : List W64 × List Nat} (h : Canonical s) : Canonical (notReached s r row).state := by
  unfold notReached
  split <;> exact h

theorem moveElem_canonical {i j di dj : Nat} {bad0 : Bool} (h : Canonical s) : Canonical (moveElem s gid g cmd i j di dj bad0).state := by
  unfold moveElem
  dsimp only
  split
  · next hq =>
    have hs := fst_canonical hq (readEnd_canonical h)
    split
    · next hq => exact copyWrite_canonical (fst_canonical hq (reachEnd_canonical hs))
    · next hq => exact copyWrite_canonical (fst_canonical hq (reachEnd_canonical hs))
    · next hq => exact notReached_canonical (fst_canonical hq (reachEnd_canonical hs))
  · next hq => exact notReached_canonical (fst_canonical hq (readEnd_canonical h))

theorem lostFlags_canonical {i j : Nat} (h : Canonical s) : Canonical (lostFlags s gid g cmd i j) := by
  unfold lostFlags
  split
  · next hq => exact modGroup_canonical (fst_canonical hq (readEnd_canonical h))
  · next hq => exact fst_canonical hq (readEnd_canonical h)

theorem moveSparse_canonical {i j : Nat} (h : Canonical s) : Canonical (moveSparse s gid g cmd i j).state := by
  unfold moveSparse
  dsimp only
  split
  · next hq =>
    have hs := fst_canonical hq (readEnd_canonical h)
    refine canonical_ite_state Moved.state (moveElem_canonical (canonical_ite (lostFlags_canonical hs) hs)) ?_
    exact canonical_ite_state Moved.state (moveElem_canonical hs) (copyWrite_canonical hs)
  · next hq => exact notReached_canonical (fst_canonical hq (readEnd_canonical h))

theorem moveWord_canonical {n : Nat} (h : Canonical s) : Canonical (moveWord s gid g cmd n).state := by
  unfold moveWord
  dsimp only
  split
  · next hq =>
    have hs := fst_canonical hq (readReach_canonical h)
    split
    · next hq2 =>
      have hs2 := fst_canonical hq2 (reachSpot_canonical hs)
      exact canonical_ite_state Moved.state hs2 (copyWrite_canonical hs2)
    · next hq2 => exact notReached_canonical (fst_canonical hq2 (reachSpot_canonical hs))
  · next hq => exact notReached_canonical (fst_canonical hq (readReach_canonical h))

theorem moveNext_canonical (h : Canonical s) : Canonical (moveNext s gid g cmd).state :=
  canonical_ite_state Moved.state (moveWord_canonical h) (canonical_ite_state Moved.state (moveSparse_canonical h)
    (canonical_ite_state Moved.state (moveElem_canonical h) (moveElem_canonical h)))

theorem setCopy_canonical {c : CopyCmd} (h : Canonical s) : Canonical (setCopy s gid c) := h

theorem copyAcquire_canonical {p : (State × CopyCmd)} (h : Canonical s) (e : copyAcquire s gid g cmd = some p) : Canonical p.1 := by
  unfold copyAcquire at e
  split at e
  · cases e
    exact h
  · split at e
    · cases e
    · cases e
      exact acquire_canonical h

theorem faultCopy_canonical {f : FaultInfo} (h : Canonical s) : Canonical (faultCopy s gid g cmd f) :=
  canonical_ite (setCopy_canonical h) (raiseEntry_canonical (setCopy_canonical h))

theorem execCopyElement_canonical (h : Canonical s) : NextCanonical (execCopyElement gid s) := by
  refine tick_canonical ?_
  split
  · exact h
  · split
    · exact h
    · refine canonical_ite h ?_
      split
      · exact h
      · next hq =>
        have hs := copyAcquire_canonical h hq
        have hm {seq g cmd} := moveNext_canonical (gid := gid) (g := g) (cmd := cmd) (lateIn_canonical (gid := gid) (seq := seq) hs)
        split
        · next hq => exact setCopy_canonical (lateOut_canonical (canonical_of_eq Moved.state hq hm))
        · next hq => exact setCopy_canonical (lateOut_canonical (canonical_of_eq Moved.state hq hm))
        · next hq => exact setCopy_canonical (lateOut_canonical (canonical_of_eq Moved.state hq hm))
        · next hq => exact faultCopy_canonical (lateOut_canonical (canonical_of_eq Moved.state hq hm))

theorem dropCopy_canonical (h : Canonical s) : Canonical (dropCopy s gid) := h

theorem finishCopy_canonical (h : Canonical s) : Canonical (finishCopy s gid g cmd) :=
  canonical_ite (goOn_canonical (dropCopy_canonical h)) (dropCopy_canonical h)

theorem execCopyCommandEnd_canonical (h : Canonical s) : NextCanonical (execCopyCommandEnd gid s) := by
  refine tick_canonical ?_
  split
  · exact h
  · split
    · exact h
    · refine canonical_ite h (canonical_ite (modGroup_canonical (dropCopy_canonical h)) (canonical_ite h (canonical_ite h
        (canonical_ite (finishCopy_canonical h) ?_))))
      split
      · exact canonical_ite h (finishCopy_canonical h)
      · split
        · next hq => exact canonical_of_eq Released.state hq (releaseWork_canonical h)
        · next hq => exact faultCopy_canonical (canonical_of_eq Released.state hq (releaseWork_canonical h))
        · next hq =>
          have hs := canonical_of_eq Released.state hq (releaseWork_canonical h)
          exact canonical_ite (finishCopy_canonical hs) (setCopy_canonical hs)

theorem finishDecht_canonical (h : Canonical s) : Canonical (finishDecht gid s) := by
  unfold finishDecht
  split
  · exact h
  · split
    · refine canonical_ite h ?_
      split
      · exact h
      · next hq =>
        have hs := copyAcquire_canonical h hq
        dsimp only
        split
        · refine canonical_ite (trapHeld_canonical (dropCopy_canonical hs)) ?_
          exact setCopy_canonical (modGroup_canonical (setTile_canonical (drainTileTargets_canonical (setCore_canonical hs))))
        · exact setCopy_canonical (setCore_canonical hs)
    · exact h

theorem execDechtComplete_canonical (h : Canonical s) : NextCanonical (execDechtComplete gid s) := by
  unfold execDechtComplete
  split
  · exact underLate_canonical h fun _ hs => finishDecht_canonical hs
  · exact h

theorem copyIssue_canonical {full : Bool} (h : Canonical s) : ResultCanonical (Gang.copyIssue c s cmd full) := by
  refine resultCanonical_ite h (resultCanonical_ite h ?_)
  split
  · trivial
  · exact h

theorem copyOp_canonical {op : Nat} {a : UReg} (h : Canonical s) : NextCanonical (copyOp i op a s) := issue_canonical h fun _ => copyIssue_canonical h

theorem takeCopy_canonical {d : UReg} (h : Canonical s) : Canonical (takeCopy s gid d) := by
  unfold takeCopy
  split
  · exact h
  · split
    · exact h
    · exact modGroup_canonical (dropCopy_canonical h)

/-! ### The matrix engine (`Machine/Matrix.lean`) -/

theorem setAccCell_canonical {n i j v : Nat} (h : Canonical s) : Canonical (setAccCell s lead n i j v) := h

theorem setAccBound_canonical {n i : Nat} {b : B16} (h : Canonical s) : Canonical (setAccBound s lead n i b) := h

theorem poisonRow_canonical {n i : Nat} (h : Canonical s) : Canonical (poisonRow s lead n i) := h

theorem setAccElem_canonical {n i j : Nat} {wide : Bool} {v : Nat} (h : Canonical s) : Canonical (setAccElem s lead n i j wide v) :=
  canonical_ite (setAccCell_canonical (setAccCell_canonical h)) (setAccCell_canonical h)

theorem setAccBounds_canonical {n i : Nat} {wide : Bool} {b : B16} (h : Canonical s) : Canonical (setAccBounds s lead n i wide b) :=
  canonical_ite (setAccBound_canonical (setAccBound_canonical h)) (setAccBound_canonical h)

theorem pushEntry_canonical (h : Canonical s) : Canonical (pushEntry s lead e) := h

theorem enqueue_canonical {rel : Bool} {scope : Scope} {hold : Bool} (h : Canonical s) : ResultCanonical (Gang.enqueue c s e rel scope hold) :=
  resultCanonical_ite (modGroup_canonical (pushEntry_canonical h)) (modGroup_canonical (pushEntry_canonical h))

theorem mmaIssue_canonical {word : W32} (h : Canonical s) : ResultCanonical (Gang.mmaIssue c s word) := by
  refine resultCanonical_ite h (resultCanonical_ite h ?_)
  dsimp only
  split
  · trivial
  · exact enqueue_canonical h

theorem execAccrd_canonical {d : VFirst} {acc : Fin 16} {count : BitVec 4} {b : UReg} (h : Canonical s) :
    NextCanonical (execAccrd d acc count b s) := by
  refine issue_canonical h fun c => resultCanonical_ite h ?_
  dsimp only
  split
  · trivial
  · split
    · trivial
    · refine resultCanonical_ite h ?_
      split
      · next hq => exact pushEntry_canonical (done_canonical hq (launch_canonical h))
      · exact launch_canonical h

theorem execAccwr_canonical {d : VFirst} {acc : Fin 16} {count : BitVec 4} {b : UReg} (h : Canonical s) :
    NextCanonical (execAccwr d acc count b s) := by
  refine issue_canonical h fun _ => resultCanonical_ite h ?_
  dsimp only
  split
  · exact badMode_canonical
  · split
    · exact illegal_canonical
    · exact resultCanonical_ite h (resultCanonical_ite h (enqueue_canonical h))

theorem writeCells_canonical {acc : Nat} {wide : Bool} {i : Nat} {cells : List Nat} (h : Canonical s) : Canonical (writeCells s lead acc wide i cells) :=
  foldl_canonical (fun _ _ => setAccElem_canonical) h

theorem writeRows_canonical {acc : Nat} {wide : Bool} {out : KMap MRow} (h : Canonical s) : Canonical (writeRows s lead acc wide out) :=
  foldl_canonical (fun _ _ hs => setAccBounds_canonical (writeCells_canonical hs)) h

theorem setLatch_canonical {l : Option Latch} (h : Canonical s) : Canonical (setLatch s lead l) := h

theorem performMma_canonical {pl : MPlan} (h : Canonical s) : Canonical (performMma s lead g e pl).s := by
  unfold performMma
  dsimp only
  split
  · exact foldl_canonical (fun _ _ => poisonRow_canonical) (setLatch_canonical h)
  · split
    · exact setLatch_canonical h
    · exact pmcCore_canonical (writeRows_canonical (setLatch_canonical h))

theorem stopMma_canonical {pl : MPlan} (h : Canonical s) : Canonical (stopMma s lead g e pl).1 :=
  have hs {out wide} : Canonical (writeRows (setLatch s lead none) lead (mmaAcc e.word) wide out) := writeRows_canonical (setLatch_canonical h)
  fst_canonical_ite (setLatch_canonical h) (modGroup_canonical (canonical_ite (foldl_canonical (fun _ _ => writeCells_canonical) hs) hs))

theorem saveEntry_canonical (h : Canonical s) : Canonical (saveEntry s lead e).1 := by
  unfold saveEntry
  dsimp only
  split
  · exact h
  · refine fst_canonical_ite h ?_
    split
    · exact h
    · exact lateOut_canonical (stopMma_canonical (lateIn_canonical h))

theorem execMsave_canonical {t : TileNo} (h : Canonical s) : NextCanonical (execMsave t s) := by
  refine issue_canonical h fun _ => resultCanonical_ite h ?_
  dsimp only
  split
  · trivial
  · split
    · split
      · exact setTile_canonical (setLatch_canonical h)
      · exact setLatch_canonical h
    · refine resultCanonical_ite ?_ h
      split
      · exact setTile_canonical (saveEntry_canonical h)
      · exact saveEntry_canonical h
    · exact h

theorem execMres_canonical {t : TileNo} (h : Canonical s) : NextCanonical (execMres t s) := by
  refine issue_canonical h fun _ => resultCanonical_ite h ?_
  split
  · trivial
  · exact resultCanonical_ite h (resultCanonical_ite h (enqueue_canonical h))

theorem popEntry_canonical (h : Canonical s) : Canonical (popEntry s lead) := h

theorem setHead_canonical (h : Canonical s) : Canonical (setHead s lead e) := h

theorem performAccwr_canonical (h : Canonical s) : Canonical (performAccwr s lead g e) := by
  refine foldl_canonical (fun _ _ hs => ?_) h
  exact canonical_ite hs (foldl_canonical (fun _ _ hs => setAccBounds_canonical (foldl_canonical (fun _ _ => setAccElem_canonical) hs)) hs)

theorem startAccrd_canonical (h : Canonical s) : Canonical (startAccrd s lead g e) := h

theorem startHead_canonical (h : Canonical s) : Canonical (startHead core g e s) := by
  unfold startHead
  split
  · exact setHead_canonical h
  · exact setHead_canonical (startAccrd_canonical h)
  · exact goOn_canonical (setHead_canonical (performAccwr_canonical h))
  · have hs {x y z w} : Canonical (settleTile (settleTile (settleTile (settleTile s e.gid x) e.gid y) e.gid z) e.gid w) :=
      settleTile_canonical (settleTile_canonical (settleTile_canonical (settleTile_canonical h)))
    exact canonical_ite (canonical_ite (setHead_canonical (acquire_canonical hs)) hs) (setHead_canonical hs)
  · split
    · exact goOn_canonical (popEntry_canonical (modGroup_canonical h))
    · have fail {t} : Canonical (trapHeld (popEntry (s.modGroup e.gid leaveOpen) core) e.gid t) :=
        trapHeld_canonical (popEntry_canonical (modGroup_canonical h))
      refine canonical_ite (killPoison_canonical h) (canonical_ite (goOn_canonical (setHead_canonical h)) (canonical_ite fail ?_))
      split
      · exact fail
      · exact canonical_ite fail (goOn_canonical (setHead_canonical (modGroup_canonical h)))

theorem execMatrixEntryStart_canonical (h : Canonical s) : NextCanonical (execMatrixEntryStart core s) := by
  unfold execMatrixEntryStart
  split
  · exact h
  · refine canonical_ite h ?_
    split
    · exact popEntry_canonical h
    · exact underLate_canonical h fun _ hs => startHead_canonical hs

theorem finishAccrd_canonical (h : Canonical s) : Canonical (finishAccrd s g e) := by
  unfold finishAccrd
  split <;> exact h

theorem clearAcc_canonical {score : Bool} {accs : List Nat} {c : Nat} (h : Canonical s) : Canonical (clearAcc score accs s c) := h

theorem finishHead_canonical (h : Canonical s) : Canonical (finishHead core g e s) := by
  unfold finishHead
  dsimp only
  split
  · exact popEntry_canonical (modGroup_canonical (canonical_ite (clearAcc_canonical (clearAcc_canonical h)) (clearAcc_canonical h)))
  · exact popEntry_canonical h
  · exact popEntry_canonical h
  · refine canonical_ite (killPoison_canonical (popEntry_canonical h)) (canonical_ite (killGroup_canonical (popEntry_canonical h)) ?_)
    exact popEntry_canonical (finishAccrd_canonical h)
  · split
    · exact popEntry_canonical h
    · refine canonical_ite (killPoison_canonical (popEntry_canonical (performMma_canonical h))) ?_
      have hs {pl f} : Canonical (popEntry ((performMma s core g e pl).s.modGroup e.gid f) core) :=
        popEntry_canonical (modGroup_canonical (performMma_canonical h))
      split
      on_goal 1 => refine canonical_ite (trapHeld_canonical ?_) (modGroup_canonical ?_)
      on_goal 3 => refine canonical_ite (goOn_canonical ?_) ?_
      all_goals
        split
        · exact writeCard_canonical hs
        · exact hs

theorem retireHead_canonical (h : Canonical s) : Canonical (retireHead core s) := by
  unfold retireHead
  split
  · exact h
  · refine canonical_ite h ?_
    split
    · exact popEntry_canonical h
    · exact underLate_canonical h fun _ hs => finishHead_canonical hs

theorem execMatrixEntryRetire_canonical (h : Canonical s) : NextCanonical (execMatrixEntryRetire core s) := retireHead_canonical h

theorem execBatchComplete_canonical (h : Canonical s) : NextCanonical (execBatchComplete gid s) := by
  refine tick_canonical ?_
  split
  · exact h
  · split
    · exact h
    · refine canonical_ite h (canonical_ite (modGroup_canonical h) ?_)
      split
      · exact canonical_ite h (modGroup_canonical h)
      · split
        · next hq => exact canonical_of_eq Released.state hq (releaseWork_canonical h)
        · next hq =>
          have hs := canonical_of_eq Released.state hq (releaseWork_canonical h)
          exact canonical_ite hs (raiseEntry_canonical (modGroup_canonical hs))
        · next hq => exact modGroup_canonical (canonical_of_eq Released.state hq (releaseWork_canonical h))

/-! ### Context blocks (`Machine/Block.lean`) -/

theorem writeBlockWord_canonical {off : Nat} {w : W64} (h : Canonical s) : Canonical (writeBlockWord s gid off w) := h

theorem lookBlock_canonical (h : Canonical s) : Canonical (lookBlock s core gid g).1 := by
  refine foldl_fst_canonical (fun _ _ hs => ?_) h
  split
  · next hq => exact modGroup_canonical (fst_canonical hq (translate_canonical hs))
  · next hq => exact fst_canonical hq (translate_canonical hs)

theorem writeBlock_canonical (h : Canonical s) : Canonical (writeBlock s gid) := by
  unfold writeBlock
  split
  · exact h
  · refine foldl_canonical (fun s x hs => ?_) h
    dsimp only
    split
    · exact physWords_canonical hs
    · exact hs

theorem writeEngineArea_canonical (h : Canonical s) : Canonical (writeEngineArea s gid) := by
  unfold writeEngineArea
  split
  · exact h
  · refine foldl_canonical (fun _ _ hs => ?_) h
    split
    · exact physWords_canonical hs
    · exact hs

/-! ### Seats (`Machine/Seats.lean`) -/

theorem modStep_canonical {id : Nat} {f : CStep → CStep} (h : Canonical s) : Canonical (modStep s gid id f) := h

theorem dropFlag_canonical {n : Nat} (h : Canonical s) : Canonical (dropFlag s gid n) := h

theorem clearCurrent_canonical (h : Canonical s) : Canonical (clearCurrent s gid) := by
  unfold clearCurrent
  split <;> exact h

theorem loseHandler_canonical (h : Canonical s) : Canonical (loseHandler s gid) := by
  unfold loseHandler
  split
  · exact h
  · refine reenterHandler_canonical (foldl_canonical (fun _ _ hs => ?_) h)
    split
    · exact canonical_ite hs (dropFlag_canonical hs)
    · exact modStep_canonical hs
    · exact hs

theorem leaveSeat_canonical (h : Canonical s) : Canonical (leaveSeat s gid) := by
  unfold leaveSeat
  split
  · exact h
  · have hs {core} : Canonical (clearCurrent (writeBlock (account s core) gid) gid) :=
      clearCurrent_canonical (writeBlock_canonical (account_canonical h))
    exact canonical_ite h (canonical_ite (loseHandler_canonical (setGroup_canonical hs)) (setGroup_canonical hs))

theorem fitContext_canonical (h : Canonical s) : Canonical (fitContext s core) := by
  refine canonical_ite h (foldl_canonical (fun _ _ hs => ?_) h)
  split <;> exact hs

theorem restoreEngine_canonical (h : Canonical s) : Canonical (restoreEngine s gid g) := h

theorem moveJobs_canonical {old new : Nat} (h : Canonical s) : Canonical (moveJobs s gid old new) := canonical_ite h h

theorem moveCore_canonical {new : Nat} (h : Canonical s) : Canonical (moveCore s gid g new).state := by
  refine canonical_ite_state Mover.state (canonical_ite ?_ (faultRelease_canonical (modGroup_canonical ?_)))
    (moveJobs_canonical (canonical_ite (markPeers_canonical (releasedBy_canonical ?_))
      (modGroup_canonical (markPeers_canonical (releasedBy_canonical ?_)))))
  all_goals exact writeBackFor_canonical (drainWhere_canonical h)

theorem sitDown_canonical {moved : Bool} (h : Canonical s) : Canonical (sitDown s gid core quarter moved) := by
  unfold sitDown
  split
  · exact h
  · refine canonical_ite (reenterHandler_canonical ?_) (barrierLeave_canonical ?_)
    all_goals exact fitContext_canonical (wakeContext_canonical (restoreEngine_canonical (canonical_ite (acquire_canonical h) h)))

/-- The move into a seat of `takeSeat`, from the group's own core or from another. -/
theorem seatMove_canonical (h : Canonical s) :
    Canonical (if g.core = core then sitDown s gid core quarter false
      else match moveCore s gid g core with
      | .stays s => s
      | .goes s => sitDown s gid core quarter true) := by
  refine canonical_ite (sitDown_canonical h) ?_
  split
  · next hq => exact canonical_of_eq Mover.state hq (moveCore_canonical h)
  · next hq => exact sitDown_canonical (canonical_of_eq Mover.state hq (moveCore_canonical h))

theorem takeSeat_canonical (h : Canonical s) : Canonical (takeSeat s gid core quarter) := by
  unfold takeSeat
  split
  · exact h
  · refine canonical_ite (killPoison_canonical (setGroup_canonical (account_canonical h))) ?_
    split
    next s' l hq =>
    have hs := fst_canonical hq (lookBlock_canonical (account_canonical h))
    rcases blockGap s' _ l with _ | ⟨va, x⟩
    · exact seatMove_canonical hs
    · cases x with
      | absent => exact modGroup_canonical (raiseEntry_canonical (modGroup_canonical hs))
      | migrating => exact modGroup_canonical hs
      | malformed => exact modGroup_canonical (seatMove_canonical hs)
      | page => exact seatMove_canonical hs

/-! ### Work submission from a group (`Machine/Context.lean`) -/

theorem enqRead_canonical {a : Access} (h : Canonical s) : Canonical (enqRead s gid a).1 := by
  unfold enqRead
  split
  · exact h
  · next g _ =>
    have hl : Canonical (locateAll s g.core g.kernel a a.spots).1 := locateAll_canonical h
    dsimp only
    split
    · exact hl
    · refine fst_canonical_ite hl (fst_canonical_ite ?_ ?_)
      all_goals
        refine foldl_fst_canonical (fun _ _ hs => ?_) (settleAtomics_canonical hl)
        split
        · exact readSpot_canonical hs
        all_goals exact hs

theorem enqAppend_canonical {q : Nat} {ws : List W64} (h : Canonical s) : Canonical (enqAppend s gid g q ws).1 := by
  unfold enqAppend
  dsimp only
  split
  · exact h
  · refine fst_canonical_ite h (fst_canonical_ite h ?_)
    split
    · exact h
    · exact writeMem_canonical (foldl_canonical (fun _ _ hs => homeWrite_canonical (toHome_canonical hs)) h) fun hm => Laws.writeN_wf _ _ _ _ hm

theorem execEnq_canonical {d a : UReg} {q : BitVec 6} (h : Canonical s) : NextCanonical (execEnq d a q s) := by
  refine issue_canonical h fun _ => resultCanonical_ite h (resultCanonical_ite trivial (resultCanonical_ite (parkGang_canonical h) ?_))
  split
  · trivial
  · next hq => exact parkGang_canonical (fst_canonical hq (enqRead_canonical h))
  · next hq => exact killPoison_canonical (fst_canonical hq (enqRead_canonical h))
  · next hq => exact fst_canonical hq (enqRead_canonical h)

theorem enqFinish_canonical {acc : Access} {d : UReg} {q : BitVec 6} (h : Canonical s) : Canonical (enqFinish s gid acc d q) := by
  unfold enqFinish
  split
  · exact h
  · split
    · next hq => exact trapHeld_canonical (fst_canonical hq (enqRead_canonical h))
    · next hq => exact parkGang_canonical (fst_canonical hq (enqRead_canonical h))
    · next hq => exact killPoison_canonical (fst_canonical hq (enqRead_canonical h))
    · next hq =>
      have hs := fst_canonical hq (enqRead_canonical h)
      split
      next hq => exact goOn_canonical (modGroup_canonical (fst_canonical hq (enqAppend_canonical hs)))

theorem execEnqComplete_canonical (h : Canonical s) : NextCanonical (execEnqComplete gid s) := by
  unfold execEnqComplete
  split
  · split
    · split
      · exact canonical_ite (enqFinish_canonical h) h
      · exact h
    · exact h
  · exact h

/-! ### Records and arenas (`Machine/Records.lean`) -/

theorem writeArena_canonical {first : Nat} {l : List Extent} (h : Canonical s) : Canonical (writeArena s part first l) := physWords_canonical h

theorem takeArena_canonical {l : List Extent} {p : (State × Nat)} (h : Canonical s) (e : takeArena s part l = some p) : Canonical p.1 := by
  unfold takeArena at e
  dsimp only at e
  split at e
  · cases e
  · cases e
    exact writeArena_canonical (setPart_canonical h)

theorem dropArena_canonical {first count : Nat} (h : Canonical s) : Canonical (dropArena s part first count) := setPart_canonical h

theorem dropKernelArena_canonical (h : Canonical s) : Canonical (dropKernelArena s kid) := foldl_canonical (fun _ _ => dropArena_canonical) h

theorem putRecord_canonical {i : Nat} {w : List W64} {t : State} (h : Canonical s) (e : putRecord s kid i w = some t) : Canonical t := by
  unfold putRecord at e
  dsimp only at e
  split at e
  · cases e
  · next hq =>
    cases e
    exact setKernel_canonical (takeArena_canonical h hq)

theorem snapshotTable_canonical {t : State} (h : Canonical s) (e : snapshotTable s kid = some t) : Canonical t :=
  foldl_bind_canonical (fun _ _ _ => putRecord_canonical) (fun _ hs => Option.some.inj hs ▸ h) e

theorem setExtents_canonical {i : Nat} {l : List Extent} {hit : Extent → Bool} (h : Canonical s) : Canonical (setExtents s kid i l hit) := by
  have inPlace {k n w l} : Canonical (writeArena (s.setKernel kid k) n w l) := writeArena_canonical (setKernel_canonical h)
  refine canonical_ite h (canonical_ite inPlace ?_)
  split
  · exact inPlace
  · next hq => exact setKernel_canonical (takeArena_canonical (dropArena_canonical h) hq)

theorem rewalkWhere_canonical {i : Nat} {p : Nat → Extent → Bool} (h : Canonical s) : Canonical (rewalkWhere s kid i p) := setExtents_canonical h

theorem rewalk_canonical {i : Nat} {offs : List Nat} (h : Canonical s) : Canonical (rewalk s kid i offs) := rewalkWhere_canonical h

theorem rewalkAccess_canonical {a : Access} (h : Canonical s) : Canonical (rewalkAccess s kid a) := by
  unfold rewalkAccess
  split
  · exact h
  · exact canonical_ite h (canonical_ite (rewalk_canonical h) (rewalk_canonical (rewalk_canonical h)))

theorem recsyncFinish_canonical {acc : Access} {r : Option RecNo} (h : Canonical s) : Canonical (recsyncFinish s gid acc r) := by
  unfold recsyncFinish
  split
  · exact h
  · next g _ =>
    refine canonical_ite h ?_
    have hl : Canonical (locateAll s g.core g.kernel acc acc.spots).1 := locateAll_canonical h
    dsimp only
    split
    · exact trapHeld_canonical hl
    · refine canonical_ite (parkGang_canonical hl) ?_
      generalize hf : List.foldl _ (acquire (locateAll s g.core g.kernel acc acc.spots).1 gid .dev, [], false) _ = x
      have hx : Canonical x.1 := by
        rw [← hf]
        refine foldl_fst_canonical (fun _ _ hs => ?_) (acquire_canonical hl)
        split
        · exact readSpot_canonical hs
        all_goals exact hs
      refine canonical_ite (killPoison_canonical hx) ?_
      split
      · next hq => exact goOn_canonical (foldl_bind_canonical (fun _ _ _ hs => putRecord_canonical (dropArena_canonical hs))
          (fun _ hs => Option.some.inj hs ▸ hx) hq)
      · exact h

theorem execRecsyncComplete_canonical (h : Canonical s) : NextCanonical (execRecsyncComplete gid s) := by
  unfold execRecsyncComplete
  split
  · split
    · split
      · exact canonical_ite (recsyncFinish_canonical h) h
      · exact h
    · exact h
  · exact h

/-! ### Handlers and context words (`Machine/System.lean`) -/

theorem returnFromHandler_canonical {skip : Bool} (h : Canonical s) : Canonical (returnFromHandler s gid skip) := by
  unfold returnFromHandler
  split
  · exact h
  · next g _ =>
    cases g.resume with
    | none => exact setGroup_canonical h
    | some r =>
      have hs {g} : Canonical (s.setGroup gid g) := setGroup_canonical h
      exact canonical_ite hs (canonical_ite hs (canonical_ite hs hs))

theorem execTret_canonical {mode : BitVec 2} (h : Canonical s) : NextCanonical (execTret mode s) :=
  issueLast_canonical h fun _ => resultCanonical_ite illegal_canonical (resultCanonical_ite illegal_canonical
    (resultCanonical_ite (killGroup_canonical h) (returnFromHandler_canonical h)))

theorem putU_canonical {w : Nat} {d : UReg} {v : W64} (h : Canonical s) : ResultCanonical (Gang.putU c s w d v) := h

theorem giveU_canonical {d : UReg} {v : W64} (h : Canonical s) : ResultCanonical (Gang.giveU c s d v) := h

theorem execRdctx_canonical {d a : UReg} (h : Canonical s) : NextCanonical (execRdctx d a s) := by
  refine issue_canonical h fun _ => ?_
  dsimp only
  split
  · trivial
  · exact resultCanonical_ite (killPoison_canonical h) (giveU_canonical h)

theorem execWrctx_canonical {a b : UReg} (h : Canonical s) : NextCanonical (execWrctx a b s) := by
  refine issue_canonical h fun _ => ?_
  dsimp only
  split
  · trivial
  · split
    · exact modGroup_canonical (writeBlockWord_canonical h)
    · exact writeBlockWord_canonical h

/-! ### Faults, parks and replays (`Machine/Faults.lean`) -/

theorem completeResult_canonical {kind : ResultKind} (h : Canonical s) : Canonical (completeResult s gid kind) := by
  unfold completeResult
  dsimp only
  split
  · exact h
  · split
    · exact h
    · split
      · exact trapHeld_canonical h
      · refine canonical_ite (goOn_canonical ?_) ?_
        all_goals
          split
          · exact writeCard_canonical h
          · exact h

theorem execSfuResult_canonical (h : Canonical s) : NextCanonical (execSfuResult gid s) := completeResult_canonical h

theorem execXlaneResult_canonical (h : Canonical s) : NextCanonical (execXlaneResult gid s) := canonical_ite (completeResult_canonical h) h

theorem execConversionResult_canonical (h : Canonical s) : NextCanonical (execConversionResult gid s) := completeResult_canonical h

theorem execSldComplete_canonical (h : Canonical s) : NextCanonical (execSldComplete gid s) := completeResult_canonical h

theorem execLdStepComplete_canonical (h : Canonical s) : NextCanonical (execLdStepComplete gid s) := by
  unfold execLdStepComplete
  split
  · exact h
  · split
    · exact canonical_ite h h
    · exact h

theorem execStStepComplete_canonical (h : Canonical s) : NextCanonical (execStStepComplete gid s) := by
  unfold execStStepComplete
  split
  · exact h
  · split
    · exact canonical_ite h h
    · exact h

theorem execHeldFaultEntry_canonical (h : Canonical s) : NextCanonical (execHeldFaultEntry part s) := writeHeld_canonical h

theorem execContextCacheFill_canonical (h : Canonical s) : NextCanonical (execContextCacheFill gid s) := by
  unfold execContextCacheFill
  dsimp only
  split
  · exact h
  · split
    · exact h
    · refine canonical_ite h ?_
      split
      · exact fitContext_canonical h
      · split
        · next hq => exact fitContext_canonical (modGroup_canonical (modGroup_canonical (fst_canonical hq (translate_canonical h))))
        · next hq => exact modGroup_canonical (fst_canonical hq (translate_canonical h))
        · next hq => exact leaveSeat_canonical (raiseEntry_canonical (fst_canonical hq (translate_canonical h)))
        · next hq => exact trapHeld_canonical (modGroup_canonical (fst_canonical hq (translate_canonical h)))

theorem killByStatus_canonical {code : Nat} (h : Canonical s) : Canonical (killByStatus s gid code) := killGroup_canonical h

theorem frFlag_canonical {n : Nat} (h : Canonical s) : Canonical (frFlag s part n) := modRegs_canonical h

theorem execFrPost_canonical {value : BitVec 64} (h : Canonical s) : NextCanonical (execFrPost part value s) := by
  have hs {f} : Canonical (s.modRegs part f) := modRegs_canonical h
  refine canonical_ite h (canonical_ite (frFlag_canonical hs) ?_)
  split
  · exact frFlag_canonical hs
  · exact canonical_ite (canonical_ite (frFlag_canonical hs) (canonical_ite hs (canonical_ite hs (killByStatus_canonical hs))))
      (canonical_ite (frFlag_canonical hs) (canonical_ite (frFlag_canonical hs) (setResWord_canonical hs)))

theorem setPark_canonical {i : Nat} {p : Park} (h : Canonical s) : Canonical (setPark s gid i p) := h

theorem dropPark_canonical {i : Nat} (h : Canonical s) : Canonical (dropPark s gid i) := h

theorem trapPark_canonical {i : Nat} {p : Park} {t : TrapInfo} (h : Canonical s) : Canonical (trapPark s gid i p t) := by
  refine modGroup_canonical (canonical_ite (takeTrap_canonical (modGroup_canonical (dropPark_canonical ?_))) (setPark_canonical ?_))
  all_goals
    split
    · exact dropFlag_canonical h
    · exact modStep_canonical h
    · exact h

theorem repark_canonical {i : Nat} {p : Park} {a : Access} {cause : ParkCause} {faults : List Spot} (h : Canonical s) :
    Canonical (repark s gid i p a cause faults) :=
  canonical_ite (raiseEntry_canonical (setPark_canonical h)) (setPark_canonical h)

theorem replayLanes_canonical {i : Nat} {p : Park} (h : Canonical s) : Canonical (replayLanes s gid i p) := by
  have hr {l a} : Canonical (performAccess (settleAtomics s gid l) gid a).s := performAccess_canonical (settleAtomics_canonical h)
  have hd {l a t} : Canonical (drainTargets (performAccess (settleAtomics s gid l) gid a).s gid t) := drainTargets_canonical hr
  unfold replayLanes
  dsimp only
  split
  · exact trapPark_canonical hr
  · refine canonical_ite hr ?_
    split
    · exact canonical_ite (repark_canonical hd) (modGroup_canonical (setPark_canonical hd))
    · refine canonical_ite (setPark_canonical ?_) (repark_canonical ?_)
      all_goals
        split
        · exact hd
        · exact modStep_canonical hd

theorem replayHeld_canonical {i : Nat} {p : Park} (h : Canonical s) : Canonical (replayHeld s gid i p) := by
  have back {s f} (h : Canonical s) : Canonical ((dropPark s gid i).modGroup gid f) := modGroup_canonical (dropPark_canonical h)
  unfold replayHeld
  split
  · exact h
  · split
    · exact setPark_canonical h
    · generalize p.acc.op = op
      cases op with
      | enq | recsync => exact back h
      | waita =>
        dsimp only
        split
        · next hq => exact fst_canonical hq (waitAccess_canonical (back h))
        · exact trapPark_canonical h
        · exact repark_canonical h
        · next hq => exact fst_canonical hq (waitAccess_canonical (back h))
        · next hq => exact fst_canonical hq (waitAccess_canonical (back h))
      | ctab =>
        dsimp only
        split
        · exact trapPark_canonical h
        · next hq => exact killPoison_canonical (fst_canonical hq (readTable_canonical h))
        · exact repark_canonical h
        · next hq =>
          have hs := fst_canonical hq (readTable_canonical h)
          split
          · exact queueTable_canonical (back hs)
          · exact back hs
      | _ => exact h

theorem replayPark_canonical {i : Nat} (h : Canonical s) : Canonical (replayPark s gid i) := by
  unfold replayPark
  split
  · exact h
  · split
    · exact h
    · next p _ =>
      refine canonical_ite h (canonical_ite (setPark_canonical h) (canonical_ite (setPark_canonical h) ?_))
      generalize p.acc.op = op
      cases op with
      | fetch | pref => exact dropPark_canonical h
      | enq | recsync | waita | ctab => exact replayHeld_canonical h
      | _ => exact replayLanes_canonical h

theorem replayFrom_canonical {x x' : Nat} (h : Canonical s) : Canonical (replayFrom s gid x x') := by
  induction x generalizing s x' with
  | zero => exact h
  | succ n ih => exact ih (replayPark_canonical h)

theorem replayAll_canonical (h : Canonical s) : Canonical (replayAll s gid) := by
  unfold replayAll
  split
  · exact replayFrom_canonical h
  · exact h

theorem refuseRelease_canonical {r : Release} (h : Canonical s) : Canonical (refuseRelease s gid g r) := by
  unfold refuseRelease
  dsimp only
  split
  · exact takeTrap_canonical (discardRefused_canonical h)
  · exact discardRefused_canonical h
  all_goals exact canonical_ite (trapHeld_canonical (discardRefused_canonical h)) (discardRefused_canonical h)

theorem refuseCopy_canonical {kind : Nat} (h : Canonical s) : Canonical (refuseCopy s gid kind cmd) := by
  refine canonical_ite (setCopy_canonical h) (setCopy_canonical ?_)
  split
  · exact h
  · exact errorRecord_canonical h

theorem refuseBatch_canonical {b : Batch} (h : Canonical s) : Canonical (refuseBatch s gid b) := by
  unfold refuseBatch
  exact discardRefused_canonical h

theorem rewalkCopy_canonical {c : CopyCmd} (h : Canonical s) : Canonical (rewalkCopy s kid c) := foldl_canonical (fun _ _ => rewalkWhere_canonical) h

theorem rewalkGroup_canonical (h : Canonical s) : Canonical (rewalkGroup s g) := by
  unfold rewalkGroup
  split
  · exact rewalkCopy_canonical (foldl_canonical (fun _ _ hs => canonical_ite hs (rewalkAccess_canonical hs)) h)
  · exact foldl_canonical (fun _ _ hs => canonical_ite hs (rewalkAccess_canonical hs)) h

theorem retryRelease_canonical (h : Canonical s) : Canonical (retryRelease s gid) := h

theorem actStatus_canonical {status : Nat} (h : Canonical s) : Canonical (actStatus s gid g status) := by
  unfold actStatus
  split
  · exact retryRelease_canonical (canonical_ite (setCopy_canonical h) (refuseCopy_canonical h))
  · exact retryRelease_canonical (canonical_ite h (refuseBatch_canonical h))
  · refine canonical_ite ?_ ?_
    · split
      · exact canonical_ite (canonical_ite (retryRelease_canonical h) (refuseRelease_canonical h)) h
      · exact h
    · split
      · exact retryRelease_canonical h
      · exact canonical_ite (retryRelease_canonical h) (trapPark_canonical (retryRelease_canonical h))

theorem consumeWord_canonical (h : Canonical s) : Canonical (consumeWord s gid g) := by
  have hw {w} : Canonical (setResWord s gid w) := setResWord_canonical h
  have hs {c : Prop} [Decidable c] {w status} :
      Canonical (actStatus (if c then rewalkGroup (setResWord s gid w) g else setResWord s gid w) gid g status) :=
    actStatus_canonical (canonical_ite (rewalkGroup_canonical hw) hw)
  exact canonical_ite (killByStatus_canonical (canonical_ite (frFlag_canonical hw) hw)) (canonical_ite hs (replayAll_canonical hs))

theorem execFaultReplay_canonical (h : Canonical s) : NextCanonical (execFaultReplay gid s) := by
  unfold execFaultReplay
  split
  · exact h
  · exact canonical_ite h (canonical_ite (canonical_ite (consumeWord_canonical h) (canonical_ite (consumeWord_canonical h) h))
      (canonical_ite (replayAll_canonical h) h))

theorem rollCall_canonical {n : Nat} (h : Canonical s) : Canonical (rollCall s gid n) := by
  unfold rollCall
  split
  · exact h
  · exact canonical_ite (canonical_ite (killGroup_canonical (errorRecord_canonical h)) (errorRecord_canonical h)) h

theorem laneMismatch_canonical (h : Canonical s) : Canonical (laneMismatch s gid lanes) := by
  unfold laneMismatch
  split
  · exact h
  · split
    · exact h
    · split
      · exact canonical_ite (killGroup_canonical h) h
      · exact h

/-! ### Fetch, picks and seating (`Machine/Issue.lean`) -/

theorem bump_canonical (h : Canonical s) : Canonical (bump s) := h

theorem fetchAt_canonical (h : Canonical s) : Canonical (fetchAt s g va).1 := by
  refine fst_canonical_ite h ?_
  split
  · next hq =>
    have hs := fst_canonical hq (translate_canonical h)
    split
    · exact hs
    · split <;> exact hs
  all_goals next hq => exact fst_canonical hq (translate_canonical h)

theorem fetchBody_canonical {pc x : Nat} (h : Canonical s) : Canonical (fetchBody s g pc x).1 := by
  induction x with
  | zero => exact h
  | succ n ih =>
    unfold fetchBody
    split
    · next e => exact fst_canonical e ih
    · next e =>
      have hs := fst_canonical e ih
      split <;> next e => exact fst_canonical e (fetchAt_canonical hs)

theorem fetchRun_canonical {slices : BitVec 8} {pc : Nat} (h : Canonical s) : Canonical (fetchRun s g slices pc).1 := by
  unfold fetchRun
  split
  · next hq => exact fst_canonical hq (fetchAt_canonical h)
  · next hq =>
    have hs := fst_canonical hq (fetchAt_canonical h)
    refine fst_canonical_ite hs (fst_canonical_ite hs ?_)
    split
    · next hq => exact fst_canonical hq (fetchBody_canonical hs)
    · next hq =>
      have hs := fst_canonical hq (fetchBody_canonical hs)
      refine fst_canonical_ite (sampleAccess_canonical hs) ?_
      split
      case h_4 hq =>
        have hs := fst_canonical hq (fetchAt_canonical (sampleAccess_canonical hs))
        exact fst_canonical_ite hs (fst_canonical_ite hs hs)
      all_goals next hq => exact fst_canonical hq (fetchAt_canonical (sampleAccess_canonical hs))

theorem startRun_canonical {slices : BitVec 8} {early : Bool} (h : Canonical s) : Canonical (startRun s gid slices early) := by
  unfold startRun
  dsimp only
  split
  · exact h
  · split
    · next hq => exact modGroup_canonical (pmcCore_canonical (fst_canonical hq (fetchRun_canonical h)))
    · next hq => exact takeTrap_canonical (modGroup_canonical (fst_canonical hq (fetchRun_canonical h)))
    · next hq => exact parkGang_canonical (modGroup_canonical (fst_canonical hq (fetchRun_canonical h)))
    · next hq => exact parkGang_canonical (modGroup_canonical (fst_canonical hq (fetchRun_canonical h)))

theorem resumeDone_canonical {i : Nat} (h : Canonical s) : Canonical (resumeDone s gid i) := by
  unfold resumeDone
  split
  · exact h
  · split
    · exact h
    · split
      · exact takeTrap_canonical h
      · exact goOn_canonical h

theorem startPicked_canonical (h : Canonical s) : Canonical (startPicked s gid core quarter) := by
  unfold startPicked
  split
  · exact h
  · split
    · exact h
    · split
      · exact resumeDone_canonical h
      · exact canonical_ite (startRun_canonical h) h
    · exact h

theorem seeYields_canonical {l : List (Nat × Group)} (h : Canonical s) : Canonical (seeYields l s core quarter) :=
  foldl_canonical (fun _ _ hs => canonical_ite hs hs) h

theorem pickIn_canonical (h : Canonical s) : Canonical (pickIn s core quarter) := by
  unfold pickIn
  dsimp only
  split
  · exact seeYields_canonical h
  · have hs {l} {f : Nat × Group → Group} :
        Canonical (List.foldl (fun s x => s.setGroup x.1 (f x)) (seeYields (eligibleIn s core quarter) s core quarter) l) :=
      foldl_canonical (fun _ _ => setGroup_canonical) (seeYields_canonical h)
    refine startPicked_canonical (focus_canonical ?_)
    split
    · exact wakeContext_canonical (setCore_canonical (modGroup_canonical hs))
    · exact setCore_canonical (modGroup_canonical hs)

theorem execPick_canonical (h : Canonical s) : NextCanonical (execPick quarter s) := canonical_ite (bump_canonical (pickIn_canonical h)) h

theorem execIcacheFill_canonical (h : Canonical s) : NextCanonical (execIcacheFill quarter s) := by
  unfold execIcacheFill
  dsimp only
  split
  · exact h
  · split
    · exact h
    · exact canonical_ite h (startRun_canonical h)

theorem execGroupEndSeatFree_canonical (h : Canonical s) : NextCanonical (execGroupEndSeatFree gid s) := by
  unfold execGroupEndSeatFree
  split
  · exact h
  · exact canonical_ite (clearCurrent_canonical (account_canonical h)) h

theorem execSeating_canonical (h : Canonical s) : NextCanonical (execSeating core s) := by
  unfold execSeating
  dsimp only
  split
  · refine takeSeat_canonical ?_
    split
    · exact leaveSeat_canonical h
    · exact h
  · split
    · exact leaveSeat_canonical h
    · exact h

theorem execStallQuantumExpiry_canonical (h : Canonical s) : NextCanonical (execStallQuantumExpiry asid s) := by
  unfold execStallQuantumExpiry
  split
  · exact h
  · exact canonical_ite h h

/-! ### Preemption (`Machine/Preempt.lean`) -/

theorem haltDecodes_canonical (h : Canonical s) : Canonical (haltDecodes s gid) := by
  unfold haltDecodes
  split
  · exact h
  · split
    · exact canonical_ite (canonical_ite (finishDecht_canonical h) (decodeHead_canonical h)) h
    · exact h

theorem haltMatrix_canonical (h : Canonical s) : Canonical (haltMatrix s gid) := by
  unfold haltMatrix
  dsimp only
  split
  · exact h
  · split
    · exact canonical_ite (canonical_ite (retireHead_canonical h) (setHead_canonical (saveEntry_canonical h))) h
    · exact h

theorem haltResult_canonical (h : Canonical s) : Canonical (haltResult s gid) := by
  unfold haltResult
  split
  · exact h
  · refine canonical_ite ?_ h
    split
    · exact completeResult_canonical h
    · exact h

theorem haltGroup_canonical (h : Canonical s) : Canonical (haltGroup s gid) := by
  have hs : Canonical (haltMatrix (haltDecodes (haltResult s gid) gid) gid) := haltMatrix_canonical (haltDecodes_canonical (haltResult_canonical h))
  unfold haltGroup
  dsimp only
  split
  · exact canonical_ite (leaveSeat_canonical hs) (writeEngineArea_canonical hs)
  · exact hs

theorem haltContext_canonical (h : Canonical s) : Canonical (haltContext s asid) := foldl_canonical (fun _ _ => haltGroup_canonical) h

theorem setCtxState_canonical {st : CtxState} (h : Canonical s) : Canonical (setCtxState s asid st) := h

theorem execPreemption_canonical (h : Canonical s) : NextCanonical (execPreemption asid core s) := by
  unfold execPreemption
  split
  · exact h
  · refine canonical_ite ?_ h
    split
    · exact setCtxState_canonical (haltContext_canonical h)
    · exact h

theorem resumeContext_canonical (h : Canonical s) : Canonical (resumeContext s asid) := setCtxState_canonical h

theorem execContextResume_canonical (h : Canonical s) : NextCanonical (execContextResume asid s) := by
  unfold execContextResume
  split
  · exact canonical_ite (resumeContext_canonical h) h
  · exact h

theorem execStarvationBoost_canonical (h : Canonical s) : NextCanonical (execStarvationBoost asid s) := by
  unfold execStarvationBoost
  split
  · exact canonical_ite h h
  · exact h

theorem execStarvationBoostEnd_canonical (h : Canonical s) : NextCanonical (execStarvationBoostEnd asid s) := by
  unfold execStarvationBoostEnd
  split
  · exact canonical_ite h h
  · exact h

/-! ### Queues, launches and shootdowns (`Machine/Registrar.lean`) -/

theorem signalSem_canonical {va value : W64} (h : Canonical s) : Canonical (signalSem s part asid va value) := by
  refine canonical_ite h ?_
  dsimp only
  split
  · exact canonical_ite (raiseSem_canonical h) (errorRecord_canonical h)
  · exact errorRecord_canonical h

theorem writeStatus_canonical {status : Nat} (h : Canonical s) : Canonical (writeStatus s asid va status) := by
  unfold writeStatus
  split
  · exact And.intro (Laws.write_wf _ _ _ h.left) h.right
  · exact h

theorem settleContext_canonical (h : Canonical s) : Canonical (settleContext s asid) := by
  unfold settleContext
  split
  · exact h
  · exact canonical_ite (canonical_ite (setCtxState_canonical h) h) (canonical_ite h (setCtxState_canonical h))

theorem complete_canonical {status : Nat} {sigVa sigVal : W64} (h : Canonical s) : Canonical (complete s part asid va status sigVa sigVal) :=
  signalSem_canonical (writeStatus_canonical h)

theorem completeCmd_canonical {q : Nat} {r : QueueRun} {status : Nat} (h : Canonical s) : Canonical (completeCmd s asid q r status) :=
  settleContext_canonical (complete_canonical h)

theorem verifyObject_canonical {o : CodeObj} {t : State} (h : Canonical s) (e : verifyObject s asid va o = some t) : Canonical t := by
  unfold verifyObject at e
  dsimp only at e
  split at e
  · split at e
    · cases e
      exact h
    · split at e
      · cases e
        exact h
      · cases e
  · cases e

theorem checkLaunch_canonical {q entryVa order : Nat} {w : List W64} (h : Canonical s) :
    Canonical (checkLaunch s part asid q entryVa order w).state := by
  unfold checkLaunch
  dsimp only
  split
  · exact h
  · split
    · next hq =>
      have hs := verifyObject_canonical h hq
      refine canonical_ite_state Checked.state hs ?_
      split
      · exact hs
      · refine canonical_ite_state Checked.state hs ?_
        exact canonical_ite_state Checked.state hs (canonical_ite_state Checked.state hs (canonical_ite_state Checked.state hs hs))
    · exact h

theorem placeOn_canonical (h : Canonical s) : Canonical (placeOn s kid core) :=
  foldl_canonical (fun _ _ hs => setResWord_canonical (setGroup_canonical hs)) (setTeam_canonical h)

theorem placeTeams_canonical {x : Nat} (h : Canonical s) : Canonical (placeTeams s kid x) := by
  induction x generalizing s with
  | zero => exact h
  | succ n ih =>
    unfold placeTeams
    split
    · exact ih (placeOn_canonical h)
    · exact h

theorem placeKernel_canonical (h : Canonical s) : Canonical (placeKernel s kid) := canonical_ite h (placeTeams_canonical h)

theorem leaveQueue_canonical (h : Canonical s) : Canonical (leaveQueue s kid) := canonical_ite h h

theorem beginKernel_canonical {q : Nat} {r : QueueRun} (h : Canonical s) : Canonical (beginKernel s asid q r kid) := by
  refine canonical_ite h (canonical_ite (completeCmd_canonical h) ?_)
  split
  · exact h
  · next hq =>
    have hs := snapshotTable_canonical h hq
    exact leaveQueue_canonical (placeKernel_canonical (canonical_ite hs hs))

theorem goCmd_canonical {q : Nat} {r : QueueRun} (h : Canonical s) : Canonical (goCmd s asid q r) := by
  unfold goCmd
  split
  · exact h
  · next c _ =>
    have hs : Canonical ((coresOf s c.part).foldl (fun s core =>
        if (s.core core).l1.isEmpty then s else l1MarkStale s core fun e => decide (e.asid = asid)) s) :=
      foldl_canonical (fun _ _ hs => canonical_ite hs (l1MarkStale_canonical hs)) h
    dsimp only
    split
    · exact completeCmd_canonical hs
    · refine canonical_ite (completeCmd_canonical hs) ?_
      split
      · next hq => exact completeCmd_canonical (canonical_of_eq Checked.state hq (checkLaunch_canonical hs))
      · next hq => exact beginKernel_canonical (canonical_of_eq Checked.state hq (checkLaunch_canonical hs))

theorem tryCmd_canonical {q : Nat} {r : QueueRun} (h : Canonical s) : Canonical (tryCmd s asid q r) := by
  refine canonical_ite (goCmd_canonical h) ?_
  split
  · exact completeCmd_canonical h
  · exact canonical_ite (goCmd_canonical h) h

theorem takeCmd_canonical {q : Nat} {e : QueueEntry} {w : List W64} (h : Canonical s) : Canonical (takeCmd s asid q e va w).1 := by
  have hs : Canonical { s with mem := Memory.writeN s.mem (e.pa + 16) 4 (e.rd + 1).toNat } := And.intro (Laws.writeN_wf _ _ _ _ h.left) h.right
  exact settleContext_canonical hs

theorem dequeue_canonical {q : Nat} {e : QueueEntry} {w : Option (List W64)} (h : Canonical s) : Canonical (dequeue s asid q e va w) :=
  canonical_ite (completeCmd_canonical (takeCmd_canonical h)) (tryCmd_canonical (takeCmd_canonical h))

theorem execKernelLaunch_canonical (h : Canonical s) : NextCanonical (execKernelLaunch asid queue s) := by
  unfold execKernelLaunch
  split
  · split
    · exact canonical_ite (beginKernel_canonical h) h
    · exact h
    · exact h
  · split
    · exact canonical_ite h (dequeue_canonical h)
    · exact h

theorem execSemaphoreStep_canonical (h : Canonical s) : NextCanonical (execSemaphoreStep asid queue s) := by
  unfold execSemaphoreStep
  split
  · exact canonical_ite (dequeue_canonical h) h
  · exact h

theorem execSemaphoreWaitRecheck_canonical (h : Canonical s) : NextCanonical (execSemaphoreWaitRecheck asid queue s) := by
  unfold execSemaphoreWaitRecheck
  split
  · exact canonical_ite (tryCmd_canonical h) h
  · exact h

theorem execTeamPlacement_canonical {kernel : Nat} (h : Canonical s) : NextCanonical (execTeamPlacement kernel s) :=
  canonical_ite (leaveQueue_canonical (canonical_ite (placeKernel_canonical h) (placeTeams_canonical h))) h

theorem dropKernel_canonical (h : Canonical s) : Canonical (dropKernel s kid) := dropKernelArena_canonical h

theorem endKernel_canonical (h : Canonical s) : Canonical (endKernel s kid) := settleContext_canonical (signalSem_canonical (dropKernel_canonical h))

theorem kernelRelease_canonical (h : Canonical s) : Canonical (kernelRelease s kid).1 :=
  markPeers_canonical (foldl_canonical (fun _ _ => writeBackFor_canonical) h)

theorem execLaunchComplete_canonical {kernel : Nat} (h : Canonical s) : NextCanonical (execLaunchComplete kernel s) := by
  refine canonical_ite h ?_
  split
  · exact canonical_ite h (endKernel_canonical h)
  · refine canonical_ite (endKernel_canonical (writeStatus_canonical h)) (canonical_ite ?_ (kernelRelease_canonical (writeStatus_canonical h)))
    exact endKernel_canonical (kernelRelease_canonical (writeStatus_canonical h))

theorem shootdownExtents_canonical {x : Shootdown} (h : Canonical s) : Canonical (Shootdown.extents x part s) :=
  foldl_canonical (fun _ _ hs => foldl_canonical (fun _ _ => setExtents_canonical) hs) h

theorem shootdownTlb_canonical {x : Shootdown} (h : Canonical s) : Canonical (Shootdown.tlb x part s) := h

theorem shootdownPerform_canonical {x : Shootdown} (h : Canonical s) : Canonical (Shootdown.perform x s) :=
  foldl_canonical (fun _ _ hs => drainWhere_canonical (flushAtomics_canonical hs)) h

theorem shootdownUnseat_canonical {x : Shootdown} (h : Canonical s) : Canonical (Shootdown.unseat x s) :=
  foldl_canonical (fun _ _ => leaveSeat_canonical) h

theorem shootdownBlocks_canonical {x : Shootdown} (h : Canonical s) : Canonical (Shootdown.blocks x s) := h

theorem shootdownL1_canonical {x : Shootdown} (h : Canonical s) : Canonical (Shootdown.l1 x s core) :=
  canonical_ite h (canonical_ite (foldl_canonical (fun _ _ => l1Flush_canonical) h) h)

theorem performShoot_canonical {x : Shootdown} (h : Canonical s) : Canonical (performShoot s part x) :=
  have hs : Canonical (x.perform (x.tlb part (x.extents part s))) :=
    shootdownPerform_canonical (shootdownTlb_canonical (shootdownExtents_canonical h))
  foldl_canonical (fun _ _ => shootdownL1_canonical) (shootdownBlocks_canonical (canonical_ite (shootdownUnseat_canonical hs) hs))

theorem wakeMigrations_canonical {x : Shootdown} (h : Canonical s) : Canonical (wakeMigrations s x) := h

theorem dequeueShoot_canonical {q : Nat} {wake : Bool} (h : Canonical s) : Canonical (dequeueShoot s asid q wake) := by
  unfold dequeueShoot
  split
  · refine canonical_ite h (settleContext_canonical (canonical_ite (writeStatus_canonical (takeCmd_canonical h)) ?_))
    exact complete_canonical (canonical_ite (wakeMigrations_canonical (takeCmd_canonical h)) (performShoot_canonical (takeCmd_canonical h)))
  · exact h

theorem execXshoot_canonical (h : Canonical s) : NextCanonical (execXshoot asid queue s) := dequeueShoot_canonical h

theorem execXshootWake_canonical (h : Canonical s) : NextCanonical (execXshootWake asid queue s) := dequeueShoot_canonical h

/-! ### Registers, swaps and host accesses (`Machine/Host.lean`) -/

theorem loadContext_canonical {index : Nat} (h : Canonical s) : Canonical (loadContext s part index) :=
  canonical_ite (modRegs_canonical h) (setPart_canonical h)

theorem execCtLoad_canonical {value : BitVec 64} (h : Canonical s) : NextCanonical (execCtLoad part value s) :=
  canonical_ite (loadContext_canonical (modRegs_canonical h)) h

theorem setDbStat_canonical {v : BitVec 2} (h : Canonical s) : Canonical (setDbStat s asid v) := h

theorem writeDoorbell_canonical {q : Nat} {v : W32} (h : Canonical s) : Canonical (writeDoorbell s asid q v) := by
  unfold writeDoorbell
  split
  · exact h
  · exact canonical_ite (setDbStat_canonical h) (canonical_ite h (setDbStat_canonical h))

theorem advanceFuse_canonical {v : Nat} (h : Canonical s) : Canonical (advanceFuse s v) := canonical_ite h h

theorem execSecAdv_canonical {value : BitVec 64} (h : Canonical s) : NextCanonical (execSecAdv value s) := canonical_ite (advanceFuse_canonical h) h

theorem loseWrites_canonical {p : DurWrite → Bool} (h : Canonical s) : Canonical (loseWrites s p) :=
  And.intro (foldl_wf (fun _ _ => sectorFrom_wf) h.left) h.right

theorem dropHub_canonical (h : Canonical s) : Canonical (dropHub s part) := foldl_canonical (fun _ _ => hubClean_canonical) h

theorem resetPartition_canonical (h : Canonical s) : Canonical (resetPartition s part) :=
  poolSync_canonical (dropHub_canonical (loseWrites_canonical h))

theorem execDevRst_canonical {value : BitVec 64} (h : Canonical s) : NextCanonical (execDevRst value s) :=
  canonical_ite (foldl_canonical (fun _ _ => resetPartition_canonical) h) h

theorem writeBackCores_canonical {cores : List Nat} (h : Canonical s) : Canonical (writeBackCores s cores) :=
  foldl_canonical (fun _ _ hs => foldl_canonical (fun _ _ => writeBackFor_canonical) hs) h

theorem keepSwCtl_canonical {v : BitVec 64} (h : Canonical s) : Canonical (keepSwCtl s part v) := modRegs_canonical h

theorem beginSwap_canonical {out : Bool} (h : Canonical s) : Canonical (beginSwap s part out) := setPart_canonical h

theorem execSwapOut_canonical (h : Canonical s) : NextCanonical (execSwapOut part s) := by
  refine canonical_ite (beginSwap_canonical (foldl_canonical (fun _ _ hs => canonical_ite hs (l1MarkStale_canonical hs)) (writeBackCores_canonical ?_))) h
  exact foldl_canonical (fun _ _ hs => setCtxState_canonical (haltContext_canonical hs)) h

theorem execSwapIn_canonical (h : Canonical s) : NextCanonical (execSwapIn part s) := canonical_ite (beginSwap_canonical h) h

theorem finishOut_canonical (h : Canonical s) : Canonical (finishOut s part) := h

theorem finishIn_canonical {image : SwapImage} (h : Canonical s) : Canonical (finishIn s image) :=
  foldl_canonical (fun s a hs => resumeContext_canonical (s := { s with ctxs := KMap.modify s.ctxs a fun c => { c with away := false } }) hs)
    (foldl_canonical (fun _ _ => setCore_canonical) h)

theorem execSwapComplete_canonical (h : Canonical s) : NextCanonical (execSwapComplete part s) := by
  unfold execSwapComplete
  dsimp only
  split
  · exact h
  · exact setPart_canonical (finishOut_canonical h)
  · split
    · exact canonical_ite (setPart_canonical (finishIn_canonical h)) (setPart_canonical h)
    · exact setPart_canonical h

theorem writePartReg_canonical {off : Nat} {v : BitVec 64} (h : Canonical s) : Canonical (writePartReg s part off v) := by
  unfold writePartReg
  split
  case h_2 | h_3 => exact writeHeld_canonical (setPart_canonical h)
  case h_9 | h_10 => exact canonical_ite h (setPart_canonical h)
  case h_20 => exact h
  all_goals exact setPart_canonical h

theorem writeDevReg_canonical {off : Nat} {v : BitVec 64} (h : Canonical s) : Canonical (writeDevReg s off v) := by
  refine canonical_ite (canonical_ite h h) (canonical_ite h (canonical_ite h (canonical_ite ?_ (canonical_ite ?_ h))))
  all_goals
    dsimp only
    split <;> exact h

theorem execRegisterWrite_canonical {offset : Nat} {value : BitVec 64} (h : Canonical s) : NextCanonical (execRegisterWrite offset value s) := by
  refine nextCanonical_ite h ?_
  split
  · exact nextCanonical_ite (execDevRst_canonical h) (nextCanonical_ite (execSecAdv_canonical h) (writeDevReg_canonical h))
  · refine nextCanonical_ite h (nextCanonical_ite (execFrPost_canonical h) (nextCanonical_ite (execCtLoad_canonical h) (nextCanonical_ite ?_ ?_)))
    · exact execSwapOut_canonical (keepSwCtl_canonical h)
    · exact nextCanonical_ite (execSwapIn_canonical (keepSwCtl_canonical h)) (writePartReg_canonical h)

theorem homeTouch_canonical {n : Nat} {dirty : Bool} (h : Canonical s) : Canonical (homeTouch s pa n dirty) := by
  refine foldl_canonical (fun _ _ hs => ?_) h
  refine hubUse_canonical ?_
  split
  · exact poolOwn_canonical hs
  · exact hs

theorem homeBytes_canonical {data : List Byte} (h : Canonical s) : Canonical (homeBytes s pa data) :=
  And.intro (Laws.writeBytes_wf _ _ _ (homeTouch_canonical h).left) (homeTouch_canonical h).right

theorem reply_canonical {r : Reply} (h : Canonical s) : Canonical (reply s r) := h

/-! ### Cross-lane instructions (`Machine/Lanes.lean`) -/

theorem laneIssue_canonical {uses : Uses} {body : Gang → Result} (h : Canonical s) (hb : ∀ c, ResultCanonical (body c)) :
    NextCanonical (laneIssue i uses s body) :=
  issue_canonical h fun c => resultCanonical_ite trivial (hb c)

theorem lanesDone_canonical {writes hold : Bool} {out : Nat → LaneOut} {ws : List RegWrite} (h : Canonical s) :
    ResultCanonical (Gang.lanesDone c s writes hold lanes out ws) :=
  resultCanonical_ite h (launch_canonical h)

theorem shuffle_canonical {d : Dst} {a : Src} {from_ : Nat → Nat} (h : Canonical s) : ResultCanonical (Gang.shuffle c s d a from_) := by
  unfold Gang.shuffle
  split
  · exact badMode_canonical
  · exact lanesDone_canonical h

theorem foldLanes_canonical {d : Dst} {a : Src} {op : Nat} {seg : Bool} {sp : PReg} {steps : BitVec 32}
    {result : Ty → (Nat → Machine.Part) → BitVec 32 → Nat → Machine.Part} (h : Canonical s) :
    ResultCanonical (Gang.foldLanes c s d a op seg sp steps result) := by
  unfold Gang.foldLanes
  split
  · exact badMode_canonical
  · exact resultCanonical_ite badMode_canonical (lanesDone_canonical h)

/-! ### Legacy instructions (`Machine/Legacy.lean`) -/

theorem microDone_canonical (h : Canonical s) : ResultCanonical (Gang.microDone c s) := h

theorem execLmma3_canonical {d a b : BitVec 8} (h : Canonical s) : NextCanonical (execLmma3 d a b s) := by
  refine issue_canonical h fun c => ?_
  split
  · refine resultCanonical_ite (microDone_canonical (setGroup_canonical h)) (resultCanonical_ite (resultCanonical_ite (microDone_canonical h)
      (resultCanonical_ite trivial ?_)) (resultCanonical_ite (resultCanonical_ite h (microDone_canonical (setGroup_canonical h)))
      (resultCanonical_ite h h)))
    have hm {word} : ResultCanonical (Gang.mmaIssue c s word) := mmaIssue_canonical h
    split
    · next hq => exact microDone_canonical (done_canonical hq hm)
    · exact hm
  · trivial

theorem execLlds_canonical {d a b : BitVec 8} (h : Canonical s) : NextCanonical (execLlds d a b s) := by
  refine issue_canonical h fun _ => ?_
  split
  · split
    · trivial
    · exact resultCanonical_ite (microDone_canonical h) (resultCanonical_ite (killPoison_canonical (settleTile_canonical h)) (settleTile_canonical h))
  · exact illegal_canonical

theorem execLsts_canonical {d a b : BitVec 8} (h : Canonical s) : NextCanonical (execLsts d a b s) := by
  refine issue_canonical h fun _ => ?_
  split
  · split
    · trivial
    · refine resultCanonical_ite (microDone_canonical h) (resultCanonical_ite h ?_)
      exact modGroup_canonical (setTile_canonical (drainTileTargets_canonical (settleTile_canonical h)))
  · exact illegal_canonical

/-! ### Links (`Machine/Links.lean`) -/

theorem reroute_canonical {dest : Nat} (h : Canonical s) : Canonical (reroute s dest) := by
  unfold reroute
  dsimp only
  split <;> exact h

theorem deviceRecord_canonical {r : ErrRec} (h : Canonical s) : Canonical (deviceRecord s r) := foldl_canonical (fun _ _ => errorRecord_canonical) h

theorem execLinkDown_canonical {port : Fin 16} (h : Canonical s) : NextCanonical (execLinkDown port s) :=
  canonical_ite (canonical_ite (deviceRecord_canonical (reroute_canonical h)) h) h

theorem execNoPathKill_canonical (h : Canonical s) : NextCanonical (execNoPathKill gid s) := by
  unfold execNoPathKill
  split
  · exact canonical_ite (killGroup_canonical h) h
  · exact h

theorem execFalanReadArrival_canonical {port : Fin 16} {req : PeerRead} (h : Canonical s) : NextCanonical (execFalanReadArrival port pa req s) := by
  refine tick_canonical (canonical_ite h ?_)
  split
  · exact canonical_ite (reply_canonical (homeTouch_canonical h)) h
  all_goals
    refine canonical_ite h ?_
    dsimp only
    split
    · exact writeMem_canonical (reply_canonical (homeTouch_canonical h)) fun hm => Laws.writeN_wf _ _ _ _ hm
    · exact reply_canonical (homeTouch_canonical h)

theorem drain_canonical {l r : List DurWrite} (h : Canonical s) : Canonical (l.foldl drainWrite { s with pbuf := r }) :=
  foldl_canonical (fun _ _ => drainWrite_canonical) h

theorem execBackInvalidation_canonical {port : Fin 3} (h : Canonical s) : NextCanonical (execBackInvalidation port line s) := by
  refine tick_canonical ?_
  split
  · exact canonical_ite h (poolSync_canonical (drain_canonical h))
  · exact h

/-! ### Power, resets and errors (`Machine/Power.lean`) -/

theorem drainAtLoss_canonical {mask : BitVec 3} (h : Canonical s) : Canonical (drainAtLoss s mask) :=
  foldl_canonical (fun _ _ => drainWrite_canonical) h

theorem evictedAtLoss_canonical (h : Canonical s) : Canonical (evictedAtLoss s) := poolSync_canonical h

theorem volatileLoss_canonical (h : Canonical s) : Canonical (volatileLoss s) :=
  And.intro h.left (foldl_wf (fun m _ hm => Laws.write_wf m _ _ hm) h.right)

theorem wipe_canonical {power : PowerState} (h : Canonical s) : Canonical (wipe s power) :=
  And.intro (keptMemory_wf h.right) h.right

theorem execGlobalPersistentFlush_canonical (h : Canonical s) : NextCanonical (execGlobalPersistentFlush s) := canonical_ite h h

theorem resetDevice_canonical (h : Canonical s) : Canonical (resetDevice s) := canonical_ite (wipe_canonical (evictedAtLoss_canonical h)) h

theorem execD3cold_canonical (h : Canonical s) : NextCanonical (execD3cold s) := by
  refine tick_canonical (canonical_ite ?_ h)
  have hs := volatileLoss_canonical (evictedAtLoss_canonical (drain_canonical (l := s.pbuf) (r := []) h))
  exact wipe_canonical hs

theorem execQuarterClockGate_canonical (h : Canonical s) : NextCanonical (execQuarterClockGate quarter s) := canonical_ite h h

theorem execCoreClockGate_canonical (h : Canonical s) : NextCanonical (execCoreClockGate core s) := canonical_ite h h

theorem execHbmSelfRefresh_canonical {stack : Fin 8} (h : Canonical s) : NextCanonical (execHbmSelfRefresh stack s) := canonical_ite h h

theorem execManagementReset_canonical (h : Canonical s) : NextCanonical (execManagementReset s) := by
  unfold execManagementReset
  split
  · exact canonical_ite (resetDevice_canonical h) h
  · exact h

theorem execCorrectedError_canonical {unit : Nat} {pa : BitVec 52} {core : Option Nat} (h : Canonical s) :
    NextCanonical (execCorrectedError unit pa core s) := by
  have hr {part r} : Canonical (errorRecord (pmcPart s part 64 20 1) part r).1 := errorRecord_canonical (pmcPart_canonical h)
  exact tick_canonical (canonical_ite (And.intro hr.left hr.right) (pmcPart_canonical h))

theorem poisonSite_canonical {site : ErrSite} {t : State} {n : Nat} {r : ErrRec} (h : Canonical s) (e : poisonSite s site = some (t, n, r)) :
    Canonical t := by
  unfold poisonSite at e
  split at e
  · cases e
    exact h
  · obtain ⟨x, -, hx⟩ := Option.map_eq_some_iff.mp e
    cases hx
    exact h
  · obtain ⟨x, -, hx⟩ := Option.map_eq_some_iff.mp e
    cases hx
    exact h
  · split at e
    · cases e
      exact h
    · cases e

theorem execUncorrectableError_canonical {site : ErrSite} (h : Canonical s) : NextCanonical (execUncorrectableError site s) := by
  refine tick_canonical ?_
  split
  · next hq => exact errorRecord_canonical (poisonSite_canonical h hq)
  · exact h

theorem execHotnessSample_canonical (h : Canonical s) : NextCanonical (execHotnessSample core s) := by
  unfold execHotnessSample
  dsimp only
  split
  · exact h
  · exact canonical_ite (modRegs_canonical h) (modRegs_canonical (physWords_canonical h))

/-! ### Special functions (`Machine/Special.lean`) -/

theorem sfuOp_canonical {op : SfOp} {d : Dst} {a b : Src} (h : Canonical s) : NextCanonical (sfuOp i op d a b s) := by
  refine issue_canonical h fun _ => ?_
  split
  · exact badMode_canonical
  · exact resultCanonical_ite h (launch_canonical h)

/-! ### Dispatch (`Machine/Dispatch.lean`) -/

/-- Whatever an instruction of the program or an event of the device does, it keeps both memories canonical. -/
theorem exec_canonical (h : Canonical s) : NextCanonical (exec i s) := by
  unfold exec
  cases i with
  | nop | ipref | movi | iadd64 | pset | smovi | smov | scmp | stov | sminmax | brep | flags | decst | tinfo | hintFd | hintFe =>
    exact issue_canonical h fun _ => h
  | bra => exact issue_canonical h fun _ => control_canonical h
  | brx => exact issueLast_canonical h fun _ => resultCanonical_ite trivial (control_canonical h)
  | join | call | ret => exact issueLast_canonical h fun _ => control_canonical h
  | regang | yield => exact issueLast_canonical h fun _ => h
  | loops => exact issueLast_canonical h fun _ => resultCanonical_ite h (resultCanonical_ite h h)
  | exit => exact execExit_canonical h
  | brkp | recsync => exact issue_canonical h fun _ => resultCanonical_ite trivial h
  | setm | setmr | trap => exact issue_canonical h fun _ => resultCanonical_ite h trivial
  | iadd | isub | imul | imulh | imad | imin | imax | iabs | and | or | xor | andn | shl | shr | sar | rotl | bfe | bfi | clz | popc | brev | iaddi |
    shi =>
    exact elemOp_canonical h
  | icmp => exact execIcmp_canonical h
  | sel => exact execSel_canonical h
  | mov => exact execMov_canonical h
  | lea64 => exact execLea64_canonical h
  | sadd | ssub | smul | sand | sor | sxor | sshl | sshr => exact uniOp_canonical h
  | srdsr => exact execSrdsr_canonical h
  | swrsr => exact execSwrsr_canonical h
  | vtos => exact execVtos_canonical h
  | fadd | fsub | fmul | fma => exact floatArith_canonical h
  | ffma => exact execFfma_canonical h
  | fmin | fmax => exact floatPure_canonical h
  | fcmp => exact execFcmp_canonical h
  | fclass => exact execFclass_canonical h
  | frnd => exact execFrnd_canonical h
  | fscale => exact execFscale_canonical h
  | fdot2 | fdot4 => exact dotOp_canonical h
  | fcpys => exact execFcpys_canonical h
  | bget | bset | badd => exact boundMove_canonical h
  | bclr => exact execBclr_canonical h
  | bmaxr => exact execBmaxr_canonical h
  | setb => exact execSetb_canonical h
  | bchk => exact execBchk_canonical h
  | rcp | rsq | sqrt | exp2 | log2 | sinpi | cospi | tanh | sigm | fdivf => exact sfuOp_canonical h
  | cvt => exact execCvt_canonical h
  | pack => exact execPack_canonical h
  | unpk => exact execUnpk_canonical h
  | qblk => exact execQblk_canonical h
  | qapply => exact execQapply_canonical h
  | dq => exact execDq_canonical h
  | dech | decz => exact decodeOp_canonical h
  | decht => exact execDecht_canonical h
  | ctab => exact execCtab_canonical h
  | shfl => exact laneIssue_canonical h fun _ => shuffle_canonical h
  | shflx | bcst => exact laneIssue_canonical h fun _ => resultCanonical_ite illegal_canonical (shuffle_canonical h)
  | vote | ballot | rwalk | rnext | segm => exact laneIssue_canonical h fun _ => lanesDone_canonical h
  | redl | scanl => exact laneIssue_canonical h fun _ => foldLanes_canonical h
  | ld => exact execLd_canonical h
  | st | stsig => exact storeOp_canonical h
  | ldg | sst | semsig => exact issue_canonical h fun _ => memIssue_canonical h
  | stg => exact execStg_canonical h
  | sld => exact execSld_canonical h
  | pref => exact execPref_canonical h
  | cctl => exact execCctl_canonical h
  | talloc => exact execTalloc_canonical h
  | tfree => exact execTfree_canonical h
  | tld | tldx => exact issue_canonical h fun _ => tileRead_canonical h
  | tst | tstx => exact issue_canonical h fun _ => tileWrite_canonical h
  | tldt => exact execTldt_canonical h
  | tfill => exact execTfill_canonical h
  | aadd | aand | aor | axor | amin | amax | axchg | aincw | afadd => exact atomicOne_canonical h
  | acas | aaddb => exact atomicTwo_canonical h
  | redadd | redfadd | redmin | redmax => exact reduceOp_canonical h
  | rflush => exact issue_canonical h fun _ => resultCanonical_ite h (drainWhere_canonical h)
  | bar | bara => exact issue_canonical h fun _ => arrive_canonical h
  | barw => exact issue_canonical h fun _ => barWait_canonical h
  | bart => exact execBart_canonical h
  | wait | waitr | mbatch => exact issue_canonical h fun _ => resultCanonical_ite h h
  | waita => exact execWaita_canonical h
  | fence => exact execFence_canonical h
  | pbar => exact issue_canonical h fun _ => resultCanonical_ite h (startRelease_canonical h)
  | cpy | cpys | cpyt => exact copyOp_canonical h
  | cpyo | cpyg => exact issue_canonical h fun _ => copyIssue_canonical h
  | engsv => exact issue_canonical h fun _ => resultCanonical_ite (takeCopy_canonical h) h
  | engrs =>
    exact issue_canonical h fun _ => resultCanonical_ite illegal_canonical (resultCanonical_ite h
      (resultCanonical_ite illegal_canonical (copyIssue_canonical h)))
  | mma => exact issue_canonical h fun _ => resultCanonical_ite h (mmaIssue_canonical h)
  | mshape | mscale => exact issue_canonical h fun _ => resultCanonical_ite h (resultCanonical_ite illegal_canonical h)
  | accz => exact issue_canonical h fun _ => resultCanonical_ite h (resultCanonical_ite h (resultCanonical_ite h (enqueue_canonical h)))
  | accrd => exact execAccrd_canonical h
  | accwr => exact execAccwr_canonical h
  | msave => exact execMsave_canonical h
  | mres => exact execMres_canonical h
  | enq => exact execEnq_canonical h
  | ctxdead => exact issue_canonical h fun _ => resultCanonical_ite illegal_canonical (resultCanonical_ite illegal_canonical (resultCanonical_ite h h))
  | ctxpin => exact issue_canonical h fun _ => resultCanonical_ite illegal_canonical (resultCanonical_ite h h)
  | unseat => exact issueLast_canonical h fun _ => resultCanonical_ite (leaveSeat_canonical (advance_canonical h)) h
  | tret => exact execTret_canonical h
  | rdtrap | pmc => exact issue_canonical h fun _ => putU_canonical h
  | rdctx => exact execRdctx_canonical h
  | wrctx => exact execWrctx_canonical h
  | errlog => exact issue_canonical h fun _ => giveU_canonical (errorRecord_canonical h)
  | lmma3 => exact execLmma3_canonical h
  | llds => exact execLlds_canonical h
  | lsts => exact execLsts_canonical h
  | lbar =>
    exact issue_canonical h fun _ => resultCanonical_ite illegal_canonical (resultCanonical_ite (arrive_canonical h)
      (resultCanonical_ite (barWait_canonical h) h))
  | illegalOpcode | reservedOpcode => exact issue_canonical h fun _ => illegal_canonical
  | pick => exact execPick_canonical h
  | icacheFill => exact execIcacheFill_canonical h
  | sfuResult => exact execSfuResult_canonical h
  | xlaneResult => exact execXlaneResult_canonical h
  | conversionResult => exact execConversionResult_canonical h
  | ldStepComplete => exact execLdStepComplete_canonical h
  | stStepComplete => exact execStStepComplete_canonical h
  | atomicLanePerform => exact execAtomicLanePerform_canonical h
  | heldFaultEntry => exact execHeldFaultEntry_canonical h
  | faultReplay => exact execFaultReplay_canonical h
  | contextCacheFill => exact execContextCacheFill_canonical h
  | decodeUnitComplete => exact execDecodeUnitComplete_canonical h
  | dechtComplete => exact execDechtComplete_canonical h
  | copyElement => exact execCopyElement_canonical h
  | copyCommandEnd => exact execCopyCommandEnd_canonical h
  | matrixEntryStart => exact execMatrixEntryStart_canonical h
  | matrixEntryRetire => exact execMatrixEntryRetire_canonical h
  | batchComplete => exact execBatchComplete_canonical h
  | barrierPhaseComplete => exact execBarrierPhaseComplete_canonical h
  | waitaWake => exact execWaitaWake_canonical h
  | waitaPoll => exact execWaitaPoll_canonical h
  | waitaDeadline => exact execWaitaDeadline_canonical h
  | stallQuantumExpiry => exact execStallQuantumExpiry_canonical h
  | groupEndSeatFree => exact execGroupEndSeatFree_canonical h
  | seating => exact execSeating_canonical h
  | preemption => exact execPreemption_canonical h
  | contextResume => exact execContextResume_canonical h
  | starvationBoost => exact execStarvationBoost_canonical h
  | l1Eviction => exact foldl_canonical (fun _ _ => l1Flush_canonical) h
  | persistBufferDrain => exact execPersistBufferDrain_canonical h
  | hotnessSample => exact execHotnessSample_canonical h
  | kernelLaunch => exact execKernelLaunch_canonical h
  | semaphoreStep => exact execSemaphoreStep_canonical h
  | xshoot => exact execXshoot_canonical h
  | xshootWake => exact execXshootWake_canonical h
  | semaphoreWaitRecheck => exact execSemaphoreWaitRecheck_canonical h
  | teamPlacement => exact execTeamPlacement_canonical h
  | launchComplete => exact execLaunchComplete_canonical h
  | frPost => exact execFrPost_canonical h
  | ctLoad => exact execCtLoad_canonical h
  | swapOut => exact execSwapOut_canonical h
  | swapIn => exact execSwapIn_canonical h
  | swapComplete => exact execSwapComplete_canonical h
  | devRst => exact execDevRst_canonical h
  | secAdv => exact execSecAdv_canonical h
  | doorbellWrite => exact canonical_ite h (canonical_ite (setDbStat_canonical h) (canonical_ite (writeDoorbell_canonical h) h))
  | registerWrite => exact execRegisterWrite_canonical h
  | hostHdmAccess => exact canonical_ite h (canonical_ite (homeBytes_canonical h) (reply_canonical (homeTouch_canonical h)))
  | falanWriteArrival => exact canonical_ite (canonical_ite (homeBytes_canonical h) h) h
  | flushMarker => exact canonical_ite h (canonical_ite (reply_canonical (foldl_canonical (fun _ _ hs => hs) h)) h)
  | linkTrained => exact canonical_ite (reroute_canonical h) h
  | linkRetrain | throttleUpdate | pldmFirmwareUpdate | managementPowerLimit | managementResetRequest | linkTrainingStart => exact canonical_ite h h
  | linkDown => exact execLinkDown_canonical h
  | noPathKill => exact execNoPathKill_canonical h
  | powerLoss => exact canonical_ite (wipe_canonical (volatileLoss_canonical (evictedAtLoss_canonical (drainAtLoss_canonical h)))) h
  | globalPersistentFlush => exact execGlobalPersistentFlush_canonical h
  | powerOnReset => exact canonical_ite h (wipe_canonical h)
  | deviceReset => exact resetDevice_canonical h
  | boot | leaveReset => exact canonical_ite h (canonical_ite h h)
  | vfFunctionLevelReset => exact foldl_canonical (fun _ _ => stopGroup_canonical) h
  | d3hot => exact canonical_ite (writeBackCores_canonical (foldl_canonical (fun _ _ hs => setCtxState_canonical (haltContext_canonical hs)) h)) h
  | d0 => exact canonical_ite (foldl_canonical (fun _ _ => resumeContext_canonical) h) h
  | d3cold => exact execD3cold_canonical h
  | quarterClockGate => exact execQuarterClockGate_canonical h
  | coreClockGate => exact execCoreClockGate_canonical h
  | hbmSelfRefresh => exact execHbmSelfRefresh_canonical h
  | pldmMonitoring | spdmAttestation => exact canonical_ite (reply_canonical h) h
  | managementReset => exact execManagementReset_canonical h
  | correctedError => exact execCorrectedError_canonical h
  | uncorrectableError => exact execUncorrectableError_canonical h
  | sldComplete => exact execSldComplete_canonical h
  | recsyncComplete => exact execRecsyncComplete_canonical h
  | enqComplete => exact execEnqComplete_canonical h
  | releaseComplete => exact execReleaseComplete_canonical h
  | persistBufferAcceptance => exact execPersistBufferAcceptance_canonical h
  | markerAcknowledgement => exact execMarkerAcknowledgement_canonical h
  | falanReadArrival => exact execFalanReadArrival_canonical h
  | backInvalidation => exact execBackInvalidation_canonical h
  | starvationBoostEnd => exact execStarvationBoostEnd_canonical h

/-! ### The steps of the units (`Machine/Sched.lean`) -/

theorem acted_canonical {f : UnitStep} {t : State} (h : Canonical s) (hf : ∀ s, Canonical s → NextCanonical (f s)) (e : acted s f = some t) :
    Canonical t := by
  unfold acted at e
  have hn := hf s h
  split at e
  · next hq =>
    split at e
    · cases e
    · cases e
      rw [hq] at hn
      exact hn
  all_goals cases e

/-- Every step in the list keeps both memories canonical. -/
def StepsCanonical (l : List UnitStep) : Prop := ∀ f ∈ l, ∀ s, Canonical s → NextCanonical (f s)

theorem stepsCanonical_nil : StepsCanonical [] := List.forall_mem_nil _

theorem stepsCanonical_cons {f : UnitStep} {l : List UnitStep} (hf : ∀ {s}, Canonical s → NextCanonical (f s)) (hl : StepsCanonical l) :
    StepsCanonical (f :: l) :=
  List.forall_mem_cons.mpr ⟨fun _ => hf, hl⟩

theorem stepsCanonical_append {l k : List UnitStep} (hl : StepsCanonical l) (hk : StepsCanonical k) : StepsCanonical (l ++ k) :=
  fun f hf => (List.mem_append.mp hf).elim (hl f) (hk f)

theorem stepsCanonical_flatMap {α : Type} {l : List α} {k : α → List UnitStep} (hk : ∀ a, StepsCanonical (k a)) :
    StepsCanonical (l.flatMap k) := fun f hf =>
  have ⟨a, _, hf⟩ := List.mem_flatMap.mp hf
  hk a f hf

theorem stepsCanonical_map {α : Type} {l : List α} {k : α → UnitStep} (hk : ∀ a {s}, Canonical s → NextCanonical (k a s)) :
    StepsCanonical (l.map k) := fun _ hf =>
  have ⟨a, _, hf⟩ := List.mem_map.mp hf
  hf ▸ fun _ => hk a

theorem groupSteps_canonical : StepsCanonical (groupSteps gid) :=
  stepsCanonical_cons execLdStepComplete_canonical <| stepsCanonical_cons execStStepComplete_canonical <|
  stepsCanonical_cons execAtomicLanePerform_canonical <| stepsCanonical_cons execSfuResult_canonical <|
  stepsCanonical_cons execXlaneResult_canonical <| stepsCanonical_cons execConversionResult_canonical <|
  stepsCanonical_cons execSldComplete_canonical <| stepsCanonical_cons execReleaseComplete_canonical <|
  stepsCanonical_cons execRecsyncComplete_canonical <| stepsCanonical_cons execEnqComplete_canonical <|
  stepsCanonical_cons execCopyCommandEnd_canonical <| stepsCanonical_cons execDechtComplete_canonical <|
  stepsCanonical_cons execBatchComplete_canonical <| stepsCanonical_cons execContextCacheFill_canonical <|
  stepsCanonical_cons execFaultReplay_canonical <| stepsCanonical_cons execWaitaWake_canonical <|
  stepsCanonical_cons execWaitaPoll_canonical <| stepsCanonical_cons execWaitaDeadline_canonical <|
  stepsCanonical_cons execGroupEndSeatFree_canonical <| stepsCanonical_cons execNoPathKill_canonical stepsCanonical_nil

theorem coreSteps_canonical : StepsCanonical (coreSteps core) := by
  refine stepsCanonical_append (stepsCanonical_flatMap fun q => ?_) ?_
  · exact stepsCanonical_cons execPick_canonical <| stepsCanonical_cons execIcacheFill_canonical <|
      stepsCanonical_cons execQuarterClockGate_canonical stepsCanonical_nil
  · exact stepsCanonical_cons execDecodeUnitComplete_canonical <| stepsCanonical_cons execMatrixEntryRetire_canonical <|
      stepsCanonical_cons execSeating_canonical <| stepsCanonical_cons execHotnessSample_canonical <|
      stepsCanonical_cons execCoreClockGate_canonical stepsCanonical_nil

theorem passSteps_canonical : StepsCanonical (passSteps s) := by
  unfold passSteps
  split
  · exact stepsCanonical_nil
  · exact stepsCanonical_append (stepsCanonical_map fun _ => execCopyElement_canonical) (stepsCanonical_map fun _ => execMatrixEntryStart_canonical)

theorem contextSteps_canonical : StepsCanonical (contextSteps s asid) := by
  refine stepsCanonical_append (stepsCanonical_append ?_ (stepsCanonical_map fun _ => execPreemption_canonical)) (stepsCanonical_flatMap fun q => ?_)
  · exact stepsCanonical_cons execStallQuantumExpiry_canonical <| stepsCanonical_cons execContextResume_canonical <|
      stepsCanonical_cons execStarvationBoost_canonical <| stepsCanonical_cons execStarvationBoostEnd_canonical stepsCanonical_nil
  · exact stepsCanonical_cons execKernelLaunch_canonical <| stepsCanonical_cons execSemaphoreStep_canonical <|
      stepsCanonical_cons execXshoot_canonical <| stepsCanonical_cons execXshootWake_canonical <|
      stepsCanonical_cons execSemaphoreWaitRecheck_canonical stepsCanonical_nil

theorem barrierSteps_canonical : StepsCanonical (barrierSteps s) :=
  stepsCanonical_append (stepsCanonical_flatMap fun _ => stepsCanonical_map fun _ => execBarrierPhaseComplete_canonical)
    (stepsCanonical_flatMap fun _ => stepsCanonical_map fun _ => execBarrierPhaseComplete_canonical)

theorem persistSteps_canonical : StepsCanonical [execPersistBufferAcceptance, execPersistBufferDrain, execManagementReset] :=
  stepsCanonical_cons execPersistBufferAcceptance_canonical <| stepsCanonical_cons execPersistBufferDrain_canonical <|
  stepsCanonical_cons execManagementReset_canonical stepsCanonical_nil

theorem hubSteps_canonical : StepsCanonical (hubSteps s) := by
  refine stepsCanonical_append (stepsCanonical_append (stepsCanonical_append (stepsCanonical_append persistSteps_canonical ?_) ?_) ?_) ?_
  · exact stepsCanonical_flatMap fun _ =>
      stepsCanonical_cons execHeldFaultEntry_canonical <| stepsCanonical_cons execSwapComplete_canonical stepsCanonical_nil
  · exact stepsCanonical_map fun _ => execLinkDown_canonical
  · exact stepsCanonical_map fun _ => execHbmSelfRefresh_canonical
  · exact stepsCanonical_flatMap fun _ =>
      stepsCanonical_cons execTeamPlacement_canonical <| stepsCanonical_cons execLaunchComplete_canonical stepsCanonical_nil

theorem unitSteps_canonical : StepsCanonical (unitSteps s) := by
  unfold unitSteps
  split
  · exact stepsCanonical_append (stepsCanonical_append (stepsCanonical_append (stepsCanonical_append (stepsCanonical_append
      (stepsCanonical_flatMap fun _ => groupSteps_canonical) (stepsCanonical_flatMap fun _ => coreSteps_canonical)) passSteps_canonical)
      (stepsCanonical_flatMap fun _ => contextSteps_canonical)) barrierSteps_canonical) hubSteps_canonical
  · exact persistSteps_canonical
  · exact stepsCanonical_cons execGlobalPersistentFlush_canonical stepsCanonical_nil
  · exact stepsCanonical_nil

theorem unitStep_canonical (h : Canonical s) : Canonical (unitStep s) := by
  unfold unitStep
  dsimp only
  cases e : List.findSome? (acted s) _ with
  | none => exact tick_canonical h
  | some t =>
    obtain ⟨f, hf, e⟩ := List.exists_of_findSome?_eq_some e
    exact acted_canonical h (unitSteps_canonical f ((List.mem_append.mp hf).elim List.mem_of_mem_drop List.mem_of_mem_take)) e

/-! ### A step of the device (`Machine/Step.lean`) -/

theorem issueHead_canonical (h : Canonical s) : NextCanonical (issueHead s) := by
  unfold issueHead
  split
  · exact exec_canonical h
  · exact badWord_canonical h

theorem runMove_canonical {m : Move} (h : Canonical s) : NextCanonical (runMove m s) := by
  unfold runMove
  split
  · exact nextCanonical_ite h (exec_canonical h)
  · exact nextCanonical_ite h (issueHead_canonical h)
  · exact rollCall_canonical h
  · exact laneMismatch_canonical h

theorem step_canonical (h : Canonical s) : NextCanonical (step s) := by
  unfold step
  split
  · exact runMove_canonical h
  · split
    · exact issueHead_canonical h
    · exact unitStep_canonical h

/-- Settles O32: a step is a move on the agenda, an instruction of the focus or a step of a unit, and each keeps both memories canonical. -/
theorem memoryInvariantStep : Obligations.MemoryInvariantStep := by
  unfold Obligations.MemoryInvariantStep
  intro s t hm hp hs
  have ht := step_canonical (And.intro hm hp)
  rw [hs] at ht
  exact ht

end Sys2Proof.Proofs
end

section
/-! # Faults and replies (O49)

A step of the fault queue, of the context cache or of a posted word changes one group, and beside it memory, counters and records. So the rules come first:
which operations leave the groups alone, and what the others leave of the one group that they change. The statement is then one lemma for each case of
`HELD_FAULT_ENTRY`, `CONTEXT_CACHE_FILL` and `FAULT_REPLAY`. -/

namespace Sys2Proof.Proofs

open Sys2Proof.Machine

variable {s t : State} {gid part : Nat} {g h : Group}

/-! ### One group changed -/

theorem set_set_same {α : Type} (m : KMap α) (n : Nat) (x y : α) : KMap.set (KMap.set m n x) n y = KMap.set m n y := by
  induction m with
  | nil => simp [KMap.set]
  | cons e m ih =>
    obtain ⟨k, v⟩ := e
    rcases lt_trichotomy n k with hk | rfl | hk
    · simp [KMap.set, hk]
    · simp [KMap.set]
    · simp [KMap.set, hk.not_gt, hk.ne, ih]

/-- Setting a key to the value that it has changes nothing, in canonical form or not. -/
theorem set_get_same {α : Type} {m : KMap α} {n : Nat} {x : α} (h : KMap.get? m n = some x) : KMap.set m n x = m := by
  induction m with
  | nil => cases h
  | cons e m ih =>
    obtain ⟨k, v⟩ := e
    rcases lt_trichotomy n k with hk | rfl | hk
    · simp [KMap.get?, hk] at h
    · simpa [KMap.get?, KMap.set, eq_comm] using h
    · simp only [KMap.get?, hk.not_gt, hk.ne, ↓reduceIte] at h
      simp [KMap.set, hk.not_gt, hk.ne, ih h]

@[simp] theorem setGroup_setGroup (s : State) (n : Nat) (g h : Group) : (s.setGroup n g).setGroup n h = s.setGroup n h := by
  simp only [State.setGroup, set_set_same]

theorem setGroup_self (hg : s.group? gid = some g) : s.setGroup gid g = s := by
  unfold State.setGroup
  rw [set_get_same hg]

theorem modGroup_eq (hg : s.group? gid = some g) (f : Group → Group) : s.modGroup gid f = s.setGroup gid (f g) := by
  unfold State.group? at hg
  simp only [State.modGroup, State.setGroup, KMap.modify, hg]

theorem modGroup_self {f : Group → Group} (hg : s.group? gid = some g) (hf : f g = g) : s.modGroup gid f = s := by
  rw [modGroup_eq hg, hf, setGroup_self hg]

theorem group_modGroup (hg : s.group? gid = some g) (f : Group → Group) : (s.modGroup gid f).group? gid = some (f g) := by
  rw [modGroup_eq hg, Laws.group_setGroup]

theorem group_of_groups (hg : t.groups = s.groups) (n : Nat) : t.group? n = s.group? n := congrArg (KMap.get? · n) hg

/-! ### Operations that leave the groups alone -/

@[simp] theorem physWords_groups (s : State) (pa : Nat) (l : List W64) : (physWords s pa l).groups = s.groups := by
  induction l generalizing s pa with
  | nil => rfl
  | cons w l ih => exact ih _ _

@[simp] theorem setPart_groups (s : State) (n : Nat) (p : Partition) : (s.setPart n p).groups = s.groups := by
  unfold State.setPart
  split <;> rfl

@[simp] theorem modRegs_groups (s : State) (n : Nat) (f : PartRegs → PartRegs) : (s.modRegs n f).groups = s.groups := setPart_groups _ _ _

@[simp] theorem pmcCore_groups (s : State) (core vf n k : Nat) : (pmcCore s core vf n k).groups = s.groups := rfl

@[simp] theorem frFlag_groups (s : State) (part n : Nat) : (frFlag s part n).groups = s.groups := modRegs_groups _ _ _

@[simp] theorem countError_groups (s : State) (kind : Nat) : (countError s kind).groups = s.groups := by
  unfold countError
  split <;> rfl

@[simp] theorem errorRecord_groups (s : State) (part : Nat) (r : ErrRec) : (errorRecord s part r).1.groups = s.groups := by
  unfold errorRecord
  dsimp only
  split <;> simp

theorem foldl_groups {α : Type} {f : State → α → State} (hf : ∀ s a, (f s a).groups = s.groups) (l : List α) (s : State) :
    (l.foldl f s).groups = s.groups :=
  List.foldlRecOn (motive := fun t => State.groups t = s.groups) l f rfl fun t ht a _ => (hf t a).trans ht

@[simp] theorem settleBarrier_groups (s : State) (grid : Bool) (owner num : Nat) : (settleBarrier s grid owner num).groups = s.groups := by
  unfold settleBarrier
  split
  · unfold setBarrier
    split <;> rfl
  · rfl

@[simp] theorem settleBarriers_groups (s : State) (g : Group) : (settleBarriers s g).groups = s.groups := by
  unfold settleBarriers
  dsimp only
  split
  · simp only [foldl_groups fun s n => settleBarrier_groups s _ _ n]
  · exact foldl_groups (fun s n => settleBarrier_groups s _ _ n) _ _

@[simp] theorem translate_groups (s : State) (core asid va : Nat) : (Machine.translate s core asid va).1.groups = s.groups := by
  unfold Machine.translate
  dsimp only
  split
  · rfl
  · split
    · rfl
    · simp only [apply_ite Prod.fst, apply_ite State.groups, pmcCore_groups, ite_self]

/-! ### Words written to memory (R4) -/

theorem readN_congr {m m' : Memory} {a n : Nat} (e : ∀ x, a ≤ x → x < a + n → m.read x = m'.read x) : m.readN a n = m'.readN a n := by
  induction n generalizing a with
  | zero => rfl
  | succ n ih =>
    have tail := ih (a := a + 1) fun x hx hn => e x (by omega) (by omega)
    simp only [Memory.readN, e a (by omega) (by omega), tail]

theorem readN_writeN (m : Memory) (a n v : Nat) (hm : m.wf = true) : (m.writeN a n v).readN a n = v % 256 ^ n := by
  induction n generalizing m a v with
  | zero => simp [Memory.readN, Nat.mod_one]
  | succ n ih =>
    have hw := Laws.write_wf m a (BitVec.ofNat 8 v) hm
    have head : (Memory.writeN (m.write a (BitVec.ofNat 8 v)) (a + 1) n (v / 256)).read a = BitVec.ofNat 8 v :=
      (Laws.read_writeN_other _ _ _ _ _ hw (by omega)).trans (Laws.read_write_same m a _ hm)
    have split : v % 256 ^ (n + 1) = v % 256 + 256 * (v / 256 % 256 ^ n) := by rw [Nat.pow_succ', Nat.mod_mul]
    simp only [Memory.readN, Memory.writeN, ih _ _ _ hw, head, BitVec.toNat_ofNat, split]

theorem read_physWords_below (l : List W64) {pa x : Nat} (hm : s.mem.wf = true) (hx : x < pa) : (physWords s pa l).mem.read x = s.mem.read x := by
  induction l generalizing s pa with
  | nil => rfl
  | cons w l ih =>
    exact (ih (Laws.writeN_wf _ _ _ _ hm) (by omega)).trans (Laws.read_writeN_other _ _ _ _ _ hm (by omega))

/-- The words written from an address up read back. -/
theorem readN_physWords {l : List W64} {pa n : Nat} (hm : s.mem.wf = true) (hn : n < l.length) :
    (physWords s pa l).mem.readN (pa + 8 * n) 8 = (wordAt l n).toNat := by
  induction l generalizing s pa n with
  | nil => cases hn
  | cons w l ih =>
    have hw := Laws.writeN_wf s.mem pa 8 w.toNat hm
    cases n with
    | zero =>
      have e := readN_congr (a := pa) (n := 8) fun x _ hx => read_physWords_below (s := { s with mem := s.mem.writeN pa 8 w.toNat }) l hw hx
      exact e.trans ((readN_writeN _ _ _ _ hm).trans (Nat.mod_eq_of_lt w.isLt))
    | succ n =>
      have e := ih (s := { s with mem := s.mem.writeN pa 8 w.toNat }) (pa := pa + 8) hw (Nat.lt_of_succ_lt_succ hn)
      rwa [show pa + 8 + 8 * n = pa + 8 * (n + 1) by omega] at e

/-! ### Held entries (R273) -/

theorem part_setPart (s : State) (p : Partition) (hp : part < 8) : (s.setPart part p).part part = p := by
  simp [State.setPart, State.part, hp]

/-- The entries of a partition's queue that the host has not read. -/
def queueUsed (s : State) (part : Nat) : Nat := ((s.part part).regs.fqProd - (s.part part).regs.fqCons).toNat

/-- The entries that a partition's queue holds. -/
def queueSize (s : State) (part : Nat) : Nat := 2 ^ (s.part part).regs.fqSize.toNat

/-- The oldest held entry put into the queue at the producer's index, `l` staying held. -/
def putHeld (s : State) (part : Nat) (e : HeldEntry) (l : List HeldEntry) : State :=
  let p := s.part part
  let i := p.regs.fqProd.toNat
  (physWords s (bits p.regs.fqBase 51 6 * 64 + 64 * (i % queueSize s part)) (BitVec.ofNat 64 i :: e.words)).setPart part
    { p with held := l, regs := { p.regs with fqProd := p.regs.fqProd + 1 } }

theorem putHeld_part (e : HeldEntry) (l : List HeldEntry) (hp : part < 8) : (putHeld s part e l).part part =
    { s.part part with held := l, regs := { (s.part part).regs with fqProd := (s.part part).regs.fqProd + 1 } } := part_setPart _ _ hp

theorem putHeld_mem (e : HeldEntry) (l : List HeldEntry) : (putHeld s part e l).mem =
    (physWords s (bits (s.part part).regs.fqBase 51 6 * 64 + 64 * ((s.part part).regs.fqProd.toNat % queueSize s part))
      (BitVec.ofNat 64 (s.part part).regs.fqProd.toNat :: e.words)).mem := by
  unfold putHeld State.setPart
  dsimp only
  split <;> rfl

theorem putHeld_queueSize (e : HeldEntry) (l : List HeldEntry) (hp : part < 8) : queueSize (putHeld s part e l) part = queueSize s part := by
  unfold queueSize
  rw [putHeld_part e l hp]

theorem putHeld_queueUsed (e : HeldEntry) (l : List HeldEntry) (hp : part < 8) (hu : queueUsed s part < 2 ^ 31) :
    queueUsed (putHeld s part e l) part = queueUsed s part + 1 := by
  unfold queueUsed at hu ⊢
  rw [putHeld_part e l hp]
  bv_omega

theorem writeHeld_of_stuck (n : Nat) (hs : (s.part part).held = [] ∨ queueSize s part ≤ queueUsed s part) : writeHeld s part n = s := by
  cases n with
  | zero => rfl
  | succ n =>
    unfold writeHeld
    dsimp only
    split
    · rfl
    · next e => exact if_pos (hs.resolve_left (by simp [e]))

theorem writeHeld_of_room {e : HeldEntry} {l : List HeldEntry} (n : Nat) (hl : (s.part part).held = e :: l) (hr : queueUsed s part < queueSize s part) :
    writeHeld s part (n + 1) = writeHeld (putHeld s part e l) part n := by
  rw [writeHeld]
  simp only [hl]
  exact if_neg hr.not_ge

@[simp] theorem writeHeld_groups (s : State) (part n : Nat) : (writeHeld s part n).groups = s.groups := by
  induction n generalizing s with
  | zero => rfl
  | succ n ih =>
    unfold writeHeld
    dsimp only
    split
    · rfl
    · split
      · rfl
      · simp [ih]

/-- As many held entries enter the queue as it has room for, the oldest first. -/
theorem writeHeld_part (n : Nat) (hp : part < 8) (hsz : queueSize s part ≤ 2 ^ 31) (hu : queueUsed s part ≤ queueSize s part)
    (hn : (s.part part).held.length ≤ n) :
    ((writeHeld s part n).part part).held = (s.part part).held.drop (queueSize s part - queueUsed s part) ∧
    ((writeHeld s part n).part part).regs.fqProd.toNat =
      ((s.part part).regs.fqProd.toNat + min (s.part part).held.length (queueSize s part - queueUsed s part)) % 2 ^ 32 := by
  have hself := Nat.mod_eq_of_lt (s.part part).regs.fqProd.isLt
  induction n generalizing s with
  | zero => simpa [writeHeld, List.eq_nil_of_length_eq_zero (Nat.le_zero.mp hn)] using hself.symm
  | succ n ih =>
    match hl : (s.part part).held with
    | [] => simpa [writeHeld_of_stuck _ (.inl hl), hl] using hself.symm
    | e :: l =>
      rcases hu.eq_or_lt with hfull | hroom
      · simpa [writeHeld_of_stuck _ (.inr hfull.ge), hl, hfull] using hself.symm
      · have hused := putHeld_queueUsed (s := s) e l hp (by omega)
        rw [hl, List.length_cons] at hn
        have step := ih (s := putHeld s part e l)
        simp only [putHeld_queueSize e l hp, hused, putHeld_part e l hp, BitVec.toNat_add] at step
        obtain ⟨hheld, hprod⟩ := step hsz hroom (by omega) (Nat.mod_eq_of_lt (Nat.mod_lt _ (by decide)))
        have hk : queueSize s part - queueUsed s part = queueSize s part - (queueUsed s part + 1) + 1 := by omega
        rw [writeHeld_of_room n hl hroom, hheld, hprod, hk, List.drop_succ_cons, List.length_cons, Nat.add_min_add_right]
        refine ⟨rfl, ?_⟩
        rw [Nat.mod_add_mod]
        congr 1
        exact Nat.add_right_comm ..

/-- The one held entry goes to its place in the queue's ring, under the producer's index. -/
theorem readN_writeHeld_single {e : HeldEntry} {n : Nat} (hp : part < 8) (hm : s.mem.wf = true) (hl : (s.part part).held = [e])
    (hr : queueUsed s part < queueSize s part) (he : e.words.length = 7) (hn : n < 8) :
    (writeHeld s part 2).mem.readN (bits (s.part part).regs.fqBase 51 6 * 64 + 64 * ((s.part part).regs.fqProd.toNat % queueSize s part) + 8 * n) 8 =
      if n = 0 then (s.part part).regs.fqProd.toNat else (wordAt e.words (n - 1)).toNat := by
  have hdone : ((putHeld s part e []).part part).held = [] := by rw [putHeld_part e [] hp]
  rw [writeHeld_of_room 1 hl hr, writeHeld_of_stuck 1 (.inl hdone), putHeld_mem, readN_physWords hm (by simpa [he] using hn)]
  cases n with
  | zero => simp [wordAt]; omega
  | succ n => rfl

/-- HELD_FAULT_ENTRY brings in what the queue has room for. -/
theorem exec_heldFaultEntry_next (s : State) (part : Nat) :
    exec (.heldFaultEntry part) s = .next (tick (writeHeld s part ((s.part part).held.length + 1))) := rfl

/-! ### A group leaves its seat at a context fault (R26, R276) -/

/-- An entry of kind 2 gives the group the next token and arms no word. -/
theorem group_raiseEntry_context {f : FaultInfo} (hg : s.group? gid = some g) (hf : f.kind = 2) :
    (raiseEntry s gid f).group? gid = some { g with token := g.token + 1, ctxToken := some (g.token + 1), ctxPosted := false } := by
  unfold raiseEntry
  simp only [hg, hf, ne_eq, not_true_eq_false, decide_false, Bool.false_and, Bool.false_eq_true, ↓reduceIte]
  rw [group_of_groups ((writeHeld_groups _ _ _).trans (setPart_groups _ _ _)), Laws.group_setGroup]

theorem group_leaveSeat (hg : s.group? gid = some g) (hseat : g.seated = true) (hh : g.inHandler = false) :
    (leaveSeat s gid).group? gid = some { g with place := .hall g.core, pinned := [], ctxMiss := none, blockWritten := true } := by
  simp [leaveSeat, hg, hseat, hh]

/-! ### A line of the context cache (R26, R264, R266, R276, R279, R402) -/

/-- The virtual address of vector line `n` in a group's block. -/
def lineVa (s : State) (g : Group) (n : Nat) : Nat := s.blockVa g + 2560 + 192 * n

/-- A group whose missing line is there. -/
def lineFilled (g : Group) (n : Nat) : Group := { g with ctxMiss := none, absent := g.absent.filter fun i => decide (i ≠ n) }

/-- What the translation of a missing line's page does to its group. -/
def lineTranslated (t : State) (gid : Nat) (g : Group) (n va : Nat) : Xlat → State
  | .page _ pa => fitContext (t.setGroup gid { lineFilled g n with blockFrames := KMap.set g.blockFrames (va / 4096) (pa / 4096) }) g.core
  | .migrating v => t.setGroup gid { g with ctxMoving := some v }
  | .absent => leaveSeat (raiseEntry t gid (contextFault t g va)) gid
  | .malformed => trapHeld (t.setGroup gid { g with ctxMiss := none }) gid (trapBlock va)

theorem contextCacheFill_of_noMiss (hg : s.group? gid = some g) (hn : g.ctxMiss = none) : exec (.contextCacheFill gid) s = .next (tick s) := by
  simp only [Laws.exec_contextCacheFill, execContextCacheFill, hg, hn]

theorem contextCacheFill_of_moving {n : Nat} (hg : s.group? gid = some g) (hn : g.ctxMiss = some n) (hv : g.ctxMoving.isSome = true) :
    exec (.contextCacheFill gid) s = .next (tick s) := by
  simp only [Laws.exec_contextCacheFill, execContextCacheFill, hg, hn, hv, ↓reduceIte]

section Miss

variable {n : Nat} (hg : s.group? gid = some g) (hn : g.ctxMiss = some n) (hv : g.ctxMoving = none)
include hg hn hv

theorem contextCacheFill_of_frame {f : Nat} (hf : KMap.get? g.blockFrames (lineVa s g n / 4096) = some f) :
    exec (.contextCacheFill gid) s = .next (tick (fitContext (s.setGroup gid (lineFilled g n)) g.core)) := by
  unfold lineVa at hf
  simp only [Laws.exec_contextCacheFill, execContextCacheFill, hg, hn, hv, hf, Option.isSome_none, Bool.false_eq_true, ↓reduceIte]
  rw [modGroup_eq hg]
  rfl

/-- A line without a frame comes to what the translation of its page does. -/
theorem contextCacheFill_of_walk {x : Xlat} (hf : KMap.get? g.blockFrames (lineVa s g n / 4096) = none)
    (hx : Machine.translate s g.core (s.kernel g.kernel).asid (lineVa s g n) = (t, x)) :
    exec (.contextCacheFill gid) s = .next (tick (lineTranslated t gid g n (lineVa s g n) x)) := by
  have ht : t.group? gid = some g := by
    rw [← hg, ← group_of_groups (translate_groups s g.core (s.kernel g.kernel).asid (lineVa s g n)), hx]
  unfold lineVa at hf hx ⊢
  simp only [Laws.exec_contextCacheFill, execContextCacheFill, hg, hn, hv, hf, hx, Option.isSome_none, Bool.false_eq_true, ↓reduceIte]
  cases x with
  | page a pa =>
    dsimp only
    rw [modGroup_eq ht, modGroup_eq (Laws.group_setGroup ..), setGroup_setGroup]
    rfl
  | absent => rfl
  | migrating v | malformed =>
    dsimp only
    rw [modGroup_eq ht]
    rfl

end Miss

/-! ### What stops or sends to its handler a group (R425–R431, R442) -/

theorem group_killGroup {r : Group → ErrRec} (hg : s.group? gid = some g) (hl : g.live = true) :
    ∃ h, (killGroup s gid r).group? gid = some h ∧ h.place = .killed ∧ h.killCode = BitVec.ofNat 8 (r g).code := by
  have hrec : (errorRecord s (s.kernel g.kernel).part (r g)).1.group? gid = some g := by rw [group_of_groups (errorRecord_groups ..), hg]
  simp only [killGroup, hg, hl, ↓reduceIte, stopGroup, hrec, Bool.not_true, Bool.false_eq_true]
  rw [group_of_groups (settleBarriers_groups ..), Laws.group_setGroup]
  exact ⟨_, rfl, rfl, rfl⟩

theorem group_killByStatus {code : Nat} (hg : s.group? gid = some g) (hl : g.live = true) :
    ∃ h, (killByStatus s gid code).group? gid = some h ∧ h.place = .killed ∧ h.killCode = BitVec.ofNat 8 code :=
  group_killGroup hg hl

theorem walkFrom_setGroup (s : State) (n : Nat) (g : Group) (part asid va : Nat) (see : Nat → W64 → W64) (fuel level table : Nat) :
    walkFrom (s.setGroup n g) part asid va see fuel level table = walkFrom s part asid va see fuel level table := by
  induction fuel generalizing level table with
  | zero => rfl
  | succ fuel ih =>
    unfold walkFrom
    simp only [ih]
    rfl

theorem walkNow_setGroup (s : State) (n : Nat) (g : Group) (asid va : Nat) : walkNow (s.setGroup n g) asid va = walkNow s asid va := by
  unfold walkNow
  simp only [walkFrom_setGroup, Laws.setGroup_ctxs]

theorem readVirt_setGroup (s : State) (n : Nat) (g : Group) (asid va k : Nat) : readVirt (s.setGroup n g) asid va k = readVirt s asid va k := by
  induction k generalizing va with
  | zero => rfl
  | succ k ih =>
    unfold readVirt
    simp only [walkNow_setGroup, ih, Laws.setGroup_mem]

theorem handlerCode_setGroup (s : State) (n : Nat) (g : Group) (asid va k : Nat) (prot : Bool) :
    handlerCode (s.setGroup n g) asid va k prot = handlerCode s asid va k prot := by
  have hobj : readCodeObj (s.setGroup n g) asid va = readCodeObj s asid va := by simp only [readCodeObj, readVirt_setGroup]
  have hdesc (o : CodeObj) : readKDesc (s.setGroup n g) asid va o k = readKDesc s asid va o k := by simp only [readKDesc, readVirt_setGroup]
  unfold handlerCode
  simp only [hobj, hdesc]
  rfl

/-- The handler is read from memory and the page tables, whatever the groups. -/
theorem handlerOf_setGroup (s : State) (n : Nat) (g : Group) (part asid : Nat) (prot : Bool) :
    handlerOf (s.setGroup n g) part asid prot = handlerOf s part asid prot := by
  unfold handlerOf
  simp only [handlerCode_setGroup]
  rfl

/-- Word 1 of a trap's frame before it is cut to 64 bits (R430). -/
def trapWord (site : TrapSite) (t : TrapInfo) : Nat :=
  let inrun := match site.run with
    | some r => r.begun
    | none => false
  let remaining := match site.run with
    | some r => r.words.length
    | none => 0
  t.code.toNat + remaining * 2 ^ 8 + (if inrun then 2 ^ 13 else 0) + site.slices.toNat * 2 ^ 14 + t.step * 2 ^ 22 +
    (if t.legacy then 2 ^ 26 else 0) + (if t.async then 2 ^ 27 else 0) + 2 ^ 28 + site.word.toNat * 2 ^ 32

/-- The frame of a trap (R429, R430). -/
def trapFrame (site : TrapSite) (t : TrapInfo) : List W64 :=
  BitVec.ofNat 64 (bits site.pc 59 0) :: BitVec.ofNat 64 (trapWord site t) :: (List.range 6).map fun i => wordAt t.detail i

theorem trapFrame_pc (site : TrapSite) (t : TrapInfo) : (wordAt (trapFrame site t) 0).toNat = bits site.pc 59 0 := by
  simp only [trapFrame, wordAt, bits, List.getD_cons_zero, BitVec.toNat_ofNat]
  omega

theorem trapFrame_code (site : TrapSite) (t : TrapInfo) : bits (wordAt (trapFrame site t) 1) 7 0 = t.code.toNat := by
  have hcode := t.code.isLt
  simp only [trapFrame, wordAt, bits, trapWord, List.getD_cons_succ, List.getD_cons_zero, BitVec.toNat_ofNat, Nat.shiftRight_zero, Nat.reducePow]
  split_ifs <;> omega

theorem trapFrame_detail (site : TrapSite) (t : TrapInfo) : wordAt (trapFrame site t) 2 = wordAt t.detail 0 := rfl

/-- A group that is not in its handler, and that has one, enters it with the trap's frame. -/
theorem group_takeTrap {site : TrapSite} {e : TrapInfo} {c : Code} (hg : s.group? gid = some g) (hh : g.inHandler = false)
    (hd : handlerOf s (s.kernel g.kernel).part (s.kernel g.kernel).asid (s.kernel g.kernel).prot = some c) :
    ∃ h, (takeTrap s gid site e).group? gid = some h ∧ h.parks = g.parks ∧ h.resWord = g.resWord ∧ h.inHandler = true ∧ h.frame = trapFrame site e := by
  unfold takeTrap
  simp only [hg, hh, hd, Bool.false_eq_true, ↓reduceIte]
  exact ⟨_, Laws.group_setGroup .., rfl, rfl, rfl, rfl⟩

/-! ### A posted word (R272, R274, R276) -/

/-- A group with another fault-resolution word. -/
def withWord (g : Group) (w : W64) : Group := { g with resWord := w }

@[simp] theorem withWord_live (g : Group) (w : W64) : (withWord g w).live = g.live := rfl
@[simp] theorem withWord_inHandler (g : Group) (w : W64) : (withWord g w).inHandler = g.inHandler := rfl
@[simp] theorem withWord_run (g : Group) (w : W64) : (withWord g w).run = g.run := rfl
@[simp] theorem withWord_parks (g : Group) (w : W64) : (withWord g w).parks = g.parks := rfl
@[simp] theorem withWord_release (g : Group) (w : W64) : (withWord g w).release = g.release := rfl

theorem group_setResWord (hg : s.group? gid = some g) (w : W64) : (setResWord s gid w).group? gid = some (withWord g w) := by
  have hset : (s.setGroup gid { g with resWord := w }).group? gid = some (withWord g w) := Laws.group_setGroup ..
  simp only [setResWord, hg]
  split
  · rw [group_of_groups (physWords_groups ..), hset]
  all_goals exact hset

/-- Where the page of the word's home is absent, the word changes in the machine alone. -/
theorem setResWord_of_absent (hg : s.group? gid = some g) (w : W64) (ha : (walkNow s (s.kernel g.kernel).asid (s.blockVa g + 0x348)).1 = .absent) :
    setResWord s gid w = s.setGroup gid (withWord g w) := by
  have hwalk : (walkNow (s.setGroup gid { g with resWord := w }) (s.kernel g.kernel).asid (s.blockVa g + 0x348)).1 = .absent := by
    rw [walkNow_setGroup, ha]
  simp only [setResWord, hg]
  split
  · next e => exact absurd (hwalk.symm.trans (congrArg Prod.fst e)) nofun
  all_goals rfl

/-- The word once consumed: neither armed nor posted. -/
def consumedWord (w : W64) : W64 := setBits w 63 62 0

theorem setBits_eq_consumedWord (w : W64) : setBits w 63 62 0 = consumedWord w := rfl

theorem bit_consumedWord (w : W64) : bit (consumedWord w) 62 = false ∧ bit (consumedWord w) 63 = false := by
  have hlow : (consumedWord w).toNat < 2 ^ 62 := by
    simp only [consumedWord, setBits, bits, BitVec.toNat_ofNat, Nat.shiftRight_eq_div_pow]
    omega
  exact ⟨Nat.testBit_lt_two_pow hlow, Nat.testBit_lt_two_pow (hlow.trans (by decide))⟩

/-- The consumed word, of which proofs need only that it is neither posted nor armed: its arithmetic stays out of their terms. -/
theorem exists_consumedWord (g : Group) :
    ∃ w, consumedWord g.resWord = w ∧ (withWord g w).posted = false ∧ (withWord g w).outstanding = false :=
  have hbits := bit_consumedWord g.resWord
  ⟨_, rfl, hbits.right, Bool.or_eq_false_iff.mpr hbits⟩

/-! ### Parked fetches (R271, R274, R275) -/

/-- The cause of a park that waited on a fault is past once its group's word is consumed. -/
def readied (q : Park) : Park := if q.cause = .fault then { q with cause := .ready } else q

theorem firstFault_single {p : Park} (hp : g.parks = [p]) (hc : p.cause = .fault) : firstFault g = some (0, p) := by
  simp [firstFault, hp, hc]

theorem group_dropPark (hg : s.group? gid = some g) (i : Nat) :
    (dropPark s gid i).group? gid = some { g with parks := g.parks.take i ++ g.parks.drop (i + 1) } := group_modGroup hg _

/-- A parked fetch that traps while another gang's run is in progress traps once it is picked. -/
theorem group_trapPark_busy {p : Park} {i : Nat} {e : TrapInfo} (hg : s.group? gid = some g) (hrun : g.run.isSome = true) (ho : g.outstanding = false)
    (hop : p.acc.op = .fetch) (hstep : p.step = none) :
    (trapPark s gid i p e).group? gid = some { g with parks := (listSet g.parks i { p with cause := .done, trap := some e }).map readied } := by
  have hidle : g.run.isNone = false := by simpa [← Option.not_isSome] using hrun
  simp only [trapPark, hop, hstep, hg, hidle, Bool.false_eq_true, ↓reduceIte, setPark]
  rw [group_modGroup (group_modGroup hg _)]
  simp only [show ∀ l, Group.outstanding { g with parks := l } = false from fun _ => ho, Bool.false_eq_true, ↓reduceIte]
  rfl

/-- A parked fetch that traps while no run is in progress enters the handler. -/
theorem group_trapPark_idle {p : Park} {i : Nat} {e : TrapInfo} {c : Code} (hg : s.group? gid = some g) (hrun : g.run = none) (ho : g.outstanding = false)
    (hop : p.acc.op = .fetch) (hstep : p.step = none) (hh : g.inHandler = false)
    (hd : handlerOf s (s.kernel g.kernel).part (s.kernel g.kernel).asid (s.kernel g.kernel).prot = some c) :
    ∃ h site, (trapPark s gid i p e).group? gid = some h ∧ h.parks = (g.parks.take i ++ g.parks.drop (i + 1)).map readied ∧ h.inHandler = true ∧
      h.frame = trapFrame site e ∧ site.pc = p.acc.pc := by
  let left : Group := { g with parks := g.parks.take i ++ g.parks.drop (i + 1), x := p.x }
  have hdrop : (dropPark s gid i).modGroup gid (fun g => { g with x := p.x }) = s.setGroup gid left := by
    rw [dropPark, modGroup_eq hg, modGroup_eq (Laws.group_setGroup ..), setGroup_setGroup]
  let site : TrapSite := { slices := p.acc.slices, pc := p.acc.pc, word := p.acc.word, run := p.run }
  obtain ⟨h, ht, hparks, hword, hin, hframe⟩ := group_takeTrap (site := site) (e := e) (Laws.group_setGroup s gid left) hh
    ((handlerOf_setGroup ..).trans hd)
  have hout : h.outstanding = false := by rw [← ho, Group.outstanding, hword]; rfl
  simp only [trapPark, hop, hstep, hg, hrun, Option.isNone_none, ↓reduceIte, hdrop]
  refine ⟨_, site, group_modGroup ht _, ?_⟩
  simp only [hout, Bool.false_eq_true, ↓reduceIte, hparks]
  exact ⟨rfl, hin, hframe, rfl⟩

theorem replayAll_of_noParks (hg : s.group? gid = some g) (hp : g.parks = []) : replayAll s gid = s := by
  simp [replayAll, hg, hp, replayFrom]

/-- A parked fetch replays by leaving its park: the gang fetches again. -/
theorem replayAll_of_fetch {p : Park} (hg : s.group? gid = some g) (hl : g.live = true) (hh : g.inHandler = false) (hp : g.parks = [p])
    (hc : p.cause = .fault) (hop : p.acc.op = .fetch) : replayAll s gid = dropPark s gid 0 := by
  simp [replayAll, hg, hp, replayFrom, replayPark, hc, hl, hh, hop]

/-! ### What a consumed word's status does (R274, R275, R277) -/

section Posted

variable (hcopies : ∀ c ∈ g.copies, c.faulted = false) (hmx : ∀ b ∈ g.mx, b.faulted = false) (hrel : g.release = none)
include hcopies hmx

theorem engineEntry_of_unfaulted : engineEntry g = false := by
  unfold engineEntry
  refine Bool.or_eq_false_iff.mpr ⟨?_, ?_⟩
  · split
    · next c _ e => exact hcopies c (by simp [e])
    · rfl
  · split
    · next b _ e => exact hmx b (by simp [e])
    · rfl

omit hmx in
theorem rewalkGroup_of_noRecords (hp : ∀ p ∈ g.parks, p.acc.record = none) : rewalkGroup s g = s := by
  have hfind : (g.copies.find? fun c => c.faulted) = none := List.find?_eq_none.mpr fun c hc => by simp [hcopies c hc]
  have hfold : g.parks.foldl (fun s q => if q.cause = .done then s else rewalkAccess s g.kernel q.acc) s = s := by
    refine List.foldlRecOn (motive := fun t => t = s) _ _ rfl fun t ht p hmem => ?_
    simp [rewalkAccess, hp p hmem, ht]
  simp only [rewalkGroup, hfold, hfind]

include hrel

/-- A retry does nothing of itself where no engine command and no release waits for it. -/
theorem actStatus_retry (hg : t.group? gid = some h) (hh : h.release = none) : actStatus t gid g 0 = t := by
  have hself : retryRelease t gid = t := modGroup_self hg (by simp only [hh])
  have hc : (g.copies.find? fun c => c.faulted) = none := List.find?_eq_none.mpr fun c hc => by simp [hcopies c hc]
  have hm : (g.mx.find? fun b => b.faulted) = none := List.find?_eq_none.mpr fun b hb => by simp [hmx b hb]
  simp only [actStatus, hc, hm, hrel, hself, ↓reduceIte]
  split <;> [rfl; split <;> rfl]

omit hrel in
/-- A protection status traps the first gang parked on a fault. -/
theorem actStatus_protection {i : Nat} {p : Park} (hg : t.group? gid = some h) (hh : h.release = none) (hk : g.entryKind < 2)
    (hf : firstFault g = some (i, p)) : actStatus t gid g 1 = trapPark t gid i p (trapProtection p.acc) := by
  have hself : retryRelease t gid = t := modGroup_self hg (by simp only [hh])
  have hc : (g.copies.find? fun c => c.faulted) = none := List.find?_eq_none.mpr fun c hc => by simp [hcopies c hc]
  have hm : (g.mx.find? fun b => b.faulted) = none := List.find?_eq_none.mpr fun b hb => by simp [hmx b hb]
  simp only [actStatus, hc, hm, hself, hf, if_neg (show ¬g.entryKind = 3 by omega), Nat.one_ne_zero, ↓reduceIte]

variable (hg : s.group? gid = some g)
include hg

theorem consumeWord_retry (hs : bits g.resWord 17 16 = 0) (hp : ∀ p ∈ g.parks, p.acc.record = none) :
    consumeWord s gid g = replayAll (setResWord s gid (consumedWord g.resWord)) gid := by
  have hact := actStatus_retry hcopies hmx hrel (group_setResWord hg (consumedWord g.resWord)) ((withWord_release ..).trans hrel)
  simp only [consumeWord, setBits_eq_consumedWord, hs, rewalkGroup_of_noRecords hcopies hp, hact, ↓reduceIte, show ¬2 ≤ 0 by omega, Nat.zero_ne_one,
    decide_false, Bool.false_and, Bool.false_eq_true]

theorem consumeWord_protection {i : Nat} {p : Park} (hs : bits g.resWord 17 16 = 1) (hk : g.entryKind < 2) (hf : firstFault g = some (i, p)) :
    consumeWord s gid g = trapPark (setResWord s gid (consumedWord g.resWord)) gid i p (trapProtection p.acc) := by
  have hact := actStatus_protection hcopies hmx (group_setResWord hg (consumedWord g.resWord)) ((withWord_release ..).trans hrel) hk hf
  simp only [consumeWord, setBits_eq_consumedWord, hs, hact, hf, hk, ↓reduceIte, show ¬2 ≤ 1 by omega, Nat.one_ne_zero, decide_true,
    Option.isSome_some, Bool.and_self]

omit hcopies hmx hrel in
theorem group_consumeWord_kill (hl : g.live = true) (hs : 2 ≤ bits g.resWord 17 16) :
    ∃ h, (consumeWord s gid g).group? gid = some h ∧ h.place = .killed ∧ h.killCode = 6 := by
  have hw := group_setResWord hg (consumedWord g.resWord)
  have hlive := (withWord_live g (consumedWord g.resWord)).trans hl
  simp only [consumeWord, setBits_eq_consumedWord, hs, ↓reduceIte]
  split
  · exact group_killByStatus ((group_of_groups (frFlag_groups ..) _).trans hw) hlive
  · exact group_killByStatus hw hlive

end Posted

/-! ### `FAULT_REPLAY` -/

theorem live_of_seated (hs : g.seated = true) : g.live = true := by
  unfold Group.seated at hs
  unfold Group.live
  split at hs <;> simp_all

theorem faultReplay_of_dead (hg : s.group? gid = some g) (hl : g.live = false) : exec (.faultReplay gid) s = .next (tick s) := by
  simp only [Laws.exec_faultReplay, execFaultReplay, hg, hl, Bool.not_false, ↓reduceIte]

/-- Without a posted word nothing replays but gangs whose cause is past. -/
theorem faultReplay_of_unposted (hg : s.group? gid = some g) (hl : g.live = true) (hp : g.posted = false) (hr : ∀ p ∈ g.parks, p.cause ≠ .ready) :
    exec (.faultReplay gid) s = .next (tick s) := by
  have hany : (g.parks.any fun p => decide (p.cause = ParkCause.ready) && decide (p.handler = g.inHandler)) = false :=
    List.any_eq_false.mpr fun p hmem => by simp [hr p hmem]
  simp only [Laws.exec_faultReplay, execFaultReplay, hg, hl, hp, hany, Bool.not_true, Bool.and_false, Bool.false_eq_true, ↓reduceIte]

/-- A seated group outside its handler consumes its posted word. -/
theorem faultReplay_of_posted (hg : s.group? gid = some g) (hs : g.seated = true) (hp : g.posted = true) (hh : g.inHandler = false)
    (he : engineEntry g = false) : exec (.faultReplay gid) s = .next (tick (consumeWord s gid g)) := by
  simp only [Laws.exec_faultReplay, execFaultReplay, hg, live_of_seated hs, hs, hp, hh, he, Bool.not_true, Bool.not_false, Bool.false_and, Bool.true_or,
    Bool.and_self, Bool.false_eq_true, ↓reduceIte]

/-! ### The statement's clauses -/

/-- R273. -/
theorem heldFaultEntry_clauses (s : State) (part : Nat) (hp : part < 8) :
    ((s.part part).held = [] ∨ queueSize s part ≤ queueUsed s part → exec (.heldFaultEntry part) s = .next (tick s)) ∧
    ((s.part part).regs.fqSize.toNat < 32 → queueUsed s part ≤ queueSize s part → Memory.wf s.mem = true → ∃ t, exec (.heldFaultEntry part) s = .next t ∧
      (t.part part).held = (s.part part).held.drop (queueSize s part - queueUsed s part) ∧
      (t.part part).regs.fqProd.toNat = ((s.part part).regs.fqProd.toNat + min (s.part part).held.length (queueSize s part - queueUsed s part)) % 2 ^ 32 ∧
      t.groups = s.groups ∧ (∀ e, (s.part part).held = [e] → queueUsed s part < queueSize s part → e.words.length = 7 → ∀ n < 8,
        Memory.readN t.mem (bits (s.part part).regs.fqBase 51 6 * 64 + 64 * ((s.part part).regs.fqProd.toNat % queueSize s part) + 8 * n) 8 =
          if n = 0 then (s.part part).regs.fqProd.toNat else (wordAt e.words (n - 1)).toNat)) := by
  refine ⟨fun hs => ?_, fun hsz hu hm => ?_⟩
  · rw [exec_heldFaultEntry_next, writeHeld_of_stuck _ hs]
  · have hle : queueSize s part ≤ 2 ^ 31 := Nat.pow_le_pow_right (by decide) (Nat.le_of_lt_succ hsz)
    obtain ⟨hheld, hprod⟩ := writeHeld_part _ hp hle hu (Nat.le_succ _)
    refine ⟨_, exec_heldFaultEntry_next s part, hheld, hprod, writeHeld_groups .., fun e hl hr he n hn => ?_⟩
    rw [hl]
    exact readN_writeHeld_single hp hm hl hr he hn

/-- R26, R264, R276, R279: an absent page sends the group to the hall with a context fault. -/
theorem contextCacheFill_of_absent {n : Nat} (hg : s.group? gid = some g) (hn : g.ctxMiss = some n) (hv : g.ctxMoving = none)
    (hf : KMap.get? g.blockFrames (lineVa s g n / 4096) = none)
    (hx : Machine.translate s g.core (s.kernel g.kernel).asid (lineVa s g n) = (t, .absent)) (hs : g.seated = true) (hh : g.inHandler = false) :
    ∃ t h, exec (.contextCacheFill gid) s = .next t ∧ t.group? gid = some h ∧
      h.place = .hall g.core ∧ h.ctxToken = some (g.token + 1) ∧ h.ctxPosted = false ∧ h.ctxMiss = none ∧ h.s = g.s ∧ h.v = g.v := by
  have ht : t.group? gid = some g := by
    rw [← hg, ← group_of_groups (translate_groups s g.core (s.kernel g.kernel).asid (lineVa s g n)), hx]
  have hleft := group_leaveSeat (group_raiseEntry_context (f := contextFault t g (lineVa s g n)) ht rfl) hs hh
  exact ⟨_, _, contextCacheFill_of_walk hg hn hv hf hx, hleft, rfl, rfl, rfl, rfl, rfl, rfl⟩

section Status

variable (hg : s.group? gid = some g) (hs : g.seated = true) (hp : g.posted = true) (hh : g.inHandler = false)
  (hcopies : ∀ c ∈ g.copies, c.faulted = false) (hmx : ∀ b ∈ g.mx, b.faulted = false) (hrel : g.release = none)
include hg hs hp hh hcopies hmx

theorem faultReplay_consumes : exec (.faultReplay gid) s = .next (tick (consumeWord s gid g)) :=
  faultReplay_of_posted hg hs hp hh (engineEntry_of_unfaulted hcopies hmx)

include hrel

/-- R274: a retry of nothing consumes the word and no more. -/
theorem faultReplay_retry_nothing (hst : bits g.resWord 17 16 = 0) (hparks : g.parks = []) :
    exec (.faultReplay gid) s = .next (tick (setResWord s gid (consumedWord g.resWord))) := by
  have hw := group_setResWord hg (consumedWord g.resWord)
  rw [faultReplay_consumes hg hs hp hh hcopies hmx, consumeWord_retry hcopies hmx hrel hg hst (by simp [hparks]),
    replayAll_of_noParks hw ((withWord_parks ..).trans hparks)]

/-- R271, R274: a retry lets a parked fetch go. -/
theorem faultReplay_retry_fetch {p : Park} (hparks : g.parks = [p]) (hc : p.cause = .fault) (hop : p.acc.op = .fetch) (hrec : p.acc.record = none)
    (hst : bits g.resWord 17 16 = 0) : ∃ t h, exec (.faultReplay gid) s = .next t ∧
      t.group? gid = some h ∧ h.parks = [] ∧ h.posted = false ∧ h.outstanding = false ∧ h.s = g.s ∧ h.v = g.v := by
  obtain ⟨w, hword, hpost, hout⟩ := exists_consumedWord g
  have hw := group_setResWord hg w
  have hdrop := group_dropPark hw 0
  have hconsume := consumeWord_retry hcopies hmx hrel hg hst (by simpa [hparks] using hrec)
  rw [hword, replayAll_of_fetch hw (by simpa using live_of_seated hs) (by simpa using hh) (by simpa using hparks) hc hop] at hconsume
  rw [← hconsume] at hdrop
  exact ⟨_, _, faultReplay_consumes hg hs hp hh hcopies hmx, hdrop, by simp [hparks], hpost, hout, rfl, rfl⟩

/-- R274, R275: a protection status while another gang's run is in progress traps the parked gang once it is picked. -/
theorem faultReplay_protection_busy {p : Park} (hparks : g.parks = [p]) (hc : p.cause = .fault) (hop : p.acc.op = .fetch) (hstep : p.step = none)
    (hst : bits g.resWord 17 16 = 1) (hk : g.entryKind < 2) (hrun : g.run.isSome = true) : ∃ t h q, exec (.faultReplay gid) s = .next t ∧
      t.group? gid = some h ∧ h.run = g.run ∧ h.parks = [q] ∧ q.cause = .done ∧ q.run = p.run ∧ ∃ e, q.trap = some e ∧ e.code = 0x05 ∧ e.async = false := by
  obtain ⟨w, hword, -, hout⟩ := exists_consumedWord g
  have htrap := group_trapPark_busy (i := 0) (e := trapProtection p.acc) (group_setResWord hg w) (by simpa using hrun) hout hop hstep
  have hconsume := consumeWord_protection hcopies hmx hrel hg hst hk (firstFault_single hparks hc)
  rw [hword] at hconsume
  rw [← hconsume] at htrap
  exact ⟨_, _, { p with cause := .done, trap := some (trapProtection p.acc) }, faultReplay_consumes hg hs hp hh hcopies hmx, htrap, rfl,
    by simp [hparks, listSet, readied], rfl, rfl, _, rfl, rfl, rfl⟩

/-- R274, R275, R429: a protection status with no run in progress sends the parked gang's group to its handler. -/
theorem faultReplay_protection_idle {p : Park} {c : Code} (hparks : g.parks = [p]) (hc : p.cause = .fault) (hop : p.acc.op = .fetch) (hstep : p.step = none)
    (hst : bits g.resWord 17 16 = 1) (hk : g.entryKind < 2) (hrun : g.run = none)
    (hd : handlerOf s (s.kernel g.kernel).part (s.kernel g.kernel).asid (s.kernel g.kernel).prot = some c)
    (ha : (walkNow s (s.kernel g.kernel).asid (s.blockVa g + 0x348)).1 = .absent) : ∃ t h, exec (.faultReplay gid) s = .next t ∧
      t.group? gid = some h ∧ h.parks = [] ∧ h.inHandler = true ∧ bits (wordAt h.frame 1) 7 0 = 0x05 ∧
      wordAt h.frame 2 = 5 ∧ (wordAt h.frame 0).toNat = bits p.acc.pc 59 0 := by
  obtain ⟨w, hword, -, hout⟩ := exists_consumedWord g
  have hconsume := consumeWord_protection hcopies hmx hrel hg hst hk (firstFault_single hparks hc)
  rw [hword, setResWord_of_absent hg w ha] at hconsume
  obtain ⟨h, site, htrap, hleft, hin, hframe, hpc⟩ := group_trapPark_idle (i := 0) (e := trapProtection p.acc) (Laws.group_setGroup s gid (withWord g w))
    ((withWord_run ..).trans hrun) hout hop hstep ((withWord_inHandler ..).trans hh) ((handlerOf_setGroup ..).trans hd)
  rw [← hconsume] at htrap
  refine ⟨_, h, faultReplay_consumes hg hs hp hh hcopies hmx, htrap, by simp [hleft, hparks], hin, ?_⟩
  rw [hframe, trapFrame_code, trapFrame_detail, trapFrame_pc, hpc]
  exact ⟨rfl, rfl, rfl⟩

omit hrel in
/-- R274, R445: any other status kills. -/
theorem faultReplay_kill (hst : 2 ≤ bits g.resWord 17 16) :
    ∃ t h, exec (.faultReplay gid) s = .next t ∧ t.group? gid = some h ∧ h.place = .killed ∧ h.killCode = 6 := by
  obtain ⟨h, hkill, hplace, hcode⟩ := group_consumeWord_kill hg (live_of_seated hs) hst
  exact ⟨_, h, faultReplay_consumes hg hs hp hh hcopies hmx, hkill, hplace, hcode⟩

end Status

/-- Settles O49: it holds, each clause by its lemma above; a fill's page comes from the translation that it makes. -/
theorem faultsAndRepliesResume : Obligations.FaultsAndRepliesResume := by
  unfold Obligations.FaultsAndRepliesResume
  refine ⟨heldFaultEntry_clauses, fun s gid g hg => ⟨contextCacheFill_of_noMiss hg,
    fun n hn => ⟨contextCacheFill_of_moving hg hn, fun hv => ⟨?_, fun hf => ?_⟩⟩,
    faultReplay_of_dead hg, faultReplay_of_unposted hg, fun hs hp hh hcopies hmx hrel => ⟨?_, ?_, ?_, ?_, ?_⟩⟩⟩
  · exact fun f => contextCacheFill_of_frame hg hn hv
  · have hpair {x : Xlat} (hx : (Machine.translate s g.core (s.kernel g.kernel).asid (lineVa s g n)).2 = x) :
        Machine.translate s g.core (s.kernel g.kernel).asid (lineVa s g n) = ((Machine.translate s g.core (s.kernel g.kernel).asid (lineVa s g n)).1, x) := by
      rw [← hx]
    exact ⟨fun a pa hx => contextCacheFill_of_walk hg hn hv hf (hpair hx), fun v hx => contextCacheFill_of_walk hg hn hv hf (hpair hx),
      fun hx => contextCacheFill_of_walk hg hn hv hf (hpair hx), fun hx => contextCacheFill_of_absent hg hn hv hf (hpair hx)⟩
  · exact faultReplay_retry_nothing hg hs hp hh hcopies hmx hrel
  · exact fun p hparks hc hop => faultReplay_retry_fetch hg hs hp hh hcopies hmx hrel hparks hc hop
  · exact fun p hparks hc hop => faultReplay_protection_busy hg hs hp hh hcopies hmx hrel hparks hc hop
  · exact fun p c hparks hc hop hstep hst hk hrun => faultReplay_protection_idle hg hs hp hh hcopies hmx hrel hparks hc hop hstep hst hk hrun
  · exact faultReplay_kill hg hs hp hh hcopies hmx

end Sys2Proof.Proofs
end

section
/-! # Decoding an encoded instruction (O28)

The decoder looks at an instruction's opcode byte, picks the shape of the word, and reads each field with the getter that is inverse to the encoder's
byte (`Laws/Encode.lean`). So there is one lemma for each layout's fields, one for each shape, and the words whose fields are no whole bytes are read one
by one; the instruction that a word gives is then completed by the prefixing word. -/

namespace Sys2Proof.Proofs

open Sys2Proof Sys2Proof.Laws

/-! ### Fields of the layouts (R32) -/

/-- A read that succeeds hands its value on. -/
@[simp] theorem ok_bind {ε α β : Type} (a : α) (f : α → Except ε β) : (Except.ok a >>= f) = f a := rfl

@[simp] theorem pure_ok {ε α : Type} (a : α) : (pure a : Except ε α) = .ok a := rfl

@[simp] theorem getZero_zero {n : Nat} : getZero 0#n = .ok () := if_pos rfl

section Layouts

variable {op d a b : BitVec 8} {lo n : Nat}

theorem slice_wRRR_op : (wRRR op d a b).extractLsb' 24 8 = op := by
  simp only [Nat.reduceLeDiff, Nat.reduceSub, wRRR, BitVec.extractLsb'_append_eq_of_le, ex_self]

theorem slice_wRRR_d (h : 16 ≤ lo) (hn : lo + n ≤ 24) : (wRRR op d a b).extractLsb' lo n = d.extractLsb' (lo - 16) n := by
  simp (disch := omega) only [wRRR, BitVec.extractLsb'_append_eq_of_le, BitVec.extractLsb'_append_eq_of_add_le, Nat.sub_sub]

theorem slice_wRRR_a (h : 8 ≤ lo) (hn : lo + n ≤ 16) : (wRRR op d a b).extractLsb' lo n = a.extractLsb' (lo - 8) n := by
  simp (disch := omega) only [wRRR, BitVec.extractLsb'_append_eq_of_le, BitVec.extractLsb'_append_eq_of_add_le]

theorem slice_wRRR_b (hn : lo + n ≤ 8) : (wRRR op d a b).extractLsb' lo n = b.extractLsb' lo n := by
  simp (disch := omega) only [wRRR, BitVec.extractLsb'_append_eq_of_add_le]

@[simp] theorem fD_wRRR : fD (wRRR op d a b) = d := (slice_wRRR_d le_rfl le_rfl).trans BitVec.extractLsb'_eq_self

@[simp] theorem fA_wRRR : fA (wRRR op d a b) = a := (slice_wRRR_a le_rfl le_rfl).trans BitVec.extractLsb'_eq_self

@[simp] theorem fB_wRRR : fB (wRRR op d a b) = b := (slice_wRRR_b le_rfl).trans BitVec.extractLsb'_eq_self

variable {imm : BitVec 16}

theorem slice_w16_op : (w16 op d imm).extractLsb' 24 8 = op := by
  simp only [Nat.reduceLeDiff, Nat.reduceSub, w16, BitVec.extractLsb'_append_eq_of_le, ex_self]

@[simp] theorem fD_w16 : fD (w16 op d imm) = d := by
  simp only [Nat.reduceLeDiff, Nat.reduceSub, fD, w16, BitVec.extractLsb'_append_eq_of_le, BitVec.extractLsb'_append_eq_of_add_le, ex_self]

@[simp] theorem f16_w16 : f16 (w16 op d imm) = imm := by
  simp only [Nat.reduceLeDiff, f16, w16, BitVec.extractLsb'_append_eq_of_add_le, ex_self]

theorem slice_w16_imm (hn : lo + n ≤ 16) : (w16 op d imm).extractLsb' lo n = imm.extractLsb' lo n := by
  simp (disch := omega) only [w16, BitVec.extractLsb'_append_eq_of_add_le]

variable {x : BitVec 24}

@[simp] theorem slice_w24_op : (w24 op x).extractLsb' 24 8 = op := by
  simp only [Nat.reduceLeDiff, Nat.reduceSub, w24, BitVec.extractLsb'_append_eq_of_le, ex_self]

@[simp] theorem f24_w24 : f24 (w24 op x) = x := by
  simp only [Nat.reduceLeDiff, f24, w24, BitVec.extractLsb'_append_eq_of_add_le, ex_self]

variable {p : PReg} {cond : BitVec 5}

theorem slice_wCmp_op : (wCmp op p cond a b).extractLsb' 24 8 = op := by
  simp only [Nat.reduceLeDiff, Nat.reduceSub, wCmp, BitVec.extractLsb'_append_eq_of_le, ex_self]

@[simp] theorem fA_wCmp : fA (wCmp op p cond a b) = a := by
  simp only [Nat.reduceLeDiff, Nat.reduceSub, fA, wCmp, BitVec.extractLsb'_append_eq_of_le, BitVec.extractLsb'_append_eq_of_add_le, ex_self]

@[simp] theorem fB_wCmp : fB (wCmp op p cond a b) = b := by
  simp only [Nat.reduceLeDiff, fB, wCmp, BitVec.extractLsb'_append_eq_of_add_le, ex_self]

@[simp] theorem f3_wCmp : f3 (wCmp op p cond a b) 21 = p := by
  simp only [Nat.reduceLeDiff, Nat.reduceSub, f3, wCmp, BitVec.extractLsb'_append_eq_of_le, BitVec.extractLsb'_append_eq_of_add_le, ex_self,
    pByte3_fin]

@[simp] theorem slice_wCmp_cond : (wCmp op p cond a b).extractLsb' 16 5 = cond := by
  simp only [Nat.reduceLeDiff, Nat.reduceSub, wCmp, BitVec.extractLsb'_append_eq_of_le, BitVec.extractLsb'_append_eq_of_add_le, ex_self]

variable {grid : Bool} {cnt : Option UReg} {num : Fin 16}

theorem slice_wBar_op : (wBar op p grid cnt num).extractLsb' 24 8 = op := by
  simp only [Nat.reduceLeDiff, Nat.reduceSub, wBar, BitVec.extractLsb'_append_eq_of_le, ex_self]

@[simp] theorem barReserved_wBar : barReserved (wBar op p grid cnt num) = .ok () := by
  simp only [Nat.reduceLeDiff, Nat.reduceSub, barReserved, wBar, BitVec.extractLsb'_append_eq_of_le, BitVec.extractLsb'_append_eq_of_add_le, ex_self,
    getZero_zero, ok_bind]

@[simp] theorem fA_wBar : fA (wBar op p grid cnt num) = cntByte cnt := by
  simp only [Nat.reduceLeDiff, Nat.reduceSub, fA, wBar, BitVec.extractLsb'_append_eq_of_le, BitVec.extractLsb'_append_eq_of_add_le, ex_self]

@[simp] theorem slice_wBar_p : (wBar op p grid cnt num).extractLsb' 21 3 = pByte3 p := by
  simp only [Nat.reduceLeDiff, Nat.reduceSub, wBar, BitVec.extractLsb'_append_eq_of_le, BitVec.extractLsb'_append_eq_of_add_le, ex_self]

@[simp] theorem f4_wBar : f4 (wBar op p grid cnt num) 4 = num := by
  simp only [Nat.reduceLeDiff, Nat.reduceSub, f4, wBar, BitVec.extractLsb'_append_eq_of_le, BitVec.extractLsb'_append_eq_of_add_le, ex_self, nib_fin]

@[simp] theorem getLsbD_wBar : (wBar op p grid cnt num).getLsbD 20 = grid := by
  rw [lsb_ofBool]
  simp only [Nat.reduceLeDiff, Nat.reduceSub, wBar, BitVec.extractLsb'_append_eq_of_le, BitVec.extractLsb'_append_eq_of_add_le, ex_self, ofBool0]

end Layouts

/-! ### The opcode (R40) -/

/-- The instruction of a word whose opcode byte is known. -/
def decodeOp (op : BitVec 8) (w : W32) : Except DecodeError Instr :=
  match op.toNat / 16 with
  | 0 => decode0 w (op.toNat % 16)
  | 1 => decode1 w (op.toNat % 16)
  | 2 => decode2 w (op.toNat % 16)
  | 3 => decode3 w (op.toNat % 16)
  | 4 => decode4 w (op.toNat % 16)
  | 5 => decode5 w (op.toNat % 16)
  | 6 => decode6 w (op.toNat % 16)
  | 7 => decode7 w (op.toNat % 16)
  | 8 => decode8 w (op.toNat % 16)
  | 9 => decode9 w (op.toNat % 16)
  | 10 => decodeA w (op.toNat % 16)
  | 11 => decodeB w (op.toNat % 16)
  | 12 => decodeC w (op.toNat % 16)
  | 13 => decodeD w (op.toNat % 16)
  | 14 => decodeE w (op.toNat % 16)
  | 15 => decodeF w (op.toNat % 16)
  | _ => .ok (.reservedOpcode (w.extractLsb' 24 8) (f24 w))

theorem decodeWord_of_op {w : W32} {op : BitVec 8} (h : w.extractLsb' 24 8 = op) : decodeWord w = decodeOp op w := by
  obtain ⟨hhi, hlo, -⟩ := op_bits w
  subst h
  rw [decodeWord, hhi, hlo]
  rfl

theorem decodeWord_wRRR {op d a b : BitVec 8} : decodeWord (wRRR op d a b) = decodeOp op (wRRR op d a b) := decodeWord_of_op slice_wRRR_op

theorem decodeWord_w16 {op d : BitVec 8} {imm : BitVec 16} : decodeWord (w16 op d imm) = decodeOp op (w16 op d imm) := decodeWord_of_op slice_w16_op

theorem decodeWord_w24 {op : BitVec 8} {x : BitVec 24} : decodeWord (w24 op x) = decodeOp op (w24 op x) := decodeWord_of_op slice_w24_op

theorem decodeWord_wCmp {op a b : BitVec 8} {p : PReg} {cond : BitVec 5} : decodeWord (wCmp op p cond a b) = decodeOp op (wCmp op p cond a b) :=
  decodeWord_of_op slice_wCmp_op

theorem decodeWord_wBar {op : BitVec 8} {p : PReg} {grid : Bool} {cnt : Option UReg} {num : Fin 16} :
    decodeWord (wBar op p grid cnt num) = decodeOp op (wBar op p grid cnt num) :=
  decodeWord_of_op slice_wBar_op

theorem decodeOp_reserved {op : BitVec 8} (h : reservedOpcodes.contains op.toNat = true) (w : W32) :
    decodeOp op w = .ok (.reservedOpcode (w.extractLsb' 24 8) (f24 w)) := by
  have key : ∀ n ∈ reservedOpcodes, decodeOp (BitVec.ofNat 8 n) w = .ok (.reservedOpcode (w.extractLsb' 24 8) (f24 w)) := by
    intro n hn
    fin_cases hn <;> rfl
  simpa using key op.toNat (by simpa using h)

/-- A prefixing word's own opcode is no instruction's (R50, R51). -/
theorem decodeWord_prefix {w : W32} (h : bits w 31 24 = 0xF2 ∨ bits w 31 24 = 0xF3) : decodeWord w = .error .misplaced := by
  have hop := (op_bits w).2.2
  rcases h with h | h
  · exact decodeWord_of_op (BitVec.eq_of_toNat_eq (hop.symm.trans h) : w.extractLsb' 24 8 = 0xF2)
  · exact decodeWord_of_op (BitVec.eq_of_toNat_eq (hop.symm.trans h) : w.extractLsb' 24 8 = 0xF3)

/-! ### Getters with a condition (R36, R188, R404) -/

theorem getEvenSrc_toByte {a : Src} (h : a.even = true) : getEvenSrc a.toByte = .ok a := by
  rw [getEvenSrc, getSrc_toByte, ok_bind, if_pos h]

theorem getEvenDst_toByte {d : Dst} (h : d.even = true) : getEvenDst d.toByte = .ok d := by
  rw [getEvenDst, getDst_toByte, ok_bind, if_pos h]

theorem getEvenU_uByte {n : UReg} (h : evenU n = true) : getEvenU (uByte n) = .ok n := by
  rw [getEvenU, getU_uByte, ok_bind, if_pos h]

theorem getU3_uByte {n : UReg} (h : n.val ≤ 61) : getU3 (uByte n) = .ok n := by
  rw [getU3, getU_uByte, ok_bind, if_pos h]

theorem getU4_uByte {n : UReg} (h : n.val ≤ 60) : getU4 (uByte n) = .ok n := by
  rw [getU4, getU_uByte, ok_bind, if_pos h]

theorem getBelow_of_lt {n k : Nat} {b : BitVec n} (h : b.toNat < k) : getBelow b k = .ok b := if_pos h

theorem getCvtSrc_of_ok {b : BitVec 5} (h : cvtSrcOk b = true) : getCvtSrc b = .ok b := if_pos h

theorem getCount_of_ok {b : BitVec 8} (h : countOk b = true) : getCount b = .ok b := if_pos h

theorem getSetb_w16 {op : BitVec 8} (src : SetbSrc) : getSetb (w16 op src.toByte src.immBits) = .ok (.setb src) := by
  cases src with
  | imm v => simp [getSetb, SetbSrc.toByte, SetbSrc.immBits]
  | reg n =>
    have hbyte : (BitVec.ofNat 8 (0x80 + n.val)).toNat = 0x80 + n.val := by
      rw [BitVec.toNat_ofNat]
      omega
    have hne : BitVec.ofNat 8 (0x80 + n.val) ≠ 0#8 := fun e => by
      rw [e, BitVec.toNat_ofNat] at hbyte
      omega
    simp [getSetb, SetbSrc.toByte, SetbSrc.immBits, hne, hbyte]

theorem pByte3_zero : pByte3 0 = 0#3 := rfl

theorem getFull_none : getFull (cntByte none) = .ok () := rfl

/-! ### Shapes of the words whose fields are whole bytes (R32, R41) -/

section Shapes

variable {op : BitVec 8}

theorem shapeZZZ_wRRR (mk : Instr) : shapeZZZ mk (wRRR op 0 0 0) = .ok mk := by
  simp [shapeZZZ]

theorem shapeZSrcZ_wRRR (mk : Src → Instr) {a : Src} : shapeZSrcZ mk (wRRR op 0 a.toByte 0) = .ok (mk a) := by
  simp [shapeZSrcZ, getSrc_toByte]

theorem shapeZUZ_wRRR (mk : UReg → Instr) {a : UReg} : shapeZUZ mk (wRRR op 0 (uByte a) 0) = .ok (mk a) := by
  simp [shapeZUZ, getU_uByte]

theorem shapeDstSrcSrc_wRRR (mk : Dst → Src → Src → Instr) {d : Dst} {a b : Src} :
    shapeDstSrcSrc mk (wRRR op d.toByte a.toByte b.toByte) = .ok (mk d a b) := by
  simp [shapeDstSrcSrc, getDst_toByte, getSrc_toByte]

theorem shapeDstSrcZ_wRRR (mk : Dst → Src → Instr) {d : Dst} {a : Src} : shapeDstSrcZ mk (wRRR op d.toByte a.toByte 0) = .ok (mk d a) := by
  simp [shapeDstSrcZ, getDst_toByte, getSrc_toByte]

theorem shapeEdstEsrcSrc_wRRR (mk : Dst → Src → Src → Instr) {d : Dst} {a b : Src} (hd : d.even = true) (ha : a.even = true) :
    shapeEdstEsrcSrc mk (wRRR op d.toByte a.toByte b.toByte) = .ok (mk d a b) := by
  simp [shapeEdstEsrcSrc, getSrc_toByte, getEvenDst_toByte hd, getEvenSrc_toByte ha]

theorem shapeEdstEsrcEsrc_wRRR (mk : Dst → Src → Src → Instr) {d : Dst} {a b : Src} (hd : d.even = true) (ha : a.even = true) (hb : b.even = true) :
    shapeEdstEsrcEsrc mk (wRRR op d.toByte a.toByte b.toByte) = .ok (mk d a b) := by
  simp [shapeEdstEsrcEsrc, getEvenDst_toByte hd, getEvenSrc_toByte ha, getEvenSrc_toByte hb]

theorem shapeUUU_wRRR (mk : UReg → UReg → UReg → Instr) {d a b : UReg} : shapeUUU mk (wRRR op (uByte d) (uByte a) (uByte b)) = .ok (mk d a b) := by
  simp [shapeUUU, getU_uByte]

theorem shapeUUZ_wRRR (mk : UReg → UReg → Instr) {d a : UReg} : shapeUUZ mk (wRRR op (uByte d) (uByte a) 0) = .ok (mk d a) := by
  simp [shapeUUZ, getU_uByte]

theorem shapeDstUZ_wRRR (mk : Dst → UReg → Instr) {d : Dst} {a : UReg} : shapeDstUZ mk (wRRR op d.toByte (uByte a) 0) = .ok (mk d a) := by
  simp [shapeDstUZ, getDst_toByte, getU_uByte]

theorem shapeEuUU_wRRR (mk : UReg → UReg → UReg → Instr) {d a b : UReg} (hd : evenU d = true) :
    shapeEuUU mk (wRRR op (uByte d) (uByte a) (uByte b)) = .ok (mk d a b) := by
  simp [shapeEuUU, getU_uByte, getEvenU_uByte hd]

theorem shapeUSrcZ_wRRR (mk : UReg → Src → Instr) {d : UReg} {a : Src} : shapeUSrcZ mk (wRRR op (uByte d) a.toByte 0) = .ok (mk d a) := by
  simp [shapeUSrcZ, getU_uByte, getSrc_toByte]

theorem shapeDstVfZ_wRRR (mk : Dst → VFirst → Instr) {d : Dst} {a : VFirst} : shapeDstVfZ mk (wRRR op d.toByte (vfByte a) 0) = .ok (mk d a) := by
  simp [shapeDstVfZ, getDst_toByte, getVFirst_vfByte]

theorem shapeDstVfSrc_wRRR (mk : Dst → VFirst → Src → Instr) {d : Dst} {a : VFirst} {b : Src} :
    shapeDstVfSrc mk (wRRR op d.toByte (vfByte a) b.toByte) = .ok (mk d a b) := by
  simp [shapeDstVfSrc, getDst_toByte, getVFirst_vfByte, getSrc_toByte]

theorem shapeVfSrcSrc_wRRR (mk : VFirst → Src → Src → Instr) {d : VFirst} {a b : Src} :
    shapeVfSrcSrc mk (wRRR op (vfByte d) a.toByte b.toByte) = .ok (mk d a b) := by
  simp [shapeVfSrcSrc, getVFirst_vfByte, getSrc_toByte]

theorem shapeVfEuTile_wRRR (mk : VFirst → UReg → TileNo → Instr) {d : VFirst} {a : UReg} {b : TileNo} (ha : evenU a = true) :
    shapeVfEuTile mk (wRRR op (vfByte d) (uByte a) (tileByte b)) = .ok (mk d a b) := by
  simp [shapeVfEuTile, getVFirst_vfByte, getTile_tileByte, getEvenU_uByte ha]

theorem shapeTileEuTile_wRRR (mk : TileNo → UReg → TileNo → Instr) {d : TileNo} {a : UReg} {b : TileNo} (ha : evenU a = true) :
    shapeTileEuTile mk (wRRR op (tileByte d) (uByte a) (tileByte b)) = .ok (mk d a b) := by
  simp [shapeTileEuTile, getTile_tileByte, getEvenU_uByte ha]

theorem shapeUZZ_wRRR (mk : UReg → Instr) {d : UReg} : shapeUZZ mk (wRRR op (uByte d) 0 0) = .ok (mk d) := by
  simp [shapeUZZ, getU_uByte]

theorem shapeTileURec_wRRR (mk : TileNo → UReg → RecNo → Instr) {d : TileNo} {a : UReg} {b : RecNo} :
    shapeTileURec mk (wRRR op (tileByte d) (uByte a) (recByte b)) = .ok (mk d a b) := by
  simp [shapeTileURec, getTile_tileByte, getU_uByte, getRec_recByte]

theorem shapeEuSrcU_wRRR (mk : UReg → Src → UReg → Instr) {d : UReg} {a : Src} {b : UReg} (hd : evenU d = true) :
    shapeEuSrcU mk (wRRR op (uByte d) a.toByte (uByte b)) = .ok (mk d a b) := by
  simp [shapeEuSrcU, getSrc_toByte, getU_uByte, getEvenU_uByte hd]

theorem shapeVfEuSrc_wRRR (mk : VFirst → UReg → Src → Instr) {d : VFirst} {a : UReg} {b : Src} (ha : evenU a = true) :
    shapeVfEuSrc mk (wRRR op (vfByte d) (uByte a) b.toByte) = .ok (mk d a b) := by
  simp [shapeVfEuSrc, getVFirst_vfByte, getSrc_toByte, getEvenU_uByte ha]

theorem shapeDstSrcRt_wRRR (mk : Dst → Src → RT → Instr) {d : Dst} {a : Src} {b : RT} :
    shapeDstSrcRt mk (wRRR op d.toByte a.toByte b.toByte) = .ok (mk d a b) := by
  simp [shapeDstSrcRt, getDst_toByte, getSrc_toByte, getRT_toByte]

theorem shapeSrcSrcRt_wRRR (mk : Src → Src → RT → Instr) {d a : Src} {b : RT} :
    shapeSrcSrcRt mk (wRRR op d.toByte a.toByte b.toByte) = .ok (mk d a b) := by
  simp [shapeSrcSrcRt, getSrc_toByte, getRT_toByte]

theorem shapeSrcEsrcZ_wRRR (mk : Src → Src → Instr) {d a : Src} (ha : a.even = true) :
    shapeSrcEsrcZ mk (wRRR op d.toByte a.toByte 0) = .ok (mk d a) := by
  simp [shapeSrcEsrcZ, getSrc_toByte, getEvenSrc_toByte ha]

theorem shapeUSrcRec_wRRR (mk : UReg → Src → RecNo → Instr) {d : UReg} {a : Src} {b : RecNo} :
    shapeUSrcRec mk (wRRR op (uByte d) a.toByte (recByte b)) = .ok (mk d a b) := by
  simp [shapeUSrcRec, getU_uByte, getSrc_toByte, getRec_recByte]

theorem shapeTileUZ_wRRR (mk : TileNo → UReg → Instr) {d : TileNo} {a : UReg} : shapeTileUZ mk (wRRR op (tileByte d) (uByte a) 0) = .ok (mk d a) := by
  simp [shapeTileUZ, getTile_tileByte, getU_uByte]

theorem shapeTileZZ_wRRR (mk : TileNo → Instr) {d : TileNo} : shapeTileZZ mk (wRRR op (tileByte d) 0 0) = .ok (mk d) := by
  simp [shapeTileZZ, getTile_tileByte]

theorem shapeUTileZ_wRRR (mk : UReg → TileNo → Instr) {d : UReg} {a : TileNo} : shapeUTileZ mk (wRRR op (uByte d) (tileByte a) 0) = .ok (mk d a) := by
  simp [shapeUTileZ, getU_uByte, getTile_tileByte]

theorem shapeDstSrcTile_wRRR (mk : Dst → Src → TileNo → Instr) {d : Dst} {a : Src} {b : TileNo} :
    shapeDstSrcTile mk (wRRR op d.toByte a.toByte (tileByte b)) = .ok (mk d a b) := by
  simp [shapeDstSrcTile, getDst_toByte, getSrc_toByte, getTile_tileByte]

theorem shapeVfSrcTile_wRRR (mk : VFirst → Src → TileNo → Instr) {d : VFirst} {a : Src} {b : TileNo} :
    shapeVfSrcTile mk (wRRR op (vfByte d) a.toByte (tileByte b)) = .ok (mk d a b) := by
  simp [shapeVfSrcTile, getVFirst_vfByte, getSrc_toByte, getTile_tileByte]

theorem shapeSrcSrcTile_wRRR (mk : Src → Src → TileNo → Instr) {d a : Src} {b : TileNo} :
    shapeSrcSrcTile mk (wRRR op d.toByte a.toByte (tileByte b)) = .ok (mk d a b) := by
  simp [shapeSrcSrcTile, getSrc_toByte, getTile_tileByte]

theorem shapeVfSrcRt_wRRR (mk : VFirst → Src → RT → Instr) {d : VFirst} {a : Src} {b : RT} :
    shapeVfSrcRt mk (wRRR op (vfByte d) a.toByte b.toByte) = .ok (mk d a b) := by
  simp [shapeVfSrcRt, getVFirst_vfByte, getSrc_toByte, getRT_toByte]

theorem shapeEuSrcRt_wRRR (mk : UReg → Src → RT → Instr) {d : UReg} {a : Src} {b : RT} (hd : evenU d = true) :
    shapeEuSrcRt mk (wRRR op (uByte d) a.toByte b.toByte) = .ok (mk d a b) := by
  simp [shapeEuSrcRt, getSrc_toByte, getRT_toByte, getEvenU_uByte hd]

theorem shapeZU3Z_wRRR (mk : UReg → Instr) {a : UReg} (ha : a.val ≤ 61) : shapeZU3Z mk (wRRR op 0 (uByte a) 0) = .ok (mk a) := by
  simp [shapeZU3Z, getU3_uByte ha]

theorem shapeZU3Src_wRRR (mk : UReg → Src → Instr) {a : UReg} {b : Src} (ha : a.val ≤ 61) :
    shapeZU3Src mk (wRRR op 0 (uByte a) b.toByte) = .ok (mk a b) := by
  simp [shapeZU3Src, getSrc_toByte, getU3_uByte ha]

theorem shapeU4ZZ_wRRR (mk : UReg → Instr) {d : UReg} (hd : d.val ≤ 60) : shapeU4ZZ mk (wRRR op (uByte d) 0 0) = .ok (mk d) := by
  simp [shapeU4ZZ, getU4_uByte hd]

theorem shapeZU4Z_wRRR (mk : UReg → Instr) {a : UReg} (ha : a.val ≤ 60) : shapeZU4Z mk (wRRR op 0 (uByte a) 0) = .ok (mk a) := by
  simp [shapeZU4Z, getU4_uByte ha]

theorem shapeZTileZ_wRRR (mk : TileNo → Instr) {a : TileNo} : shapeZTileZ mk (wRRR op 0 (tileByte a) 0) = .ok (mk a) := by
  simp [shapeZTileZ, getTile_tileByte]

theorem shapeZUU_wRRR (mk : UReg → UReg → Instr) {a b : UReg} : shapeZUU mk (wRRR op 0 (uByte a) (uByte b)) = .ok (mk a b) := by
  simp [shapeZUU, getU_uByte]

theorem shapeRawRawRaw_wRRR (mk : BitVec 8 → BitVec 8 → BitVec 8 → Instr) {d a b : BitVec 8} :
    shapeRawRawRaw mk (wRRR op d a b) = .ok (mk d a b) := by
  rw [shapeRawRawRaw, fD_wRRR, fA_wRRR, fB_wRRR]
  rfl


end Shapes

theorem shapeCmp_wCmp (mk : PReg → BitVec 5 → Src → Src → Instr) {op : BitVec 8} {p : PReg} {cond : BitVec 5} {a b : Src} :
    shapeCmp mk (wCmp op p cond a.toByte b.toByte) = .ok (mk p cond a b) := by
  simp [shapeCmp, getSrc_toByte]

/-! ### The layouts of one instruction (R108, R216, R303, R374, R93) -/

theorem decodeWord_pset {p pa pb : PReg} {f : BitVec 4} :
    decodeWord (0x2C#8 ++ pByte3 p ++ 0#1 ++ f ++ 0#5 ++ pByte3 pa ++ 0#5 ++ pByte3 pb : BitVec 32) = .ok (.pset p f pa pb) := by
  refine (decodeWord_of_op (op := 0x2C) ?_).trans ?_
  ·  simp only [Nat.reduceLeDiff, Nat.reduceSub, BitVec.extractLsb'_append_eq_of_le, ex_self, BitVec.ofNat_eq_ofNat]
  ·  simp only [Nat.reduceLeDiff, Nat.reduceSub, decodeOp, BitVec.reduceToNat, Nat.reduceDiv, Nat.reduceMod, decode2, f3, pByte3_fin, getZero_zero,
      BitVec.extractLsb'_append_eq_of_le, BitVec.extractLsb'_append_eq_of_add_le, ex_self, ok_bind, pure_ok]

theorem decodeWord_vote {p src : PReg} {comb kind : BitVec 2} (h : kind.toNat < 3) :
    decodeWord (0x83#8 ++ pByte3 p ++ comb ++ 0#1 ++ kind ++ 0#5 ++ pByte3 src ++ 0#8 : BitVec 32) = .ok (.vote p comb kind src) := by
  refine (decodeWord_of_op (op := 0x83) ?_).trans ?_
  ·  simp only [Nat.reduceLeDiff, Nat.reduceSub, BitVec.extractLsb'_append_eq_of_le, ex_self, BitVec.ofNat_eq_ofNat]
  ·  simp only [Nat.reduceLeDiff, Nat.reduceSub, decodeOp, BitVec.reduceToNat, Nat.reduceDiv, Nat.reduceMod, decode8, fB, f3, pByte3_fin,
      getZero_zero, getBelow_of_lt h, BitVec.extractLsb'_append_eq_of_le, BitVec.extractLsb'_append_eq_of_add_le, ex_self, ok_bind, pure_ok]

theorem decodeWord_wait {ld st cp mx : BitVec 6} :
    decodeWord (0xC4#8 ++ ld ++ st ++ cp ++ mx : BitVec 32) = .ok (.wait ld st cp mx) := by
  refine (decodeWord_of_op (op := 0xC4) ?_).trans ?_
  ·  simp only [Nat.reduceLeDiff, Nat.reduceSub, BitVec.extractLsb'_append_eq_of_le, ex_self, BitVec.ofNat_eq_ofNat]
  ·  simp only [Nat.reduceLeDiff, Nat.reduceSub, decodeOp, BitVec.reduceToNat, Nat.reduceDiv, Nat.reduceMod, decodeC,
      BitVec.extractLsb'_append_eq_of_le, BitVec.extractLsb'_append_eq_of_add_le, ex_self]

theorem decodeWord_mma {acc : Fin 16} {hA hB : TileNo} {na nb z r pair : Bool} {p : BitVec 3} (h : p.toNat < 5) :
    decodeWord (0xD8#8 ++ nib acc ++ h5 hA ++ h5 hB ++ BitVec.ofBool na ++ BitVec.ofBool nb ++ BitVec.ofBool z ++ BitVec.ofBool r ++ p ++
      BitVec.ofBool pair ++ 0#2 : BitVec 32) = .ok (.mma acc hA hB na nb z r p pair) := by
  refine (decodeWord_of_op (op := 0xD8) ?_).trans ?_
  ·  simp only [Nat.reduceLeDiff, Nat.reduceSub, BitVec.extractLsb'_append_eq_of_le, ex_self, BitVec.ofNat_eq_ofNat]
  ·  simp only [Nat.reduceLeDiff, Nat.reduceSub, decodeOp, BitVec.reduceToNat, Nat.reduceDiv, Nat.reduceMod, decodeD, f4, f5, nib_fin, h5_fin,
      lsb_ofBool (m := 32), ofBool0, getZero_zero, getBelow_of_lt h, BitVec.extractLsb'_append_eq_of_le, BitVec.extractLsb'_append_eq_of_add_le,
      ex_self, ok_bind, pure_ok]

theorem decodeWord_ipref {count : BitVec 4} {off : BitVec 20} :
    decodeWord (0xFC#8 ++ count ++ off : BitVec 32) = .ok (.ipref count off) := by
  refine (decodeWord_of_op (op := 0xFC) ?_).trans ?_
  ·  simp only [Nat.reduceLeDiff, Nat.reduceSub, BitVec.extractLsb'_append_eq_of_le, ex_self, BitVec.ofNat_eq_ofNat]
  ·  simp only [Nat.reduceLeDiff, Nat.reduceSub, decodeOp, BitVec.reduceToNat, Nat.reduceDiv, Nat.reduceMod, decodeF,
      BitVec.extractLsb'_append_eq_of_le, BitVec.extractLsb'_append_eq_of_add_le, ex_self]

/-! ### An instruction's own word -/

/-- The instruction that an instruction's own word stands for, without what prefixes it (R50–R52). -/
def bare : Instr → Instr
  | .movi d imm _ => .movi d imm none
  | .iaddi d a imm _ => .iaddi d a imm none
  | .smovi d imm _ => .smovi d imm none
  | .fadd d a b _ => .fadd d a b none
  | .fsub d a b _ => .fsub d a b none
  | .fmul d a b _ => .fmul d a b none
  | .fma d a b _ => .fma d a b none
  | .ffma d a b _ => .ffma d a b none
  | .fmin d a b _ => .fmin d a b none
  | .fmax d a b _ => .fmax d a b none
  | .fcmp p c a b _ => .fcmp p c a b none
  | .fdot2 d a b _ => .fdot2 d a b none
  | .fdot4 d a b _ => .fdot4 d a b none
  | i => i

theorem decodeWord_encodeWord {i : Instr} (h : i.wellFormed = true) : decodeWord (encodeWord i) = .ok (bare i) := by
  cases i with
  | nop | join | ret | regang | exit | yield | rflush | unseat => exact decodeWord_wRRR.trans (shapeZZZ_wRRR _)
  | brx => exact decodeWord_wRRR.trans (shapeZSrcZ_wRRR _)
  | setmr => exact decodeWord_wRRR.trans (shapeZUZ_wRRR _)
  | iadd | isub | imul | imulh | imad | imin | imax | and | or | xor | andn | shl | shr | sar | rotl | bfe | bfi | sel | fadd | fsub | fmul | fma
  | ffma | fmin | fmax | fscale | fdot2 | fdot4 | fcpys | bset | badd | fdivf | shfl =>
    exact decodeWord_wRRR.trans (shapeDstSrcSrc_wRRR _)
  | iabs | clz | popc | brev | mov | frnd | bget | bclr | rcp | rsq | sqrt | exp2 | log2 | sinpi | cospi | tanh | sigm =>
    exact decodeWord_wRRR.trans (shapeDstSrcZ_wRRR _)
  | lea64 =>
    obtain ⟨hd, ha⟩ := (Bool.and_eq_true _ _).mp h
    exact decodeWord_wRRR.trans (shapeEdstEsrcSrc_wRRR _ hd ha)
  | iadd64 =>
    obtain ⟨hda, hb⟩ := (Bool.and_eq_true _ _).mp h
    obtain ⟨hd, ha⟩ := (Bool.and_eq_true _ _).mp hda
    exact decodeWord_wRRR.trans (shapeEdstEsrcEsrc_wRRR _ hd ha hb)
  | sadd | ssub | smul | sand | sor | sxor | sshl | sshr | errlog => exact decodeWord_wRRR.trans (shapeUUU_wRRR _)
  | sminmax => exact decodeWord_wRRR.trans (shapeEuUU_wRRR _ h)
  | smov | rdctx => exact decodeWord_wRRR.trans (shapeUUZ_wRRR _)
  | stov => exact decodeWord_wRRR.trans (shapeDstUZ_wRRR _)
  | bmaxr => exact decodeWord_wRRR.trans (shapeUSrcZ_wRRR _)
  | pack => exact decodeWord_wRRR.trans (shapeDstVfZ_wRRR _)
  | qapply => exact decodeWord_wRRR.trans (shapeDstVfSrc_wRRR _)
  | dq => exact decodeWord_wRRR.trans (shapeVfSrcSrc_wRRR _)
  | dech | decz => exact decodeWord_wRRR.trans (shapeVfEuTile_wRRR _ h)
  | decht => exact decodeWord_wRRR.trans (shapeTileEuTile_wRRR _ h)
  | decst => exact decodeWord_wRRR.trans (shapeUZZ_wRRR _)
  | ctab => exact decodeWord_wRRR.trans (shapeTileURec_wRRR _)
  | rwalk => exact decodeWord_wRRR.trans (shapeEuSrcU_wRRR _ h)
  | rnext => exact decodeWord_wRRR.trans (shapeVfEuSrc_wRRR _ h)
  | ld | aadd | aand | aor | axor | amin | amax | axchg | aincw | afadd => exact decodeWord_wRRR.trans (shapeDstSrcRt_wRRR _)
  | st | redadd | redfadd | redmin | redmax | stsig => exact decodeWord_wRRR.trans (shapeSrcSrcRt_wRRR _)
  | stg => exact decodeWord_wRRR.trans (shapeSrcEsrcZ_wRRR _ h)
  | sld | sst => exact decodeWord_wRRR.trans (shapeUSrcRec_wRRR _)
  | talloc => exact decodeWord_wRRR.trans (shapeTileUZ_wRRR _)
  | tfree => exact decodeWord_wRRR.trans (shapeTileZZ_wRRR _)
  | tinfo => exact decodeWord_wRRR.trans (shapeUTileZ_wRRR _)
  | tld | tldx => exact decodeWord_wRRR.trans (shapeDstSrcTile_wRRR _)
  | tst | tfill | tstx => exact decodeWord_wRRR.trans (shapeSrcSrcTile_wRRR _)
  | tldt => exact decodeWord_wRRR.trans (shapeVfSrcTile_wRRR _)
  | acas | aaddb => exact decodeWord_wRRR.trans (shapeVfSrcRt_wRRR _)
  | waita => exact decodeWord_wRRR.trans (shapeEuSrcRt_wRRR _ h)
  | cpy | cpyg | cpys | cpyt | mshape | mscale => exact decodeWord_wRRR.trans (shapeZU3Z_wRRR _ (of_decide_eq_true h))
  | cpyo => exact decodeWord_wRRR.trans (shapeZU3Src_wRRR _ (of_decide_eq_true h))
  | engsv => exact decodeWord_wRRR.trans (shapeU4ZZ_wRRR _ (of_decide_eq_true h))
  | engrs => exact decodeWord_wRRR.trans (shapeZU4Z_wRRR _ (of_decide_eq_true h))
  | msave | mres => exact decodeWord_wRRR.trans (shapeZTileZ_wRRR _)
  | semsig | wrctx => exact decodeWord_wRRR.trans (shapeZUU_wRRR _)
  | lmma3 | llds | lsts | lbar => exact decodeWord_wRRR.trans (shapeRawRawRaw_wRRR _)
  | icmp => exact decodeWord_wCmp.trans (shapeCmp_wCmp _)
  | fcmp => exact decodeWord_wCmp.trans (shapeCmp_wCmp fun p c a b => .fcmp p c a b none)
  -- The low bytes are one immediate.
  | bra | call | setm | hintFd | hintFe | illegalOpcode =>
    refine decodeWord_w24.trans ?_
    simp only [decodeOp, BitVec.reduceToNat, Nat.reduceDiv, Nat.reduceMod, decode0, decodeF, f24_w24, bare]
  | reservedOpcode =>
    refine (decodeWord_w24.trans (decodeOp_reserved h _)).trans ?_
    rw [slice_w24_op, f24_w24]
    rfl
  | loops | brkp | movi | smovi | srdsr | swrsr | trap =>
    refine decodeWord_w16.trans ?_
    simp only [decodeOp, BitVec.reduceToNat, Nat.reduceDiv, Nat.reduceMod, decode0, decode2, decode3, decodeE, BitVec.ofNat_eq_ofNat, fD_w16, f16_w16,
      getZero_zero, getU_uByte, getDst_toByte, ok_bind, pure_ok, bare]
  | iaddi | vtos | fclass | bcst =>
    refine decodeWord_wRRR.trans ?_
    simp only [decodeOp, BitVec.reduceToNat, Nat.reduceDiv, Nat.reduceMod, decode2, decode3, decode4, decode8, fD_wRRR, fA_wRRR, fB_wRRR, getU_uByte,
      getDst_toByte, getSrc_toByte, ok_bind, pure_ok, bare]
  -- The flags and codes of the first byte.
  | bchk | segm | pref | cctl | waitr =>
    refine decodeWord_wRRR.trans ?_
    simp only [Nat.reduceLeDiff, Nat.reduceSub, decodeOp, BitVec.reduceToNat, Nat.reduceDiv, Nat.reduceMod, decode5, decode8, decode9, decodeC,
      BitVec.ofNat_eq_ofNat, fA_wRRR, fB_wRRR, f3, lsb_ofBool (m := 32), slice_wRRR_d, slice_wRRR_b, BitVec.extractLsb'_append_eq_of_le,
      BitVec.extractLsb'_append_eq_of_add_le, ex_self, pByte3_fin, ofBool0, getZero_zero, getU_uByte, getRec_recByte, getSrc_toByte, ok_bind, pure_ok,
      bare]
  -- The flags and codes of the last byte.
  | shi | unpk | shflx | brep | enq | rdtrap | pmc | qblk | fence | pbar =>
    refine decodeWord_wRRR.trans ?_
    simp only [Nat.reduceLeDiff, Nat.reduceSub, decodeOp, BitVec.reduceToNat, Nat.reduceDiv, Nat.reduceMod, decode2, decode5, decode7, decode8,
      decodeC, decodeE, BitVec.ofNat_eq_ofNat, fD_wRRR, fA_wRRR, lsb_ofBool (m := 32), slice_wRRR_b, BitVec.extractLsb'_append_eq_of_le,
      BitVec.extractLsb'_append_eq_of_add_le, ex_self, ofBool0, getZero_zero, getU_uByte, getVFirst_vfByte, getSrc_toByte, getDst_toByte,
      getScope_code, ok_bind, pure_ok, bare]
  | ldg =>
    refine decodeWord_wRRR.trans ?_
    simp only [Nat.reduceLeDiff, Nat.reduceSub, decodeOp, BitVec.reduceToNat, Nat.reduceDiv, Nat.reduceMod, decode9, BitVec.ofNat_eq_ofNat, fD_wRRR,
      fA_wRRR, lsb_ofBool (m := 32), slice_wRRR_b, BitVec.extractLsb'_append_eq_of_le, BitVec.extractLsb'_append_eq_of_add_le, ex_self, ofBool0,
      getZero_zero, getDst_toByte, getEvenSrc_toByte h, ok_bind, pure_ok, bare]
  | tret =>
    refine decodeWord_wRRR.trans ?_
    simp only [Nat.reduceLeDiff, Nat.reduceSub, decodeOp, BitVec.reduceToNat, Nat.reduceDiv, Nat.reduceMod, decodeE, BitVec.ofNat_eq_ofNat, fD_wRRR,
      fA_wRRR, slice_wRRR_b, BitVec.extractLsb'_append_eq_of_le, BitVec.extractLsb'_append_eq_of_add_le, ex_self, getZero_zero,
      getBelow_of_lt (of_decide_eq_true h), ok_bind, pure_ok, bare]
  | redl | scanl =>
    refine decodeWord_wRRR.trans ?_
    simp only [Nat.reduceLeDiff, Nat.reduceSub, decodeOp, BitVec.reduceToNat, Nat.reduceDiv, Nat.reduceMod, decode8, BitVec.ofNat_eq_ofNat, fD_wRRR,
      fA_wRRR, lsb_ofBool (m := 32), f3, slice_wRRR_b, BitVec.extractLsb'_append_eq_of_le, BitVec.extractLsb'_append_eq_of_add_le, ex_self, ofBool0,
      pByte3_fin, getZero_zero, getDst_toByte, getSrc_toByte, getBelow_of_lt (of_decide_eq_true h), ok_bind, pure_ok, bare]
  | cvt =>
    refine decodeWord_wRRR.trans ?_
    simp only [Nat.reduceLeDiff, Nat.reduceSub, decodeOp, BitVec.reduceToNat, Nat.reduceDiv, Nat.reduceMod, decode7, fD_wRRR, fA_wRRR, slice_wRRR_b,
      BitVec.extractLsb'_append_eq_of_le, BitVec.extractLsb'_append_eq_of_add_le, ex_self, getDst_toByte, getSrc_toByte, getCvtSrc_of_ok h, ok_bind,
      pure_ok, bare]
  | ctxdead | ctxpin =>
    refine decodeWord_wRRR.trans ?_
    simp only [Nat.reduceLeDiff, Nat.reduceSub, decodeOp, BitVec.reduceToNat, Nat.reduceDiv, Nat.reduceMod, decodeE, BitVec.ofNat_eq_ofNat, fD_wRRR,
      fA_wRRR, fB_wRRR, lsb_ofBool (m := 32), slice_wRRR_b, BitVec.extractLsb'_append_eq_of_le, BitVec.extractLsb'_append_eq_of_add_le, ex_self,
      ofBool0, getZero_zero, getVFirst_vfByte, getCount_of_ok h, ok_bind, pure_ok, bare]
  -- The fields of the middle byte.
  | ballot | accrd | accwr =>
    refine decodeWord_wRRR.trans ?_
    simp only [Nat.reduceLeDiff, Nat.reduceSub, decodeOp, BitVec.reduceToNat, Nat.reduceDiv, Nat.reduceMod, decode8, decodeD, BitVec.ofNat_eq_ofNat,
      fD_wRRR, fB_wRRR, f3, f4, slice_wRRR_a, BitVec.extractLsb'_append_eq_of_le, BitVec.extractLsb'_append_eq_of_add_le, ex_self, pByte3_fin,
      nib_fin, getZero_zero, getU_uByte, getVFirst_vfByte, ok_bind, pure_ok, bare]
  | recsync | mbatch =>
    refine decodeWord_wRRR.trans ?_
    simp only [decodeOp, BitVec.reduceToNat, Nat.reduceDiv, Nat.reduceMod, decodeA, decodeC, BitVec.ofNat_eq_ofNat, fD_wRRR, fA_wRRR, fB_wRRR,
      getZero_zero, getRecAll_recAllByte, getOptU_optUByte, ok_bind, pure_ok, bare]
  | accz mask =>
    refine decodeWord_wRRR.trans ?_
    have hmask : mask.extractLsb' 8 8 ++ mask.extractLsb' 0 8 = mask :=
      (BitVec.extractLsb'_append_extractLsb'_eq_extractLsb' rfl).trans BitVec.extractLsb'_eq_self
    simp only [decodeOp, BitVec.reduceToNat, Nat.reduceDiv, Nat.reduceMod, decodeD, BitVec.ofNat_eq_ofNat, fD_wRRR, fA_wRRR, fB_wRRR, getZero_zero,
      hmask, ok_bind, pure_ok, bare]
  | flags =>
    refine decodeWord_w16.trans ?_
    simp only [Nat.reduceLeDiff, Nat.reduceSub, decodeOp, BitVec.reduceToNat, Nat.reduceDiv, Nat.reduceMod, decode5, BitVec.ofNat_eq_ofNat, fD_w16,
      slice_w16_imm, BitVec.extractLsb'_append_eq_of_le, BitVec.extractLsb'_append_eq_of_add_le, ex_self, getZero_zero, getU_uByte, ok_bind, pure_ok,
      bare]
  | setb => exact decodeWord_w16.trans (getSetb_w16 _)
  | scmp =>
    refine decodeWord_wCmp.trans ?_
    simp only [decodeOp, BitVec.reduceToNat, Nat.reduceDiv, Nat.reduceMod, decode3, fA_wCmp, fB_wCmp, f3_wCmp, slice_wCmp_cond, getU_uByte, ok_bind,
      pure_ok, bare]
  | bar | bara =>
    refine decodeWord_wBar.trans ?_
    simp only [decodeOp, BitVec.reduceToNat, Nat.reduceDiv, Nat.reduceMod, decodeC, fA_wBar, f3, slice_wBar_p, getLsbD_wBar, f4_wBar,
      barReserved_wBar, pByte3_fin, getCnt_cntByte, pByte3_zero, getZero_zero, ok_bind, pure_ok, bare]
  | barw | bart =>
    refine decodeWord_wBar.trans ?_
    simp only [decodeOp, BitVec.reduceToNat, Nat.reduceDiv, Nat.reduceMod, decodeC, fA_wBar, f3, slice_wBar_p, getLsbD_wBar, f4_wBar,
      barReserved_wBar, pByte3_fin, getFull_none, ok_bind, pure_ok, bare]
  -- Layouts of one instruction.
  | pset => exact decodeWord_pset
  | vote => exact decodeWord_vote (of_decide_eq_true h)
  | wait => exact decodeWord_wait
  | mma => exact decodeWord_mma (of_decide_eq_true h)
  | ipref => exact decodeWord_ipref
  | _ => cases h

/-! ### Prefixed words (R50, R51) -/

theorem decodeCxp_encodeCxp (m : Cxp) : decodeCxp (encodeCxp m) = .ok m := by
  simp only [Nat.reduceLeDiff, Nat.reduceSub, decodeCxp, encodeCxp, fD, lsb_ofBool (m := 32), BitVec.extractLsb'_append_eq_of_le,
    BitVec.extractLsb'_append_eq_of_add_le, ex_self, ofBool0, getZero_zero, getSrc_toByte, ok_bind, pure_ok]

theorem opcode_w24 {op : BitVec 8} {x : BitVec 24} : bits (w24 op x) 31 24 = op.toNat := by
  rw [(op_bits _).2.2, slice_w24_op]

theorem opcode_encodeCxp (m : Cxp) : bits (encodeCxp m) 31 24 = 0xF3 := by
  rw [(op_bits _).2.2]
  simp only [Nat.reduceLeDiff, Nat.reduceSub, encodeCxp, BitVec.extractLsb'_append_eq_of_le, ex_self, BitVec.reduceToNat]

theorem decode_pfx {high : BitVec 24} {w : W32} {i j : Instr} {rest : List W32} (hw : decodeWord w = .ok i) (hj : i.withPfx high = .ok j) :
    decode (w24 0xF2 high :: w :: rest) = .ok (j, rest) := by
  simp [decode, opcode_w24, hw, hj]

theorem decode_cxp {m : Cxp} {w : W32} {i j : Instr} {rest : List W32} (hw : decodeWord w = .ok i) (hj : i.withCxp m = .ok j) :
    decode (encodeCxp m :: w :: rest) = .ok (j, rest) := by
  simp [decode, opcode_encodeCxp, decodeCxp_encodeCxp, hw, hj]

theorem decode_noPrefix {w : W32} {i : Instr} {rest : List W32} (hw : decodeWord w = .ok i) : decode (w :: rest) = .ok (i, rest) := by
  have hop : ¬(bits w 31 24 = 0xF2 ∨ bits w 31 24 = 0xF3) := fun h => by
    rw [decodeWord_prefix h] at hw
    cases hw
  obtain ⟨hpfx, hcxp⟩ := not_or.mp hop
  simp [decode, hpfx, hcxp, hw]

/-- The words of an instruction after its own, and what the prefixing word makes of the instruction that its own word stands for. -/
theorem prefixWord_cases {i : Instr} (h : i.wellFormed = true) :
    (prefixWord i = none ∧ bare i = i) ∨ (∃ high, prefixWord i = some (w24 0xF2 high) ∧ (bare i).withPfx high = .ok i) ∨
      ∃ m, prefixWord i = some (encodeCxp m) ∧ (bare i).withCxp m = .ok i := by
  cases i with
  | movi _ _ high | iaddi _ _ _ high | smovi _ _ high =>
    cases high with
    | none => exact .inl ⟨rfl, rfl⟩
    | some high => exact .inr (.inl ⟨high, rfl, rfl⟩)
  | ffma _ _ _ m =>
    cases m with
    | none => exact .inl ⟨rfl, rfl⟩
    | some m => exact .inr (.inr ⟨m, rfl, rfl⟩)
  | fadd _ _ _ m | fsub _ _ _ m | fmul _ _ _ m | fma _ _ _ m | fmin _ _ _ m | fmax _ _ _ m | fdot2 _ _ _ m | fdot4 _ _ _ m | fcmp _ _ _ _ m =>
    cases m with
    | none => exact .inl ⟨rfl, rfl⟩
    | some m => exact .inr (.inr ⟨m, rfl, if_pos (of_decide_eq_true h)⟩)
  | _ => exact .inl ⟨rfl, rfl⟩

/-- Settles O28: an instruction's own word decodes to it unprefixed, and the prefixing word gives the rest. -/
theorem decodeEncode : Obligations.DecodeEncode := by
  unfold Obligations.DecodeEncode
  intro i rest h
  have hw := decodeWord_encodeWord h
  rcases prefixWord_cases h with ⟨hp, hi⟩ | ⟨high, hp, hi⟩ | ⟨m, hp, hi⟩ <;> rw [encode, hp]
  · rw [hi] at hw
    exact decode_noPrefix hw
  · exact decode_pfx hw hi
  · exact decode_cxp hw hi

end Sys2Proof.Proofs
end

section
/-! # Words that decode, and the steps that run them (O29, O30) -/

namespace Sys2Proof.Proofs

open Sys2Proof Sys2Proof.Machine

/-- The encoding tables give each instruction of the list its words. -/
theorem encode_decodedWords : ∀ x ∈ decodedWords, x.2.wellFormed = true ∧ encode x.2 = x.1 := by decide

/-- Settles O29: each word is its instruction's encoding, and an encoding decodes to its instruction. -/
theorem decodeWords : Obligations.DecodeWords := by
  unfold Obligations.DecodeWords
  intro x hx
  obtain ⟨hwf, hwords⟩ := encode_decodedWords x hx
  simpa [hwords] using decodeEncode x.2 [] hwf

/-- An instruction is the first word, or the first two where the first is a prefixing word (R50–R52). -/
theorem headLen_decode {ws rest : List W32} {i : Instr} (h : decode ws = .ok (i, rest)) : ws.length = headLen ws + rest.length := by
  revert h
  fun_cases decode ws <;> intro h <;> cases h
  -- What is left is a word behind a `PFX`, a word behind a `CXP`, and a word alone.
  all_goals simp [headLen, *]
  all_goals omega

theorem issueHead_of_decode {s : State} {i : Instr} {rest : List W32} (h : decode (issueWords s s.focus) = .ok (i, rest)) :
    issueHead s = exec i s := by
  rw [issueHead, h]

/-- Nothing decodes to an instruction where no word may issue. -/
theorem ne_nil_of_decode {ws rest : List W32} {i : Instr} (h : decode ws = .ok (i, rest)) : ws ≠ [] := by
  rintro rfl
  cases h

theorem issueWords_of_running {s : State} (hp : s.dev.power = .d0) (hw : withheld s = false) (gid : Nat) : issueWords s gid = issuable s gid := by
  simp [issueWords, hp, hw]

theorem turn_of_focus {s : State} (hw : issueWords s s.focus ≠ []) (hy : yields s = false) : turn s = some s.focus := by
  simp [turn, hw, hy]

theorem step_of_turn {s : State} {gid : Nat} (ha : s.agenda = []) (ht : turn s = some gid) : step s = issueHead { s with focus := gid } := by
  simp only [step, ha, ht]

theorem words_of_gangOf {i : Instr} {s : State} {c : Gang} (h : gangOf i s = some c) : c.words = headLen c.run.words := by
  unfold gangOf at h
  split at h
  · cases h
  · split at h
    · split at h
      · cases h
        rfl
      · cases h
    · cases h

/-- Settles O30: a step, a move or an event runs what its words decode to, and a gang goes on by the words of its instruction. -/
theorem stepRunsDecoded : Obligations.StepRunsDecoded := by
  unfold Obligations.StepRunsDecoded
  refine ⟨fun s i rest ha hp hw hy hd => ?_, fun s gid i rest ha ht hd => ?_, fun s gid t i rest ha hd hne => ?_, fun s i t ha hi => ?_,
    fun s i rest c hc hd => ?_⟩
  · rw [← issueWords_of_running hp hw] at hd
    rw [step_of_turn ha (turn_of_focus (ne_nil_of_decode hd) hy)]
    exact issueHead_of_decode hd
  · rw [step_of_turn ha ht]
    exact issueHead_of_decode hd
  · have hsome : (issueWords { s with agenda := t } gid).isEmpty = false := by simpa using hne
    simp only [step, ha, runMove, hsome, Bool.false_eq_true, ↓reduceIte]
    exact issueHead_of_decode hd
  · simp only [step, ha, runMove, hi, Bool.false_eq_true, ↓reduceIte]
  · rw [words_of_gangOf hc, headLen_decode hd]
    omega

end Sys2Proof.Proofs
end

section
/-! # Hints and the versions that nothing reads any more (O8)

`passed` puts the gang's group back as `Group.settle` leaves it, without the older versions of registers whose clock has passed (R48). A meaning that
ends in `.done s` for the state that it was given goes on from the group as it stood, with those versions still listed. No program can read them, but the
two states are different data, and the statement asks for equal states. -/

namespace Sys2Proof.Proofs

open Sys2Proof.Machine

/-- An older version of s0 that ceased to be readable at clock 0. -/
def expired : Unsettled := { alt := .u 0 0 0, until_ := 0, runs := [] }

/-- The machine after reset with a `NOP` about to issue, its group still listing the expired version. -/
def nopBesideExpired : State :=
  let s := placeWords State.reset (encode .nop)
  s.modGroup s.focus fun g => { g with unsettled := [expired] }

/-- The older versions that a group lists. -/
def listedVersions (s : State) (gid : Nat) : Option (List Unsettled) := (s.group? gid).map Group.unsettled

theorem exec_nop_of_issues {s : State} {c : Gang} (h : Issues .nop s c {}) : exec .nop s = .next (wentPast s c) := Laws.issue_done h rfl

theorem gangOf_nopBesideExpired : (gangOf .nop nopBesideExpired).isSome = true := by decide +kernel

/-- The gang that issues the `NOP`. -/
def nopGang : Gang := (gangOf .nop nopBesideExpired).get gangOf_nopBesideExpired

theorem nopGang_issues : Issues .nop nopBesideExpired nopGang {} where
  gang := (Option.some_get _).symm
  noTrapDue := by decide +kernel
  notBusy := by decide +kernel
  present := by decide +kernel
  clean := by decide +kernel
  legal := by decide +kernel

theorem listedVersions_wentPast : listedVersions (wentPast nopBesideExpired nopGang) nopGang.gid = some [expired] := by decide +kernel

theorem listedVersions_passed : listedVersions (passed nopBesideExpired nopGang) nopGang.gid = some [] := by decide +kernel

/-- Refutes O8: a `NOP` leaves its group's expired register version listed, which `passed` has forgotten. -/
theorem not_runsHintsAndModes : ¬ Obligations.RunsHintsAndModes := by
  unfold Obligations.RunsHintsAndModes
  rintro ⟨-, hints, -⟩
  obtain ⟨hnop, -⟩ := hints nopBesideExpired nopGang
  have same : wentPast nopBesideExpired nopGang = passed nopBesideExpired nopGang :=
    Host.Outcome.next.inj ((exec_nop_of_issues nopGang_issues).symm.trans (hnop .nop (.inl rfl) nopGang_issues))
  have listed := listedVersions_wentPast
  rw [same, listedVersions_passed] at listed
  cases listed

end Sys2Proof.Proofs
end
section

/-! # Late results land: `Group.land` and `Settled` (R47, R48) -/

namespace Sys2Proof.Proofs

open Sys2Proof Sys2Proof.Machine Sys2Proof.Laws

variable {score : Bool} {run : Nat} {g h : Group} {ws : List RegWrite}

/-- Write w leaves nothing readable of the older version u: their registers differ, or their lanes do. -/
structure Apart (u : Unsettled) (w : RegWrite) : Prop where
  vec : ∀ n l m l' m', u.alt = .v (.v n) l m → w = .v (.v n) l' m' → m &&& m' = 0
  pred : ∀ n v m v' m', u.alt = .p n v m → w = .p n v' m' → m &&& m' = 0
  uni : ∀ n v b v' b', u.alt = .u n v b → w ≠ .u n v' b'

/-- What a write leaves of an older version is the version itself or the version in fewer lanes. -/
theorem mem_split_kept {u x : Unsettled} {o : Version} (hx : x ∈ (u.split o).1) :
    x = u ∨ (∃ r l m c, u.alt = .v r l m ∧ x.alt = .v r l (m &&& ~~~c)) ∨ ∃ n v m c, u.alt = .p n v m ∧ x.alt = .p n v (m &&& ~~~c) := by
  unfold Unsettled.split at hx
  split at hx
  case h_1 r l m r' l' c e =>
    split at hx
    · dsimp only at hx
      split at hx
      · cases hx
      · rw [List.mem_singleton.1 hx]; exact .inr (.inl ⟨r, l, m, c, e, rfl⟩)
    · exact .inl (List.mem_singleton.1 hx)
  case h_2 n v m n' v' c e =>
    split at hx
    · dsimp only at hx
      split at hx
      · cases hx
      · rw [List.mem_singleton.1 hx]; exact .inr (.inr ⟨n, v, m, c, e, rfl⟩)
    · exact .inl (List.mem_singleton.1 hx)
  case h_3 =>
    split at hx
    · cases hx
    · exact .inl (List.mem_singleton.1 hx)
  case h_7 => exact .inl (List.mem_singleton.1 hx)
  all_goals cases hx

theorem and_not_and (a b : BitVec 32) : a &&& ~~~b &&& b = 0 := by
  rw [BitVec.and_assoc, BitVec.and_comm, BitVec.not_and_self]
  exact BitVec.zero_and

/-- Fewer lanes of a version that is apart from a write are apart from it. -/
theorem fewer_lanes {a b : BitVec 32} (c : BitVec 32) (h : a &&& b = 0) : a &&& ~~~c &&& b = 0 := by
  rw [BitVec.and_assoc, BitVec.and_comm (~~~c), ← BitVec.and_assoc, h]
  exact BitVec.zero_and

theorem apart_of_mem_split {u x : Unsettled} {o : Version} {w : RegWrite} (hx : x ∈ (u.split o).1) (hu : Apart u w) : Apart x w := by
  rcases mem_split_kept hx with rfl | ⟨r, l, m, c, eu, ex⟩ | ⟨n, v, m, c, eu, ex⟩
  · exact hu
  · refine ⟨fun n l' m' L M e ew => ?_, fun n v m v' m' e => ?_, fun n v b v' b' e => ?_⟩ <;> rw [ex] at e <;> cases e
    exact fewer_lanes c (hu.vec n l m L M eu ew)
  · refine ⟨fun n l' m' L M e => ?_, fun k v' m' V M e ew => ?_, fun n v b v' b' e => ?_⟩ <;> rw [ex] at e <;> cases e
    exact fewer_lanes c (hu.pred n v m V M eu ew)

theorem split_lanes_v {u x : Unsettled} {r : VReg} {l l' : VLine} {m m' : BitVec 32} (hx : x ∈ (u.split (.v r l' m')).1) (e : x.alt = .v r l m) :
    m &&& m' = 0 := by
  obtain ⟨alt, end_, runs⟩ := u
  cases alt with
  | v q k c =>
    simp only [Unsettled.split] at hx
    split at hx
    · dsimp only at hx
      split at hx
      · cases hx
      · rw [List.mem_singleton.1 hx] at e
        cases e
        exact and_not_and c m'
    next ne =>
      rw [List.mem_singleton.1 hx] at e
      cases e
      exact absurd rfl ne
  | _ => rw [List.mem_singleton.1 hx] at e; cases e

theorem split_lanes_p {u x : Unsettled} {n : PReg} {v v' m m' : BitVec 32} (hx : x ∈ (u.split (.p n v' m')).1) (e : x.alt = .p n v m) :
    m &&& m' = 0 := by
  obtain ⟨alt, end_, runs⟩ := u
  cases alt with
  | p q k c =>
    simp only [Unsettled.split] at hx
    split at hx
    · dsimp only at hx
      split at hx
      · cases hx
      · rw [List.mem_singleton.1 hx] at e
        cases e
        exact and_not_and c m'
    next ne =>
      rw [List.mem_singleton.1 hx] at e
      cases e
      exact absurd rfl ne
  | _ => rw [List.mem_singleton.1 hx] at e; cases e

theorem split_u {u x : Unsettled} {n : UReg} {v v' : W64} {b b' : B16} (hx : x ∈ (u.split (.u n v' b')).1) : x.alt ≠ .u n v b := by
  intro e
  obtain ⟨alt, end_, runs⟩ := u
  cases alt with
  | u q k c =>
    simp only [Unsettled.split] at hx
    split at hx
    · cases hx
    next ne =>
      rw [List.mem_singleton.1 hx] at e
      cases e
      exact absurd rfl ne
  | _ => rw [List.mem_singleton.1 hx] at e; cases e

/-- What a write leaves of an older version is apart from it. -/
theorem apart_split_before {u x : Unsettled} {w : RegWrite} (hx : x ∈ (u.split (g.before score w)).1) : Apart x w where
  vec n l m l' m' e ew := by subst ew; exact split_lanes_v hx e
  pred n v m v' m' e ew := by subst ew; exact split_lanes_p hx e
  uni n v b v' b' e ew := by subst ew; exact split_u hx e

/-- The older versions after a result has landed are apart from its write and from whatever they were apart from before. -/
theorem apart_dropOld {l : List Unsettled} {x : Unsettled} {w w' : RegWrite} (hx : x ∈ dropOld l (g.before score w)) :
    Apart x w ∧ ((∀ u ∈ l, Apart u w') → Apart x w') := by
  obtain ⟨u, hu, hx⟩ := List.mem_flatMap.1 hx
  exact ⟨apart_split_before hx, fun k => apart_of_mem_split hx (k u hu)⟩

theorem newest_iff_apart (u : Unsettled) (w : RegWrite) : (match u.alt, w with
    | .v (.v n) _ m, .v (.v k) _ m' => n = k → m &&& m' = 0
    | .p n _ m, .p k _ m' => n = k → m &&& m' = 0
    | .u n _ _, .u k _ _ => n ≠ k
    | _, _ => True) ↔ Apart u w := by
  constructor
  · intro k
    refine ⟨fun n l m l' m' e ew => ?_, fun n v m v' m' e ew => ?_, fun n v b v' b' e ew => ?_⟩ <;> subst ew <;> rw [e] at k
    · exact k rfl
    · exact k rfl
    · exact k rfl
  · intro k
    split
    next e => intro ne; subst ne; exact k.vec _ _ _ _ _ e rfl
    next e => intro ne; subst ne; exact k.pred _ _ _ _ _ e rfl
    next e => intro ne; subst ne; exact k.uni _ _ _ _ _ e rfl
    next => trivial

/-- A result for a temporary goes to the run in progress where that run wrote it, and else leaves that run's registers. -/
theorem landTemp_cases (g : Group) (score : Bool) (run : Nat) (n : Fin 8) (l : VLine) (m : BitVec 32) :
    ((∃ q, g.run = some q ∧ q.id = run) ∧ g.landTemp score run n l m = g.setLine (.x n) (mixLines l (g.line score (.x n)) m)) ∨
    (¬(∃ q, g.run = some q ∧ q.id = run) ∧ ∃ sx ps, g.landTemp score run n l m = { g with savedX := sx, parks := ps } ∧
      ps.map (fun p => { p with x := [] }) = g.parks.map fun p => { p with x := [] }) := by
  simp only [Group.landTemp]
  by_cases hr : ∃ q, g.run = some q ∧ q.id = run
  · obtain ⟨q, e, eq⟩ := hr
    rw [if_pos (by simp [e, eq])]
    exact .inl ⟨⟨q, e, eq⟩, rfl⟩
  · refine .inr ⟨hr, ?_⟩
    rw [if_neg (by simpa [Option.any_eq_true] using hr)]
    split
    · exact ⟨_, g.parks, rfl, rfl⟩
    · refine ⟨g.savedX, _, rfl, ?_⟩
      rw [List.map_map]
      refine List.map_congr_left fun p _ => ?_
      simp only [Function.comp_apply]
      split <;> rfl

theorem settled_refl (score : Bool) (run : Nat) (g : Group) : Settled score run g g [] where
  vec _ _ _ := rfl
  temp _ := rfl
  uni _ := rfl
  pred _ _ _ := rfl
  newest _ _ _ hw := nomatch hw
  rest := rfl
  parks := rfl

/-- A lane after a vector write. -/
theorem mixLines_lane (a b : VLine) (m : BitVec 32) (l : Fin 32) :
    ((mixLines a b m).val[l.val], (mixLines a b m).bnd[l.val]) =
      if bit m l.val = true then (a.val[l.val], a.bnd[l.val]) else (b.val[l.val], b.bnd[l.val]) := by
  rw [mixLines_val, mixLines_bnd]
  split <;> rfl

theorem settled_run (S : Settled score run g h ws) : h.run = g.run := by rw [S.rest]

/-- One more write, made after those of a list. -/
theorem settled_snoc {k : Group} {w : RegWrite} (S : Settled score run g h ws) (T : Settled score run h k [w])
    (hk : ∀ w', (∀ u ∈ h.unsettled, Apart u w') → ∀ u ∈ k.unsettled, Apart u w') : Settled score run g k (ws ++ [w]) where
  vec r l hr := by
    rw [List.foldl_append, ← S.vec r l hr]
    exact T.vec r l (by rwa [settled_run S])
  temp hr := (T.temp (by rwa [settled_run S])).trans (S.temp hr)
  uni n := by rw [List.foldl_append, ← S.uni n]; exact T.uni n
  pred n l hn := by rw [List.foldl_append, ← S.pred n l hn]; exact T.pred n l hn
  newest u hu w' hw := by
    rw [List.mem_append] at hw
    rcases hw with hw | hw
    · exact (newest_iff_apart u w').2 (hk w' (fun x hx => (newest_iff_apart x w').1 (S.newest x hx w' hw)) u hu)
    · exact T.newest u hu w' hw
  rest := by
    have a := S.rest
    have b := T.rest
    rw [a] at b
    exact b
  parks := T.parks.trans S.parks

/-- Where a write of a vector register is not a temporary of another run's, each lane is as the write leaves it. -/
theorem vec_of_line {k : Group} {q r : VReg} {L : VLine} {m : BitVec 32} (same : k.line score q = mixLines L (g.line score q) m)
    (other : r ≠ q → k.line score r = g.line score r) (l : Fin 32) :
    ((k.line score r).val[l.val], (k.line score r).bnd[l.val]) =
      if q = r ∧ bit m l.val = true then (L.val[l.val], L.bnd[l.val]) else ((g.line score r).val[l.val], (g.line score r).bnd[l.val]) := by
  by_cases e : q = r
  · subst e
    rw [same, mixLines_lane]
    simp
  · rw [other (Ne.symm e), if_neg (fun k => e k.1)]

/-- A vector write that is made at once, with the older versions it leaves. -/
theorem settled_vec (g : Group) (n : Fin 240) (L : VLine) (m : BitVec 32) :
    Settled score run g (g.land score run (.v (.v n) L m)) [.v (.v n) L m] := by
  have F := frame_apply g score (.v (.v n) L m)
  have X : (g.apply score (.v (.v n) L m)).x = g.x ∧ (g.apply score (.v (.v n) L m)).parks = g.parks ∧
      (g.apply score (.v (.v n) L m)) = { g with v := (g.apply score (.v (.v n) L m)).v, poison := (g.apply score (.v (.v n) L m)).poison } := by
    simp only [Group.apply]
    split
    · exact ⟨rfl, rfl, rfl⟩
    · split <;> exact ⟨rfl, rfl, rfl⟩
  obtain ⟨hx, hp, hg⟩ := X
  exact {
    vec := fun r l _ => vec_of_line (q := .v n) (line_apply_same g score _ L m) (fun e => F.vec r (by simpa [wV] using e)) l
    temp := fun _ => hx
    uni := fun k => Prod.ext (F.uni k (by simp [wU])).1 (F.uni k (by simp [wU])).2
    pred := fun k l _ => congrArg (bit · l.val) (F.pred k (by simp [wP]))
    newest := fun u hu w hw => by
      rw [List.mem_singleton.1 hw]
      exact (newest_iff_apart u _).2 (apart_dropOld (w' := .v (.v n) L m) hu).1
    rest := by
      simp only [Group.land]
      rw [hg]
    parks := by simp only [Group.land]; rw [hp] }

theorem settled_uni (g : Group) (n : UReg) (v : W64) (b : B16) : Settled score run g (g.land score run (.u n v b)) [.u n v b] where
  vec r l _ := by
    have e : (g.land score run (.u n v b)).line score r = g.line score r := (frame_apply g score (.u n v b)).vec r (by simp [wV])
    rw [e]
    rfl
  temp _ := rfl
  uni k := by
    simp only [List.foldl_cons, List.foldl_nil]
    split
    next e => subst e; exact Prod.ext (uni_apply_same g score n v b).1 (uni_apply_same g score n v b).2
    next e =>
      have F := (frame_apply g score (.u n v b)).uni k (by simpa [wU] using Ne.symm e)
      exact Prod.ext F.1 F.2
  pred _ _ _ := rfl
  newest u hu w hw := by
    rw [List.mem_singleton.1 hw]
    exact (newest_iff_apart u _).2 (apart_dropOld (w' := .u n v b) hu).1
  rest := rfl
  parks := rfl

theorem bit_merge (v old m : BitVec 32) (l : Fin 32) :
    bit (v &&& m ||| old &&& ~~~m) l.val = if bit m l.val = true then bit v l.val else bit old l.val := by
  simp only [bit, BitVec.getLsbD_or, BitVec.getLsbD_and, BitVec.getLsbD_not, l.isLt, decide_true, Bool.true_and]
  have key : ∀ a b c : Bool, (a && b || c && !b) = if b = true then a else c := by decide
  exact key _ _ _

theorem settled_pred (g : Group) (n : PReg) (v m : BitVec 32) : Settled score run g (g.land score run (.p n v m)) [.p n v m] := by
  have F := frame_apply g score (.p n v m)
  have hg : g.apply score (.p n v m) = { g with p := (g.apply score (.p n v m)).p } := by
    simp only [Group.apply]
    split <;> rfl
  exact {
    vec := fun r l _ => by
      have e : (g.land score run (.p n v m)).line score r = g.line score r := F.vec r (by simp [wV])
      rw [e]
      rfl
    temp := fun _ => show (g.apply score (.p n v m)).x = g.x by rw [hg]
    uni := fun k => Prod.ext (F.uni k (by simp [wU])).1 (F.uni k (by simp [wU])).2
    pred := fun k l hk => by
      simp only [List.foldl_cons, List.foldl_nil]
      by_cases e : n = k
      · subst e
        refine (congrArg (bit · l.val) (pred_apply_same g score n v m hk)).trans ?_
        simp only [bit_merge, true_and]
      · rw [if_neg (fun x => e x.1)]
        exact congrArg (bit · l.val) (F.pred k (by simpa [wP] using Ne.symm e))
    newest := fun u hu w hw => by
      rw [List.mem_singleton.1 hw]
      exact (newest_iff_apart u _).2 (apart_dropOld (w' := .p n v m) hu).1
    rest := by simp only [Group.land]; rw [hg]
    parks := by simp only [Group.land]; rw [hg] }

/-- No older version of a temporary is kept. -/
theorem apart_temp (u : Unsettled) (n : Fin 8) (L : VLine) (m : BitVec 32) : Apart u (.v (.x n) L m) where
  vec _ _ _ _ _ _ e := nomatch e
  pred _ _ _ _ _ _ e := nomatch e
  uni _ _ _ _ _ _ e := nomatch e

theorem settled_temp (g : Group) (n : Fin 8) (L : VLine) (m : BitVec 32) :
    Settled score run g (g.land score run (.v (.x n) L m)) [.v (.x n) L m] ∧
      (g.land score run (.v (.x n) L m)).unsettled = g.unsettled := by
  rcases landTemp_cases g score run n L m with ⟨hr, e⟩ | ⟨hr, sx, ps, e, hp⟩ <;> simp only [Group.land, e]
  · refine ⟨{
      vec := fun r l _ => vec_of_line (q := .x n) (line_setLine_same g score _ _) (fun ne => line_setLine_other g score _ r _ ne) l
      temp := fun no => absurd hr fun ⟨q, a, b⟩ => no q a b
      uni := fun _ => rfl
      pred := fun _ _ _ => rfl
      newest := fun u _ w hw => by
        rw [List.mem_singleton.1 hw]
        exact (newest_iff_apart u _).2 (apart_temp u n L m)
      rest := rfl
      parks := rfl }, rfl⟩
  · refine ⟨{
      vec := fun r l hv => by
        have line : Group.line { g with savedX := sx, parks := ps } score r = g.line score r := line_other_fields _ _ _ rfl rfl r
        have ne : VReg.x n ≠ r := fun k => by
          subst k
          exact hv.elim (fun k => nomatch k) hr
        rw [line]
        exact (if_neg fun k => ne k.1).symm
      temp := fun _ => rfl
      uni := fun _ => rfl
      pred := fun _ _ _ => rfl
      newest := fun u _ w hw => by
        rw [List.mem_singleton.1 hw]
        exact (newest_iff_apart u _).2 (apart_temp u n L m)
      rest := rfl
      parks := hp }, trivial⟩

theorem settled_land (S : Settled score run g h ws) (w : RegWrite) : Settled score run g (h.land score run w) (ws ++ [w]) := by
  cases w with
  | v r L m => cases r with
    | v n => exact settled_snoc S (settled_vec h n L m) fun _ k u hu => (apart_dropOld (w := .v (.v n) L m) hu).2 k
    | x n =>
      obtain ⟨T, e⟩ := settled_temp (score := score) (run := run) h n L m
      exact settled_snoc S T fun _ k u hu => k u (e ▸ hu)
  | u n v b => exact settled_snoc S (settled_uni h n v b) fun _ k u hu => (apart_dropOld (w := .u n v b) hu).2 k
  | p n v m => exact settled_snoc S (settled_pred h n v m) fun _ k u hu => (apart_dropOld (w := .p n v m) hu).2 k

/-- The late writes of an operation settle, in order. -/
theorem settled_landAll (score : Bool) (run : Nat) (g : Group) (ws : List RegWrite) : Settled score run g (g.landAll score run ws) ws := by
  induction ws using List.reverseRecOn with
  | nil => exact settled_refl score run g
  | append_singleton ws w ih =>
    have e : g.landAll score run (ws ++ [w]) = (g.landAll score run ws).land score run w := by simp [Group.landAll]
    rw [e]
    exact settled_land ih w

end Sys2Proof.Proofs
end
section

/-! # A unit's result appears, and a counter's oldest step is lowered (R46, R47, R227, R246, R304) -/

namespace Sys2Proof.Proofs

open Sys2Proof Sys2Proof.Machine Sys2Proof.Laws

variable {s : State} {gid : Nat} {g : Group} {kind : ResultKind} {a b : List Pending} {p : Pending}

/-- An event of a unit writes the unit's oldest result; a cross-lane one waits for its quarter's older ones. -/
theorem exec_resultEvent {i : Instr} (hi : resultEvent i = some (gid, kind)) (s : State) :
    exec i s = .next (tick (if kind = .xlane ∧ xlaneTurn s gid = false then s else completeResult s gid kind)) := by
  unfold resultEvent at hi
  split at hi <;> cases hi
  · rfl
  · show Host.Outcome.next (tick (if xlaneTurn s gid = true then completeResult s gid .xlane else s)) = _
    cases xlaneTurn s gid <;> rfl
  · rfl
  · rfl

theorem find_kind_none (h : ∀ q ∈ g.pend, q.kind ≠ kind) : (g.pend.find? fun q => decide (q.kind = kind)) = none :=
  List.find?_eq_none.2 fun q hq => by simpa using h q hq

theorem find_kind_split (ha : ∀ q ∈ a, q.kind ≠ kind) (hp : p.kind = kind) :
    ((a ++ p :: b).find? fun q => decide (q.kind = kind)) = some p := by
  rw [List.find?_append, List.find?_eq_none.2 fun q hq => by simpa using ha q hq, Option.none_or,
    List.find?_cons_of_pos (by simpa using hp)]

theorem eraseP_kind_split (ha : ∀ q ∈ a, q.kind ≠ kind) (hp : p.kind = kind) :
    ((a ++ p :: b).eraseP fun q => decide (q.kind = kind)) = a ++ b := by
  rw [List.eraseP_append_right _ fun q hq => by simpa using ha q hq, List.eraseP_cons_of_pos (by simpa using hp)]

/-- With no result of its kind outstanding, the event changes nothing. -/
theorem completeResult_none (hg : s.group? gid = some g) (h : ∀ q ∈ g.pend, q.kind ≠ kind) : completeResult s gid kind = s := by
  simp only [completeResult, hg, find_kind_none h]

/-- The group once the result p has left its queue, `rest`, and cleared its flag. -/
def taken (g : Group) (p : Pending) (rest : List Pending) : Group :=
  { g with
    pend := rest
    cflags := match p.flag with
      | some f => g.cflags &&& ~~~flagBit f
      | none => g.cflags }

theorem bit_clearFlag (x : BitVec 12) (k f : Fin 12) : bit (x &&& ~~~flagBit k) f.val = (bit x f.val && !decide (k = f)) := by
  rw [← bit_flagBit k f]
  simp only [bit, BitVec.getLsbD_and, BitVec.getLsbD_not, f.isLt, decide_true, Bool.true_and]

theorem bit_setFlag (x : BitVec 12) (k f : Fin 12) : bit (x ||| flagBit k) f.val = (bit x f.val || decide (k = f)) := by
  rw [← bit_flagBit k f]
  simp only [bit, BitVec.getLsbD_or]

theorem bit_taken (g : Group) (p : Pending) (rest : List Pending) (f : Fin 12) :
    bit (taken g p rest).cflags f.val = (bit g.cflags f.val && decide (p.flag ≠ some f)) := by
  unfold taken
  cases e : p.flag with
  | none => simp
  | some k => simp [bit_clearFlag]

/-- The taken group, its run's trl record marked with the flag of a result that traps. -/
def takenTrl (g : Group) (p : Pending) (rest : List Pending) : Group :=
  { taken g p rest with run := g.run.map fun r => match p.flag with
    | some f => { r with trl := r.trl ||| flagBit f }
    | none => r }

theorem completeResult_trap {t : TrapInfo} (hg : s.group? gid = some g) (hs : g.pend = a ++ p :: b) (ha : ∀ q ∈ a, q.kind ≠ kind)
    (hp : p.kind = kind) (ht : p.trap = some t) :
    completeResult s gid kind = trapHeld (s.setGroup gid (takenTrl g p (a ++ b))) gid t := by
  simp only [completeResult, hg, hs, find_kind_split ha hp, eraseP_kind_split ha hp, ht]
  rfl

theorem completeResult_writes (hg : s.group? gid = some g) (hs : g.pend = a ++ p :: b) (ha : ∀ q ∈ a, q.kind ≠ kind)
    (hp : p.kind = kind) (ht : p.trap = none) (hc : p.card = none) {h : Group}
    (hh : h = ((taken g p (a ++ b)).stick p.sticky).landAll (s.kernel g.kernel).score p.run p.writes) :
    completeResult s gid kind = if p.holds then goOn (s.setGroup gid h) gid else s.setGroup gid h := by
  subst hh
  simp only [completeResult, hg, hs, find_kind_split ha hp, eraseP_kind_split ha hp, ht, hc]
  rfl

theorem xlaneTurn_none (hg : s.group? gid = some g) (h : ∀ q ∈ g.pend, q.kind ≠ .xlane) : xlaneTurn s gid = false := by
  simp only [xlaneTurn, hg, xlaneHead, find_kind_none h]

theorem xlaneTurn_iff (hg : s.group? gid = some g) (hs : g.pend = a ++ p :: b) (ha : ∀ q ∈ a, q.kind ≠ .xlane) (hp : p.kind = .xlane) :
    xlaneTurn s gid = true ↔ OldestInQuarter s g p := by
  have head : xlaneHead g = some p := by rw [xlaneHead, hs]; exact find_kind_split ha hp
  simp only [xlaneTurn, hg, head, List.all_eq_true]
  constructor
  · intro k j h q hm hc hl hq hqt
    have := k (j, h) hm
    simp only [xlaneHead] at this
    simp [hc, hl, hq, hqt] at this
    exact this
  · intro k x hm
    obtain ⟨j, h⟩ := x
    simp only [xlaneHead]
    by_cases hc : h.core = g.core
    · cases hl : h.live with
      | false => simp
      | true =>
        cases hq : h.pend.find? fun x => decide (x.kind = .xlane) with
        | none => simp
        | some q =>
          by_cases hqt : q.quarter = p.quarter
          · simp [k j h q hm hc hl hq hqt]
          · simp [hqt]
    · simp [hc]

/-- What a group's oldest result of one kind does. -/
def ResultAppears (s : State) (gid : Nat) (g : Group) (a : List Pending) (p : Pending) (b : List Pending) (u : State) : Prop :=
  ∃ h : Group,
    (∀ f : Fin 12, bit h.cflags f.val = (bit g.cflags f.val && decide (p.flag ≠ some f))) ∧ h.pend = a ++ b ∧
    (p.trap = none → p.card = none →
      Settled (s.kernel g.kernel).score p.run { g with pend := a ++ b, cflags := h.cflags, sticky := g.sticky ||| p.sticky } h p.writes ∧
        u = if p.holds then goOn (s.setGroup gid h) gid else s.setGroup gid h) ∧
    ∀ t, p.trap = some t → h = { g with pend := a ++ b, cflags := h.cflags, run := h.run } ∧ u = trapHeld (s.setGroup gid h) gid t ∧
      ∀ r, g.run = some r → ∃ q, h.run = some q ∧ q = { r with trl := q.trl } ∧
        ∀ f : Fin 12, bit q.trl f.val = (bit r.trl f.val || decide (p.flag = some f))

theorem resultAppears (hg : s.group? gid = some g) (hs : g.pend = a ++ p :: b) (ha : ∀ q ∈ a, q.kind ≠ kind) (hp : p.kind = kind) :
    ResultAppears s gid g a p b (completeResult s gid kind) := by
  cases ht : p.trap with
  | some t =>
    refine ⟨takenTrl g p (a ++ b), bit_taken g p (a ++ b), rfl, fun k => (by rw [ht] at k; cases k), fun t' k => ?_⟩
    rw [ht] at k
    cases k
    refine ⟨rfl, completeResult_trap hg hs ha hp ht, fun r hr => ?_⟩
    cases hf : p.flag with
    | none => exact ⟨r, by simp [takenTrl, hr, hf], rfl, fun f => by simp⟩
    | some k =>
      refine ⟨{ r with trl := r.trl ||| flagBit k }, by simp [takenTrl, hr, hf], rfl, fun f => by simp [bit_setFlag]⟩
  | none =>
    have S := settled_landAll (s.kernel g.kernel).score p.run ((taken g p (a ++ b)).stick p.sticky) p.writes
    generalize hh : ((taken g p (a ++ b)).stick p.sticky).landAll (s.kernel g.kernel).score p.run p.writes = h at S
    have hf : h.cflags = (taken g p (a ++ b)).cflags := by rw [S.rest]; rfl
    refine ⟨h, fun f => by rw [hf]; exact bit_taken g p (a ++ b) f, by rw [S.rest]; rfl, fun _ hc => ⟨?_, ?_⟩,
      fun t k => (by rw [ht] at k; cases k)⟩
    · rw [hf]; exact S
    · exact completeResult_writes hg hs ha hp ht hc hh.symm

/-- A cross-lane result waits while its quarter's network has an older one; every other result appears (R227). -/
theorem exec_result_split {i : Instr} (hi : resultEvent i = some (gid, kind)) (hg : s.group? gid = some g) (hs : g.pend = a ++ p :: b)
    (ha : ∀ q ∈ a, q.kind ≠ kind) (hp : p.kind = kind) :
    (kind = .xlane → ¬OldestInQuarter s g p → exec i s = .next (tick s)) ∧
      ((kind = .xlane → OldestInQuarter s g p) → exec i s = .next (tick (completeResult s gid kind))) := by
  rw [exec_resultEvent hi]
  constructor
  · intro hk old
    subst hk
    rw [if_pos ⟨rfl, Bool.eq_false_of_not_eq_true fun k => old ((xlaneTurn_iff hg hs ha hp).1 k)⟩]
  · intro old
    rw [if_neg]
    rintro ⟨rfl, k⟩
    rw [(xlaneTurn_iff hg hs ha hp).2 (old rfl)] at k
    cases k

theorem exec_result_none {i : Instr} (hi : resultEvent i = some (gid, kind)) (hg : s.group? gid = some g)
    (h : ∀ q ∈ g.pend, q.kind ≠ kind) : exec i s = .next (tick s) := by
  rw [exec_resultEvent hi, completeResult_none hg h, ite_self]

/-! ### Counter steps -/

theorem exec_ldStep_nil (hg : s.group? gid = some g) (h : g.ld = []) : exec (.ldStepComplete gid) s = .next (tick s) := by
  simp only [exec_ldStepComplete, execLdStepComplete, hg, h]

theorem exec_ldStep_cons {x : CStep} {rest : List CStep} (hg : s.group? gid = some g) (h : g.ld = x :: rest) :
    exec (.ldStepComplete gid) s = .next (tick (if x.performed then s.setGroup gid
      (({ g with ld := rest }.stick x.sticky).landAll (s.kernel g.kernel).score x.run x.writes) else s)) := by
  simp only [exec_ldStepComplete, execLdStepComplete, hg, h]

theorem exec_stStep_nil (hg : s.group? gid = some g) (h : g.st = []) : exec (.stStepComplete gid) s = .next (tick s) := by
  simp only [exec_stStepComplete, execStStepComplete, hg, h]

theorem exec_stStep_cons {x : CStep} {rest : List CStep} (hg : s.group? gid = some g) (h : g.st = x :: rest) :
    exec (.stStepComplete gid) s =
      .next (tick (if x.performed then s.setGroup gid { g with st := rest, sticky := g.sticky ||| x.sticky } else s)) := by
  simp only [exec_stStepComplete, execStStepComplete, hg, h]
  rfl

end Sys2Proof.Proofs
end
section

/-! # What reads and translations leave alone: the groups, the kernels, and memory without poison

A read through the caches, its translation and an acquire change caches, memory's copies, counters and the lookup buffers. No group and no kernel
changes, and where no sector was poisoned none is. -/

namespace Sys2Proof.Proofs

open Sys2Proof Sys2Proof.Machine Sys2Proof.Laws

/-- State s differs from r beside the groups and the kernels, and has no poison that r has not. -/
def Beside (r s : State) : Prop := s.groups = r.groups ∧ s.kernels = r.kernels ∧ (r.poison = [] → s.poison = [])

theorem beside_refl (s : State) : Beside s s := ⟨rfl, rfl, id⟩

section

variable {r s : State} {core sec line part asid gid : Nat}

theorem beside_ite {c : Prop} [Decidable c] {t : State} (hs : Beside r s) (ht : Beside r t) : Beside r (if c then s else t) := by
  split
  · exact hs
  · exact ht

theorem fst_beside_ite {β : Type} {c : Prop} [Decidable c] {p q : State × β} (hp : Beside r p.1) (hq : Beside r q.1) :
    Beside r (if c then p else q).1 := by
  split
  · exact hp
  · exact hq

theorem foldl_beside {α : Type} {f : State → α → State} {l : List α} (hf : ∀ s a, Beside r s → Beside r (f s a)) (h : Beside r s) :
    Beside r (l.foldl f s) :=
  List.foldlRecOn l f h fun s hs a _ => hf s a hs

/-! ### The hub and the pools -/

theorem poolOwn_beside {port : Nat} (h : Beside r s) : Beside r (poolOwn s port line) := by
  refine beside_ite h ?_
  split
  · exact h
  · exact h

theorem hubClean_beside (h : Beside r s) : Beside r (hubClean s line) := by
  unfold hubClean
  split
  · exact h
  · exact h

theorem hubRoom_beside (h : Beside r s) : Beside r (hubRoom s line) := by
  refine beside_ite h (beside_ite h ?_)
  split
  · exact hubClean_beside h
  · exact h

theorem hubUse_beside {x : Nat} {dirty : Bool} (h : Beside r s) : Beside r (hubUse s part sec x dirty) := by
  unfold hubUse
  dsimp only
  split
  · exact h
  · exact beside_ite h (hubRoom_beside h)

theorem passHome_beside {cache : Nat} {shr dirty : Bool} (h : Beside r s) : Beside r (passHome s core sec cache shr dirty) := by
  refine beside_ite (beside_ite h h) (hubUse_beside ?_)
  split
  · exact poolOwn_beside (beside_ite h h)
  · exact beside_ite h h

theorem passL1_beside {cache : Nat} {shr : Bool} (h : Beside r s) : Beside r (passL1 s core sec cache shr) := by
  refine passHome_beside ?_
  split
  · exact h
  · exact h

theorem hubWrite_beside {w : HomeWrite} (h : Beside r s) : Beside r (hubWrite s core w) := by
  have hp : Beside r (passHome s core w.sector w.cache w.shr !w.dur) := passHome_beside h
  obtain ⟨hg, hk, hc⟩ := hp
  have hw : Beside r { passHome s core w.sector w.cache w.shr !w.dur with
      poison := if coversSector w.sector w.bytes then (passHome s core w.sector w.cache w.shr !w.dur).poison.filter (· ≠ w.sector)
        else (passHome s core w.sector w.cache w.shr !w.dur).poison } :=
    ⟨hg, hk, fun k => by rw [hc k]; split <;> rfl⟩
  exact beside_ite h (beside_ite hw (beside_ite hw (beside_ite hw hw)))

/-! ### The L1 -/

theorem pmcCore_beside {vf n k : Nat} (h : Beside r s) : Beside r (pmcCore s core vf n k) := h

theorem l1Put_beside {e : L1Sector} (h : Beside r s) : Beside r (l1Put s core e) := h

theorem l1Drop_beside {e : L1Sector} (h : Beside r s) : Beside r (l1Drop s core e) := h

theorem l1WriteBack_beside (h : Beside r s) : Beside r (l1WriteBack s core sec) := by
  unfold l1WriteBack
  split
  · exact beside_ite h (l1Put_beside (hubWrite_beside h))
  · exact h

theorem l1Flush_beside (h : Beside r s) : Beside r (l1Flush s core sec) := by
  unfold l1Flush
  dsimp only
  split
  · exact l1Drop_beside (l1WriteBack_beside h)
  · exact l1WriteBack_beside h

theorem l1FlushLine_beside (h : Beside r s) : Beside r (l1FlushLine s core line) := foldl_beside (fun _ _ => l1Flush_beside) h

theorem l1Fit_beside (h : Beside r s) : Beside r (l1Fit s core) := by
  refine beside_ite h (beside_ite h ?_)
  split
  · exact l1FlushLine_beside h
  · exact h

theorem l1Claim_beside (h : Beside r s) : Beside r (l1Claim s core asid sec) := beside_ite (l1FlushLine_beside h) h

theorem l1Fill_beside {a : Attr} (h : Beside r s) : Beside r (l1Fill s core sec a) := by
  unfold l1Fill
  dsimp only
  split
  · exact beside_ite (l1Put_beside (l1Claim_beside h)) (l1Fit_beside (l1Put_beside (passL1_beside (l1Claim_beside h))))
  · exact l1Fit_beside (l1Put_beside (passL1_beside (l1Claim_beside h)))

theorem l1Read_beside {a : Attr} {noalloc : Bool} {pa n : Nat} (h : Beside r s) : Beside r (l1Read s core a noalloc pa n).1 :=
  fst_beside_ite (passL1_beside h) (l1Fill_beside h)

/-! ### Translations, acquires and element reads -/

theorem acquire_beside {scope : Scope} (h : Beside r s) : Beside r (acquire s gid scope) := by
  unfold acquire
  split
  · exact h
  · exact beside_ite h h

theorem translate_beside {va : Nat} (h : Beside r s) : Beside r (Machine.translate s core asid va).1 := by
  unfold Machine.translate
  dsimp only
  refine fst_beside_ite h ?_
  split
  · exact h
  · refine fst_beside_ite ?_ ?_ <;> exact beside_ite h (pmcCore_beside h)

theorem translateRecord_beside {base off : Nat} {exts : List Extent} (h : Beside r s) :
    Beside r (translateRecord s core asid base exts off).1 := by
  unfold translateRecord
  split
  · exact fst_beside_ite h (fst_beside_ite h (fst_beside_ite (translate_beside h) h))
  · exact h

theorem locate_beside {kid : Nat} {a : Access} {p : Spot} (h : Beside r s) : Beside r (locate s core kid a p).1 := by
  unfold locate
  split
  · exact fst_beside_ite h (translate_beside h)
  · split
    · exact translateRecord_beside h
    · exact h

theorem locateAll_beside {kid : Nat} {a : Access} {l : List Spot} (h : Beside r s) : Beside r (locateAll s core kid a l).1 := by
  induction l generalizing s with
  | nil => exact h
  | cons p t ih => exact ih (locate_beside h)

theorem countMiss_beside {vf pa : Nat} {a : Attr} (h : Beside r s) : Beside r (countMiss s core vf a pa) := beside_ite h h

theorem readSpot_beside {vf pa : Nat} {noalloc : Bool} {declared : B16} {p : Spot} {a : Attr} (h : Beside r s) :
    Beside r (readSpot s core vf noalloc declared p a pa).1 :=
  fst_beside_ite h (l1Read_beside (countMiss_beside h))

/-- Where no sector is poisoned, no read consumes poison. -/
theorem readSpot_clean {vf pa : Nat} {noalloc : Bool} {declared : B16} {p : Spot} {a : Attr} (h : s.poison = []) :
    (readSpot s core vf noalloc declared p a pa).2.poison = false := by
  unfold readSpot
  split
  · rfl
  · simp [poisoned, h]

end

/-! ### Elements whose pages are all present -/

variable {l : List (Spot × Found)}

theorem trapPages_present (h : ∀ x ∈ l, ∃ a pa, x.2 = .at_ a pa) : trapPages l = none := by
  unfold trapPages
  dsimp only
  rw [List.filterMap_eq_nil_iff.2]
  intro x hx
  obtain ⟨a, pa, e⟩ := h x hx
  rw [e]

theorem missing_present (h : ∀ x ∈ l, ∃ a pa, x.2 = .at_ a pa) : missing l = [] :=
  List.filterMap_eq_nil_iff.2 fun x hx => by
    obtain ⟨a, pa, e⟩ := h x hx
    dsimp only
    rw [e]

end Sys2Proof.Proofs
end
section

/-! # `RECSYNC_COMPLETE` (R252, R408) -/

namespace Sys2Proof.Proofs

open Sys2Proof Sys2Proof.Machine Sys2Proof.Laws

variable {r s t : State} {gid kid first : Nat} {g : Group}

/-! ### A kernel's snapshot records below a first one are left -/

/-- State t differs from s beside the groups and beside those records of a kernel's snapshot whose numbers are below `first`. -/
def KeepsRecords (kid first : Nat) (s t : State) : Prop :=
  t.groups = s.groups ∧ ∀ n x, KMap.get? (s.kernel kid).records n = some x → n < first → KMap.get? (t.kernel kid).records n = some x

theorem keepsRecords_of_kernels (hg : t.groups = s.groups) (hk : t.kernels = s.kernels) : KeepsRecords kid first s t :=
  ⟨hg, fun n x h _ => by
    have e : t.kernel kid = s.kernel kid := by unfold State.kernel; rw [hk]
    rw [e]
    exact h⟩

theorem keepsRecords_trans {u : State} (a : KeepsRecords kid first s t) (b : KeepsRecords kid first t u) : KeepsRecords kid first s u :=
  ⟨b.1.trans a.1, fun n x h hn => b.2 n x (a.2 n x h hn) hn⟩

@[simp] theorem physWords_kernels (s : State) (pa : Nat) (l : List W64) : (physWords s pa l).kernels = s.kernels := by
  induction l generalizing s pa with
  | nil => rfl
  | cons w l ih => exact ih _ _

@[simp] theorem setPart_kernels (s : State) (n : Nat) (p : Partition) : (s.setPart n p).kernels = s.kernels := by
  unfold State.setPart
  split <;> rfl

theorem dropArena_keepsRecords (s : State) (part at_ count : Nat) : KeepsRecords kid first s (dropArena s part at_ count) :=
  keepsRecords_of_kernels (setPart_groups _ _ _) (setPart_kernels _ _ _)

theorem takeArena_keepsRecords {part f : Nat} {l : List Extent} (h : takeArena s part l = some (t, f)) : KeepsRecords kid first s t := by
  unfold takeArena at h
  dsimp only at h
  split at h
  · cases h
  · cases h
    exact keepsRecords_of_kernels ((physWords_groups _ _ _).trans (setPart_groups _ _ _)) ((physWords_kernels _ _ _).trans (setPart_kernels _ _ _))

/-- A record put in changes no record before it. -/
theorem putRecord_keepsRecords {i : Nat} {w : List W64} (hi : first ≤ i) (h : putRecord s kid i w = some t) : KeepsRecords kid first s t := by
  unfold putRecord at h
  dsimp only at h
  split at h
  · cases h
  next u f e =>
    cases h
    refine keepsRecords_trans (takeArena_keepsRecords e) ⟨rfl, fun n x hx hn => ?_⟩
    simp only [State.kernel, State.setKernel, get_set_same, Option.getD_some]
    rw [get_set_other _ _ _ _ (by omega)]
    exact hx

/-- A fold of steps that may fail and that each leave the records below `first`. -/
theorem foldl_bind_keepsRecords {f : State → Nat → Option State} {l : List Nat} {o : Option State}
    (hf : ∀ s i t, f s i = some t → KeepsRecords kid first s t) (ho : ∀ u, o = some u → KeepsRecords kid first r u)
    (e : l.foldl (fun acc i => acc.bind fun s => f s i) o = some t) : KeepsRecords kid first r t := by
  induction l generalizing o with
  | nil => exact ho t e
  | cons i l ih =>
    refine ih (fun u hu => ?_) e
    obtain ⟨s', hs', hu⟩ := Option.bind_eq_some_iff.mp hu
    exact keepsRecords_trans (ho s' hs') (hf s' i u hu)

/-! ### A held run goes on -/

theorem advance_group {n : Nat} {m : BitVec 8} {taken : Bool} (hg : s.group? gid = some g) (hr : g.run.isSome = true) :
    ∃ h, (advance s gid n m taken).group? gid = some h ∧ h.hold = g.hold ∧ h.v = g.v ∧ h.s = g.s ∧ h.p = g.p := by
  obtain ⟨run, hr⟩ := Option.isSome_iff_exists.1 hr
  unfold advance
  simp only [hg, hr]
  split
  · exact ⟨_, group_setGroup _ _ _, by cases taken <;> exact ⟨rfl, rfl, rfl, rfl⟩⟩
  · exact ⟨_, group_setGroup _ _ _, by cases taken <;> exact ⟨rfl, rfl, rfl, rfl⟩⟩

theorem advance_kernels (s : State) (gid n : Nat) (m : BitVec 8) (taken : Bool) : (advance s gid n m taken).kernels = s.kernels := by
  rcases advance_eq s gid n m taken with e | ⟨core, vf, h, e⟩ <;> rw [e]
  rfl

/-- A held run that goes on is held no longer, and keeps its registers. -/
theorem goOn_group (hg : s.group? gid = some g) (hr : g.run.isSome = true) :
    ∃ h, (goOn s gid).group? gid = some h ∧ h.hold = none ∧ h.v = g.v ∧ h.s = g.s ∧ h.p = g.p := by
  obtain ⟨run, hr⟩ := Option.isSome_iff_exists.1 hr
  unfold goOn
  simp only [hg, hr]
  split
  · exact ⟨_, group_setGroup _ _ _, rfl, rfl, rfl, rfl⟩
  · exact advance_group (group_setGroup _ _ _) rfl

theorem goOn_kernels (s : State) (gid : Nat) : (goOn s gid).kernels = s.kernels := by
  unfold goOn
  split
  · rfl
  · split
    · rfl
    · dsimp only
      split
      · rfl
      · exact advance_kernels _ _ _ _ _

/-! ### The completion -/

/-- The number of the first record that `RECSYNC` replaces: that of its record, or 0 for the whole table. -/
def firstRecord : Option RecNo → Nat
  | some q => q.val
  | none => 0

/-- Once quiet, with every page present and no poison, `RECSYNC` finds no room and stays held, or puts its records in and its run goes on. -/
theorem recsyncFinish_present {acc : Access} {q : Option RecNo} (hg : s.group? gid = some g) (quiet : recordQuiet s g.kernel q = true)
    (clean : s.poison = []) (here : ∀ x ∈ (locateAll s g.core g.kernel acc acc.spots).2, ∃ a pa, x.2 = .at_ a pa) :
    recsyncFinish s gid acc q = s ∨ ∃ t, KeepsRecords g.kernel (firstRecord q) s t ∧ recsyncFinish s gid acc q = goOn t gid := by
  have hl : Beside s (acquire (locateAll s g.core g.kernel acc acc.spots).1 gid .dev) := acquire_beside (locateAll_beside (beside_refl s))
  unfold recsyncFinish
  simp only [hg, quiet, Bool.not_true, Bool.false_eq_true, ↓reduceIte, trapPages_present here, missing_present here, List.isEmpty_nil]
  generalize hx : List.foldl _ (acquire (locateAll s g.core g.kernel acc acc.spots).1 gid .dev, [], false) _ = x
  have inv : Beside s x.1 ∧ x.2.2 = false := by
    rw [← hx]
    refine List.foldlRecOn (motive := fun x : State × List Nat × Bool => Beside s x.1 ∧ x.2.2 = false) _ _ ⟨hl, rfl⟩ fun x hx y _ => ?_
    obtain ⟨hb, hp⟩ := hx
    split
    · exact ⟨readSpot_beside hb, by rw [hp, readSpot_clean (hb.2.2 clean)]; rfl⟩
    all_goals exact ⟨hb, hp⟩
  obtain ⟨hb, hp⟩ := inv
  simp only [hp, Bool.false_eq_true, ↓reduceIte]
  split
  next t ht =>
    obtain ⟨hgroups, hkernels, _⟩ := hb
    refine .inr ⟨t, keepsRecords_trans (keepsRecords_of_kernels hgroups hkernels)
      (foldl_bind_keepsRecords (fun u i v e => ?_) (fun u e => ?_) ht), rfl⟩
    · exact keepsRecords_trans (dropArena_keepsRecords _ _ _ _) (putRecord_keepsRecords (Nat.le_add_right _ _) e)
    · cases e
      exact ⟨rfl, fun _ _ h _ => h⟩
  · exact .inl rfl

/-- `RECSYNC_COMPLETE` of a seated group that a `RECSYNC` holds finishes it. -/
theorem exec_recsyncComplete_held {acc : Access} {q : Option RecNo} (hg : s.group? gid = some g) (hh : g.hold = some (.recsync acc))
    (ho : acc.op = .recsync q) (hs : g.seated = true) : exec (.recsyncComplete gid) s = .next (tick (recsyncFinish s gid acc q)) := by
  simp only [exec_recsyncComplete, execRecsyncComplete, hg, hh, ho, hs, if_true]

theorem exec_recsyncComplete_free (hg : s.group? gid = some g) (h : ∀ acc, g.hold ≠ some (.recsync acc)) :
    exec (.recsyncComplete gid) s = .next (tick s) := by
  simp only [exec_recsyncComplete, execRecsyncComplete, hg]

theorem recsyncFinish_busy {acc : Access} {q : Option RecNo} (hg : s.group? gid = some g) (busy : recordQuiet s g.kernel q = false) :
    recsyncFinish s gid acc q = s := by
  simp only [recsyncFinish, hg, busy, Bool.not_false, if_true]

/-- A completed `RECSYNC` leaves its group's registers and the records before its own, and holds its run no longer. -/
theorem goOn_keeps {q : Option RecNo} (hg : s.group? gid = some g) (hr : g.run.isSome = true) (k : KeepsRecords g.kernel (firstRecord q) s t) :
    ∃ h, (tick (goOn t gid)).group? gid = some h ∧ h.hold = none ∧ h.v = g.v ∧ h.s = g.s ∧ h.p = g.p ∧
      ∀ n x, KMap.get? (s.kernel g.kernel).records n = some x → n < firstRecord q →
        KMap.get? ((tick (goOn t gid)).kernel g.kernel).records n = some x := by
  obtain ⟨h, e, hh, hv, hs, hp⟩ := goOn_group ((group_of_groups k.1 gid).trans hg) hr
  refine ⟨h, e, hh, hv, hs, hp, fun n x hx hn => ?_⟩
  have ek : (tick (goOn t gid)).kernel g.kernel = t.kernel g.kernel := by
    simp only [State.kernel, tick, goOn_kernels]
  rw [ek]
  exact k.2 n x hx hn

end Sys2Proof.Proofs
end
section

/-! # Monitored waits re-read their word (R317) -/

namespace Sys2Proof.Proofs

open Sys2Proof Sys2Proof.Machine Sys2Proof.Laws

variable {s : State} {gid : Nat} {g : Group} {w : WaitA} {h : TileNo} {word : Nat} {x : Tile}

/-- The value of the data word, or pair of words, that a wait reads of a tile. -/
def waitValue (w : WaitA) (x : Tile) (word : Nat) : Nat := if w.width = 8 then x.word word + 2 ^ 32 * x.word (word + 1) else x.word word

theorem waitValue_lt (w : WaitA) (x : Tile) (word : Nat) : waitValue w x word < 2 ^ 64 := by
  have a := ((KMap.get? x.words word).getD 0).isLt
  have b := ((KMap.get? x.words (word + 1)).getD 0).isLt
  unfold waitValue Tile.word
  split <;> omega

/-- With no tile element of the group's loads outstanding, a tile's word is read as it stands. -/
theorem settleTile_idle (hg : s.group? gid = some g) (hl : ∀ y ∈ g.ld, y.places = []) : settleTile s gid h = s := by
  simp only [settleTile, hg]
  rw [if_neg]
  rw [Bool.not_eq_true, List.any_eq_false]
  intro y hy
  simp [hl y hy]

/-- An unpoisoned tile word is read with its value and some bound, and nothing changes. -/
theorem readWait_tile (hg : s.group? gid = some g) (ht : w.target = .tile h word) (hx : s.tile g.team h = some x) (hp : x.poison = [])
    (hl : ∀ y ∈ g.ld, y.places = []) : ∃ b, readWait s gid g w = (s, waitValue w x word, b, false) := by
  simp only [readWait, ht, settleTile_idle hg hl, hx, hp, List.contains_nil, Bool.and_false, Bool.or_false]
  exact ⟨_, rfl⟩

/-- The deadline of a wait has passed. -/
def late (w : WaitA) (clock : Nat) : Prop := ∃ t, w.deadline = some t ∧ t ≤ clock

/-- State u is what the re-reading of a wait that finds v comes to: the wait ends, or the group stays parked. -/
def ReadAgain (s : State) (gid : Nat) (g : Group) (w : WaitA) (v : Nat) (u : State) : Prop :=
  (v ≠ w.expected.toNat ∨ late w s.clock → ∃ h : Group, u = goOn (s.setGroup gid h) gid ∧
    h = { g with s := h.s, sb := h.sb, waita := none, unsettled := h.unsettled } ∧ h.s[w.d.val] = BitVec.ofNat 64 v ∧
    ∀ n : UReg, n ≠ w.d → h.s[n.val] = g.s[n.val] ∧ h.sb[n.val] = g.sb[n.val]) ∧
  (v = w.expected.toNat → ¬late w s.clock → ∃ b : B16, u = s.setGroup gid { g with
    waita := some { w with last := BitVec.ofNat 64 v, lastBound := b, woken := false }, hold := some .waita
    parkedSince := some (g.parkedSince.getD s.clock) })

theorem late_iff (w : WaitA) (clock : Nat) : (match w.deadline with
    | some t => decide (t ≤ clock)
    | none => false) = true ↔ late w clock := by
  unfold late
  cases w.deadline <;> simp

/-- A uniform result that ends a wait writes its register and nothing else. -/
theorem land_waitEnd (g : Group) (score : Bool) (run : Nat) (d : UReg) (v : W64) (b : B16) :
    ∃ h, Group.land { g with waita := none } score run (.u d v b) = h ∧
      h = { g with s := h.s, sb := h.sb, waita := none, unsettled := h.unsettled } ∧ h.s[d.val] = v ∧
      ∀ n : UReg, n ≠ d → h.s[n.val] = g.s[n.val] ∧ h.sb[n.val] = g.sb[n.val] :=
  ⟨_, rfl, rfl, (uni_apply_same { g with waita := none } score d v b).1,
    fun n hn => (frame_apply { g with waita := none } score (.u d v b)).uni n (by simpa [wU] using hn)⟩

theorem ofNat_waitValue (w : WaitA) (x : Tile) (word : Nat) (e : W64) :
    BitVec.ofNat 64 (waitValue w x word) = e ↔ waitValue w x word = e.toNat := by
  rw [← BitVec.toNat_inj, BitVec.toNat_ofNat, Nat.mod_eq_of_lt (waitValue_lt w x word)]

theorem rereadWait_tile (hg : s.group? gid = some g) (hw : g.waita = some w) (hr : g.run.isSome = true) (ht : w.target = .tile h word)
    (hx : s.tile g.team h = some x) (hp : x.poison = []) (hl : ∀ y ∈ g.ld, y.places = []) :
    ReadAgain s gid g w (waitValue w x word) (rereadWait s gid) := by
  obtain ⟨run, hr⟩ := Option.isSome_iff_exists.1 hr
  obtain ⟨b, hb⟩ := readWait_tile hg ht hx hp hl
  have leave : (decide (BitVec.ofNat 64 (waitValue w x word) ≠ w.expected) || (match w.deadline with
      | some t => decide (t ≤ s.clock)
      | none => false)) = true ↔ waitValue w x word ≠ w.expected.toNat ∨ late w s.clock := by
    rw [Bool.or_eq_true, decide_eq_true_iff, late_iff, Ne, ofNat_waitValue]
  unfold rereadWait
  simp only [hg, hw, hr, hb, Bool.false_eq_true, ↓reduceIte]
  constructor
  · intro k
    rw [if_pos, modGroup_eq hg]
    · obtain ⟨h, e, rest⟩ := land_waitEnd g (s.kernel g.kernel).score g.runId w.d (BitVec.ofNat 64 (waitValue w x word))
        (scoreB (s.kernel g.kernel).score b)
      exact ⟨h, by rw [← e], rest⟩
    · exact leave.2 k
  · intro e k
    rw [if_neg, modGroup_eq hg]
    · exact ⟨_, rfl⟩
    · exact fun c => (leave.1 c).elim (fun ne => ne e) k

/-! ### The three events -/

theorem exec_wait_none (hg : s.group? gid = some g) (hw : g.waita = none) {i : Instr}
    (hi : i = .waitaWake gid ∨ i = .waitaPoll gid ∨ i = .waitaDeadline gid) : exec i s = .next (tick s) := by
  rcases hi with rfl | rfl | rfl
  · simp only [exec_waitaWake, execWaitaWake, hg, hw]
  · simp only [exec_waitaPoll, execWaitaPoll, hg, hw]
  · simp only [exec_waitaDeadline, execWaitaDeadline, hg, hw]

theorem exec_waitaWake_some (hg : s.group? gid = some g) (hw : g.waita = some w) :
    exec (.waitaWake gid) s = .next (tick (if g.seated = true ∧ w.woken = true then rereadWait s gid else s)) := by
  simp only [exec_waitaWake, execWaitaWake, hg, hw, Bool.and_eq_true]

/-- The state with a clock of the last poll kept in the group's wait. -/
def polledAt (s : State) (gid : Nat) (g : Group) (w : WaitA) (polled : Nat) : State :=
  s.setGroup gid { g with waita := some { w with polled := polled } }

/-- A wait that keeps its clock is left as it is. -/
theorem polledAt_self (hg : s.group? gid = some g) (hw : g.waita = some w) : polledAt s gid g w w.polled = s := by
  have e : ({ g with waita := some { w with polled := w.polled } } : Group) = g := by
    rw [show some { w with polled := w.polled } = g.waita from hw.symm]
  rw [polledAt, e, setGroup_self hg]

theorem exec_waitaPoll_some (hg : s.group? gid = some g) (hw : g.waita = some w) :
    exec (.waitaPoll gid) s = .next (tick (if g.seated = true ∧ w.armed = false ∧ w.polled + 1024 ≤ s.clock then
      rereadWait (polledAt s gid g w s.clock) gid else s)) := by
  simp only [exec_waitaPoll, execWaitaPoll, hg, hw, Bool.and_eq_true, Bool.not_eq_true', decide_eq_true_eq, and_assoc]
  rfl

theorem exec_waitaDeadline_some (hg : s.group? gid = some g) (hw : g.waita = some w) :
    exec (.waitaDeadline gid) s =
      .next (tick (if g.seated = true ∧ ∃ t, w.deadline = some t ∧ t ≤ s.clock then rereadWait s gid else s)) := by
  simp only [exec_waitaDeadline, execWaitaDeadline, hg, hw]
  cases w.deadline with
  | none => simp
  | some t => simp

/-- An event that re-reads a tile's word, with `polled` kept as the clock of the last poll. -/
theorem rereads_tile {i : Instr} {polled : Nat} (he : exec i s = .next (tick (rereadWait (polledAt s gid g w polled) gid))) (hr : g.run.isSome = true)
    (ht : w.target = .tile h word) (hx : s.tile g.team h = some x) (hp : x.poison = []) (hl : ∀ y ∈ g.ld, y.places = []) :
    Rereads i s gid g w (waitValue w x word) polled := by
  obtain ⟨ends, stays⟩ :=
    rereadWait_tile (s := polledAt s gid g w polled) (w := { w with polled := polled }) (group_setGroup _ _ _) rfl hr ht hx hp hl
  simp only [polledAt, setGroup_setGroup] at ends stays he
  constructor
  · intro c
    obtain ⟨h, hu, rest⟩ := ends c
    exact ⟨h, hu ▸ he, rest⟩
  · intro e c
    obtain ⟨b, hu⟩ := stays e fun ⟨t, hd, ht⟩ => absurd (c t hd) (Nat.not_lt.2 ht)
    exact ⟨b, hu ▸ he⟩

end Sys2Proof.Proofs
end
section

/-! # Units, counters and waits complete: the statement's clauses -/

namespace Sys2Proof.Proofs

open Sys2Proof Sys2Proof.Machine Sys2Proof.Laws

variable {s : State} {gid : Nat} {g : Group}

/-- The oldest step of the ld counter, once performed, writes its registers and is lowered. -/
theorem ldStep_settles {x : CStep} {rest : List CStep} (hg : s.group? gid = some g) (h : g.ld = x :: rest) (hx : x.performed = true) :
    ∃ h, exec (.ldStepComplete gid) s = .next (tick (s.setGroup gid h)) ∧
      Settled (s.kernel g.kernel).score x.run { g with ld := rest, sticky := g.sticky ||| x.sticky } h x.writes :=
  ⟨_, by rw [exec_ldStep_cons hg h, if_pos hx]; rfl, settled_landAll _ _ _ _⟩

/-- A quiet `RECSYNC` with all its pages present stays held for want of room, or completes and leaves its group's registers. -/
theorem recsync_completes {acc : Access} {q : Option RecNo} (hg : s.group? gid = some g) (hh : g.hold = some (.recsync acc))
    (ho : acc.op = .recsync q) (hs : g.seated = true) (quiet : recordQuiet s g.kernel q = true) (hr : g.run.isSome = true) (clean : s.poison = [])
    (here : ∀ x ∈ (locateAll s g.core g.kernel acc acc.spots).2, ∃ a pa, x.2 = .at_ a pa) :
    exec (.recsyncComplete gid) s = .next (tick s) ∨
      ∃ t h, exec (.recsyncComplete gid) s = .next t ∧ t.group? gid = some h ∧ h.hold = none ∧ h.v = g.v ∧ h.s = g.s ∧ h.p = g.p ∧
        ∀ n x, KMap.get? (s.kernel g.kernel).records n = some x → n < firstRecord q → KMap.get? (t.kernel g.kernel).records n = some x := by
  rw [exec_recsyncComplete_held hg hh ho hs]
  rcases recsyncFinish_present hg quiet clean here with e | ⟨t, k, e⟩
  · exact .inl (by rw [e])
  · obtain ⟨h, keeps⟩ := goOn_keeps hg hr k
    exact .inr ⟨_, h, by rw [e], keeps⟩

/-- Settles O48: a unit's oldest result lands write by write (`settled_landAll`) or traps; a performed counter step is lowered; `RECSYNC`'s read and
its acquire leave the groups and the kernels (`Beside`); and every re-read of a tile's word ends the wait or keeps it (`rereads_tile`). -/
theorem unitsAndWaitsComplete : Obligations.UnitsAndWaitsComplete := by
  unfold Obligations.UnitsAndWaitsComplete
  refine ⟨fun s gid g hg => ⟨fun i kind hi => ⟨exec_result_none hi hg, fun a p b hs ha hp => ?_⟩,
    fun x rest hx => ⟨fun k => ?_, ldStep_settles hg hx⟩, exec_ldStep_nil hg,
    fun x rest hx => exec_stStep_cons hg hx, exec_stStep_nil hg, exec_recsyncComplete_free hg,
    fun acc q hh ho hs => ⟨fun busy => ?_, fun quiet hr clean here => ?_⟩⟩,
    fun s gid g hg => ⟨fun hw i => exec_wait_none hg hw, fun w hw => ⟨fun no => ?_, fun no => ?_, fun no => ?_,
      fun h word x ht hx hp hr hs hl => ⟨fun wo => ?_, fun ar po => ?_, fun t hd late => ?_⟩⟩⟩⟩
  case refine_1 =>
    obtain ⟨waits, appears⟩ := exec_result_split hi hg hs ha hp
    obtain ⟨h, flags, pend, writes, traps⟩ := resultAppears hg hs ha hp
    refine ⟨waits, fun old => ⟨h, flags, pend, fun ht hc => ?_, fun t ht => ?_⟩⟩
    · obtain ⟨S, e⟩ := writes ht hc
      exact ⟨S, by rw [appears old, e]⟩
    · obtain ⟨hh, e, trl⟩ := traps t ht
      exact ⟨hh, by rw [appears old, e], trl⟩
  case refine_2 => rw [exec_ldStep_cons hg hx, if_neg (by simp [k])]
  case refine_3 => rw [exec_recsyncComplete_held hg hh ho hs, recsyncFinish_busy hg busy]
  case refine_4 => cases q <;> exact recsync_completes hg hh ho hs quiet hr clean here
  case refine_5 => rw [exec_waitaWake_some hg hw, if_neg no]
  case refine_6 => rw [exec_waitaPoll_some hg hw, if_neg no]
  case refine_7 => rw [exec_waitaDeadline_some hg hw, if_neg no]
  case refine_8 => exact rereads_tile (by rw [exec_waitaWake_some hg hw, if_pos ⟨hs, wo⟩, polledAt_self hg hw]) hr ht hx hp hl
  case refine_9 => exact rereads_tile (by rw [exec_waitaPoll_some hg hw, if_pos ⟨hs, ar, po⟩]) hr ht hx hp hl
  case refine_10 => exact rereads_tile (by rw [exec_waitaDeadline_some hg hw, if_pos ⟨hs, t, hd, late⟩, polledAt_self hg hw]) hr ht hx hp hl

end Sys2Proof.Proofs
end
section
/-! # Transfers out of a run, slice by slice (R71–R79) -/

namespace Sys2Proof.Proofs

open Sys2Proof Sys2Proof.Machine Sys2Proof.Laws

variable {i : Instr} {s : State} {c : Gang} {u : Uses} {taken : Bool} {f : Nat → Slice → Except TrapInfo (Slice × Bool)}
  {new : Fin 8 → Slice × Bool} {P Q : Group → BitVec 8 → Prop}

/-! ### Control of a gang, as the next state -/

/-- A group that is set and then advanced is all that changes beside the clock and one core's counters. -/
theorem advance_setGroup_onlyGroup (s : State) (gid n : Nat) (g : Group) (m : BitVec 8) (taken : Bool) :
    OnlyGroup s (tick (advance (s.setGroup gid g) gid n m taken)) gid := by
  rcases advance_eq (s.setGroup gid g) gid n m taken with e | ⟨core, vf, h, e⟩
  · rw [e]
    exact { memory := fun _ => rfl, sidebands := rfl, poison := rfl, pool := rfl, durable := ⟨rfl, rfl⟩, hub := rfl, caches := fun _ => rfl
            accumulators := fun _ => ⟨rfl, rfl, rfl⟩, groups := fun x hx => group_setGroup_other s gid x g hx
            teams := rfl, kernels := rfl, contexts := rfl, partitions := rfl, queues := rfl, device := rfl }
  · rw [e]
    have hc : ∀ x, ∃ p, (tick ((pmcCore (s.setGroup gid g) core vf 2 1).setGroup gid h)).core x = { s.core x with pmc := p } :=
      fun x => core_pmcCore (s.setGroup gid g) core vf 2 1 x
    exact { memory := fun _ => rfl, sidebands := rfl, poison := rfl, pool := rfl, durable := ⟨rfl, rfl⟩, hub := rfl
            caches := fun x => by obtain ⟨p, e⟩ := hc x; rw [e]
            accumulators := fun x => by obtain ⟨p, e⟩ := hc x; rw [e]; exact ⟨rfl, rfl, rfl⟩
            groups := fun x hx => (group_setGroup_other (pmcCore (s.setGroup gid g) core vf 2 1) gid x h hx).trans (group_setGroup_other s gid x g hx)
            teams := rfl, kernels := rfl, contexts := rfl, partitions := rfl, queues := rfl, device := rfl }

theorem transfers_mono (h : Transfers i s c taken P) (hPQ : ∀ g m, P g m → Q g m) : Transfers i s c taken Q := by
  obtain ⟨g, m, e, only, p⟩ := h
  exact ⟨g, m, e, only, hPQ g m p⟩

/-- Control that no slice refuses transfers each slice of the gang as it says. -/
theorem transfers_of_control (he : exec i s = .next (finish (s.setGroup c.gid c.g) c (c.control s taken (c.eachSlice f))))
    (hf : ∀ j : Fin 8, bit c.run.slices j.val = true → f j.val c.g.slices[j.val] = .ok (new j)) :
    Transfers i s c taken fun g m => SliceResult c g m new := by
  obtain ⟨g, m, e, r⟩ := eachSlice_ok c f new hf
  exact ⟨g, m, by rw [he, e]; rfl, advance_setGroup_onlyGroup s c.gid c.words g m _, r⟩

/-- An instruction controls each slice by itself: a slice of which p holds comes to r, and any other traps with t. -/
def ControlsSlices (i : Instr) (s : State) (c : Gang) (taken : Bool) (p : Nat → Slice → Prop) (r : Nat → Slice → Slice × Bool) (t : TrapInfo) : Prop :=
  ∃ f, exec i s = .next (finish (s.setGroup c.gid c.g) c (c.control s taken (c.eachSlice f))) ∧
    (∀ j sl, p j sl → f j sl = .ok (r j sl)) ∧ ∀ j sl, ¬p j sl → f j sl = .error t

section Controls

variable {p : Nat → Slice → Prop} {r : Nat → Slice → Slice × Bool} {t : TrapInfo} (h : ControlsSlices i s c taken p r t)
include h

theorem controlsSlices_transfers (all : ∀ j : Fin 8, bit c.run.slices j.val = true → p j.val c.g.slices[j.val]) :
    Transfers i s c taken fun g m => SliceResult c g m fun j => r j.val c.g.slices[j.val] := by
  obtain ⟨f, he, ok, -⟩ := h
  exact transfers_of_control he fun j hj => ok j.val _ (all j hj)

/-- One slice that is refused makes the whole gang trap (R86). -/
theorem controlsSlices_traps (some : ∃ j : Fin 8, bit c.run.slices j.val = true ∧ ¬p j.val c.g.slices[j.val]) :
    exec i s = .next (trapped s c t) := by
  obtain ⟨f, he, ok, err⟩ := h
  obtain ⟨j, hb, hj⟩ := some
  have one : ∀ j sl t', f j sl = .error t' → t' = t := fun j sl t' e => by
    by_cases hp : p j sl
    · rw [ok j sl hp] at e; cases e
    · rw [err j sl hp] at e; exact (Except.error.inj e).symm
  rw [he, eachSlice_error c f t one j hb (by rintro sl rfl; exact err j.val _ hj)]
  rfl

end Controls

/-! ### `BRA` (R77) -/

/-- The stack slots that R77 needs of a slice whose lanes t take the branch and whose lanes n fall through. -/
def braNeed (t n : BitVec 4) : Nat := if t ≠ 0 ∧ n ≠ 0 then 2 else 1

theorem one_le_braNeed (t n : BitVec 4) : 1 ≤ braNeed t n := by unfold braNeed; split <;> omega

theorem free_lt_iff {sl : Slice} {k : Nat} (hk : 1 ≤ k) : sl.free < k ↔ ¬sl.stack.length + k ≤ 16 := by unfold Slice.free; omega

/-- A guarded `BRA` in one slice with room on its stack is R77's `branchSlice`. -/
theorem branch_eq_branchSlice (sl : Slice) (t n : BitVec 4) (target : W64) (off : W32) :
    (let r := sl.push { kind := .rejoin, jv := false, mask := sl.act, pc := 0 }
     (if t = 0 then .ok (r, false)
      else if n = 0 then .ok (r.to target, true)
      else .ok ({ r.push { kind := .pending, jv := false, mask := t, pc := off } with act := n }, false) : Except TrapInfo (Slice × Bool))) =
    .ok (branchSlice sl t n target off) := by
  unfold branchSlice
  dsimp only
  by_cases ht : t = 0
  · rw [if_pos ht, if_neg fun x => x.1 ht, if_neg (not_not_intro ht)]
    rfl
  · rw [if_neg ht]
    by_cases hn : n = 0
    · rw [if_pos hn, if_neg fun x => x.2 hn, if_pos ht]
      rfl
    · rw [if_neg hn, if_pos ⟨ht, hn⟩]
      rfl

section Bra

variable {off : BitVec 24} (h : Issues (.bra off) s c {})
include h

theorem bra_unguarded (hg : bit c.mode 15 = false) :
    Transfers (.bra off) s c true fun g m => SliceResult c g m fun j => ({ c.g.slices[j.val] with pc := jumpTarget c.pc off }, true) :=
  transfers_of_control (issue_next h _) fun j _ => by simp [hg, Slice.to]

theorem bra_guarded (hg : bit c.mode 15 = true) : ControlsSlices (.bra off) s c true
    (fun j sl => sl.stack.length + braNeed (sl.act &&& guardLanes c j) (sl.act &&& ~~~guardLanes c j) ≤ 16)
    (fun j sl => branchSlice sl (sl.act &&& guardLanes c j) (sl.act &&& ~~~guardLanes c j) (jumpTarget c.pc off)
      (wordOff (s.codeOf c.g).va (jumpTarget c.pc off).toNat))
    (trapIllegal 4 0 c.lanes) := by
  refine ⟨_, issue_next h _, fun j sl room => ?_, fun j sl full => ?_⟩
  · rw [← branch_eq_branchSlice]
    simp only [hg, Bool.not_true, Bool.false_eq_true, ↓reduceIte]
    exact if_neg (mt (free_lt_iff (one_le_braNeed _ _)).mp (not_not_intro room))
  · simp only [hg, Bool.not_true, Bool.false_eq_true, ↓reduceIte]
    exact if_pos ((free_lt_iff (one_le_braNeed _ _)).mpr full)

end Bra

/-! ### `BRX` (R78) -/

/-- Entries pushed last first stand on the stack in their order. -/
theorem foldl_push (pend : Nat → StackEntry) (l : List Nat) (sl : Slice) :
    l.reverse.foldl (fun r x => r.push (pend x)) sl = { sl with stack := l.map pend ++ sl.stack } := by
  induction l with
  | nil => rfl
  | cons x l ih => rw [List.reverse_cons, List.foldl_append, ih]; rfl

/-- The lanes of t, in slice j, whose `BRX` target is x. -/
def brxLanes (c : Gang) (a : Src) (j : Nat) (t : BitVec 4) (x : Nat) : BitVec 4 :=
  t &&& maskOf 4 fun b => decide ((c.low32 a (j * c.k.perSlice + b)).toNat = x)

/-- The path of those lanes, pending. -/
def brxEntry (c : Gang) (a : Src) (j : Nat) (t : BitVec 4) (x : Nat) : StackEntry :=
  { kind := .pending, jv := false, mask := brxLanes c a j t x, pc := BitVec.ofNat 32 (x / 4) }

theorem one_le_brxNeed (c : Gang) (a : Src) (j : Nat) (sl : Slice) : 1 ≤ brxNeed c a j sl := by
  unfold brxNeed
  dsimp only
  split <;> omega

/-- The active lanes whose `BRX` target is not a multiple of 4. -/
def misaligned (c : Gang) (a : Src) : BitVec 32 := c.lanes &&& maskOf 32 fun l => decide ((c.low32 a l).toNat % 4 ≠ 0)

theorem misaligned_eq_zero_iff (c : Gang) (a : Src) :
    misaligned c a = 0 ↔ ∀ l < 32, bit c.lanes l = true → (c.low32 a l).toNat % 4 = 0 := by
  constructor
  · intro h l hl hb
    have := bit_and_mask c.lanes (fun l => decide ((c.low32 a l).toNat % 4 ≠ 0)) l hl
    rw [show c.lanes &&& _ = 0 from h, hb] at this
    simpa [bit] using this
  · intro h
    refine BitVec.eq_of_getLsbD_eq fun l hl => ?_
    have := bit_and_mask c.lanes (fun l => decide ((c.low32 a l).toNat % 4 ≠ 0)) l hl
    rw [show (misaligned c a).getLsbD l = _ from this]
    cases hb : bit c.lanes l
    · simp
    · simp [h l hl hb]

section Brx

variable {a : Src} (h : Issues (.brx a) s c { regs := srcRegs a }) (hl : c.last = true)
include h hl

theorem brx_misaligned (hb : misaligned c a ≠ 0) :
    ∃ t : TrapInfo, t.code = 0x04 ∧ t.async = false ∧ exec (.brx a) s = .next (trapped s c t) := by
  have he : exec (.brx a) s = _ :=
    (issueLast_next _ h hl).trans (congrArg (fun r => Host.Outcome.next (finish (s.setGroup c.gid c.g) c r)) (if_pos hb))
  exact ⟨_, rfl, rfl, he⟩

theorem brx_aligned (hb : misaligned c a = 0) : ControlsSlices (.brx a) s c true (fun j sl => sl.stack.length + brxNeed c a j sl ≤ 16)
    (fun j sl => brxSlice c a (s.codeOf c.g).va j sl) (trapIllegal 4 0 c.lanes) := by
  have he : exec (.brx a) s = _ :=
    (issueLast_next _ h hl).trans (congrArg (fun r => Host.Outcome.next (finish (s.setGroup c.gid c.g) c r)) (if_neg (not_not_intro hb)))
  refine ⟨_, he, fun j sl room => ?_, fun j sl full => ?_⟩
  · refine (if_neg (mt (free_lt_iff (one_le_brxNeed c a j sl)).mp (not_not_intro room))).trans ?_
    have pushed := fun l => foldl_push (brxEntry c a j (sl.act &&& guardLanes c j)) l (sl.push { kind := .rejoin, jv := false, mask := sl.act, pc := 0 })
    split
    next x rest htg =>
      replace htg : brxTargets c a j (sl.act &&& guardLanes c j) = x :: rest := htg
      unfold brxSlice
      dsimp only
      rw [htg]
      by_cases hn : sl.act &&& ~~~(sl.act &&& guardLanes c j) = 0
      · refine (if_neg (not_not_intro hn)).trans ?_
        rw [if_neg (by simpa using hn)]
        exact congrArg (fun r : Slice => Except.ok ({ r with
          act := brxLanes c a j (sl.act &&& guardLanes c j) x, pc := BitVec.ofNat 64 ((s.codeOf c.g).va + x) }, true)) (pushed rest)
      · refine (if_pos hn).trans ?_
        rw [if_pos (.inl hn), ← htg]
        exact congrArg (fun r : Slice => Except.ok ({ r with act := sl.act &&& ~~~(sl.act &&& guardLanes c j) }, false)) (pushed _)
    next htg =>
      replace htg : brxTargets c a j (sl.act &&& guardLanes c j) = [] := htg
      unfold brxSlice
      dsimp only
      rw [htg, if_pos (.inr rfl)]
      rfl
  · exact if_pos ((free_lt_iff (one_le_brxNeed c a j sl)).mpr full)

end Brx

/-! ### `JOIN` (R79) -/

theorem markRejoin_length (pc : W32) (l : List StackEntry) : (markRejoin pc l).length = l.length := by
  induction l with
  | nil => rfl
  | cons e l ih => unfold markRejoin; split <;> simp [ih]

/-- The nearest rejoin entry learns the `JOIN`. -/
theorem markRejoin_nearest {pc : W32} {l : List StackEntry} {n : Nat} {x : StackEntry} (hx : l[n]? = some x) (hk : x.kind = .rejoin)
    (first : ∀ (m : Nat) (y : StackEntry), m < n → l[m]? = some y → y.kind ≠ .rejoin) :
    (markRejoin pc l)[n]? = some { x with jv := true, pc := pc } := by
  induction l generalizing n with
  | nil => simp at hx
  | cons e l ih =>
    cases n with
    | zero =>
      obtain rfl : e = x := by simpa using hx
      simp [markRejoin, hk]
    | succ n =>
      have he : e.kind ≠ .rejoin := first 0 e (by omega) rfl
      rw [markRejoin, if_neg he]
      exact ih (n := n) (by simpa using hx) fun m y hm hy => first (m + 1) y (by omega) (by simpa using hy)

/-- The other entries stand as they are. -/
theorem markRejoin_others {pc : W32} {l : List StackEntry} {n : Nat} {x : StackEntry} (hx : l[n]? = some x)
    (other : x.kind ≠ .rejoin ∨ ∃ (m : Nat) (y : StackEntry), m < n ∧ l[m]? = some y ∧ y.kind = .rejoin) : (markRejoin pc l)[n]? = some x := by
  induction l generalizing n with
  | nil => simp at hx
  | cons e l ih =>
    unfold markRejoin
    cases n with
    | zero =>
      obtain rfl : e = x := by simpa using hx
      have he : e.kind ≠ .rejoin := other.resolve_right (by simp)
      simp [he]
    | succ n =>
      by_cases he : e.kind = .rejoin
      · rw [if_pos he]; exact hx
      · rw [if_neg he]
        refine ih (n := n) (by simpa using hx) (other.imp_right ?_)
        rintro ⟨m, y, hm, hy, hk⟩
        cases m with
        | zero => exact absurd hk (by obtain rfl : e = y := by simpa using hy
                                      exact he)
        | succ m => exact ⟨m, y, by omega, by simpa using hy, hk⟩

/-- A slice after a `JOIN` at its entry e. -/
def joinSlice (c : Gang) (va : Nat) (sl : Slice) : Slice × Bool := match sl.stack with
  | e :: rest => if e.kind = .pending then ({ sl with stack := markRejoin (wordOff va c.pc) rest, act := e.mask, pc := offPc va e.pc }, true)
    else ({ sl with stack := rest, act := e.mask }, false)
  | [] => (sl, false)

theorem joinSlice_joinsTo {va : Nat} {sl : Slice} {e : StackEntry} {rest : List StackEntry} (hs : sl.stack = e :: rest) (hk : e.kind ≠ .call) :
    JoinsTo c va e rest sl (joinSlice c va sl).1 (joinSlice c va sl).2 := by
  unfold JoinsTo joinSlice
  rw [hs]
  cases hk' : e.kind with
  | call => exact hk hk'
  | rejoin => simp [hk']
  | pending =>
    simp only [hk', ↓reduceIte, true_and]
    exact ⟨markRejoin_length _ _, fun n x hx hr first => markRejoin_nearest hx hr first, fun n x hx other => markRejoin_others hx other⟩

section Join

variable (h : Issues .join s c {}) (hl : c.last = true)
include h hl

theorem join_controls : ControlsSlices .join s c true (fun _ sl => ∃ e rest, sl.stack = e :: rest ∧ e.kind ≠ .call)
    (fun _ sl => joinSlice c (s.codeOf c.g).va sl) (trapIllegal 7 0 c.lanes) := by
  refine ⟨_, issueLast_next _ h hl, fun j sl joins => ?_, fun j sl stuck => ?_⟩
  · obtain ⟨e, rest, hs, hk⟩ := joins
    unfold joinSlice
    cases hk' : e.kind <;> simp_all
  · cases hs : sl.stack with
    | nil => rfl
    | cons e rest =>
      have hk : e.kind = .call := by
        by_contra hk
        exact stuck ⟨e, rest, hs, hk⟩
      simp only [hk]

end Join

/-- Settles O9, slice by slice: each form is control by a function of one slice (`ControlsSlices`) that fails with one trap where the stack does not
serve it. -/
theorem branchesAndJoins : Obligations.BranchesAndJoins := by
  unfold Obligations.BranchesAndJoins
  refine ⟨⟨fun off s c h => ⟨bra_unguarded h, fun hg => controlsSlices_transfers (bra_guarded h hg), fun hg => controlsSlices_traps (bra_guarded h hg)⟩,
    fun a s c h hl => ?_⟩, fun s c h hl => ⟨fun all => ?_, controlsSlices_traps (join_controls h hl)⟩⟩
  · rw [← misaligned_eq_zero_iff]
    refine ⟨fun hb => controlsSlices_transfers (brx_aligned h hl hb), fun hb full => controlsSlices_traps (brx_aligned h hl hb) ?_, brx_misaligned h hl⟩
    push Not at full
    simpa using full
  · refine transfers_mono (controlsSlices_transfers (join_controls h hl) all) fun g m r => ⟨_, r, fun j hj e rest hs => ?_⟩
    obtain ⟨e', rest', hs', hk⟩ := all j hj
    obtain ⟨rfl, rfl⟩ : e' = e ∧ rest' = rest := by simpa using hs'.symm.trans hs
    exact joinSlice_joinsTo hs hk

end Sys2Proof.Proofs
end
section
/-! # `LOOPS` with a count of 0 and the versions that nothing reads any more (O10)

With a count of 0 `LOOPS` is done with the state that it was given, in which its group still lists register versions whose clock has passed;
`passed` has forgotten them, as for the words of O8. -/

namespace Sys2Proof.Proofs

open Sys2Proof Sys2Proof.Machine Sys2Proof.Laws

theorem exec_loops_zero {d : UReg} {off : BitVec 16} {s : State} {c : Gang} (h : Issues (.loops d off) s c { u := [d] }) (hl : c.last = true)
    (hz : (c.view.uni d).1 = 0) : exec (.loops d off) s = .next (wentPast s c) :=
  issueLast_done h hl (if_pos hz)

/-- The machine after reset with a `LOOPS` of s0, which is 0, about to issue, its group still listing the expired version. -/
def loopsBesideExpired : State :=
  let s := placeWords State.reset (encode (.loops 0 1))
  s.modGroup s.focus fun g => { g with unsettled := [expired] }

theorem gangOf_loopsBesideExpired : (gangOf (.loops 0 1) loopsBesideExpired).isSome = true := by decide +kernel

/-- The gang that issues the `LOOPS`. -/
def loopsGang : Gang := (gangOf (.loops 0 1) loopsBesideExpired).get gangOf_loopsBesideExpired

theorem loopsGang_issues : Issues (.loops 0 1) loopsBesideExpired loopsGang { u := [0] } where
  gang := (Option.some_get _).symm
  noTrapDue := by decide +kernel
  notBusy := by decide +kernel
  present := by decide +kernel
  clean := by decide +kernel
  legal := by decide +kernel

theorem loopsGang_last : loopsGang.last = true := by decide +kernel

theorem loopsGang_count : (loopsGang.view.uni 0).1 = 0 := by decide +kernel

theorem loops_listedVersions_wentPast : listedVersions (wentPast loopsBesideExpired loopsGang) loopsGang.gid = some [expired] := by decide +kernel

theorem loops_listedVersions_passed : listedVersions (passed loopsBesideExpired loopsGang) loopsGang.gid = some [] := by decide +kernel

/-- Refutes O10: a `LOOPS` whose count is 0 leaves its group's expired register version listed, which `passed` has forgotten. -/
theorem not_callsLoopsAndExits : ¬ Obligations.CallsLoopsAndExits := by
  unfold Obligations.CallsLoopsAndExits
  rintro ⟨⟨-, loops⟩, -⟩
  obtain ⟨zero, -⟩ := loops 0 1 loopsBesideExpired loopsGang loopsGang_issues loopsGang_last (by decide +kernel)
  have same : wentPast loopsBesideExpired loopsGang = passed loopsBesideExpired loopsGang :=
    Host.Outcome.next.inj ((exec_loops_zero loopsGang_issues loopsGang_last loopsGang_count).symm.trans (zero (congrArg BitVec.toNat loopsGang_count)))
  have listed := loops_listedVersions_wentPast
  rw [same, loops_listedVersions_passed] at listed
  cases listed

end Sys2Proof.Proofs
end
section
/-! # Maps, folds that choose, and the instruction cache's sets (R91) -/

namespace Sys2Proof.Proofs

open Sys2Proof Sys2Proof.Machine Sys2Proof.Laws

section General

variable {α : Type}

/-! ### Maps and their entries -/

theorem mem_of_get {m : KMap α} {n : Nat} {x : α} (h : KMap.get? m n = some x) : (n, x) ∈ m := by
  induction m with
  | nil => cases h
  | cons e m ih =>
    obtain ⟨k, v⟩ := e
    rcases lt_trichotomy n k with hk | rfl | hk
    · simp [KMap.get?, hk] at h
    · obtain rfl : v = x := by simpa [KMap.get?] using h
      exact List.mem_cons_self
    · simp only [KMap.get?, hk.not_gt, hk.ne, ↓reduceIte] at h
      exact List.mem_cons_of_mem _ (ih h)

theorem get_of_mem {m : KMap α} {n : Nat} {x : α} (hm : KMap.wf m = true) (h : (n, x) ∈ m) : KMap.get? m n = some x := by
  induction m with
  | nil => cases h
  | cons e m ih =>
    obtain ⟨k, v⟩ := e
    rcases List.mem_cons.1 h with h | h
    · cases h
      simp [KMap.get?]
    · have hk : k < n := wf_above hm n x h
      simpa [KMap.get?, hk.not_gt, hk.ne] using ih (wf_tail hm) h

theorem get_modify_same {m : KMap α} {n : Nat} {x : α} (h : KMap.get? m n = some x) (f : α → α) : KMap.get? (KMap.modify m n f) n = some (f x) := by
  unfold KMap.modify
  rw [h, get_set_same]

theorem get_modify_other (m : KMap α) {n a : Nat} (f : α → α) (h : a ≠ n) : KMap.get? (KMap.modify m n f) a = KMap.get? m a := by
  unfold KMap.modify
  split
  · exact get_set_other m n a _ h
  · rfl

/-- Every value of a modified map is one of the map before, changed or not. -/
theorem get_modify_cases (m : KMap α) (n a : Nat) (f : α → α) :
    KMap.get? (KMap.modify m n f) a = KMap.get? m a ∨ ∃ x, KMap.get? m a = some x ∧ KMap.get? (KMap.modify m n f) a = some (f x) := by
  by_cases ha : a = n
  · subst ha
    cases hx : KMap.get? m a with
    | none => exact .inl (by unfold KMap.modify; rw [hx]; exact hx)
    | some x => exact .inr ⟨x, rfl, get_modify_same hx f⟩
  · exact .inl (get_modify_other m f ha)

/-! ### Folds -/

theorem foldl_fixed_of_mem {β : Type} {f : β → α → β} {b : β} {l : List α} (h : ∀ a ∈ l, f b a = b) : l.foldl f b = b := by
  induction l with
  | nil => rfl
  | cons a l ih =>
    rw [List.foldl_cons, h a List.mem_cons_self]
    exact ih fun x hx => h x (List.mem_cons_of_mem a hx)

/-- What has been chosen so far, or a candidate that comes before it. -/
def keepBest (lt : α → α → Prop) [DecidableRel lt] (acc : Option α) (x : α) : Option α := match acc with
  | none => some x
  | some y => if lt x y then some x else some y

variable {lt : α → α → Prop} [DecidableRel lt] {l : List α} {m : α}

theorem foldl_keepBest_mem {acc : Option α} (h : l.foldl (keepBest lt) acc = some m) : m ∈ l ∨ acc = some m := by
  induction l generalizing acc with
  | nil => exact .inr h
  | cons x l ih =>
    rcases ih h with hm | hm
    · exact .inl (List.mem_cons_of_mem x hm)
    · unfold keepBest at hm
      split at hm
      · exact .inl (by cases hm; exact List.mem_cons_self)
      · split at hm
        · exact .inl (by cases hm; exact List.mem_cons_self)
        · exact .inr hm

/-- The element that comes strictly before every other is the one chosen. -/
theorem foldl_keepBest_first (hm : m ∈ l) (irrefl : ¬lt m m) (first : ∀ x ∈ l, x ≠ m → lt m x ∧ ¬lt x m) :
    l.foldl (keepBest lt) none = some m := by
  have key : ∀ (l : List α) (acc : Option α), (∀ x ∈ l, x ≠ m → lt m x ∧ ¬lt x m) → (∀ y, acc = some y → y ≠ m → lt m y) →
      m ∈ l ∨ acc = some m → l.foldl (keepBest lt) acc = some m := by
    intro l
    induction l with
    | nil => exact fun acc _ _ h => h.resolve_left List.not_mem_nil
    | cons x l ih =>
      intro acc first below h
      have hx := first x List.mem_cons_self
      refine ih _ (fun y hy => first y (List.mem_cons_of_mem x hy)) (fun y hy hne => ?_) ?_
      · unfold keepBest at hy
        split at hy
        · cases hy; exact (hx hne).1
        · split at hy
          · cases hy; exact (hx hne).1
          · exact below y hy hne
      · by_cases hxm : x = m
        · right
          subst hxm
          cases acc with
          | none => rfl
          | some y =>
            by_cases hy : y = x
            · subst hy; exact if_neg irrefl
            · exact if_pos (below y rfl hy)
        · rcases h with h | h
          · exact .inl ((List.mem_cons.1 h).resolve_left (Ne.symm hxm))
          · right
            rw [h]
            exact if_neg (hx hxm).2
  exact key l none first (fun y hy => by cases hy) (.inl hm)

end General

/-! ### The instruction cache keeps the first eight lines of each set -/

/-- The lines of a list in a set. -/
def inSet (l : List Nat) (k : Nat) : Nat := (l.filter fun y => decide (y % 128 = k)).length

/-- A list without the lines that eight of their set come before. -/
def firstEights (l : List Nat) : List Nat :=
  (l.zipIdx.filter fun x => decide (((l.take x.2).filter fun y => decide (y % 128 = x.1 % 128)).length < 8)).map (·.1)

theorem firstEights_concat (l : List Nat) (a : Nat) : firstEights (l ++ [a]) = firstEights l ++ if inSet l (a % 128) < 8 then [a] else [] := by
  unfold firstEights
  rw [List.zipIdx_append, List.filter_append, List.map_append]
  congr 1
  · congr 1
    refine List.filter_congr fun x hx => ?_
    have hx2 : x.2 < l.length := by
      have := List.snd_lt_of_mem_zipIdx hx
      simpa using this
    rw [List.take_append_of_le_length hx2.le]
  · rw [show [a].zipIdx (0 + l.length) = [(a, l.length)] by simp, List.filter_singleton]
    dsimp only
    rw [List.take_left]
    change List.map _ (bif decide (inSet l (a % 128) < 8) then _ else _) = _
    by_cases h : inSet l (a % 128) < 8
    · rw [if_pos h, decide_eq_true h]
      rfl
    · rw [if_neg h, decide_eq_false h]
      rfl

theorem inSet_append (l m : List Nat) (k : Nat) : inSet (l ++ m) k = inSet l k + inSet m k := by
  unfold inSet
  rw [List.filter_append, List.length_append]

/-- No set is left with more than eight lines. -/
theorem inSet_firstEights (l : List Nat) (k : Nat) : inSet (firstEights l) k = min 8 (inSet l k) := by
  induction l using List.reverseRecOn with
  | nil => rfl
  | append_singleton l a ih =>
    rw [firstEights_concat, inSet_append, ih, inSet_append]
    by_cases ha : a % 128 = k
    · subst ha
      split <;> simp [inSet] at * <;> omega
    · have one : inSet [a] k = 0 := by simp [inSet, ha]
      rw [one]
      split
      · rw [one]; rfl
      · rfl

/-- A line that fewer than eight of its set come before is kept. -/
theorem mem_firstEights {l m : List Nat} {a : Nat} (h : inSet l (a % 128) < 8) : a ∈ firstEights (l ++ a :: m) := by
  induction m using List.reverseRecOn with
  | nil => rw [firstEights_concat, if_pos h]; exact List.mem_append_right _ (List.mem_singleton_self a)
  | append_singleton m b ih =>
    rw [← List.cons_append, ← List.append_assoc, firstEights_concat]
    exact List.mem_append_left _ ih

theorem icacheAdd_eq (cache lines : List Nat) : icacheAdd cache lines = firstEights (lines.dedup ++ cache.filter fun x => !lines.contains x) := rfl

theorem inSet_icacheAdd_le (cache lines : List Nat) (k : Nat) : inSet (icacheAdd cache lines) k ≤ 8 := by
  rw [icacheAdd_eq, inSet_firstEights]
  exact Nat.min_le_left _ _

/-- A line that comes, with at most eight of its set, is in the cache then. -/
theorem mem_icacheAdd {cache lines : List Nat} {a : Nat} (ha : a ∈ lines) (few : inSet lines (a % 128) ≤ 8) : a ∈ icacheAdd cache lines := by
  obtain ⟨p, q, hpq⟩ := List.append_of_mem (List.mem_dedup.2 ha)
  have fewer : inSet lines.dedup (a % 128) ≤ inSet lines (a % 128) := ((List.dedup_sublist lines).filter _).length_le
  rw [hpq, inSet_append] at fewer
  have one : 0 < inSet (a :: q) (a % 128) := by simp [inSet]
  rw [icacheAdd_eq, hpq, List.append_assoc, List.cons_append]
  exact mem_firstEights (by omega)

end Sys2Proof.Proofs
end
section
/-! # Fetches: what they depend on, and what they leave alone (R91, R262–R269, R271) -/

namespace Sys2Proof.Proofs

open Sys2Proof Sys2Proof.Machine Sys2Proof.Laws

variable {s t : State} {g : Group} {core asid va : Nat}

/-! ### States that translate and fetch alike -/

/-- The part of a context that its page tables depend on. -/
def pageRoot (c : Context) : Nat × Nat := (c.part, c.root)

/-- Two states that differ, for a fetch, in nothing: the same memory, TLB, kernels, partitions, device, clock and serial number, and contexts with the
same page tables. -/
structure FetchAlike (s t : State) : Prop where
  mem : t.mem = s.mem
  tlb : t.tlb = s.tlb
  kernels : t.kernels = s.kernels
  parts : t.parts = s.parts
  dev : t.dev = s.dev
  clock : t.clock = s.clock
  serial : t.serial = s.serial
  roots : ∀ a, (KMap.get? t.ctxs a).map pageRoot = (KMap.get? s.ctxs a).map pageRoot

/-- Two fetches, or parts of one, have one outcome and leave the states alike. -/
def SameFetch {β : Type} (p q : State × β) : Prop := q.2 = p.2 ∧ FetchAlike p.1 q.1

section Alike

variable (h : FetchAlike s t)
include h

theorem fetchAlike_kernel (n : Nat) : t.kernel n = s.kernel n := by unfold State.kernel; rw [h.kernels]

theorem fetchAlike_codeOf (g : Group) : t.codeOf g = s.codeOf g := by unfold State.codeOf; rw [fetchAlike_kernel h]

theorem fetchAlike_vfOf (a : Nat) : t.vfOf a = s.vfOf a := by unfold State.vfOf; rw [h.dev]

theorem walkFrom_alike (part asid va : Nat) (see : Nat → W64 → W64) (fuel level table : Nat) :
    walkFrom t part asid va see fuel level table = walkFrom s part asid va see fuel level table := by
  have hdur : ∀ p b, durWindow t p b = durWindow s p b := fun p b => by unfold durWindow; rw [h.dev]
  have hforeign : ∀ p b, foreignFrame t p b = foreignFrame s p b := fun p b => by
    unfold foreignFrame poolWindow partCountOf
    rw [h.dev]
  have hbad : ∀ p l e, pteMalformed t p l e = pteMalformed s p l e := fun p l e => by unfold pteMalformed; simp only [hdur, hforeign]
  induction fuel generalizing level table with
  | zero => rfl
  | succ fuel ih =>
    unfold walkFrom
    simp only [ih, hbad, h.mem, h.serial]

/-- A context of one state and that of the other have the same page tables, or there is none in either. -/
theorem roots_cases (a : Nat) : (KMap.get? t.ctxs a = none ∧ KMap.get? s.ctxs a = none) ∨
    ∃ c d, KMap.get? t.ctxs a = some c ∧ KMap.get? s.ctxs a = some d ∧ c.part = d.part ∧ c.root = d.root := by
  have hr := h.roots a
  cases ht : KMap.get? t.ctxs a <;> cases hs : KMap.get? s.ctxs a <;> rw [ht, hs] at hr
  · exact .inl ⟨rfl, rfl⟩
  · cases hr
  · cases hr
  · obtain ⟨hp, hroot⟩ := Prod.mk.inj (Option.some.inj hr)
    exact .inr ⟨_, _, rfl, rfl, hp, hroot⟩

theorem walkNow_alike (asid va : Nat) : walkNow t asid va = walkNow s asid va := by
  unfold walkNow
  rcases roots_cases h asid with ⟨ht, hs⟩ | ⟨c, d, ht, hs, hp, hroot⟩
  · rw [ht, hs]
  · rw [ht, hs]
    simp only [walkFrom_alike h, hp, hroot]

theorem codeWord_alike (g : Group) (pc : Nat) : codeWord t g pc = codeWord s g pc := by
  unfold codeWord fetchWord
  rw [fetchAlike_codeOf h, fetchAlike_kernel h, walkNow_alike h, h.mem]

theorem startMode_alike (g : Group) (j : Nat) : startMode t g j = startMode s g j := by
  unfold startMode
  rw [fetchAlike_codeOf h, h.clock, h.serial]

theorem gangsOf_alike (g : Group) (m : BitVec 8) : gangsOf t g m = gangsOf s g m := by
  unfold gangsOf
  simp only [startMode_alike h]

theorem gangReady_alike (g : Group) (m : GangPick) : gangReady t g m = gangReady s g m := by
  unfold gangReady
  rw [fetchAlike_codeOf h, codeWord_alike h, h.clock]

theorem readyGangs_alike (g : Group) : readyGangs t g = readyGangs s g := by
  have hready : gangReady t g = gangReady s g := funext (gangReady_alike h g)
  unfold readyGangs
  rw [fetchAlike_kernel h, gangsOf_alike h, hready]

/-! ### Fetches in states that are alike -/

omit h in
theorem fetchAlike_ite {c : Prop} [Decidable c] {a a' b b' : State} (hp : FetchAlike a a') (hq : FetchAlike b b') :
    FetchAlike (if c then a else b) (if c then a' else b') := by
  split
  · exact hp
  · exact hq

omit h in
theorem sameFetch_ite {β : Type} {c : Prop} [Decidable c] {p p' q q' : State × β} (hp : SameFetch p p') (hq : SameFetch q q') :
    SameFetch (if c then p else q) (if c then p' else q') := by
  split
  · exact hp
  · exact hq

theorem fetchAlike_tlb (l : List TlbEntry) (keep : TlbEntry → Bool) :
    FetchAlike { s with tlb := l ++ s.tlb.filter keep } { t with tlb := l ++ t.tlb.filter keep } :=
  ⟨h.mem, congrArg (l ++ List.filter keep ·) h.tlb, h.kernels, h.parts, h.dev, h.clock, h.serial, h.roots⟩

theorem fetchAlike_pmcCore (c c' vf vf' n n' k k' : Nat) : FetchAlike (pmcCore s c vf n k) (pmcCore t c' vf' n' k') :=
  ⟨h.mem, h.tlb, h.kernels, h.parts, h.dev, h.clock, h.serial, h.roots⟩

theorem fetchAlike_sampleAccess (core part asid va kind : Nat) (a : Attr) :
    FetchAlike (sampleAccess s core part asid va kind a) (sampleAccess t core part asid va kind a) := by
  have hp : t.part part = s.part part := by unfold State.part; rw [h.parts]
  unfold sampleAccess
  rw [hp]
  dsimp only
  split
  · exact ⟨h.mem, h.tlb, h.kernels, h.parts, h.dev, h.clock, h.serial, h.roots⟩
  · exact h

theorem translate_alike (core asid va : Nat) : SameFetch (Machine.translate s core asid va) (Machine.translate t core asid va) := by
  have hfind : ∀ l, tlbFind t core asid l va = tlbFind s core asid l va := fun l => by unfold tlbFind; rw [h.tlb]
  unfold Machine.translate
  refine sameFetch_ite ⟨rfl, h⟩ ?_
  rcases roots_cases h asid with ⟨ht, hs⟩ | ⟨c, d, ht, hs, hp, hroot⟩
  · rw [ht, hs]; exact ⟨rfl, h⟩
  · rw [ht, hs]
    simp only [walkFrom_alike h, hp, hroot, hfind, h.serial, fetchAlike_vfOf h]
    have counted := fetchAlike_pmcCore h core core (s.vfOf asid) (s.vfOf asid) 7 7 1 1
    exact sameFetch_ite ⟨rfl, fetchAlike_tlb (fetchAlike_ite h counted) _ _⟩ ⟨rfl, fetchAlike_ite h counted⟩

theorem fetchAt_alike (g : Group) (va : Nat) : SameFetch (fetchAt s g va) (fetchAt t g va) := by
  unfold fetchAt
  rw [fetchAlike_codeOf h, fetchAlike_kernel h]
  refine sameFetch_ite ⟨rfl, h⟩ ?_
  obtain ⟨same, alike⟩ := translate_alike h g.core (s.kernel g.kernel).asid va
  generalize Machine.translate s g.core (s.kernel g.kernel).asid va = p at *
  generalize Machine.translate t g.core (s.kernel g.kernel).asid va = q at *
  obtain ⟨s', x⟩ := p
  obtain ⟨t', y⟩ := q
  obtain rfl : y = x := same
  cases y with
  | page a pa => exact sameFetch_ite ⟨rfl, alike⟩ (sameFetch_ite ⟨rfl, alike⟩ ⟨by rw [alike.mem], alike⟩)
  | absent => exact ⟨rfl, alike⟩
  | migrating v => exact ⟨rfl, alike⟩
  | malformed => exact ⟨rfl, alike⟩

theorem fetchBody_alike (g : Group) (pc n : Nat) : SameFetch (fetchBody s g pc n) (fetchBody t g pc n) := by
  induction n with
  | zero => exact ⟨rfl, h⟩
  | succ n ih =>
    unfold fetchBody
    obtain ⟨same, alike⟩ := ih
    generalize fetchBody s g pc n = p at *
    generalize fetchBody t g pc n = q at *
    obtain ⟨s', x⟩ := p
    obtain ⟨t', y⟩ := q
    obtain rfl : y = x := same
    cases y with
    | error e => exact ⟨rfl, alike⟩
    | ok l =>
      obtain ⟨same, alike⟩ := fetchAt_alike alike g (pc + 4 * n)
      dsimp only at same alike ⊢
      generalize fetchAt s' g (pc + 4 * n) = p at *
      generalize fetchAt t' g (pc + 4 * n) = q at *
      obtain ⟨s'', x⟩ := p
      obtain ⟨t'', y⟩ := q
      obtain rfl : y = x := same
      cases y <;> exact ⟨rfl, alike⟩

theorem fetchRun_alike (g : Group) (m : BitVec 8) (pc : Nat) : SameFetch (fetchRun s g m pc) (fetchRun t g m pc) := by
  unfold fetchRun
  obtain ⟨same, alike⟩ := fetchAt_alike h g pc
  generalize fetchAt s g pc = p at *
  generalize fetchAt t g pc = q at *
  obtain ⟨s', x⟩ := p
  obtain ⟨t', y⟩ := q
  obtain rfl : y = x := same
  rcases y with e | ⟨w, l0, a⟩
  · exact ⟨rfl, alike⟩
  dsimp only
  refine sameFetch_ite ⟨rfl, alike⟩ (sameFetch_ite ⟨rfl, alike⟩ ?_)
  obtain ⟨same, alike'⟩ := fetchBody_alike alike g (pc + 4) (bits w 23 19)
  generalize fetchBody s' g (pc + 4) (bits w 23 19) = p at *
  generalize fetchBody t' g (pc + 4) (bits w 23 19) = q at *
  obtain ⟨s₂, x⟩ := p
  obtain ⟨t₂, y⟩ := q
  obtain rfl : y = x := same
  rcases y with e | ⟨ws, ls⟩
  · exact ⟨rfl, alike'⟩
  dsimp only at alike' ⊢
  rw [fetchAlike_codeOf alike', fetchAlike_kernel alike', alike'.serial]
  have sampled := fetchAlike_sampleAccess alike' g.core (s₂.kernel g.kernel).part (s₂.kernel g.kernel).asid pc 6 a
  generalize sampleAccess s₂ g.core (s₂.kernel g.kernel).part (s₂.kernel g.kernel).asid pc 6 a = s₃ at *
  generalize sampleAccess t₂ g.core (s₂.kernel g.kernel).part (s₂.kernel g.kernel).asid pc 6 a = t₃ at *
  rw [fetchAlike_codeOf sampled]
  refine sameFetch_ite ⟨rfl, sampled⟩ ?_
  obtain ⟨same, alike''⟩ := fetchAt_alike sampled g (pc + 4 + 4 * bits w 23 19)
  generalize fetchAt s₃ g (pc + 4 + 4 * bits w 23 19) = p at *
  generalize fetchAt t₃ g (pc + 4 + 4 * bits w 23 19) = q at *
  obtain ⟨s₄, x⟩ := p
  obtain ⟨t₄, y⟩ := q
  obtain rfl : y = x := same
  rcases y with e | ⟨w', l', a'⟩
  · cases e <;> exact ⟨rfl, alike''⟩
  · exact sameFetch_ite ⟨rfl, alike''⟩ (sameFetch_ite ⟨rfl, alike''⟩ ⟨rfl, alike''⟩)

end Alike

/-! ### What a fetch leaves alone -/

/-- State s differs from r, by fetches, in the TLB and in counters and samples of the cores alone. -/
structure FetchLeaves (r s : State) : Prop where
  groups : s.groups = r.groups
  mem : s.mem = r.mem
  clock : s.clock = r.clock
  serial : s.serial = r.serial
  focus : s.focus = r.focus
  kernels : s.kernels = r.kernels
  cores : ∀ n, (s.core n).current = (r.core n).current ∧ (s.core n).frozen = (r.core n).frozen ∧ (s.core n).icache = (r.core n).icache

section Leaves

variable {r s : State} {g : Group} {core asid va : Nat}

theorem fetchLeaves_refl (s : State) : FetchLeaves s s := ⟨rfl, rfl, rfl, rfl, rfl, rfl, fun _ => ⟨rfl, rfl, rfl⟩⟩

theorem fetchLeaves_ite {c : Prop} [Decidable c] {t : State} (hs : FetchLeaves r s) (ht : FetchLeaves r t) : FetchLeaves r (if c then s else t) := by
  split
  · exact hs
  · exact ht

theorem fst_fetchLeaves_ite {β : Type} {c : Prop} [Decidable c] {p q : State × β} (hp : FetchLeaves r p.1) (hq : FetchLeaves r q.1) :
    FetchLeaves r (if c then p else q).1 := by
  split
  · exact hp
  · exact hq

/-- A core may change but in its current groups, its frozen quarters and its instruction cache. -/
theorem setCore_fetchLeaves {x : Core} (h : FetchLeaves r s) (hc : x.current = (s.core core).current) (hf : x.frozen = (s.core core).frozen)
    (hi : x.icache = (s.core core).icache) : FetchLeaves r (s.setCore core x) := by
  refine ⟨h.groups, h.mem, h.clock, h.serial, h.focus, h.kernels, fun n => ?_⟩
  by_cases hn : n = core
  · rw [hn, core_setCore, hc, hf, hi]
    exact h.cores core
  · rw [core_setCore_other s core n x hn]
    exact h.cores n

theorem pmcCore_fetchLeaves {vf n k : Nat} (h : FetchLeaves r s) : FetchLeaves r (pmcCore s core vf n k) := setCore_fetchLeaves h rfl rfl rfl

theorem sampleAccess_fetchLeaves {part kind : Nat} {a : Attr} (h : FetchLeaves r s) : FetchLeaves r (sampleAccess s core part asid va kind a) :=
  fetchLeaves_ite (setCore_fetchLeaves h rfl rfl rfl) h

theorem tlb_fetchLeaves {l : List TlbEntry} (h : FetchLeaves r s) : FetchLeaves r { s with tlb := l } :=
  ⟨h.groups, h.mem, h.clock, h.serial, h.focus, h.kernels, h.cores⟩

theorem translate_fetchLeaves (h : FetchLeaves r s) : FetchLeaves r (Machine.translate s core asid va).1 := by
  unfold Machine.translate
  refine fst_fetchLeaves_ite h ?_
  split
  · exact h
  · exact fst_fetchLeaves_ite (tlb_fetchLeaves (fetchLeaves_ite h (pmcCore_fetchLeaves h))) (fetchLeaves_ite h (pmcCore_fetchLeaves h))

theorem fetchAt_fetchLeaves (h : FetchLeaves r s) : FetchLeaves r (fetchAt s g va).1 := by
  unfold fetchAt
  refine fst_fetchLeaves_ite h ?_
  have translated : FetchLeaves r (Machine.translate s g.core (s.kernel g.kernel).asid va).1 := translate_fetchLeaves h
  split <;> rename_i e <;> rw [e] at translated
  · exact fst_fetchLeaves_ite translated (fst_fetchLeaves_ite translated translated)
  all_goals exact translated

theorem fetchBody_fetchLeaves {pc n : Nat} (h : FetchLeaves r s) : FetchLeaves r (fetchBody s g pc n).1 := by
  induction n with
  | zero => exact h
  | succ n ih =>
    unfold fetchBody
    split <;> rename_i e <;> rw [e] at ih
    · exact ih
    · have fetched : FetchLeaves r (fetchAt _ g (pc + 4 * n)).1 := fetchAt_fetchLeaves ih
      split <;> rename_i e <;> rw [e] at fetched <;> exact fetched

theorem fetchBody_length {pc n : Nat} {t : State} {ws : List W32} {ls : List Nat} (e : fetchBody s g pc n = (t, .ok (ws, ls))) : ws.length = n := by
  induction n generalizing t ws ls with
  | zero => cases e; rfl
  | succ n ih =>
    unfold fetchBody at e
    split at e
    · cases e
    · rename_i heq
      split at e
      · cases e
      · cases e
        rw [List.length_cons, ih heq]

/-- A fetch that comes to a run gives the gang's slices a run that starts after its header, of 1 to 23 words (R43, R45). -/
def RunShaped (m : BitVec 8) (pc : Nat) (f : Fetched) : Prop := ∀ r w ls, f = .run r w ls →
  r.slices = m ∧ r.pc = BitVec.ofNat 64 (pc + 4) ∧ 1 ≤ r.words.length ∧ r.words.length ≤ 23

/-- What every fetch of a run does: it leaves everything but lookups and counters alone, and its run is shaped by its header. -/
def RunFetch (r : State) (m : BitVec 8) (pc : Nat) (p : State × Fetched) : Prop := FetchLeaves r p.1 ∧ RunShaped m pc p.2

theorem runFetch_ite {c : Prop} [Decidable c] {m : BitVec 8} {pc : Nat} {p q : State × Fetched} (hp : c → RunFetch r m pc p)
    (hq : ¬c → RunFetch r m pc q) : RunFetch r m pc (if c then p else q) := by
  split
  · exact hp ‹_›
  · exact hq ‹_›

theorem fetchAt_shaped {m : BitVec 8} {pc : Nat} {t : State} {f : Fetched} (e : fetchAt s g va = (t, .error f)) : RunShaped m pc f := by
  unfold fetchAt at e
  split at e
  · cases e; nofun
  · split at e
    · split at e
      · cases e; nofun
      · split at e
        · cases e; nofun
        · cases e
    all_goals cases e; nofun

theorem fetchBody_shaped {m : BitVec 8} {pc pc' n : Nat} {t : State} {f : Fetched} (e : fetchBody s g pc' n = (t, .error f)) : RunShaped m pc f := by
  induction n generalizing t f with
  | zero => cases e
  | succ n ih =>
    unfold fetchBody at e
    split at e
    · rename_i heq
      cases e
      exact ih heq
    · split at e
      · rename_i heq
        cases e
        exact fetchAt_shaped heq
      · cases e

theorem fetchRun_runFetch {m : BitVec 8} {pc : Nat} (h : FetchLeaves r s) : RunFetch r m pc (fetchRun s g m pc) := by
  unfold fetchRun
  have header : FetchLeaves r (fetchAt s g pc).1 := fetchAt_fetchLeaves h
  rcases hat : fetchAt s g pc with ⟨s₁, e | ⟨w, l0, a⟩⟩ <;> rw [hat] at header
  · exact ⟨header, fetchAt_shaped hat⟩
  refine runFetch_ite (fun _ => ⟨header, nofun⟩) fun _ => runFetch_ite (fun _ => ⟨header, nofun⟩) fun hlen => ?_
  have body : FetchLeaves r (fetchBody s₁ g (pc + 4) (bits w 23 19)).1 := fetchBody_fetchLeaves header
  rcases hbody : fetchBody s₁ g (pc + 4) (bits w 23 19) with ⟨s₂, e | ⟨ws, ls⟩⟩ <;> rw [hbody] at body
  · exact ⟨body, fetchBody_shaped hbody⟩
  have long : 1 ≤ ws.reverse.length ∧ ws.reverse.length ≤ 23 := by
    rw [List.length_reverse, fetchBody_length hbody]
    omega
  have sampled : FetchLeaves r (sampleAccess s₂ g.core (s₂.kernel g.kernel).part (s₂.kernel g.kernel).asid pc 6 a) := sampleAccess_fetchLeaves body
  dsimp only
  generalize sampleAccess s₂ g.core (s₂.kernel g.kernel).part (s₂.kernel g.kernel).asid pc 6 a = s₃ at *
  have plain {t : State} (left : FetchLeaves r t) {run : Run} {w' : BitVec 12} {l : List Nat} (hs : run.slices = m)
      (hp : run.pc = BitVec.ofNat 64 (pc + 4)) (hw : run.words = ws.reverse) : RunFetch r m pc (t, .run run w' l) :=
    ⟨left, by rintro _ _ _ ⟨⟩; exact ⟨hs, hp, by rw [hw]; exact long⟩⟩
  refine runFetch_ite (fun _ => plain sampled rfl rfl rfl) fun _ => ?_
  have trailer : FetchLeaves r (fetchAt s₃ g (pc + 4 + 4 * bits w 23 19)).1 := fetchAt_fetchLeaves sampled
  rcases hat : fetchAt s₃ g (pc + 4 + 4 * bits w 23 19) with ⟨s₄, e | ⟨w', l', a'⟩⟩ <;> rw [hat] at trailer
  · cases e with
    | absent va => exact ⟨trailer, nofun⟩
    | migrating va v => exact ⟨trailer, nofun⟩
    | run _ _ _ => exact plain trailer rfl rfl rfl
    | trap _ _ _ _ => exact plain trailer rfl rfl rfl
  · exact runFetch_ite (fun _ => plain trailer rfl rfl rfl) fun _ =>
      runFetch_ite (fun _ => ⟨trailer, nofun⟩) fun _ => plain trailer rfl rfl rfl

end Leaves

end Sys2Proof.Proofs
end
section
/-! # Picks and fills of the instruction cache (R44, R47, R87–R91) -/

namespace Sys2Proof.Proofs

open Sys2Proof Sys2Proof.Machine Sys2Proof.Laws

variable {s : State} {core q gid : Nat} {g : Group}

theorem quarter_div (core : Nat) {q : Nat} (hq : q < 4) : (4 * core + q) / 4 = core ∧ (4 * core + q) % 4 = q := by omega

theorem exec_pick (hq : q < 4) (s : State) :
    exec (.pick (4 * core + q)) s = .next (if canPick s core q then bump (pickIn s core q) else tick s) := by
  obtain ⟨hc, hr⟩ := quarter_div core hq
  show execPick _ s = _
  unfold execPick
  rw [hc, hr]

theorem mem_eligibleIn {x : Nat × Group} : x ∈ eligibleIn s core q ↔ x ∈ seatedIn s core q ∧ eligible s x.2 = true := List.mem_filter

theorem canPick_false (h : (∀ x ∈ seatedIn s core q, eligible s x.2 = false) ∨ busyQuarter s core q = true ∨ (KMap.get? (s.core core).frozen q).isSome = true) :
    canPick s core q = false := by
  unfold canPick
  rcases h with h | h | h
  · have none : eligibleIn s core q = [] := List.filter_eq_nil_iff.2 fun x hx => by simp [h x hx]
    simp [none]
  · simp [h]
  · simp [Option.isNone_eq_false_iff.2 h]

/-! ### The state that a pick leaves for the picked group to go on in -/

/-- The state in which the picked group goes on: its stamp, the quarter's current group, its context awake, and the focus. -/
def picked (s : State) (core q gid : Nat) (g : Group) : State :=
  { wakeContext ((s.setGroup gid { g with stamp := s.clock }).setCore core { s.core core with current := KMap.set (s.core core).current q gid })
      (s.kernel g.kernel).asid with focus := gid }

theorem group_picked (s : State) (core q gid : Nat) (g : Group) : (picked s core q gid g).group? gid = some { g with stamp := s.clock } :=
  group_setGroup s gid _

theorem group_picked_other (s : State) (core q : Nat) (g : Group) {n : Nat} (h : n ≠ gid) : (picked s core q gid g).group? n = s.group? n :=
  group_setGroup_other s gid n _ h

theorem core_picked (s : State) (core q gid : Nat) (g : Group) :
    (picked s core q gid g).core core = { s.core core with current := KMap.set (s.core core).current q gid } :=
  core_setCore (s.setGroup gid _) core _

theorem wakeContext_roots (s : State) (asid a : Nat) : (KMap.get? (wakeContext s asid).ctxs a).map pageRoot = (KMap.get? s.ctxs a).map pageRoot := by
  unfold wakeContext
  dsimp only
  rcases get_modify_cases s.ctxs asid a fun c => if c.state = .idle then { ranNow s c with state := .runnable } else c with e | ⟨c, hc, e⟩
  · rw [e]
  · rw [e, hc]
    simp only [Option.map_some]
    split <;> rfl

theorem picked_fetchAlike (s : State) (core q gid : Nat) (g : Group) : FetchAlike s (picked s core q gid g) :=
  ⟨rfl, rfl, rfl, rfl, rfl, rfl, rfl, fun a => wakeContext_roots _ _ a⟩

/-! ### The choice of a pick -/

/-- A seated group that has neither given way nor yielded, whose numbers lie in their fields. -/
structure Calm (x : Nat × Group) : Prop where
  yield : x.2.yieldDue = 0
  giveway : x.2.givewayDue = false
  id : x.1 < 2 ^ 32
  stamp : x.2.stamp < 2 ^ 64
  seatedAt : x.2.seatedAt < 2 ^ 64

/-- The pick order of R88 among calm groups: the stamp, then the seat, then the identifier. -/
def PickedFirst (x y : Nat × Group) : Prop :=
  x.2.stamp < y.2.stamp ∨ (x.2.stamp = y.2.stamp ∧ (x.2.seatedAt < y.2.seatedAt ∨ (x.2.seatedAt = y.2.seatedAt ∧ x.1 < y.1)))

theorem pickBefore_iff {x y : Nat × Group} (many : Bool) (hx : Calm x) (hy : Calm y) : pickBefore many x y = true ↔ PickedFirst x y := by
  obtain ⟨-, gx, ix, sx, ax⟩ := hx
  obtain ⟨-, gy, iy, sy, ay⟩ := hy
  unfold pickBefore PickedFirst
  simp only [gx, gy, Bool.false_and, Bool.false_eq_true, ↓reduceIte, decide_eq_true_eq]
  omega

theorem not_pickedFirst {x y : Nat × Group} (h : PickedFirst x y) : ¬PickedFirst y x := by
  unfold PickedFirst at *
  omega

/-- Among calm groups the one that comes before every other is chosen. -/
theorem chosen_first {l : List (Nat × Group)} {x : Nat × Group} (hx : x ∈ l) (calm : ∀ y ∈ l, Calm y) (first : ∀ y ∈ l, y ≠ x → PickedFirst x y) :
    chosen l = some x := by
  have awake : (l.filter fun y => !y.2.yielding) = l := List.filter_eq_self.2 fun y hy => by simp [Group.yielding, (calm y hy).yield]
  unfold chosen
  dsimp only
  rw [awake, ite_self]
  refine (congrArg (fun f => l.foldl f none) (funext₂ fun acc y => ?_)).trans
    (foldl_keepBest_first (lt := fun a b => pickBefore (decide (1 < l.length)) a b = true) hx ?_ fun y hy hne => ⟨?_, ?_⟩)
  · cases acc <;> rfl
  · exact fun h => not_pickedFirst ((pickBefore_iff _ (calm x hx) (calm x hx)).1 h) ((pickBefore_iff _ (calm x hx) (calm x hx)).1 h)
  · exact (pickBefore_iff _ (calm x hx) (calm y hy)).2 (first y hy hne)
  · exact fun h => not_pickedFirst (first y hy hne) ((pickBefore_iff _ (calm y hy) (calm x hx)).1 h)

theorem afterPick_calm {l : List (Nat × Group)} {n i : Nat} (hy : g.yieldDue = 0) (hg : g.givewayDue = false) : afterPick l n i g = g := by
  have same : { g with givewayDue := false } = g := by rw [← hg]
  unfold afterPick
  rw [same, ite_self]
  exact if_pos hy

theorem seeYields_calm {l : List (Nat × Group)} (calm : ∀ x ∈ seatedIn s core q, x.2.yieldDue = 0) : seeYields l s core q = s :=
  foldl_fixed_of_mem fun x hx => if_neg fun h => h.1 (calm x hx)

section Pick

variable (hw : KMap.wf s.groups = true) (calm : ∀ x ∈ seatedIn s core q, Calm x) (hg : (gid, g) ∈ seatedIn s core q) (he : eligible s g = true)
  (first : ∀ x ∈ seatedIn s core q, eligible s x.2 = true → x.1 ≠ gid → PickedFirst (gid, g) x)
include hw calm hg he first

/-- The eligible group that comes first goes on in its quarter. -/
theorem pickIn_first : pickIn s core q = startPicked (picked s core q gid g) gid core q := by
  have group : ∀ x ∈ seatedIn s core q, s.group? x.1 = some x.2 := fun x hx => get_of_mem hw (List.mem_filter.1 hx).1
  have chose : chosen (eligibleIn s core q) = some (gid, g) := by
    refine chosen_first (mem_eligibleIn.2 ⟨hg, he⟩) (fun y hy => calm y (mem_eligibleIn.1 hy).1) fun y hy hne => ?_
    obtain ⟨hs, hel⟩ := mem_eligibleIn.1 hy
    refine first y hs hel fun hid => hne ?_
    have := group y hs
    rw [hid, group _ hg] at this
    exact Prod.ext hid (Option.some.inj this).symm
  have settled : ((seatedIn s core q).foldl (fun t x => t.setGroup x.1 (afterPick (eligibleIn s core q) gid x.1 x.2)) s) = s :=
    foldl_fixed_of_mem fun x hx => by rw [afterPick_calm (calm x hx).yield (calm x hx).giveway, setGroup_self (group x hx)]
  unfold pickIn
  dsimp only
  rw [seeYields_calm fun x hx => (calm x hx).yield, chose]
  dsimp only
  rw [settled, modGroup_eq (group _ hg)]
  have found (c : Core) : ((s.setGroup gid { g with stamp := s.clock }).setCore core c).group? gid = some { g with stamp := s.clock } := group_setGroup s gid _
  rw [found]
  rfl

end Pick

/-! ### A run that goes on (R47, R85) -/

theorem advance_leaves (s : State) (gid n : Nat) (m : BitVec 8) (taken : Bool) : (advance s gid n m taken).mem = s.mem ∧
    (advance s gid n m taken).focus = s.focus ∧ ∀ c, ((advance s gid n m taken).core c).current = (s.core c).current := by
  rcases advance_eq s gid n m taken with e | ⟨core, vf, h, e⟩
  · rw [e]; exact ⟨rfl, rfl, fun _ => rfl⟩
  · rw [e]
    refine ⟨rfl, rfl, fun c => ?_⟩
    obtain ⟨p, hp⟩ := core_pmcCore s core vf 2 1 c
    show ((pmcCore s core vf 2 1).core c).current = _
    rw [hp]

theorem goOn_leaves (s : State) (gid : Nat) : (goOn s gid).mem = s.mem ∧ (goOn s gid).focus = s.focus ∧
    ∀ c, ((goOn s gid).core c).current = (s.core c).current := by
  unfold goOn
  split
  · exact ⟨rfl, rfl, fun _ => rfl⟩
  · split
    · exact ⟨rfl, rfl, fun _ => rfl⟩
    · dsimp only
      split
      · exact ⟨rfl, rfl, fun _ => rfl⟩
      · exact advance_leaves _ gid _ _ _

/-- What a group that goes on keeps beside its run. -/
def KeptGoingOn (g h : Group) : Prop := h.parks = g.parks ∧ h.stamp = g.stamp ∧ h.lastGang = g.lastGang ∧ h.v = g.v

theorem advance_kept {n : Nat} {m : BitVec 8} {taken : Bool} (hg : s.group? gid = some g) :
    ∃ h, (advance s gid n m taken).group? gid = some h ∧ KeptGoingOn g h := by
  unfold advance
  rw [hg]
  dsimp only
  split
  · exact ⟨g, hg, rfl, rfl, rfl, rfl⟩
  · split
    · exact ⟨_, group_setGroup _ _ _, by cases taken <;> exact ⟨rfl, rfl, rfl, rfl⟩⟩
    · exact ⟨_, group_setGroup _ _ _, by cases taken <;> exact ⟨rfl, rfl, rfl, rfl⟩⟩

theorem goOn_kept (hg : s.group? gid = some g) : ∃ h, (goOn s gid).group? gid = some h ∧ KeptGoingOn g h := by
  unfold goOn
  rw [hg]
  dsimp only
  split
  · exact ⟨_, group_setGroup _ _ _, rfl, rfl, rfl, rfl⟩
  · split
    · exact ⟨_, group_setGroup _ _ _, rfl, rfl, rfl, rfl⟩
    · obtain ⟨h, e, kept⟩ := advance_kept (group_setGroup s gid { g with parkedSince := none, hold := none })
      exact ⟨h, e, kept⟩

/-! ### The picked group's next run -/

theorem fetchBody_stamp (s : State) (g : Group) (c pc n : Nat) : fetchBody s { g with stamp := c } pc n = fetchBody s g pc n := by
  induction n with
  | zero => rfl
  | succ n ih =>
    unfold fetchBody
    rw [ih]
    rfl

/-- A fetch does not depend on its group's stamp. -/
theorem fetchRun_stamp (s : State) (g : Group) (c : Nat) (m : BitVec 8) (pc : Nat) : fetchRun s { g with stamp := c } m pc = fetchRun s g m pc := by
  unfold fetchRun
  simp only [fetchBody_stamp]
  rfl

theorem readyGangs_stamp (s : State) (g : Group) (c : Nat) : readyGangs s { g with stamp := c } = readyGangs s g := rfl

/-- A group with a run that starts. -/
def started (g : Group) (r : Run) (m : BitVec 8) (early : Bool) : Group :=
  { g with run := some { r with early := early }, x := [], lastGang := firstSlice m }

theorem startRun_run {m : BitVec 8} {early : Bool} {r : Run} {w : BitVec 12} {ls : List Nat} (hg : s.group? gid = some g)
    (hf : (fetchRun s g m (g.slice (firstSlice m)).pc.toNat).2 = .run r w ls) :
    ∃ t, FetchLeaves s t ∧ startRun s gid m early = t.setGroup gid (started g r m early) := by
  have left : FetchLeaves s (fetchRun s g m (g.slice (firstSlice m)).pc.toNat).1 := (fetchRun_runFetch (fetchLeaves_refl s)).1
  unfold startRun
  rw [hg]
  dsimp only
  generalize fetchRun s g m (g.slice (firstSlice m)).pc.toNat = p at *
  obtain ⟨t, f⟩ := p
  obtain rfl : f = .run r w ls := hf
  have counted := pmcCore_fetchLeaves (core := g.core) (vf := t.vfOf (s.kernel g.kernel).asid) (n := 1) (k := 1) left
  exact ⟨_, counted, modGroup_eq ((group_of_groups counted.groups gid).trans hg) _⟩

section StartPicked

variable {core q : Nat} {m : GangPick} {ms : List GangPick} (hg : s.group? gid = some g)
include hg

theorem startPicked_run {r : Run} (hr : g.run = some r) :
    startPicked s gid core q = s.setGroup gid { g with run := some { r with stalled := false } } := by
  unfold startPicked
  rw [hg]
  dsimp only
  rw [hr]

variable (hr : g.run = none) (hm : readyGangs s g = m :: ms)
include hr hm

theorem startPicked_park {i : Nat} (hp : m.park = some i) : startPicked s gid core q = resumeDone s gid i := by
  unfold startPicked
  rw [hg]
  dsimp only
  rw [hr, hm]
  dsimp only
  rw [hp]

/-- The lines that the run of a picked gang lacks. -/
theorem startPicked_next (hp : m.park = none) {miss : List Nat}
    (hl : missingLines s core (fetchRun s g m.slices (g.slice (firstSlice m.slices)).pc.toNat).2 = miss) : startPicked s gid core q =
      if miss.isEmpty then startRun s gid m.slices m.early
      else
        let s := pmcCore s core (s.vfOf (s.kernel g.kernel).asid) 3 1
        s.setCore core { s.core core with frozen := KMap.set (s.core core).frozen q (gid, m.slices, m.early) } := by
  subst hl
  unfold startPicked
  rw [hg]
  dsimp only
  rw [hr, hm]
  dsimp only
  rw [hp]

end StartPicked

theorem resumeDone_kept {i : Nat} {p : Park} (hg : s.group? gid = some g) (hp : g.parks[i]? = some p) (ht : p.trap = none) :
    ∃ t, t = resumeDone s gid i ∧ t.mem = s.mem ∧ t.focus = s.focus ∧ (∀ c, (t.core c).current = (s.core c).current) ∧
      ∃ h, t.group? gid = some h ∧ h.parks = g.parks.take i ++ g.parks.drop (i + 1) ∧ h.stamp = g.stamp ∧ h.lastGang = firstSlice p.acc.slices ∧ h.v = g.v := by
  refine ⟨_, rfl, ?_⟩
  unfold resumeDone
  rw [hg]
  dsimp only
  rw [hp]
  dsimp only
  rw [ht, modGroup_eq hg]
  obtain ⟨hm, hf, hc⟩ := goOn_leaves (s.setGroup gid { g with
    parks := g.parks.take i ++ g.parks.drop (i + 1), run := p.run, x := p.x, lastGang := firstSlice p.acc.slices }) gid
  exact ⟨hm, hf, hc, goOn_kept (group_setGroup _ _ _)⟩

end Sys2Proof.Proofs
end
section
/-! # What a pick and a fill come to: the statement's clauses (R47, R87–R91) -/

namespace Sys2Proof.Proofs

open Sys2Proof Sys2Proof.Machine Sys2Proof.Laws

variable {s : State} {core q gid : Nat} {g : Group}

/-- A quarter freezes, with the gang that it has picked, and counts the miss (R91, R447). -/
def freezes (s : State) (core q gid : Nat) (g : Group) (m : GangPick) : State :=
  let t := pmcCore s core (s.vfOf (s.kernel g.kernel).asid) 3 1
  t.setCore core { t.core core with frozen := KMap.set (t.core core).frozen q (gid, m.slices, m.early) }

theorem frozen_freezes (s : State) (core q gid : Nat) (g : Group) (m : GangPick) :
    KMap.get? ((freezes s core q gid g m).core core).frozen q = some (gid, m.slices, m.early) := by
  unfold freezes
  dsimp only
  rw [core_setCore]
  exact get_set_same _ _ _

theorem freezes_leaves (s : State) (core q gid : Nat) (g : Group) (m : GangPick) :
    (freezes s core q gid g m).clock = s.clock ∧ (freezes s core q gid g m).groups = s.groups ∧ (freezes s core q gid g m).mem = s.mem := ⟨rfl, rfl, rfl⟩

/-! ### The picked group's gangs and fetches are those before the pick -/

section Picked

variable {m : GangPick} {ms : List GangPick} (hm : readyGangs s g = m :: ms)
include hm

theorem readyGangs_picked : readyGangs (picked s core q gid g) { g with stamp := s.clock } = m :: ms :=
  (readyGangs_stamp _ _ _).trans ((readyGangs_alike (picked_fetchAlike s core q gid g) g).trans hm)

variable {r : Run} {w : BitVec 12} {ls : List Nat} (hrun : (fetchRun s g m.slices (g.slice (firstSlice m.slices)).pc.toNat).2 = .run r w ls)
include hrun

omit hm in
theorem fetchRun_picked : (fetchRun (picked s core q gid g) { g with stamp := s.clock } m.slices (g.slice (firstSlice m.slices)).pc.toNat).2 = .run r w ls := by
  rw [fetchRun_stamp]
  exact (fetchRun_alike (picked_fetchAlike s core q gid g) g _ _).1.trans hrun

theorem startPicked_picked (hr : g.run = none) (hi : m.park = none) : startPicked (picked s core q gid g) gid core q =
    if (ls.filter fun l => !(s.core core).icache.contains l).isEmpty then startRun (picked s core q gid g) gid m.slices m.early
    else freezes (picked s core q gid g) core q gid g m := by
  refine startPicked_next (group_picked s core q gid g) hr (readyGangs_picked hm) hi ?_
  refine (congrArg (missingLines (picked s core q gid g) core) (fetchRun_picked hrun)).trans ?_
  unfold missingLines
  dsimp only
  rw [core_picked]

end Picked

section Pick

variable (hq : q < 4) (hw : KMap.wf s.groups = true) (calm : ∀ x ∈ seatedIn s core q, Calm x) (hf : KMap.get? (s.core core).frozen q = none)
  (hb : busyQuarter s core q = false) (hg : (gid, g) ∈ seatedIn s core q) (he : eligible s g = true)
  (first : ∀ x ∈ seatedIn s core q, eligible s x.2 = true → x.1 ≠ gid → PickedFirst (gid, g) x)
include hq hw calm hf hb hg he first

theorem exec_pick_first : exec (.pick (4 * core + q)) s = .next (bump (startPicked (picked s core q gid g) gid core q)) := by
  have some : eligibleIn s core q ≠ [] := List.ne_nil_of_mem (mem_eligibleIn.2 ⟨hg, he⟩)
  have can : canPick s core q = true := by
    unfold canPick
    simp [hf, hb, some]
  rw [exec_pick hq, can, if_pos rfl, pickIn_first hw calm hg he first]

/-- A picked group with a run in progress resumes it. -/
theorem pick_resumes {r : Run} (hr : g.run = some r) : ∃ t h, exec (.pick (4 * core + q)) s = .next t ∧ t.clock = s.clock ∧
    t.serial = s.serial + 1 ∧ t.focus = gid ∧ t.group? gid = some h ∧ h = { g with stamp := s.clock, run := some { r with stalled := false } } ∧
    KMap.get? (t.core core).current q = some gid ∧ (∀ n, n ≠ gid → t.group? n = s.group? n) ∧ t.mem = s.mem := by
  have e := exec_pick_first hq hw calm hf hb hg he first
  rw [startPicked_run (group_picked s core q gid g) hr] at e
  refine ⟨_, _, e, rfl, rfl, rfl, group_setGroup _ _ _, rfl, ?_, fun n hn => ?_, rfl⟩
  · show KMap.get? ((picked s core q gid g).core core).current q = _
    rw [core_picked]
    exact get_set_same _ _ _
  · exact (group_setGroup_other (picked s core q gid g) gid n _ hn).trans (group_picked_other s core q g hn)

variable {m : GangPick} {ms : List GangPick} (hr : g.run = none) (hm : readyGangs s g = m :: ms)
include hr hm

/-- A picked group whose first gang's access is complete goes on past it. -/
theorem pick_goesOn {i : Nat} {p : Park} (hi : m.park = some i) (hp : g.parks[i]? = some p) (ht : p.trap = none) :
    ∃ t h, exec (.pick (4 * core + q)) s = .next t ∧ t.focus = gid ∧ t.group? gid = some h ∧ h.parks = g.parks.take i ++ g.parks.drop (i + 1) ∧
      h.stamp = s.clock ∧ h.lastGang = firstSlice p.acc.slices ∧ h.v = g.v ∧ KMap.get? (t.core core).current q = some gid ∧ t.mem = s.mem := by
  have e := exec_pick_first hq hw calm hf hb hg he first
  have ready := readyGangs_picked (core := core) (q := q) (gid := gid) hm
  rw [startPicked_park (group_picked s core q gid g) hr ready hi] at e
  obtain ⟨t, rfl, mem, focus, cur, h, group, parks, stamp, last, vec⟩ := resumeDone_kept (group_picked s core q gid g) hp ht
  refine ⟨_, h, e, focus, group, parks, stamp, last, vec, ?_, mem⟩
  show KMap.get? ((resumeDone (picked s core q gid g) gid i).core core).current q = _
  rw [cur, core_picked]
  exact get_set_same _ _ _

variable (hi : m.park = none) {r : Run} {w : BitVec 12} {ls : List Nat}
  (hrun : (fetchRun s g m.slices (g.slice (firstSlice m.slices)).pc.toNat).2 = .run r w ls)
include hi hrun

/-- The run starts in the clock of the pick where the instruction cache holds its lines. -/
theorem pick_starts (held : ∀ l ∈ ls, l ∈ (s.core core).icache) : ∃ t h, exec (.pick (4 * core + q)) s = .next t ∧ t.clock = s.clock ∧ t.focus = gid ∧
    t.group? gid = some h ∧ h = { g with stamp := s.clock, run := some { r with early := m.early }, x := [], lastGang := firstSlice m.slices } ∧
    KMap.get? (t.core core).current q = some gid ∧ t.mem = s.mem := by
  have e := exec_pick_first hq hw calm hf hb hg he first
  have whole : (ls.filter fun l => !(s.core core).icache.contains l).isEmpty = true := by simpa using held
  rw [startPicked_picked hm hrun hr hi, if_pos whole] at e
  obtain ⟨t, left, start⟩ := startRun_run (early := m.early) (group_picked s core q gid g) (fetchRun_picked hrun)
  rw [start] at e
  refine ⟨_, _, e, left.clock, left.focus, group_setGroup _ _ _, rfl, ?_, left.mem⟩
  show KMap.get? (t.core core).current q = _
  rw [(left.cores core).1, core_picked]
  exact get_set_same _ _ _

/-- Where the instruction cache lacks a line of the run, the quarter freezes and the pick stands. -/
theorem pick_freezes (lacks : ∃ l ∈ ls, l ∉ (s.core core).icache) : ∃ t, exec (.pick (4 * core + q)) s = .next t ∧ t.clock = s.clock ∧
    t.group? gid = some { g with stamp := s.clock } ∧ KMap.get? (t.core core).frozen q = some (gid, m.slices, m.early) ∧ t.mem = s.mem := by
  have e := exec_pick_first hq hw calm hf hb hg he first
  have part : ¬(ls.filter fun l => !(s.core core).icache.contains l).isEmpty = true := by simpa using lacks
  rw [startPicked_picked hm hrun hr hi, if_neg part] at e
  obtain ⟨clock, groups, mem⟩ := freezes_leaves (picked s core q gid g) core q gid g m
  exact ⟨_, e, clock, (group_of_groups groups gid).trans (group_picked s core q gid g), frozen_freezes _ core q gid g m, mem⟩

end Pick

/-! ### The fill (R91) -/

section Fill

variable (hq : q < 4)
include hq

theorem exec_icacheFill_none (hf : KMap.get? (s.core core).frozen q = none) : exec (.icacheFill (4 * core + q)) s = .next (tick s) := by
  obtain ⟨hc, hr⟩ := quarter_div core hq
  show execIcacheFill _ s = _
  unfold execIcacheFill
  dsimp only
  rw [hc, hr, hf]

/-- The state in which the quarter is frozen no longer. -/
def thawed (s : State) (core q : Nat) : State := s.setCore core { s.core core with frozen := KMap.erase (s.core core).frozen q }

/-- The state in which the lines that were missing are in the cache. -/
def filled (s : State) (core q : Nat) (miss : List Nat) : State :=
  (thawed s core q).setCore core { (thawed s core q).core core with icache := icacheAdd ((thawed s core q).core core).icache miss }

omit hq in
theorem core_thawed (s : State) (core q : Nat) : (thawed s core q).core core = { s.core core with frozen := KMap.erase (s.core core).frozen q } :=
  core_setCore _ _ _

omit hq in
theorem core_filled (s : State) (core q : Nat) (miss : List Nat) : (filled s core q miss).core core =
    { s.core core with frozen := KMap.erase (s.core core).frozen q, icache := icacheAdd (s.core core).icache miss } := by
  unfold filled
  rw [core_setCore, core_thawed]

omit hq in
theorem thawed_fetchAlike (s : State) (core q : Nat) : FetchAlike s (thawed s core q) := ⟨rfl, rfl, rfl, rfl, rfl, rfl, rfl, fun _ => rfl⟩

omit hq in
theorem filled_fetchAlike (s : State) (core q : Nat) (miss : List Nat) : FetchAlike s (filled s core q miss) :=
  ⟨rfl, rfl, rfl, rfl, rfl, rfl, rfl, fun _ => rfl⟩

/-- The picked run may start no more: its group is elsewhere, has a run or a parked fetch, or its slices are not free. -/
def fillGone (s : State) (core q : Nat) (g : Group) (m : BitVec 8) : Prop :=
  g.place ≠ .seat core q ∨ g.run.isSome = true ∨ g.fetchParked = true ∨ m &&& ~~~g.freeSlices (s.kernel g.kernel) ≠ 0

variable {m : BitVec 8} {early : Bool} (hf : KMap.get? (s.core core).frozen q = some (gid, m, early)) (hg : s.group? gid = some g)
include hf hg

theorem exec_icacheFill_gone (gone : fillGone s core q g m) : exec (.icacheFill (4 * core + q)) s = .next (tick (thawed s core q)) := by
  obtain ⟨hc, hr⟩ := quarter_div core hq
  have group : (thawed s core q).group? gid = some g := hg
  show execIcacheFill _ s = _
  unfold execIcacheFill
  dsimp only
  rw [hc, hr, hf]
  dsimp only
  rw [show State.group? (State.setCore s core _) gid = some g from hg]
  dsimp only
  exact congrArg (fun t => Host.Outcome.next (tick t)) (if_pos gone)

theorem exec_icacheFill_starts (stays : ¬fillGone s core q g m) {r : Run} {w : BitVec 12} {ls : List Nat}
    (hrun : (fetchRun s g m (g.slice (firstSlice m)).pc.toNat).2 = .run r w ls) : exec (.icacheFill (4 * core + q)) s =
      .next (tick (startRun (filled s core q (ls.filter fun l => !(s.core core).icache.contains l)) gid m early)) := by
  obtain ⟨hc, hr⟩ := quarter_div core hq
  have miss : missingLines (thawed s core q) core (fetchRun (thawed s core q) g m (g.slice (firstSlice m)).pc.toNat).2 =
      ls.filter fun l => !(s.core core).icache.contains l := by
    rw [(fetchRun_alike (thawed_fetchAlike s core q) g _ _).1, hrun]
    unfold missingLines
    dsimp only
    rw [core_thawed]
  show execIcacheFill _ s = _
  unfold execIcacheFill
  dsimp only
  rw [hc, hr, hf]
  dsimp only
  rw [show State.group? (State.setCore s core _) gid = some g from hg]
  dsimp only
  rw [← miss]
  exact congrArg (fun t => Host.Outcome.next (tick t)) (if_neg stays)

/-- The run that was picked starts, with its lines in the cache, no set of which holds more than eight. -/
theorem icacheFill_starts (hw : KMap.wf (s.core core).frozen = true) (stays : ¬fillGone s core q g m) {r : Run} {w : BitVec 12} {ls : List Nat}
    (hrun : (fetchRun s g m (g.slice (firstSlice m)).pc.toNat).2 = .run r w ls) :
    ∃ t h, exec (.icacheFill (4 * core + q)) s = .next t ∧ t.group? gid = some h ∧
      h = { g with run := some { r with early := early }, x := [], lastGang := firstSlice m } ∧ KMap.get? (t.core core).frozen q = none ∧
      (∀ l ∈ ls, l ∉ (s.core core).icache → (ls.filter fun x => decide (x % 128 = l % 128)).length ≤ 8 → l ∈ (t.core core).icache) ∧
      ∀ k < 128, ((t.core core).icache.filter fun x => decide (x % 128 = k)).length ≤ 8 := by
  obtain ⟨t, left, start⟩ := startRun_run (early := early)
    (s := filled s core q (ls.filter fun l => !(s.core core).icache.contains l)) (gid := gid) (g := g) hg
    ((fetchRun_alike (filled_fetchAlike s core q _) g _ _).1.trans hrun)
  have e := exec_icacheFill_starts hq hf hg stays hrun (early := early)
  rw [start] at e
  obtain ⟨-, frozen, icache⟩ := left.cores core
  rw [core_filled] at frozen icache
  refine ⟨_, _, e, group_setGroup t gid _, rfl, ?_, fun l hl hc few => ?_, fun k _ => ?_⟩
  · show KMap.get? (t.core core).frozen q = none
    rw [frozen]
    exact get_erase_same _ _ hw
  · show l ∈ (t.core core).icache
    rw [icache]
    refine mem_icacheAdd (List.mem_filter.2 ⟨hl, by simpa using hc⟩) (le_trans ?_ few)
    exact (List.filter_sublist.filter _).length_le
  · show inSet (t.core core).icache k ≤ 8
    rw [icache]
    exact inSet_icacheAdd_le _ _ k

end Fill

/-- Settles O50: the calm group that comes first is chosen (`chosen_first`), and what it goes on with is read in a state that fetches as the one
before the pick does (`picked_fetchAlike`). -/
theorem picksAndFetches : Obligations.PicksAndFetches := by
  unfold Obligations.PicksAndFetches
  intro s core q hq
  refine ⟨fun h => by rw [exec_pick hq, canPick_false h]; rfl, fun hw quiet bounds hf hb gid g hg he before => ?_, exec_icacheFill_none hq,
    fun gid g m early hf hw hg => ⟨fun gone => ?_, fun r w ls stays hrun => icacheFill_starts hq hf hg hw stays hrun⟩⟩
  · have calm : ∀ x ∈ seatedIn s core q, Calm x := fun x hx =>
      have b := bounds x (List.mem_filter.1 hx).1
      ⟨(quiet x hx).1, (quiet x hx).2, b.1, b.2.1, b.2.2⟩
    refine ⟨fun r hr => pick_resumes hq hw calm hf hb hg he before hr,
      fun m ms i p hr hm hi hp ht => pick_goesOn hq hw calm hf hb hg he before hr hm hi hp ht,
      fun m ms r w ls hr hm hi hrun => ⟨?_, pick_starts hq hw calm hf hb hg he before hr hm hi hrun, pick_freezes hq hw calm hf hb hg he before hr hm hi hrun⟩⟩
    exact (fetchRun_runFetch (fetchLeaves_refl s)).2 r w ls hrun
  · refine ⟨_, exec_icacheFill_gone hq hf hg gone, rfl, rfl, ?_⟩
    show KMap.get? ((thawed s core q).core core).frozen q = none
    rw [core_thawed]
    exact get_erase_same _ _ hw

end Sys2Proof.Proofs
end
section
/-! # Seats free and fill (R82, R401, R409–R411) -/

namespace Sys2Proof.Proofs

open Sys2Proof Sys2Proof.Machine Sys2Proof.Laws

variable {s : State} {core q gid : Nat} {g : Group}

/-! ### A group that has ended (R73, R82) -/

theorem maskOf_eq_zero_iff {w : Nat} {f : Nat → Bool} : maskOf w f = 0 ↔ ∀ j : Fin w, f j.val = false := by
  constructor
  · intro h j
    rw [← bit_maskOf_lt w f j.val j.isLt, h]
    simp [bit]
  · intro h
    refine BitVec.eq_of_getLsbD_eq fun i hi => ?_
    rw [show (maskOf w f).getLsbD i = f i from bit_maskOf_lt w f i hi, h ⟨i, hi⟩]
    simp

theorem gone_iff (sl : Slice) (full : BitVec 4) : sl.gone full = true ↔ sl.exited = full ∨ (sl.act = 0 ∧ sl.stack = []) := by
  simp [Slice.gone]

theorem liveSlices_eq_zero_iff (g : Group) (k : Kernel) : g.liveSlices k = 0 ↔ ∀ j : Fin 8, (g.slice j.val).gone k.fullMask = true := by
  unfold Group.liveSlices
  rw [maskOf_eq_zero_iff]
  simp

@[simp] theorem clearCurrent_groups (s : State) (gid : Nat) : (clearCurrent s gid).groups = s.groups := by
  unfold clearCurrent
  split <;> rfl

@[simp] theorem clearCurrent_mem (s : State) (gid : Nat) : (clearCurrent s gid).mem = s.mem := by
  unfold clearCurrent
  split <;> rfl

theorem exec_groupEnd_stays (hg : s.group? gid = some g) (h : drained s gid g = false) : exec (.groupEndSeatFree gid) s = .next (tick s) := by
  show execGroupEndSeatFree gid s = _
  unfold execGroupEndSeatFree
  rw [hg]
  dsimp only
  rw [h]
  rfl

/-- A group that has ended and drained leaves its seat for good. -/
theorem exec_groupEnd_frees (hg : s.group? gid = some g) (h : drained s gid g = true) :
    ∃ t h, exec (.groupEndSeatFree gid) s = .next t ∧ t.group? gid = some h ∧ h = { g with place := .ended, pinned := [], absent := [] } ∧
      (∀ n, n ≠ gid → t.group? n = s.group? n) ∧ t.mem = s.mem := by
  have same : (clearCurrent (account s g.core) gid).groups = s.groups := clearCurrent_groups _ _
  have e : exec (.groupEndSeatFree gid) s = _ := show execGroupEndSeatFree gid s = .next (tick ((clearCurrent (account s g.core) gid).setGroup gid
      { g with place := .ended, pinned := [], absent := [] })) by
    unfold execGroupEndSeatFree
    rw [hg]
    dsimp only
    rw [h, if_pos rfl, modGroup_eq ((group_of_groups same gid).trans hg)]
  exact ⟨_, _, e, group_setGroup _ _ _, rfl, fun n hn => (group_setGroup_other _ _ _ _ hn).trans (group_of_groups same n), clearCurrent_mem _ _⟩

theorem drained_iff : drained s gid g = true ↔ g.live = true ∧ (∀ j : Fin 8, (g.slice j.val).gone (s.kernel g.kernel).fullMask = true) ∧ g.ld = [] ∧
    g.st = [] ∧ g.copies = [] ∧ g.mx = [] ∧ g.pend = [] ∧ g.release = none ∧ g.red = [] ∧ g.openBatch.open_ = 0 ∧
      ∀ j ∈ (s.core g.core).decodeQ, j.gid ≠ gid := by
  unfold drained
  simp only [Bool.and_eq_true, decide_eq_true_eq, List.isEmpty_iff, Option.isNone_iff_eq_none, liveSlices_eq_zero_iff, Bool.not_eq_true',
    List.any_eq_false, and_assoc, ne_eq]

/-! ### The first candidate (R409, R410) -/

/-- The numbers of a candidate that its place in the seating order is made of lie in their fields. -/
structure SeatNumbers (s : State) (g : Group) : Prop where
  rank : rankOf s g ≤ 8
  order : (s.kernel g.kernel).order < 2 ^ 64
  team : s.teamNumber g < 2 ^ 32
  number : g.number < 2 ^ 16

/-- The seating order of R410: the rank, then a satisfied park, then launch order, team and group. -/
def SeatedFirst (s : State) (g h : Group) : Prop :=
  rankOf s h < rankOf s g ∨ (rankOf s h = rankOf s g ∧
    ((g.parkSatisfied s = true ∧ h.parkSatisfied s = false) ∨ (g.parkSatisfied s = h.parkSatisfied s ∧
      ((s.kernel g.kernel).order < (s.kernel h.kernel).order ∨ ((s.kernel g.kernel).order = (s.kernel h.kernel).order ∧
        (s.teamNumber g < s.teamNumber h ∨ (s.teamNumber g = s.teamNumber h ∧ g.number < h.number)))))))

theorem seatKey_lt {h : Group} (hg : SeatNumbers s g) (hh : SeatNumbers s h) (first : SeatedFirst s g h) : seatKey s g < seatKey s h := by
  obtain ⟨rg, og, tg, ng⟩ := hg
  obtain ⟨rh, oh, th, nh⟩ := hh
  unfold SeatedFirst at first
  unfold seatKey
  dsimp only
  cases pg : g.parkSatisfied s <;> cases ph : h.parkSatisfied s <;> rw [pg, ph] at first <;>
    simp only [Bool.false_eq_true, reduceCtorEq, and_true, and_false, false_and, true_and, false_or, or_false, ↓reduceIte] at first ⊢ <;> omega

theorem firstCandidate_first (hg : (gid, g) ∈ candidatesOn s core) (numbers : ∀ x ∈ candidatesOn s core, SeatNumbers s x.2)
    (first : ∀ x ∈ candidatesOn s core, x ≠ (gid, g) → SeatedFirst s g x.2) : firstCandidate s core = some (gid, g) := by
  unfold firstCandidate
  refine (congrArg (fun f => (candidatesOn s core).foldl f none) (funext₂ fun acc x => ?_)).trans
    (foldl_keepBest_first (lt := fun x y : Nat × Group => seatKey s x.2 < seatKey s y.2) hg (lt_irrefl _) fun x hx hne => ?_)
  · cases acc <;> rfl
  · have key := seatKey_lt (numbers _ hg) (numbers x hx) (first x hx hne)
    exact ⟨key, key.asymm⟩

/-- Without a candidate of the core's nobody takes or leaves a seat there. -/
theorem exec_seating_none (h : ∀ x ∈ s.groups, hosts s core x.2 = true → candidate s x.2 = false) : exec (.seating core) s = .next (tick s) := by
  have none : candidatesOn s core = [] := List.filter_eq_nil_iff.2 fun x hx => by
    rw [Bool.and_eq_true, not_and, Bool.not_eq_true]
    exact h x hx
  have nobody : unseatable s core = Option.none := by
    unfold unseatable
    simp only [none, List.any_nil, Bool.and_false, List.find?_eq_none.2 fun _ _ => Bool.false_ne_true, List.isEmpty_nil, ↓reduceIte]
  show execSeating core s = _
  unfold execSeating
  rw [nobody]
  have no : firstCandidate s core = Option.none := by
    unfold firstCandidate
    rw [none]
    rfl
  cases freeQuarter s core <;> simp [no]

theorem exec_seating_takes (hq : freeQuarter s core = some q) (hc : firstCandidate s core = some (gid, g)) :
    exec (.seating core) s = .next (tick (takeSeat s gid core q)) := by
  show execSeating core s = _
  unfold execSeating
  rw [hq]
  dsimp only
  rw [hq, hc]

end Sys2Proof.Proofs
end
section
/-! # A group takes a seat (R401, R402, R410) -/

namespace Sys2Proof.Proofs

open Sys2Proof Sys2Proof.Machine Sys2Proof.Laws

variable {s t : State} {core q gid : Nat} {g : Group}

/-! ### The groups as a seating goes on -/

/-- Group gid stands as g does but for its block's frames, every other group as it was, and the clock has not moved. -/
def BlockLooked (s : State) (gid : Nat) (g : Group) (t : State) : Prop :=
  (∃ f, t.group? gid = some { g with blockFrames := f }) ∧ (∀ n, n ≠ gid → t.group? n = s.group? n) ∧ t.clock = s.clock

theorem translate_blockLooked {asid va : Nat} (h : BlockLooked s gid g t) : BlockLooked s gid g (Machine.translate t core asid va).1 := by
  obtain ⟨⟨f, hg⟩, others, clock⟩ := h
  have left : FetchLeaves t (Machine.translate t core asid va).1 := translate_fetchLeaves (fetchLeaves_refl t)
  exact ⟨⟨f, (group_of_groups left.groups gid).trans hg⟩, fun n hn => (group_of_groups left.groups n).trans (others n hn), left.clock.trans clock⟩

theorem foldl_blockLooked {α β : Type} {f : State × β → α → State × β} {l : List α} {p : State × β}
    (hf : ∀ p a, BlockLooked s gid g p.1 → BlockLooked s gid g (f p a).1) (h : BlockLooked s gid g p.1) : BlockLooked s gid g (l.foldl f p).1 :=
  List.foldlRecOn (motive := fun p : State × β => BlockLooked s gid g p.1) l f h fun p hp a _ => hf p a hp

theorem lookBlock_blockLooked (hg : s.group? gid = some g) : BlockLooked s gid g (lookBlock s core gid g).1 := by
  have start : BlockLooked s gid g s := ⟨⟨g.blockFrames, hg⟩, fun _ _ => rfl, rfl⟩
  refine foldl_blockLooked (fun p n hp => ?_) start
  have translated : BlockLooked s gid g (Machine.translate p.1 core (s.kernel g.kernel).asid (4096 * n)).1 := translate_blockLooked hp
  split <;> rename_i e <;> rw [e] at translated
  · obtain ⟨⟨f, hg⟩, others, clock⟩ := translated
    exact ⟨⟨_, group_modGroup hg _⟩, fun m hm => (get_modify_other _ _ hm).trans (others m hm), clock⟩
  · exact translated

/-- Each group of s is in t as it was but for the lines that the context cache does not hold. -/
def LinesMoved (s t : State) : Prop := ∀ n x, s.group? n = some x → ∃ l, t.group? n = some { x with absent := l }

theorem fitContext_linesMoved (s : State) (core : Nat) : LinesMoved s (fitContext s core) := by
  intro n x hx
  unfold fitContext
  dsimp only
  split
  · exact ⟨x.absent, hx⟩
  · refine List.foldlRecOn (motive := fun t : State => ∃ l, t.group? n = some { x with absent := l }) _ _ ⟨x.absent, hx⟩ fun t ht y _ => ?_
    obtain ⟨l, hl⟩ := ht
    split
    · rcases get_modify_cases t.groups y.gid n fun g => { g with absent := _ :: g.absent } with e | ⟨z, hz, e⟩
      · exact ⟨l, e.trans hl⟩
      · cases hl.symm.trans hz
        exact ⟨_, e⟩
    · exact ⟨l, hl⟩

theorem restoreEngine_group {h : Group} (hg : s.group? gid = some h) :
    (restoreEngine s gid g).group? gid = some { h with savedMq := [], savedJobs := [], engineSaved := false } := by
  unfold restoreEngine
  dsimp only
  exact group_modGroup (g := h) hg _

theorem restoreEngine_group_other {n : Nat} (hn : n ≠ gid) : (restoreEngine s gid g).group? n = s.group? n := by
  unfold restoreEngine
  dsimp only
  exact get_modify_other _ _ hn

/-- A group that holds its run for nothing is not let go by a barrier. -/
theorem barrierLeave_free (hg : s.group? gid = some g) (hh : g.hold = none) : barrierLeave s gid = s := by
  unfold barrierLeave
  rw [hg]
  dsimp only
  rw [hh]

/-! ### The group in its seat -/

/-- The group h holds a seat since the clock of s, with the registers, slices and run of g. -/
structure Sits (s : State) (core q : Nat) (g h : Group) : Prop where
  place : h.place = .seat core q
  stamp : h.stamp = s.clock
  seatedAt : h.seatedAt = s.clock
  vec : h.v = g.v
  uni : h.s = g.s
  pred : h.p = g.p
  slices : h.slices = g.slices
  run : h.run = g.run

/-- A group whose block has not been written, outside its handler, takes its seat as it is; then its engine state comes back and the
context cache makes room. -/
theorem sitDown_eq (hg : s.group? gid = some g) (hb : g.blockWritten = false) (hi : g.inHandler = false) :
    ∃ (x : Group) (c : Core) (a : Nat), Sits s core q g x ∧ x.hold = g.hold ∧ sitDown s gid core q false =
      barrierLeave (fitContext (wakeContext (restoreEngine ((s.setGroup gid x).setCore core c) gid g) a) core) gid := by
  have kept : (if g.inHandler || !g.blockWritten then g else readBlock s g) = g := if_pos (by rw [hb, Bool.not_false, Bool.or_true])
  unfold sitDown
  rw [hg]
  dsimp only
  rw [kept, hi, if_neg Bool.false_ne_true]
  refine ⟨_, _, _, ?_, ?_, rfl⟩
  · exact ⟨rfl, rfl, rfl, rfl, rfl, rfl, rfl, rfl⟩
  · rfl

/-- It then sits with what it holds, and no other group changes but in its lines. -/
theorem sitDown_sits (hg : s.group? gid = some g) (hb : g.blockWritten = false) (hi : g.inHandler = false) (hh : g.hold = none) :
    (∃ h, (sitDown s gid core q false).group? gid = some h ∧ Sits s core q g h) ∧
      ∀ n x, n ≠ gid → s.group? n = some x → ∃ l, (sitDown s gid core q false).group? n = some { x with absent := l } := by
  obtain ⟨x, c, a, sits, hold, e⟩ := sitDown_eq (core := core) (q := q) hg hb hi
  have seated : ((s.setGroup gid x).setCore core c).group? gid = some x := group_setGroup s gid x
  have restored := restoreEngine_group (g := g) seated
  obtain ⟨l, moved⟩ := fitContext_linesMoved (wakeContext (restoreEngine ((s.setGroup gid x).setCore core c) gid g) a) core gid _ restored
  rw [e, barrierLeave_free moved (hold.trans hh)]
  refine ⟨⟨_, moved, sits.place, sits.stamp, sits.seatedAt, sits.vec, sits.uni, sits.pred, sits.slices, sits.run⟩, fun n y hn hy => ?_⟩
  have kept : ((s.setGroup gid x).setCore core c).group? n = some y := (group_setGroup_other s gid n x hn).trans hy
  exact fitContext_linesMoved (wakeContext (restoreEngine ((s.setGroup gid x).setCore core c) gid g) a) core n y ((restoreEngine_group_other hn).trans kept)

/-- A group of the core's own, without poison and without a gap in its block, sits down once its block has been looked up. -/
theorem takeSeat_eq (hg : s.group? gid = some g) (hp : g.poison = []) (hc : g.core = core) (gap : ∀ t l, blockGap t g l = none) :
    takeSeat s gid core q = sitDown (lookBlock (account s core) core gid g).1 gid core q false := by
  unfold takeSeat
  split
  · next none => cases hg.symm.trans none
  · next y hy =>
    cases hg.symm.trans hy
    refine (if_neg (by rw [hp]; exact Bool.false_ne_true)).trans ?_
    split
    next t l look =>
    rw [gap, look]
    exact if_pos hc

/-- The candidate that is seated outside its handler, its block never written, keeps what it holds, and no other group changes but in its lines. -/
theorem takeSeat_sits (hg : s.group? gid = some g) (hp : g.poison = []) (hb : g.blockWritten = false) (hc : g.core = core) (hi : g.inHandler = false)
    (hh : g.hold = none) :
    (∃ h, (takeSeat s gid core q).group? gid = some h ∧ Sits s core q g h) ∧
      ∀ n x, n ≠ gid → s.group? n = some x → ∃ l, (takeSeat s gid core q).group? n = some { x with absent := l } := by
  have gap : ∀ t l, blockGap t g l = none := fun t l => by unfold blockGap; rw [hb]; rfl
  obtain ⟨⟨f, hl⟩, others, clock⟩ := lookBlock_blockLooked (s := account s core) (core := core) (gid := gid) (g := g) hg
  obtain ⟨⟨h, hh, sits⟩, rest⟩ := sitDown_sits (core := core) (q := q) hl hb hi hh
  rw [takeSeat_eq hg hp hc gap]
  exact ⟨⟨h, hh, ⟨sits.place, sits.stamp.trans clock, sits.seatedAt.trans clock, sits.vec, sits.uni, sits.pred, sits.slices, sits.run⟩⟩,
    fun n x hn hx => rest n x hn ((others n hn).trans hx)⟩

end Sys2Proof.Proofs
end
section
/-! # What stops groups seats none (R395, R422)

What a halt completes for a group, memory, counters and caches aside, changes groups: it ends runs, wakes waits, kills, and takes
groups out of their seats. It never puts one into a seat, moves no group to another kernel and no kernel to another context, and drops no context. -/

namespace Sys2Proof.Proofs

open Sys2Proof Sys2Proof.Machine Sys2Proof.Laws

/-- If g is seated, group n already was in r, for the same kernel. -/
def WasSeated (r : State) (n : Nat) (g : Group) : Prop := g.seated = true → ∃ h, r.group? n = some h ∧ h.seated = true ∧ h.kernel = g.kernel

/-- From r to s no group has taken a seat, kernels keep their contexts, and no context has gone. -/
def SeatsNone (r s : State) : Prop :=
  (∀ n g, s.group? n = some g → WasSeated r n g) ∧ (∀ n, (s.kernel n).asid = (r.kernel n).asid) ∧
    ∀ a, (KMap.get? r.ctxs a).isSome = true → (KMap.get? s.ctxs a).isSome = true

variable {r s t : State} {gid core asid part lead va pa sec line vf : Nat} {g : Group} {e : MEntry} {cmd : CopyCmd}

theorem seatsNone_refl (s : State) : SeatsNone s s := ⟨fun _ g hg hs => ⟨g, hg, hs, rfl⟩, fun _ => rfl, fun _ h => h⟩

theorem seatsNone_trans (h : SeatsNone r s) (k : SeatsNone s t) : SeatsNone r t := by
  obtain ⟨groups, kernels, ctxs⟩ := h
  obtain ⟨groups', kernels', ctxs'⟩ := k
  refine ⟨fun n g hg hs => ?_, fun n => (kernels' n).trans (kernels n), fun a ha => ctxs' a (ctxs a ha)⟩
  obtain ⟨x, hx, seated, e⟩ := groups' n g hg hs
  obtain ⟨y, hy, seated', e'⟩ := groups n x hx seated
  exact ⟨y, hy, seated', e'.trans e⟩

/-! ### Case distinctions and folds -/

theorem seatsNone_ite {c : Prop} [Decidable c] (hs : SeatsNone r s) (ht : SeatsNone r t) : SeatsNone r (if c then s else t) := by
  split
  · exact hs
  · exact ht

theorem fst_seatsNone_ite {β : Type} {c : Prop} [Decidable c] {p q : State × β} (hp : SeatsNone r p.1) (hq : SeatsNone r q.1) :
    SeatsNone r (if c then p else q).1 := by
  split
  · exact hp
  · exact hq

theorem fst_seatsNone {β : Type} {p : State × β} {b : β} (e : p = (s, b)) (h : SeatsNone r p.1) : SeatsNone r s := by
  rw [e] at h
  exact h

theorem foldl_seatsNone {α : Type} {f : State → α → State} {l : List α} (hf : ∀ s a, SeatsNone r s → SeatsNone r (f s a)) (h : SeatsNone r s) :
    SeatsNone r (l.foldl f s) :=
  List.foldlRecOn l f h fun s hs a _ => hf s a hs

/-! ### Groups, kernels and contexts -/

theorem wasSeated (h : SeatsNone r s) (hg : s.group? gid = some g) : WasSeated r gid g := h.left gid g hg

theorem setGroup_seatsNone (h : SeatsNone r s) (hg : WasSeated r gid g) : SeatsNone r (s.setGroup gid g) := by
  obtain ⟨groups, rest⟩ := h
  refine ⟨fun n x hx => ?_, rest⟩
  rcases eq_or_ne n gid with rfl | hn
  · cases (group_setGroup s n g).symm.trans hx
    exact hg
  · exact groups n x ((group_setGroup_other s gid n g hn).symm.trans hx)

theorem modGroup_seatsNone {f : Group → Group} (h : SeatsNone r s) (hf : ∀ n x, WasSeated r n x → WasSeated r n (f x)) : SeatsNone r (s.modGroup gid f) := by
  obtain ⟨groups, rest⟩ := h
  refine ⟨fun n x hx => ?_, rest⟩
  rcases get_modify_cases s.groups gid n f with e | ⟨y, hy, e⟩
  · exact groups n x (e.symm.trans hx)
  · cases e.symm.trans hx
    exact hf n y (groups n y hy)

theorem setKernel_seatsNone {n : Nat} {k : Kernel} (h : SeatsNone r s) (hk : k.asid = (s.kernel n).asid) : SeatsNone r (s.setKernel n k) := by
  obtain ⟨groups, kernels, ctxs⟩ := h
  refine ⟨groups, fun m => ?_, ctxs⟩
  have e : (s.setKernel n k).kernel m = if m = n then k else s.kernel m := by
    unfold State.kernel
    rw [setKernel_kernels]
    split
    · next hm => rw [hm, get_set_same]; rfl
    · next hm => rw [get_set_other _ _ _ _ hm]
  rw [e, ← kernels m]
  split
  · next hm => rw [hm, hk]
  · rfl

theorem setCtx_seatsNone {x : Context} (h : SeatsNone r s) : SeatsNone r { s with ctxs := KMap.set s.ctxs asid x } := by
  obtain ⟨groups, kernels, ctxs⟩ := h
  refine ⟨groups, kernels, fun a ha => ?_⟩
  rcases eq_or_ne a asid with rfl | hn
  · exact (congrArg Option.isSome (get_set_same s.ctxs a x)).trans rfl
  · exact (congrArg Option.isSome (get_set_other s.ctxs asid a x hn)).trans (ctxs a ha)

theorem modCtx_seatsNone {f : Context → Context} (h : SeatsNone r s) : SeatsNone r { s with ctxs := KMap.modify s.ctxs asid f } := by
  obtain ⟨groups, kernels, ctxs⟩ := h
  refine ⟨groups, kernels, fun a ha => ?_⟩
  rcases get_modify_cases s.ctxs asid a f with e | ⟨y, hy, e⟩
  · exact (congrArg Option.isSome e).trans (ctxs a ha)
  · exact (congrArg Option.isSome e).trans rfl

/-! ### The caches, the hub and the pools (`Machine/Mem.lean`) -/

theorem poolOwn_seatsNone {port : Nat} (h : SeatsNone r s) : SeatsNone r (poolOwn s port line) := by
  refine seatsNone_ite h ?_
  split
  · exact h
  · exact h

theorem hubClean_seatsNone (h : SeatsNone r s) : SeatsNone r (hubClean s line) := by
  unfold hubClean
  split
  · exact h
  · exact h

theorem hubRoom_seatsNone (h : SeatsNone r s) : SeatsNone r (hubRoom s line) := by
  refine seatsNone_ite h (seatsNone_ite h ?_)
  split
  · exact hubClean_seatsNone h
  · exact h

theorem hubUse_seatsNone {x : Nat} {dirty : Bool} (h : SeatsNone r s) : SeatsNone r (hubUse s part sec x dirty) := by
  unfold hubUse
  dsimp only
  split
  · exact h
  · exact seatsNone_ite h (hubRoom_seatsNone h)

theorem passHome_seatsNone {cache : Nat} {shr dirty : Bool} (h : SeatsNone r s) : SeatsNone r (passHome s core sec cache shr dirty) := by
  refine seatsNone_ite (seatsNone_ite h h) (hubUse_seatsNone ?_)
  split
  · exact poolOwn_seatsNone (seatsNone_ite h h)
  · exact seatsNone_ite h h

theorem passL1_seatsNone {cache : Nat} {shr : Bool} (h : SeatsNone r s) : SeatsNone r (passL1 s core sec cache shr) := by
  refine passHome_seatsNone ?_
  split
  · exact h
  · exact h

theorem hubWrite_seatsNone {w : HomeWrite} (h : SeatsNone r s) : SeatsNone r (hubWrite s core w) := by
  have hp : SeatsNone r (passHome s core w.sector w.cache w.shr !w.dur) := passHome_seatsNone h
  exact seatsNone_ite h (seatsNone_ite hp (seatsNone_ite hp (seatsNone_ite hp hp)))

theorem l1WriteBack_seatsNone (h : SeatsNone r s) : SeatsNone r (l1WriteBack s core sec) := by
  unfold l1WriteBack
  split
  · exact seatsNone_ite h (hubWrite_seatsNone h)
  · exact h

theorem l1Flush_seatsNone (h : SeatsNone r s) : SeatsNone r (l1Flush s core sec) := by
  unfold l1Flush
  dsimp only
  split <;> exact l1WriteBack_seatsNone h

theorem l1FlushLine_seatsNone (h : SeatsNone r s) : SeatsNone r (l1FlushLine s core line) := foldl_seatsNone (fun _ _ => l1Flush_seatsNone) h

theorem l1Fit_seatsNone (h : SeatsNone r s) : SeatsNone r (l1Fit s core) := by
  refine seatsNone_ite h (seatsNone_ite h ?_)
  split
  · exact l1FlushLine_seatsNone h
  · exact h

theorem l1Claim_seatsNone (h : SeatsNone r s) : SeatsNone r (l1Claim s core asid sec) := seatsNone_ite (l1FlushLine_seatsNone h) h

theorem l1Fill_seatsNone {a : Attr} (h : SeatsNone r s) : SeatsNone r (l1Fill s core sec a) := by
  unfold l1Fill
  dsimp only
  split
  · exact seatsNone_ite (l1Claim_seatsNone h) (l1Fit_seatsNone (passL1_seatsNone (l1Claim_seatsNone h)))
  · exact l1Fit_seatsNone (passL1_seatsNone (l1Claim_seatsNone h))

theorem l1Store_seatsNone {w : SectorWrite} (h : SeatsNone r s) : SeatsNone r (l1Store s core gid sec w) :=
  l1Fit_seatsNone (seatsNone_ite (l1Fill_seatsNone h) (l1Claim_seatsNone h))

theorem storeRange_seatsNone {a : Attr} {exact : B16} {bytes : List Byte} (h : SeatsNone r s) : SeatsNone r (storeRange s core gid a exact pa bytes) :=
  foldl_seatsNone (fun _ _ => l1Store_seatsNone) h

theorem acquire_seatsNone {scope : Scope} (h : SeatsNone r s) : SeatsNone r (acquire s gid scope) := by
  unfold acquire
  split
  · exact h
  · exact seatsNone_ite h h

theorem translate_seatsNone (h : SeatsNone r s) : SeatsNone r (Machine.translate s core asid va).1 := by
  refine fst_seatsNone_ite h ?_
  split
  · exact h
  · exact fst_seatsNone_ite (seatsNone_ite h h) (seatsNone_ite h h)

theorem physWords_seatsNone {x : List W64} (h : SeatsNone r s) : SeatsNone r (physWords s pa x) := by
  induction x generalizing s pa with
  | nil => exact h
  | cons w l ih => exact ih h

/-! ### Counters, error records, barriers and kills -/

theorem setPart_seatsNone {p : Partition} (h : SeatsNone r s) : SeatsNone r (s.setPart part p) := by
  unfold State.setPart
  split <;> exact h

theorem errorRecord_seatsNone {x : ErrRec} (h : SeatsNone r s) : SeatsNone r (errorRecord s part x).1 := by
  have counted : SeatsNone r (countError s x.kind) := seatsNone_ite h h
  exact fst_seatsNone_ite (setPart_seatsNone counted) (setPart_seatsNone (physWords_seatsNone counted))

theorem settleBarrier_seatsNone {grid : Bool} {owner num : Nat} (h : SeatsNone r s) : SeatsNone r (settleBarrier s grid owner num) :=
  seatsNone_ite (seatsNone_ite (modCtx_seatsNone h) h) h

theorem settleBarriers_seatsNone (h : SeatsNone r s) : SeatsNone r (settleBarriers s g) := by
  unfold settleBarriers
  dsimp only
  split
  · exact foldl_seatsNone (fun _ _ => settleBarrier_seatsNone) (foldl_seatsNone (fun _ _ => settleBarrier_seatsNone) h)
  · exact foldl_seatsNone (fun _ _ => settleBarrier_seatsNone) h

/-- A killed group is seated nowhere. -/
theorem wasSeated_killed {n : Nat} (h : g.place = .killed) : WasSeated r n g := fun hs => by
  unfold Group.seated at hs
  rw [h] at hs
  exact absurd hs Bool.false_ne_true

theorem stopGroup_seatsNone {code : Nat} (h : SeatsNone r s) : SeatsNone r (stopGroup s gid code) := by
  unfold stopGroup
  split
  · exact h
  · next x _ =>
    refine seatsNone_ite h (settleBarriers_seatsNone (setGroup_seatsNone (setKernel_seatsNone ?_ ?_) (wasSeated_killed rfl)))
    · exact setPart_seatsNone (part := (s.kernel x.kernel).part) (s := account s x.core) h
    · exact congrArg (fun m => ((KMap.get? m x.kernel).getD Kernel.blank).asid) (setPart_kernels (account s x.core) _ _).symm

theorem killGroup_seatsNone {f : Group → ErrRec} (h : SeatsNone r s) : SeatsNone r (killGroup s gid f) := by
  unfold killGroup
  split
  · exact h
  · exact seatsNone_ite (stopGroup_seatsNone (errorRecord_seatsNone h)) h

theorem killPoison_seatsNone (h : SeatsNone r s) : SeatsNone r (killPoison s gid) := killGroup_seatsNone h

end Sys2Proof.Proofs
end
section
/-! # Steps that seat none: traps, results, decodes and the matrix unit (R177, R211, R377, R429) -/

namespace Sys2Proof.Proofs

open Sys2Proof Sys2Proof.Machine Sys2Proof.Laws

variable {r s : State} {gid core asid part lead va pa sec line vf n : Nat} {g : Group} {e : MEntry} {cmd : CopyCmd}

/-! ### Runs that go on, traps and cards -/

theorem wasSeated_landAll {score : Bool} {run : Nat} {ws : List RegWrite} (h : WasSeated r n g) : WasSeated r n (g.landAll score run ws) := by
  rw [(settled_landAll score run g ws).rest]
  exact h

theorem wasSeated_overtakeAll {run k : Nat} {ws : List RegWrite} (h : WasSeated r n g) : WasSeated r n (overtakeAll g k run ws) := by
  rw [(frame_overtakeAll true k run ws g).left.rest]
  exact h

theorem heldGang_group {c : Gang} (h : heldGang s gid = some c) : s.group? gid = some c.g := by
  unfold heldGang at h
  split at h
  · cases h
  · next hg =>
    split at h
    · cases h
    · cases h
      exact hg

theorem takeTrap_seatsNone {site : TrapSite} {t : TrapInfo} (h : SeatsNone r s) : SeatsNone r (takeTrap s gid site t) := by
  unfold takeTrap
  dsimp only
  split
  · exact h
  · next hg =>
    have was := wasSeated h hg
    refine seatsNone_ite (killGroup_seatsNone h) ?_
    split
    · exact killGroup_seatsNone (setGroup_seatsNone h was)
    · exact setGroup_seatsNone (s := pmcCore s _ _ _ _) h was

theorem reenterHandler_seatsNone (h : SeatsNone r s) : SeatsNone r (reenterHandler s gid) := by
  unfold reenterHandler
  split
  · exact h
  · next hg =>
    have was := wasSeated h hg
    split
    · exact h
    · exact setGroup_seatsNone h was

theorem advance_seatsNone {k : Nat} {leave : BitVec 8} {taken : Bool} (h : SeatsNone r s) : SeatsNone r (advance s gid k leave taken) := by
  unfold advance
  split
  · exact h
  · next g hg =>
    have was := wasSeated h hg
    split
    · exact h
    · next run _ =>
      dsimp only
      have left (c : Nat) : WasSeated r gid (if taken = true then g.mapSlices leave fun _ sl => { sl with notBefore := c } else g) := by
        split <;> exact was
      exact seatsNone_ite (setGroup_seatsNone h (left _)) (setGroup_seatsNone h (left _))

theorem goOn_seatsNone (h : SeatsNone r s) : SeatsNone r (goOn s gid) := by
  unfold goOn
  split
  · exact h
  · next hg =>
    have was := wasSeated h hg
    split
    · exact setGroup_seatsNone h was
    · exact seatsNone_ite (setGroup_seatsNone h was) (advance_seatsNone (setGroup_seatsNone h was))

theorem trapHeld_seatsNone {t : TrapInfo} (h : SeatsNone r s) : SeatsNone r (trapHeld s gid t) := by
  unfold trapHeld
  split
  · next hc =>
    have was := wasSeated h (heldGang_group hc)
    exact takeTrap_seatsNone (setGroup_seatsNone h was)
  · exact h

theorem writeCard_seatsNone {words : List W64} (h : SeatsNone r s) : SeatsNone r (writeCard s gid words) := by
  unfold writeCard
  split
  · exact h
  · next hg =>
    have was := wasSeated h hg
    dsimp only
    split
    · exact h
    · have start {x a y} (hx : WasSeated r gid x) : SeatsNone r { s.setGroup gid x with ctxs := KMap.set s.ctxs a y } :=
        setCtx_seatsNone (setGroup_seatsNone h hx)
      split
      · next hq =>
        have hs := fst_seatsNone hq (translate_seatsNone (start was))
        exact seatsNone_ite (storeRange_seatsNone hs) (modCtx_seatsNone hs)
      · next hq =>
        have hs := fst_seatsNone hq (translate_seatsNone (start was))
        exact modCtx_seatsNone hs

theorem completeResult_seatsNone {kind : ResultKind} (h : SeatsNone r s) : SeatsNone r (completeResult s gid kind) := by
  unfold completeResult
  dsimp only
  split
  · exact h
  · next hg =>
    have was := wasSeated h hg
    split
    · exact h
    · split
      · exact trapHeld_seatsNone (setGroup_seatsNone h was)
      · refine seatsNone_ite (goOn_seatsNone ?_) ?_
        all_goals
          split
          · exact writeCard_seatsNone (setGroup_seatsNone h (wasSeated_landAll was))
          · exact setGroup_seatsNone h (wasSeated_landAll was)

/-! ### Accesses under their tiles, wakes and drains -/

theorem lateIn_seatsNone {seq : Nat} (h : SeatsNone r s) : SeatsNone r (lateIn s gid seq) := by
  unfold lateIn
  split
  · exact h
  · next hg =>
    have was := wasSeated h hg
    exact seatsNone_ite h (setGroup_seatsNone h was)

theorem lateOut_seatsNone {s0 : State} {seq : Nat} (h : SeatsNone r s) : SeatsNone r (lateOut s0 s gid seq) := by
  unfold lateOut
  split
  · exact h
  · refine seatsNone_ite h (modGroup_seatsNone h fun m x hx => ?_)
    split
    · exact hx
    · exact hx

theorem underLate_seatsNone {seq : Nat} {f : State → State} (h : SeatsNone r s) (hf : ∀ s, SeatsNone r s → SeatsNone r (f s)) :
    SeatsNone r (underLate s gid seq f) :=
  lateOut_seatsNone (hf _ (lateIn_seatsNone h))

theorem wakeGroups_seatsNone {p : Group → WaitA → Bool} (h : SeatsNone r s) : SeatsNone r (wakeGroups s p) :=
  foldl_seatsNone (fun _ _ hs => modGroup_seatsNone hs fun _ _ hx => hx) (foldl_seatsNone (fun _ _ => modCtx_seatsNone) h)

theorem homeWrite_seatsNone {a : Attr} {k v : Nat} {b : B16} {signal : Bool} (h : SeatsNone r s) : SeatsNone r (homeWrite s core gid a pa k v b signal) :=
  seatsNone_ite (wakeGroups_seatsNone (hubWrite_seatsNone h)) (hubWrite_seatsNone h)

theorem drainEntry_seatsNone {x : RedEntry} (h : SeatsNone r s) : SeatsNone r (drainEntry s gid x) := by
  unfold drainEntry
  split
  · exact h
  · split
    · exact homeWrite_seatsNone (passL1_seatsNone (l1Flush_seatsNone h))
    · split
      · exact h
      · exact seatsNone_ite (wakeGroups_seatsNone h) h

theorem drainWhere_seatsNone {p : RedEntry → Bool} (h : SeatsNone r s) : SeatsNone r (drainWhere s gid p) := by
  unfold drainWhere
  split
  · exact h
  · next hg =>
    have was := wasSeated h hg
    exact foldl_seatsNone (fun _ _ => drainEntry_seatsNone) (setGroup_seatsNone h was)

end Sys2Proof.Proofs
end
section
/-! # Decodes and matrix entries that complete at a halt seat none (R211, R377, R395) -/

namespace Sys2Proof.Proofs

open Sys2Proof Sys2Proof.Machine Sys2Proof.Laws

variable {r s : State} {gid core lead n : Nat} {g : Group} {e : MEntry} {cmd : CopyCmd}

/-! ### The decode unit and `DECHT` -/

theorem finishDecode_seatsNone {j : DecodeJob} (h : SeatsNone r s) : SeatsNone r (finishDecode s j) := by
  unfold finishDecode
  dsimp only
  split
  · exact h
  · next c hc =>
    obtain ⟨b, hb, rfl⟩ := Option.map_eq_some_iff.mp hc
    have was := wasSeated h (heldGang_group hb)
    split
    · refine seatsNone_ite (killPoison_seatsNone h) (seatsNone_ite (trapHeld_seatsNone h) ?_)
      split
      · exact trapHeld_seatsNone h
      · refine goOn_seatsNone ?_
        split
        · exact writeCard_seatsNone (setGroup_seatsNone h (wasSeated_landAll (wasSeated_overtakeAll was)))
        · exact setGroup_seatsNone h (wasSeated_landAll (wasSeated_overtakeAll was))
    · exact h

theorem decodeHead_seatsNone (h : SeatsNone r s) : SeatsNone r (decodeHead core s) := by
  unfold decodeHead
  dsimp only
  split
  · refine seatsNone_ite h ?_
    split
    · refine underLate_seatsNone h fun _ hs => ?_
      split
      · split
        · exact goOn_seatsNone hs
        · exact goOn_seatsNone hs
      · exact hs
    · exact underLate_seatsNone h fun _ hs => finishDecode_seatsNone hs
  · exact h

theorem copyAcquire_seatsNone {p : State × CopyCmd} (h : SeatsNone r s) (e : copyAcquire s gid g cmd = some p) : SeatsNone r p.1 := by
  unfold copyAcquire at e
  split at e
  · cases e
    exact h
  · split at e
    · cases e
    · cases e
      exact acquire_seatsNone h

theorem setCopy_seatsNone (h : SeatsNone r s) : SeatsNone r (setCopy s gid cmd) := modGroup_seatsNone h fun _ _ hx => hx

theorem dropCopy_seatsNone (h : SeatsNone r s) : SeatsNone r (dropCopy s gid) := modGroup_seatsNone h fun _ _ hx => hx

theorem finishDecht_seatsNone (h : SeatsNone r s) : SeatsNone r (finishDecht gid s) := by
  unfold finishDecht
  split
  · exact h
  · split
    · refine seatsNone_ite h ?_
      split
      · exact h
      · next hq =>
        have hs := copyAcquire_seatsNone h hq
        dsimp only
        split
        · refine seatsNone_ite (trapHeld_seatsNone (dropCopy_seatsNone hs)) ?_
          refine setCopy_seatsNone (modGroup_seatsNone ?_ fun _ _ hx => hx)
          exact drainWhere_seatsNone hs
        · exact setCopy_seatsNone hs
    · exact h

/-! ### The matrix unit -/

theorem setAccElem_seatsNone {a i j : Nat} {wide : Bool} {v : Nat} (h : SeatsNone r s) : SeatsNone r (setAccElem s lead a i j wide v) :=
  seatsNone_ite h h

theorem writeCells_seatsNone {acc : Nat} {wide : Bool} {i : Nat} {cells : List Nat} (h : SeatsNone r s) : SeatsNone r (writeCells s lead acc wide i cells) :=
  foldl_seatsNone (fun _ _ => setAccElem_seatsNone) h

theorem writeRows_seatsNone {acc : Nat} {wide : Bool} {out : KMap MRow} (h : SeatsNone r s) : SeatsNone r (writeRows s lead acc wide out) :=
  foldl_seatsNone (fun _ _ hs => seatsNone_ite (writeCells_seatsNone hs) (writeCells_seatsNone hs)) h

theorem performMma_seatsNone {pl : MPlan} (h : SeatsNone r s) : SeatsNone r (performMma s lead g e pl).s := by
  unfold performMma
  dsimp only
  split
  · exact foldl_seatsNone (fun _ _ hs => hs) h
  · split
    · exact h
    · exact writeRows_seatsNone h

theorem stopMma_seatsNone {pl : MPlan} (h : SeatsNone r s) : SeatsNone r (stopMma s lead g e pl).1 :=
  have rows {out wide} : SeatsNone r (writeRows (setLatch s lead none) lead (mmaAcc e.word) wide out) := writeRows_seatsNone h
  fst_seatsNone_ite h (modGroup_seatsNone (seatsNone_ite (foldl_seatsNone (fun _ _ => writeCells_seatsNone) rows) rows) fun _ _ hx => hx)

theorem saveEntry_seatsNone (h : SeatsNone r s) : SeatsNone r (saveEntry s lead e).1 := by
  unfold saveEntry
  dsimp only
  split
  · exact h
  · refine fst_seatsNone_ite h ?_
    split
    · exact h
    · exact lateOut_seatsNone (stopMma_seatsNone (lateIn_seatsNone h))

theorem finishAccrd_seatsNone (h : SeatsNone r s) (hg : WasSeated r e.gid g) : SeatsNone r (finishAccrd s g e) := by
  unfold finishAccrd
  split
  · exact h
  · exact setGroup_seatsNone h (wasSeated_landAll hg)

theorem wasSeated_leaveBatch (h : WasSeated r n g) : WasSeated r n (leaveBatch g) := by
  unfold leaveBatch
  dsimp only
  split <;> exact h

theorem finishHead_seatsNone (h : SeatsNone r s) (hg : WasSeated r e.gid g) : SeatsNone r (finishHead core g e s) := by
  have left {t : State} {f : Group → Group} (hs : SeatsNone r t) (hf : ∀ n x, WasSeated r n x → WasSeated r n (f x)) :
      SeatsNone r (popEntry (t.modGroup e.gid f) core) :=
    modGroup_seatsNone hs hf
  unfold finishHead
  dsimp only
  split
  · exact left (seatsNone_ite h h) fun _ _ => wasSeated_leaveBatch
  · exact left h fun _ _ => wasSeated_leaveBatch
  · exact left h fun _ _ => wasSeated_leaveBatch
  · refine seatsNone_ite (killPoison_seatsNone h) (seatsNone_ite (killGroup_seatsNone h) ?_)
    exact finishAccrd_seatsNone h hg
  · split
    · exact left h fun _ _ => wasSeated_leaveBatch
    · refine seatsNone_ite (killPoison_seatsNone (performMma_seatsNone h)) ?_
      have done {pl fl} : SeatsNone r (popEntry ((performMma s core g e pl).s.modGroup e.gid fun g => leaveBatch (g.stick fl)) core) :=
        left (performMma_seatsNone h) fun _ _ hx => wasSeated_leaveBatch hx
      split
      on_goal 1 => refine seatsNone_ite (trapHeld_seatsNone ?_) (modGroup_seatsNone ?_ fun _ _ hx => by split <;> exact hx)
      on_goal 3 => refine seatsNone_ite (goOn_seatsNone ?_) ?_
      all_goals
        split
        · exact writeCard_seatsNone done
        · exact done

theorem retireHead_seatsNone (h : SeatsNone r s) : SeatsNone r (retireHead core s) := by
  unfold retireHead
  split
  · exact h
  · refine seatsNone_ite h ?_
    split
    · exact h
    · next hg =>
      have was := wasSeated h hg
      exact underLate_seatsNone h fun _ hs => finishHead_seatsNone hs was

end Sys2Proof.Proofs
end
section
/-! # A halted context holds no seat (R395, R422) -/

namespace Sys2Proof.Proofs

open Sys2Proof Sys2Proof.Machine Sys2Proof.Laws

variable {r s : State} {gid core asid n : Nat} {g : Group} {c d : Context}

/-! ### A group leaves its seat (R401, R411) -/

theorem writeBlock_seatsNone (h : SeatsNone r s) : SeatsNone r (writeBlock s gid) := by
  unfold writeBlock
  split
  · exact h
  · refine foldl_seatsNone (fun s x hs => ?_) h
    dsimp only
    split
    · exact physWords_seatsNone hs
    · exact hs

theorem writeEngineArea_seatsNone (h : SeatsNone r s) : SeatsNone r (writeEngineArea s gid) := by
  unfold writeEngineArea
  split
  · exact h
  · refine foldl_seatsNone (fun _ _ hs => ?_) h
    split
    · exact physWords_seatsNone hs
    · exact hs

theorem clearCurrent_seatsNone (h : SeatsNone r s) : SeatsNone r (clearCurrent s gid) := by
  unfold clearCurrent
  split <;> exact h

theorem loseHandler_seatsNone (h : SeatsNone r s) : SeatsNone r (loseHandler s gid) := by
  unfold loseHandler
  split
  · exact h
  · refine reenterHandler_seatsNone (modGroup_seatsNone (foldl_seatsNone (fun _ _ hs => ?_) h) fun _ _ hx => hx)
    split
    · exact seatsNone_ite hs (modGroup_seatsNone hs fun _ _ hx => hx)
    · exact modGroup_seatsNone hs fun _ _ hx => hx
    · exact hs

/-- Group gid, if there is one, holds no seat. -/
def Unseated (s : State) (gid : Nat) : Prop := ∀ g, s.group? gid = some g → g.seated = false

/-- A group that holds no seat is given none by what seats none. -/
theorem unseated_of_seatsNone (h : SeatsNone r s) (hr : Unseated r gid) : Unseated s gid := fun g hg => by
  by_contra seated
  obtain ⟨x, hx, was, _⟩ := h.left gid g hg (eq_true_of_ne_false seated)
  exact absurd (hr x hx) (ne_false_of_eq_true was)

theorem leaveSeat_leaves (h : SeatsNone r s) : SeatsNone r (leaveSeat s gid) ∧ Unseated (leaveSeat s gid) gid := by
  unfold leaveSeat
  split
  · next none => exact ⟨h, fun x hx => nomatch none.symm.trans hx⟩
  · next g hg =>
    have written : SeatsNone r (clearCurrent (writeBlock (account s g.core) gid) gid) := clearCurrent_seatsNone (writeBlock_seatsNone h)
    split
    · next off =>
      refine ⟨h, fun x hx => ?_⟩
      cases hg.symm.trans hx
      exact eq_false_of_ne_true (by simpa using off)
    · dsimp only
      have hall {x : Group} (hx : x.place = .hall g.core) : WasSeated r gid x := fun hs => by
        unfold Group.seated at hs
        rw [hx] at hs
        exact absurd hs Bool.false_ne_true
      have out {x : Group} (hx : x.place = .hall g.core) :
          Unseated ((clearCurrent (writeBlock (account s g.core) gid) gid).setGroup gid x) gid := fun y hy => by
        cases (group_setGroup _ gid x).symm.trans hy
        unfold Group.seated
        rw [hx]
      split
      · exact ⟨loseHandler_seatsNone (setGroup_seatsNone written (hall rfl)), unseated_of_seatsNone (loseHandler_seatsNone (seatsNone_refl _)) (out rfl)⟩
      · exact ⟨setGroup_seatsNone written (hall rfl), out rfl⟩

/-! ### A group and a context halt -/

theorem haltResult_seatsNone (h : SeatsNone r s) : SeatsNone r (haltResult s gid) := by
  unfold haltResult
  split
  · exact h
  · refine seatsNone_ite ?_ h
    split
    · exact completeResult_seatsNone h
    · exact h

theorem haltDecodes_seatsNone (h : SeatsNone r s) : SeatsNone r (haltDecodes s gid) := by
  unfold haltDecodes
  split
  · exact h
  · refine modGroup_seatsNone ?_ fun _ _ hx => hx
    split
    · exact seatsNone_ite (seatsNone_ite (finishDecht_seatsNone h) (decodeHead_seatsNone h)) h
    · exact h

theorem wasSeated_leaveOpens {l : List MEntry} (h : WasSeated r n g) : WasSeated r n (l.foldl (fun g _ => leaveOpen g) g) :=
  List.foldlRecOn (motive := fun g => WasSeated r n g) l _ h fun _ hg _ _ => hg

theorem haltMatrix_seatsNone (h : SeatsNone r s) : SeatsNone r (haltMatrix s gid) := by
  unfold haltMatrix
  dsimp only
  split
  · exact h
  · refine modGroup_seatsNone ?_ fun _ _ hx => wasSeated_leaveOpens hx
    split
    · exact seatsNone_ite (seatsNone_ite (retireHead_seatsNone h) (saveEntry_seatsNone h)) h
    · exact h

theorem wasSeated_withdraw (h : WasSeated r n g) : WasSeated r n (withdraw g) := by
  unfold withdraw
  split
  · exact h
  · exact h
  · split
    · split
      · split <;> exact h
      all_goals exact h
    · exact h
  · exact h

theorem haltGroup_halts (h : SeatsNone r s) : SeatsNone r (haltGroup s gid) ∧ Unseated (haltGroup s gid) gid := by
  have stopped : SeatsNone r (haltMatrix (haltDecodes (haltResult s gid) gid) gid) :=
    haltMatrix_seatsNone (haltDecodes_seatsNone (haltResult_seatsNone h))
  unfold haltGroup
  dsimp only
  have withdrawn : SeatsNone r ((haltMatrix (haltDecodes (haltResult s gid) gid) gid).modGroup gid fun g =>
      { withdraw g with engineSaved := true, waita := g.waita.map fun w => { w with armed := false } }) :=
    modGroup_seatsNone stopped fun _ _ hx => wasSeated_withdraw hx
  split
  · next x hx =>
    split
    · exact leaveSeat_leaves withdrawn
    · next off =>
      refine ⟨writeEngineArea_seatsNone withdrawn, unseated_of_seatsNone (writeEngineArea_seatsNone (seatsNone_refl _)) fun y hy => ?_⟩
      cases hx.symm.trans hy
      exact eq_false_of_ne_true off
  · next none => exact ⟨withdrawn, fun x hx => nomatch none.symm.trans hx⟩

theorem foldl_haltGroup (l : List (Nat × Group)) (s : State) :
    SeatsNone s (l.foldl (fun s x => haltGroup s x.1) s) ∧ ∀ x ∈ l, Unseated (l.foldl (fun s x => haltGroup s x.1) s) x.1 := by
  induction l generalizing s with
  | nil => exact ⟨seatsNone_refl s, fun x hx => nomatch hx⟩
  | cons x l ih =>
    obtain ⟨halted, out⟩ := haltGroup_halts (gid := x.1) (seatsNone_refl s)
    obtain ⟨rest, outs⟩ := ih (haltGroup s x.1)
    refine ⟨seatsNone_trans halted rest, fun y hy => ?_⟩
    rcases List.mem_cons.mp hy with rfl | hy
    · exact unseated_of_seatsNone rest out
    · exact outs y hy

/-- Once a context has halted, none of its groups is seated. -/
theorem haltContext_halts : SeatsNone s (haltContext s asid) ∧
    ∀ n g, (haltContext s asid).group? n = some g → ((haltContext s asid).kernel g.kernel).asid = asid → g.seated = false := by
  obtain ⟨halted, outs⟩ : SeatsNone s (haltContext s asid) ∧ ∀ x ∈ groupsOfCtx s asid, Unseated (haltContext s asid) x.1 :=
    foldl_haltGroup (groupsOfCtx s asid) s
  refine ⟨halted, fun n g hg ha => ?_⟩
  by_contra seated
  obtain ⟨groups, kernels, _⟩ := halted
  obtain ⟨x, hx, was, e⟩ := groups n g hg (eq_true_of_ne_false seated)
  have mine : (n, x) ∈ groupsOfCtx s asid := by
    refine List.mem_filter.mpr ⟨mem_of_get hx, ?_⟩
    show (x.live && decide ((s.kernel x.kernel).asid = asid)) = true
    rw [live_of_seated was, e, ← kernels, ha, Bool.true_and, decide_eq_true rfl]
  exact seated (outs _ mine g hg)

end Sys2Proof.Proofs
end
section
/-! # Contexts become idle, are pre-empted, resume and are boosted (R319, R421–R423) -/

namespace Sys2Proof.Proofs

open Sys2Proof Sys2Proof.Machine Sys2Proof.Laws

variable {s : State} {core asid a : Nat} {c d : Context}

/-! ### What an event makes of one context -/

/-- The event leaves context asid as d, memory as it was, and every other context as it was. -/
def LeavesCtx (i : Instr) (s : State) (asid : Nat) (d : Context) : Prop :=
  ∃ t, exec i s = .next t ∧ KMap.get? t.ctxs asid = some d ∧ t.mem = s.mem ∧ ∀ n, n ≠ asid → KMap.get? t.ctxs n = KMap.get? s.ctxs n

theorem leavesCtx_set {i : Instr} (e : exec i s = .next (tick { s with ctxs := KMap.set s.ctxs asid d })) : LeavesCtx i s asid d :=
  ⟨_, e, get_set_same s.ctxs asid d, rfl, fun n hn => get_set_other s.ctxs asid n d hn⟩

/-! ### The stall quantum (R319) -/

/-- A seated group of the context. -/
def SeatedOf (s : State) (asid : Nat) (x : Nat × Group) : Prop := x ∈ s.groups ∧ x.2.seated = true ∧ (s.kernel x.2.kernel).asid = asid

theorem mem_seatedOf {x : Nat × Group} : x ∈ seatedOf s asid ↔ SeatedOf s asid x := by
  unfold seatedOf SeatedOf
  rw [List.mem_filter, Bool.and_eq_true, decide_eq_true_eq]

/-- The group has waited, with no park satisfied, for longer than the quantum of the context. -/
def StalledSince (s : State) (c : Context) (g : Group) : Prop :=
  (g.waita.isSome = true ∨ g.atBarrier.isSome = true) ∧ g.parkSatisfied s = false ∧ ∃ t, g.parkedSince = some t ∧ t + quantumClocks c < s.clock

theorem stalledOut_iff : stalledOut s asid c = true ↔ (∃ x, SeatedOf s asid x) ∧ ∀ x, SeatedOf s asid x → StalledSince s c x.2 := by
  unfold stalledOut
  simp only [Bool.and_eq_true, Bool.not_eq_true', List.isEmpty_eq_false_iff_exists_mem, List.all_eq_true, mem_seatedOf]
  refine and_congr_right fun _ => forall₂_congr fun x _ => ?_
  unfold StalledSince
  cases x.2.parkedSince <;> simp [and_assoc]

theorem exec_quantum_stays (hc : KMap.get? s.ctxs asid = some c) (h : c.state ≠ .runnable ∨ stalledOut s asid c = false) :
    exec (.stallQuantumExpiry asid) s = .next (tick s) := by
  rw [exec_stallQuantumExpiry]
  unfold execStallQuantumExpiry
  rw [hc]
  refine congrArg (fun t => Host.Outcome.next (tick t)) (if_neg ?_)
  rcases h with h | h <;> simp [h]

theorem exec_quantum_idles (hc : KMap.get? s.ctxs asid = some c) (hr : c.state = .runnable) (h : stalledOut s asid c = true) :
    LeavesCtx (.stallQuantumExpiry asid) s asid { ranNow s c with state := .idle } := by
  refine leavesCtx_set ?_
  rw [exec_stallQuantumExpiry]
  unfold execStallQuantumExpiry
  rw [hc]
  exact congrArg (fun t => Host.Outcome.next (tick t)) (if_pos (by simp [hr, h]))

/-! ### Pre-emption (R422) -/

theorem exec_preemption_stays (hc : KMap.get? s.ctxs asid = some c)
    (h : (freeQuarter s core).isSome = true ∨ c.state = .preempted ∨ c.state = .empty) : exec (.preemption asid core) s = .next (tick s) := by
  rw [exec_preemption]
  unfold execPreemption
  rw [hc]
  refine congrArg (fun t => Host.Outcome.next (tick t)) (if_neg ?_)
  rcases h with h | h | h
  · obtain ⟨q, hq⟩ := Option.isSome_iff_exists.mp h
    simp [needsSeatsOn, hq]
  · simp [runnableNow, h]
  · simp [runnableNow, h]

/-- The victim is another context of lower rank. -/
theorem victim_spec (h : victim s asid core c = some (a, d)) : (a, d) ∈ s.ctxs ∧ a ≠ asid ∧ d.rank < c.rank := by
  unfold victim at h
  have kept := (congrArg (fun f => List.foldl f none _)
    (funext₂ (f := keepBest fun x y : Nat × Context => x.2.rank < y.2.rank) fun acc x => by cases acc <;> rfl)).trans h
  rcases foldl_keepBest_mem kept with mem | none
  · obtain ⟨mem, test⟩ := List.mem_filter.mp mem
    simp only [Bool.and_eq_true, decide_eq_true_eq] at test
    exact ⟨mem, test.1.1.1.1, test.1.1.2⟩
  · cases none

/-- The victim of a pre-emption is halted: it is pre-empted, and none of its groups is seated. -/
theorem exec_preemption_halts (hc : KMap.get? s.ctxs asid = some c) (hw : KMap.wf s.ctxs = true) (hr : c.state = .runnable)
    (hn : needsSeatsOn s asid core = true) (hv : victim s asid core c = some (a, d)) :
    ∃ t e, exec (.preemption asid core) s = .next t ∧ KMap.get? t.ctxs a = some e ∧ e.state = .preempted ∧
      ∀ n h, t.group? n = some h → (t.kernel h.kernel).asid = a → h.seated = false := by
  have e : exec (.preemption asid core) s = .next (tick (setCtxState (haltContext s a) a .preempted)) := by
    rw [exec_preemption]
    unfold execPreemption
    rw [hc]
    refine congrArg (fun t => Host.Outcome.next (tick t)) ((if_pos (by simp [runnableNow, hr, hn])).trans ?_)
    rw [hv]
  obtain ⟨mem, _, _⟩ := victim_spec hv
  obtain ⟨⟨_, _, ctxs⟩, out⟩ := haltContext_halts (s := s) (asid := a)
  obtain ⟨x, hx⟩ := Option.isSome_iff_exists.mp (ctxs a (Option.isSome_iff_exists.mpr ⟨d, get_of_mem hw mem⟩))
  exact ⟨_, _, e, get_modify_same hx _, rfl, out⟩

/-! ### Resumption (R421) -/

theorem exec_resume_stays (hc : KMap.get? s.ctxs asid = some c) (h : c.state ≠ .preempted ∨ c.away = true) :
    exec (.contextResume asid) s = .next (tick s) := by
  show execContextResume asid s = _
  unfold execContextResume
  rw [hc]
  refine congrArg (fun t => Host.Outcome.next (tick t)) (if_neg ?_)
  rcases h with h | h <;> simp [mayResume, h]

theorem exec_resume_resumes (hc : KMap.get? s.ctxs asid = some c) (hp : c.state = .preempted) (ha : c.away = false)
    (h : c.boosted = true ∨ ∀ x ∈ s.ctxs, x.2.part = c.part → x.2.rank ≤ c.rank) :
    LeavesCtx (.contextResume asid) s asid { ranNow s c with state := .runnable } := by
  have may : mayResume s asid c = true := by
    have free : c.boosted = true ∨ s.ctxs.any (fun x => decide (x.2.part = c.part) && decide (c.rank < x.2.rank) && runnableNow s x.1 x.2 &&
        needsSeatsOf s asid x.1) = false := h.imp_right fun low => List.any_eq_false.mpr fun x hx => by
      simp only [Bool.and_eq_true, decide_eq_true_eq, not_and]
      exact fun test => absurd (low x hx test.1.1) (Nat.not_le.mpr test.1.2)
    unfold mayResume
    rcases free with free | free
    · simp [hp, ha, free]
    · simp only [hp, ha, decide_true, Bool.not_false, Bool.true_and, Bool.or_eq_true, Bool.not_eq_true']
      exact .inr free
  have e : exec (.contextResume asid) s = .next (tick (resumeContext s asid)) := by
    show execContextResume asid s = _
    unfold execContextResume
    rw [hc]
    exact congrArg (fun t => Host.Outcome.next (tick t)) (if_pos may)
  exact ⟨_, e, get_modify_same hc _, rfl, fun n hn => get_modify_other s.ctxs _ hn⟩

/-! ### The starvation guard (R423) -/

theorem exec_boost_stays (hc : KMap.get? s.ctxs asid = some c) (h : c.boosted = true ∨ c.away = true ∨ msClocks ≤ (ranNow s c).ran) :
    exec (.starvationBoost asid) s = .next (tick s) := by
  show execStarvationBoost asid s = _
  unfold execStarvationBoost
  rw [hc]
  refine congrArg (fun t => Host.Outcome.next (tick t)) (if_neg ?_)
  unfold boostDue
  rcases h with h | h | h
  · simp [h]
  · simp [h]
  · simp [Nat.not_lt.mpr h]

theorem exec_boost_boosts (hc : KMap.get? s.ctxs asid = some c) (hb : c.boosted = false) (ha : c.away = false)
    (hs : c.state = .preempted ∨ c.state = .runnable) (hr : (ranNow s c).ran < msClocks)
    (left : windowClocks - s.sysClock c.part % windowClocks ≤ msClocks - (ranNow s c).ran) :
    LeavesCtx (.starvationBoost asid) s asid { ranNow s c with boosted := true } := by
  have work : (decide (c.state = .preempted) || runnableNow s asid c) = true := by
    rcases hs with hs | hs <;> simp [runnableNow, hs]
  refine leavesCtx_set ?_
  show execStarvationBoost asid s = _
  unfold execStarvationBoost
  rw [hc]
  refine congrArg (fun t => Host.Outcome.next (tick t)) (if_pos ?_)
  unfold boostDue
  dsimp only
  rw [hb, ha, work, decide_eq_true hr, decide_eq_true left]
  rfl

theorem exec_boostEnd_stays (hc : KMap.get? s.ctxs asid = some c) (h : c.boosted = false ∨ (ranNow s c).ran < msClocks) :
    exec (.starvationBoostEnd asid) s = .next (tick s) := by
  show execStarvationBoostEnd asid s = _
  unfold execStarvationBoostEnd
  rw [hc]
  refine congrArg (fun t => Host.Outcome.next (tick t)) (if_neg ?_)
  rcases h with h | h
  · simp [h]
  · simp [Nat.not_le.mpr h]

theorem exec_boostEnd_ends (hc : KMap.get? s.ctxs asid = some c) (hb : c.boosted = true) (hr : msClocks ≤ (ranNow s c).ran) :
    LeavesCtx (.starvationBoostEnd asid) s asid { ranNow s c with boosted := false } := by
  refine leavesCtx_set ?_
  show execStarvationBoostEnd asid s = _
  unfold execStarvationBoostEnd
  rw [hc]
  exact congrArg (fun t => Host.Outcome.next (tick t)) (if_pos (by rw [hb, decide_eq_true hr]; rfl))

end Sys2Proof.Proofs
end
section
/-! # Seats and contexts: O51 -/

namespace Sys2Proof.Proofs

open Sys2Proof Sys2Proof.Machine Sys2Proof.Laws

variable {s : State} {core q gid : Nat} {g : Group}

/-- Slice j has left: its lanes have exited, or none is active and no path waits. -/
def SliceLeft (s : State) (g : Group) (j : Fin 8) : Prop :=
  (g.slice j.val).exited = (s.kernel g.kernel).fullMask ∨ ((g.slice j.val).act = 0 ∧ (g.slice j.val).stack = [])

/-- A group that has not ended, or has something outstanding, has not drained. -/
theorem not_drained (h : (∃ j : Fin 8, ¬SliceLeft s g j) ∨ g.ld ≠ [] ∨ g.st ≠ [] ∨ g.copies ≠ [] ∨ g.mx ≠ [] ∨ g.pend ≠ [] ∨
    g.release.isSome = true ∨ g.red ≠ []) : drained s gid g = false := by
  by_contra full
  obtain ⟨_, gone, ld, st, copies, mx, pend, release, red, _⟩ := drained_iff.mp (eq_true_of_ne_false full)
  rcases h with ⟨j, hj⟩ | h | h | h | h | h | h | h
  · exact hj ((gone_iff _ _).mp (gone j))
  · exact h ld
  · exact h st
  · exact h copies
  · exact h mx
  · exact h pend
  · rw [release] at h
    exact absurd h Bool.false_ne_true
  · exact h red

/-- The first candidate in the seating order takes the free seat. -/
theorem exec_seating_first (hq : freeQuarter s core = some q) (hw : KMap.wf s.groups = true) (hg : (gid, g) ∈ candidatesOn s core) (hp : g.poison = [])
    (hb : g.blockWritten = false) (hc : g.core = core) (hi : g.inHandler = false) (hh : g.hold = none)
    (numbers : ∀ x ∈ candidatesOn s core, SeatNumbers s x.2) (first : ∀ x ∈ candidatesOn s core, x.1 ≠ gid → SeatedFirst s g x.2) :
    ∃ t h, exec (.seating core) s = .next t ∧ t.group? gid = some h ∧ Sits s core q g h ∧
      ∀ n x, n ≠ gid → s.group? n = some x → ∃ l, t.group? n = some { x with absent := l } := by
  have get {x : Nat × Group} (hx : x ∈ candidatesOn s core) : s.group? x.1 = some x.2 := get_of_mem hw (List.mem_of_mem_filter hx)
  have only {n : Nat} {x : Group} (hx : (n, x) ∈ candidatesOn s core) (e : n = gid) : (n, x) = (gid, g) := by
    subst e
    exact congrArg _ (Option.some.inj ((get hx).symm.trans (get hg)))
  have chosen : firstCandidate s core = some (gid, g) := firstCandidate_first hg numbers fun x hx hne => first x hx fun e => hne (only hx e)
  obtain ⟨⟨h, seated, sits⟩, others⟩ := takeSeat_sits (q := q) (get hg) hp hb hc hi hh
  exact ⟨_, h, exec_seating_takes hq chosen, seated, sits, others⟩

/-- Settles O51: a drained group frees its seat, a free seat takes the first candidate, and a context idles, is halted, resumes and is boosted
by its state and its running time. -/
theorem seatsAndContexts : Obligations.SeatsAndContexts := by
  unfold Obligations.SeatsAndContexts
  intro s
  refine ⟨fun gid g hg => ⟨fun h => exec_groupEnd_stays hg (not_drained h), fun live left ld st copies mx pend release red batch jobs => ?_⟩,
    fun core => ⟨exec_seating_none, fun q gid g hq hw hg hp hb hc hi hh _ numbers first => ?_⟩, fun asid c hc => ⟨fun h => ?_, fun hr some all => ?_,
      fun core => exec_preemption_stays hc, fun core a d _ hw hr hn hv => ?_, exec_resume_stays hc, fun hp ha h => ?_, exec_boost_stays hc,
      fun hb ha hs hr left => ?_, exec_boostEnd_stays hc, fun hb hr => ?_⟩⟩
  case refine_1 =>
    exact exec_groupEnd_frees hg (drained_iff.mpr ⟨live, fun j => (gone_iff _ _).mpr (left j), ld, st, copies, mx, pend, release, red, batch, jobs⟩)
  case refine_2 =>
    have fields (x : Nat × Group) (hx : x ∈ candidatesOn s core) : SeatNumbers s x.2 := by
      obtain ⟨rank, order, team, number⟩ := numbers x hx
      exact ⟨rank, order, team, number⟩
    obtain ⟨t, h, e, seated, sits, others⟩ := exec_seating_first hq hw hg hp hb hc hi hh fields first
    exact ⟨t, h, e, seated, sits.place, sits.stamp, sits.seatedAt, sits.vec, sits.uni, sits.pred, sits.slices, sits.run, others⟩
  case refine_3 =>
    refine exec_quantum_stays hc (h.imp_right fun h => ?_)
    by_contra stalled
    obtain ⟨⟨y, hy⟩, all⟩ := stalledOut_iff.mp (eq_true_of_ne_false stalled)
    rcases h with ⟨x, hx, waita, barrier⟩ | none
    · obtain ⟨waits, _⟩ := all x hx
      rw [waita, barrier] at waits
      simp at waits
    · exact none y hy
  case refine_4 =>
    obtain ⟨t, e, got, mem, others⟩ := exec_quantum_idles hc hr (stalledOut_iff.mpr ⟨some, all⟩)
    exact ⟨t, _, e, got, ⟨rfl, rfl, rfl⟩, mem, others⟩
  case refine_5 =>
    obtain ⟨_, other, lower⟩ := victim_spec hv
    exact ⟨lower, other, exec_preemption_halts hc hw hr hn hv⟩
  case refine_6 =>
    obtain ⟨t, e, got, mem, others⟩ := exec_resume_resumes hc hp ha h
    exact ⟨t, _, e, got, ⟨rfl, rfl⟩, mem, others⟩
  case refine_7 =>
    obtain ⟨t, e, got, mem, others⟩ := exec_boost_boosts hc hb ha hs hr left
    exact ⟨t, _, e, got, ⟨rfl, rfl, rfl⟩, mem, others⟩
  case refine_8 =>
    obtain ⟨t, e, got, mem, others⟩ := exec_boostEnd_ends hc hb hr
    exact ⟨t, _, e, got, ⟨rfl, rfl, rfl⟩, mem, others⟩

end Sys2Proof.Proofs
end
section
/-! # Bounds that round up and packed lanes (R123–R125, R134): O13

Rounding up into B16 and the value of an encoding are the two halves of a Galois connection (`upCode_le_iff`): the code of q is at most n exactly where
q is at most the value of n. That the code covers q, and that it is the least that does, are its two directions. -/

namespace Sys2Proof.Proofs

open Sys2Proof Sys2Proof.Machine Sys2Proof.Laws

/-! ### Powers of two and logarithms -/

theorem pow2_eq_zpow (e : Int) : pow2 e = (2 : Rat) ^ e := by
  unfold pow2
  split
  case isTrue neg =>
    obtain ⟨k, rfl⟩ : ∃ k : Nat, e = -(k : Int) := ⟨(-e).toNat, by omega⟩
    simp [Rat.mkRat_eq_div]
  case isFalse nonneg =>
    obtain ⟨k, rfl⟩ := Int.eq_ofNat_of_zero_le (by omega : 0 ≤ e)
    simp

theorem pow2_pos (e : Int) : 0 < pow2 e := by
  rw [pow2_eq_zpow]
  exact zpow_pos (by norm_num) e

theorem pow2_add (a b : Int) : pow2 (a + b) = pow2 a * pow2 b := by
  simp only [pow2_eq_zpow, zpow_add₀ (two_ne_zero (α := Rat))]

theorem pow2_le_pow2 {a b : Int} (h : a ≤ b) : pow2 a ≤ pow2 b := by
  simp only [pow2_eq_zpow]
  exact zpow_le_zpow_right₀ (by norm_num) h

theorem pow2_natCast (n : Nat) : pow2 n = ((2 ^ n : Nat) : Rat) := by
  simp [pow2_eq_zpow]

theorem pow2_log2_le {n : Nat} (h : n ≠ 0) : pow2 n.log2 ≤ n := by
  rw [pow2_natCast]
  exact_mod_cast Nat.log2_self_le h

theorem lt_pow2_log2_succ (n : Nat) : (n : Rat) < pow2 (n.log2 + 1) := by
  rw [← Nat.cast_succ, pow2_natCast]
  exact_mod_cast Nat.lt_log2_self

/-- A quotient of naturals lies within one binade of the difference of their logarithms. -/
theorem pow2_log2_sub_log2 {a b : Nat} (ha : a ≠ 0) (hb : b ≠ 0) :
    pow2 ((a.log2 : Int) - b.log2 - 1) ≤ (a : Rat) / b ∧ (a : Rat) / b < pow2 ((a.log2 : Int) - b.log2 + 1) := by
  have posb : (0 : Rat) < b := by exact_mod_cast Nat.pos_of_ne_zero hb
  constructor
  · rw [le_div_iff₀ posb]
    calc pow2 (a.log2 - b.log2 - 1) * b ≤ pow2 (a.log2 - b.log2 - 1) * pow2 (b.log2 + 1) := mul_le_mul_of_nonneg_left (lt_pow2_log2_succ b).le (pow2_pos _).le
      _ = pow2 a.log2 := by rw [← pow2_add]; congr 1; omega
      _ ≤ a := pow2_log2_le ha
  · rw [div_lt_iff₀ posb]
    calc (a : Rat) < pow2 (a.log2 + 1) := lt_pow2_log2_succ a
      _ = pow2 (a.log2 - b.log2 + 1) * pow2 b.log2 := by rw [← pow2_add]; congr 1; omega
      _ ≤ pow2 (a.log2 - b.log2 + 1) * b := mul_le_mul_of_nonneg_left (pow2_log2_le hb) (pow2_pos _).le

theorem floorLog2_spec {q : Rat} (hq : 0 < q) : pow2 (floorLog2 q) ≤ q ∧ q < pow2 (floorLog2 q + 1) := by
  have num : (q.num.natAbs : Rat) / q.den = q := by
    rw [Nat.cast_natAbs, abs_of_pos (Rat.num_pos.mpr hq)]
    exact Rat.num_div_den q
  obtain ⟨low, high⟩ := pow2_log2_sub_log2 (Int.natAbs_ne_zero.mpr (Rat.num_pos.mpr hq).ne') q.den_nz
  rw [num] at low high
  simp only [floorLog2]
  split
  case isTrue le => exact ⟨le, high⟩
  case isFalse gt => exact ⟨low, by simpa using gt⟩

/-! ### The values of B16 and the codes that cover them (R124, R125) -/

/-- The binade of an encoding: its exponent field; the subnormal encodings continue binade 1. -/
def bndBinade (n : Nat) : Nat := max (n / 256) 1

/-- The encoding's place in its binade, counted in the binade's unit. -/
def bndMantissa (n : Nat) : Nat := n - 256 * (bndBinade n - 1)

/-- The unit of a binade. -/
def bndUnit (k : Nat) : Rat := pow2 ((k : Int) - 135)

/-- The bound that a finite encoding stands for. -/
def bndValue (n : Nat) : Rat := bndMantissa n * bndUnit (bndBinade n)

/-- The binade that a bound rounds up in. -/
def upBinade (q : Rat) : Nat := (max (floorLog2 q + 127) 1).toNat

/-- The bound in units of its binade, rounded up. -/
def upMantissa (q : Rat) : Nat := (q / bndUnit (upBinade q)).ceil.toNat

/-- The code that a bound rounds up to, before the limit of the format. -/
def upCode (q : Rat) : Nat := 256 * (upBinade q - 1) + upMantissa q

theorem bndUnit_pos (k : Nat) : 0 < bndUnit k := pow2_pos _

/-- Each binade's unit is at least twice that of the binades below. -/
theorem bndUnit_double {j k : Nat} (h : j < k) : 2 * bndUnit j ≤ bndUnit k := by
  have two : 2 * bndUnit j = pow2 ((j : Int) + 1 - 135) := by
    rw [bndUnit, show (j : Int) + 1 - 135 = 1 + (j - 135) by omega, pow2_add]
    rfl
  rw [two]
  exact pow2_le_pow2 (by omega)

theorem div_bndUnit (q : Rat) (k : Nat) : q / bndUnit k = q * pow2 (135 - k) := by
  rw [div_eq_iff (bndUnit_pos k).ne', mul_assoc, bndUnit, ← pow2_add, show (135 - (k : Int)) + (k - 135) = 0 by omega]
  simp [pow2]

theorem bndOf_fin {b : B16} {p : Rat} : Bnd.of b = .fin p ↔ b.toNat < 0xFF00 ∧ p = bndValue b.toNat := by
  have width := b.isLt
  simp only [Bnd.of, isUntracked, decide_eq_true_eq, bndValue, bndMantissa, bndUnit, bndBinade]
  split
  case isTrue untracked => simp; omega
  split
  case isTrue unbounded => simp; omega
  split
  case isTrue subnormal =>
    have small : b.toNat % 256 = b.toNat := by omega
    simp [small, subnormal, eq_comm]
    omega
  case isFalse normal =>
    have mantissa : b.toNat - 256 * (max (b.toNat / 256) 1 - 1) = 256 + b.toNat % 256 := by omega
    have binade : max (b.toNat / 256) 1 = b.toNat / 256 := by omega
    rw [mantissa, binade]
    simp [eq_comm]
    omega

theorem roundUpB16_nonpos {q : Rat} (hq : q ≤ 0) : roundUpB16 q = 0 := if_pos hq

theorem roundUpB16_pos {q : Rat} (hq : 0 < q) : roundUpB16 q = if 0xFF00 ≤ upCode q then b16Unbounded else BitVec.ofNat 16 (upCode q) := by
  have code : (if floorLog2 q < -126 then (q * pow2 134).ceil.toNat
      else (floorLog2 q + 127).toNat * 256 + (q * pow2 (8 - floorLog2 q)).ceil.toNat - 256) = upCode q := by
    rw [upCode, upMantissa, div_bndUnit]
    split
    case isTrue low =>
      have binade : upBinade q = 1 := by unfold upBinade; omega
      simp [binade]
    case isFalse high =>
      have binade : (upBinade q : Int) = floorLog2 q + 127 := by unfold upBinade; omega
      rw [show 135 - (upBinade q : Int) = 8 - floorLog2 q by omega]
      omega
  simp only [roundUpB16, not_le.mpr hq, ↓reduceIte, code]

theorem upMantissa_le_iff {q : Rat} {k : Nat} : upMantissa q ≤ k ↔ q ≤ k * bndUnit (upBinade q) := by
  rw [upMantissa, Int.toNat_le, Rat.ceil_le_iff, div_le_iff₀ (bndUnit_pos _)]
  norm_cast

/-- A bound lies in its binade: below 512 units, and from 256 units up where the binade is not the lowest. -/
theorem upBinade_spec {q : Rat} (hq : 0 < q) :
    1 ≤ upBinade q ∧ q < 512 * bndUnit (upBinade q) ∧ (1 < upBinade q → 256 * bndUnit (upBinade q) ≤ q) := by
  obtain ⟨low, high⟩ := floorLog2_spec hq
  refine ⟨by unfold upBinade; omega, ?_, fun normal => ?_⟩
  · calc q < pow2 (floorLog2 q + 1) := high
      _ ≤ pow2 (9 + ((upBinade q : Int) - 135)) := pow2_le_pow2 (by unfold upBinade; omega)
      _ = 512 * bndUnit (upBinade q) := by rw [pow2_add]; rfl
  · calc 256 * bndUnit (upBinade q) = pow2 (8 + ((upBinade q : Int) - 135)) := by rw [pow2_add]; rfl
      _ ≤ pow2 (floorLog2 q) := pow2_le_pow2 (by unfold upBinade at normal ⊢; omega)
      _ ≤ q := low

theorem upMantissa_spec {q : Rat} (hq : 0 < q) : upMantissa q ≤ 512 ∧ (1 < upBinade q → 256 ≤ upMantissa q) := by
  obtain ⟨-, high, low⟩ := upBinade_spec hq
  refine ⟨upMantissa_le_iff.mpr high.le, fun normal => ?_⟩
  by_contra few
  have below : q ≤ (255 : Nat) * bndUnit (upBinade q) := upMantissa_le_iff.mp (by omega)
  have unit := bndUnit_pos (upBinade q)
  have := low normal
  push_cast at below
  linarith

theorem bndMantissa_spec (n : Nat) : n = 256 * (bndBinade n - 1) + bndMantissa n ∧ 1 ≤ bndBinade n ∧ bndMantissa n ≤ 511 ∧
    (1 < bndBinade n → 256 ≤ bndMantissa n) := by
  unfold bndMantissa bndBinade
  omega

/-- The code of q is at most n exactly where the value of n covers q. -/
theorem upCode_le_iff {q : Rat} (hq : 0 < q) (n : Nat) : upCode q ≤ n ↔ q ≤ bndValue n := by
  obtain ⟨code, lowest, few, many⟩ := bndMantissa_spec n
  obtain ⟨upLowest, below, above⟩ := upBinade_spec hq
  obtain ⟨upFew, upMany⟩ := upMantissa_spec hq
  have unit := bndUnit_pos (bndBinade n)
  rcases lt_trichotomy (upBinade q) (bndBinade n) with lower | same | higher
  · have covers : q ≤ bndValue n := by
      have count : (256 : Rat) ≤ bndMantissa n := by exact_mod_cast many (by omega)
      calc q ≤ 256 * (2 * bndUnit (upBinade q)) := by linarith
        _ ≤ 256 * bndUnit (bndBinade n) := by linarith [bndUnit_double lower]
        _ ≤ bndValue n := mul_le_mul_of_nonneg_right count unit.le
    exact iff_of_true (by unfold upCode; omega) covers
  · have codes : upCode q ≤ n ↔ upMantissa q ≤ bndMantissa n := by unfold upCode; omega
    rw [codes, upMantissa_le_iff, same]
    rfl
  · have short : bndValue n < q := by
      have count : (bndMantissa n : Rat) ≤ 511 := by exact_mod_cast few
      calc bndValue n ≤ 511 * bndUnit (bndBinade n) := mul_le_mul_of_nonneg_right count unit.le
        _ < 256 * (2 * bndUnit (bndBinade n)) := by linarith
        _ ≤ 256 * bndUnit (upBinade q) := by linarith [bndUnit_double higher]
        _ ≤ q := above (by omega)
    refine iff_of_false ?_ (not_le.mpr short)
    have := upMany (by omega)
    unfold upCode
    omega

theorem toNat_roundUpB16 {q : Rat} (hq : 0 < q) : (roundUpB16 q).toNat = min (upCode q) 0xFF00 := by
  rw [roundUpB16_pos hq]
  split
  case isTrue saturates => rw [min_eq_right saturates]; rfl
  case isFalse fits => rw [BitVec.toNat_ofNat]; omega

theorem isUntracked_roundUpB16 (q : Rat) : isUntracked (roundUpB16 q) = false := by
  rcases le_or_gt q 0 with nonpos | pos
  · rw [roundUpB16_nonpos nonpos]; rfl
  · simp [isUntracked, toNat_roundUpB16 pos]

theorem roundUpB16_covers {q p : Rat} (h : Bnd.of (roundUpB16 q) = .fin p) : q ≤ p := by
  obtain ⟨finite, rfl⟩ := bndOf_fin.mp h
  rcases le_or_gt q 0 with nonpos | pos
  · exact nonpos.trans (mul_nonneg (Nat.cast_nonneg _) (bndUnit_pos _).le)
  · rw [toNat_roundUpB16 pos] at finite ⊢
    exact (upCode_le_iff pos _).mp (by omega)

theorem roundUpB16_least {q p : Rat} {b : B16} (hb : Bnd.of b = .fin p) (h : q ≤ p) : (roundUpB16 q).toNat ≤ b.toNat := by
  obtain ⟨-, rfl⟩ := bndOf_fin.mp hb
  rcases le_or_gt q 0 with nonpos | pos
  · rw [roundUpB16_nonpos nonpos]; exact Nat.zero_le _
  · rw [toNat_roundUpB16 pos]
    exact (min_le_left _ _).trans ((upCode_le_iff pos _).mpr h)

/-! ### The largest of a list of bounds (R125) -/

theorem maxB16_tracked {a b : B16} (ha : isUntracked a = false) (hb : isUntracked b = false) : maxB16 a b = if a.toNat ≤ b.toNat then b else a := by
  simp [maxB16, ha, hb]

/-- Of tracked bounds a fold of `maxB16` takes one, or the bound that it starts from, and none of them is larger. -/
theorem foldl_maxB16_tracked (f : Nat → B16) (l : List Nat) (a : B16) (ha : isUntracked a = false) (hf : ∀ k ∈ l, isUntracked (f k) = false) :
    let m := l.foldl (fun m k => maxB16 m (f k)) a
    a.toNat ≤ m.toNat ∧ (∀ k ∈ l, (f k).toNat ≤ m.toNat) ∧ (m = a ∨ ∃ k ∈ l, m = f k) := by
  induction l generalizing a with
  | nil => simp
  | cons x l ih =>
    simp only [List.forall_mem_cons, List.foldl_cons, maxB16_tracked ha (hf x (by simp))] at hf ⊢
    split
    case isTrue le =>
      obtain ⟨start, others, taken⟩ := ih (f x) hf.left hf.right
      exact ⟨le.trans start, ⟨start, others⟩, .inr (by simpa using taken)⟩
    case isFalse gt =>
      obtain ⟨start, others, taken⟩ := ih a ha hf.right
      exact ⟨start, ⟨by omega, others⟩, taken.imp_right fun ⟨k, hk, e⟩ => ⟨k, List.mem_cons_of_mem x hk, e⟩⟩

/-- The same from the exact bound, which none is below: it is one of them where there is any. -/
theorem foldl_maxB16_exact {f : Nat → B16} {l : List Nat} (hl : l ≠ []) (hf : ∀ k ∈ l, isUntracked (f k) = false) :
    let m := l.foldl (fun m k => maxB16 m (f k)) b16Exact
    (∀ k ∈ l, (f k).toNat ≤ m.toNat) ∧ ∃ k ∈ l, m = f k := by
  obtain ⟨-, largest, start | taken⟩ := foldl_maxB16_tracked f l b16Exact rfl hf
  · obtain ⟨k, hk⟩ := List.exists_mem_of_ne_nil l hl
    refine ⟨largest, k, hk, ?_⟩
    have least := largest k hk
    rw [start] at least ⊢
    exact (BitVec.eq_of_toNat_eq (Nat.le_zero.mp least)).symm
  · exact ⟨largest, taken⟩

/-! ### A lane of packed results (R123, R134) -/

section Lane

variable (t : Ty) (untracked : Bool) (tier : Nat) (e : Nat → ElemOut)

theorem laneOut_flags : (laneOut t untracked tier e).flags = (List.range t.n).foldl (fun a k => a ||| (e k).flags) 0 :=
  (List.foldl_hom LaneOut.flags fun _ _ => rfl).symm

theorem laneOut_bnd : (laneOut t false tier e).bnd = (List.range t.n).foldl (fun m k => maxB16 m (e k).bnd) b16Exact :=
  (List.foldl_hom LaneOut.bnd fun _ _ => rfl).symm

theorem laneOut_bnd_untracked : (laneOut t true tier e).bnd = b16Untracked := by
  have step : (laneOut t true tier e).bnd = (List.range t.n).foldl (fun _ _ => b16Untracked) b16Untracked :=
    (List.foldl_hom LaneOut.bnd fun _ _ => rfl).symm
  exact step.trans (List.foldl_fixed' (fun _ => rfl) _)

theorem laneOut_val : (laneOut t untracked tier e).val = BitVec.ofNat 64 (fields t.w (fun k => (e k).bits) t.n) := by
  have sum : (laneOut t untracked tier e).val =
      (List.range t.n).foldl (fun a k => a + BitVec.ofNat 64 ((e k).bits % 2 ^ t.w * 2 ^ (k * t.w))) (BitVec.ofNat 64 0) :=
    (List.foldl_hom LaneOut.val fun _ _ => rfl).symm
  rw [sum]
  exact List.foldl_hom (BitVec.ofNat 64) fun _ _ => (BitVec.ofNat_add _ _).symm

end Lane

theorem toNat_laneOut_val {m : Nat} {t : Ty} (h : tyOf m = some t) (untracked : Bool) (tier : Nat) (e : Nat → ElemOut) :
    (laneOut t untracked tier e).val.toNat = fields t.w (fun k => (e k).bits) t.n := by
  have fits : t.n * t.w ≤ 64 := by
    obtain ⟨pair, single, -⟩ := tyOf_width h
    cases wide : t.is64 with
    | false => exact (single wide).trans (by norm_num)
    | true => obtain ⟨hn, hw⟩ := pair wide; simp [hn, hw]
  have small := (fields_lt t.w (fun k => (e k).bits) t.n).trans_le (Nat.pow_le_pow_right two_pos fits)
  rw [laneOut_val, BitVec.toNat_ofNat, Nat.mod_eq_of_lt small]

/-- Settles O13, by `upCode_le_iff` in its two directions and by the folds that put a lane together. -/
theorem boundsAndPackedResults : Obligations.BoundsAndPackedResults := by
  unfold Obligations.BoundsAndPackedResults
  refine ⟨fun q _ => ⟨fun _ => roundUpB16_covers, isUntracked_roundUpB16 q, fun _ _ => roundUpB16_least⟩, ?_⟩
  intro t m untracked tier e ht
  have val := toNat_laneOut_val ht untracked tier e
  refine ⟨fun k hk => ?_, ?_, fun j _ => ?_, ?_, ?_⟩
  · rw [val, elem_fields _ _ _ _ hk]
  · rw [val]
    exact fields_lt _ _ _
  · rw [laneOut_flags, orFold_getLsbD]
    simp
  · rintro rfl
    exact laneOut_bnd_untracked t tier e
  · rintro rfl tracked
    obtain ⟨-, -, packs, -⟩ := tyOf_width ht
    have nonempty : List.range t.n ≠ [] := by simp; omega
    rw [laneOut_bnd]
    simpa using foldl_maxB16_exact (f := fun k => (e k).bnd) nonempty (by simpa using tracked)

end Sys2Proof.Proofs
end
section
/-! # `BMAXR` without an active lane and the versions that nothing reads any more (O18)

With no lane active `BMAXR` is done with the state that it was given, in which its group still lists register versions whose clock has passed;
`passed` has forgotten them, as for the words of O8 and O10. -/

namespace Sys2Proof.Proofs

open Sys2Proof Sys2Proof.Machine Sys2Proof.Laws

theorem exec_bmaxr_idle {u : UReg} {a : Src} {s : State} {c : Gang} {t : Ty} (h : Issues (.bmaxr u a) s c { regs := srcRegs a, u := [u] }) (ht : c.ty = some t)
    (idle : c.lanes = 0) : exec (.bmaxr u a) s = .next (wentPast s c) :=
  issue_done h (by simp [ht, idle])

/-- The machine after reset with a `BMAXR` of the zero source about to issue under the guard p0, which holds in no lane, its group still listing the
expired version. -/
def bmaxrBesideExpired : State :=
  let s := placeWords State.reset (encode (.bmaxr 0 .zero))
  s.modGroup s.focus fun g => { g with unsettled := [expired], slices := g.slices.map fun sl => { sl with mode := 0x8000 } }

theorem gangOf_bmaxrBesideExpired : (gangOf (.bmaxr 0 .zero) bmaxrBesideExpired).isSome = true := by decide +kernel

/-- The gang that issues the `BMAXR`. -/
def bmaxrGang : Gang := (gangOf (.bmaxr 0 .zero) bmaxrBesideExpired).get gangOf_bmaxrBesideExpired

theorem bmaxrGang_issues : Issues (.bmaxr 0 .zero) bmaxrBesideExpired bmaxrGang { regs := srcRegs .zero, u := [0] } where
  gang := (Option.some_get _).symm
  noTrapDue := by decide +kernel
  notBusy := by decide +kernel
  present := by decide +kernel
  clean := by decide +kernel
  legal := by decide +kernel

theorem bmaxrGang_ty : bmaxrGang.ty = some tyF32 := by decide +kernel

theorem bmaxrGang_lanes : bmaxrGang.lanes = 0 := by decide +kernel

theorem bmaxr_listedVersions_wentPast : listedVersions (wentPast bmaxrBesideExpired bmaxrGang) bmaxrGang.gid = some [expired] := by decide +kernel

theorem bmaxr_listedVersions_passed : listedVersions (passed bmaxrBesideExpired bmaxrGang) bmaxrGang.gid = some [] := by decide +kernel

/-- Refutes O18: a `BMAXR` without an active lane leaves its group's expired register version listed, which `passed` has forgotten. -/
theorem not_boundsBudgetsAndReports : ¬ Obligations.BoundsBudgetsAndReports := by
  unfold Obligations.BoundsBudgetsAndReports
  rintro ⟨moves, -⟩
  obtain ⟨-, -, -, bmaxr⟩ := moves .discard .zero .zero bmaxrBesideExpired bmaxrGang tyF32 bmaxrGang_ty
  obtain ⟨idle, -⟩ := bmaxr 0 bmaxrGang_issues
  have same : wentPast bmaxrBesideExpired bmaxrGang = passed bmaxrBesideExpired bmaxrGang :=
    Host.Outcome.next.inj ((exec_bmaxr_idle bmaxrGang_issues bmaxrGang_ty bmaxrGang_lanes).symm.trans (idle bmaxrGang_lanes))
  have listed := bmaxr_listedVersions_wentPast
  rw [same, bmaxr_listedVersions_passed] at listed
  cases listed

end Sys2Proof.Proofs
end
section
/-! # Vector float instructions deliver what they compute (R160, R182), and `FMIN` and `FMAX` (R168): O15 -/

namespace Sys2Proof.Proofs

open Sys2Proof Sys2Proof.Machine Sys2Proof.Laws

/-! ### The types of R160 -/

section

variable {c : Gang} {t : Ty} {f : Fmt}

/-- The type and the format that a vector float instruction of the gang computes in. -/
theorem floatType_some (ht : c.ty = some t) (hf : stdFloat t = some f) : (c.ty.bind fun t => (stdFloat t).map fun f => (t, f)) = some (t, f) := by
  rw [ht, Option.bind_some, hf, Option.map_some]

theorem floatType_none (ht : c.ty = some t) (hf : stdFloat t = none) : (c.ty.bind fun t => (stdFloat t).map fun f => (t, f)) = none := by
  rw [ht, Option.bind_some, hf, Option.map_none]

end

/-! ### Delivery -/

section

variable {i : Instr} {s : State} {c : Gang} {u : Uses} {body : Gang → Result} {t : Ty} {d : Dst}

/-- An instruction whose meaning delivers float results of the MODE type. -/
theorem deliverF_delivers {tested : Bool} {out : Nat → LaneOut} (he : exec i s = issue i s u body) (h : Issues i s c u) (ht : c.ty = some t)
    (hd : dstRegs d ⊆ u.regs) (hb : body c = c.deliverF s tested t.is64 d out) :
    Delivers i s c tested t.is64 (if t.is64 then 1 else 0) d c.lanes out :=
  deliver_delivers he h hb fun r hr wide => wide_even h.legal ((wideMode_eq ht).trans wide) (hd (by simp [hr, dstRegs]))

/-- An instruction whose meaning refuses the MODE traps. -/
theorem badMode_trapped (he : exec i s = issue i s u body) (h : Issues i s c u) (hb : body c = c.badMode) : exec i s = .next (trapped s c (modeTrap c)) :=
  he.trans (issue_trap h hb)

theorem floatPure_delivers {a b : Src} {m : Option Cxp} {op : Fmt → FArg → FArg → ElemOut} {f : Fmt} (he : exec i s = floatPure i d a b m op s)
    (h : Issues i s c { regs := dstRegs d ++ srcRegs a ++ srcRegs b }) (ht : c.ty = some t) (hf : stdFloat t = some f) :
    Delivers i s c true t.is64 (if t.is64 then 1 else 0) d c.lanes fun l => laneOut t c.untracked 0 fun k =>
      op f (floatArg c t f a (m.getD cxpNone).absA (m.getD cxpNone).negA (m.getD cxpNone).exact l k)
        (floatArg c t f b (m.getD cxpNone).absB (m.getD cxpNone).negB (m.getD cxpNone).exact l k) :=
  deliverF_delivers he h ht (by simp) (by simp only [floatType_some ht hf]; rfl)

end

/-! ### The smaller and the larger of two operands -/

/-- The operand that `FMIN` or `FMAX` gives of two that are not NaN. -/
def extremeOf (smaller : Bool) (x y : Val) : Val := if (if smaller then valLt y x else valLt x y) then y else x

theorem valLt_fin {n m : Bool} {p q : Rat} (h : ¬(p = 0 ∧ q = 0)) : valLt (.fin n p) (.fin m q) = decide ((Val.fin n p).real < (Val.fin m q).real) := by
  simp [valLt, Val.isZero, h]

/-- Of finite operands the smaller or larger one is so as a real number; two zeros are the same one. -/
theorem extremeOf_real {n m : Bool} {p q : Rat} (smaller : Bool) :
    (extremeOf smaller (.fin n p) (.fin m q)).real = if smaller then min (Val.fin n p).real (Val.fin m q).real else max (Val.fin n p).real (Val.fin m q).real := by
  by_cases zeros : p = 0 ∧ q = 0
  · obtain ⟨rfl, rfl⟩ := zeros
    have zero (n : Bool) : (Val.fin n 0).real = 0 := by cases n <;> rfl
    rw [extremeOf, apply_ite Val.real]
    simp [zero]
  · cases smaller
    · simp [extremeOf, valLt_fin zeros, apply_ite Val.real, max_def_lt]
    · rw [and_comm] at zeros
      simp [extremeOf, valLt_fin zeros, apply_ite Val.real, min_comm (Val.fin n p).real, min_def_lt]

theorem extremeOf_isExtreme {x y : Val} (hx : x.isNan = false) (hy : y.isNan = false) (smaller : Bool) : IsExtreme smaller x y (extremeOf smaller x y) := by
  refine ⟨(ite_eq_or_eq _ y x).symm, ?_⟩
  cases x with
  | nan => cases hx
  | inf a => cases y with
    | nan => cases hy
    | inf b => revert a b smaller; decide
    | fin n q => cases smaller <;> cases a <;> simp [extremeOf, valLt, Val.isFinite, Val.isZero]
  | fin n p => cases y with
    | nan => cases hy
    | inf b => cases smaller <;> cases b <;> simp [extremeOf, valLt, Val.isFinite, Val.isZero]
    | fin m q =>
      refine ⟨by simp, by simp, by simp, fun _ _ => ?_, fun hp hq => ?_⟩
      · exact extremeOf_real smaller
      · obtain ⟨rfl, rfl⟩ : p = 0 ∧ q = 0 := by simpa [Val.isZero] using And.intro hp hq
        revert n m smaller
        simp [extremeOf, valLt, Val.isZero]
        decide

section

variable {f : Fmt} {smaller : Bool} {x y : FArg}

theorem minmaxOut_flags : (minmaxOut f smaller x y).flags = flagIf (x.snan || y.snan) flInvalid := by
  unfold minmaxOut
  split_ifs <;> rfl

theorem minmaxOut_bnd : (minmaxOut f smaller x y).bnd = (x.β.max y.β).toB16 := by
  unfold minmaxOut
  split_ifs <;> rfl

theorem encode_nan {v : Val} (h : v.isNan = true) : f.encode v = f.canonicalNan := by
  cases v with
  | nan => rfl
  | inf => cases h
  | fin => cases h

theorem minmaxOut_bits_nans (hx : x.v.isNan = true) (hy : y.v.isNan = true) : (minmaxOut f smaller x y).bits = f.canonicalNan := by
  simp [minmaxOut, hx, hy, encode_nan]

theorem minmaxOut_bits_left (hx : x.v.isNan = false) (hy : y.v.isNan = true) : (minmaxOut f smaller x y).bits = f.encode x.v := by
  simp [minmaxOut, hx, hy]

theorem minmaxOut_bits_right (hx : x.v.isNan = true) (hy : y.v.isNan = false) : (minmaxOut f smaller x y).bits = f.encode y.v := by
  simp [minmaxOut, hx, hy]

theorem minmaxOut_bits_extreme (hx : x.v.isNan = false) (hy : y.v.isNan = false) : (minmaxOut f smaller x y).bits = f.encode (extremeOf smaller x.v y.v) := by
  cases smaller <;> simp [minmaxOut, extremeOf, hx, hy]

end

/-- Settles O15: both deliver `minmaxOut` of the operands as read, whose value is an extreme of them (`extremeOf_isExtreme`). -/
theorem floatMinMaxResults : Obligations.FloatMinMaxResults := by
  unfold Obligations.FloatMinMaxResults
  intro d a b m smaller i s c t f hi h ht hf
  have he : exec i s = floatPure i d a b m (fun f x y => minmaxOut f smaller x y) s := by
    subst hi
    cases smaller
    · exact exec_fmax d a b m s
    · exact exec_fmin d a b m s
  have hm : modifiersOf i = m.getD cxpNone := by
    subst hi
    cases smaller <;> rfl
  rw [hm]
  refine ⟨_, fun l k _ _ => ?_, floatPure_delivers he h ht hf⟩
  exact ⟨minmaxOut_flags, minmaxOut_bnd, minmaxOut_bits_nans, minmaxOut_bits_right, minmaxOut_bits_left,
    fun hx hy => ⟨_, extremeOf_isExtreme hx hy smaller, minmaxOut_bits_extreme hx hy⟩⟩

end Sys2Proof.Proofs
end
section
/-! # Writes of predicates, and `FCMP` (R108, R169, R180): O16 -/

namespace Sys2Proof.Proofs

open Sys2Proof Sys2Proof.Machine Sys2Proof.Laws

/-! ### A predicate written -/

/-- A write to p7 is ignored (R36). -/
theorem frame_write_p7 (g : Group) (v : View) (w : Nat) (p : PReg) (x m : BitVec 32) (h : p.val = 7) :
    Frame v.score g (g.write v w (.p p x m)) [] [] [] := by
  obtain ⟨u, e⟩ := write_eq g v w (.p p x m)
  have ignored (k : Group) : k.apply v.score (.p p x m) = k := dif_neg (by omega)
  rw [e, ignored]
  exact frame_trans (frame_overtake g v.score v.serial v.run _) (frame_unsettled _ _ u)

/-- A write to any other predicate, lane by lane. -/
theorem bit_predNow_write (g : Group) (v : View) (w : Nat) (p : PReg) (x m : BitVec 32) (h : p.val < 7) (l : Nat) :
    bit ((g.write v w (.p p x m)).predNow p) l = if bit m l then bit x l else bit (g.predNow p) l := by
  rw [pred_write_same g v w p x m h]
  by_cases hl : l < 32
  · cases hm : m[l] <;> simp [bit, hm, hl]
  · simp [bit, BitVec.getLsbD_of_ge _ _ (Nat.le_of_not_lt hl)]

/-- The write of a predicate into a group that h stands for. -/
theorem predResult_put (c : Gang) (h : Group) (w : Nat) (p : PReg) (x m : BitVec 32) :
    PredResult { c with g := h } (c.put h w [.p p x m]) p m fun l => bit x l.val where
  frame := by
    split
    case isTrue p7 => exact frame_write_p7 h c.view w p x m p7
    case isFalse => exact frame_write h c.view w (.p p x m)
  lanes hp l := bit_predNow_write h c.view w p x m (by omega) l

theorem bit_condComb (comb : Nat) (p t : BitVec 32) (l : Nat) : bit (condComb comb p t) l = cmpComb comb (bit p l) (bit t l) := by
  unfold condComb cmpComb
  split <;> simp [bit]

/-! ### The tests of `FCMP` -/

/-- x < y of operands that are not NaN (R169). -/
def valBelow (x y : Val) : Prop :=
  (x = .inf true ∧ y ≠ .inf true) ∨ (y = .inf false ∧ x ≠ .inf false) ∨ (x.isFinite = true ∧ y.isFinite = true ∧ x.real < y.real)

/-- x = y of operands that are not NaN: +0 and −0 compare equal (R169). -/
def valEqual (x y : Val) : Prop := x = y ∨ (x.isFinite = true ∧ y.isFinite = true ∧ x.real = y.real)

theorem valRel_spec {x y : Val} (hx : x.isNan = false) (hy : y.isNan = false) :
    ((valRel x y).1 = true ↔ valBelow x y) ∧ ((valRel x y).2 = true ↔ valEqual x y) := by
  cases x with
  | nan => cases hx
  | inf a => cases y with
    | nan => cases hy
    | inf b => cases a <;> cases b <;> simp [valRel, valBelow, valEqual, Val.isFinite]
    | fin n q => simp [valRel, valBelow, valEqual, Val.isFinite]
  | fin n p => cases y with
    | nan => cases hy
    | inf b => simp [valRel, valBelow, valEqual, Val.isFinite]
    | fin m q =>
      simp [valRel, valBelow, valEqual, Val.isFinite]
      rintro rfl rfl
      rfl

/-- R169's column of tests, by the code of the condition. -/
theorem fcmpTest_holds (cond : Nat) (x y : FArg) : (fcmpTest cond x y).1 = true ↔ fcmpHolds (cond % 8) x.v y.v := by
  have code := Nat.mod_lt cond (by decide : 8 > 0)
  unfold fcmpTest fcmpHolds
  generalize cond % 8 = n at code
  simp only [← valBelow.eq_def, ← valEqual.eq_def]
  cases hx : x.v.isNan with
  | true => interval_cases n <;> simp
  | false => cases hy : y.v.isNan with
    | true => interval_cases n <;> simp
    | false =>
      obtain ⟨below, equal⟩ := valRel_spec hx hy
      interval_cases n <;> simp [← below, ← equal]

/-- R169's column of what raises invalid. -/
theorem fcmpTest_invalid (cond : Nat) (x y : FArg) : (fcmpTest cond x y).2 = fcmpInvalid (cond % 8) x y := by
  have code := Nat.mod_lt cond (by decide : 8 > 0)
  unfold fcmpTest fcmpInvalid
  generalize cond % 8 = n at code
  interval_cases n <;> rfl

/-! ### Flags that some lanes raise -/

/-- Of lanes that each give v or nothing the OR is v where some lane gives it. -/
theorem orFold_ite {w : Nat} (q : Nat → Bool) (v : BitVec w) (l : List Nat) :
    l.foldl (fun a i => a ||| if q i then v else 0) 0 = if l.any q then v else 0 := by
  have from_any : ∀ a, l.foldl (fun a i => a ||| if q i then v else 0) a = a ||| if l.any q then v else 0 := by
    induction l with
    | nil => simp
    | cons x l ih =>
      intro a
      rw [List.foldl_cons, ih, BitVec.or_assoc, List.any_cons]
      cases q x <;> cases l.any q <;> simp
  exact (from_any 0).trans BitVec.zero_or

/-- The exception invalid of a lane, where the group enables it (R180). -/
theorem enabled_invalid (b : Bool) (e : BitVec 5) : (flagIf b flInvalid).setWidth 5 &&& e = if b && bit e 0 then 1 else 0 := by
  revert b e
  decide

theorem any_setBitsOf {m : BitVec 32} {q : Nat → Bool} : (setBitsOf m).any q = true ↔ ∃ l < 32, bit m l = true ∧ q l = true := by
  simp [mem_setBitsOf, and_assoc]

section

variable (e : BitVec 5) (lanes : BitVec 32) (q : Nat → Bool)

/-- Of the lanes that raise invalid, those trap that are active, where the group enables it (R180). -/
theorem raised_invalid_lanes (l : Nat) (hl : l < 32) : bit (raised e lanes fun l => flagIf (q l) flInvalid).1 l = (bit lanes l && (q l && bit e 0)) := by
  simp only [raised, enabled_invalid]
  rw [bit_and_mask _ _ _ hl]
  cases q l && bit e 0 <;> rfl

theorem raised_invalid_exception : (raised e lanes fun l => flagIf (q l) flInvalid).2 = if (setBitsOf lanes).any fun l => q l && bit e 0 then 1 else 0 := by
  simp only [raised, enabled_invalid]
  exact orFold_ite _ _ _

theorem raised_invalid_eq_zero : (raised e lanes fun l => flagIf (q l) flInvalid).1 = 0 ↔ ¬((∃ l < 32, bit lanes l = true ∧ q l = true) ∧ bit e 0 = true) := by
  rw [eq_zero_iff_bits]
  constructor
  · rintro clear ⟨⟨l, hl, active, raises⟩, enabled⟩
    have := clear l hl
    simp [raised_invalid_lanes e lanes q l hl, active, raises, enabled] at this
  · intro calm l hl
    rw [raised_invalid_lanes e lanes q l hl, Bool.eq_false_iff]
    intro set
    simp only [Bool.and_eq_true] at set
    obtain ⟨active, raises, enabled⟩ := set
    exact calm ⟨⟨l, hl, active, raises⟩, enabled⟩

theorem allFlags_invalid : allFlags lanes (fun l => flagIf (q l) flInvalid) = if (setBitsOf lanes).any q then flInvalid else 0 := orFold_ite _ _ _

theorem allFlags_invalid_ne_zero : allFlags lanes (fun l => flagIf (q l) flInvalid) ≠ 0 ↔ ∃ l < 32, bit lanes l = true ∧ q l = true := by
  rw [allFlags_invalid, ← any_setBitsOf]
  cases (setBitsOf lanes).any q <;> decide

theorem allFlags_invalid_value :
    allFlags lanes (fun l => flagIf (q l) flInvalid) = if allFlags lanes (fun l => flagIf (q l) flInvalid) = 0 then 0 else flInvalid := by
  rw [allFlags_invalid]
  cases (setBitsOf lanes).any q <;> rfl

end

/-! ### The instruction -/

/-- What `FCMP` comes to, where `invalid` raise invalid and the tests of `holds` hold. -/
def fcmpResult (s : State) (c : Gang) (wide : Bool) (p : PReg) (comb : Nat) (invalid holds : Nat → Bool) : Result :=
  let r := raised c.g.fpEnable c.lanes fun l => flagIf (invalid l) flInvalid
  if r.1 ≠ 0 then .trap (trapFloat r.1 r.2)
  else .done (spend (s.setGroup c.gid (c.put (c.g.stick (allFlags c.lanes fun l => flagIf (invalid l) flInvalid)) 4
    [.p p (condComb comb (c.view.pred p) (maskOf 32 holds)) c.lanes])) (if wide then 1 else 0))

section

variable {p : PReg} {cond : BitVec 5} {a b : Src} {m : Option Cxp} {s : State} {c : Gang} {t : Ty} {f : Fmt} {i : Instr} {invalid holds : Nat → Bool}

theorem exec_fcmp_next (h : Issues (.fcmp p cond a b m) s c { regs := srcRegs a ++ srcRegs b, p := [p] }) (ht : c.ty = some t) (hf : stdFloat t = some f) :
    let x (l k : Nat) := floatArg c t f a (m.getD cxpNone).absA (m.getD cxpNone).negA (m.getD cxpNone).exact l k
    let y (l k : Nat) := floatArg c t f b (m.getD cxpNone).absB (m.getD cxpNone).negB (m.getD cxpNone).exact l k
    exec (.fcmp p cond a b m) s = .next (finish (entered s c) c (fcmpResult s c t.is64 p (cond.toNat / 8)
      (fun l => (List.range t.n).any fun k => fcmpInvalid (cond.toNat % 8) (x l k) (y l k))
      fun l => (List.range t.n).all fun k => (fcmpTest cond.toNat (x l k) (y l k)).1)) := by
  intro x y
  refine (issue_next h _).trans ?_
  simp only [floatType_some ht hf, List.any_map, List.all_map, ← fcmpTest_invalid]
  rfl

theorem fcmpResult_trap (raises : ∃ l < 32, bit c.lanes l = true ∧ invalid l = true) (enabled : bit c.g.fpEnable 0 = true) (wide : Bool) (comb : Nat) :
    ∃ (exc : BitVec 5) (mask : BitVec 32), fcmpResult s c wide p comb invalid holds = .trap (trapFloat mask exc) ∧ exc = 1 ∧
      ∀ l < 32, bit mask l = (bit c.lanes l && invalid l) := by
  refine ⟨_, _, if_pos ((raised_invalid_eq_zero _ _ _).not_left.mpr ⟨raises, enabled⟩), ?_, fun l hl => ?_⟩
  · rw [raised_invalid_exception, if_pos]
    simp only [enabled, Bool.and_true]
    exact any_setBitsOf.mpr raises
  · rw [raised_invalid_lanes _ _ _ l hl, enabled, Bool.and_true]

theorem fcmpResult_completes {wide : Bool} {comb : Nat} (next : exec i s = .next (finish (entered s c) c (fcmpResult s c wide p comb invalid holds)))
    (calm : ¬((∃ l < 32, bit c.lanes l = true ∧ invalid l = true) ∧ bit c.g.fpEnable 0 = true)) :
    Completes i s c (if wide then 1 else 0) fun g =>
      PredResult { c with g := c.g.stick (allFlags c.lanes fun l => flagIf (invalid l) flInvalid) } g p c.lanes fun l =>
        cmpComb comb (bit (c.view.pred p) l.val) (holds l.val) := by
  let fl := allFlags c.lanes fun l => flagIf (invalid l) flInvalid
  let v := condComb comb (c.view.pred p) (maskOf 32 holds)
  refine ⟨c.put (c.g.stick fl) 4 [.p p v c.lanes], next.trans ?_, wentOn_onlyGroup s c _ _, ?_⟩
  · rw [fcmpResult, if_neg (not_not.mpr ((raised_invalid_eq_zero _ _ _).mpr calm))]
    rfl
  · have written := predResult_put c (c.g.stick fl) 4 p v c.lanes
    simpa only [v, bit_condComb, bit_maskOf_lt 32 holds _ (Fin.isLt _)] using written

end

/-- Settles O16: `FCMP` comes to `fcmpResult`, whose lanes are R169's tests and whose flag is theirs that raise invalid. -/
theorem floatCompareResults : Obligations.FloatCompareResults := by
  unfold Obligations.FloatCompareResults
  intro p cond a b m s c t f h ht hf x y invalid anyInvalid
  have next := exec_fcmp_next h ht hf
  refine ⟨fun raises enabled => ?_, fun calm => ?_⟩
  · obtain ⟨exc, mask, trap, one, lanes⟩ := fcmpResult_trap raises enabled t.is64 (cond.toNat / 8)
    exact ⟨exc, mask, next.trans (by rw [trap]; rfl), one, lanes⟩
  · refine ⟨_, _, fun l _ => ?_, allFlags_invalid_value _ _, allFlags_invalid_ne_zero _ _, fcmpResult_completes next calm⟩
    simp [fcmpTest_holds, x, y]

end Sys2Proof.Proofs
end
section
/-! # `FCLASS`, `FCPYS`, `FRND` and `FSCALE` (R170–R173): O17 -/

namespace Sys2Proof.Proofs

open Sys2Proof Sys2Proof.Machine Sys2Proof.Laws

/-! ### Magnitudes are not negative -/

/-- The magnitude of a value, where it is finite, is not negative. -/
def MagNonneg : Val → Prop
  | .fin _ q => 0 ≤ q
  | .nan _ _ | .inf _ => True

theorem decode_magNonneg (f : Fmt) (x : Nat) : MagNonneg (f.decode x) := by
  unfold Fmt.decode
  split
  case h_1 =>
    split
    · trivial
    · exact (pow2_pos _).le
  case h_2 =>
    dsimp only
    split_ifs
    · trivial
    · trivial
    · trivial
    · exact mul_nonneg (Nat.cast_nonneg _) (pow2_pos _).le
    · exact mul_nonneg (Nat.cast_nonneg _) (pow2_pos _).le

theorem flushIn_magNonneg {f : Fmt} {ftz : Bool} {v : Val} (h : MagNonneg v) : MagNonneg (flushIn f ftz v).1 := by
  cases v with
  | nan => trivial
  | inf => trivial
  | fin n q =>
    rw [flushIn]
    split
    · exact le_refl (0 : Rat)
    · exact h

theorem fArg_magNonneg (f : Fmt) (ftz abs neg exact : Bool) (b : B16) (x : Nat) : MagNonneg (fArg f ftz abs neg exact b x).v := by
  have read := decode_magNonneg f x
  refine flushIn_magNonneg ?_
  generalize f.decode x = v at read
  cases v <;> cases abs <;> cases neg <;> exact read

theorem ratAbs_of_nonneg {q : Rat} (h : 0 ≤ q) : ratAbs q = q := if_neg (not_lt.mpr h)

theorem ratAbs_real {n : Bool} {q : Rat} (h : 0 ≤ q) : ratAbs (Val.fin n q).real = q := by
  rcases h.eq_or_lt with rfl | pos
  · cases n <;> rfl
  · cases n
    · exact ratAbs_of_nonneg h
    · exact (if_pos (neg_neg_of_pos pos)).trans (neg_neg q)

/-! ### The class of an operand (R170) -/

theorem classBit_hasClass {f : Fmt} {v : Val} (h : MagNonneg v) : HasClass f v (classBit f v) := by
  cases v with
  | nan => rfl
  | inf n => cases n <;> rfl
  | fin n q =>
    have mag := ratAbs_real (n := n) h
    rw [classBit]
    split_ifs with zero small negative negative <;> simp_all [HasClass, Val.isZero, Val.neg, Val.isFinite]

theorem classBit_lt (f : Fmt) (v : Val) : classBit f v < 8 := by
  cases v with
  | nan => simp [classBit]
  | inf n => cases n <;> simp [classBit]
  | fin n q =>
    rw [classBit]
    split_ifs <;> decide

/-! ### `FCLASS`, a lane of packed integers -/

/-- Sub-elements packed into a lane fit its register or pair. -/
theorem toNat_ofNat_mapElems {m : Nat} {t : Ty} (ht : tyOf m = some t) (g : Nat → Nat → Nat → Nat) (x y z : Nat) :
    (if t.is64 then (BitVec.ofNat 64 (mapElems t g x y z)).toNat else (BitVec.ofNat 64 (mapElems t g x y z)).toNat % 2 ^ 32) = mapElems t g x y z := by
  obtain ⟨pair, single, -⟩ := tyOf_width ht
  have small := fields_lt t.w (fun i => g (elem x i t.w) (elem y i t.w) (elem z i t.w)) t.n
  rw [← mapElems_eq] at small
  rw [BitVec.toNat_ofNat]
  cases wide : t.is64 with
  | true =>
    obtain ⟨hn, hw⟩ := pair wide
    rw [hn, hw] at small
    exact Nat.mod_eq_of_lt small
  | false =>
    have fits := small.trans_le (Nat.pow_le_pow_right two_pos (single wide))
    rw [Nat.mod_eq_of_lt (fits.trans (by norm_num))]
    exact Nat.mod_eq_of_lt fits

/-- All ones where the class of a sub-element is in the mask, and all zeros elsewhere (R170). -/
def fclassElem (t : Ty) (f : Fmt) (mask : BitVec 8) (e _ _ : Nat) : Nat := if bit mask (classBit f (f.decode e)) then 2 ^ t.w - 1 else 0

theorem fclass_completes {d : Dst} {a : Src} {mask : BitVec 8} {s : State} {c : Gang} {t : Ty} {f : Fmt}
    (h : Issues (.fclass d a mask) s c { regs := dstRegs d ++ srcRegs a }) (ht : c.ty = some t) (hf : stdFloat t = some f) :
    Completes (.fclass d a mask) s c (if t.is64 then 1 else 0) fun g => VecResult c g d t.is64 c.lanes
      (fun l v => v = mapElems t (fclassElem t f mask) ((c.opnd t a).at l.val) 0 0)
      (fun l => intBound c.k.score [(c.opnd t a).bndAt l.val]) := by
  refine completes_issue (exec_fclass d a mask s) h (by simp only [floatType_some ht hf]; rfl) ?_
  obtain ⟨frame, written, kept⟩ := vecResult_put c (floatW t.is64) d t.is64
    (intLanes c.k.score [c.opnd t a] fun l => mapElems t (fclassElem t f mask) ((c.opnd t a).at l) 0 0) c.lanes
    fun r hr wide => wide_even h.legal ((wideMode_eq ht).trans wide) (by simp [hr, dstRegs])
  refine ⟨frame, fun r hr l hl => ?_, kept⟩
  obtain ⟨value, bound, high⟩ := written r hr l hl
  have read (g : Nat → Nat) : (intLanes c.k.score [c.opnd t a] g).bnd[l.val] = intBound c.k.score [(c.opnd t a).bndAt l.val] := by
    simp [intLanes, bndAt_eq]
  refine ⟨value.trans ?_, bound.trans (read _), fun wide => (high wide).trans (read _)⟩
  simp only [intLanes, Vector.getElem_ofFn]
  exact toNat_ofNat_mapElems ht _ _ _ _

theorem vecResult_imp {c : Gang} {g : Group} {d : Dst} {wide : Bool} {m : BitVec 32} {val val' : Fin 32 → Nat → Prop} {bnd : Fin 32 → B16}
    (h : VecResult c g d wide m val bnd) (imp : ∀ l v, val l v → val' l v) : VecResult c g d wide m val' bnd where
  frame := h.frame
  written r hr l hl := (h.written r hr l hl).imp_left (imp l _)
  kept := h.kept

/-- The sub-elements that `FCLASS` makes of a lane. -/
theorem fclass_elem {t : Ty} {f : Fmt} {mask : BitVec 8} {x k : Nat} (hk : k < t.n) :
    ∃ n < 8, HasClass f (f.decode (elem x k t.w)) n ∧
      elem (mapElems t (fclassElem t f mask) x 0 0) k t.w = if bit mask n then 2 ^ t.w - 1 else 0 := by
  refine ⟨_, classBit_lt f _, classBit_hasClass (decode_magNonneg f _), ?_⟩
  rw [elem_mapElems _ _ _ _ _ _ hk, fclassElem]
  refine Nat.mod_eq_of_lt ?_
  have := Nat.two_pow_pos t.w
  split <;> omega

/-! ### Magnitude and sign joined (R173) -/

theorem stdFloat_width {m : Nat} {t : Ty} {f : Fmt} (ht : tyOf m = some t) (hf : stdFloat t = some f) : t.w = f.width := by
  unfold tyOf at ht
  split at ht <;> cases ht <;> cases hf <;> rfl

theorem fcpysOut_bits {f : Fmt} {ba bb : B16} {x y j : Nat} (h : j < f.width) :
    (fcpysOut f ba bb x y).bits.testBit j = if j = f.width - 1 then y.testBit j else x.testBit j := by
  have low : x % 2 ^ (f.width - 1) < 2 ^ (f.width - 1) := Nat.mod_lt _ (by positivity)
  rw [fcpysOut, Nat.add_comm, Nat.mul_comm, Nat.testBit_two_pow_mul_add _ low]
  split_ifs with magnitude sign sign
  · omega
  · rw [Nat.testBit_mod_two_pow, decide_eq_true magnitude, Bool.true_and]
  · rw [Nat.testBit_div_two_pow, Nat.testBit_mod_two_pow]
    simp [show j - (f.width - 1) + (f.width - 1) = j by omega, h]
  · omega

theorem fcpysOut_untracked {f : Fmt} {ba bb : B16} {x y : Nat} (h : isUntracked ba = true ∨ isUntracked bb = true) : (fcpysOut f ba bb x y).bnd = b16Untracked := by
  rcases h with h | h <;> simp [fcpysOut, h, Bnd.toB16]

theorem fcpysOut_exact {f : Fmt} {ba : B16} {x y : Nat} (h : isUntracked ba = false) (finite : (f.decode x).isFinite = true) :
    (fcpysOut f ba b16Exact x y).bnd = (Bnd.of ba).toB16 := by
  have exact_tracked : isUntracked b16Exact = false := rfl
  simp [fcpysOut, h, finite, exact_tracked]

/-! ### Rounding to integers (R161, R171) -/

theorem mkRat_one_two : mkRat 1 2 = 1 / 2 := by
  rw [Rat.mkRat_eq_div]
  rfl

/-- A magnitude rounds to one of the two integers that it lies between. -/
theorem roundNat_roundsTo (rnd : Nat) (neg : Bool) {q : Rat} (h : 0 ≤ q) : RoundsTo rnd neg q 1 (roundNat rnd neg q) := by
  obtain ⟨n, hn⟩ : ∃ n : Nat, q.floor = n := Int.eq_ofNat_of_zero_le (Rat.le_floor_iff.mpr (by simpa using h))
  have low : (n : Rat) ≤ q := by simpa [hn] using Rat.floor_le q
  have high : q < (n : Rat) + 1 := by simpa [hn] using Rat.lt_floor_add_one q
  refine ⟨n, by simpa using low, by simpa using high, fun whole => ?_, fun between => ?_⟩
  · have rest : q - n = 0 := by simpa [sub_eq_zero] using whole
    simp only [roundNat, hn, Int.toNat_natCast, rest, if_true]
    simpa using whole.symm
  · have rest : q - n ≠ 0 := by simpa [sub_eq_zero] using between
    have nearer : (q - n * 1 < ((n + 1 : Nat) : Rat) * 1 - q) ↔ q - n < 1 / 2 := by push_cast; constructor <;> intro <;> linarith
    have farther : (((n + 1 : Nat) : Rat) * 1 - q < q - n * 1) ↔ 1 / 2 < q - n := by push_cast; constructor <;> intro <;> linarith
    have halfway : (q - n * 1 = ((n + 1 : Nat) : Rat) * 1 - q) ↔ q - n = 1 / 2 := by push_cast; constructor <;> intro <;> linarith
    simp only [roundNat, hn, Int.toNat_natCast, rest, if_false, nearer, farther, halfway, mkRat_one_two]
    generalize q - (n : Rat) = δ, (1 / 2 : Rat) = half
    match rnd with
    | 0 =>
      refine ⟨fun down => ?_, fun up => ?_, fun tie => ?_⟩
      · simp [down]
      · simp [up, up.not_gt]
      · simp [tie]
    | 1 => simp
    | 2 => cases neg <;> simp
    | 3 => cases neg <;> simp
    | 4 => by_cases near : δ < half <;> simp [near]
    | _ + 5 => by_cases even : n % 2 = 0 <;> simp [even]

/-! ### `FRND` of a sub-element (R171) -/

section

variable {f : Fmt} {rnd : Nat} {ftz : Bool} {b : B16} {x : Nat}

theorem frndOut_nan (h : (fArg f ftz false false false b x).v.isNan = true) :
    (frndOut f rnd ftz b x).bits = f.canonicalNan ∧ (frndOut f rnd ftz b x).flags = flagIf (fArg f ftz false false false b x).snan flInvalid := by
  unfold frndOut
  cases e : (fArg f ftz false false false b x).v <;> simp_all [Val.isNan]

theorem frndOut_inf {n : Bool} (h : (fArg f ftz false false false b x).v = .inf n) :
    (frndOut f rnd ftz b x).bits = f.encode (.inf n) ∧ (frndOut f rnd ftz b x).flags = 0 := by
  simp [frndOut, h]

theorem frndOut_fin {n : Bool} {q : Rat} (h : (fArg f ftz false false false b x).v = .fin n q) :
    frndOut f rnd ftz b x = { bits := f.encode (.fin n (roundNat rnd n q)), flags := 0
                              bnd := ((fArg f ftz false false false b x).β.add (.fin (ratAbs (q - roundNat rnd n q)))).toB16 } := by
  simp [frndOut, h]

end

/-! ### `FSCALE` of a sub-element (R172) -/

section

variable {f : Fmt} {rnd : Nat} {sat ftz : Bool} {ba bb : B16} {x : Nat} {k : Int}

theorem fscaleOut_nan (h : (fArg f ftz false false false ba x).v.isNan = true) :
    (fscaleOut f rnd sat ftz ba bb x k).bits = f.canonicalNan ∧
      (fscaleOut f rnd sat ftz ba bb x k).flags = flagIf (fArg f ftz false false false ba x).snan flInvalid := by
  unfold fscaleOut
  cases e : (fArg f ftz false false false ba x).v <;> simp_all [Val.isNan, roundOut]

theorem fscaleOut_inf {n : Bool} (h : (fArg f ftz false false false ba x).v = .inf n) :
    (fscaleOut f rnd sat ftz ba bb x k).bits = f.bitsOf (writeSpecial f sat (.inf n)).1 true := by
  simp [fscaleOut, h, roundOut]

/-- The bound term of a scaled operand. -/
def scaledBound (β : Bnd) (bb : B16) (k : Int) : Bnd :=
  if isUntracked bb then .untr else if bb = b16Exact then β.scale (pow2 (scaleClamp k)) else (β.scale (pow2 (scaleClamp k))).add .unb

theorem fscaleOut_finite (h : (fArg f ftz false false false ba x).v.isFinite = true) :
    fscaleOut f rnd sat ftz ba bb x k =
      roundOut f rnd sat ftz (.real ((fArg f ftz false false false ba x).v.real * pow2 (scaleClamp k)) (fArg f ftz false false false ba x).v.neg)
        (scaledBound (fArg f ftz false false false ba x).β bb k) 0 := by
  unfold fscaleOut
  cases e : (fArg f ftz false false false ba x).v with
  | nan => simp [e, Val.isFinite] at h
  | inf => simp [e, Val.isFinite] at h
  | fin n q => simp only [e]; rfl

end

section

variable {d : Dst} {a b : Src} {s : State} {c : Gang} {t : Ty} {f : Fmt}

theorem fcpys_delivers (h : Issues (.fcpys d a b) s c { regs := dstRegs d ++ srcRegs a ++ srcRegs b }) (ht : c.ty = some t) (hf : stdFloat t = some f) :
    Delivers (.fcpys d a b) s c true t.is64 (if t.is64 then 1 else 0) d c.lanes fun l => laneOut t c.untracked 0 fun k =>
      fcpysOut f ((c.opnd t a).bndAt l) ((c.opnd t b).bndAt l) (elem ((c.opnd t a).at l) k t.w) (elem ((c.opnd t b).at l) k t.w) :=
  deliverF_delivers (exec_fcpys d a b s) h ht (by simp) (by simp only [floatType_some ht hf])

theorem frnd_delivers (h : Issues (.frnd d a) s c { regs := dstRegs d ++ srcRegs a }) (ht : c.ty = some t) (hf : stdFloat t = some f)
    (accepted : modeRnd c.mode ≠ 5) :
    Delivers (.frnd d a) s c true t.is64 (if t.is64 then 1 else 0) d c.lanes fun l => laneOut t c.untracked 0 fun k =>
      frndOut f (modeRnd c.mode) (modeFtz c.mode) ((c.opnd t a).bndAt l) (elem ((c.opnd t a).at l) k t.w) :=
  deliverF_delivers (exec_frnd d a s) h ht (by simp) (by simp only [floatType_some ht hf, if_neg accepted])

theorem frnd_trapped (h : Issues (.frnd d a) s c { regs := dstRegs d ++ srcRegs a }) (ht : c.ty = some t) (hf : stdFloat t = some f)
    (refused : modeRnd c.mode = 5) : exec (.frnd d a) s = .next (trapped s c (modeTrap c)) :=
  badMode_trapped (exec_frnd d a s) h (by simp only [floatType_some ht hf, if_pos refused])

theorem fscale_delivers (h : Issues (.fscale d a b) s c { regs := dstRegs d ++ srcRegs a ++ srcRegs b }) (ht : c.ty = some t) (hf : stdFloat t = some f) :
    Delivers (.fscale d a b) s c true t.is64 (if t.is64 then 1 else 0) d c.lanes fun l => laneOut t c.untracked 0 fun k =>
      fscaleOut f (modeRnd c.mode) (modeSat c.mode) (modeFtz c.mode) ((c.opnd t a).bndAt l) ((c.opnd t b).bndAt l) (elem ((c.opnd t a).at l) k t.w)
        (toInt true (min t.w 32) (elem ((c.opnd t b).at l) k (min t.w 32))) :=
  deliverF_delivers (exec_fscale d a b s) h ht (by simp) (by simp only [floatType_some ht hf])

end

/-- Settles O17: each instruction's lanes are its sub-element's result above, under the rule of R170–R173 for that sub-element. -/
theorem floatClassSignRoundAndScale : Obligations.FloatClassSignRoundAndScale := by
  unfold Obligations.FloatClassSignRoundAndScale
  refine ⟨⟨fun d a mask s c t f h ht hf => ?_, fun d a b s c t f h ht hf => ?_⟩, fun d a s c t f h ht hf => ⟨frnd_trapped h ht hf, fun accepted => ?_⟩,
    fun d a b s c t f h ht hf => ?_⟩
  · obtain ⟨g, next, only, result⟩ := fclass_completes h ht hf
    exact ⟨g, next, only, vecResult_imp result fun l v value k hk => value ▸ fclass_elem hk⟩
  · refine ⟨_, fun l k _ _ => ⟨fun j hj => ?_, rfl, fcpysOut_untracked, fun tracked exact finite => ?_⟩, fcpys_delivers h ht hf⟩
    · have width := stdFloat_width ht hf
      rw [fcpysOut_bits (width ▸ hj), width]
    · rw [exact]
      exact fcpysOut_exact tracked finite
  · refine ⟨_, fun l k _ _ => ⟨fun n q fin => ?_, fun n => frndOut_inf, frndOut_nan⟩, frnd_delivers h ht hf accepted⟩
    have nonneg : MagNonneg (.fin n q) := fin ▸ fArg_magNonneg f _ _ _ _ _ _
    rw [frndOut_fin fin]
    exact ⟨_, rfl, rfl, fun _ => roundNat_roundsTo _ n nonneg, rfl⟩
  · exact ⟨_, fun l k _ _ => ⟨fscaleOut_nan, fun n => fscaleOut_inf, fscaleOut_finite⟩, fscale_delivers h ht hf⟩

end Sys2Proof.Proofs
end
section
/-! # Float arithmetic (R135, R138, R164–R166) and dot products (R167): O14

An arithmetic instruction's sub-element is `roundOut` of an exact result: NaN, infinite, or real. `sumExact` says which of them a sum is whose operands are
no NaN, and `arithElem_roundOut` that it is what the statement asks; what is left for each instruction is its exact result. -/

namespace Sys2Proof.Proofs

open Sys2Proof Sys2Proof.Machine Sys2Proof.Laws

/-! ### Values -/

theorem isNan_of_isSnan {v : Val} (h : v.isSnan = true) : v.isNan = true := by
  cases v with
  | nan => rfl
  | inf => cases h
  | fin => cases h

theorem isNan_negate (v : Val) : v.negate.isNan = v.isNan := by cases v <;> rfl

theorem real_negate (v : Val) : v.negate.real = -v.real := by
  cases v with
  | nan => rfl
  | inf => rfl
  | fin n q => cases n <;> simp [Val.negate, Val.real]

theorem isNan_abs (v : Val) : v.abs.isNan = v.isNan := by cases v <;> rfl

theorem isNan_flushIn (f : Fmt) (ftz : Bool) (v : Val) : (flushIn f ftz v).1.isNan = v.isNan := by
  cases v with
  | nan => rfl
  | inf => rfl
  | fin n q =>
    rw [flushIn]
    split <;> rfl

/-- An operand that was signalling is NaN as read. -/
theorem fArg_isNan_of_snan {f : Fmt} {ftz abs neg exact : Bool} {b : B16} {x : Nat} (h : (fArg f ftz abs neg exact b x).snan = true) :
    (fArg f ftz abs neg exact b x).v.isNan = true := by
  rw [fArg, isNan_flushIn]
  exact isNan_of_isSnan h

/-! ### Truncation to a tier (R165) -/

theorem truncSig_none (v : Val) : truncSig none v = v := by cases v <;> rfl

/-- Truncation keeps a finite value finite, its sign, and, of the tiers' bits, whether it is 0. -/
theorem truncSig_fin (f : Fmt) (tier : Nat) (n : Bool) (q : Rat) :
    ∃ m, truncSig (tierKeep f tier) (.fin n q) = .fin n m ∧ (0 ≤ q → (m = 0 ↔ q = 0)) := by
  have keeps : ∀ k, tierKeep f tier = some k → 1 ≤ k := by
    unfold tierKeep
    split <;> simp
  cases keep : tierKeep f tier with
  | none => exact ⟨q, rfl, fun _ => Iff.rfl⟩
  | some k =>
    by_cases zero : q = 0
    · exact ⟨q, by simp [truncSig, zero], fun _ => Iff.rfl⟩
    · refine ⟨_, by simp only [truncSig, zero, if_false]; rfl, fun nonneg => iff_of_false ?_ zero⟩
      have pos : 0 < q := lt_of_le_of_ne nonneg (Ne.symm zero)
      have unit : pow2 (floorLog2 q - (k - 1)) ≤ q :=
        (pow2_le_pow2 (by have := keeps k keep; omega)).trans (floorLog2_spec pos).1
      have some_bit : 1 ≤ (q / pow2 (floorLog2 q - (k - 1))).floor := Rat.le_floor_iff.mpr (by simpa using (one_le_div (pow2_pos _)).mpr unit)
      exact mul_ne_zero (by exact_mod_cast (by omega : (q / pow2 (floorLog2 q - (k - 1))).floor ≠ 0)) (pow2_pos _).ne'

section

variable (f : Fmt) (tier : Nat) (v : Val)

theorem isNan_truncSig : (truncSig (tierKeep f tier) v).isNan = v.isNan := by
  cases v with
  | nan => rfl
  | inf => rfl
  | fin n q =>
    obtain ⟨m, e, -⟩ := truncSig_fin f tier n q
    rw [e]
    rfl

theorem neg_truncSig : (truncSig (tierKeep f tier) v).neg = v.neg := by
  cases v with
  | nan => rfl
  | inf => rfl
  | fin n q =>
    obtain ⟨m, e, -⟩ := truncSig_fin f tier n q
    rw [e]
    rfl

theorem infOf_truncSig : infOf (truncSig (tierKeep f tier) v) = infOf v := by
  cases v with
  | nan => rfl
  | inf => rfl
  | fin n q =>
    obtain ⟨m, e, -⟩ := truncSig_fin f tier n q
    rw [e]
    rfl

theorem isZero_truncSig (h : MagNonneg v) : (truncSig (tierKeep f tier) v).isZero = v.isZero := by
  cases v with
  | nan => rfl
  | inf => rfl
  | fin n q =>
    obtain ⟨m, e, zero⟩ := truncSig_fin f tier n q
    rw [e]
    exact decide_eq_decide.mpr (zero h)

end

/-! ### Exact results -/

/-- The exact result of a sum whose infinite terms are `inf`, whose terms are no NaN, and whose real value is q where no term is infinite (R164). -/
def sumExact (inf : Option Bool × Option Bool) (q : Rat) (zneg : Bool) : Exact :=
  match inf with
  | (some a, some b) => if a = b then .inf a else .nan true
  | (some a, none) | (none, some a) => .inf a
  | (none, none) => .real q zneg

/-- Zero times infinity. -/
def zeroTimesInf (x y : Val) : Bool := (x.isZero && (infOf y).isSome) || (y.isZero && (infOf x).isSome)

/-- A multiplier operand as an instruction takes it: truncated to the tier where the instruction multiplies. -/
def tierArg (mul : Bool) (f : Fmt) (tier : Nat) (v : Val) : Val := if mul then truncSig (tierKeep f tier) v else v

/-- The tier term of R135. -/
def tierLoss (mul : Bool) (f : Fmt) (tier : Nat) (x y : Val) : Rat :=
  if tierArg mul f tier x ≠ x ∨ tierArg mul f tier y ≠ y then tierTerm f tier * ratAbs (x.real * y.real) else 0

theorem toB16_add_unb (terms : Bnd) : (terms.add .unb).toB16 = b16Unbounded ∨ (terms.add .unb).toB16 = b16Untracked := by
  cases terms with
  | fin => exact .inl rfl
  | unb => exact .inl rfl
  | untr => exact .inr rfl

/-- What the statement asks of a sub-element follows from its exact result. -/
theorem arithElem_roundOut {i : Instr} {mul : Bool} {f : Fmt} {rnd tier : Nat} {sat ftz : Bool} {x y z : FArg} {E : Exact}
    (special : x.v.isNan = true ∨ y.v.isNan = true ∨ z.v.isNan = true ∨ (mul && zeroTimesInf x.v y.v) = true →
      E = .nan (x.snan || y.snan || z.snan || (mul && zeroTimesInf x.v y.v)))
    (plain : x.v.isNan = false → y.v.isNan = false → z.v.isNan = false → (mul && zeroTimesInf x.v y.v) = false →
      E = sumExact (infTerms i x.v y.v z.v) (exactReal i (tierArg mul f tier x.v).real (tierArg mul f tier y.v).real z.v.real)
        (zeroNeg i rnd (tierArg mul f tier x.v) (tierArg mul f tier y.v))) :
    ArithElem i mul f rnd tier sat ftz x y z (roundOut f rnd sat ftz E (boundTerms i x y z) (tierLoss mul f tier x.v y.v)) := by
  refine ⟨fun h => ?_, fun nan zeroInf => ?_⟩
  · rw [special (by simpa [zeroTimesInf, or_assoc] using h)]
    exact ⟨rfl, rfl, toB16_add_unb _⟩
  · simp only [Bool.or_eq_false_iff] at nan
    obtain ⟨⟨hx, hy⟩, hz⟩ := nan
    rw [plain hx hy hz zeroInf]
    rcases infTerms i x.v y.v z.v with ⟨_ | a, _ | b⟩
    · rfl
    · exact ⟨rfl, rfl, toB16_add_unb _⟩
    · exact ⟨rfl, rfl, toB16_add_unb _⟩
    · by_cases same : a = b
      · simp only [sumExact, same, if_true]
        exact ⟨rfl, rfl, toB16_add_unb _⟩
      · simp only [sumExact, same, if_false]
        exact ⟨rfl, rfl, toB16_add_unb _⟩

/-! ### Sums and products exactly -/

theorem addExact_nan {rnd : Nat} {x y : FArg} (h : x.v.isNan = true ∨ y.v.isNan = true) : addExact rnd x y = .nan (x.snan || y.snan) := by
  simp [addExact, h]

theorem addExact_plain {rnd : Nat} {x y : FArg} (hx : x.v.isNan = false) (hy : y.v.isNan = false) :
    addExact rnd x y = sumExact (infOf x.v, infOf y.v) (x.v.real + y.v.real) (rnd == 3) := by
  rcases x with ⟨v, _, _⟩
  rcases y with ⟨w, _, _⟩
  cases v with
  | nan => cases hx
  | inf a => cases w with
    | nan => cases hy
    | inf b => rfl
    | fin m q => rfl
  | fin n p => cases w with
    | nan => cases hy
    | inf b => rfl
    | fin m q => rfl

theorem isFinite_of_infOf {v : Val} (h : (infOf v).isSome = true) : v.isFinite = false := by
  cases v with
  | nan => cases h
  | inf => rfl
  | fin => cases h

theorem zeroTimesInf_nan {x y : Val} (h : x.isNan = true ∨ y.isNan = true) : zeroTimesInf x y = false := by
  rcases h with h | h
  · cases x with
    | nan => simp [zeroTimesInf, Val.isZero, infOf]
    | inf => cases h
    | fin => cases h
  · cases y with
    | nan => simp [zeroTimesInf, Val.isZero, infOf]
    | inf => cases h
    | fin => cases h

theorem mulExact_nan {x y : Val} {snan : Bool} (h : x.isNan = true ∨ y.isNan = true) : mulExact x y snan = .nan snan := by
  simp [mulExact, h]

theorem mulExact_zeroTimesInf {x y : Val} {snan : Bool} (hx : x.isNan = false) (hy : y.isNan = false) (h : zeroTimesInf x y = true) :
    mulExact x y snan = .nan true := by
  simp only [zeroTimesInf, Bool.or_eq_true, Bool.and_eq_true] at h
  rcases h with ⟨zero, inf⟩ | ⟨zero, inf⟩ <;> simp [mulExact, hx, hy, zero, isFinite_of_infOf inf]

theorem mulExact_special {x y : Val} {snan : Bool} (h : x.isNan = true ∨ y.isNan = true ∨ zeroTimesInf x y = true) :
    mulExact x y snan = .nan (snan || zeroTimesInf x y) := by
  by_cases nan : x.isNan = true ∨ y.isNan = true
  · rw [mulExact_nan nan, zeroTimesInf_nan nan, Bool.or_false]
  · simp only [not_or, Bool.not_eq_true] at nan
    have zeroInf : zeroTimesInf x y = true := by simpa [nan] using h
    rw [mulExact_zeroTimesInf nan.1 nan.2 zeroInf, zeroInf, Bool.or_true]

theorem mulExact_plain {x y : Val} {snan : Bool} (hx : x.isNan = false) (hy : y.isNan = false) (h : zeroTimesInf x y = false) :
    mulExact x y snan = sumExact (prodInf x y, none) (x.real * y.real) (x.neg != y.neg) := by
  cases x with
  | nan => cases hx
  | inf a => cases y with
    | nan => cases hy
    | inf b => rfl
    | fin m q =>
      have zero : (Val.fin m q).isZero = false := by simpa [zeroTimesInf, infOf] using h
      simp [mulExact, Val.isNan, Val.isFinite, zero, show (Val.inf a).isZero = false from rfl, prodInf, infOf, sumExact]
  | fin n p => cases y with
    | nan => cases hy
    | inf b =>
      have zero : (Val.fin n p).isZero = false := by simpa [zeroTimesInf, infOf] using h
      simp [mulExact, Val.isNan, Val.isFinite, zero, show (Val.inf b).isZero = false from rfl, prodInf, infOf, sumExact]
    | fin m q => rfl

/-! ### Multiply and add at a tier -/

section

variable {f : Fmt} {rnd tier : Nat} {x y z : FArg}

/-- What an operand is, truncation leaves: zero times infinity, and infinite products. -/
theorem zeroTimesInf_truncSig {v w : Val} (hv : MagNonneg v) (hw : MagNonneg w) :
    zeroTimesInf (truncSig (tierKeep f tier) v) (truncSig (tierKeep f tier) w) = zeroTimesInf v w := by
  simp only [zeroTimesInf, isZero_truncSig f tier _ hv, isZero_truncSig f tier _ hw, infOf_truncSig]

theorem prodInf_truncSig (v w : Val) : prodInf (truncSig (tierKeep f tier) v) (truncSig (tierKeep f tier) w) = prodInf v w := by
  simp only [prodInf, infOf_truncSig, neg_truncSig]

theorem fmaCalc_trunc (z : Option FArg) : (fmaCalc f rnd tier x y z).trunc = tierLoss true f tier x.v y.v := by
  cases z <;> simp [fmaCalc, tierLoss, tierArg]

theorem fmaCalc_none (x y : FArg) :
    (fmaCalc f rnd tier x y none).e = mulExact (truncSig (tierKeep f tier) x.v) (truncSig (tierKeep f tier) y.v) (x.snan || y.snan) := by
  simp [fmaCalc]

theorem fmaCalc_some_of_nan {iv : Bool}
    (h : mulExact (truncSig (tierKeep f tier) x.v) (truncSig (tierKeep f tier) y.v) (x.snan || y.snan || z.snan) = .nan iv) :
    (fmaCalc f rnd tier x y (some z)).e = .nan (iv || (x.snan || y.snan || z.snan)) := by
  simp [fmaCalc, h]

theorem fmaCalc_some_of_sum {inf : Option Bool} {q : Rat} {zneg : Bool}
    (h : mulExact (truncSig (tierKeep f tier) x.v) (truncSig (tierKeep f tier) y.v) (x.snan || y.snan || z.snan) = sumExact (inf, none) q zneg) :
    (fmaCalc f rnd tier x y (some z)).e =
      if z.v.isNan then .nan (x.snan || y.snan || z.snan) else sumExact (inf, infOf z.v) (q + z.v.real) (rnd == 3) := by
  simp only [fmaCalc, h]
  rcases inf with _ | a
  · cases z.v <;> rfl
  · cases z.v <;> rfl

end

/-! ### The sub-elements of the arithmetic instructions (R164–R166) -/

/-- The result of a calculation, written under MODE. -/
def calcOut (f : Fmt) (rnd : Nat) (sat ftz : Bool) (r : FCalc) : ElemOut := roundOut f rnd sat ftz r.e r.terms r.trunc

section

variable {d : Dst} {a b : Src} {m : Option Cxp} {f : Fmt} {rnd tier : Nat} {sat ftz : Bool} {x y z : FArg}

theorem tierLoss_false (v w : Val) : tierLoss false f tier v w = 0 := if_neg (by simp [tierArg])

theorem arithElem_fadd (hz : z.v.isNan = false) (quiet : z.snan = false) :
    ArithElem (.fadd d a b m) false f rnd tier sat ftz x y z (calcOut f rnd sat ftz { e := addExact rnd x y, terms := x.β.add y.β }) := by
  rw [calcOut, ← tierLoss_false x.v y.v (f := f) (tier := tier)]
  refine arithElem_roundOut (fun special => ?_) fun hx hy _ _ => addExact_plain hx hy
  rw [addExact_nan (by simpa [hz] using special)]
  simp [quiet]

theorem arithElem_fsub (hz : z.v.isNan = false) (quiet : z.snan = false) :
    ArithElem (.fsub d a b m) false f rnd tier sat ftz x y z
      (calcOut f rnd sat ftz { e := addExact rnd x { y with v := y.v.negate }, terms := x.β.add y.β }) := by
  rw [calcOut, ← tierLoss_false x.v y.v (f := f) (tier := tier)]
  refine arithElem_roundOut (fun special => ?_) fun hx hy _ _ => ?_
  · rw [addExact_nan (by simpa [hz, isNan_negate] using special)]
    simp [quiet]
  · rw [addExact_plain hx (by rwa [isNan_negate]), real_negate, ← sub_eq_add_neg]
    rfl

theorem arithElem_fmul (hx : MagNonneg x.v) (hy : MagNonneg y.v) (hz : z.v.isNan = false) (quiet : z.snan = false) :
    ArithElem (.fmul d a b m) true f rnd tier sat ftz x y z (calcOut f rnd sat ftz (fmaCalc f rnd tier x y none)) := by
  rw [calcOut, fmaCalc_trunc, fmaCalc_none]
  refine arithElem_roundOut (fun special => ?_) fun nx ny _ plain => ?_
  · rw [mulExact_special, zeroTimesInf_truncSig hx hy, quiet, Bool.or_false, Bool.true_and]
    simpa only [isNan_truncSig, zeroTimesInf_truncSig hx hy, hz, Bool.false_eq_true, false_or, Bool.true_and] using special
  · rw [mulExact_plain (by rwa [isNan_truncSig]) (by rwa [isNan_truncSig]) (by rwa [zeroTimesInf_truncSig hx hy]), prodInf_truncSig]
    rfl

/-- The product and the addend of `FMA` and `FFMA`. -/
theorem fmaCalc_special (hx : MagNonneg x.v) (hy : MagNonneg y.v)
    (special : x.v.isNan = true ∨ y.v.isNan = true ∨ z.v.isNan = true ∨ zeroTimesInf x.v y.v = true) :
    (fmaCalc f rnd tier x y (some z)).e = .nan (x.snan || y.snan || z.snan || zeroTimesInf x.v y.v) := by
  by_cases product : x.v.isNan = true ∨ y.v.isNan = true ∨ zeroTimesInf x.v y.v = true
  · rw [fmaCalc_some_of_nan (mulExact_special (by simpa only [isNan_truncSig, zeroTimesInf_truncSig hx hy] using product)), zeroTimesInf_truncSig hx hy]
    cases x.snan || y.snan || z.snan <;> simp
  · simp only [not_or, Bool.not_eq_true] at product
    obtain ⟨nx, ny, plain⟩ := product
    have nz : z.v.isNan = true := by simpa [nx, ny, plain] using special
    rw [fmaCalc_some_of_sum (mulExact_plain (by rwa [isNan_truncSig]) (by rwa [isNan_truncSig]) (by rwa [zeroTimesInf_truncSig hx hy])), if_pos nz,
      plain, Bool.or_false]

theorem fmaCalc_plain (hx : MagNonneg x.v) (hy : MagNonneg y.v) (nx : x.v.isNan = false) (ny : y.v.isNan = false) (nz : z.v.isNan = false)
    (plain : zeroTimesInf x.v y.v = false) : (fmaCalc f rnd tier x y (some z)).e = sumExact (prodInf x.v y.v, infOf z.v)
      ((truncSig (tierKeep f tier) x.v).real * (truncSig (tierKeep f tier) y.v).real + z.v.real) (rnd == 3) := by
  rw [fmaCalc_some_of_sum (mulExact_plain (by rwa [isNan_truncSig]) (by rwa [isNan_truncSig]) (by rwa [zeroTimesInf_truncSig hx hy])), prodInf_truncSig,
    if_neg (by simp [nz])]

theorem arithElem_fma (hx : MagNonneg x.v) (hy : MagNonneg y.v) :
    ArithElem (.fma d a b m) true f rnd tier sat ftz x y z (calcOut f rnd sat ftz (fmaCalc f rnd tier x y (some z))) := by
  rw [calcOut, fmaCalc_trunc]
  exact arithElem_roundOut (fmaCalc_special hx hy) (fmaCalc_plain hx hy)

theorem arithElem_ffma {n : Cxp} (hx : MagNonneg x.v) (hy : MagNonneg y.v) :
    ArithElem (.ffma d a b (some n)) true f rnd tier sat ftz x y z (calcOut f rnd sat ftz (fmaCalc f rnd tier x y (some z))) := by
  rw [calcOut, fmaCalc_trunc]
  exact arithElem_roundOut (fmaCalc_special hx hy) (fmaCalc_plain hx hy)

end

end Sys2Proof.Proofs
end
section
/-! # The arithmetic instructions and the dot products, lane by lane (R138, R160, R164–R167): O14 -/

namespace Sys2Proof.Proofs

open Sys2Proof Sys2Proof.Machine Sys2Proof.Laws

/-! ### The tier of a slice (R138) -/

/-- The tier of a lane, of the bounds that the lanes' results would carry at each tier. -/
def laneTier (c : Gang) (f : Fmt) (mul : Bool) (boundAt : Nat → Nat → B16) (l : Nat) : Nat :=
  if mul && (decide (f = .f32) || decide (f = .f64)) then c.tierOf (l / c.k.perSlice) boundAt else 0

/-- A slice's active lanes stay within its budget at a tier. -/
def SliceFits (c : Gang) (boundAt : Nat → Nat → B16) (slice tier : Nat) : Prop :=
  ∀ m < 32, bit c.lanes m = true → m / c.k.perSlice = slice → exceeds (boundAt tier m) (c.view.budget slice) = false

/-- The same, as `Gang.tierOf` computes it. -/
def sliceFits (c : Gang) (boundAt : Nat → Nat → B16) (slice tier : Nat) : Bool :=
  ((setBitsOf c.lanes).filter fun l => l / c.k.perSlice = slice).all fun l => !exceeds (boundAt tier l) (c.view.budget slice)

theorem sliceFits_iff {c : Gang} {boundAt : Nat → Nat → B16} {slice tier : Nat} : sliceFits c boundAt slice tier = true ↔ SliceFits c boundAt slice tier := by
  simp [sliceFits, SliceFits, mem_setBitsOf, or_iff_not_imp_left]

theorem tierOf_fixed {c : Gang} {slice : Nat} {boundAt : Nat → Nat → B16} (h : modeTier c.mode ≠ 0) : c.tierOf slice boundAt = modeTier c.mode - 1 := by
  unfold Gang.tierOf
  split
  · contradiction
  · rfl

theorem tierOf_untracked {c : Gang} {slice : Nat} {boundAt : Nat → Nat → B16} (h : modeTier c.mode = 0) (untracked : c.untracked = true) :
    c.tierOf slice boundAt = 0 := by
  simp only [Gang.tierOf, h, untracked, if_true]

theorem tierOf_fits {c : Gang} {slice : Nat} {boundAt : Nat → Nat → B16} (h : modeTier c.mode = 0) (tracked : ¬c.untracked = true) :
    (SliceFits c boundAt slice 2 → c.tierOf slice boundAt = 2) ∧
    (¬SliceFits c boundAt slice 2 → SliceFits c boundAt slice 1 → c.tierOf slice boundAt = 1) ∧
    (¬SliceFits c boundAt slice 2 → ¬SliceFits c boundAt slice 1 → c.tierOf slice boundAt = 0) := by
  have tier : c.tierOf slice boundAt = if sliceFits c boundAt slice 2 then 2 else if sliceFits c boundAt slice 1 then 1 else 0 := by
    simp only [Gang.tierOf, h, tracked]
    rfl
  rw [tier, ← sliceFits_iff, ← sliceFits_iff]
  exact ⟨fun two => if_pos two, fun two one => (if_neg two).trans (if_pos one), fun two one => (if_neg two).trans (if_neg one)⟩

theorem laneTier_chosen (c : Gang) (f : Fmt) (mul : Bool) (boundAt : Nat → Nat → B16) (l : Nat) :
    TierChosen c f mul (SliceFits c boundAt (l / c.k.perSlice)) (laneTier c f mul boundAt l) := by
  have tiers : (mul = true ∧ (f = .f32 ∨ f = .f64)) ↔ (mul && (decide (f = .f32) || decide (f = .f64))) = true := by simp
  simp only [TierChosen, laneTier, tiers]
  split_ifs with tiered fixed untracked
  · exact tierOf_fixed fixed
  · exact tierOf_untracked (not_not.mp fixed) untracked
  · exact tierOf_fits (not_not.mp fixed) untracked
  · rfl

/-! ### The arithmetic instructions -/

/-- The addend of an arithmetic instruction: zero where it has none. -/
def addend (zo : Option Src) : Src := zo.getD .zero

section

variable {i : Instr} {d : Dst} {a b : Src} {zo : Option Src} {m : Option Cxp} {mul : Bool} {op : Fmt → Nat → Nat → FArg → FArg → FArg → FCalc}
  {s : State} {c : Gang} {t : Ty} {f : Fmt}

/-- Sub-element k of lane l at a tier, of the operands as read. -/
def arithElemOf (op : Fmt → Nat → Nat → FArg → FArg → FArg → FCalc) (c : Gang) (t : Ty) (f : Fmt) (a b z : Src) (x : Cxp) (tier l k : Nat) : ElemOut :=
  calcOut f (modeRnd c.mode) (modeSat c.mode) (modeFtz c.mode) (op f (modeRnd c.mode) tier (floatArg c t f a x.absA x.negA x.exact l k)
    (floatArg c t f b x.absB x.negB x.exact l k) (floatArg c t f z false x.negC x.exact l k))

/-- An arithmetic instruction delivers its lanes at the tiers that R138 chooses. An operation without an addend is the same whatever addend is read. -/
theorem floatArith_delivers (he : exec i s = floatArith i d a b zo m mul op s)
    (h : Issues i s c { regs := dstRegs d ++ srcRegs a ++ srcRegs b ++ srcRegs (addend zo) }) (ht : c.ty = some t) (hf : stdFloat t = some f)
    (ignores : zo = none → ∃ sum : Fmt → Nat → Nat → FArg → FArg → FCalc, op = fun f rnd tier x y _ => sum f rnd tier x y) :
    let e := arithElemOf op c t f a b (addend zo) (m.getD cxpNone)
    Delivers i s c true t.is64 (if t.is64 then 1 else 0) d c.lanes fun l =>
      let tier := laneTier c f mul (fun τ m => (laneOut t c.untracked τ (e τ m)).bnd) l
      laneOut t c.untracked tier (e tier l) := by
  intro e
  cases zo with
  | some z => exact deliverF_delivers he h ht (by simp) (by simp only [floatType_some ht hf]; rfl)
  | none =>
    obtain ⟨sum, rfl⟩ := ignores rfl
    exact deliverF_delivers he h ht (by simp) (by simp only [floatType_some ht hf]; rfl)

theorem floatArith_trapped (he : exec i s = floatArith i d a b zo m mul op s)
    (h : Issues i s c { regs := dstRegs d ++ srcRegs a ++ srcRegs b ++ srcRegs (addend zo) }) (ht : c.ty = some t) (hf : stdFloat t = none) :
    exec i s = .next (trapped s c (modeTrap c)) := by
  cases zo <;> exact badMode_trapped he h (by simp only [floatType_none ht hf])

end

/-! ### Operands as read -/

section

variable (c : Gang) (t : Ty) (f : Fmt) (neg exact : Bool) (l k : Nat)

theorem floatArg_magNonneg (a : Src) (abs : Bool) : MagNonneg (floatArg c t f a abs neg exact l k).v := fArg_magNonneg _ _ _ _ _ _ _

theorem decode_zero : ∃ q, f.decode 0 = .fin false q := by cases f <;> exact ⟨_, rfl⟩

theorem opnd_zero_at : (c.opnd t .zero).at l = 0 := by
  simp only [Gang.opnd, Gang.source, Opnd.const, Opnd.at, Vector.toList_replicate, List.getD_eq_getElem?_getD]
  rw [List.getElem?_getD_replicate_default_eq]
  rfl

/-- The addend of an instruction without one is no NaN. -/
theorem floatArg_zero : (floatArg c t f .zero false neg exact l k).v.isNan = false ∧ (floatArg c t f .zero false neg exact l k).snan = false := by
  obtain ⟨q, zero⟩ := decode_zero f
  simp only [floatArg, opnd_zero_at, elem, Nat.zero_div, Nat.zero_mod, fArg, zero, isNan_flushIn]
  cases neg <;> exact ⟨rfl, rfl⟩

end

/-! ### The instructions -/

section

variable {i : Instr} {d : Dst} {a b : Src} {zo : Option Src} {m : Option Cxp} {mul : Bool} {op : Fmt → Nat → Nat → FArg → FArg → FArg → FCalc}
  {s : State} {c : Gang} {t : Ty} {f : Fmt}

/-- An arithmetic instruction whose operation gives each sub-element as R164–R166 say, of operands as read. -/
structure Computes (i : Instr) (d : Dst) (a b : Src) (zo : Option Src) (m : Option Cxp) (mul : Bool)
    (op : Fmt → Nat → Nat → FArg → FArg → FArg → FCalc) : Prop where
  meaning : ∀ s, exec i s = floatArith i d a b zo m mul op s
  modifiers : modifiersOf i = m.getD cxpNone
  ignores : zo = none → ∃ sum : Fmt → Nat → Nat → FArg → FArg → FCalc, op = fun f rnd tier x y _ => sum f rnd tier x y
  elements : ∀ f rnd tier sat ftz (x y z : FArg), MagNonneg x.v → MagNonneg y.v → (zo = none → z.v.isNan = false ∧ z.snan = false) →
    ArithElem i mul f rnd tier sat ftz x y z (calcOut f rnd sat ftz (op f rnd tier x y z))

theorem computes_fadd (d : Dst) (a b : Src) (m : Option Cxp) :
    Computes (.fadd d a b m) d a b none m false fun _ rnd _ x y _ => { e := addExact rnd x y, terms := x.β.add y.β } where
  meaning := exec_fadd d a b m
  modifiers := rfl
  ignores _ := ⟨_, rfl⟩
  elements _ _ _ _ _ _ _ _ _ _ hz := arithElem_fadd (hz rfl).1 (hz rfl).2

theorem computes_fsub (d : Dst) (a b : Src) (m : Option Cxp) :
    Computes (.fsub d a b m) d a b none m false fun _ rnd _ x y _ => { e := addExact rnd x { y with v := y.v.negate }, terms := x.β.add y.β } where
  meaning := exec_fsub d a b m
  modifiers := rfl
  ignores _ := ⟨_, rfl⟩
  elements _ _ _ _ _ _ _ _ _ _ hz := arithElem_fsub (hz rfl).1 (hz rfl).2

theorem computes_fmul (d : Dst) (a b : Src) (m : Option Cxp) :
    Computes (.fmul d a b m) d a b none m true fun f rnd tier x y _ => fmaCalc f rnd tier x y none where
  meaning := exec_fmul d a b m
  modifiers := rfl
  ignores _ := ⟨_, rfl⟩
  elements _ _ _ _ _ _ _ _ hx hy hz := arithElem_fmul hx hy (hz rfl).1 (hz rfl).2

theorem computes_fma (d : Dst) (a b : Src) (m : Option Cxp) :
    Computes (.fma d a b m) d a b (some (dstSrc d)) m true fun f rnd tier x y z => fmaCalc f rnd tier x y (some z) where
  meaning := exec_fma d a b m
  modifiers := rfl
  ignores h := by cases h
  elements _ _ _ _ _ _ _ _ hx hy _ := arithElem_fma hx hy

theorem computes_ffma (d : Dst) (a b : Src) (n : Cxp) :
    Computes (.ffma d a b (some n)) d a b (some n.c) (some n) true fun f rnd tier x y z => fmaCalc f rnd tier x y (some z) where
  meaning := exec_ffma d a b (some n)
  modifiers := rfl
  ignores h := by cases h
  elements _ _ _ _ _ _ _ _ hx hy _ := arithElem_ffma hx hy

/-- The arithmetic instructions all compute their form of R164. -/
theorem computes_of_floatForm {z : Src} (h : floatForm i = some (d, a, b, z, mul)) : ∃ zo m op, z = addend zo ∧ Computes i d a b zo m mul op := by
  unfold floatForm at h
  split at h
  · cases h; exact ⟨_, _, _, rfl, computes_fadd _ _ _ _⟩
  · cases h; exact ⟨_, _, _, rfl, computes_fsub _ _ _ _⟩
  · cases h; exact ⟨_, _, _, rfl, computes_fmul _ _ _ _⟩
  · cases h; exact ⟨_, _, _, rfl, computes_fma _ _ _ _⟩
  · cases h; exact ⟨_, _, _, rfl, computes_ffma _ _ _ _⟩
  · cases h

theorem ffma_trapped (h : Issues (.ffma d a b none) s c {}) : exec (.ffma d a b none) s = .next (trapped s c (illegalTrap c 3)) :=
  issue_trap h rfl

/-- The sub-elements of an arithmetic instruction, as the statement asks. -/
theorem arithElemOf_arithElem (h : Computes i d a b zo m mul op) (tier l k : Nat) :
    ArithElem i mul f (modeRnd c.mode) tier (modeSat c.mode) (modeFtz c.mode)
      (floatArg c t f a (modifiersOf i).absA (modifiersOf i).negA (modifiersOf i).exact l k)
      (floatArg c t f b (modifiersOf i).absB (modifiersOf i).negB (modifiersOf i).exact l k)
      (floatArg c t f (addend zo) false (modifiersOf i).negC (modifiersOf i).exact l k)
      (arithElemOf op c t f a b (addend zo) (m.getD cxpNone) tier l k) := by
  rw [h.modifiers]
  refine h.elements _ _ _ _ _ _ _ _ (floatArg_magNonneg ..) (floatArg_magNonneg ..) ?_
  rintro rfl
  exact floatArg_zero ..

end

/-! ### The exact sum of products (R167) -/

section

variable {rnd : Nat} {ps : List Exact} {z : FArg}

/-- The addend of a dot product, as an exact result. -/
def addendExact (z : FArg) : Exact :=
  match z.v with
  | .nan _ _ => .nan z.snan
  | .inf n => .inf n
  | .fin n m => .real (if n then -m else m) n

theorem addendExact_nan (h : z.v.isNan = true) : addendExact z = .nan z.snan := by
  unfold addendExact
  cases e : z.v <;> simp_all [Val.isNan]

theorem addendExact_finite (h : z.v.isFinite = true) : addendExact z = .real z.v.real z.v.neg := by
  unfold addendExact
  cases e : z.v <;> simp_all [Val.isFinite, Val.real, Val.neg]

/-- The exact results that a dot product sums. -/
def dotTerms (ps : List Exact) (z : FArg) : List Exact := ps ++ [addendExact z]

theorem dotExact_invalid (h : .nan true ∈ dotTerms ps z) : dotExact rnd ps z = .nan true := by
  unfold dotExact
  extract_lets zs l inf nan invalid
  have raised : invalid = true := by
    rw [Bool.or_eq_true]
    exact .inr (List.any_eq_true.mpr ⟨.nan true, h, rfl⟩)
  rw [raised, Bool.or_true, if_pos rfl]

theorem dotExact_nan {iv : Bool} (h : .nan iv ∈ dotTerms ps z) : ∃ iv, dotExact rnd ps z = .nan iv := by
  unfold dotExact
  extract_lets zs l inf nan invalid
  have isNan : nan = true := List.any_eq_true.mpr ⟨.nan iv, h, rfl⟩
  exact ⟨invalid, by rw [isNan, Bool.true_or, if_pos rfl]⟩

/-- A sum of real terms. -/
theorem dotExact_real {L : List Nat} {q : Nat → Rat} {sign : Nat → Bool} (hz : z.v.isFinite = true) :
    dotExact rnd (L.map fun k => .real (q k) (sign k)) z = .real ((L.map q).foldl (· + ·) 0 + z.v.real) (zeroSum rnd) := by
  unfold dotExact
  extract_lets zs l inf nan invalid
  have addend : zs = .real z.v.real z.v.neg := addendExact_finite hz
  have terms : l = (L.map fun k => .real (q k) (sign k)) ++ [.real z.v.real z.v.neg] := by rw [← addend]
  have noNan : nan = false := by simp [nan, terms]
  have noInf (n : Bool) : inf n = false := by simp [inf, terms]
  have quiet : invalid = false := by simp [invalid, terms, noInf]
  simp [noNan, noInf, quiet, terms, List.foldl_map]

end

/-! ### The dot products -/

section

variable {i : Instr} {d : Dst} {a b : Src} {m : Option Cxp} {ok : Fmt → Bool} {s : State} {c : Gang} {t : Ty} {f : Fmt}

/-- A lane of a dot product of the operands x and y with the addend z. -/
def dotElem (rnd : Nat) (sat ftz : Bool) (n : Nat) (x y : Nat → FArg) (z : FArg) : ElemOut :=
  roundOut .f32 rnd sat ftz (dotExact rnd ((List.range n).map fun k => (dotTerm (x k) (y k)).1) z)
    (((List.range n).foldl (fun (β : Bnd) k => β.add (dotTerm (x k) (y k)).2) (.fin 0)).add z.β) 0

theorem dot_delivers (he : exec i s = dotOp i d a b m ok s) (h : Issues i s c { regs := dstRegs d ++ srcRegs a ++ srcRegs b }) (ht : c.ty = some t)
    (hk : t.kind = .flt f) (hok : ok f = true) :
    Delivers i s c true false 0 d c.lanes fun l => laneOut tyF32 c.untracked 0 fun _ =>
      dotElem (modeRnd c.mode) (modeSat c.mode) (modeFtz c.mode) t.n
        (floatArg c t f a (m.getD cxpNone).absA (m.getD cxpNone).negA (m.getD cxpNone).exact l)
        (floatArg c t f b (m.getD cxpNone).absB (m.getD cxpNone).negB (m.getD cxpNone).exact l)
        (fArg .f32 (modeFtz c.mode) false (m.getD cxpNone).negC (m.getD cxpNone).exact ((c.opnd tyF32 (dstSrc d)).bndAt l)
          ((c.opnd tyF32 (dstSrc d)).at l % 2 ^ 32)) := by
  refine deliver_delivers (w := floatW false) he h ?_ fun _ _ wide => by cases wide
  simp only [ht, Option.bind_some, hk, hok, if_true, List.map_map, List.foldl_map]
  rfl

variable {rnd n : Nat} {sat ftz : Bool} {x y : Nat → FArg} {z : FArg}

theorem dotTerm_nan {x y : FArg} (h : x.v.isNan = true ∨ y.v.isNan = true) : (dotTerm x y).1 = .nan (x.snan || y.snan) := mulExact_nan h

theorem dotTerm_finite {x y : FArg} (hx : x.v.isFinite = true) (hy : y.v.isFinite = true) :
    (dotTerm x y).1 = .real (x.v.real * y.v.real) (x.v.neg != y.v.neg) := by
  have notNan {v : Val} (h : v.isFinite = true) : v.isNan = false := by cases v <;> simp_all [Val.isFinite, Val.isNan]
  simp [dotTerm, mulExact, hx, hy, notNan hx, notNan hy]

theorem dotElem_nan (h : (∃ k < n, (x k).v.isNan = true ∨ (y k).v.isNan = true) ∨ z.v.isNan = true) :
    (dotElem rnd sat ftz n x y z).bits = 0x7FC00000 := by
  obtain ⟨iv, mem⟩ : ∃ iv, .nan iv ∈ dotTerms ((List.range n).map fun k => (dotTerm (x k) (y k)).1) z := by
    rcases h with ⟨k, hk, nan⟩ | nan
    · exact ⟨_, List.mem_append_left _ (List.mem_map.mpr ⟨k, List.mem_range.mpr hk, dotTerm_nan nan⟩)⟩
    · exact ⟨_, List.mem_append_right _ (List.mem_singleton.mpr (addendExact_nan nan).symm)⟩
  obtain ⟨iv, nan⟩ := dotExact_nan (rnd := rnd) mem
  rw [dotElem, nan]
  rfl

/-- An operand that was signalling is NaN, as `fArg` reads operands. -/
def SnanIsNan (x : FArg) : Prop := x.snan = true → x.v.isNan = true

theorem dotElem_snan (hx : ∀ k, SnanIsNan (x k)) (hy : ∀ k, SnanIsNan (y k)) (hz : SnanIsNan z)
    (h : z.snan = true ∨ ∃ k < n, (x k).snan = true ∨ (y k).snan = true) :
    (dotElem rnd sat ftz n x y z).bits = 0x7FC00000 ∧ (dotElem rnd sat ftz n x y z).flags = flInvalid := by
  have mem : .nan true ∈ dotTerms ((List.range n).map fun k => (dotTerm (x k) (y k)).1) z := by
    rcases h with snan | ⟨k, hk, snan⟩
    · exact List.mem_append_right _ (List.mem_singleton.mpr (by rw [addendExact_nan (hz snan), snan]))
    · refine List.mem_append_left _ (List.mem_map.mpr ⟨k, List.mem_range.mpr hk, ?_⟩)
      rw [dotTerm_nan (snan.imp (hx k) (hy k))]
      simpa using snan
  rw [dotElem, dotExact_invalid mem]
  exact ⟨rfl, rfl⟩

theorem dotElem_finite (h : ∀ k < n, (x k).v.isFinite = true ∧ (y k).v.isFinite = true) (hz : z.v.isFinite = true)
    (nonzero : ((List.range n).map fun k => (x k).v.real * (y k).v.real).foldl (· + ·) 0 + z.v.real ≠ 0) :
    dotElem rnd sat ftz n x y z = roundOut .f32 rnd sat ftz (.real (((List.range n).map fun k => (x k).v.real * (y k).v.real).foldl (· + ·) 0 + z.v.real) false)
      (((List.range n).foldl (fun (β : Bnd) k => β.add (mulTerms (ratAbs (x k).v.real) (x k).β (ratAbs (y k).v.real) (y k).β)) (.fin 0)).add z.β) 0 := by
  have terms : ((List.range n).map fun k => (dotTerm (x k) (y k)).1) =
      (List.range n).map fun k => .real ((x k).v.real * (y k).v.real) ((x k).v.neg != (y k).v.neg) :=
    List.map_congr_left fun k hk => dotTerm_finite (h k (List.mem_range.mp hk)).1 (h k (List.mem_range.mp hk)).2
  rw [dotElem, terms, dotExact_real hz]
  simp only [roundOut, if_neg nonzero]
  rfl

end

/-- Settles O14: an arithmetic instruction delivers `arithElemOf` at the tiers of `laneTier`, a dot product `dotElem`. -/
theorem floatArithmeticAndDotProducts : Obligations.FloatArithmeticAndDotProducts := by
  unfold Obligations.FloatArithmeticAndDotProducts
  refine ⟨⟨fun i d a b z mul s c form h => ?_, fun d a b s c => ffma_trapped⟩, fun i d a b m s c t f hi h ht hk => ?_⟩
  · obtain ⟨zo, m, op, rfl, computes⟩ := computes_of_floatForm form
    refine ⟨fun t f ht hf => ?_, fun t ht hf => floatArith_trapped (computes.meaning s) h ht hf⟩
    exact ⟨_, _, fun tier l k _ _ => arithElemOf_arithElem computes tier l k, fun l _ => laneTier_chosen c f mul _ l,
      floatArith_delivers (computes.meaning s) h ht hf computes.ignores⟩
  · obtain ⟨ok, he, accepted, hm⟩ : ∃ ok, exec i s = dotOp i d a b m ok s ∧ ok f = true ∧ modifiersOf i = m.getD cxpNone := by
      rcases hi with ⟨rfl, hf⟩ | ⟨rfl, hf⟩
      · exact ⟨_, exec_fdot2 d a b m s, by simpa using hf, rfl⟩
      · exact ⟨_, exec_fdot4 d a b m s, by simpa using hf, rfl⟩
    rw [hm]
    refine ⟨_, fun l _ => ⟨dotElem_nan, ?_, dotElem_finite⟩, dot_delivers he h ht hk accepted⟩
    exact dotElem_snan (fun _ => fArg_isNan_of_snan) (fun _ => fArg_isNan_of_snan) fArg_isNan_of_snan

end Sys2Proof.Proofs
end
section
/-! # Special functions that stall and the versions that nothing reads any more (O19)

A special function whose unit is full waits in the state that it was given, in which its group still lists register versions whose clock has passed.
`Stalls` asks for the gang's group, which has forgotten them. -/

namespace Sys2Proof.Proofs

open Sys2Proof Sys2Proof.Machine Sys2Proof.Laws

/-- A special function whose quarter has four in progress stays in the state that it was given. -/
theorem sfuOp_full {i : Instr} {op : SfOp} {d : Dst} {a b : Src} {s : State} {c : Gang} {t : Ty}
    (h : Issues i s c { regs := dstRegs d ++ srcRegs a ++ srcRegs b }) (ht : c.ty = some t) (hf : (sfuFloat t).isSome = true)
    (full : 4 ≤ sfuBusy s c.core c.g.quarter) : sfuOp i op d a b s = .next (finish (entered s c) c (.stay s true)) := by
  obtain ⟨f, hf⟩ := Option.isSome_iff_exists.mp hf
  refine (issue_next h _).trans ?_
  simp only [ht, Option.bind_some, hf, Option.map_some, if_pos full]
  rfl

/-- A result of a special function in progress in quarter 0. -/
def sfuInProgress : Pending :=
  { kind := .sfu, flag := none, writes := [], sticky := 0, card := none, holds := false, trap := none, quarter := 0, slices := 255, run := 0, issued := 0
    known := true }

/-- The machine after reset with an `RCP` about to issue, its quarter's unit full and its group still listing the expired version. -/
def rcpBesideExpired : State :=
  let s := placeWords State.reset (encode (.rcp .discard .zero))
  s.modGroup s.focus fun g => { g with unsettled := [expired], pend := List.replicate 4 sfuInProgress }

theorem gangOf_rcpBesideExpired : (gangOf (.rcp .discard .zero) rcpBesideExpired).isSome = true := by decide +kernel

/-- The gang that issues the `RCP`. -/
def rcpGang : Gang := (gangOf (.rcp .discard .zero) rcpBesideExpired).get gangOf_rcpBesideExpired

theorem rcpGang_issues : Issues (.rcp .discard .zero) rcpBesideExpired rcpGang { regs := dstRegs .discard ++ srcRegs .zero ++ srcRegs .zero } where
  gang := (Option.some_get _).symm
  noTrapDue := by decide +kernel
  notBusy := by decide +kernel
  present := by decide +kernel
  clean := by decide +kernel
  legal := by decide +kernel

theorem rcpGang_ty : rcpGang.ty = some tyF32 := by decide +kernel

theorem rcpGang_full : 4 ≤ sfuBusy rcpBesideExpired rcpGang.core rcpGang.g.quarter := by decide +kernel

theorem rcp_listedVersions_stayed :
    listedVersions (finish (entered rcpBesideExpired rcpGang) rcpGang (.stay rcpBesideExpired true)) rcpGang.gid = some [expired] := by decide +kernel

theorem rcpGang_unsettled : rcpGang.g.unsettled = [] := by decide +kernel

/-- Refutes O19: an `RCP` that stalls leaves its group's expired register version listed, which the gang's group has forgotten. -/
theorem not_specialFunctionResults : ¬ Obligations.SpecialFunctionResults := by
  unfold Obligations.SpecialFunctionResults
  intro results
  obtain ⟨-, stalls, -⟩ := results (.rcp .discard .zero) .discard .zero .zero .rcp rcpBesideExpired rcpGang tyF32 rfl rcpGang_issues rcpGang_ty
  obtain ⟨t, next, -, group⟩ := stalls rfl (.inl rcpGang_full)
  have stayed := next.symm.trans ((exec_rcp .discard .zero rcpBesideExpired).trans (sfuOp_full rcpGang_issues rcpGang_ty rfl rcpGang_full))
  have listed := rcp_listedVersions_stayed
  rw [← Host.Outcome.next.inj stayed, listedVersions, group] at listed
  simp [rcpGang_unsettled] at listed

end Sys2Proof.Proofs
end
section
/-! # `QBLK` without a destination and the versions that nothing reads any more (O21)

A `QBLK` that discards its result is done with the state that it was given, in which its group still lists register versions whose clock has passed;
`passed` has forgotten them, as for the words of O8, O10 and O18. -/

namespace Sys2Proof.Proofs

open Sys2Proof Sys2Proof.Machine Sys2Proof.Laws

/-- The `QBLK` of v0 to v3 that discards its result. -/
def qblkDiscarded : Instr := .qblk .discard 0 false false

/-- The registers that it names. -/
def qblkUses : Uses := { regs := dstRegs .discard, byMode := [(.v 0, packCount fun t => (blockFmt t).isSome)] }

/-- The type of E4M3 (R38). -/
def tyE4m3 : Ty := ⟨.flt .e4m3, 8, 4⟩

/-- A slice that is live is in the run, where none is live outside it. -/
theorem bit_of_and_not_eq_zero {a b : BitVec 8} {j : Nat} (h : a &&& ~~~b = 0) (ha : bit a j = true) : bit b j = true := by
  have clear : (a &&& ~~~b).getLsbD j = false := by rw [h]; exact BitVec.getLsbD_zero
  rw [BitVec.getLsbD_and, BitVec.getLsbD_not, show a.getLsbD j = true from ha] at clear
  simpa [BitVec.lt_of_getLsbD ha, bit] using clear

/-- Without slices there are no lanes. -/
theorem setBitsOf_lanesOf_none (per : Nat) (f : Nat → BitVec 4) : setBitsOf (lanesOf per 0#8 f) = [] := by
  refine List.eq_nil_iff_forall_not_mem.mpr fun l hl => ?_
  obtain ⟨lt, set⟩ := (mem_setBitsOf _ _).mp hl
  rw [lanesOf, bit_maskOf_lt 32 _ l lt] at set
  simp [bit] at set

/-- Where every live slice is in the run, no lane of a block is away, and a `QBLK` that discards its result only takes its clocks. -/
theorem exec_qblk_discarded {s : State} {c : Gang} (h : Issues qblkDiscarded s c qblkUses) (ht : c.ty = some tyE4m3)
    (whole : c.g.liveSlices c.k &&& ~~~c.run.slices = 0) : exec qblkDiscarded s = .next (wentPast (spend s 3) c) :=
  issue_done h (by simp [ht, blockFmt, tyE4m3, whole, setBitsOf_lanesOf_none])

/-- The machine after reset under the MODE type E4M3, with the `QBLK` about to issue, its group still listing the expired version. -/
def qblkBesideExpired : State :=
  let s := placeWords State.reset (encode qblkDiscarded)
  s.modGroup s.focus fun g => { g with unsettled := [expired], slices := g.slices.map fun sl => { sl with mode := 0x200000 } }

theorem gangOf_qblkBesideExpired : (gangOf qblkDiscarded qblkBesideExpired).isSome = true := by decide +kernel

/-- The gang that issues the `QBLK`. -/
def qblkGang : Gang := (gangOf qblkDiscarded qblkBesideExpired).get gangOf_qblkBesideExpired

theorem qblkGang_issues : Issues qblkDiscarded qblkBesideExpired qblkGang qblkUses where
  gang := (Option.some_get _).symm
  noTrapDue := by decide +kernel
  notBusy := by decide +kernel
  present := by decide +kernel
  clean := by decide +kernel
  legal := by decide +kernel

theorem qblkGang_ty : qblkGang.ty = some tyE4m3 := by decide +kernel

theorem qblkGang_whole : qblkGang.g.liveSlices qblkGang.k &&& ~~~qblkGang.run.slices = 0 := by decide +kernel

theorem qblk_listedVersions_wentPast : listedVersions (wentPast (spend qblkBesideExpired 3) qblkGang) qblkGang.gid = some [expired] := by decide +kernel

theorem qblk_listedVersions_passed : listedVersions (passed (spend qblkBesideExpired 3) qblkGang) qblkGang.gid = some [] := by decide +kernel

/-- Refutes O21: a `QBLK` that discards its result leaves its group's expired register version listed, which `passed` has forgotten. -/
theorem not_blockQuantisation : ¬ Obligations.BlockQuantisation := by
  unfold Obligations.BlockQuantisation
  intro quantises
  obtain ⟨qblk, -⟩ := quantises qblkBesideExpired qblkGang tyE4m3 .e4m3 qblkGang_ty rfl
  obtain ⟨-, discarded, -⟩ := qblk .discard 0 false false qblkGang_issues
  have next := discarded (fun ⟨_, _, _, _, _, _, _, _, live, out, _⟩ => Bool.false_ne_true (out.symm.trans (bit_of_and_not_eq_zero qblkGang_whole live))) rfl
  have same : wentPast (spend qblkBesideExpired 3) qblkGang = passed (spend qblkBesideExpired 3) qblkGang :=
    Host.Outcome.next.inj ((exec_qblk_discarded qblkGang_issues qblkGang_ty qblkGang_whole).symm.trans next)
  have listed := qblk_listedVersions_wentPast
  rw [same, qblk_listedVersions_passed] at listed
  cases listed

end Sys2Proof.Proofs
end
section
/-! # Decodes that are held and the versions that nothing reads any more (O38)

`DECH` and `DECZ` queue their job in the state that they were given, in which the group still lists register versions whose clock has passed; the
statement puts the job into the state that has forgotten them (`entered`). -/

namespace Sys2Proof.Proofs

open Sys2Proof Sys2Proof.Machine Sys2Proof.Laws

/-- The `DECZ` of h0 into v0, with its descriptor in s0 and s1. -/
def deczHeld : Instr := .decz 0 0 0

/-- A tile of one row of one column of F32. -/
def deczStream : Tile := { desc := 0x10001, base := 0, rows := 1, words := [], side := [], poison := [], core := 0 }

/-- The machine after reset under the MODE type E4M3, with the `DECZ` of one element of an empty stream about to issue, its group still listing the
expired version. -/
def deczBesideExpired : State :=
  let s := placeWords State.reset (encode deczHeld)
  let t := s.setTeam s.focus { s.team s.focus with tiles := [(0, deczStream)] }
  t.modGroup t.focus fun g =>
    { g with unsettled := [expired], slices := g.slices.map fun sl => { sl with mode := 0x200000 }, s := g.s.set 0 (BitVec.ofNat 64 (2 ^ 48)) }

theorem gangOf_deczBesideExpired : (gangOf deczHeld deczBesideExpired).isSome = true := by decide +kernel

/-- The gang that issues the `DECZ`. -/
def deczGang : Gang := (gangOf deczHeld deczBesideExpired).get gangOf_deczBesideExpired

/-- The `DECZ` held, with its job queued in state s. -/
def deczQueued (s : State) : State :=
  tick ((countStep (queued s deczGang.core (jobOf deczGang 3 0 0 0 deczStream)) deczGang.gid).modGroup deczGang.gid fun g => { g with hold := some .decode })

theorem deczGang_issues : Issues deczHeld deczBesideExpired deczGang { u := [0, uregNext 0] } where
  gang := (Option.some_get _).symm
  noTrapDue := by decide +kernel
  notBusy := by decide +kernel
  present := by decide +kernel
  clean := by decide +kernel
  legal := by decide +kernel

theorem deczGang_ty : deczGang.ty = some tyE4m3 := by decide +kernel

theorem decz_tile : deczBesideExpired.tile deczGang.g.team 0 = some deczStream := by decide +kernel

/-- A `DECZ` whose descriptor passes R199's checks is held with its job queued in the state that it was given. -/
theorem exec_decz_held {d : VFirst} {a : UReg} {h : TileNo} {s : State} {c : Gang} {t : Ty} {str : Tile}
    (issues : Issues (.decz d a h) s c { u := [a, uregNext a] }) (ht : c.ty = some t) (packed : packTy t = true) (hs : s.tile c.g.team h = some str)
    (passes : decodeCause 3 (c.view.uni a).1 (c.view.uni (uregNext a)).1 str none
      (c.rangeHolds d ((decLen (c.view.uni a).1 + c.k.width * t.n - 1) / (c.k.width * t.n))) = none)
    (free : c.view.interlocked = false) :
    Holds (.decz d a h) s (countStep (queued s c.core (jobOf c 3 d.val a h str)) c.gid) c .decode := by
  refine (exec_decz d a h s).trans ((issue_next issues _).trans ?_)
  have kind : (3 : BitVec 2).toNat = 3 := rfl
  have idle (n : Nat) : c.rangeBusy d n = false := by simp [Gang.rangeBusy, free]
  simp only [ht, packed, hs, kind, tableOf, if_true, Option.bind_none, passes, idle, Bool.not_true, Bool.false_eq_true, if_false]
  rfl

theorem decz_listedVersions_given : listedVersions (deczQueued deczBesideExpired) deczGang.gid = some [expired] := by decide +kernel

theorem decz_listedVersions_entered : listedVersions (deczQueued (entered deczBesideExpired deczGang)) deczGang.gid = some [] := by decide +kernel

/-- Refutes O38: a `DECZ` that is held leaves its group's expired register version listed, which the entered state has forgotten. -/
theorem not_streamDecodes : ¬ Obligations.StreamDecodes := by
  unfold Obligations.StreamDecodes
  rintro ⟨issued, -⟩
  obtain ⟨decodes, -⟩ := issued deczBesideExpired deczGang
  obtain ⟨-, -, checked⟩ := decodes deczHeld 3 0 0 0 tyE4m3 rfl deczGang_ty deczGang_issues
  obtain ⟨-, held⟩ := checked deczStream none (by decide) decz_tile (.inr ⟨rfl, rfl⟩)
  have passes : (descriptorFails 3 (deczGang.view.uni 0).1 (deczGang.view.uni (uregNext 0)).1 deczStream none
      (decide (0 + (bits (deczGang.view.uni 0).1 59 48 + deczGang.k.width * 4 - 1) / (deczGang.k.width * 4) ≤ deczGang.k.budgetOf deczGang.g.role))).find?
        (·.1) = none := by decide +kernel
  have given := exec_decz_held deczGang_issues deczGang_ty (by decide) decz_tile (by decide +kernel) (by decide +kernel)
  have same : deczQueued deczBesideExpired = deczQueued (entered deczBesideExpired deczGang) :=
    Host.Outcome.next.inj (given.symm.trans (held passes (by decide +kernel)))
  have listed := decz_listedVersions_given
  rw [same, decz_listedVersions_entered] at listed
  cases listed

end Sys2Proof.Proofs
end
section
/-! # Conversions deliver what they compute (R46, R146, R189, R487): O20 -/

namespace Sys2Proof.Proofs

open Sys2Proof Sys2Proof.Machine Sys2Proof.Laws

/-! ### What the lanes' results are judged to be (R140, R141, R180, R181) -/

section

variable {c : Gang} (s : State) {tested : Bool} {lanes : BitVec 32} {out : Nat → LaneOut}

theorem judge_excepts (h : ∃ l < 32, bit lanes l = true ∧ enabledOf c out l ≠ 0) : ∃ t, c.judge s tested lanes out = .error t ∧ t.code = 0x0B := by
  obtain ⟨l, hl, active, raises⟩ := h
  have some_lane : (raised c.g.fpEnable lanes fun l => (out l).flags).1 ≠ 0 := by
    intro none
    have clear := (eq_zero_iff_bits _).mp none l hl
    rw [(raised_spec c lanes out).1 l hl, active] at clear
    exact raises (by simpa using clear)
  exact ⟨_, if_pos some_lane, rfl⟩

/-- Without an enabled exception the breach decides. -/
theorem judge_of_quiet (quiet : ∀ l < 32, bit lanes l = true → enabledOf c out l = 0) :
    c.judge s tested lanes out =
      match (if tested then c.breach s 0 lanes out else none) with
      | none => .ok (allFlags lanes fun l => (out l).flags, none)
      | some b =>
        if modeBnd c.mode = 2 then .error (trapBreach b)
        else if modeBnd c.mode = 1 then .ok (allFlags lanes (fun l => (out l).flags) ||| flBreach, some { words := b.card })
        else .ok (allFlags lanes fun l => (out l).flags, none) :=
  if_neg (not_not.mpr (raised_none quiet))

theorem breach_isSome (h : ∃ l, breaches c lanes out l) : ∃ b, c.breach s 0 lanes out = some b := by
  obtain ⟨l, hl⟩ := h
  exact Option.ne_none_iff_exists'.mp fun none => (breach_spec c s 0 lanes out).1.mp none l hl

variable (quiet : ∀ l < 32, bit lanes l = true → enabledOf c out l = 0)

include quiet

theorem judge_breachTraps (exceeded : ∃ l, breaches c lanes out l) (bnd : modeBnd c.mode = 2) : ∃ t, c.judge s true lanes out = .error t ∧ t.code = 0x08 := by
  obtain ⟨b, hb⟩ := breach_isSome s exceeded
  exact ⟨trapBreach b, by simp [judge_of_quiet s quiet, hb, bnd], rfl⟩

theorem judge_breachFlags (exceeded : ∃ l, breaches c lanes out l) (bnd : modeBnd c.mode = 1) :
    ∃ card, c.judge s true lanes out = .ok (allFlags lanes (fun l => (out l).flags) ||| flBreach, some card) := by
  obtain ⟨b, hb⟩ := breach_isSome s exceeded
  exact ⟨⟨b.card⟩, by simp [judge_of_quiet s quiet, hb, bnd]⟩

theorem judge_writes (calm : tested = false ∨ (∀ l, ¬breaches c lanes out l) ∨ modeBnd c.mode = 0) :
    c.judge s tested lanes out = .ok (allFlags lanes fun l => (out l).flags, none) := by
  rw [judge_of_quiet s quiet]
  rcases calm with untested | within | off
  · simp [untested]
  · simp [(breach_spec c s 0 lanes out).1.mpr within]
  · cases tested
    · rfl
    · cases c.breach s 0 lanes out <;> simp [off]

end

/-- A result judged at its issue waits as its judgement says. -/
theorem pending_waits (c : Gang) (s : State) (kind : ResultKind) (tested : Bool) (lanes : BitVec 32) (out : Nat → LaneOut) (ws : List RegWrite) :
    Waits c kind tested lanes out ws (c.pending s kind tested lanes out ws) where
  unit := by
    unfold Gang.pending
    split <;> exact ⟨rfl, rfl, rfl⟩
  excepts raises := by
    obtain ⟨t, judged, code⟩ := judge_excepts (tested := tested) s raises
    simp [Gang.pending, judged, code]
  breachTraps quiet tests exceeded bnd := by
    obtain ⟨t, judged, code⟩ := judge_breachTraps s quiet exceeded bnd
    simp [Gang.pending, tests, judged, code]
  breachFlags quiet tests exceeded bnd := by
    obtain ⟨card, judged⟩ := judge_breachFlags s quiet exceeded bnd
    simp [Gang.pending, tests, judged]
  writes quiet calm := by
    simp [Gang.pending, judge_writes s quiet calm]

/-! ### Writes of several vector registers -/

theorem mixLines_twice (L x : VLine) (m : BitVec 32) : mixLines L (mixLines L x m) m = mixLines L x m := by
  simp only [mixLines, VLine.mk.injEq]
  constructor <;> (ext i hi; by_cases active : bit m i = true <;> simp [active])

section

variable {c : Gang} {w : Nat} {r : VReg} {L : VLine} {m : BitVec 32}

/-- A write to the register is the write of L in the lanes m. -/
def OnlyWrites (r : VReg) (L : VLine) (m : BitVec 32) (x : RegWrite) : Prop := ∀ L' m', x = .v r L' m' → L' = L ∧ m' = m

theorem mem_wV {x : RegWrite} : r ∈ wV x ↔ ∃ L' m', x = .v r L' m' := by
  cases x <;> simp [wV, eq_comm]

theorem mixLines_line_write {h : Group} {v : View} {x : RegWrite} (only : OnlyWrites r L m x) :
    mixLines L ((h.write v w x).line v.score r) m = mixLines L (h.line v.score r) m := by
  by_cases named : r ∈ wV x
  · obtain ⟨L', m', rfl⟩ := mem_wV.mp named
    obtain ⟨rfl, rfl⟩ := only L' m' rfl
    rw [line_write_same, mixLines_twice]
  · rw [(frame_write h v w x).vec r named]

/-- A register that only equal writes name is left as one of them leaves it. -/
theorem line_put_of_only {ws : List RegWrite} {h : Group} (only : ∀ x ∈ ws, OnlyWrites r L m x) (named : r ∈ ws.flatMap wV) :
    (c.put h w ws).line c.view.score r = mixLines L (h.line c.view.score r) m := by
  induction ws generalizing h with
  | nil => cases named
  | cons x ws ih =>
    obtain ⟨first, rest⟩ := List.forall_mem_cons.mp only
    change (c.put (h.write c.view w x) w ws).line c.view.score r = _
    by_cases later : r ∈ ws.flatMap wV
    · rw [ih rest later, mixLines_line_write first]
    · obtain ⟨L', m', rfl⟩ := mem_wV.mp (by simpa [later] using named : r ∈ wV x)
      obtain ⟨rfl, rfl⟩ := first L' m' rfl
      rw [(frame_put c _ w ws).vec r later, line_write_same]

end

/-- Writes of vector registers alone. -/
def VectorWrites (ws : List RegWrite) : Prop := ∀ x ∈ ws, ∃ r L m, x = .v r L m

theorem dstWrites_vector (wide : Bool) (d : Dst) (o : Opnd) (m : BitVec 32) : VectorWrites (dstWrites wide d o m) := by
  cases d <;> cases wide <;> simp [VectorWrites, dstWrites]

theorem vectorWrites_flatMap {α : Type} {l : List α} {f : α → List RegWrite} (h : ∀ a ∈ l, VectorWrites (f a)) : VectorWrites (l.flatMap f) := by
  intro x hx
  obtain ⟨a, ha, hx⟩ := List.mem_flatMap.mp hx
  exact h a ha x hx

/-- Vector writes at issue leave the group as `Wrote` says. -/
theorem wrote_put (c : Gang) (h : Group) (w : Nat) {ws : List RegWrite} (vector : VectorWrites ws) : Wrote c.view.score h (c.put h w ws) ws where
  frame := by
    refine frame_mono (frame_put c h w ws) ?_ ?_ ?_
    · intro r hr
      obtain ⟨x, hx, named⟩ := List.mem_flatMap.mp hr
      obtain ⟨L, m, rfl⟩ := mem_wV.mp named
      exact List.mem_filterMap.mpr ⟨_, hx, rfl⟩
    all_goals
      intro n hn
      obtain ⟨x, hx, named⟩ := List.mem_flatMap.mp hn
      obtain ⟨r, L, m, rfl⟩ := vector x hx
      cases named
  lines r L m written unique l := by
    have line := line_put_of_only (c := c) (w := w) (h := h) (fun x hx L' m' e => unique L' m' (e ▸ hx)) (List.mem_flatMap.mpr ⟨_, written, mem_wV.mpr ⟨L, m, rfl⟩⟩)
    rw [line]
    exact ⟨mixLines_val _ _ _ l, mixLines_bnd _ _ _ l⟩

/-! ### The delivery (R189, R196, R487) -/

section

variable (c : Gang) (outs : List (Dst × (Nat → LaneOut)))

/-- A lane's results of all the destinations of a conversion together. -/
def allOuts (l : Nat) : LaneOut :=
  outs.foldl (fun a o => { a with bnd := maxB16 a.bnd (o.2 l).bnd, flags := a.flags ||| (o.2 l).flags })
    { LaneOut.none with bnd := if c.untracked then b16Untracked else b16Exact }

theorem allOuts_flags (l : Nat) : (allOuts c outs l).flags = outs.foldl (fun a o => a ||| (o.2 l).flags) 0 :=
  (List.foldl_hom LaneOut.flags fun _ _ => rfl).symm

theorem allOuts_bnd (l : Nat) :
    (allOuts c outs l).bnd = outs.foldl (fun a o => maxB16 a (o.2 l).bnd) (if c.untracked then b16Untracked else b16Exact) :=
  (List.foldl_hom LaneOut.bnd fun _ _ => rfl).symm

/-- The register writes of a conversion. -/
def outWrites (wide : Bool) : List RegWrite := outs.flatMap fun o => dstWrites wide o.1 (outOpnd o.2) c.lanes

theorem outWrites_vector (wide : Bool) : VectorWrites (outWrites c outs wide) := vectorWrites_flatMap fun _ _ => dstWrites_vector _ _ _ _

theorem deliverConv_long (s : State) (wide discard : Bool) : c.deliverConv s true wide discard outs =
    c.launch s c.g (c.pending s .conv true c.lanes (allOuts c outs) (outWrites c outs wide)) (!discard)
      (discard || decide (modeBnd c.mode = 2) || decide (c.g.fpEnable ≠ 0)) := rfl

theorem deliverConv_short (s : State) (wide discard : Bool) : c.deliverConv s false wide discard outs =
    match c.judge s true c.lanes (allOuts c outs) with
    | .error t => .trap t
    | .ok (fl, card) =>
      .done (match card with
        | some k => writeCard (s.setGroup c.gid (c.put (c.g.stick fl) (6 + (s.clock - c.view.clock)) (outWrites c outs wide))) c.gid k.words
        | none => s.setGroup c.gid (c.put (c.g.stick fl) (6 + (s.clock - c.view.clock)) (outWrites c outs wide))) := rfl

end

/-- An instruction whose meaning delivers conversions. -/
theorem deliverConv_converts {i : Instr} {s : State} {c : Gang} {u : Uses} {body : Gang → Result} {n : Nat} {long wide discard : Bool}
    {outs : List (Dst × (Nat → LaneOut))} (he : exec i s = issue i s u body) (h : Issues i s c u)
    (hb : body c = c.deliverConv (spend s n) long wide discard outs) : Converts i s c n long wide discard outs := by
  have next := he.trans (issue_next h body)
  refine ⟨allOuts c outs, fun l => ⟨allOuts_flags c outs l, allOuts_bnd c outs l⟩, ?_, ?_, ?_, ?_, ?_⟩
  · rintro rfl free
    exact ⟨_, pending_waits c (spend s n) .conv true c.lanes _ _, launch_launches he h (hb.trans (deliverConv_long c outs _ wide discard)) (by simpa using free)⟩
  · rintro rfl loud
    obtain ⟨t, judged, code⟩ := judge_excepts (tested := true) (spend s n) (by simpa using loud)
    exact ⟨t, code, by rw [next, hb, deliverConv_short, judged]; rfl⟩
  · rintro rfl quiet exceeded bnd
    obtain ⟨t, judged, code⟩ := judge_breachTraps (spend s n) quiet exceeded bnd
    exact ⟨t, code, by rw [next, hb, deliverConv_short, judged]; rfl⟩
  · rintro rfl quiet exceeded bnd
    obtain ⟨card, judged⟩ := judge_breachFlags (spend s n) quiet exceeded bnd
    exact ⟨_, card.words, by rw [next, hb, deliverConv_short, judged]; rfl, wrote_put c _ _ (outWrites_vector c outs wide)⟩
  · rintro rfl quiet calm
    have done : body c = .done (spend (s.setGroup c.gid (c.put (c.g.stick (allFlags c.lanes fun l => (allOuts c outs l).flags))
        (6 + ((spend s n).clock - c.view.clock)) (outWrites c outs wide))) n) := by
      rw [hb, deliverConv_short, judge_writes (spend s n) quiet (.inr calm)]
      rfl
    exact completes_issue he h done (wrote_put c _ _ (outWrites_vector c outs wide))

end Sys2Proof.Proofs
end
section
/-! # The conversion of one value (R121, R186, R187, R189): O20 -/

namespace Sys2Proof.Proofs

open Sys2Proof Sys2Proof.Machine Sys2Proof.Laws

/-! ### Integers in their bits (R122) -/

theorem lowBits_cast (w : Nat) (v : Int) : (lowBits w v : Int) = v % 2 ^ w := by
  rw [lowBits, Int.toNat_of_nonneg (Int.emod_nonneg _ (by positivity))]
  push_cast
  rfl

/-- Bits read back as the integer that they are the low bits of, where it lies in the range of the type. -/
theorem toInt_lowBits {signed : Bool} {w : Nat} {v : Int} (hw : 0 < w) (low : intMin signed w ≤ v) (high : v ≤ intMax signed w) :
    toInt signed w (lowBits w v) = v := by
  obtain ⟨k, rfl⟩ := Nat.exists_eq_succ_of_ne_zero hw.ne'
  have cast := lowBits_cast (k + 1) v
  have double : (2 : Int) ^ (k + 1) = 2 * 2 ^ k := by ring
  have pos : (0 : Int) < 2 ^ k := by positivity
  have small : lowBits (k + 1) v % 2 ^ (k + 1) = lowBits (k + 1) v := Nat.mod_eq_of_lt (by
    have := Int.emod_lt_of_pos v (show (0 : Int) < 2 ^ (k + 1) by positivity)
    rw [← cast] at this
    exact_mod_cast this)
  have half : (2 ^ k ≤ lowBits (k + 1) v) ↔ (2 : Int) ^ k ≤ lowBits (k + 1) v := by exact_mod_cast Iff.rfl
  simp only [toInt, small, Nat.succ_eq_add_one, Nat.add_sub_cancel, Bool.and_eq_true, decide_eq_true_eq, half, cast]
  cases signed with
  | true =>
    simp only [intMin, intMax, if_true, Nat.add_sub_cancel, Nat.succ_eq_add_one] at low high
    push_cast at low high
    rcases lt_or_ge v 0 with negative | nonneg
    · have wrapped : v % 2 ^ (k + 1) = v + 2 ^ (k + 1) := by
        rw [← Int.add_emod_right, Int.emod_eq_of_lt (by omega) (by omega)]
      rw [wrapped, if_pos ⟨rfl, by omega⟩]
      omega
    · rw [Int.emod_eq_of_lt nonneg (by omega), if_neg (by omega)]
  | false =>
    simp only [intMin, intMax, if_false, Bool.false_eq_true, Nat.succ_eq_add_one] at low high
    push_cast at low high
    rw [Int.emod_eq_of_lt low (by omega), if_neg (by simp)]

theorem intMin_nonpos (signed : Bool) (w : Nat) : intMin signed w ≤ 0 := by
  cases signed
  · exact le_rfl
  · exact neg_nonpos.mpr (Int.natCast_nonneg _)

theorem intMax_nonneg (signed : Bool) (w : Nat) : 0 ≤ intMax signed w := by
  have half := Nat.two_pow_pos (w - 1)
  have all := Nat.two_pow_pos w
  unfold intMax
  split <;> omega

theorem intMin_le_intMax (signed : Bool) (w : Nat) : intMin signed w ≤ intMax signed w := (intMin_nonpos signed w).trans (intMax_nonneg signed w)

theorem toInt_lowBits_zero (signed : Bool) {w : Nat} (hw : 0 < w) : toInt signed w (lowBits w 0) = 0 :=
  toInt_lowBits hw (intMin_nonpos signed w) (intMax_nonneg signed w)

theorem toInt_lowBits_intMin (signed : Bool) {w : Nat} (hw : 0 < w) : toInt signed w (lowBits w (intMin signed w)) = intMin signed w :=
  toInt_lowBits hw le_rfl (intMin_le_intMax signed w)

theorem toInt_lowBits_intMax (signed : Bool) {w : Nat} (hw : 0 < w) : toInt signed w (lowBits w (intMax signed w)) = intMax signed w :=
  toInt_lowBits hw (intMin_le_intMax signed w) le_rfl

/-! ### Into an integer type (R186) -/

/-- A rounded magnitude under its sign is the value exactly where the magnitude is. -/
theorem signed_eq_real (n : Bool) (r : Nat) (q : Rat) : (((if n then -(r : Int) else r : Int) : Rat) = (Val.fin n q).real) ↔ (r : Rat) = q := by
  cases n <;> simp [Val.real]

theorem convToInt_intoInt {t : Ty} {rnd : Nat} {v : Val} (hw : 0 < t.w) (nonneg : MagNonneg v) : IntoInt t rnd v (convToInt t.signed t.w rnd v) := by
  cases v with
  | nan => exact ⟨toInt_lowBits_zero _ hw, rfl⟩
  | inf n =>
    cases n
    · exact ⟨toInt_lowBits_intMax _ hw, rfl⟩
    · exact ⟨toInt_lowBits_intMin _ hw, rfl⟩
  | fin n q =>
    refine ⟨roundNat rnd n q, roundNat_roundsTo rnd n nonneg, ?_⟩
    have inexact := signed_eq_real n (roundNat rnd n q) q
    simp only [convToInt]
    generalize (if n then -(roundNat rnd n q : Int) else roundNat rnd n q : Int) = x at inexact
    split
    case isTrue below => exact ⟨toInt_lowBits_intMin _ hw, rfl⟩
    case isFalse above_min =>
      split
      case isTrue above => exact ⟨toInt_lowBits_intMax _ hw, rfl⟩
      case isFalse below_max =>
        refine ⟨toInt_lowBits hw (not_lt.mp above_min) (not_lt.mp below_max), ?_⟩
        simp only [flagIf, decide_eq_true_eq, ne_eq, inexact, ite_not]

/-! ### Into E8M0 (R187) -/

theorem pow2_lt_pow2 {a b : Int} (h : a < b) : pow2 a < pow2 b := by
  simp only [pow2_eq_zpow]
  exact zpow_lt_zpow_right₀ (by norm_num) h

theorem pow2_lt_iff {a b : Int} : pow2 a < pow2 b ↔ a < b :=
  ⟨fun h => not_le.mp fun le => (pow2_le_pow2 le).not_gt h, pow2_lt_pow2⟩

theorem floorLog2_pow2 (k : Int) : floorLog2 (pow2 k) = k := by
  obtain ⟨low, high⟩ := floorLog2_spec (pow2_pos k)
  have below : k < floorLog2 (pow2 k) + 1 := pow2_lt_iff.mp high
  have above : ¬k < floorLog2 (pow2 k) := fun lt => (pow2_lt_pow2 lt).not_ge low
  omega

/-- The middle of a binade. -/
theorem pow2_mul_three_halves (k : Int) : pow2 k * mkRat 3 2 = 3 * pow2 (k - 1) := by
  have split : pow2 k = pow2 (k - 1) * 2 := by
    rw [show (2 : Rat) = pow2 1 from rfl, ← pow2_add]
    congr 1
    omega
  rw [split, Rat.mkRat_eq_div]
  push_cast
  ring

/-- The exponent that a value rounds to (R187). -/
def e8m0Exponent (rnd : Nat) (q : Rat) : Int :=
  if floorLog2 q = ceilLog2 q then floorLog2 q
  else match rnd with
    | 2 => ceilLog2 q
    | 1 | 3 => floorLog2 q
    | _ =>
      if q < pow2 (floorLog2 q) * mkRat 3 2 then floorLog2 q else if pow2 (floorLog2 q) * mkRat 3 2 < q then ceilLog2 q
      else if rnd = 4 then ceilLog2 q
      else if rnd = 0 then (if (floorLog2 q + 127) % 2 = 0 then floorLog2 q else ceilLog2 q)
      else (if (floorLog2 q + 127) % 2 = 0 then ceilLog2 q else floorLog2 q)

theorem convE8M0_pos {rnd : Nat} {q : Rat} (hq : q ≠ 0) : convE8M0 rnd (.fin false q) =
    if 127 < e8m0Exponent rnd q then (.fin false (pow2 127), flSaturate ||| flInexact)
    else if e8m0Exponent rnd q < -127 then (.fin false (pow2 (-127)), flUnderflow ||| flInexact)
    else (.fin false (pow2 (e8m0Exponent rnd q)), flagIf (decide (floorLog2 q ≠ ceilLog2 q)) flInexact) := by
  simp only [convE8M0, hq, if_false, Bool.false_eq_true]
  rfl

theorem floorLog2_eq_ceilLog2 {q : Rat} : floorLog2 q = ceilLog2 q ↔ pow2 (floorLog2 q) = q := by
  dsimp only [ceilLog2]
  split <;> simp [*]

theorem ceilLog2_of_ne {q : Rat} (h : pow2 (floorLog2 q) ≠ q) : ceilLog2 q = floorLog2 q + 1 := if_neg h

/-- The exponent of a power of two is its own; any other value rounds to one of its neighbours, by the rounding code. -/
theorem e8m0Exponent_spec (rnd : Nat) (q : Rat) : rnd ≤ 5 →
    (pow2 (floorLog2 q) = q → e8m0Exponent rnd q = floorLog2 q) ∧
    (pow2 (floorLog2 q) ≠ q → match rnd with
      | 2 => e8m0Exponent rnd q = floorLog2 q + 1
      | 1 | 3 => e8m0Exponent rnd q = floorLog2 q
      | _ => (q < 3 * pow2 (floorLog2 q - 1) → e8m0Exponent rnd q = floorLog2 q) ∧
        (3 * pow2 (floorLog2 q - 1) < q → e8m0Exponent rnd q = floorLog2 q + 1) ∧
        (q = 3 * pow2 (floorLog2 q - 1) → (e8m0Exponent rnd q = floorLog2 q ∨ e8m0Exponent rnd q = floorLog2 q + 1) ∧
          (rnd = 4 → e8m0Exponent rnd q = floorLog2 q + 1) ∧ (rnd = 0 → (e8m0Exponent rnd q + 127) % 2 = 0) ∧
          (rnd = 5 → (e8m0Exponent rnd q + 127) % 2 = 1))) := by
  refine fun code => ⟨fun exact => if_pos (floorLog2_eq_ceilLog2.mpr exact), fun between => ?_⟩
  rw [e8m0Exponent.eq_def, if_neg (floorLog2_eq_ceilLog2.not.mpr between), ceilLog2_of_ne between, pow2_mul_three_halves]
  generalize floorLog2 q = lo
  generalize 3 * pow2 (lo - 1) = middle
  have nearest (tie : Int) : (q < middle → (if q < middle then lo else if middle < q then lo + 1 else tie) = lo) ∧
      (middle < q → (if q < middle then lo else if middle < q then lo + 1 else tie) = lo + 1) ∧
      (q = middle → (if q < middle then lo else if middle < q then lo + 1 else tie) = tie) :=
    ⟨fun below => if_pos below, fun above => by simp [above, above.not_gt], fun halfway => by simp [halfway]⟩
  interval_cases rnd
  · obtain ⟨below, above, halfway⟩ := nearest (if (lo + 127) % 2 = 0 then lo else lo + 1)
    refine ⟨below, above, fun tie => ?_⟩
    simp only [halfway tie, OfNat.zero_ne_ofNat, if_false, if_true]
    split <;> simp <;> omega
  · rfl
  · rfl
  · rfl
  · obtain ⟨below, above, halfway⟩ := nearest (lo + 1)
    exact ⟨below, above, fun tie => ⟨.inr (halfway tie), fun _ => halfway tie, fun h => absurd h (by decide), fun h => absurd h (by decide)⟩⟩
  · obtain ⟨below, above, halfway⟩ := nearest (if (lo + 127) % 2 = 0 then lo + 1 else lo)
    refine ⟨below, above, fun tie => ?_⟩
    simp only [Nat.reduceEqDiff, if_false, halfway tie]
    split <;> simp <;> omega

theorem encode_e8m0_pow2 (n : Bool) (k : Int) : Fmt.e8m0.encode (.fin n (pow2 k)) = (k + 127).toNat := by
  simp [Fmt.encode, floorLog2_pow2]

theorem convFloat_e8m0 (rnd : Nat) (sat ftz : Bool) (v : Val) :
    (convFloat .e8m0 rnd sat ftz v).bits = Fmt.e8m0.encode (convE8M0 rnd v).1 ∧ (convFloat .e8m0 rnd sat ftz v).flags = (convE8M0 rnd v).2 := ⟨rfl, rfl⟩

theorem convFloat_intoE8m0 {rnd : Nat} {sat ftz : Bool} {v : Val} (hr : rnd ≤ 5) (nonneg : MagNonneg v) :
    IntoE8m0 rnd v (convFloat .e8m0 rnd sat ftz v) := by
  obtain ⟨bits, flags⟩ := convFloat_e8m0 rnd sat ftz v
  cases v with
  | nan => exact ⟨rfl, rfl⟩
  | inf n =>
    cases n
    · exact ⟨bits.trans (encode_e8m0_pow2 false 127), rfl⟩
    · exact ⟨rfl, rfl⟩
  | fin n q =>
    rw [IntoE8m0, bits, flags]
    by_cases zero : q = 0
    · simp only [zero, convE8M0, if_true]
      exact ⟨encode_e8m0_pow2 false (-127), trivial⟩
    · cases n
      · have pos : 0 < q := lt_of_le_of_ne nonneg (Ne.symm zero)
        obtain ⟨low, high⟩ := floorLog2_spec pos
        obtain ⟨exact, between⟩ := e8m0Exponent_spec rnd q hr
        simp only [zero, if_false, Bool.false_eq_true, convE8M0_pos zero]
        refine ⟨e8m0Exponent rnd q, floorLog2 q, low, high, exact, between, ?_⟩
        generalize e8m0Exponent rnd q = k at exact between
        split
        · exact ⟨encode_e8m0_pow2 false 127, rfl⟩
        · split
          · exact ⟨encode_e8m0_pow2 false (-127), rfl⟩
          · have power : pow2 k = q ↔ pow2 (floorLog2 q) = q := ⟨fun h => by rw [← h, floorLog2_pow2], fun h => exact h ▸ h⟩
            refine ⟨?_, ?_⟩
            · rw [encode_e8m0_pow2, Int.toNat_of_nonneg (by omega)]
            · simp only [flagIf, decide_eq_true_eq, ne_eq, floorLog2_eq_ceilLog2, power, ite_not]
      · simp only [zero, if_false, if_true, convE8M0]
        exact ⟨rfl, trivial⟩

/-! ### Elements as read (R121, R186) -/

theorem val_ofReal_real (q : Rat) (zneg : Bool) : (Val.ofReal q zneg).real = q := by
  unfold Val.ofReal ratAbs
  split_ifs with zero negative
  · cases zneg <;> simp [Val.real, zero]
  · simp [Val.real, negative]
  · simp [Val.real, negative]

theorem val_ofReal_magNonneg (q : Rat) (zneg : Bool) : MagNonneg (Val.ofReal q zneg) := by
  unfold Val.ofReal ratAbs
  split_ifs with zero negative
  · exact le_refl (0 : Rat)
  · exact (neg_pos.mpr negative).le
  · exact not_lt.mp negative

theorem readElem_magNonneg (k : Kind) (w : Nat) (ftz : Bool) (x : Nat) : MagNonneg (readElem k w ftz x).val := by
  cases k with
  | flt f => exact flushIn_magNonneg (decode_magNonneg f x)
  | sint => exact val_ofReal_magNonneg _ _
  | uint => exact val_ofReal_magNonneg _ _
  | b16 => exact val_ofReal_magNonneg _ _

theorem readElem_quiet_of_finite {k : Kind} {w : Nat} {ftz : Bool} {x : Nat} (finite : (readElem k w ftz x).val.isFinite = true) :
    (readElem k w ftz x).snan = false := by
  cases k with
  | flt f =>
    simp only [readElem] at finite ⊢
    cases e : f.decode x with
    | nan => simp [e, flushIn, Val.isFinite] at finite
    | inf => rfl
    | fin => rfl
  | sint => rfl
  | uint => rfl
  | b16 => rfl

section

variable {t : Ty} (ftz : Bool) (x : Nat)

theorem readElem_int (ht : t.isInt = true) (w : Nat) :
    readElem t.kind w ftz x = { val := Val.ofReal (toInt t.signed w x) false, int := some (toInt t.signed w x), flush := 0, snan := false } := by
  obtain ⟨k, w', n⟩ := t
  cases k with
  | flt => cases ht
  | sint => rfl
  | uint => rfl
  | b16 => cases ht

theorem readElem_noInt (ht : t.isInt = false) (hk : t.kind ≠ .b16) (w : Nat) : (readElem t.kind w ftz x).int = none := by
  obtain ⟨k, w', n⟩ := t
  cases k with
  | flt => rfl
  | sint => cases ht
  | uint => cases ht
  | b16 => exact absurd rfl hk

end

/-! ### Elements as written (R186) -/

section

variable {t : Ty} {f : Fmt} {w rnd : Nat} {sat ftz : Bool} {c : ConvIn}

theorem writeElem_flt (quiet : c.snan = false) : writeElem (.flt f) w rnd sat ftz c = convFloat f rnd sat ftz c.val := by
  simp [writeElem, quiet]

theorem writeElem_ofReal (ht : t.isInt = true) (quiet : c.snan = false) (hi : c.int = none) :
    writeElem t.kind w rnd sat ftz c = convToInt t.signed w rnd c.val := by
  obtain ⟨k, w', n⟩ := t
  cases k with
  | flt => cases ht
  | sint => simp [writeElem, quiet, hi, Ty.signed]
  | uint => simp [writeElem, quiet, hi, Ty.signed]
  | b16 => cases ht

theorem writeElem_ofInt {v : Int} (ht : t.isInt = true) (quiet : c.snan = false) (hi : c.int = some v) :
    (writeElem t.kind w rnd sat ftz c).flags = 0 ∧
      (writeElem t.kind w rnd sat ftz c).bits = lowBits w (if sat then clampInt t.signed w v else v) := by
  obtain ⟨k, w', n⟩ := t
  cases k with
  | flt => cases ht
  | sint => simp [writeElem, quiet, hi, Ty.signed]
  | uint => simp [writeElem, quiet, hi, Ty.signed]
  | b16 => cases ht

end

theorem convFloat_fin {f : Fmt} (hf : f ≠ .e8m0) (rnd : Nat) (sat ftz n : Bool) (q : Rat) :
    (convFloat f rnd sat ftz (.fin n q)).bits = f.bitsOf (roundFmt f rnd sat ftz n q).val true ∧
      (convFloat f rnd sat ftz (.fin n q)).flags = (roundFmt f rnd sat ftz n q).flags := by
  unfold convFloat
  split
  · exact absurd rfl hf
  · exact ⟨rfl, rfl⟩

/-- A finite value written as a finite value has moved by their distance (R189). -/
theorem convBound_finite {β : Bnd} {c : ConvIn} {o : Conv} {q : Rat} (ho : o.val = some q) (finite : c.val.isFinite = true) :
    convBound β c o = (β.add (.fin c.flush)).add (.fin (ratAbs (c.val.real - q))) := by
  cases e : c.val with
  | nan => simp [e, Val.isFinite] at finite
  | inf => simp [e, Val.isFinite] at finite
  | fin => simp [convBound, ho, e]

/-- Between integers a value is kept modulo 2^w, or clamped to the range of the type. -/
theorem writeElem_between_integers {src dst : Ty} (hs : src.isInt = true) (hd : dst.isInt = true) (hw : 0 < dst.w) (w rnd x : Nat) (sat ftz z : Bool) :
    let o := writeElem dst.kind dst.w rnd sat ftz (readElem src.kind w z x)
    o.flags = 0 ∧
      if sat then toInt dst.signed dst.w o.bits = max (intMin dst.signed dst.w) (min (intMax dst.signed dst.w) (toInt src.signed w x))
      else (o.bits : Int) = toInt src.signed w x % 2 ^ dst.w := by
  intro o
  have read := readElem_int z x hs w
  obtain ⟨flags, bits⟩ := writeElem_ofInt (w := dst.w) (rnd := rnd) (sat := sat) (ftz := ftz) hd (congrArg ConvIn.snan read) (congrArg ConvIn.int read)
  refine ⟨flags, ?_⟩
  cases sat
  · exact (congrArg Nat.cast bits).trans (lowBits_cast dst.w _)
  · exact (congrArg (toInt dst.signed dst.w) bits).trans
      (toInt_lowBits hw (le_max_left _ _) (max_le (intMin_le_intMax _ _) (min_le_left _ _)))

/-- A finite value written in a float format is rounded to it. -/
theorem writeElem_rounds {k : Kind} {f : Fmt} (hf : f ≠ .e8m0) (w w' rnd x : Nat) (sat ftz z : Bool) :
    let r := readElem k w z x
    let o := writeElem (.flt f) w' rnd sat ftz r
    r.val.isFinite = true → o.bits = f.bitsOf (roundFmt f rnd sat ftz r.val.neg (ratAbs r.val.real)).val true ∧
      o.flags = (roundFmt f rnd sat ftz r.val.neg (ratAbs r.val.real)).flags := by
  intro r o finite
  have written : o = convFloat f rnd sat ftz r.val := writeElem_flt (readElem_quiet_of_finite finite)
  have nonneg : MagNonneg r.val := readElem_magNonneg k w z x
  rw [written]
  generalize r.val = v at finite nonneg
  cases v with
  | nan => cases finite
  | inf => cases finite
  | fin n q =>
    rw [ratAbs_real nonneg]
    exact convFloat_fin hf rnd sat ftz n q

end Sys2Proof.Proofs
end
section
/-! # `CVT`, `PACK` and `UNPK` put each converted sub-element in its place (R184, R188, R190, R191): O20 -/

namespace Sys2Proof.Proofs

open Sys2Proof Sys2Proof.Machine Sys2Proof.Laws

/-! ### Sub-elements replaced (R123) -/

/-- A lane, split at sub-element i. -/
theorem split_at_elem (x i w : Nat) : x = x % 2 ^ (i * w) + 2 ^ (i * w) * (elem x i w + 2 ^ w * (x / 2 ^ ((i + 1) * w))) := by
  have upper : x / 2 ^ (i * w) = elem x i w + 2 ^ w * (x / 2 ^ ((i + 1) * w)) := by
    rw [Nat.succ_mul, Nat.pow_add, ← Nat.div_div_eq_div_mul, elem, Nat.mod_add_div]
  rw [← upper, Nat.mod_add_div]

theorem setElem_split (x i w v : Nat) : setElem x i w v = x % 2 ^ (i * w) + 2 ^ (i * w) * (v % 2 ^ w + 2 ^ w * (x / 2 ^ ((i + 1) * w))) := by
  have whole := split_at_elem x i w
  generalize x % 2 ^ (i * w) = low, x / 2 ^ ((i + 1) * w) = high at whole ⊢
  rw [setElem]
  generalize elem x i w = e at whole ⊢
  rw [whole, Nat.mul_add, Nat.mul_add, Nat.mul_comm e, Nat.mul_comm (v % 2 ^ w)]
  omega

theorem elem_setElem_same (x i w v : Nat) : elem (setElem x i w v) i w = v % 2 ^ w := by
  rw [setElem_split, elem, Nat.add_mul_div_left _ _ (by positivity), Nat.div_eq_of_lt (Nat.mod_lt _ (by positivity)), Nat.zero_add,
    Nat.add_mul_mod_self_left, Nat.mod_mod]

/-- The sub-elements below i are those of the part below it. -/
theorem elem_below (low c : Nat) {i j w : Nat} (h : j < i) : elem (low + 2 ^ (i * w) * c) j w = elem low j w := by
  obtain ⟨k, rfl⟩ : ∃ k, i = j + 1 + k := ⟨i - (j + 1), by omega⟩
  have place : 2 ^ ((j + 1 + k) * w) * c = 2 ^ (j * w) * (2 ^ w * (2 ^ (k * w) * c)) := by
    rw [show (j + 1 + k) * w = j * w + (w + k * w) by ring, Nat.pow_add, Nat.pow_add]
    ring
  rw [elem, elem, place, Nat.add_mul_div_left _ _ (by positivity), Nat.add_mul_mod_self_left]

/-- The sub-elements above i are those of the part above it. -/
theorem elem_above {low e : Nat} (high : Nat) {i j w : Nat} (hl : low < 2 ^ (i * w)) (he : e < 2 ^ w) (h : i < j) :
    elem (low + 2 ^ (i * w) * (e + 2 ^ w * high)) j w = elem high (j - (i + 1)) w := by
  obtain ⟨k, rfl⟩ : ∃ k, j = i + 1 + k := ⟨j - (i + 1), by omega⟩
  rw [elem, elem, show i + 1 + k - (i + 1) = k by omega, show (i + 1 + k) * w = i * w + (w + k * w) by ring, Nat.pow_add, Nat.pow_add,
    ← Nat.div_div_eq_div_mul, ← Nat.div_div_eq_div_mul, Nat.add_mul_div_left _ _ (by positivity), Nat.div_eq_of_lt hl, Nat.zero_add,
    Nat.add_mul_div_left _ _ (by positivity), Nat.div_eq_of_lt he, Nat.zero_add]

theorem elem_setElem_other (x w v : Nat) {i j : Nat} (h : i ≠ j) : elem (setElem x i w v) j w = elem x j w := by
  rw [setElem_split]
  conv_rhs => rw [split_at_elem x i w]
  rcases Nat.lt_or_gt_of_ne h with above | below
  · have low : x % 2 ^ (i * w) < 2 ^ (i * w) := Nat.mod_lt _ (by positivity)
    rw [elem_above _ low (Nat.mod_lt _ (by positivity)) above,
      elem_above _ low (show elem x i w < 2 ^ w from Nat.mod_lt _ (by positivity)) above]
  · rw [elem_below _ _ below, elem_below _ _ below]

/-- A sub-element within the low N bits is one of theirs. -/
theorem elem_mod (x : Nat) {j w N : Nat} (h : j * w + w ≤ N) : elem (x % 2 ^ N) j w = elem x j w := by
  obtain ⟨k, rfl⟩ : ∃ k, N = j * w + (w + k) := ⟨N - (j * w + w), by omega⟩
  rw [elem, elem, Nat.pow_add, Nat.mod_mul_right_div_self, Nat.pow_add, Nat.mod_mul_right_mod]

/-- The sub-elements of every type fit a pair, and there are five of 6 bits. -/
theorem tyOf_fits {m : Nat} {t : Ty} (h : tyOf m = some t) : t.n * t.w ≤ 64 ∧ (t.w = 6 → t.n = 5) := by
  unfold tyOf at h
  split at h <;> cases h <;> decide

theorem elem_fits {m : Nat} {t : Ty} (ht : tyOf m = some t) {j : Nat} (hj : j < t.n) : j * t.w + t.w ≤ 64 :=
  calc j * t.w + t.w = (j + 1) * t.w := (Nat.succ_mul j t.w).symm
    _ ≤ t.n * t.w := Nat.mul_le_mul_right _ hj
    _ ≤ 64 := (tyOf_fits ht).1

section

variable {ι : Type} (w : Nat) (pos val : ι → Nat) {l : List ι} (x : Nat)

/-- A sub-element that none of the places names is kept. -/
theorem elem_foldl_setElem_of_not {j : Nat} (h : ∀ i ∈ l, pos i ≠ j) : elem (l.foldl (fun v i => setElem v (pos i) w (val i)) x) j w = elem x j w := by
  induction l generalizing x with
  | nil => rfl
  | cons i l ih =>
    obtain ⟨first, rest⟩ := List.forall_mem_cons.mp h
    rw [List.foldl_cons, ih _ rest, elem_setElem_other _ _ _ first]

/-- A sub-element that one place names is the one put there. -/
theorem elem_foldl_setElem_of_mem {i : ι} (hi : i ∈ l) (only : ∀ i' ∈ l, pos i' = pos i → i' = i) :
    elem (l.foldl (fun v i => setElem v (pos i) w (val i)) x) (pos i) w = val i % 2 ^ w := by
  induction l generalizing x with
  | nil => cases hi
  | cons k l ih =>
    obtain ⟨first, rest⟩ := List.forall_mem_cons.mp only
    rw [List.foldl_cons]
    by_cases later : i ∈ l
    · exact ih _ later rest
    · obtain rfl : i = k := by simpa [later] using hi
      rw [elem_foldl_setElem_of_not w pos val _ fun i' hi' same => later (rest i' hi' same ▸ hi'), elem_setElem_same]

end

/-! ### The largest of bound terms (R125) -/

/-- The order of bound terms: untracked above unbounded above the finite ones. -/
def BndLe : Bnd → Bnd → Prop
  | _, .untr => True
  | .untr, _ => False
  | _, .unb => True
  | .unb, _ => False
  | .fin a, .fin b => a ≤ b

theorem bndLe_refl (x : Bnd) : BndLe x x := by
  cases x <;> simp [BndLe]

theorem bndLe_antisymm {x y : Bnd} (hxy : BndLe x y) (hyx : BndLe y x) : x = y := by
  cases x <;> cases y <;> simp_all [BndLe]
  exact le_antisymm hxy hyx

theorem bndLe_trans {x y z : Bnd} (hxy : BndLe x y) (hyz : BndLe y z) : BndLe x z := by
  cases x <;> cases y <;> cases z <;> simp_all [BndLe]
  exact le_trans hxy hyz

theorem max_bndLe_iff {x y u : Bnd} : BndLe (x.max y) u ↔ BndLe x u ∧ BndLe y u := by
  cases x with
  | untr => cases u <;> simp [Bnd.max, BndLe]
  | unb => cases y <;> cases u <;> simp [Bnd.max, BndLe]
  | fin a => cases y with
    | untr => cases u <;> simp [Bnd.max, BndLe]
    | unb => cases u <;> simp [Bnd.max, BndLe]
    | fin b => cases u with
      | untr => simp [BndLe]
      | unb => simp [Bnd.max, BndLe]
      | fin q => simp only [Bnd.max, BndLe, ← max_def, max_le_iff]

/-- What the largest of a list stays below, all of it stays below. -/
theorem foldl_max_bndLe_iff {ι : Type} (f : ι → Bnd) (l : List ι) (x u : Bnd) :
    BndLe (l.foldl (fun b i => b.max (f i)) x) u ↔ BndLe x u ∧ ∀ i ∈ l, BndLe (f i) u := by
  induction l generalizing x with
  | nil => simp
  | cons i l ih => rw [List.foldl_cons, ih, max_bndLe_iff, List.forall_mem_cons, and_assoc]

/-- Two largest that stay below the same bounds are one. -/
theorem bnd_eq_of_le_iff {x y : Bnd} (h : ∀ u, BndLe x u ↔ BndLe y u) : x = y :=
  bndLe_antisymm ((h y).mpr (bndLe_refl y)) ((h x).mp (bndLe_refl x))

theorem zero_bndLe_of (b : B16) : BndLe (.fin 0) (Bnd.of b) := by
  cases e : Bnd.of b with
  | untr => trivial
  | unb => trivial
  | fin q =>
    obtain ⟨-, rfl⟩ := bndOf_fin.mp e
    exact mul_nonneg (Nat.cast_nonneg _) (bndUnit_pos _).le

/-! ### The parts of a conversion (R188) -/

section

variable (src dst : Ty) (p : Nat)

/-- The sub-element of the source that is converted as the i-th of part p. -/
def cvtSource (i : Nat) : Nat := if dst.n < src.n then p * min src.n dst.n + i else i

/-- The sub-element of the destination that the i-th of part p goes to. -/
def cvtTarget (i : Nat) : Nat := if src.n < dst.n then p * min src.n dst.n + i else i

/-- Those of part p that both types have. -/
def cvtParts : List Nat := (List.range (min src.n dst.n)).filter fun i => decide (cvtSource src dst p i < src.n) && decide (cvtTarget src dst p i < dst.n)

/-- The rest of the destination is kept where the part does not reach every sub-element of it. -/
def cvtKeeps : Bool := decide ((cvtParts src dst p).length < dst.n)

variable {src dst p}

theorem mem_cvtParts {i : Nat} : i ∈ cvtParts src dst p ↔ i < min src.n dst.n ∧ cvtSource src dst p i < src.n ∧ cvtTarget src dst p i < dst.n := by
  simp [cvtParts]

theorem cvtTarget_inj {i i' : Nat} (h : cvtTarget src dst p i = cvtTarget src dst p i') : i = i' := by
  unfold cvtTarget at h
  split at h
  · exact Nat.add_left_cancel h
  · exact h

/-- A sub-element of the destination is written from source sub-element n exactly where one of the part goes from n to it. -/
theorem cvtFrom_eq_some {j n : Nat} :
    j < dst.n ∧ cvtFrom src dst p j = some n ↔ ∃ i ∈ cvtParts src dst p, cvtTarget src dst p i = j ∧ cvtSource src dst p i = n := by
  simp only [mem_cvtParts, cvtFrom, cvtSource, cvtTarget]
  rcases Nat.lt_trichotomy src.n dst.n with widens | same | narrows
  · have k : min src.n dst.n = src.n := by omega
    simp only [widens, widens.not_gt, k, if_true, if_false]
    constructor
    · rintro ⟨hj, from_n⟩
      split at from_n
      case isTrue inside =>
        cases from_n
        exact ⟨j - p * src.n, by omega, by omega, rfl⟩
      case isFalse => cases from_n
    · rintro ⟨i, ⟨hi, -, hj⟩, rfl, rfl⟩
      exact ⟨hj, by rw [if_pos (by omega), Nat.add_sub_cancel_left]⟩
  · simp only [same, lt_self_iff_false, if_false, min_self]
    constructor
    · rintro ⟨hj, from_n⟩
      cases from_n
      exact ⟨_, ⟨hj, hj, hj⟩, rfl, rfl⟩
    · rintro ⟨i, ⟨hi, -⟩, rfl, rfl⟩
      exact ⟨hi, rfl⟩
  · have k : min src.n dst.n = dst.n := by omega
    simp only [narrows, narrows.not_gt, k, if_true, if_false]
    constructor
    · rintro ⟨hj, from_n⟩
      split at from_n
      case isTrue inside =>
        cases from_n
        exact ⟨j, ⟨hj, inside, hj⟩, rfl, rfl⟩
      case isFalse => cases from_n
    · rintro ⟨i, ⟨hi, inside, -⟩, rfl, rfl⟩
      exact ⟨hi, if_pos inside⟩

theorem cvtFrom_target {i : Nat} (hi : i ∈ cvtParts src dst p) :
    cvtTarget src dst p i < dst.n ∧ cvtFrom src dst p (cvtTarget src dst p i) = some (cvtSource src dst p i) :=
  cvtFrom_eq_some.mpr ⟨i, hi, rfl, rfl⟩

theorem cvtTarget_ne_of_none {j : Nat} (h : cvtFrom src dst p j = none) : ∀ i ∈ cvtParts src dst p, cvtTarget src dst p i ≠ j := by
  rintro i hi rfl
  cases h.symm.trans (cvtFrom_target hi).2

/-- A part that does not reach every sub-element of the destination leaves one as it stood. -/
theorem cvtKeeps_iff : cvtKeeps src dst p = true ↔ ∃ j < dst.n, cvtFrom src dst p j = none := by
  have nodup : ((cvtParts src dst p).map (cvtTarget src dst p)).Nodup := (List.nodup_range.filter _).map fun _ _ => cvtTarget_inj
  have mem (j : Nat) : j ∈ (cvtParts src dst p).map (cvtTarget src dst p) ↔ j < dst.n ∧ cvtFrom src dst p j ≠ none := by
    rw [List.mem_map, Option.ne_none_iff_exists']
    constructor
    · rintro ⟨i, hi, rfl⟩
      exact ⟨(cvtFrom_target hi).1, _, (cvtFrom_target hi).2⟩
    · rintro ⟨hj, n, hn⟩
      obtain ⟨i, hi, target, -⟩ := cvtFrom_eq_some.mp ⟨hj, hn⟩
      exact ⟨i, hi, target⟩
  rw [cvtKeeps, decide_eq_true_iff, ← not_iff_not, not_lt]
  push Not
  constructor
  · intro long j hj
    have subset : (cvtParts src dst p).map (cvtTarget src dst p) ⊆ List.range dst.n := fun j hj => List.mem_range.mpr ((mem j).mp hj).1
    have perm := (List.subperm_of_subset nodup subset).perm_of_length_le (by simpa using long)
    exact ((mem j).mp (perm.mem_iff.mpr (List.mem_range.mpr hj))).2
  · intro all
    have subset : List.range dst.n ⊆ (cvtParts src dst p).map (cvtTarget src dst p) := fun j hj =>
      (mem j).mpr ⟨List.mem_range.mp hj, all j (List.mem_range.mp hj)⟩
    simpa using (List.subperm_of_subset List.nodup_range subset).length_le

end

/-! ### A lane of `CVT` (R188) -/

section

variable (c : Gang) (src dst : Ty) (p x : Nat) (βx : B16) (old : Nat) (βold : B16)

/-- Sub-element n of the source, converted. -/
def cvtElem (n : Nat) : Nat × Bnd × BitVec 9 :=
  convElem src.kind dst.kind src.w dst.w (modeRnd c.mode) (modeSat c.mode) (modeFtz c.mode) βx (elem x n src.w)

/-- What a lane of the destination starts from. -/
def cvtStart : Nat := if dst.w = 6 then old % 2 ^ 30 else if cvtKeeps src dst p then old else 0

/-- The bound term that a lane starts from. -/
def cvtStartBnd : Bnd := if cvtKeeps src dst p then Bnd.of βold else .fin 0

/-- The bound term of sub-element j of the destination: of the conversion that writes it, or of what is kept. -/
def cvtTerm (j : Nat) : Bnd := match cvtFrom src dst p j with
  | some n => (cvtElem c src dst x βx n).2.1
  | none => Bnd.of βold

/-- The flags that sub-element j of the destination raises. -/
def cvtFlags (j : Nat) : BitVec 9 := match cvtFrom src dst p j with
  | some n => (cvtElem c src dst x βx n).2.2
  | none => 0

theorem cvtLane_val : (cvtLane c src dst p (min src.n dst.n) x βx old βold).val = BitVec.ofNat 64
    ((cvtParts src dst p).foldl (fun v i => setElem v (cvtTarget src dst p i) dst.w (cvtElem c src dst x βx (cvtSource src dst p i)).1)
      (cvtStart src dst p old)) :=
  congrArg (BitVec.ofNat 64) (List.foldl_hom Prod.fst fun _ _ => rfl).symm

theorem cvtLane_bnd : (cvtLane c src dst p (min src.n dst.n) x βx old βold).bnd = if c.untracked then b16Untracked else
    ((cvtParts src dst p).foldl (fun b i => b.max (cvtElem c src dst x βx (cvtSource src dst p i)).2.1) (cvtStartBnd src dst p βold)).toB16 :=
  congrArg (fun b : Bnd => if c.untracked then b16Untracked else b.toB16) (List.foldl_hom (fun acc : Nat × Bnd × BitVec 9 => acc.2.1) fun _ _ => rfl).symm

theorem cvtLane_flags : (cvtLane c src dst p (min src.n dst.n) x βx old βold).flags =
    (cvtParts src dst p).foldl (fun fl i => fl ||| (cvtElem c src dst x βx (cvtSource src dst p i)).2.2) 0 :=
  (List.foldl_hom (fun acc : Nat × Bnd × BitVec 9 => acc.2.2) fun _ _ => rfl).symm

variable {src dst}

/-- What a sub-element that is not written starts from is what it was. -/
theorem elem_cvtStart {m : Nat} (hd : tyOf m = some dst) {j : Nat} (hj : j < dst.n) (h : cvtFrom src dst p j = none) :
    elem (cvtStart src dst p old) j dst.w = elem old j dst.w := by
  have keeps : cvtKeeps src dst p = true := cvtKeeps_iff.mpr ⟨j, hj, h⟩
  by_cases six : dst.w = 6
  · have five : dst.n = 5 := (tyOf_fits hd).2 six
    rw [cvtStart, if_pos six, six]
    exact elem_mod old (by omega)
  · rw [cvtStart, if_neg six, if_pos keeps]

theorem elem_cvtLane {m : Nat} (hd : tyOf m = some dst) {j : Nat} (hj : j < dst.n) :
    elem (cvtLane c src dst p (min src.n dst.n) x βx old βold).val.toNat j dst.w =
      match cvtFrom src dst p j with
      | some n => (cvtElem c src dst x βx n).1 % 2 ^ dst.w
      | none => elem old j dst.w := by
  rw [cvtLane_val, BitVec.toNat_ofNat, elem_mod _ (elem_fits hd hj)]
  cases from_j : cvtFrom src dst p j with
  | none => rw [elem_foldl_setElem_of_not _ _ _ _ (cvtTarget_ne_of_none from_j), elem_cvtStart p old hd hj from_j]
  | some n =>
    obtain ⟨i, hi, rfl, rfl⟩ := cvtFrom_eq_some.mp ⟨hj, from_j⟩
    exact elem_foldl_setElem_of_mem dst.w _ (fun i => (cvtElem c src dst x βx (cvtSource src dst p i)).1) _ hi fun _ _ => cvtTarget_inj

theorem cvtTerm_target {i : Nat} (hi : i ∈ cvtParts src dst p) :
    cvtTerm c src dst p x βx βold (cvtTarget src dst p i) = (cvtElem c src dst x βx (cvtSource src dst p i)).2.1 := by
  rw [cvtTerm, (cvtFrom_target hi).2]

theorem zero_bndLe_cvtStartBnd : BndLe (.fin 0) (cvtStartBnd src dst p βold) := by
  unfold cvtStartBnd
  split
  · exact zero_bndLe_of βold
  · exact bndLe_refl _

/-- The terms that a lane is folded from and those of its sub-elements stay below the same bounds. -/
theorem cvtTerms_bndLe_iff (u : Bnd) :
    (BndLe (cvtStartBnd src dst p βold) u ∧ ∀ i ∈ cvtParts src dst p, BndLe (cvtElem c src dst x βx (cvtSource src dst p i)).2.1 u) ↔
      (BndLe (.fin 0) u ∧ ∀ j ∈ List.range dst.n, BndLe (cvtTerm c src dst p x βx βold j) u) := by
  constructor
  · rintro ⟨start, parts⟩
    refine ⟨bndLe_trans (zero_bndLe_cvtStartBnd p βold) start, fun j hj => ?_⟩
    have hj := List.mem_range.mp hj
    cases from_j : cvtFrom src dst p j with
    | none => simpa [cvtTerm, from_j, cvtStartBnd, cvtKeeps_iff.mpr ⟨j, hj, from_j⟩] using start
    | some n =>
      obtain ⟨i, hi, rfl, rfl⟩ := cvtFrom_eq_some.mp ⟨hj, from_j⟩
      rw [cvtTerm_target c p x βx βold hi]
      exact parts i hi
  · rintro ⟨zero, terms⟩
    refine ⟨?_, fun i hi => ?_⟩
    · cases keeps : cvtKeeps src dst p with
      | false => simpa [cvtStartBnd, keeps] using zero
      | true =>
        obtain ⟨j, hj, from_j⟩ := cvtKeeps_iff.mp keeps
        simpa [cvtTerm, from_j, cvtStartBnd, keeps] using terms j (List.mem_range.mpr hj)
    · rw [← cvtTerm_target c p x βx βold hi]
      exact terms _ (List.mem_range.mpr (cvtFrom_target hi).1)

theorem bnd_cvtLane : (cvtLane c src dst p (min src.n dst.n) x βx old βold).bnd =
    if c.untracked then b16Untracked else maxTerms ((List.range dst.n).map (cvtTerm c src dst p x βx βold)) := by
  have terms : (cvtParts src dst p).foldl (fun b i => b.max (cvtElem c src dst x βx (cvtSource src dst p i)).2.1) (cvtStartBnd src dst p βold) =
      (List.range dst.n).foldl (fun b j => b.max (cvtTerm c src dst p x βx βold j)) (.fin 0) :=
    bnd_eq_of_le_iff fun u => by rw [foldl_max_bndLe_iff, foldl_max_bndLe_iff, cvtTerms_bndLe_iff]
  rw [cvtLane_bnd, maxTerms, List.foldl_map, terms]

theorem flags_cvtLane : (cvtLane c src dst p (min src.n dst.n) x βx old βold).flags =
    (List.range dst.n).foldl (fun fl j => match cvtFrom src dst p j with
      | some n => fl ||| (cvtElem c src dst x βx n).2.2
      | none => fl) 0 := by
  have raises : (fun (fl : BitVec 9) j => match cvtFrom src dst p j with
      | some n => fl ||| (cvtElem c src dst x βx n).2.2
      | none => fl) = fun fl j => fl ||| cvtFlags c src dst p x βx j := by
    funext fl j
    rw [cvtFlags]
    cases cvtFrom src dst p j with
    | none => exact BitVec.or_zero.symm
    | some n => rfl
  rw [cvtLane_flags, raises]
  refine BitVec.eq_of_getLsbD_eq fun b _ => Bool.eq_iff_iff.mpr ?_
  simp only [orFold_getLsbD, List.mem_range]
  refine or_congr_right ⟨?_, ?_⟩
  · rintro ⟨i, hi, set⟩
    exact ⟨_, (cvtFrom_target hi).1, by rwa [cvtFlags, (cvtFrom_target hi).2]⟩
  · rintro ⟨j, hj, set⟩
    cases from_j : cvtFrom src dst p j with
    | none => simp [cvtFlags, from_j] at set
    | some n =>
      obtain ⟨i, hi, rfl, rfl⟩ := cvtFrom_eq_some.mp ⟨hj, from_j⟩
      exact ⟨i, hi, by rwa [cvtFlags, from_j] at set⟩

end

/-! ### A lane of `PACK` (R190) -/

section

variable (c : Gang) (t : Ty) (f : Nat → Nat × Bnd × BitVec 9)

theorem packLane_val : (packLane c t f).val = BitVec.ofNat 64 (fields t.w (fun j => (f j).1) t.n) :=
  congrArg (BitVec.ofNat 64) (List.foldl_hom Prod.fst fun _ _ => rfl).symm

theorem packLane_bnd : (packLane c t f).bnd = if c.untracked then b16Untracked else maxTerms ((List.range t.n).map fun j => (f j).2.1) := by
  have terms : ((List.range t.n).foldl (fun (acc : Nat × Bnd × BitVec 9) j =>
      (acc.1 + (f j).1 % 2 ^ t.w * 2 ^ (j * t.w), acc.2.1.max (f j).2.1, acc.2.2 ||| (f j).2.2)) (0, .fin 0, 0)).2.1 =
        (List.range t.n).foldl (fun b j => b.max (f j).2.1) (.fin 0) :=
    (List.foldl_hom (fun acc : Nat × Bnd × BitVec 9 => acc.2.1) fun _ _ => rfl).symm
  rw [maxTerms, List.foldl_map, ← terms]
  rfl

theorem packLane_flags : (packLane c t f).flags = (List.range t.n).foldl (fun a j => a ||| (f j).2.2) 0 :=
  (List.foldl_hom (fun acc : Nat × Bnd × BitVec 9 => acc.2.2) fun _ _ => rfl).symm

variable {t}

theorem packLane_packed {m : Nat} (ht : tyOf m = some t) : PackedLane c t f (packLane c t f) := by
  have small := (fields_lt t.w (fun j => (f j).1) t.n).trans_le (Nat.pow_le_pow_right two_pos (tyOf_fits ht).1)
  have val : (packLane c t f).val.toNat = fields t.w (fun j => (f j).1) t.n := by
    rw [packLane_val, BitVec.toNat_ofNat, Nat.mod_eq_of_lt small]
  refine ⟨fun j hj => ?_, ?_, packLane_bnd c t f, packLane_flags c t f⟩
  · rw [val, elem_fields _ _ _ _ hj]
  · rw [val]
    exact fields_lt _ _ _

end

/-! ### The instructions -/

section

variable {s : State} {c : Gang} {t : Ty}

/-- A gang's trap 0x01 with a cause. -/
theorem illegal_trapped {i : Instr} {u : Uses} {body : Gang → Result} {cause : Nat} (he : exec i s = issue i s u body) (h : Issues i s c u)
    (hb : body c = c.illegal cause) : exec i s = .next (trapped s c (illegalTrap c cause)) :=
  he.trans (issue_trap h hb)

section

variable {d : Dst} {a : Src} {part : BitVec 3} {code : BitVec 5} {src : Ty}

theorem exec_cvt_of (hs : tyOf code.toNat = some src) : exec (.cvt d a part code) s =
    issue (.cvt d a part code) s { regs := dstRegs d, ranges := (srcRegs a).map fun r => (r, if src.is64 then 2 else 1) } fun c =>
      match c.ty with
      | none => c.badMode
      | some t =>
        if t.kind = .b16 then c.badMode
        else if src.is64 && !a.even then c.illegal 2
        else if (max src.n t.n + min src.n t.n - 1) / min src.n t.n ≤ part.toNat then c.illegal 1
        else c.deliverConv (spend s (if src.is64 || t.is64 then 1 else 0)) (decide (src.w ≤ 8) || decide (t.w ≤ 8)) t.is64 (decide (d = .discard))
          [(d, fun l => cvtLane c src t part.toNat (min src.n t.n) ((c.opndRaw src.is64 a).at l) ((c.opndRaw src.is64 a).bndAt l)
            ((c.opnd t (dstSrc d)).at l) ((c.opnd t (dstSrc d)).bndAt l))] := by
  rw [exec_cvt, execCvt, hs]
  rfl

variable (h : Issues (.cvt d a part code) s c { regs := dstRegs d, ranges := (srcRegs a).map fun r => (r, if src.is64 then 2 else 1) })
  (hs : tyOf code.toNat = some src) (ht : c.ty = some t) (hk : t.kind ≠ .b16) (even : src.is64 = true → a.even = true)

include h hs ht hk even

theorem cvt_illegal (beyond : (max src.n t.n + min src.n t.n - 1) / min src.n t.n ≤ part.toNat) :
    exec (.cvt d a part code) s = .next (trapped s c (illegalTrap c 1)) := by
  refine illegal_trapped (exec_cvt_of hs) h ?_
  have pair : ¬(src.is64 && !a.even) = true := by simpa using even
  simp only [ht, hk, if_false, if_neg pair, if_pos beyond]

theorem cvt_converts (within : part.toNat < (max src.n t.n + min src.n t.n - 1) / min src.n t.n) :
    Converts (.cvt d a part code) s c (if src.is64 || t.is64 then 1 else 0) (decide (src.w ≤ 8) || decide (t.w ≤ 8)) t.is64 (decide (d = .discard))
      [(d, fun l => cvtLane c src t part.toNat (min src.n t.n) ((c.opndRaw src.is64 a).at l) ((c.opndRaw src.is64 a).bndAt l)
        ((c.opnd t (dstSrc d)).at l) ((c.opnd t (dstSrc d)).bndAt l))] := by
  refine deliverConv_converts (exec_cvt_of hs) h ?_
  have pair : ¬(src.is64 && !a.even) = true := by simpa using even
  simp only [ht, hk, if_false, if_neg pair, if_neg within.not_ge]

end

section

variable {d : Dst} {a : VFirst} (h : Issues (.pack d a) s c { regs := dstRegs d, byMode := [(.v a, packCount packTy)] }) (ht : c.ty = some t)

include h ht

theorem pack_badMode (hp : packTy t = false) : exec (.pack d a) s = .next (trapped s c (modeTrap c)) :=
  badMode_trapped (exec_pack d a s) h (by simp [ht, hp])

theorem pack_converts (hp : packTy t = true) : Converts (.pack d a) s c (t.n - 1) (decide (t.w ≤ 8)) false (decide (d = .discard))
    [(d, fun l => packLane c t fun j => convElem (wideOf t) t.kind 32 t.w (modeRnd c.mode) (modeSat c.mode) (modeFtz c.mode)
      ((c.view.opnd false (rangeReg a j)).bndAt l) ((c.view.opnd false (rangeReg a j)).at l))] :=
  deliverConv_converts (exec_pack d a s) h (by simp only [ht, hp, Bool.not_true, Bool.false_eq_true, if_false])

end

section

variable {d : VFirst} {a : Src} {count first : BitVec 3}

/-- What a register of `UNPK` takes of one lane: its sub-element, widened. -/
def unpkOut (c : Gang) (t : Ty) (a : Src) (first j l : Nat) : LaneOut :=
  let r := convElem t.kind (wideOf t) t.w 32 0 (modeSat c.mode) (modeFtz c.mode) ((c.opnd t a).bndAt l) (elem ((c.opnd t a).at l) (first + j) t.w)
  { val := BitVec.ofNat 64 r.1, bnd := if c.untracked then b16Untracked else r.2.1.toB16, flags := r.2.2, tier := 0 }

variable (h : Issues (.unpk d a count first) s c { regs := srcRegs a, ranges := [(.v d, count.toNat + 1)] }) (ht : c.ty = some t)

include h ht

theorem unpk_badMode (hp : packTy t = false) : exec (.unpk d a count first) s = .next (trapped s c (modeTrap c)) :=
  badMode_trapped (exec_unpk d a count first s) h (by simp [ht, hp])

theorem unpk_illegal (hp : packTy t = true) (beyond : t.n < first.toNat + count.toNat + 1) :
    exec (.unpk d a count first) s = .next (trapped s c (illegalTrap c 1)) :=
  illegal_trapped (exec_unpk d a count first s) h (by simp only [ht, hp, Bool.not_true, Bool.false_eq_true, if_false]; exact if_pos beyond)

theorem unpk_converts (hp : packTy t = true) (within : first.toNat + count.toNat + 1 ≤ t.n) :
    Converts (.unpk d a count first) s c count.toNat (decide (t.w ≤ 8)) false false
      ((List.range (count.toNat + 1)).map fun j => (.reg (rangeReg d j), unpkOut c t a first.toNat j)) :=
  deliverConv_converts (exec_unpk d a count first s) h
    (by simp only [ht, hp, Bool.not_true, Bool.false_eq_true, if_false]; exact if_neg (not_lt.mpr within))

end

end

/-- Settles O20: an element converts by `readElem` and `writeElem`, whose rules stand above; each instruction delivers lanes put together from such
elements, `CVT` by `cvtFrom_eq_some`. -/
theorem conversionsOfElementsAndWords : Obligations.ConversionsOfElementsAndWords := by
  unfold Obligations.ConversionsOfElementsAndWords
  refine ⟨fun src dst m m' rnd x sat ftz β _ hd code _ hs => ?_, fun s c t ht => ⟨fun d a part code src hs _ hk even h => ?_, fun d a h => ?_,
    fun d a count first h => ?_⟩⟩
  · intro z r o
    obtain ⟨-, -, -, wide⟩ := tyOf_width hd
    have nonneg : MagNonneg r.val := readElem_magNonneg src.kind src.w z x
    refine ⟨rfl, rfl, fun q => convBound_finite, fun f hf => ?_, fun hi => ?_, fun hi hj => ?_, fun hi quiet hj => ?_, fun quiet hk => ?_, fun finite f hf hk => ?_⟩
    · simp only [r, hf]
      exact ⟨rfl, rfl⟩
    · simp only [r, readElem_int z x hi]
      exact ⟨val_ofReal_real _ _, trivial⟩
    · exact writeElem_between_integers hi hj (by omega) src.w rnd x sat ftz z
    · simp only [o, writeElem_ofReal hj quiet (readElem_noInt z x hi hs src.w)]
      exact convToInt_intoInt (by omega) nonneg
    · simp only [o, hk, writeElem_flt quiet]
      exact convFloat_intoE8m0 code nonneg
    · simp only [o, hk]
      exact writeElem_rounds hf src.w dst.w rnd x sat ftz z finite
  · exact ⟨cvt_illegal h hs ht hk even, fun within =>
      ⟨_, fun l _ => ⟨fun j hj => elem_cvtLane c _ _ _ _ _ ht hj, bnd_cvtLane c _ _ _ _ _, flags_cvtLane c _ _ _ _ _⟩, cvt_converts h hs ht hk even within⟩⟩
  · exact ⟨pack_badMode h ht, fun hp => ⟨_, fun l _ => packLane_packed c _ ht, pack_converts h ht hp⟩⟩
  · exact ⟨unpk_badMode h ht, unpk_illegal h ht, fun hp within =>
      ⟨_, fun j l _ => ⟨BitVec.toNat_ofNat _ _, rfl, rfl⟩, unpk_converts h ht hp within⟩⟩

end Sys2Proof.Proofs
end
